-- ==== Sys2Proof/Word.lean ====
section
/-!
DEFINITION. The word types of the TN9 (R5, R120): registers, bytes and the numbers that instruction fields hold.
-/

namespace Sys2Proof

/-- A general register, an address or a control register (R120). -/
abbrev Word := BitVec 64

/-- The smallest unit of every memory (R5). -/
abbrev Byte := BitVec 8

/-- The number of a general register `g0`–`g31` (R112). -/
abbrev GReg := BitVec 5

/-- The number of a predicate register `p0`–`p7` (R112). -/
abbrev PReg := BitVec 3

/-- The number of a pointer register `a0`–`a7` (R112). -/
abbrev AReg := BitVec 3

/-- The number of a vector register `v0`–`v15` or `w0`–`w15` (R112). -/
abbrev VReg := BitVec 4

/-- The number of a queue register `q0`–`q7` (R112). -/
abbrev QReg := BitVec 3

/-- A bundle writer: package number and core source index (R164). -/
abbrev Writer := BitVec 16

/-- A commit sequence number (R164, R212). -/
abbrev CSeq := BitVec 32

end Sys2Proof
end

