-- ==== Sys2Proof/Forms.lean ====
section
/-!
DEFINITION. The operand forms and suffixes of the instructions (R108–R115), and the messages that packages exchange
(R325, R332).
-/

namespace Sys2Proof

/-- Instruction length (R105). -/
inductive Len where
  | l64 | l96 | l128
  deriving DecidableEq, Repr

/-- The fields that every instruction has beside its operands: guard and stall count (R108, R110, R111). -/
structure Hdr where
  gp : PReg
  gn : Bool
  stall : BitVec 3
  deriving DecidableEq, Repr

/-- A pointer operand: `[an]`, `[an]+`, `[an]+=step` (R113). -/
inductive Ptr where
  | plain (n : AReg)
  | inc (n : AReg)
  | step (n : AReg) (k : BitVec 10)
  deriving DecidableEq, Repr

/-- Size codes of R115. -/
inductive Size where
  | b | h | w | d
  deriving DecidableEq, Repr

/-- Format codes of R115. -/
inductive Fmt where
  | f32 | bf16 | f16 | e4m3 | e5m2 | i8 | i16 | i32 | i64 | w4 | w3 | e5m3
  deriving DecidableEq, Repr

/-- Rounding codes of R115. -/
inductive Rnd where
  | rn | rz | ru | rd | rs
  deriving DecidableEq, Repr

/-- Scope codes of R115. -/
inductive Scope where
  | cluster | die | package | system
  deriving DecidableEq, Repr

/-- Condition codes of R145. -/
inductive Cond where
  | eq | ne | lt | le | gt | ge | ltu | leu | gtu | geu | tst | ntst
  deriving DecidableEq, Repr

/-- Combine codes of R145. -/
inductive Comb where
  | set | and | or
  deriving DecidableEq, Repr

/-- Floating-point conditions of R155. -/
inductive FCond where
  | eq | ne | lt | le | gt | ge | un | ord
  deriving DecidableEq, Repr

/-- The condition of `VCMP`: of R145 for integer formats, of R155 for float formats (R238). -/
inductive VCond where
  | int (c : Cond)
  | flt (c : FCond)
  deriving DecidableEq, Repr

/-- Scratchpad integer operations (R207). -/
inductive SaluOp where
  | add | sub | and | or | xor | min | max | minu | maxu | adds | addus | mul
  deriving DecidableEq, Repr

/-- Scratchpad float operations (R207). -/
inductive SfltOp where
  | add | sub | mul | min | max | minp | maxp
  deriving DecidableEq, Repr

/-- Fold operations (R222). -/
inductive FoldOp where
  | add | min | max | and | or | xor
  deriving DecidableEq, Repr

/-- Vector reductions (R239). -/
inductive RedOp where
  | add | min | max | minp | maxp | and | or | xor
  deriving DecidableEq, Repr

/-- Combining copy operations (R294). -/
inductive CpyOp where
  | add | min | max | minp | maxp
  deriving DecidableEq, Repr

/-- One operation of a chain (R243). -/
inductive ChainOp where
  | add | sub | mul | min | max | minp | maxp | abs | neg
  deriving DecidableEq, Repr

/-- The operand of a chain operation (R243). -/
inductive ChainSrc where
  | s1 | c0 | c1
  deriving DecidableEq, Repr

/-- A stochastic-rounding operand group `gt, gr, key` (R242, R263). -/
structure RsOp where
  gt : GReg
  gr : GReg
  key : BitVec 4
  deriving DecidableEq, Repr

/-- The completion-word field of a copy command (R294): whether the word is written, and the pointer operand of `PMODE` 0,
which stands in the encoding in either case. -/
structure WordOp where
  write : Bool
  ptr : AReg
  deriving DecidableEq, Repr

/-- The pointer register that the command uses. -/
def WordOp.reg? (w : WordOp) : Option AReg := if w.write then some w.ptr else none

/-- An included set: writers and the bound up to which their bundles are included (R219). -/
abbrev IncSet := List (Writer × CSeq)

/-- What a message between two contexts carries (R325, R332–R339, R361, R362). -/
inductive RBody where
  /-- a line of a bundle: the bytes written at offsets of the line (R336) -/
  | line (seq : CSeq) (idx : Nat) (addr : Word) (bytes : List (Nat × Byte))
  /-- a fold contribution line: object, contribution, line of it, lines in all (R337) -/
  | fold (seq : CSeq) (idx : Nat) (addr : Word) (k : Nat) (l lines : Nat) (bytes : List (Nat × Byte))
  /-- `addr` is the line that was written: the staging line of a contribution -/
  | lineAck (seq : CSeq) (idx : Nat) (addr : Word)
  | settle (seq : CSeq) (idx : Nat) (addr : Word)
  | settleAck (seq : CSeq) (idx : Nat)
  | quiet (seq : CSeq) (idx : Nat) (addr : Word)
  /-- the release of `RST.rel` (R336) -/
  | release (tmpl : BitVec 12) (arg : Word) (taskId : Word) (set : IncSet)
  /-- the request and the reply of `RLD` (R335) -/
  | loadReq (req : Nat) (addr : Word) (size : Size) (set : IncSet)
  | loadReply (req : Nat) (val : Word) (writer : Writer) (seq : CSeq) (quiet : Bool)
  /-- the request and the reply of `RCAS` and `RXCHG` (R338); `cmp` is absent for `RXCHG` -/
  | atomReq (tag : BitVec 16) (retry : Bool) (req : Nat) (seq : CSeq) (addr : Word) (size : Size)
      (cmp : Option Word) (new : Word)
  | atomReply (req : Nat) (old : Word) (wrote : Bool)
  /-- a remote error of a kind of R339, found by the peer; `line` for lines and contributions; `req` is the request that it answers -/
  | refuse (kind : Nat) (line : Bool) (addr : Word) (taskId : Word) (req : Option Nat)
  /-- a retransmitted atomic whose tag is older than all held tags (R338) -/
  | unknown (addr : Word) (taskId : Word) (req : Option Nat)
  /-- the home of a remote access is uncorrectable (R339) -/
  | uncorrectable (taskId : Word) (req : Option Nat)
  | digest (epoch : BitVec 32) (d : BitVec 256)
  | endNotice
  /-- the context that wrote a bundle has ended while it was pending (R213, R357) -/
  | discard (seq : CSeq)
  deriving DecidableEq, Repr

/-- A message from one context to a peer context (R332). `srcCore` is the core of the request, in a reply too; `peer` the
entry that the issuer named; `prio` the priority tag that it has from its causing task (R331), which an answer keeps;
`fibre` the fibre of this package that it leaves over or has arrived on, 0 where it takes none; `sentAt` is the model's own: when a
core of this package sent it, by twice the package's next name then (log 95). -/
structure RMsg where
  srcPkg : BitVec 5
  srcCtx : BitVec 6
  srcCore : Nat
  dstPkg : BitVec 5
  dstCtx : BitVec 6
  peer : BitVec 5
  eth : Bool
  bind : Word
  prio : BitVec 4
  fibre : BitVec 8
  taskId : Word
  body : RBody
  sentAt : Nat := 0
  deriving DecidableEq, Repr

/-- The bits of a `NOP` that its guard does not use: its length, and those that R118 ignores, up to bit 63 and above. -/
structure NopBits where
  len : Len
  rest : BitVec 47
  ext : BitVec 64
  deriving DecidableEq, Repr

/-- An element that waits at an input of a core: the core, and the place in the input. -/
structure InputRef where
  core : Nat
  elem : Nat
  deriving DecidableEq, Repr

/-- What the management controller monitors (R390; the units are log 75): coolant flow in mL/min, inlet temperature in 1/16 °C, the
input and the rails, in the order of the table of R384, in mV. -/
structure Readings where
  flow : BitVec 32
  inlet : BitVec 32
  input : BitVec 32
  rails : List (BitVec 32)
  deriving DecidableEq, Repr

end Sys2Proof
end

