-- ==== Sys2Proof/Syntax.lean ====
section
/-!
DEFINITION. The steps of the machine: one constructor for each row of spec/opcode_table.json. The first part are the
encoded instructions of R116; the second part are the device steps, which have no encoding and whose operands name the
unit that acts or the input that arrives.
-/

namespace Sys2Proof

inductive Instr where
  -- integer and address instructions (R140)
  -- `NOP` keeps the bits [63:17] and `J` or `K` that it ignores (R118): a trap shows them (R353)
  | nop (h : Hdr) (x : NopBits)
  | add (h : Hdr) (d a b : GReg)
  | addi (h : Hdr) (d a : GReg) (imm : BitVec 24)
  | sub (h : Hdr) (d a b : GReg)
  | mul (h : Hdr) (d a b : GReg)
  | mulh (h : Hdr) (u : Bool) (d a b : GReg)
  | div (h : Hdr) (u : Bool) (d a b : GReg)
  | rem (h : Hdr) (u : Bool) (d a b : GReg)
  | and (h : Hdr) (d a b : GReg)
  | or (h : Hdr) (d a b : GReg)
  | xor (h : Hdr) (d a b : GReg)
  | andn (h : Hdr) (d a b : GReg)
  | shl (h : Hdr) (d a b : GReg)
  | shr (h : Hdr) (d a b : GReg)
  | sar (h : Hdr) (d a b : GReg)
  | rot (h : Hdr) (d a b : GReg)
  | shli (h : Hdr) (d a : GReg) (n : BitVec 6)
  | shri (h : Hdr) (d a : GReg) (n : BitVec 6)
  | sari (h : Hdr) (d a : GReg) (n : BitVec 6)
  | movi (h : Hdr) (d : GReg) (imm : BitVec 32)
  | moviD (h : Hdr) (d : GReg) (imm : BitVec 64)
  | min (h : Hdr) (u : Bool) (d a b : GReg)
  | max (h : Hdr) (u : Bool) (d a b : GReg)
  | abs (h : Hdr) (d a : GReg)
  | clz (h : Hdr) (d a : GReg)
  | popc (h : Hdr) (d a : GReg)
  | ext (h : Hdr) (sx : Bool) (d a : GReg) (lo wm1 : BitVec 6)
  | ins (h : Hdr) (d a : GReg) (lo wm1 : BitVec 6)
  | sel (h : Hdr) (d : GReg) (c : PReg) (a b : GReg)
  | lea (h : Hdr) (d a b : GReg) (s : BitVec 3) (disp : BitVec 19)
  | adds (h : Hdr) (u : Bool) (d a b : GReg)
  | hops (h : Hdr) (d a b : GReg)
  | mad (h : Hdr) (d a b c : GReg)
  -- control and predicates (R145, R148)
  | cmp (h : Hdr) (cond : Cond) (comb : Comb) (d c : PReg) (a b : GReg)
  | cmpi (h : Hdr) (cond : Cond) (comb : Comb) (d : PReg) (a : GReg) (imm : BitVec 24)
  | pand (h : Hdr) (n : Bool) (d a b : PReg)
  | por (h : Hdr) (n : Bool) (d a b : PReg)
  | pxor (h : Hdr) (n : Bool) (d a b : PReg)
  | pnot (h : Hdr) (d a : PReg)
  | pset (h : Hdr) (d : PReg) (v : Bool)
  | ptest (h : Hdr) (d : PReg) (a : GReg) (bit : BitVec 6)
  | pget (h : Hdr) (d : GReg)
  | pput (h : Hdr) (a : GReg) (mask : BitVec 7)
  | br (h : Hdr) (off : BitVec 24)
  | brFar (h : Hdr) (off : BitVec 32)
  | jmp (h : Hdr) (a : GReg)
  | call (h : Hdr) (d : GReg) (off : BitVec 24)
  | callFar (h : Hdr) (d : GReg) (off : BitVec 32)
  | callr (h : Hdr) (d a : GReg)
  | ret (h : Hdr) (a : GReg)
  | loop (h : Hdr) (d : GReg) (off : BitVec 24)
  -- scratchpad and memory (R206); `x` is the 96-bit form
  | lds (h : Hdr) (x : Bool) (sz : Size) (sx : Bool) (d : GReg) (p : Ptr)
  | sts (h : Hdr) (x : Bool) (sz : Size) (p : Ptr) (a : GReg)
  | ldv (h : Hdr) (p : Ptr) (a : GReg) (disp : BitVec 24)
  | stv (h : Hdr) (p : Ptr) (a : GReg) (disp : BitVec 24)
  | ld (h : Hdr) (sz : Size) (sx : Bool) (d a : GReg) (disp : BitVec 24)
  | st (h : Hdr) (sz : Size) (a b : GReg) (disp : BitVec 24)
  | ldd (h : Hdr) (f : Fmt) (r : Rnd) (d a b : GReg)
  | std (h : Hdr) (f : Fmt) (p : Ptr) (a b : GReg)
  | smov (h : Hdr) (x : Bool) (sz : Size) (p q : Ptr)
  | salu (h : Hdr) (x : Bool) (op : SaluOp) (sz : Size) (p q r : Ptr)
  | sflt (h : Hdr) (x : Bool) (op : SfltOp) (f : Fmt) (rnd : Rnd) (p q r : Ptr)
  | sfma (h : Hdr) (x : Bool) (f : Fmt) (rnd : Rnd) (p q r : Ptr)
  | bclose (h : Hdr) (sc : Scope)
  | fence (h : Hdr) (sc : Scope)
  | fenceFresh (h : Hdr)
  | probe (h : Hdr) (w : Bool) (a : GReg)
  | pref (h : Hdr) (a : GReg)
  | fopen (h : Hdr) (op : FoldOp) (f : Fmt) (r : Rnd) (d a b c : GReg)
  | fold (h : Hdr) (p : Ptr) (a b : GReg) (lm1 : BitVec 4)
  | fclose (h : Hdr) (d a : GReg)
  | xchg (h : Hdr) (wide : Bool) (d a b : GReg)
  | cas (h : Hdr) (wide : Bool) (d a b c : GReg)
  | xchgs (h : Hdr) (wide : Bool) (d : GReg) (p : Ptr) (b : GReg)
  | cass (h : Hdr) (wide : Bool) (d : GReg) (p : Ptr) (b c : GReg)
  | xadd (h : Hdr) (wide : Bool) (d a b : GReg)
  | xadds (h : Hdr) (wide : Bool) (d : GReg) (p : Ptr) (b : GReg)
  | ldtag (h : Hdr) (d a : GReg)
  -- tasks and synchronisation (R275)
  | spawn (h : Hdr) (t : BitVec 12)
  | post (h : Hdr) (t : BitVec 12) (a : GReg)
  | postGrp (h : Hdr) (grp : BitVec 12) (a : GReg)
  | halt (h : Hdr)
  | haltK (h : Hdr) (a : GReg)
  | commit (h : Hdr)
  | claim (h : Hdr) (g : BitVec 6)
  | unclaim (h : Hdr) (g : BitVec 6)
  | arrive (h : Hdr) (a : GReg) (phase : BitVec 4) (cm1 : BitVec 8)
  | binit (h : Hdr) (p : AReg) (b : GReg) (target : BitVec 16) (succ : BitVec 8) (phase : BitVec 4)
  | watch (h : Hdr) (wide : Bool) (p : AReg) (b : GReg) (t : BitVec 12)
  | unwatch (h : Hdr) (d : GReg) (p : AReg)
  | qpush (h : Hdr) (q : QReg) (a b : GReg)
  | qpop (h : Hdr) (d : GReg) (q : QReg)
  | qcfg (h : Hdr) (q : QReg) (a : GReg)
  | qlen (h : Hdr) (d : GReg) (q : QReg)
  -- remote operations (R334)
  | rld (h : Hdr) (sz : Size) (sx : Bool) (d a : GReg) (peer : BitVec 5) (live : BitVec 32)
  | rst (h : Hdr) (sz : Size) (a b : GReg) (peer : BitVec 5)
  | rstRel (h : Hdr) (sz : Size) (a b : GReg) (peer : BitVec 5) (t : BitVec 12)
  | rcas (h : Hdr) (wide : Bool) (d a b c : GReg) (peer : BitVec 5)
  | rfold (h : Hdr) (p : Ptr) (a b : GReg) (lm1 : BitVec 4) (peer : BitVec 5)
  | rxchg (h : Hdr) (wide : Bool) (d a b : GReg) (peer : BitVec 5)
  -- scalar floating point and conversion (R151)
  | fadd (h : Hdr) (f : Fmt) (r : Rnd) (d a b : GReg)
  | fsub (h : Hdr) (f : Fmt) (r : Rnd) (d a b : GReg)
  | fmul (h : Hdr) (f : Fmt) (r : Rnd) (d a b : GReg)
  | fdiv (h : Hdr) (f : Fmt) (r : Rnd) (d a b : GReg)
  | fsqrt (h : Hdr) (f : Fmt) (r : Rnd) (d a : GReg)
  | ffma (h : Hdr) (f : Fmt) (r : Rnd) (d a b c : GReg)
  | fmin (h : Hdr) (f : Fmt) (d a b : GReg)
  | fmax (h : Hdr) (f : Fmt) (d a b : GReg)
  | fminp (h : Hdr) (f : Fmt) (d a b : GReg)
  | fmaxp (h : Hdr) (f : Fmt) (d a b : GReg)
  | fabs (h : Hdr) (f : Fmt) (d a : GReg)
  | fneg (h : Hdr) (f : Fmt) (d a : GReg)
  | fcmp (h : Hdr) (cond : FCond) (f : Fmt) (d : PReg) (a b : GReg)
  | fclass (h : Hdr) (f : Fmt) (d a : GReg)
  | fcvt (h : Hdr) (dst src : Fmt) (r : Rnd) (d a : GReg)
  | icvtf (h : Hdr) (dst src : Fmt) (r : Rnd) (d a : GReg)
  | fcvti (h : Hdr) (dst src : Fmt) (r : Rnd) (d a : GReg)
  | fmovi (h : Hdr) (f : Fmt) (d : GReg) (imm : BitVec 32)
  | frnd (h : Hdr) (f : Fmt) (r : Rnd) (d a : GReg)
  | fscale (h : Hdr) (f : Fmt) (r : Rnd) (d a b : GReg)
  -- vector (R233); `w` is the width flag WF
  | vmodeLong (h : Hdr)
  | vmodeShort (h : Hdr)
  | vld (h : Hdr) (x w : Bool) (d : VReg) (p : Ptr)
  | vst (h : Hdr) (x w : Bool) (p : Ptr) (a : VReg)
  | vldv (h : Hdr) (w : Bool) (d : VReg) (a : GReg)
  | vstv (h : Hdr) (w : Bool) (a : GReg) (b : VReg)
  | vadd (h : Hdr) (w sat : Bool) (f : Fmt) (r : Rnd) (d a b : VReg)
  | vsub (h : Hdr) (w sat : Bool) (f : Fmt) (r : Rnd) (d a b : VReg)
  | vmul (h : Hdr) (w : Bool) (f : Fmt) (r : Rnd) (d a b : VReg)
  | vfma (h : Hdr) (w : Bool) (f : Fmt) (r : Rnd) (d a b c : VReg)
  | vmin (h : Hdr) (w u : Bool) (f : Fmt) (d a b : VReg)
  | vmax (h : Hdr) (w u : Bool) (f : Fmt) (d a b : VReg)
  | vminp (h : Hdr) (w : Bool) (f : Fmt) (d a b : VReg)
  | vmaxp (h : Hdr) (w : Bool) (f : Fmt) (d a b : VReg)
  | vneg (h : Hdr) (w : Bool) (f : Fmt) (d a : VReg)
  | vabs (h : Hdr) (w : Bool) (f : Fmt) (d a : VReg)
  | vand (h : Hdr) (w : Bool) (d a b : VReg)
  | vor (h : Hdr) (w : Bool) (d a b : VReg)
  | vxor (h : Hdr) (w : Bool) (d a b : VReg)
  | vshl (h : Hdr) (w : Bool) (f : Fmt) (d a b : VReg)
  | vshr (h : Hdr) (w sx : Bool) (f : Fmt) (d a b : VReg)
  | vcmp (h : Hdr) (w : Bool) (cond : VCond) (f : Fmt) (d a b : VReg)
  | vsel (h : Hdr) (w : Bool) (f : Fmt) (d m a b : VReg)
  | vred (h : Hdr) (w : Bool) (op : RedOp) (f : Fmt) (r : Rnd) (d : GReg) (a : VReg)
  | vdot (h : Hdr) (w : Bool) (dst src : Fmt) (r : Rnd) (d a b : VReg)
  | vperm (h : Hdr) (w : Bool) (f : Fmt) (d a b c : VReg)
  | vbcast (h : Hdr) (w : Bool) (f : Fmt) (d : VReg) (a : GReg)
  | vcvt (h : Hdr) (w : Bool) (dst src : Fmt) (r : Rnd) (d a : VReg) (part : BitVec 3) (rs : Option RsOp)
  | vmovg (h : Hdr) (w : Bool) (f : Fmt) (d : GReg) (a : VReg) (idx : BitVec 8)
  | vins (h : Hdr) (w : Bool) (f : Fmt) (d : VReg) (a : GReg) (idx : BitVec 8)
  | vchain (h : Hdr) (dst src : Fmt) (r : Rnd) (pd ps0 ps1 : Ptr) (gk gn gs : GReg)
      (ops : List (ChainOp × ChainSrc))
  | vclamp (h : Hdr) (w u : Bool) (f : Fmt) (d a b c : VReg)
  -- matrix (R256)
  | mwl (h : Hdr) (wf : Fmt) (p : Ptr) (c0 cm1 : BitVec 7)
  | mswap (h : Hdr)
  | mmul (h : Hdr) (af : Fmt) (z : Bool) (p : Ptr)
  | mpass (h : Hdr) (af wf : Fmt) (z : Bool) (p : Ptr) (b gs : GReg) (sm1 : BitVec 8) (stride : BitVec 32)
  | mweave (h : Hdr) (af : Fmt) (z : Bool) (p q : AReg) (gs : GReg)
  | macz (h : Hdr)
  | macld (h : Hdr) (p : Ptr) (row rm1 : BitVec 5)
  | macst (h : Hdr) (f : Fmt) (r : Rnd) (p : Ptr) (row rm1 : BitVec 5) (rs : Option RsOp)
  | macmv (h : Hdr) (d : VReg) (row : BitVec 5) (seg : BitVec 4)
  | macmvTo (h : Hdr) (row : BitVec 5) (seg : BitVec 4) (a : VReg)
  | mskew (h : Hdr) (af : Fmt) (p q : AReg)
  | macrd (h : Hdr) (d : GReg) (row : BitVec 5) (col : BitVec 7)
  | mwlv (h : Hdr) (wf : Fmt) (a : GReg) (c0 cm1 : BitVec 7)
  -- sampling array (R309)
  | scouple (h : Hdr) (a b : GReg) (slot : BitVec 4)
  | sbias (h : Hdr) (a b : GReg)
  | sclamp (h : Hdr) (a : GReg) (v : Bool)
  | sclampOff (h : Hdr) (a : GReg)
  | scolour (h : Hdr) (a : GReg) (col : BitVec 3)
  | sweep (h : Hdr) (a gs : GReg) (sm1 : BitVec 8) (ncm1 : BitVec 3) (b : BitVec 4)
  | sread (h : Hdr) (d a : GReg)
  | swrite (h : Hdr) (a b : GReg)
  | skey (h : Hdr) (n : BitVec 4) (a b : GReg)
  -- copy engine (R294)
  | cpys (h : Hdr) (p : Ptr) (a gn gv gs : GReg) (pw : WordOp)
  | cpyc (h : Hdr) (op : CpyOp) (f : Fmt) (r : Rnd) (p : Ptr) (a gn gv gs : GReg) (pw : WordOp)
  | cpyg (h : Hdr) (p : Ptr) (a gn gv gs : GReg) (pw : WordOp) (stride : BitVec 32) (rowlen : BitVec 16)
  | cpyf (h : Hdr) (p : Ptr) (a gn gv gs : GReg) (pw : WordOp)
  -- system (R127, R174, R183, R197, R354)
  | srd (h : Hdr) (d : GReg) (csr : BitVec 12)
  | swr (h : Hdr) (csr : BitVec 12) (a : GReg)
  | trap (h : Hdr) (imm : BitVec 24)
  | brk (h : Hdr) (imm : BitVec 24)
  | ovld (h : Hdr) (a : GReg)
  | genset (h : Hdr) (n : BitVec 4) (a : GReg)
  | gensync (h : Hdr)
  | harvest (h : Hdr)
  | tret (h : Hdr)
  | tretNext (h : Hdr)
  | tretKill (h : Hdr)
  | tretEnd (h : Hdr)
  | keyset (h : Hdr) (n : BitVec 4) (a b : GReg)
  | tlbinv (h : Hdr) (a : GReg)
  | tlbinvAll (h : Hdr)
  -- device steps: cores and engines
  | instructionBoundary (core : Nat)
  | loadReply (core req : Nat)
  | divideComplete (core : Nat)
  | fpDivideUnitComplete (core : Nat)
  | longVectorComplete (core : Nat)
  | chainRun (core lane : Nat)
  | matrixCommandRun (core lane : Nat)
  | weaveSend (core lane : Nat) (slot : Bool)
  | weaveTimeout (core lane : Nat)
  | copyCommandRun (core : Nat)
  | samplerCommandRun (die : Nat)
  -- device steps: memory homes
  | bundleLineArrival (core : Nat) (seq : CSeq) (line : Nat)
  | lineAcknowledgement (core : Nat) (seq : CSeq) (line : Nat)
  | settleAtHome (core : Nat) (seq : CSeq) (line : Nat)
  | settleAcknowledgement (core : Nat) (seq : CSeq) (line : Nat)
  | quietAtHome (core : Nat) (seq : CSeq) (line : Nat)
  | quietQueryReply (core : Nat) (writer : Writer) (upTo : CSeq)
  | atomicAtHome (core req : Nat)
  | foldHomeOpen (core req : Nat)
  | foldContributionArrival (core : Nat) (seq : CSeq) (line : Nat)
  | foldHomeClose (core req : Nat)
  -- device steps: dispatch and synchronisation
  | releaseArrival (k : Nat)
  | offerArrival (core : Nat)
  | taskAged (cluster k : Nat)
  | skipLimitBlock (cluster k : Nat)
  | dispatchExchange (cluster : Nat)
  | entryStoreFetch (cluster k : Nat)
  | arrivalApply (e : InputRef)
  | queuePushApply (e : InputRef) (q : Nat)
  | continuationSend (core k : Nat)
  | continuationResume (core k : Nat)
  | remoteMessageReceive (m : RMsg)
  | keptGrantExpiry (core : Nat)
  | contextLastTaskRetired (ctx : Nat)
  | exceptionWindowEnd (core : Nat)
  | exceptionThreshold (core c : Nat)
  -- device steps: paired partitions
  | seal (ctx : Nat)
  | digestArrival (ctx : Nat) (epoch : BitVec 32) (d : BitVec 256)
  | digestTimeout (ctx : Nat)
  | endNoticeArrival (ctx : Nat)
  -- device steps: launch front end and host registers
  | queueArbitration
  | launchEntry
  | createContextEntry
  | endContextEntry
  | noOperationEntry
  | seqRetry (q : Nat)
  | staleEntry (q : Nat)
  | contextCreationComplete (ctx : Nat)
  | endCompletion (ctx : Nat)
  | queueDoorbell (q : Nat) (v : Word)
  | queueEnable (q : Nat)
  | queueDisable (q : Nat)
  | eventConfigWrite (v : Word)
  | eventReadIndexWrite (v : Word)
  | contextFree (ctx : Nat)
  | faultRecordRelease (ctx rec : Nat)
  | xcmdInvalidateAll (ctx : Nat)
  | xcmdHarvest (ctx : Nat)
  | xcmdInvalidatePage (ctx : Nat) (page : BitVec 48)
  | xcmdComplete (ctx : Nat)
  -- device steps: fabric
  | cwaveWrite (i j : Nat) (v : Word)
  | circuitReassignComplete (i j : Nat)
  | lwDrain
  | lwRelock
  | lwGoDark
  | drainComplete
  | lockComplete (up : List (Nat × BitVec 5))
  | stageTransmitKey (f : Nat) (addr : Word)
  | stageReceiveKey (f : Nat) (addr : Word)
  | fibreHeld (f : Nat)
  | fibreFailed (f : Nat)
  | flitAuthFailure (f : Nat)
  | holdLimitExpiry (core req : Nat)
  | scaleoutStageTransmitKey (p : Nat) (addr : Word)
  | scaleoutStageReceiveKey (p : Nat) (addr : Word)
  | scaleoutFrameReceive (pkg : Nat) (seq : BitVec 32) (msgs : List RMsg)
  | scaleoutRetransmit (pkg : Nat) (seq : BitVec 32)
  | scaleoutUndeliverable (pkg : Nat) (seq : BitVec 32)
  | scaleoutPortHeld (p : Nat)
  | scaleoutPortStateChange (p : Nat) (st : BitVec 3)
  -- device steps: attestation and debug
  | produceReport
  | writeEndorsement
  | attestationComplete
  | debugHaltCommand (core : Nat)
  | debugResume (core : Nat)
  | debugStep (core : Nat)
  | debugDrain (core : Nat)
  | debugDrainComplete (core : Nat)
  | ddataWrite (core : Nat) (v : Word)
  -- device steps: host accesses and events
  | registerWrite (off v : Word)
  | apertureAccessNotPerformed (off : Word) (wr : Bool)
  | hostMemoryWrite (pa : Word) (bytes : List Byte)
  | hostMemoryRead (pa : Word) (n : Nat)
  | linkTraining (groups : BitVec 4)
  | eventRecordStage
  | eventRingWrite
  | harvestBlockChange (die pc : Nat) (core : Option Nat)
  | spareBringIn (kind unit idx : Nat)
  -- device steps: reset, supplies and management
  | resetBoot
  | junctionTemperature (sensor : Nat) (temp : BitVec 32)
  | thermalShutdown (flow : Bool) (sensor : Nat) (reading : BitVec 32)
  | managementPowerRequest (up : Bool)
  | managementFirmwareInstall (image : List Byte)
  | managementRead
  | supplyOutOfTolerance (input : Bool) (rail : Nat) (reading : BitVec 32)
  | keyChangeFlitArrival (f : Nat)
  | scaleoutAcknowledgement (pkg : Nat) (seq : BitVec 32)
  deriving DecidableEq, Repr

end Sys2Proof
end

