-- ==== Sys2Proof/Config.lean ====
section
/-!
DEFINITION. What the spec leaves to an implementation, to fuses or to firmware (R47, R68, R327, R342, R388, R389), as
constants with no body: nothing can be proved of their values. Log 7, 9, 15, 17 and 75 of notes/assumptions.
-/

namespace Sys2Proof.Config

/-- `FORM` and `STEP` of R47, from fuses (log 7). -/
opaque form : BitVec 8
opaque step : BitVec 8
/-- `SERIAL` of R47, from fuses (log 7). -/
opaque serial : Word
/-- The port MAC address of R342, from fuses (log 7). -/
opaque pmac : Nat → BitVec 48
/-- The security version and the build number that a firmware image states (R47, R388; log 15). -/
opaque imageSvn : List Byte → Word
opaque imageBuild : List Byte → Word
/-- The public key and the signature that a firmware image carries (R388; log 15). -/
opaque imageKey : List Byte → List Byte
opaque imageSig : List Byte → List Byte
/-- The fused hash of Prethen's firmware key, and the fused rollback counter (R388; log 15). -/
opaque firmwareKeyHash : List Byte
opaque rollback : Word
/-- The firmware image the package ships with (log 15). -/
opaque shippedImage : List Byte
/-- The fused seed of the identity key, and that of Prethen's identity root key: 96 bytes, the three seeds of FIPS 205 (R389; log 15). -/
opaque identitySeed : List Byte
opaque rootSeed : List Byte
/-- The 32-byte random value of the next signature, which takes any value, and that of the endorsement (R389; log 15). -/
opaque slhRandom : Nat → List Byte
opaque endorseRandom : List Byte
/-- Whether ∞ × 0 plus a quiet NaN raises invalid, which IEEE 754-2019 leaves open (R153, log 17). -/
opaque fmaInvalid : Bool
/-- The number of flits that a message takes, which the spec does not give (R329, R331; log 17). -/
opaque flits : RMsg → Nat
/-- How many flit permits of a class the receiver of a fibre has granted again, for the `n`th time it matters (R331; log 17). -/
opaque granted : Nat → Nat → Nat → Nat
/-- Which of its contents a fetch block returns that the host has written under a live context, for the `n`th time it matters (R27;
log 17). -/
opaque oldCode : Nat → Nat
/-- What a sensor of the management controller shows, for the `n`th time the sensors are read (R390; log 75). -/
opaque sensor : Nat → Nat → BitVec 32
/-- A free choice for the `n`th time one is needed: which TLB entry is replaced (log 9, log 17). -/
opaque pick : Nat → Nat

end Sys2Proof.Config
end

