-- ==== Sys2Proof/WellFormed.lean ====
section
/-!
DEFINITION. Which operands and suffixes an instruction may have (R110–R119 and the encoding tables). An encoding that
breaks one of these rules is not an instruction: it raises the undefined-instruction trap (R117). The operand of a device
step names a unit of the package; a device step has no encoding.
-/

namespace Sys2Proof

/-- FP32, BF16, FP16. -/
def Fmt.isF3 : Fmt → Bool
  | .f32 | .bf16 | .f16 => true
  | _ => false

/-- The float formats, codes 0–4. -/
def Fmt.isF5 : Fmt → Bool
  | .f32 | .bf16 | .f16 | .e4m3 | .e5m2 => true
  | _ => false

/-- The integer formats, codes 5–8. -/
def Fmt.isInt : Fmt → Bool
  | .i8 | .i16 | .i32 | .i64 => true
  | _ => false

/-- Codes 0–8. -/
def Fmt.isVec (f : Fmt) : Bool := f.isF5 || f.isInt

/-- Activation formats (R256). -/
def Fmt.isAct : Fmt → Bool
  | .bf16 | .e4m3 | .e5m2 => true
  | _ => false

/-- Weight formats (R256). -/
def Fmt.isWgt : Fmt → Bool
  | .e4m3 | .e5m2 | .w4 | .w3 => true
  | _ => false

/-- The formats of a described line (R209). -/
def Fmt.isDesc : Fmt → Bool
  | .i64 | .e5m3 => false
  | _ => true

/-- The width of an element in bits (R186–R191). -/
def Fmt.width : Fmt → Nat
  | .f32 | .i32 => 32
  | .bf16 | .f16 | .i16 => 16
  | .e4m3 | .e5m2 | .i8 | .e5m3 => 8
  | .i64 => 64
  | .w4 => 4
  | .w3 => 3

/-- `GP` 0 with `GN` 1 is not a guard (R110). -/
def Hdr.wf (h : Hdr) : Bool := !(h.gp == 0 && h.gn)

/-- Pointer operands that no step slot serves (R113). -/
def Ptr.noStep : Ptr → Bool
  | .step _ _ => false
  | _ => true

/-- A stated step needs the 96-bit form. -/
def Ptr.ok (x : Bool) (p : Ptr) : Bool := x || p.noStep

def Rnd.notRs (r : Rnd) : Bool := r != .rs

/-- `.s` with `.d` is refused (R206, R334). -/
def sxOk (sz : Size) (sx : Bool) : Bool := !(sz == .d && sx)

/-- The rounding of an operation that rounds only float sums. -/
def addRnd (isAdd : Bool) (f : Fmt) (r : Rnd) : Bool := if isAdd && f.isF3 then r.notRs else r == .rn

/-- The operands of stochastic rounding stand exactly with `.rs` (R242, R263). -/
def rsOk (r : Rnd) (rs : Option RsOp) : Bool := (r == .rs) == rs.isSome

/-- Formats, rounding and saturation of `VADD`, `VSUB` (R234). -/
def addFmt (sat : Bool) (f : Fmt) (r : Rnd) : Bool :=
  (f.isF3 && r.notRs && !sat) || (f.isInt && r == .rn)

/-- The control and status registers that are assigned (R128, R201, R353). -/
def csrOk (n : BitVec 12) : Bool :=
  n.toNat ≤ 0x00B || (0x020 ≤ n.toNat && n.toNat ≤ 0x03F) || (0x040 ≤ n.toNat && n.toNat ≤ 0x044) ||
  (0x048 ≤ n.toNat && n.toNat ≤ 0x04F) || n.toNat == 0x080 || n.toNat == 0x081 ||
  (0x088 ≤ n.toNat && n.toNat ≤ 0x08C) || (0x090 ≤ n.toNat && n.toNat ≤ 0x094)

/-- The number of one bits. -/
def onesOf {n : Nat} (w : BitVec n) : Nat := (List.range n).foldl (fun t i => t + (w.getLsbD i).toNat) 0

/-- The header of an encoded instruction; a device step has none. -/
def Instr.hdr? : Instr → Option Hdr
  | .nop h .. | .add h .. | .addi h .. | .sub h .. | .mul h .. | .mulh h .. | .div h .. | .rem h ..
  | .and h .. | .or h .. | .xor h .. | .andn h .. | .shl h .. | .shr h .. | .sar h .. | .rot h ..
  | .shli h .. | .shri h .. | .sari h .. | .movi h .. | .moviD h .. | .min h .. | .max h .. | .abs h ..
  | .clz h .. | .popc h .. | .ext h .. | .ins h .. | .sel h .. | .lea h .. | .adds h .. | .hops h ..
  | .mad h .. | .cmp h .. | .cmpi h .. | .pand h .. | .por h .. | .pxor h .. | .pnot h .. | .pset h ..
  | .ptest h .. | .pget h .. | .pput h .. | .br h .. | .brFar h .. | .jmp h .. | .call h .. | .callFar h ..
  | .callr h .. | .ret h .. | .loop h .. | .lds h .. | .sts h .. | .ldv h .. | .stv h .. | .ld h ..
  | .st h .. | .ldd h .. | .std h .. | .smov h .. | .salu h .. | .sflt h .. | .sfma h .. | .bclose h ..
  | .fence h .. | .fenceFresh h | .probe h .. | .pref h .. | .fopen h .. | .fold h .. | .fclose h ..
  | .xchg h .. | .cas h .. | .xchgs h .. | .cass h .. | .xadd h .. | .xadds h .. | .ldtag h ..
  | .spawn h .. | .post h .. | .postGrp h .. | .halt h | .haltK h .. | .commit h | .claim h .. | .unclaim h ..
  | .arrive h .. | .binit h .. | .watch h .. | .unwatch h .. | .qpush h .. | .qpop h .. | .qcfg h .. | .qlen h ..
  | .rld h .. | .rst h .. | .rstRel h .. | .rcas h .. | .rfold h .. | .rxchg h ..
  | .fadd h .. | .fsub h .. | .fmul h .. | .fdiv h .. | .fsqrt h .. | .ffma h .. | .fmin h .. | .fmax h ..
  | .fminp h .. | .fmaxp h .. | .fabs h .. | .fneg h .. | .fcmp h .. | .fclass h .. | .fcvt h .. | .icvtf h ..
  | .fcvti h .. | .fmovi h .. | .frnd h .. | .fscale h ..
  | .vmodeLong h | .vmodeShort h | .vld h .. | .vst h .. | .vldv h .. | .vstv h .. | .vadd h .. | .vsub h ..
  | .vmul h .. | .vfma h .. | .vmin h .. | .vmax h .. | .vminp h .. | .vmaxp h .. | .vneg h .. | .vabs h ..
  | .vand h .. | .vor h .. | .vxor h .. | .vshl h .. | .vshr h .. | .vcmp h .. | .vsel h .. | .vred h ..
  | .vdot h .. | .vperm h .. | .vbcast h .. | .vcvt h .. | .vmovg h .. | .vins h .. | .vchain h .. | .vclamp h ..
  | .mwl h .. | .mswap h | .mmul h .. | .mpass h .. | .mweave h .. | .macz h | .macld h .. | .macst h ..
  | .macmv h .. | .macmvTo h .. | .mskew h .. | .macrd h .. | .mwlv h ..
  | .scouple h .. | .sbias h .. | .sclamp h .. | .sclampOff h .. | .scolour h .. | .sweep h .. | .sread h ..
  | .swrite h .. | .skey h .. | .cpys h .. | .cpyc h .. | .cpyg h .. | .cpyf h ..
  | .srd h .. | .swr h .. | .trap h .. | .brk h .. | .ovld h .. | .genset h .. | .gensync h | .harvest h
  | .tret h | .tretNext h | .tretKill h | .tretEnd h | .keyset h .. | .tlbinv h .. | .tlbinvAll h => some h
  | .instructionBoundary .. | .loadReply .. | .divideComplete .. | .fpDivideUnitComplete .. | .longVectorComplete ..
  | .chainRun .. | .matrixCommandRun .. | .weaveSend .. | .weaveTimeout .. | .copyCommandRun .. | .samplerCommandRun ..
  | .bundleLineArrival .. | .lineAcknowledgement .. | .settleAtHome .. | .settleAcknowledgement .. | .quietAtHome ..
  | .quietQueryReply .. | .atomicAtHome .. | .foldHomeOpen .. | .foldContributionArrival .. | .foldHomeClose ..
  | .releaseArrival .. | .offerArrival .. | .taskAged .. | .skipLimitBlock .. | .dispatchExchange .. | .entryStoreFetch ..
  | .arrivalApply .. | .queuePushApply .. | .continuationSend .. | .continuationResume .. | .remoteMessageReceive ..
  | .keptGrantExpiry .. | .contextLastTaskRetired .. | .exceptionWindowEnd .. | .exceptionThreshold ..
  | .seal .. | .digestArrival .. | .digestTimeout .. | .endNoticeArrival ..
  | .queueArbitration | .launchEntry | .createContextEntry | .endContextEntry | .noOperationEntry | .seqRetry ..
  | .staleEntry .. | .contextCreationComplete .. | .endCompletion .. | .queueDoorbell .. | .queueEnable .. | .queueDisable ..
  | .eventConfigWrite .. | .eventReadIndexWrite .. | .contextFree .. | .faultRecordRelease .. | .xcmdInvalidateAll ..
  | .xcmdHarvest .. | .xcmdInvalidatePage .. | .xcmdComplete .. | .cwaveWrite .. | .circuitReassignComplete ..
  | .lwDrain | .lwRelock | .lwGoDark | .drainComplete | .lockComplete .. | .stageTransmitKey .. | .stageReceiveKey ..
  | .fibreHeld .. | .fibreFailed .. | .flitAuthFailure .. | .holdLimitExpiry .. | .scaleoutStageTransmitKey ..
  | .scaleoutStageReceiveKey .. | .scaleoutFrameReceive .. | .scaleoutRetransmit .. | .scaleoutUndeliverable ..
  | .scaleoutPortHeld .. | .scaleoutPortStateChange .. | .produceReport | .writeEndorsement | .attestationComplete
  | .debugHaltCommand .. | .debugResume .. | .debugStep .. | .debugDrain .. | .debugDrainComplete .. | .ddataWrite ..
  | .registerWrite .. | .apertureAccessNotPerformed .. | .hostMemoryWrite .. | .hostMemoryRead .. | .linkTraining ..
  | .eventRecordStage | .eventRingWrite | .harvestBlockChange .. | .spareBringIn .. | .resetBoot | .junctionTemperature ..
  | .thermalShutdown .. | .managementPowerRequest .. | .managementFirmwareInstall .. | .managementRead ..
  | .supplyOutOfTolerance .. | .keyChangeFlitArrival .. | .scaleoutAcknowledgement .. => none

/-- The rules of the encoding tables that concern one instruction's own operands; rows without a rule are `true`. That a `VCVT` between integer
formats takes every rounding code is the model's choice (log 111). -/
def Instr.operandsOk : Instr → Bool
  | .nop _ x => match x.len with
      | .l64 => x.ext == 0
      | .l96 => x.ext.extractLsb' 32 32 == 0
      | .l128 => true
  | .ext _ _ _ _ lo wm1 => lo.toNat + wm1.toNat + 1 ≤ 64
  | .ins _ _ _ lo wm1 => lo.toNat + wm1.toNat + 1 ≤ 64
  | .cmp _ _ _ d c _ _ => d != c || d == 0
  | .loop _ d _ => d != 0
  | .lds _ x sz sx _ p => p.ok x && sxOk sz sx
  | .sts _ x _ p _ => p.ok x
  | .ldv _ p _ _ => p.noStep
  | .stv _ p _ _ => p.noStep
  | .ld _ sz sx _ _ _ => sxOk sz sx
  | .ldd _ f r _ _ _ => f.isF3 && r.notRs
  | .std _ f p _ _ => f.isDesc && p.noStep
  | .smov _ x _ p q => p.ok x && q.ok x
  | .salu _ x _ _ p q r => p.ok x && q.ok x && r.ok x
  | .sflt _ x op f rnd p q r =>
      f.isF3 && (match op with
        | .add | .sub | .mul => rnd.notRs
        | .min | .max | .minp | .maxp => rnd == .rn) && p.ok x && q.ok x && r.ok x
  | .sfma _ x f rnd p q r => f.isF3 && rnd.notRs && p.ok x && q.ok x && r.ok x
  | .fopen _ op f r _ _ _ _ =>
      (match op with
        | .add | .min | .max => f.isF3 || f == .i32 || f == .i64
        | .and | .or | .xor => f == .i32 || f == .i64) && addRnd (op == .add) f r
  | .fold _ p _ _ _ => p.noStep
  | .xchgs _ _ _ p _ => p.noStep
  | .cass _ _ _ p _ _ => p.noStep
  | .xadds _ _ _ p _ => p.noStep
  | .rld _ sz sx _ _ _ live => sxOk sz sx && !live.getLsbD 0 && onesOf live ≤ 16
  | .rfold _ p _ _ _ _ => p.noStep
  | .fadd _ f r .. | .fsub _ f r .. | .fmul _ f r .. | .fdiv _ f r .. | .fsqrt _ f r .. | .ffma _ f r ..
  | .frnd _ f r .. | .fscale _ f r .. => f.isF3 && r.notRs
  | .fmin _ f .. | .fmax _ f .. | .fminp _ f .. | .fmaxp _ f .. | .fcmp _ _ f .. => f.isF3
  | .fabs _ f .. | .fneg _ f .. | .fclass _ f .. => f.isF5
  | .fcvt _ dst src r .. => dst.isF5 && src.isF5 && dst != src && r.notRs
  | .icvtf _ dst src r .. => dst.isF5 && src.isInt && r.notRs
  | .fcvti _ dst src r .. => dst.isInt && src.isF5 && r.notRs
  | .fmovi _ f _ imm => f.isF5 && imm.toNat < 2 ^ f.width
  | .vld _ x _ _ p => p.ok x
  | .vst _ x _ p _ => p.ok x
  | .vadd _ _ sat f r .. => addFmt sat f r
  | .vsub _ _ sat f r .. => addFmt sat f r
  | .vmul _ _ f r .. => addFmt false f r
  | .vfma _ _ f r .. => f.isF3 && r.notRs
  | .vmin _ _ u f .. => (f.isF5 && !u) || f.isInt
  | .vmax _ _ u f .. => (f.isF5 && !u) || f.isInt
  | .vclamp _ _ u f .. => (f.isF5 && !u) || f.isInt
  | .vminp _ _ f .. => f.isF5
  | .vmaxp _ _ f .. => f.isF5
  | .vneg _ _ f .. => f.isVec
  | .vabs _ _ f .. => f.isVec
  | .vshl _ _ f .. => f.isInt
  | .vshr _ _ _ f .. => f.isInt
  | .vcmp _ _ cond f .. => match cond with
      | .int _ => f.isInt
      | .flt _ => f.isF5
  | .vsel _ _ f .. => f.isVec
  | .vperm _ _ f .. => f.isVec
  | .vbcast _ _ f .. => f.isVec
  | .vmovg _ _ f .. => f.isVec
  | .vins _ _ f .. => f.isVec
  | .vred _ _ op f r .. =>
      (match op with
        | .add | .min | .max => f.isF3 || f.isInt
        | .minp | .maxp => f.isF3
        | .and | .or | .xor => f.isInt) && addRnd (op == .add) f r
  | .vdot _ _ dst src r .. =>
      (dst == .f32 && src.isF5 && r.notRs) || (dst == .i32 && (src == .i8 || src == .i16) && r == .rn)
  | .vcvt _ _ dst src r _ _ part rs =>
      dst.isVec && src.isVec && dst != src && rsOk r rs &&
      part.toNat < (if dst.width ≤ src.width then src.width / dst.width else dst.width / src.width)
  | .vchain _ dst src r pd ps0 ps1 _ _ _ ops =>
      dst.isF5 && src.isF5 && r.notRs && pd.noStep && ps0.noStep && ps1.noStep && ops.length ≤ 8 &&
      ops.all (fun o => match o.1 with
        | .abs | .neg => o.2 == .s1
        | .add | .sub | .mul | .min | .max | .minp | .maxp => true)
  | .mwl _ wf p .. => wf.isWgt && p.noStep
  | .mmul _ af _ p => af.isAct && p.noStep
  | .mpass _ af wf _ p .. => af.isAct && wf.isWgt && p.noStep
  | .mweave _ af .. => af.isAct
  | .macld _ p .. => p.noStep
  | .macst _ f r p _ _ rs => f.isF5 && p.noStep && rsOk r rs
  | .mskew _ af .. => af.isAct
  | .mwlv _ wf .. => wf.isWgt
  | .cpys _ p .. => p.noStep
  | .cpyc _ op f r p .. => (f.isF3 || f == .i32) && addRnd (op == .add) f r && p.noStep
  | .cpyg _ p _ _ _ _ _ stride rowlen =>
      p.noStep && stride.toNat % 64 == 0 && rowlen.toNat % 64 == 0 && 64 ≤ rowlen.toNat
  | .cpyf _ p .. => p.noStep
  | .srd _ _ csr => csrOk csr
  | .swr _ csr _ => csrOk csr
  | _ => true

/-- The core source indices of the package (R65). -/
def coreCount : Nat := 1088

/-- A well-formed step: an encoded instruction whose guard and operands are permitted, or a device step. -/
def Instr.wf (i : Instr) : Bool :=
  match i.hdr? with
  | some h => h.wf && i.operandsOk
  | none => true

end Sys2Proof
end

