-- ==== Sys2Proof/Machine/Num.lean ====
section
/-!
DEFINITION. Number formats and the arithmetic on them (R152–R158, R186–R199): every float operation computes an exact value
and rounds it once. Patterns are natural numbers; exception classes are the bits of a five-bit word (R200: 0 invalid,
1 division by zero, 2 overflow, 3 underflow, 4 inexact).
-/

namespace Sys2Proof.Machine

abbrev Exc := BitVec 5
def excNone : Exc := 0
def excInvalid : Exc := 1
def excDivZero : Exc := 2
def excOverflow : Exc := 4
def excUnderflow : Exc := 8
def excInexact : Exc := 16

/-! ## Formats (R186) -/

/-- Mantissa width p. -/
def fmtP : Fmt → Nat
  | .f32 => 23 | .bf16 => 7 | .f16 => 10 | .e4m3 => 3 | .e5m2 => 2
  | .i8 | .i16 | .i32 | .i64 | .w4 | .w3 | .e5m3 => 0
def fmtBias : Fmt → Nat
  | .f32 | .bf16 => 127 | .f16 | .e5m2 => 15 | .e4m3 => 7
  | .i8 | .i16 | .i32 | .i64 | .w4 | .w3 | .e5m3 => 0
/-- Exponent width. -/
def fmtE (f : Fmt) : Nat := f.width - 1 - fmtP f
/-- The default NaN (R153, R188). -/
def defNan : Fmt → Nat
  | .f32 => 0x7FC00000 | .bf16 => 0x7FC0 | .f16 => 0x7E00 | .e4m3 => 0x7F | .e5m2 => 0x7E
  | .i8 | .i16 | .i32 | .i64 | .w4 | .w3 | .e5m3 => 0
/-- The pattern of the largest finite value, sign 0. -/
def maxFin (f : Fmt) : Nat :=
  match f with
  | .e4m3 => 0x7E
  | _ => (2 ^ fmtE f - 1) * 2 ^ fmtP f - 1
/-- The pattern of +∞; E4M3 has none. -/
def infPat (f : Fmt) : Nat := (2 ^ fmtE f - 1) * 2 ^ fmtP f
def signBit (f : Fmt) : Nat := 2 ^ (f.width - 1)
/-- The exponent of the smallest normal value. -/
def expMin (f : Fmt) : Int := 1 - (fmtBias f : Int)

/-- A value: a NaN, an infinity, or (−1)^neg × m × 2^e; zero keeps its sign. -/
inductive FVal where
  | nan (sig : Bool)
  | inf (neg : Bool)
  | fin (neg : Bool) (m : Nat) (e : Int)
  deriving DecidableEq, Repr

/-- The value of a pattern (R187, R188). -/
def unpack (f : Fmt) (x : Nat) : FVal :=
  let p := fmtP f
  let neg := x / signBit f % 2 == 1
  let e := x / 2 ^ p % 2 ^ fmtE f
  let m := x % 2 ^ p
  if f = .e4m3 then
    if e = 15 ∧ m = 7 then .nan false
    else if e = 0 then .fin neg m (expMin f - p) else .fin neg (2 ^ p + m) ((e : Int) - fmtBias f - p)
  else if e = 2 ^ fmtE f - 1 then
    if m = 0 then .inf neg else .nan (m < 2 ^ (p - 1))
  else if e = 0 then .fin neg m (expMin f - p)
  else .fin neg (2 ^ p + m) ((e : Int) - fmtBias f - p)

def isNan (f : Fmt) (x : Nat) : Bool :=
  match unpack f x with
  | .nan _ => true
  | .inf _ | .fin _ _ _ => false
def isSnan (f : Fmt) (x : Nat) : Bool :=
  match unpack f x with
  | .nan s => s
  | .inf _ | .fin _ _ _ => false

/-- A NaN with its top mantissa bit set. -/
def quieten (f : Fmt) (x : Nat) : Nat := x ||| 2 ^ (fmtP f - 1)

/-- The index of the highest one bit, 0 for 0. -/
def ilog2 (n : Nat) : Nat := Nat.log2 n

/-! ## Rounding (R192, R193) -/

/-- How the rest of a division by 2^sh compares with half: 0 exact, 1 below, 2 equal, 3 above. -/
inductive Rest where
  | exact | below | half | above
  deriving DecidableEq, Repr

/-- `m × 2^-sh` as integer and rest; `sticky` says that a further part below the last bit is not zero. -/
def splitAt (m sh : Nat) (sticky : Bool) : Nat × Rest :=
  if sh = 0 then (m, if sticky then .below else .exact)
  else if ilog2 m + 1 < sh then (0, if m = 0 ∧ !sticky then .exact else .below)
  else
    let k := m / 2 ^ sh
    let r := m % 2 ^ sh
    let h := 2 ^ (sh - 1)
    (k, if r = 0 ∧ !sticky then .exact else if r < h then .below else if r = h ∧ !sticky then .half else .above)

/-- Whether the magnitude is rounded up. `up` answers for stochastic rounding. -/
def roundsUp (r : Rnd) (neg : Bool) (k : Nat) (rest : Rest) (up : Bool) : Bool :=
  if rest = .exact then false
  else match r with
    | .rn => rest = .above || (rest = .half && k % 2 == 1)
    | .rz => false
    | .ru => !neg
    | .rd => neg
    | .rs => up

/-- The exponent of a nonzero magnitude m × 2^e. -/
def expOf (m : Nat) (e : Int) : Int := (ilog2 m : Int) + e

/-- m × 2^(e − q) as integer and rest. -/
def scaleTo (m : Nat) (e q : Int) (sticky : Bool) : Nat × Rest :=
  if q ≤ e then (m * 2 ^ (e - q).toNat, if sticky then .below else .exact) else splitAt m (q - e).toNat sticky

/-- The magnitude rounded with `p + 1` significant bits and exponents from `emin` (none: unbounded below): the rounded
magnitude k × 2^q and whether it is exact. -/
def roundMag (p : Nat) (emin : Option Int) (r : Rnd) (neg : Bool) (m : Nat) (e : Int) (sticky up : Bool) : Nat × Int × Bool :=
  let x := expOf m e
  let b : Int := match emin with
    | some lo => if x < lo then lo else x
    | none => x
  let q : Int := b - (p : Int)
  let (k, rest) := scaleTo m e q sticky
  (if roundsUp r neg k rest up then k + 1 else k, q, rest = .exact)

/-- The format code of R115 of a float format. -/
def fmtCode : Fmt → Nat
  | .f32 => 0 | .bf16 => 1 | .f16 => 2 | .e4m3 => 3 | .e5m2 => 4 | .i8 => 5 | .i16 => 6 | .i32 => 7 | .i64 => 8
  | .w4 => 9 | .w3 => 10 | .e5m3 => 11

def fmtOfCode (n : Nat) : Fmt :=
  match n with
  | 0 => .f32 | 1 => .bf16 | 2 => .f16 | 3 => .e4m3 | 4 => .e5m2 | 5 => .i8 | 6 => .i16 | 7 => .i32 | 8 => .i64
  | 9 => .w4 | 10 => .w3 | _ => .e5m3

/-- What an overflow gives: the IEEE result of the mode (R152), or the action of the overflow table (R196). -/
def overflowPat (f : Fmt) (r : Rnd) (neg : Bool) (table : Option Word) : Nat :=
  let s := if neg then signBit f else 0
  let inf := if f = .e4m3 then defNan f else s + infPat f
  match table with
  | none =>
    match r with
    | .rn | .rs => inf
    | .rz => s + maxFin f
    | .ru => if neg then s + maxFin f else inf
    | .rd => if neg then inf else s + maxFin f
  | some t =>
    match (t.extractLsb' (2 * fmtCode f) 2).toNat with
    | 1 => inf
    | 2 => defNan f
    | _ => s + maxFin f

/-- ⌊(a − lo) ÷ (hi − lo) × 2^24⌋ of R193 for the magnitude m × 2^e. -/
def stochT (f : Fmt) (m : Nat) (e : Int) : Nat :=
  let x := expOf m e
  let q := (if x < expMin f then expMin f else x) - fmtP f
  if q ≤ e then 0
  else
    let sh := (q - e).toNat
    if ilog2 m + 25 < sh then 0 else m % 2 ^ sh * 2 ^ 24 / 2 ^ sh

/-- Rounds (−1)^neg × m × 2^e, with a further nonzero part below the last bit if `sticky`, into a float format (R192,
R193). `draw` is the drawn 24-bit number of stochastic rounding. The pattern and the exceptions raised. -/
def roundTo (f : Fmt) (r : Rnd) (table : Option Word) (draw : Nat) (neg : Bool) (m : Nat) (e : Int) (sticky : Bool) :
    Nat × Exc :=
  let s := if neg then signBit f else 0
  if m = 0 ∧ !sticky then (s, excNone)
  else
    let p := fmtP f
    let lo := expMin f
    let up := decide (draw < stochT f m e)
    let (k, q, exact) := roundMag p (some lo) r neg m e sticky up
    let pat := (q + p - lo).toNat * 2 ^ p + k
    let laid := decide (maxFin f < pat) ||
      (r = .rs && !exact && decide (maxFin f ≤ (let fl := roundMag p (some lo) .rz neg m e sticky false
        (fl.2.1 + p - lo).toNat * 2 ^ p + fl.1)))
    if laid then (overflowPat f r neg table, excOverflow ||| excInexact)
    else if exact then (s + pat, excNone)
    else
      let t := roundMag p none (if r = .rs then .rn else r) neg m e sticky false
      (s + pat, if expOf t.1 t.2.1 < lo then excUnderflow ||| excInexact else excInexact)

/-! ## Arithmetic (R152, R153) -/

/-- The NaN result of an operation with a NaN among its operands: the first one, quieted (R153). -/
def nanOf (f : Fmt) (xs : List Nat) : Option (Nat × Exc) :=
  match xs.find? (isNan f) with
  | none => none
  | some x => some (quieten f x, if xs.any (isSnan f) then excInvalid else excNone)

def invalidNan (f : Fmt) : Nat × Exc := (defNan f, excInvalid)

/-- The signed value m × 2^e as an integer multiple of 2^q, for q ≤ e. -/
def atScale (neg : Bool) (m : Nat) (e q : Int) : Int :=
  let v : Int := (m * 2 ^ (e - q).toNat : Nat)
  if neg then -v else v

/-- Rounds the integer v × 2^q; an exact zero takes the sign `zneg`. -/
def roundInt (f : Fmt) (r : Rnd) (table : Option Word) (v : Int) (q : Int) (zneg : Bool) : Nat × Exc :=
  if v = 0 then (if zneg then signBit f else 0, excNone) else roundTo f r table 0 (v < 0) v.natAbs q false

/-- The sign of an exact zero sum (IEEE 754-2019, R152). -/
def zeroSign (r : Rnd) (n1 n2 : Bool) : Bool := if n1 = n2 then n1 else r = .rd

/-- a + b on values. -/
def addVal (f : Fmt) (r : Rnd) (a b : FVal) : Nat × Exc :=
  match a, b with
  | .inf n1, .inf n2 => if n1 = n2 then ((if n1 then signBit f else 0) + infPat f, excNone) else invalidNan f
  | .inf n, _ => ((if n then signBit f else 0) + infPat f, excNone)
  | _, .inf n => ((if n then signBit f else 0) + infPat f, excNone)
  | .fin n1 m1 e1, .fin n2 m2 e2 =>
    let q := min e1 e2
    roundInt f r none (atScale n1 m1 e1 q + atScale n2 m2 e2 q) q
      (if m1 = 0 ∧ m2 = 0 then zeroSign r n1 n2 else r = .rd)
  | .nan _, _ => invalidNan f
  | _, .nan _ => invalidNan f

def fNeg (f : Fmt) (x : Nat) : Nat := if x / signBit f % 2 = 1 then x - signBit f else x + signBit f
def fAbs (f : Fmt) (x : Nat) : Nat := if x / signBit f % 2 = 1 then x - signBit f else x

def fAdd (f : Fmt) (r : Rnd) (a b : Nat) : Nat × Exc :=
  (nanOf f [a, b]).getD (addVal f r (unpack f a) (unpack f b))

def negVal : FVal → FVal
  | .nan s => .nan s
  | .inf n => .inf !n
  | .fin n m e => .fin (!n) m e

def fSub (f : Fmt) (r : Rnd) (a b : Nat) : Nat × Exc :=
  (nanOf f [a, b]).getD (addVal f r (unpack f a) (negVal (unpack f b)))

/-- The exact product, or `none` for ∞ × 0. -/
def mulVal (a b : FVal) : Option FVal :=
  match a, b with
  | .fin n1 m1 e1, .fin n2 m2 e2 => some (.fin (n1 != n2) (m1 * m2) (e1 + e2))
  | .inf n1, .inf n2 => some (.inf (n1 != n2))
  | .inf n1, .fin n2 m _ => if m = 0 then none else some (.inf (n1 != n2))
  | .fin n1 m _, .inf n2 => if m = 0 then none else some (.inf (n1 != n2))
  | .nan s, _ => some (.nan s)
  | _, .nan s => some (.nan s)

/-- A value placed in a format. -/
def placeVal (f : Fmt) (r : Rnd) (table : Option Word) (v : FVal) : Nat × Exc :=
  match v with
  | .nan _ => (defNan f, excNone)
  | .inf n => ((if n then signBit f else 0) + infPat f, excNone)
  | .fin n m e => roundTo f r table 0 n m e false

def fMul (f : Fmt) (r : Rnd) (a b : Nat) : Nat × Exc :=
  (nanOf f [a, b]).getD (match mulVal (unpack f a) (unpack f b) with
    | none => invalidNan f
    | some v => placeVal f r none v)

/-- a × b + c with one rounding. IEEE 754-2019 leaves it to the implementation whether ∞ × 0 plus a quiet NaN raises
invalid (log 17). -/
def fFma (f : Fmt) (r : Rnd) (a b c : Nat) : Nat × Exc :=
  match mulVal (unpack f a) (unpack f b) with
  | none =>
    if isNan f c && !isSnan f c && !Config.fmaInvalid then (quieten f c, excNone) else invalidNan f
  | some v => (nanOf f [a, b, c]).getD (addVal f r v (unpack f c))

/-- The quotient m1 ÷ m2 with `n` extra bits: value, exponent and whether a rest remains. -/
def divMag (m1 m2 n : Nat) : Nat × Bool := (m1 * 2 ^ n / m2, m1 * 2 ^ n % m2 != 0)

def fDiv (f : Fmt) (r : Rnd) (a b : Nat) : Nat × Exc :=
  (nanOf f [a, b]).getD (match unpack f a, unpack f b with
    | .inf _, .inf _ => invalidNan f
    | .inf n1, .fin n2 _ _ => ((if n1 != n2 then signBit f else 0) + infPat f, excNone)
    | .fin n1 _ _, .inf n2 => (if n1 != n2 then signBit f else 0, excNone)
    | .fin n1 m1 e1, .fin n2 m2 e2 =>
      if m2 = 0 then
        if m1 = 0 then invalidNan f else ((if n1 != n2 then signBit f else 0) + infPat f, excDivZero)
      else
        let d := divMag m1 m2 64
        roundTo f r none 0 (n1 != n2) d.1 (e1 - e2 - 64) d.2
    | .nan _, _ => invalidNan f
    | _, .nan _ => invalidNan f)

/-- The integer square root, bit by bit from bit `n − 1`. -/
def isqrtFrom : Nat → Nat → Nat → Nat
  | 0, _, acc => acc
  | n + 1, x, acc =>
    let c := acc + 2 ^ n
    isqrtFrom n x (if c * c ≤ x then c else acc)

def fSqrt (f : Fmt) (r : Rnd) (a : Nat) : Nat × Exc :=
  (nanOf f [a]).getD (match unpack f a with
    | .inf n => if n then invalidNan f else (infPat f, excNone)
    | .fin n m e =>
      if m = 0 then (a, excNone)
      else if n then invalidNan f
      else
        let m2 := if e % 2 = 0 then m * 2 ^ 64 else m * 2 ^ 65
        let e2 := if e % 2 = 0 then e - 64 else e - 65
        let k := isqrtFrom 64 m2 0
        roundTo f r none 0 false k (e2 / 2) (k * k != m2)
    | .nan _ => invalidNan f)

/-- a × 2^n for a 64-bit integer n (R152). -/
def fScale (f : Fmt) (r : Rnd) (a : Nat) (n : Int) : Nat × Exc :=
  (nanOf f [a]).getD (match unpack f a with
    | .fin s m e => roundTo f r none 0 s m (e + n) false
    | v => placeVal f r none v)

/-- An integer near m × 2^e, and whether it is exact. -/
def toIntMag (r : Rnd) (neg : Bool) (m : Nat) (e : Int) : Nat × Bool :=
  if 0 ≤ e then (m * 2 ^ e.toNat, true)
  else
    let (k, rest) := splitAt m (-e).toNat false
    (if roundsUp r neg k rest false then k + 1 else k, rest = .exact)

/-- `FRND`: an integral value of the same format (R152); an infinity and a zero stay. -/
def fRnd (f : Fmt) (r : Rnd) (a : Nat) : Nat × Exc :=
  (nanOf f [a]).getD (match unpack f a with
    | .fin s m e => ((roundTo f r none 0 s (toIntMag r s m e).1 0 false).1, excNone)
    | _ => (a, excNone))

/-! ## Order (R154, R155, R199) -/

/-- A key that orders non-NaN values numerically with −0 below +0. -/
def orderKey (f : Fmt) (x : Nat) : Int := if x / signBit f % 2 = 1 then -((x % signBit f : Nat) : Int) - 1 else (x : Int)

/-- `FMIN` (`big` false) and `FMAX`. -/
def fMinMax (f : Fmt) (big : Bool) (a b : Nat) : Nat × Exc :=
  let exc := if isSnan f a || isSnan f b then excInvalid else excNone
  if isNan f a then (if isNan f b then quieten f a else b, exc)
  else if isNan f b then (a, exc)
  else (if decide (orderKey f a ≤ orderKey f b) = !big then a else b, exc)

/-- `FMINP` and `FMAXP`. -/
def fMinMaxP (f : Fmt) (big : Bool) (a b : Nat) : Nat × Exc := (nanOf f [a, b]).getD (fMinMax f big a b)

/-- Whether a is below b, and whether they are equal, as numbers. -/
def fCond (f : Fmt) (c : FCond) (a b : Nat) : Bool × Exc :=
  let un := isNan f a || isNan f b
  let z := fun x => if x % signBit f = 0 then 0 else x
  let eq := !un && z a == z b
  let lt := !un && decide (orderKey f (z a) < orderKey f (z b))
  let gt := !un && decide (orderKey f (z b) < orderKey f (z a))
  let quiet := if isSnan f a || isSnan f b then excInvalid else excNone
  let loud := if un then excInvalid else excNone
  match c with
  | .eq => (eq, quiet)
  | .ne => (!eq, quiet)
  | .lt => (lt, loud)
  | .le => (lt || eq, loud)
  | .gt => (gt, loud)
  | .ge => (gt || eq, loud)
  | .un => (un, quiet)
  | .ord => (!un, quiet)

/-- The class bit of `FCLASS` (R156). -/
def fClass (f : Fmt) (x : Nat) : Nat :=
  match unpack f x with
  | .inf n => if n then 0 else 7
  | .nan s => if s then 8 else 9
  | .fin n m e =>
    if m = 0 then (if n then 3 else 4)
    else if m < 2 ^ fmtP f ∧ e = expMin f - fmtP f then (if n then 2 else 5)
    else (if n then 1 else 6)

/-! ## Conversions (R157, R194–R196) -/

/-- A NaN converted bit for bit (R195). -/
def convNan (dst src : Fmt) (x : Nat) : Nat :=
  let s := if x / signBit src % 2 = 1 then signBit dst else 0
  let ps := fmtP src
  let pd := fmtP dst
  let ms := x % 2 ^ ps
  if dst = .e4m3 then s + 0x7F
  else if ps ≤ pd then s + infPat dst + ms * 2 ^ (pd - ps)
  else
    let m := ms / 2 ^ (ps - pd)
    s + infPat dst + (if m = 0 then 1 else m)

/-- Float to float. `draw` serves stochastic rounding. -/
def fConv (dst src : Fmt) (r : Rnd) (table : Word) (draw : Nat) (x : Nat) : Nat × Exc :=
  match unpack src x with
  | .nan _ => (convNan dst src x, excNone)
  | .inf n => if dst = .e4m3 then (overflowPat dst r n (some table), excInvalid)
      else ((if n then signBit dst else 0) + infPat dst, excNone)
  | .fin n m e => roundTo dst r (some table) draw n m e false

/-- Integer to float. -/
def intToF (dst : Fmt) (r : Rnd) (table : Word) (draw : Nat) (v : Int) : Nat × Exc :=
  roundTo dst r (some table) draw (v < 0) v.natAbs 0 false

/-- A pattern of n bits read as two's complement. -/
def toS (n x : Nat) : Int := if 2 ^ (n - 1) ≤ x % 2 ^ n then ((x % 2 ^ n : Nat) : Int) - 2 ^ n else ((x % 2 ^ n : Nat) : Int)
/-- The n-bit pattern of an integer. -/
def toU (n : Nat) (v : Int) : Nat := (v % 2 ^ n).toNat
def satS (n : Nat) (v : Int) : Int :=
  if v < -(2 ^ (n - 1) : Int) then -(2 ^ (n - 1) : Int) else if (2 ^ (n - 1) : Int) - 1 < v then (2 ^ (n - 1) : Int) - 1 else v

/-- Float to signed integer of n bits (R157): the value and the exceptions. -/
def fToInt (n : Nat) (src : Fmt) (r : Rnd) (draw : Nat) (x : Nat) : Int × Exc :=
  match unpack src x with
  | .nan _ => (0, excInvalid)
  | .inf neg => (if neg then -(2 ^ (n - 1) : Int) else (2 ^ (n - 1) : Int) - 1, excInvalid)
  | .fin neg m e =>
    let t := if 0 ≤ e then 0 else if ilog2 m + 25 < (-e).toNat then 0 else m % 2 ^ (-e).toNat * 2 ^ 24 / 2 ^ (-e).toNat
    let signed := fun (k : Nat) => if neg then -(k : Int) else (k : Int)
    let p := if 0 ≤ e then (m * 2 ^ e.toNat, .exact) else splitAt m (-e).toNat false
    -- beyond the largest value no bits are drawn (R193)
    let beyond := r = .rs ∧ p.2 ≠ .exact ∧ satS n (signed (p.1 + 1)) ≠ signed (p.1 + 1)
    let v := signed (if beyond ∨ roundsUp r neg p.1 p.2 (draw < t) then p.1 + 1 else p.1)
    if satS n v = v then (v, if p.2 = .exact then excNone else excInexact) else (satS n v, excInvalid)

/-- The value of an E5M3 scale as m × 2^e (R191). -/
def scaleVal (s : Byte) : Nat × Int :=
  let e := s.toNat / 8
  let m := s.toNat % 8
  if e = 0 then (m, -17) else (8 + m, (e : Int) - 18)

/-! ## Exact sums (R239, R240) -/

/-- Terms of an exact sum: a value, and the NaN pattern it came from, if it is one. -/
structure Term where
  val : FVal
  pat : Nat
  deriving DecidableEq, Repr

def minExp : List FVal → Int → Int
  | [], q => q
  | .fin _ _ e :: vs, q => minExp vs (min e q)
  | .nan _ :: vs, q => minExp vs q
  | .inf _ :: vs, q => minExp vs q

def sumAt (q : Int) : List FVal → Int
  | [] => 0
  | .fin n m e :: vs => atScale n m e q + sumAt q vs
  | .nan _ :: vs => sumAt q vs
  | .inf _ :: vs => sumAt q vs

def isInfOf (neg : Bool) : FVal → Bool
  | .inf n => n == neg
  | .nan _ | .fin _ _ _ => false
def isNegZero : FVal → Bool
  | .fin n m _ => n && m == 0
  | .nan _ | .inf _ => false
def FVal.isNan : FVal → Bool
  | .nan _ => true
  | .inf _ | .fin _ _ _ => false

/-- The exact sum of values that are no NaNs, rounded once; −0 if every term is −0. -/
def sumVals (f : Fmt) (r : Rnd) (vs : List FVal) : Nat × Exc :=
  let pos := vs.any (isInfOf false)
  let neg := vs.any (isInfOf true)
  if pos && neg then invalidNan f
  else if pos then (infPat f, excNone)
  else if neg then (signBit f + infPat f, excNone)
  else
    let q := minExp vs 0
    roundInt f r none (sumAt q vs) q (vs.all isNegZero || r = .rd)

/-! ## The other shared functions -/

/-- `floor(v / 2^k)` for a fixed-point number. -/
def shiftFloor (v : Int) (k : Nat) : Int := v / (2 ^ k : Int)

/-- The Osier rounds (R180). -/
def osierRot : List Nat := [16, 40, 24, 52, 8, 44, 28, 12, 36, 20]

def osierRounds (k0 k1 : BitVec 64) : List Nat → Nat → BitVec 64 → BitVec 64 → BitVec 128
  | [], _, x0, x1 => x1 ++ x0
  | r :: rs, i, x0, x1 =>
    let y0 := x0 + x1
    let y1 := x1.rotateLeft r ^^^ y0
    osierRounds k0 k1 rs (i + 1) (y0 + (if i % 2 = 0 then k1 else k0)) (y1 + BitVec.ofNat 64 (i + 1))

/-- `osier(c, K)` (R180). -/
def osier (c k : BitVec 128) : BitVec 128 :=
  let k0 := k.extractLsb' 0 64
  let k1 := k.extractLsb' 64 64
  osierRounds k0 k1 osierRot 0 (c.extractLsb' 0 64 + k0) (c.extractLsb' 64 64 + k1)

/-- e^(−n ÷ 2^160), as a multiple of 2^−160, by the series with `k` further terms; `t` is the current term. -/
def expSeries : Nat → Nat → Int → Int → Int → Int
  | 0, _, _, _, acc => acc
  | k + 1, i, n, t, acc =>
    let t' := -(t * n) / (2 ^ 160 * (i : Int))
    expSeries k (i + 1) n t' (acc + t')

def sqTimes : Nat → Int → Int
  | 0, v => v
  | n + 1, v => sqTimes n (v * v / 2 ^ 160)

/-- `sigm(h, b)` for h ≥ 0: the integer nearest to 2^24 ÷ (1 + e^(−h ÷ 2^b)) (R307; log 14). -/
def sigmPos (h b : Nat) : Nat :=
  if h = 0 then 2 ^ 23
  else if 32 * 2 ^ b ≤ h then 2 ^ 24
  else
    let x : Int := (h : Int) * 2 ^ 160 / (2 ^ b * 64 : Nat)
    let y := sqTimes 6 (expSeries 48 1 x (2 ^ 160) (2 ^ 160))
    ((2 ^ 185 + (2 ^ 160 + y)) / (2 * (2 ^ 160 + y))).toNat

def sigm (h : Int) (b : Nat) : Nat := if h < 0 then 2 ^ 24 - sigmPos h.natAbs b else sigmPos h.natAbs b

/-! ## SHA-256 (R359, R388, R389; log 15) -/

/-- The floor of the `k`th root of `x`, below `r + 2 ^ b`, from its highest bit down. -/
def rootFloor (k x : Nat) : Nat → Nat → Nat
  | 0, r => r
  | b + 1, r => rootFloor k x b (if (r + 2 ^ b) ^ k ≤ x then r + 2 ^ b else r)

/-- The first 32 bits of the fractional part of the `k`th root of `p`. -/
def rootFraction (k p : Nat) : Nat := rootFloor k (p * 2 ^ (32 * k)) 38 0 % 2 ^ 32

/-- The primes below `n`. -/
def primesBelow (n : Nat) : List Nat :=
  ((List.range n).drop 2).filter (fun p => ((List.range p).drop 2).all (fun d => p % d != 0))

/-- The round constants: from the cube roots of the first 64 primes. -/
def shaRoundConstants : List Nat := (primesBelow 312).map (rootFraction 3)

/-- The initial hash value: from the square roots of the first 8 primes. -/
def shaInit : List (BitVec 32) := (primesBelow 20).map (fun p => BitVec.ofNat 32 (rootFraction 2 p))

/-- Extends a reversed message schedule by `n` words. -/
def shaExtend : Nat → List (BitVec 32) → List (BitVec 32)
  | 0, w => w
  | n + 1, w =>
    let g := fun i => w.getD i 0
    let s0 := (g 14).rotateRight 7 ^^^ (g 14).rotateRight 18 ^^^ (g 14) >>> 3
    let s1 := (g 1).rotateRight 17 ^^^ (g 1).rotateRight 19 ^^^ (g 1) >>> 10
    shaExtend n ((g 15 + s0 + g 6 + s1) :: w)

def shaRound (s : List (BitVec 32)) (kw : BitVec 32) : List (BitVec 32) :=
  match s with
  | [a, b, c, d, e, f, g, h] =>
    let s1 := e.rotateRight 6 ^^^ e.rotateRight 11 ^^^ e.rotateRight 25
    let t1 := h + s1 + ((e &&& f) ^^^ (~~~e &&& g)) + kw
    let s0 := a.rotateRight 2 ^^^ a.rotateRight 13 ^^^ a.rotateRight 22
    let t2 := s0 + ((a &&& b) ^^^ (a &&& c) ^^^ (b &&& c))
    [t1 + t2, a, b, c, d + t1, e, f, g]
  | _ => s

def beWords : Nat → List Byte → List (BitVec 32)
  | 0, _ => []
  | n + 1, b0 :: b1 :: b2 :: b3 :: bs => (b0 ++ b1 ++ b2 ++ b3) :: beWords n bs
  | _ + 1, _ => []

def shaBlock (s : List (BitVec 32)) (block : List Byte) : List (BitVec 32) :=
  let w := (shaExtend 48 (beWords 16 block).reverse).reverse
  let r := (List.zip shaRoundConstants w).foldl (fun s p => shaRound s (BitVec.ofNat 32 p.1 + p.2)) s
  List.zipWith (fun x y => x + y) s r

def shaBlocks : Nat → List (BitVec 32) → List Byte → List (BitVec 32)
  | 0, s, _ => s
  | n + 1, s, bs => shaBlocks n (shaBlock s (bs.take 64)) (bs.drop 64)

/-- The digest as a big-endian number. -/
def sha256 (msg : List Byte) : BitVec 256 :=
  let n := msg.length
  let pad := (0x80#8 :: List.replicate ((119 - n % 64) % 64) 0#8)
  let len := (List.range 8).map (fun i => BitVec.ofNat 8 (n * 8 / 2 ^ (8 * (7 - i))))
  let all := msg ++ pad ++ len
  BitVec.ofNat 256 ((shaBlocks (all.length / 64) shaInit all).foldl (fun t w => t * 2 ^ 32 + w.toNat) 0)

/-- The digest in the byte order of FIPS 180-4. -/
def sha256Bytes (msg : List Byte) : List Byte :=
  let d := sha256 msg
  (List.range 32).map (fun i => d.extractLsb' (8 * (31 - i)) 8)

end Sys2Proof.Machine
end

