-- ==== Sys2Proof/Decode.lean ====
section
/-!
DEFINITION. The encoding (R105–R119 and the encoding table of each chapter): the fields of a word, the instruction that
the fields hold, and the encoder. `candidate` reads the fields of an opcode; a word is an instruction exactly when the
encoding of the instruction so read is the word again (every bit that the entry does not name is zero, R117) and the
instruction is well-formed. `NOP`, which ignores bits (R118), keeps them.
-/

namespace Sys2Proof

/-- The fields of R108 and the words `J` or `K` of R109 (`J` zero-extended). -/
structure Raw where
  len : BitVec 2
  stall : BitVec 3
  op : BitVec 8
  gp : BitVec 3
  gn : BitVec 1
  d : BitVec 5
  a : BitVec 5
  b : BitVec 5
  m : BitVec 8
  imm : BitVec 24
  ext : BitVec 64
  deriving DecidableEq, Repr

/-! Codes of R115, R145, R155 and of the operation fields. -/

def Size.code : Size → BitVec 2
  | .b => 0 | .h => 1 | .w => 2 | .d => 3
def Size.ofCode (c : BitVec 2) : Size :=
  match c.toNat with
  | 0 => .b | 1 => .h | 2 => .w | _ => .d
def Fmt.code : Fmt → BitVec 4
  | .f32 => 0 | .bf16 => 1 | .f16 => 2 | .e4m3 => 3 | .e5m2 => 4 | .i8 => 5 | .i16 => 6 | .i32 => 7 | .i64 => 8
  | .w4 => 9 | .w3 => 10 | .e5m3 => 11
def Fmt.ofCode (c : BitVec 4) : Fmt :=
  match c.toNat with
  | 0 => .f32 | 1 => .bf16 | 2 => .f16 | 3 => .e4m3 | 4 => .e5m2 | 5 => .i8 | 6 => .i16 | 7 => .i32 | 8 => .i64
  | 9 => .w4 | 10 => .w3 | _ => .e5m3
def Rnd.code : Rnd → BitVec 3
  | .rn => 0 | .rz => 1 | .ru => 2 | .rd => 3 | .rs => 4
def Rnd.ofCode (c : BitVec 3) : Rnd :=
  match c.toNat with
  | 0 => .rn | 1 => .rz | 2 => .ru | 3 => .rd | _ => .rs
def Scope.code : Scope → BitVec 2
  | .cluster => 0 | .die => 1 | .package => 2 | .system => 3
def Scope.ofCode (c : BitVec 2) : Scope :=
  match c.toNat with
  | 0 => .cluster | 1 => .die | 2 => .package | _ => .system
def Cond.code : Cond → BitVec 4
  | .eq => 0 | .ne => 1 | .lt => 2 | .le => 3 | .gt => 4 | .ge => 5 | .ltu => 6 | .leu => 7 | .gtu => 8 | .geu => 9
  | .tst => 10 | .ntst => 11
def Cond.ofCode (c : BitVec 4) : Cond :=
  match c.toNat with
  | 0 => .eq | 1 => .ne | 2 => .lt | 3 => .le | 4 => .gt | 5 => .ge | 6 => .ltu | 7 => .leu | 8 => .gtu | 9 => .geu
  | 10 => .tst | _ => .ntst
def Comb.code : Comb → BitVec 2
  | .set => 0 | .and => 1 | .or => 2
def Comb.ofCode (c : BitVec 2) : Comb :=
  match c.toNat with
  | 0 => .set | 1 => .and | _ => .or
def FCond.code : FCond → BitVec 3
  | .eq => 0 | .ne => 1 | .lt => 2 | .le => 3 | .gt => 4 | .ge => 5 | .un => 6 | .ord => 7
def FCond.ofCode (c : BitVec 3) : FCond :=
  match c.toNat with
  | 0 => .eq | 1 => .ne | 2 => .lt | 3 => .le | 4 => .gt | 5 => .ge | 6 => .un | _ => .ord
/-- The condition field of `VCMP`; the format says which table it indexes (R238). -/
def VCond.code : VCond → BitVec 4
  | .int c => c.code
  | .flt c => 0#1 ++ c.code
def VCond.ofCode (f : Fmt) (c : BitVec 4) : VCond :=
  if f.isF5 then .flt (FCond.ofCode (c.extractLsb' 0 3)) else .int (Cond.ofCode c)
def SaluOp.code : SaluOp → BitVec 4
  | .add => 0 | .sub => 1 | .and => 2 | .or => 3 | .xor => 4 | .min => 5 | .max => 6 | .minu => 7 | .maxu => 8
  | .adds => 9 | .addus => 10 | .mul => 11
def SaluOp.ofCode (c : BitVec 4) : SaluOp :=
  match c.toNat with
  | 0 => .add | 1 => .sub | 2 => .and | 3 => .or | 4 => .xor | 5 => .min | 6 => .max | 7 => .minu | 8 => .maxu
  | 9 => .adds | 10 => .addus | _ => .mul
def SfltOp.code : SfltOp → BitVec 3
  | .add => 0 | .sub => 1 | .mul => 2 | .min => 3 | .max => 4 | .minp => 5 | .maxp => 6
def SfltOp.ofCode (c : BitVec 3) : SfltOp :=
  match c.toNat with
  | 0 => .add | 1 => .sub | 2 => .mul | 3 => .min | 4 => .max | 5 => .minp | _ => .maxp
def FoldOp.code : FoldOp → BitVec 3
  | .add => 0 | .min => 1 | .max => 2 | .and => 3 | .or => 4 | .xor => 5
def FoldOp.ofCode (c : BitVec 3) : FoldOp :=
  match c.toNat with
  | 0 => .add | 1 => .min | 2 => .max | 3 => .and | 4 => .or | _ => .xor
def RedOp.code : RedOp → BitVec 3
  | .add => 0 | .min => 1 | .max => 2 | .minp => 3 | .maxp => 4 | .and => 5 | .or => 6 | .xor => 7
def RedOp.ofCode (c : BitVec 3) : RedOp :=
  match c.toNat with
  | 0 => .add | 1 => .min | 2 => .max | 3 => .minp | 4 => .maxp | 5 => .and | 6 => .or | _ => .xor
def CpyOp.code : CpyOp → BitVec 3
  | .add => 0 | .min => 1 | .max => 2 | .minp => 3 | .maxp => 4
def CpyOp.ofCode (c : BitVec 3) : CpyOp :=
  match c.toNat with
  | 0 => .add | 1 => .min | 2 => .max | 3 => .minp | _ => .maxp
def ChainOp.code : ChainOp → BitVec 4
  | .add => 1 | .sub => 2 | .mul => 3 | .min => 4 | .max => 5 | .minp => 6 | .maxp => 7 | .abs => 8 | .neg => 9
def ChainOp.ofCode (c : BitVec 4) : ChainOp :=
  match c.toNat with
  | 1 => .add | 2 => .sub | 3 => .mul | 4 => .min | 5 => .max | 6 => .minp | 7 => .maxp | 8 => .abs | _ => .neg
def ChainSrc.code : ChainSrc → BitVec 2
  | .s1 => 0 | .c0 => 1 | .c1 => 2
def ChainSrc.ofCode (c : BitVec 2) : ChainSrc :=
  match c.toNat with
  | 0 => .s1 | 1 => .c0 | _ => .c1

/-- A pointer operand field (R113). -/
def Ptr.code : Ptr → BitVec 5
  | .plain n => 0#2 ++ n
  | .inc n => 1#2 ++ n
  | .step n _ => 2#2 ++ n
def Ptr.slot : Ptr → BitVec 10
  | .step _ k => k
  | .plain _ | .inc _ => 0
def Ptr.ofCode (c : BitVec 5) (k : BitVec 10) : Ptr :=
  match (c.extractLsb' 3 2).toNat with
  | 0 => .plain (c.extractLsb' 0 3)
  | 1 => .inc (c.extractLsb' 0 3)
  | _ => .step (c.extractLsb' 0 3) k

/-- The operation bytes of a chain, first operation in the lowest byte (R243). -/
def chainBytes : Nat → List (ChainOp × ChainSrc) → Nat
  | _, [] => 0
  | 0, _ => 0
  | n + 1, o :: os => (o.1.code ++ o.2.code ++ 0#2 : BitVec 8).toNat + 256 * chainBytes n os
/-- The operations up to the end byte. Decoding compares the bytes with those of `chainBytes`, so it refuses an end byte whose operand bits are
not zero, which is the model's choice (log 110). -/
def chainOfBytes : Nat → Nat → List (ChainOp × ChainSrc)
  | 0, _ => []
  | n + 1, w =>
      if (w / 16) % 16 = 0 then []
      else (ChainOp.ofCode (BitVec.ofNat 4 (w / 16)), ChainSrc.ofCode (BitVec.ofNat 2 (w / 4))) ::
        chainOfBytes n (w / 256)

/-! Parts of the fields. -/

def rBit (p : BitVec 3) : BitVec 5 := 0#2 ++ p
def vBit (v : BitVec 4) : BitVec 5 := 0#1 ++ v
def flagBit (f : Bool) : BitVec 1 := BitVec.ofBool f
/-- `M` with a flag, a rounding and a format code. -/
def mFmt (flag : Bool) (r : Rnd) (f : Fmt) : BitVec 8 := flagBit flag ++ r.code ++ f.code
/-- `M` with a flag and a size code. -/
def mSize (flag : Bool) (sz : Size) : BitVec 8 := flagBit flag ++ 0#5 ++ sz.code
/-- `M` with only its flag. -/
def mFlag (flag : Bool) : BitVec 8 := flagBit flag ++ 0#7
/-- The size code of a `.w` or `.d` operation. -/
def mWide (wide : Bool) : BitVec 8 := mSize false (if wide then .d else .w)
/-- Bits [63:40] of shape R. -/
def xc (x : BitVec 19) (c : BitVec 5) : BitVec 24 := x ++ c
/-- `X` of a vector instruction: the width flag and the low bits. -/
def xw (w : Bool) (x : BitVec 18) : BitVec 19 := flagBit w ++ x
def jExt (j : BitVec 32) : BitVec 64 := 0#32 ++ j
/-- `J` with the step slots of D, A and B (R113). -/
def jSlots (x : Bool) (d a b : BitVec 10) : BitVec 64 := if x then jExt (0#2 ++ b ++ a ++ d) else 0
def lenX (x : Bool) : BitVec 2 := if x then 2 else 1
def pwBits (w : WordOp) : BitVec 6 := flagBit w.write ++ 0#2 ++ w.ptr
/-- `M` of `CMP`: condition and combine code (R145). -/
def mCmp (c : Cond) (k : Comb) : BitVec 8 := 0#2 ++ k.code ++ c.code

def rawOf (h : Hdr) (len : BitVec 2) (op : BitVec 8) (d a b : BitVec 5) (m : BitVec 8) (imm : BitVec 24)
    (ext : BitVec 64) : Raw :=
  { len, stall := h.stall, op, gp := h.gp, gn := flagBit h.gn, d, a, b, m, imm, ext }

/-- Shape R, 64 bits, with `C` and no `X`. -/
def rawR (h : Hdr) (op : BitVec 8) (d a b : BitVec 5) (m : BitVec 8 := 0) (c : BitVec 5 := 0)
    (x : BitVec 19 := 0) : Raw := rawOf h 1 op d a b m (xc x c) 0
/-- Shape I, 64 bits. -/
def rawI (h : Hdr) (op : BitVec 8) (d a : BitVec 5) (imm : BitVec 24) (m : BitVec 8 := 0)
    (b : BitVec 5 := 0) : Raw := rawOf h 1 op d a b m imm 0
/-- A copy command: the fields that all four share (R294). -/
def rawCpy (h : Hdr) (op : BitVec 8) (p : Ptr) (a gn gv gs : GReg) (pw : WordOp) (k : BitVec 64) : Raw :=
  rawOf h 3 op p.code a gn 0 (xc (0#8 ++ pwBits pw ++ gs) gv) k

/-- The fields of an encoded instruction; a device step has no encoding. -/
def encodeRaw : Instr → Option Raw
  | .nop h x => some (rawOf h (match x.len with | .l64 => 1 | .l96 => 2 | .l128 => 3) 0x00 (x.rest.extractLsb' 0 5)
      (x.rest.extractLsb' 5 5) (x.rest.extractLsb' 10 5) (x.rest.extractLsb' 15 8) (x.rest.extractLsb' 23 24) x.ext)
  | .add h d a b => some (rawR h 0x01 d a b)
  | .addi h d a imm => some (rawI h 0x02 d a imm)
  | .sub h d a b => some (rawR h 0x03 d a b)
  | .mul h d a b => some (rawR h 0x04 d a b)
  | .mulh h u d a b => some (rawR h 0x05 d a b (mFlag u))
  | .div h u d a b => some (rawR h 0x06 d a b (mFlag u))
  | .rem h u d a b => some (rawR h 0x07 d a b (mFlag u))
  | .and h d a b => some (rawR h 0x08 d a b)
  | .or h d a b => some (rawR h 0x09 d a b)
  | .xor h d a b => some (rawR h 0x0A d a b)
  | .andn h d a b => some (rawR h 0x0B d a b)
  | .shl h d a b => some (rawR h 0x0C d a b)
  | .shr h d a b => some (rawR h 0x0D d a b)
  | .sar h d a b => some (rawR h 0x0E d a b)
  | .rot h d a b => some (rawR h 0x0F d a b)
  | .shli h d a n => some (rawI h 0x10 d a (0#18 ++ n))
  | .shri h d a n => some (rawI h 0x11 d a (0#18 ++ n))
  | .sari h d a n => some (rawI h 0x12 d a (0#18 ++ n))
  | .movi h d imm => some (rawOf h 2 0x13 d 0 0 0 0 (jExt imm))
  | .moviD h d imm => some (rawOf h 3 0x13 d 0 0 0 0 imm)
  | .min h u d a b => some (rawR h 0x14 d a b (mFlag u))
  | .max h u d a b => some (rawR h 0x15 d a b (mFlag u))
  | .abs h d a => some (rawR h 0x16 d a 0)
  | .clz h d a => some (rawR h 0x17 d a 0)
  | .popc h d a => some (rawR h 0x18 d a 0)
  | .ext h sx d a lo wm1 => some (rawI h 0x19 d a (0#12 ++ wm1 ++ lo) (mFlag sx))
  | .ins h d a lo wm1 => some (rawI h 0x1A d a (0#12 ++ wm1 ++ lo))
  | .sel h d c a b => some (rawR h 0x1B d a b 0 (rBit c))
  | .lea h d a b s disp => some (rawOf h 1 0x1C d a b (0#5 ++ s) (xc disp 0) 0)
  | .adds h u d a b => some (rawR h 0x1D d a b (mFlag u))
  | .hops h d a b => some (rawR h 0x1E d a b)
  | .mad h d a b c => some (rawR h 0x1F d a b 0 c)
  | .cmp h cond comb d c a b => some (rawR h 0x20 (rBit d) a b (mCmp cond comb) (rBit c))
  | .cmpi h cond comb d a imm => some (rawI h 0x21 (rBit d) a imm (mCmp cond comb))
  | .pand h n d a b => some (rawR h 0x22 (rBit d) (rBit a) (rBit b) (mFlag n))
  | .por h n d a b => some (rawR h 0x23 (rBit d) (rBit a) (rBit b) (mFlag n))
  | .pxor h n d a b => some (rawR h 0x24 (rBit d) (rBit a) (rBit b) (mFlag n))
  | .pnot h d a => some (rawR h 0x25 (rBit d) (rBit a) 0)
  | .pset h d v => some (rawI h 0x26 (rBit d) 0 (0#23 ++ flagBit v))
  | .ptest h d a bit => some (rawI h 0x27 (rBit d) a (0#18 ++ bit))
  | .pget h d => some (rawR h 0x28 d 0 0)
  | .pput h a mask => some (rawI h 0x29 0 a (0#16 ++ mask ++ 0#1))
  | .br h off => some (rawI h 0x2A 0 0 off)
  | .brFar h off => some (rawOf h 2 0x2A 0 0 0 0 0 (jExt off))
  | .jmp h a => some (rawR h 0x2B 0 a 0)
  | .call h d off => some (rawI h 0x2C d 0 off)
  | .callFar h d off => some (rawOf h 2 0x2C d 0 0 0 0 (jExt off))
  | .callr h d a => some (rawR h 0x2D d a 0)
  | .ret h a => some (rawR h 0x2E 0 a 0)
  | .loop h d off => some (rawI h 0x2F d 0 off)
  | .lds h x sz sx d p => some (rawOf h (lenX x) 0x40 d p.code 0 (mSize sx sz) 0 (jSlots x 0 p.slot 0))
  | .sts h x sz p a => some (rawOf h (lenX x) 0x41 p.code a 0 (mSize false sz) 0 (jSlots x p.slot 0 0))
  | .ldv h p a disp => some (rawI h 0x42 p.code a disp)
  | .stv h p a disp => some (rawI h 0x43 p.code a disp)
  | .ld h sz sx d a disp => some (rawI h 0x44 d a disp (mSize sx sz))
  | .st h sz a b disp => some (rawI h 0x45 0 a disp (mSize false sz) b)
  | .ldd h f r d a b => some (rawR h 0x46 d a b (mFmt false r f))
  | .std h f p a b => some (rawR h 0x47 p.code a b (mFmt false .rn f))
  | .smov h x sz p q => some (rawOf h (lenX x) 0x48 p.code q.code 0 (mSize false sz) 0 (jSlots x p.slot q.slot 0))
  | .salu h x op sz p q r => some (rawOf h (lenX x) 0x49 p.code q.code r.code (mSize false sz)
      (xc (0#15 ++ op.code) 0) (jSlots x p.slot q.slot r.slot))
  | .sflt h x op f rnd p q r => some (rawOf h (lenX x) 0x4A p.code q.code r.code (mFmt false rnd f)
      (xc (0#16 ++ op.code) 0) (jSlots x p.slot q.slot r.slot))
  | .sfma h x f rnd p q r => some (rawOf h (lenX x) 0x4B p.code q.code r.code (mFmt false rnd f) 0
      (jSlots x p.slot q.slot r.slot))
  | .bclose h sc => some (rawR h 0x4C 0 0 0 0 (0#3 ++ sc.code))
  | .fence h sc => some (rawR h 0x4D 0 0 0 0 (0#3 ++ sc.code))
  | .fenceFresh h => some (rawR h 0x4D 0 0 0 (mFlag true))
  | .probe h w a => some (rawR h 0x4E 0 a 0 (mFlag w))
  | .pref h a => some (rawR h 0x4F 0 a 0)
  | .fopen h op f r d a b c => some (rawR h 0x50 d a b (mFmt false r f) c (0#16 ++ op.code))
  | .fold h p a b lm1 => some (rawR h 0x51 p.code a b (0#4 ++ lm1))
  | .fclose h d a => some (rawR h 0x52 d a 0)
  | .xchg h wide d a b => some (rawR h 0x53 d a b (mWide wide))
  | .cas h wide d a b c => some (rawR h 0x54 d a b (mWide wide) c)
  | .xchgs h wide d p b => some (rawR h 0x55 d p.code b (mWide wide))
  | .cass h wide d p b c => some (rawR h 0x56 d p.code b (mWide wide) c)
  | .xadd h wide d a b => some (rawR h 0x57 d a b (mWide wide))
  | .xadds h wide d p b => some (rawR h 0x58 d p.code b (mWide wide))
  | .ldtag h d a => some (rawR h 0x59 d a 0)
  | .spawn h t => some (rawOf h 2 0x60 0 0 0 0 0 (jExt (0#20 ++ t)))
  | .post h t a => some (rawOf h 2 0x61 0 a 0 0 0 (jExt (0#20 ++ t)))
  | .postGrp h grp a => some (rawOf h 2 0x61 0 a 0 (mFlag true) 0 (jExt (0#20 ++ grp)))
  | .halt h => some (rawR h 0x62 0 0 0)
  | .haltK h a => some (rawR h 0x62 0 a 0 (mFlag true))
  | .commit h => some (rawR h 0x63 0 0 0)
  | .claim h g => some (rawI h 0x64 0 0 (0#18 ++ g))
  | .unclaim h g => some (rawI h 0x65 0 0 (0#18 ++ g))
  | .arrive h a phase cm1 => some (rawI h 0x66 0 a (0#12 ++ cm1 ++ phase))
  | .binit h p b target succ phase =>
      some (rawOf h 2 0x67 0 (rBit p) b 0 0 (jExt (0#4 ++ phase ++ succ ++ target)))
  | .watch h wide p b t => some (rawOf h 2 0x68 0 (rBit p) b (mWide wide) 0 (jExt (0#20 ++ t)))
  | .unwatch h d p => some (rawR h 0x69 d (rBit p) 0)
  | .qpush h q a b => some (rawR h 0x6A (rBit q) a b)
  | .qpop h d q => some (rawR h 0x6B d (rBit q) 0)
  | .qcfg h q a => some (rawR h 0x6C (rBit q) a 0)
  | .qlen h d q => some (rawR h 0x6D d (rBit q) 0)
  | .rld h sz sx d a peer live => some (rawOf h 3 0x70 d a 0 (mSize sx sz) (xc (0#14 ++ peer) 0) (jExt live))
  | .rst h sz a b peer => some (rawR h 0x71 0 a b (mSize false sz) 0 (0#14 ++ peer))
  | .rstRel h sz a b peer t => some (rawR h 0x71 0 a b (mSize true sz) 0 (0#2 ++ t ++ peer))
  | .rcas h wide d a b c peer => some (rawR h 0x72 d a b (mWide wide) c (0#14 ++ peer))
  | .rfold h p a b lm1 peer => some (rawR h 0x73 p.code a b (0#4 ++ lm1) 0 (0#14 ++ peer))
  | .rxchg h wide d a b peer => some (rawR h 0x74 d a b (mWide wide) 0 (0#14 ++ peer))
  | .fadd h f r d a b => some (rawR h 0x80 d a b (mFmt false r f))
  | .fsub h f r d a b => some (rawR h 0x81 d a b (mFmt false r f))
  | .fmul h f r d a b => some (rawR h 0x82 d a b (mFmt false r f))
  | .fdiv h f r d a b => some (rawR h 0x83 d a b (mFmt false r f))
  | .fsqrt h f r d a => some (rawR h 0x84 d a 0 (mFmt false r f))
  | .ffma h f r d a b c => some (rawR h 0x85 d a b (mFmt false r f) c)
  | .fmin h f d a b => some (rawR h 0x86 d a b (mFmt false .rn f))
  | .fmax h f d a b => some (rawR h 0x87 d a b (mFmt false .rn f))
  | .fminp h f d a b => some (rawR h 0x88 d a b (mFmt false .rn f))
  | .fmaxp h f d a b => some (rawR h 0x89 d a b (mFmt false .rn f))
  | .fabs h f d a => some (rawR h 0x8A d a 0 (mFmt false .rn f))
  | .fneg h f d a => some (rawR h 0x8B d a 0 (mFmt false .rn f))
  | .fcmp h cond f d a b => some (rawR h 0x8C (rBit d) a b (mFmt false .rn f) 0 (0#16 ++ cond.code))
  | .fclass h f d a => some (rawR h 0x8D d a 0 (mFmt false .rn f))
  | .fcvt h dst src r d a => some (rawR h 0x8E d a 0 (mFmt false r dst) (0#1 ++ src.code))
  | .icvtf h dst src r d a => some (rawR h 0x8F d a 0 (mFmt false r dst) (0#1 ++ src.code))
  | .fcvti h dst src r d a => some (rawR h 0x90 d a 0 (mFmt false r dst) (0#1 ++ src.code))
  | .fmovi h f d imm => some (rawOf h 2 0x91 d 0 0 (mFmt false .rn f) 0 (jExt imm))
  | .frnd h f r d a => some (rawR h 0x92 d a 0 (mFmt false r f))
  | .fscale h f r d a b => some (rawR h 0x93 d a b (mFmt false r f))
  | .vmodeLong h => some (rawR h 0xA0 0 0 0 (mFlag true))
  | .vmodeShort h => some (rawR h 0xA0 0 0 0)
  | .vld h x w d p => some (rawOf h (lenX x) 0xA1 (vBit d) p.code 0 0 (xc (xw w 0) 0) (jSlots x 0 p.slot 0))
  | .vst h x w p a => some (rawOf h (lenX x) 0xA2 p.code (vBit a) 0 0 (xc (xw w 0) 0) (jSlots x p.slot 0 0))
  | .vldv h w d a => some (rawR h 0xA3 (vBit d) a 0 0 0 (xw w 0))
  | .vstv h w a b => some (rawR h 0xA4 0 a (vBit b) 0 0 (xw w 0))
  | .vadd h w sat f r d a b => some (rawR h 0xA5 (vBit d) (vBit a) (vBit b) (mFmt sat r f) 0 (xw w 0))
  | .vsub h w sat f r d a b => some (rawR h 0xA6 (vBit d) (vBit a) (vBit b) (mFmt sat r f) 0 (xw w 0))
  | .vmul h w f r d a b => some (rawR h 0xA7 (vBit d) (vBit a) (vBit b) (mFmt false r f) 0 (xw w 0))
  | .vfma h w f r d a b c => some (rawR h 0xA8 (vBit d) (vBit a) (vBit b) (mFmt false r f) (vBit c) (xw w 0))
  | .vmin h w u f d a b => some (rawR h 0xA9 (vBit d) (vBit a) (vBit b) (mFmt u .rn f) 0 (xw w 0))
  | .vmax h w u f d a b => some (rawR h 0xAA (vBit d) (vBit a) (vBit b) (mFmt u .rn f) 0 (xw w 0))
  | .vminp h w f d a b => some (rawR h 0xAB (vBit d) (vBit a) (vBit b) (mFmt false .rn f) 0 (xw w 0))
  | .vmaxp h w f d a b => some (rawR h 0xAC (vBit d) (vBit a) (vBit b) (mFmt false .rn f) 0 (xw w 0))
  | .vneg h w f d a => some (rawR h 0xAD (vBit d) (vBit a) 0 (mFmt false .rn f) 0 (xw w 0))
  | .vabs h w f d a => some (rawR h 0xAE (vBit d) (vBit a) 0 (mFmt false .rn f) 0 (xw w 0))
  | .vand h w d a b => some (rawR h 0xAF (vBit d) (vBit a) (vBit b) 0 0 (xw w 0))
  | .vor h w d a b => some (rawR h 0xB0 (vBit d) (vBit a) (vBit b) 0 0 (xw w 0))
  | .vxor h w d a b => some (rawR h 0xB1 (vBit d) (vBit a) (vBit b) 0 0 (xw w 0))
  | .vshl h w f d a b => some (rawR h 0xB2 (vBit d) (vBit a) (vBit b) (mFmt false .rn f) 0 (xw w 0))
  | .vshr h w sx f d a b => some (rawR h 0xB3 (vBit d) (vBit a) (vBit b) (mFmt sx .rn f) 0 (xw w 0))
  | .vcmp h w cond f d a b => some (rawR h 0xB4 (vBit d) (vBit a) (vBit b) (mFmt false .rn f) 0 (xw w (0#14 ++ cond.code)))
  | .vsel h w f d m a b => some (rawR h 0xB5 (vBit d) (vBit a) (vBit b) (mFmt false .rn f) (vBit m) (xw w 0))
  | .vred h w op f r d a => some (rawR h 0xB6 d (vBit a) 0 (mFmt false r f) 0 (xw w (0#15 ++ op.code)))
  | .vdot h w dst src r d a b =>
      some (rawR h 0xB7 (vBit d) (vBit a) (vBit b) (mFmt false r dst) (0#1 ++ src.code) (xw w 0))
  | .vperm h w f d a b c => some (rawR h 0xB8 (vBit d) (vBit a) (vBit b) (mFmt false .rn f) (vBit c) (xw w 0))
  | .vbcast h w f d a => some (rawR h 0xB9 (vBit d) a 0 (mFmt false .rn f) 0 (xw w 0))
  | .vcvt h w dst src r d a part rs => match rs with
      | none => some (rawR h 0xBA (vBit d) (vBit a) 0 (mFmt false r dst) (0#1 ++ src.code) (xw w (0#15 ++ part)))
      | some o => some (rawR h 0xBA (vBit d) (vBit a) o.gt (mFmt false r dst) (0#1 ++ src.code)
          (xw w (0#6 ++ o.key ++ o.gr ++ part)))
  | .vmovg h w f d a idx => some (rawI h 0xBB d (vBit a) (flagBit w ++ 0#15 ++ idx) (mFmt false .rn f))
  | .vins h w f d a idx => some (rawI h 0xBC (vBit d) a (flagBit w ++ 0#15 ++ idx) (mFmt false .rn f))
  | .vchain h dst src r pd ps0 ps1 gk gn gs ops => some (rawOf h 3 0xBD pd.code ps0.code ps1.code (mFmt false r dst)
      (xc (0#4 ++ gs ++ gn ++ gk) (0#1 ++ src.code)) (BitVec.ofNat 64 (chainBytes 8 ops)))
  | .vclamp h w u f d a b c => some (rawR h 0xBE (vBit d) (vBit a) (vBit b) (mFmt u .rn f) (vBit c) (xw w 0))
  | .mwl h wf p c0 cm1 => some (rawOf h 2 0xC0 0 p.code 0 (mFmt false .rn wf) 0 (jExt (0#17 ++ cm1 ++ 0#1 ++ c0)))
  | .mswap h => some (rawR h 0xC1 0 0 0)
  | .mmul h af z p => some (rawR h 0xC2 0 p.code 0 (mFmt z .rn af))
  | .mpass h af wf z p b gs sm1 stride => some (rawOf h 3 0xC3 0 p.code b (mFmt z .rn af)
      (xc (0#14 ++ gs) (0#1 ++ wf.code)) (0#24 ++ stride ++ sm1))
  | .mweave h af z p q gs => some (rawR h 0xC4 0 (rBit p) (rBit q) (mFmt z .rn af) 0 (0#14 ++ gs))
  | .macz h => some (rawR h 0xC5 0 0 0)
  | .macld h p row rm1 => some (rawR h 0xC6 0 p.code 0 0 0 (0#9 ++ rm1 ++ row))
  | .macst h f r p row rm1 rs => match rs with
      | none => some (rawR h 0xC7 p.code 0 0 (mFmt false r f) 0 (0#9 ++ rm1 ++ row))
      | some o => some (rawR h 0xC7 p.code 0 o.gt (mFmt false r f) o.gr (0#5 ++ o.key ++ rm1 ++ row))
  | .macmv h d row seg => some (rawR h 0xC8 (vBit d) 0 0 0 0 (0#10 ++ seg ++ row))
  | .macmvTo h row seg a => some (rawR h 0xC8 0 (vBit a) 0 (mFlag true) 0 (0#10 ++ seg ++ row))
  | .mskew h af p q => some (rawR h 0xC9 0 (rBit p) (rBit q) (mFmt false .rn af))
  | .macrd h d row col => some (rawR h 0xCA d 0 0 0 0 (0#7 ++ col ++ row))
  | .mwlv h wf a c0 cm1 => some (rawOf h 2 0xCB 0 a 0 (mFmt false .rn wf) 0 (jExt (0#17 ++ cm1 ++ 0#1 ++ c0)))
  | .scouple h a b slot => some (rawR h 0xD0 0 a b 0 0 (0#15 ++ slot))
  | .sbias h a b => some (rawR h 0xD1 0 a b)
  | .sclamp h a v => some (rawR h 0xD2 0 a 0 0 0 (0#18 ++ flagBit v))
  | .sclampOff h a => some (rawR h 0xD2 0 a 0 (mFlag true))
  | .scolour h a col => some (rawI h 0xD3 0 a (0#21 ++ col))
  | .sweep h a gs sm1 ncm1 b => some (rawOf h 2 0xD4 0 a 0 0 (xc (0#14 ++ gs) 0)
      (jExt (0#16 ++ b ++ 0#1 ++ ncm1 ++ sm1)))
  | .sread h d a => some (rawR h 0xD5 d a 0)
  | .swrite h a b => some (rawR h 0xD6 0 a b)
  | .skey h n a b => some (rawR h 0xD7 0 a b 0 0 (0#15 ++ n))
  | .cpys h p a gn gv gs pw => some (rawCpy h 0xD8 p a gn gv gs pw 0)
  | .cpyc h op f r p a gn gv gs pw => some (rawCpy h 0xD9 p a gn gv gs pw (0#54 ++ r.code ++ f.code ++ op.code))
  | .cpyg h p a gn gv gs pw stride rowlen => some (rawCpy h 0xDA p a gn gv gs pw (0#16 ++ rowlen ++ stride))
  | .cpyf h p a gn gv gs pw => some (rawCpy h 0xDB p a gn gv gs pw 0)
  | .srd h d csr => some (rawI h 0xE0 d 0 (0#12 ++ csr))
  | .swr h csr a => some (rawI h 0xE1 0 a (0#12 ++ csr))
  | .trap h imm => some (rawI h 0xE2 0 0 imm)
  | .brk h imm => some (rawI h 0xE3 0 0 imm)
  | .ovld h a => some (rawR h 0xE4 0 a 0)
  | .genset h n a => some (rawOf h 2 0xE5 0 a 0 0 0 (jExt (0#28 ++ n)))
  | .gensync h => some (rawR h 0xE6 0 0 0)
  | .harvest h => some (rawR h 0xE7 0 0 0)
  | .tret h => some (rawR h 0xE8 0 0 0)
  | .tretNext h => some (rawR h 0xE8 0 0 0 1)
  | .tretKill h => some (rawR h 0xE8 0 0 0 2)
  | .tretEnd h => some (rawR h 0xE8 0 0 0 3)
  | .keyset h n a b => some (rawOf h 3 0xE9 0 a b 0 0 (0#60 ++ n))
  | .tlbinv h a => some (rawR h 0xEA 0 a 0)
  | .tlbinvAll h => some (rawR h 0xEA 0 0 0 (mFlag true))
  | .instructionBoundary .. | .loadReply .. | .divideComplete .. | .fpDivideUnitComplete ..
  | .longVectorComplete .. | .chainRun .. | .matrixCommandRun .. | .weaveSend .. | .weaveTimeout ..
  | .copyCommandRun .. | .samplerCommandRun .. | .bundleLineArrival .. | .lineAcknowledgement ..
  | .settleAtHome .. | .settleAcknowledgement .. | .quietAtHome .. | .quietQueryReply .. | .atomicAtHome ..
  | .foldHomeOpen .. | .foldContributionArrival .. | .foldHomeClose .. | .releaseArrival .. | .offerArrival ..
  | .taskAged .. | .skipLimitBlock .. | .dispatchExchange .. | .entryStoreFetch .. | .arrivalApply ..
  | .queuePushApply .. | .continuationSend .. | .continuationResume .. | .remoteMessageReceive ..
  | .keptGrantExpiry .. | .contextLastTaskRetired .. | .exceptionWindowEnd .. | .exceptionThreshold ..
  | .seal .. | .digestArrival .. | .digestTimeout .. | .endNoticeArrival .. | .queueArbitration | .launchEntry
  | .createContextEntry | .endContextEntry | .noOperationEntry | .seqRetry .. | .staleEntry ..
  | .contextCreationComplete .. | .endCompletion .. | .queueDoorbell .. | .queueEnable .. | .queueDisable ..
  | .eventConfigWrite .. | .eventReadIndexWrite .. | .contextFree .. | .faultRecordRelease ..
  | .xcmdInvalidateAll .. | .xcmdHarvest .. | .xcmdInvalidatePage .. | .xcmdComplete .. | .cwaveWrite ..
  | .circuitReassignComplete .. | .lwDrain | .lwRelock | .lwGoDark | .drainComplete | .lockComplete ..
  | .stageTransmitKey .. | .stageReceiveKey .. | .fibreHeld .. | .fibreFailed .. | .flitAuthFailure ..
  | .holdLimitExpiry .. | .scaleoutStageTransmitKey .. | .scaleoutStageReceiveKey .. | .scaleoutFrameReceive ..
  | .scaleoutRetransmit .. | .scaleoutUndeliverable .. | .scaleoutPortHeld .. | .scaleoutPortStateChange ..
  | .produceReport | .writeEndorsement | .attestationComplete | .debugHaltCommand .. | .debugResume ..
  | .debugStep .. | .debugDrain .. | .debugDrainComplete .. | .ddataWrite .. | .registerWrite ..
  | .apertureAccessNotPerformed .. | .hostMemoryWrite .. | .hostMemoryRead .. | .linkTraining ..
  | .eventRecordStage | .eventRingWrite | .harvestBlockChange .. | .spareBringIn .. | .resetBoot
  | .junctionTemperature .. | .thermalShutdown .. | .managementPowerRequest .. | .managementFirmwareInstall ..
  | .managementRead .. | .supplyOutOfTolerance .. | .keyChangeFlitArrival .. | .scaleoutAcknowledgement .. => none

/-! The parts of the fields of a word. -/

def Raw.hdr (r : Raw) : Hdr := { gp := r.gp, gn := r.gn == 1#1, stall := r.stall }
def Raw.c (r : Raw) : BitVec 5 := r.imm.extractLsb' 0 5
def Raw.x (r : Raw) : BitVec 19 := r.imm.extractLsb' 5 19
/-- `X[lo + n − 1 : lo]`. -/
def Raw.xf (r : Raw) (lo n : Nat) : BitVec n := r.imm.extractLsb' (5 + lo) n
def Raw.immf (r : Raw) (lo n : Nat) : BitVec n := r.imm.extractLsb' lo n
/-- Bits of `J` or `K`. -/
def Raw.ef (r : Raw) (lo n : Nat) : BitVec n := r.ext.extractLsb' lo n
def Raw.j (r : Raw) : BitVec 32 := r.ext.extractLsb' 0 32
def low3 (f : BitVec 5) : BitVec 3 := f.extractLsb' 0 3
def low4 (f : BitVec 5) : BitVec 4 := f.extractLsb' 0 4
def Raw.fmt (r : Raw) : Fmt := Fmt.ofCode (r.m.extractLsb' 0 4)
def Raw.rnd (r : Raw) : Rnd := Rnd.ofCode (r.m.extractLsb' 4 3)
def Raw.flag (r : Raw) : Bool := r.m.extractLsb' 7 1 == 1#1
def Raw.size (r : Raw) : Size := Size.ofCode (r.m.extractLsb' 0 2)
def Raw.wide (r : Raw) : Bool := r.m.extractLsb' 0 2 == 3#2
/-- The format of `C[3:0]`. -/
def Raw.cfmt (r : Raw) : Fmt := Fmt.ofCode (r.c.extractLsb' 0 4)
def Raw.is96 (r : Raw) : Bool := r.len == 2#2
def Raw.wf (r : Raw) : Bool := r.imm.extractLsb' 23 1 == 1#1
def Raw.ptrD (r : Raw) : Ptr := Ptr.ofCode r.d (r.ef 0 10)
def Raw.ptrA (r : Raw) : Ptr := Ptr.ofCode r.a (r.ef 10 10)
def Raw.ptrB (r : Raw) : Ptr := Ptr.ofCode r.b (r.ef 20 10)
def Raw.cond (r : Raw) : Cond := Cond.ofCode (r.m.extractLsb' 0 4)
def Raw.comb (r : Raw) : Comb := Comb.ofCode (r.m.extractLsb' 4 2)
def Raw.pw (r : Raw) : WordOp := { write := r.xf 10 1 == 1#1, ptr := r.xf 5 3 }
def Raw.modeIs (r : Raw) (n : Nat) : Bool := r.m == BitVec.ofNat 8 n

/-- Opcodes 0x00–0x1F: integer and address instructions (R140). -/
def candInt (n : Nat) (r : Raw) : Option Instr :=
  match n with
  | 0x00 => some (.nop r.hdr { len := if r.len == 1#2 then .l64 else if r.len == 2#2 then .l96 else .l128,
                               rest := r.imm ++ r.m ++ r.b ++ r.a ++ r.d, ext := r.ext })
  | 0x01 => some (.add r.hdr r.d r.a r.b)
  | 0x02 => some (.addi r.hdr r.d r.a r.imm)
  | 0x03 => some (.sub r.hdr r.d r.a r.b)
  | 0x04 => some (.mul r.hdr r.d r.a r.b)
  | 0x05 => some (.mulh r.hdr r.flag r.d r.a r.b)
  | 0x06 => some (.div r.hdr r.flag r.d r.a r.b)
  | 0x07 => some (.rem r.hdr r.flag r.d r.a r.b)
  | 0x08 => some (.and r.hdr r.d r.a r.b)
  | 0x09 => some (.or r.hdr r.d r.a r.b)
  | 0x0A => some (.xor r.hdr r.d r.a r.b)
  | 0x0B => some (.andn r.hdr r.d r.a r.b)
  | 0x0C => some (.shl r.hdr r.d r.a r.b)
  | 0x0D => some (.shr r.hdr r.d r.a r.b)
  | 0x0E => some (.sar r.hdr r.d r.a r.b)
  | 0x0F => some (.rot r.hdr r.d r.a r.b)
  | 0x10 => some (.shli r.hdr r.d r.a (r.immf 0 6))
  | 0x11 => some (.shri r.hdr r.d r.a (r.immf 0 6))
  | 0x12 => some (.sari r.hdr r.d r.a (r.immf 0 6))
  | 0x13 => some (if r.is96 then .movi r.hdr r.d r.j else .moviD r.hdr r.d r.ext)
  | 0x14 => some (.min r.hdr r.flag r.d r.a r.b)
  | 0x15 => some (.max r.hdr r.flag r.d r.a r.b)
  | 0x16 => some (.abs r.hdr r.d r.a)
  | 0x17 => some (.clz r.hdr r.d r.a)
  | 0x18 => some (.popc r.hdr r.d r.a)
  | 0x19 => some (.ext r.hdr r.flag r.d r.a (r.immf 0 6) (r.immf 6 6))
  | 0x1A => some (.ins r.hdr r.d r.a (r.immf 0 6) (r.immf 6 6))
  | 0x1B => some (.sel r.hdr r.d (low3 r.c) r.a r.b)
  | 0x1C => some (.lea r.hdr r.d r.a r.b (r.m.extractLsb' 0 3) r.x)
  | 0x1D => some (.adds r.hdr r.flag r.d r.a r.b)
  | 0x1E => some (.hops r.hdr r.d r.a r.b)
  | 0x1F => some (.mad r.hdr r.d r.a r.b r.c)
  | _ => none

/-- Opcodes 0x20–0x3F: control and predicates (R145, R148). -/
def candCtl (n : Nat) (r : Raw) : Option Instr :=
  match n with
  | 0x00 => some (.cmp r.hdr r.cond r.comb (low3 r.d) (low3 r.c) r.a r.b)
  | 0x01 => some (.cmpi r.hdr r.cond r.comb (low3 r.d) r.a r.imm)
  | 0x02 => some (.pand r.hdr r.flag (low3 r.d) (low3 r.a) (low3 r.b))
  | 0x03 => some (.por r.hdr r.flag (low3 r.d) (low3 r.a) (low3 r.b))
  | 0x04 => some (.pxor r.hdr r.flag (low3 r.d) (low3 r.a) (low3 r.b))
  | 0x05 => some (.pnot r.hdr (low3 r.d) (low3 r.a))
  | 0x06 => some (.pset r.hdr (low3 r.d) (r.immf 0 1 == 1#1))
  | 0x07 => some (.ptest r.hdr (low3 r.d) r.a (r.immf 0 6))
  | 0x08 => some (.pget r.hdr r.d)
  | 0x09 => some (.pput r.hdr r.a (r.immf 1 7))
  | 0x0A => some (if r.is96 then .brFar r.hdr r.j else .br r.hdr r.imm)
  | 0x0B => some (.jmp r.hdr r.a)
  | 0x0C => some (if r.is96 then .callFar r.hdr r.d r.j else .call r.hdr r.d r.imm)
  | 0x0D => some (.callr r.hdr r.d r.a)
  | 0x0E => some (.ret r.hdr r.a)
  | 0x0F => some (.loop r.hdr r.d r.imm)
  | _ => none

/-- Opcodes 0x40–0x5F: scratchpad and memory (R206). -/
def candMem (n : Nat) (r : Raw) : Option Instr :=
  match n with
  | 0x00 => some (.lds r.hdr r.is96 r.size r.flag r.d r.ptrA)
  | 0x01 => some (.sts r.hdr r.is96 r.size r.ptrD r.a)
  | 0x02 => some (.ldv r.hdr r.ptrD r.a r.imm)
  | 0x03 => some (.stv r.hdr r.ptrD r.a r.imm)
  | 0x04 => some (.ld r.hdr r.size r.flag r.d r.a r.imm)
  | 0x05 => some (.st r.hdr r.size r.a r.b r.imm)
  | 0x06 => some (.ldd r.hdr r.fmt r.rnd r.d r.a r.b)
  | 0x07 => some (.std r.hdr r.fmt r.ptrD r.a r.b)
  | 0x08 => some (.smov r.hdr r.is96 r.size r.ptrD r.ptrA)
  | 0x09 => some (.salu r.hdr r.is96 (SaluOp.ofCode (r.xf 0 4)) r.size r.ptrD r.ptrA r.ptrB)
  | 0x0A => some (.sflt r.hdr r.is96 (SfltOp.ofCode (r.xf 0 3)) r.fmt r.rnd r.ptrD r.ptrA r.ptrB)
  | 0x0B => some (.sfma r.hdr r.is96 r.fmt r.rnd r.ptrD r.ptrA r.ptrB)
  | 0x0C => some (.bclose r.hdr (Scope.ofCode (r.c.extractLsb' 0 2)))
  | 0x0D => some (if r.flag then .fenceFresh r.hdr else .fence r.hdr (Scope.ofCode (r.c.extractLsb' 0 2)))
  | 0x0E => some (.probe r.hdr r.flag r.a)
  | 0x0F => some (.pref r.hdr r.a)
  | 0x10 => some (.fopen r.hdr (FoldOp.ofCode (r.xf 0 3)) r.fmt r.rnd r.d r.a r.b r.c)
  | 0x11 => some (.fold r.hdr r.ptrD r.a r.b (r.m.extractLsb' 0 4))
  | 0x12 => some (.fclose r.hdr r.d r.a)
  | 0x13 => some (.xchg r.hdr r.wide r.d r.a r.b)
  | 0x14 => some (.cas r.hdr r.wide r.d r.a r.b r.c)
  | 0x15 => some (.xchgs r.hdr r.wide r.d r.ptrA r.b)
  | 0x16 => some (.cass r.hdr r.wide r.d r.ptrA r.b r.c)
  | 0x17 => some (.xadd r.hdr r.wide r.d r.a r.b)
  | 0x18 => some (.xadds r.hdr r.wide r.d r.ptrA r.b)
  | 0x19 => some (.ldtag r.hdr r.d r.a)
  | _ => none

/-- Opcodes 0x60–0x7F: tasks, synchronisation and remote operations (R275, R334). -/
def candTask (n : Nat) (r : Raw) : Option Instr :=
  match n with
  | 0x00 => some (.spawn r.hdr (r.ef 0 12))
  | 0x01 => some (if r.flag then .postGrp r.hdr (r.ef 0 12) r.a else .post r.hdr (r.ef 0 12) r.a)
  | 0x02 => some (if r.flag then .haltK r.hdr r.a else .halt r.hdr)
  | 0x03 => some (.commit r.hdr)
  | 0x04 => some (.claim r.hdr (r.immf 0 6))
  | 0x05 => some (.unclaim r.hdr (r.immf 0 6))
  | 0x06 => some (.arrive r.hdr r.a (r.immf 0 4) (r.immf 4 8))
  | 0x07 => some (.binit r.hdr (low3 r.a) r.b (r.ef 0 16) (r.ef 16 8) (r.ef 24 4))
  | 0x08 => some (.watch r.hdr r.wide (low3 r.a) r.b (r.ef 0 12))
  | 0x09 => some (.unwatch r.hdr r.d (low3 r.a))
  | 0x0A => some (.qpush r.hdr (low3 r.d) r.a r.b)
  | 0x0B => some (.qpop r.hdr r.d (low3 r.a))
  | 0x0C => some (.qcfg r.hdr (low3 r.d) r.a)
  | 0x0D => some (.qlen r.hdr r.d (low3 r.a))
  | 0x10 => some (.rld r.hdr r.size r.flag r.d r.a (r.xf 0 5) r.j)
  | 0x11 => some (if r.flag then .rstRel r.hdr r.size r.a r.b (r.xf 0 5) (r.xf 5 12)
      else .rst r.hdr r.size r.a r.b (r.xf 0 5))
  | 0x12 => some (.rcas r.hdr r.wide r.d r.a r.b r.c (r.xf 0 5))
  | 0x13 => some (.rfold r.hdr r.ptrD r.a r.b (r.m.extractLsb' 0 4) (r.xf 0 5))
  | 0x14 => some (.rxchg r.hdr r.wide r.d r.a r.b (r.xf 0 5))
  | _ => none

/-- Opcodes 0x80–0x9F: scalar float and conversion (R151). -/
def candFlt (n : Nat) (r : Raw) : Option Instr :=
  match n with
  | 0x00 => some (.fadd r.hdr r.fmt r.rnd r.d r.a r.b)
  | 0x01 => some (.fsub r.hdr r.fmt r.rnd r.d r.a r.b)
  | 0x02 => some (.fmul r.hdr r.fmt r.rnd r.d r.a r.b)
  | 0x03 => some (.fdiv r.hdr r.fmt r.rnd r.d r.a r.b)
  | 0x04 => some (.fsqrt r.hdr r.fmt r.rnd r.d r.a)
  | 0x05 => some (.ffma r.hdr r.fmt r.rnd r.d r.a r.b r.c)
  | 0x06 => some (.fmin r.hdr r.fmt r.d r.a r.b)
  | 0x07 => some (.fmax r.hdr r.fmt r.d r.a r.b)
  | 0x08 => some (.fminp r.hdr r.fmt r.d r.a r.b)
  | 0x09 => some (.fmaxp r.hdr r.fmt r.d r.a r.b)
  | 0x0A => some (.fabs r.hdr r.fmt r.d r.a)
  | 0x0B => some (.fneg r.hdr r.fmt r.d r.a)
  | 0x0C => some (.fcmp r.hdr (FCond.ofCode (r.xf 0 3)) r.fmt (low3 r.d) r.a r.b)
  | 0x0D => some (.fclass r.hdr r.fmt r.d r.a)
  | 0x0E => some (.fcvt r.hdr r.fmt r.cfmt r.rnd r.d r.a)
  | 0x0F => some (.icvtf r.hdr r.fmt r.cfmt r.rnd r.d r.a)
  | 0x10 => some (.fcvti r.hdr r.fmt r.cfmt r.rnd r.d r.a)
  | 0x11 => some (.fmovi r.hdr r.fmt r.d r.j)
  | 0x12 => some (.frnd r.hdr r.fmt r.rnd r.d r.a)
  | 0x13 => some (.fscale r.hdr r.fmt r.rnd r.d r.a r.b)
  | _ => none

/-- Opcodes 0xA0–0xBF: vector (R233, R243). -/
def candVec (n : Nat) (r : Raw) : Option Instr :=
  match n with
  | 0x00 => some (if r.flag then .vmodeLong r.hdr else .vmodeShort r.hdr)
  | 0x01 => some (.vld r.hdr r.is96 r.wf (low4 r.d) r.ptrA)
  | 0x02 => some (.vst r.hdr r.is96 r.wf r.ptrD (low4 r.a))
  | 0x03 => some (.vldv r.hdr r.wf (low4 r.d) r.a)
  | 0x04 => some (.vstv r.hdr r.wf r.a (low4 r.b))
  | 0x05 => some (.vadd r.hdr r.wf r.flag r.fmt r.rnd (low4 r.d) (low4 r.a) (low4 r.b))
  | 0x06 => some (.vsub r.hdr r.wf r.flag r.fmt r.rnd (low4 r.d) (low4 r.a) (low4 r.b))
  | 0x07 => some (.vmul r.hdr r.wf r.fmt r.rnd (low4 r.d) (low4 r.a) (low4 r.b))
  | 0x08 => some (.vfma r.hdr r.wf r.fmt r.rnd (low4 r.d) (low4 r.a) (low4 r.b) (low4 r.c))
  | 0x09 => some (.vmin r.hdr r.wf r.flag r.fmt (low4 r.d) (low4 r.a) (low4 r.b))
  | 0x0A => some (.vmax r.hdr r.wf r.flag r.fmt (low4 r.d) (low4 r.a) (low4 r.b))
  | 0x0B => some (.vminp r.hdr r.wf r.fmt (low4 r.d) (low4 r.a) (low4 r.b))
  | 0x0C => some (.vmaxp r.hdr r.wf r.fmt (low4 r.d) (low4 r.a) (low4 r.b))
  | 0x0D => some (.vneg r.hdr r.wf r.fmt (low4 r.d) (low4 r.a))
  | 0x0E => some (.vabs r.hdr r.wf r.fmt (low4 r.d) (low4 r.a))
  | 0x0F => some (.vand r.hdr r.wf (low4 r.d) (low4 r.a) (low4 r.b))
  | 0x10 => some (.vor r.hdr r.wf (low4 r.d) (low4 r.a) (low4 r.b))
  | 0x11 => some (.vxor r.hdr r.wf (low4 r.d) (low4 r.a) (low4 r.b))
  | 0x12 => some (.vshl r.hdr r.wf r.fmt (low4 r.d) (low4 r.a) (low4 r.b))
  | 0x13 => some (.vshr r.hdr r.wf r.flag r.fmt (low4 r.d) (low4 r.a) (low4 r.b))
  | 0x14 => some (.vcmp r.hdr r.wf (VCond.ofCode r.fmt (r.xf 0 4)) r.fmt (low4 r.d) (low4 r.a) (low4 r.b))
  | 0x15 => some (.vsel r.hdr r.wf r.fmt (low4 r.d) (low4 r.c) (low4 r.a) (low4 r.b))
  | 0x16 => some (.vred r.hdr r.wf (RedOp.ofCode (r.xf 0 3)) r.fmt r.rnd r.d (low4 r.a))
  | 0x17 => some (.vdot r.hdr r.wf r.fmt r.cfmt r.rnd (low4 r.d) (low4 r.a) (low4 r.b))
  | 0x18 => some (.vperm r.hdr r.wf r.fmt (low4 r.d) (low4 r.a) (low4 r.b) (low4 r.c))
  | 0x19 => some (.vbcast r.hdr r.wf r.fmt (low4 r.d) r.a)
  | 0x1A => some (.vcvt r.hdr r.wf r.fmt r.cfmt r.rnd (low4 r.d) (low4 r.a) (r.xf 0 3)
      (if r.rnd == .rs then some { gt := r.b, gr := r.xf 3 5, key := r.xf 8 4 } else none))
  | 0x1B => some (.vmovg r.hdr r.wf r.fmt r.d (low4 r.a) (r.immf 0 8))
  | 0x1C => some (.vins r.hdr r.wf r.fmt (low4 r.d) r.a (r.immf 0 8))
  | 0x1D => some (.vchain r.hdr r.fmt r.cfmt r.rnd (Ptr.ofCode r.d 0) (Ptr.ofCode r.a 0) (Ptr.ofCode r.b 0) (r.xf 0 5)
      (r.xf 5 5) (r.xf 10 5) (chainOfBytes 8 r.ext.toNat))
  | 0x1E => some (.vclamp r.hdr r.wf r.flag r.fmt (low4 r.d) (low4 r.a) (low4 r.b) (low4 r.c))
  | _ => none

/-- Opcodes 0xC0–0xDF: matrix, sampler and copy engine (R256, R294, R309). -/
def candEng (n : Nat) (r : Raw) : Option Instr :=
  match n with
  | 0x00 => some (.mwl r.hdr r.fmt (Ptr.ofCode r.a 0) (r.ef 0 7) (r.ef 8 7))
  | 0x01 => some (.mswap r.hdr)
  | 0x02 => some (.mmul r.hdr r.fmt r.flag (Ptr.ofCode r.a 0))
  | 0x03 => some (.mpass r.hdr r.fmt r.cfmt r.flag (Ptr.ofCode r.a 0) r.b (r.xf 0 5) (r.ef 0 8) (r.ef 8 32))
  | 0x04 => some (.mweave r.hdr r.fmt r.flag (low3 r.a) (low3 r.b) (r.xf 0 5))
  | 0x05 => some (.macz r.hdr)
  | 0x06 => some (.macld r.hdr (Ptr.ofCode r.a 0) (r.xf 0 5) (r.xf 5 5))
  | 0x07 => some (.macst r.hdr r.fmt r.rnd (Ptr.ofCode r.d 0) (r.xf 0 5) (r.xf 5 5)
      (if r.rnd == .rs then some { gt := r.b, gr := r.c, key := r.xf 10 4 } else none))
  | 0x08 => some (if r.flag then .macmvTo r.hdr (r.xf 0 5) (r.xf 5 4) (low4 r.a)
      else .macmv r.hdr (low4 r.d) (r.xf 0 5) (r.xf 5 4))
  | 0x09 => some (.mskew r.hdr r.fmt (low3 r.a) (low3 r.b))
  | 0x0A => some (.macrd r.hdr r.d (r.xf 0 5) (r.xf 5 7))
  | 0x0B => some (.mwlv r.hdr r.fmt r.a (r.ef 0 7) (r.ef 8 7))
  | 0x10 => some (.scouple r.hdr r.a r.b (r.xf 0 4))
  | 0x11 => some (.sbias r.hdr r.a r.b)
  | 0x12 => some (if r.flag then .sclampOff r.hdr r.a else .sclamp r.hdr r.a (r.xf 0 1 == 1#1))
  | 0x13 => some (.scolour r.hdr r.a (r.immf 0 3))
  | 0x14 => some (.sweep r.hdr r.a (r.xf 0 5) (r.ef 0 8) (r.ef 8 3) (r.ef 12 4))
  | 0x15 => some (.sread r.hdr r.d r.a)
  | 0x16 => some (.swrite r.hdr r.a r.b)
  | 0x17 => some (.skey r.hdr (r.xf 0 4) r.a r.b)
  | 0x18 => some (.cpys r.hdr (Ptr.ofCode r.d 0) r.a r.b r.c (r.xf 0 5) r.pw)
  | 0x19 => some (.cpyc r.hdr (CpyOp.ofCode (r.ef 0 3)) (Fmt.ofCode (r.ef 3 4)) (Rnd.ofCode (r.ef 7 3))
      (Ptr.ofCode r.d 0) r.a r.b r.c (r.xf 0 5) r.pw)
  | 0x1A => some (.cpyg r.hdr (Ptr.ofCode r.d 0) r.a r.b r.c (r.xf 0 5) r.pw (r.ef 0 32) (r.ef 32 16))
  | 0x1B => some (.cpyf r.hdr (Ptr.ofCode r.d 0) r.a r.b r.c (r.xf 0 5) r.pw)
  | _ => none

/-- Opcodes 0xE0–0xFF: system, trap and privileged (R127, R174, R183, R197, R354). -/
def candSys (n : Nat) (r : Raw) : Option Instr :=
  match n with
  | 0x00 => some (.srd r.hdr r.d (r.immf 0 12))
  | 0x01 => some (.swr r.hdr (r.immf 0 12) r.a)
  | 0x02 => some (.trap r.hdr r.imm)
  | 0x03 => some (.brk r.hdr r.imm)
  | 0x04 => some (.ovld r.hdr r.a)
  | 0x05 => some (.genset r.hdr (r.ef 0 4) r.a)
  | 0x06 => some (.gensync r.hdr)
  | 0x07 => some (.harvest r.hdr)
  | 0x08 => some (if r.modeIs 1 then .tretNext r.hdr else if r.modeIs 2 then .tretKill r.hdr
      else if r.modeIs 3 then .tretEnd r.hdr else .tret r.hdr)
  | 0x09 => some (.keyset r.hdr (r.ef 0 4) r.a r.b)
  | 0x0A => some (if r.flag then .tlbinvAll r.hdr else .tlbinv r.hdr r.a)
  | _ => none

/-- The instruction that the fields of an assigned opcode name (R116). -/
def candidate (r : Raw) : Option Instr :=
  let n := r.op.toNat % 32
  match r.op.toNat / 32 with
  | 0 => candInt n r
  | 1 => candCtl n r
  | 2 => candMem n r
  | 3 => candTask n r
  | 4 => candFlt n r
  | 5 => candVec n r
  | 6 => candEng n r
  | _ => candSys n r

/-- Why bytes are not an instruction: orders 4, 6 and 7 of R119, or too few bytes. -/
inductive DecodeError where
  /-- `LEN` is `0b00` -/
  | lenZero
  /-- the bytes end before the instruction -/
  | truncated
  /-- an unassigned opcode -/
  | unassigned
  /-- a length that the opcode does not permit, or a reserved field or code -/
  | reserved
  deriving DecidableEq, Repr

/-- The instruction of a word, if it is one (R117, R118). -/
def decodeRaw (r : Raw) : Except DecodeError Instr :=
  match candidate r with
  | none => .error .unassigned
  | some i => if encodeRaw i == some r && i.wf then .ok i else .error .reserved

/-! Words and bytes: bit 0 is the least significant bit of the first byte (R4, R5, R108, R109). -/

def Raw.bits (r : Raw) : BitVec 128 :=
  r.ext ++ r.imm ++ r.m ++ r.b ++ r.a ++ r.d ++ r.gn ++ r.gp ++ r.op ++ r.stall ++ r.len

def Raw.ofBits (w : BitVec 128) : Raw :=
  { len := w.extractLsb' 0 2, stall := w.extractLsb' 2 3, op := w.extractLsb' 5 8, gp := w.extractLsb' 13 3,
    gn := w.extractLsb' 16 1, d := w.extractLsb' 17 5, a := w.extractLsb' 22 5, b := w.extractLsb' 27 5,
    m := w.extractLsb' 32 8, imm := w.extractLsb' 40 24, ext := w.extractLsb' 64 64 }

/-- The length in bytes that `LEN` gives (R105); 0 for `0b00`. -/
def lenBytes (len : BitVec 2) : Nat :=
  match len.toNat with
  | 0 => 0
  | 1 => 8
  | 2 => 12
  | _ => 16

/-- A little-endian number. -/
def leNat : List Byte → Nat
  | [] => 0
  | b :: bs => b.toNat + 256 * leNat bs

/-- The bytes of a number, least significant first. -/
def leBytes : Nat → Nat → List Byte
  | 0, _ => []
  | n + 1, v => BitVec.ofNat 8 v :: leBytes n (v / 256)

/-- The instruction at the start of a list of bytes, and its length in bytes. -/
def decode (bs : List Byte) : Except DecodeError (Instr × Nat) :=
  match bs with
  | [] => .error .truncated
  | b :: _ =>
    let n := lenBytes (b.extractLsb' 0 2)
    if n = 0 then .error .lenZero
    else if bs.length < n then .error .truncated
    else
      match decodeRaw (Raw.ofBits (BitVec.ofNat 128 (leNat (bs.take n)))) with
      | .error e => .error e
      | .ok i => .ok (i, n)

/-- The bytes of an encoded instruction. -/
def encode (i : Instr) : Option (List Byte) :=
  (encodeRaw i).map (fun r => leBytes (lenBytes r.len) r.bits.toNat)

/-- The length of an encoded instruction in bytes. -/
def Instr.size (i : Instr) : Nat :=
  match encodeRaw i with
  | some r => lenBytes r.len
  | none => 0

/-- The instruction that the decoder reads from `nbits` bits `w`, the bits above them zero. -/
def decodeTableWord (nbits w : Nat) : Option Instr :=
  match decode (leBytes 16 (w % 2 ^ nbits)) with
  | .ok p => some p.1
  | .error _ => none

end Sys2Proof
end

