-- ==== Sys2Proof/Machine/Map.lean ====
section
/-!
DEFINITION. Sparse maps from numbers to values in ONE canonical form: keys strictly rising, and no entry whose value is
the default that an unlisted key reads as. Memories are such maps with bytes as values (`List Host.Cell`).
-/

namespace Sys2Proof.Machine

/-- Keys and values; see `mapWf`. -/
abbrev FMap (α : Type) := List (Nat × α)

/-- The value of a key, `d` if it is not listed. -/
def fget {α : Type} (d : α) (m : FMap α) (k : Nat) : α :=
  match m with
  | [] => d
  | e :: es => if e.1 = k then e.2 else fget d es k

/-- A map without an entry for `k`. -/
def fdel {α : Type} (m : FMap α) (k : Nat) : FMap α :=
  match m with
  | [] => []
  | e :: es => if e.1 = k then fdel es k else e :: fdel es k

/-- Puts an entry before the first greater key. -/
def fins {α : Type} (m : FMap α) (k : Nat) (v : α) : FMap α :=
  match m with
  | [] => [(k, v)]
  | e :: es => if k < e.1 then (k, v) :: e :: es else e :: fins es k v

/-- The map with `v` at `k`; writing the default removes the entry. -/
def fset {α : Type} [DecidableEq α] (d : α) (m : FMap α) (k : Nat) (v : α) : FMap α :=
  if v = d then fdel m k else fins (fdel m k) k v

/-- Keys above `lo` and strictly rising, and no default entry. -/
def mapWfFrom {α : Type} [DecidableEq α] (d : α) (lo : Nat) (m : FMap α) : Bool :=
  match m with
  | [] => true
  | e :: es => decide (lo ≤ e.1) && decide (e.2 ≠ d) && mapWfFrom d (e.1 + 1) es

/-- The canonical form. -/
def mapWf {α : Type} [DecidableEq α] (d : α) (m : FMap α) : Bool := mapWfFrom d 0 m

/-- Writes consecutive keys. -/
def fsetAll {α : Type} [DecidableEq α] (d : α) (m : FMap α) (k : Nat) (vs : List α) : FMap α :=
  match vs with
  | [] => m
  | v :: vs => fsetAll d (fset d m k v) (k + 1) vs

/-- The same values in the canonical form; of two entries of one key the first counts. -/
def ftrim {α : Type} [DecidableEq α] (d : α) (m : FMap α) : FMap α :=
  match m with
  | [] => []
  | e :: es => fset d (ftrim d es) e.1 e.2

/-- Reads `n` consecutive keys. -/
def fgetAll {α : Type} (d : α) (m : FMap α) (k : Nat) (n : Nat) : List α :=
  match n with
  | 0 => []
  | n + 1 => fget d m k :: fgetAll d m (k + 1) n

end Sys2Proof.Machine
end

