-- ==== Sys2Proof/Machine/State.lean ====
section
/-!
DEFINITION. The state of one TN9 package (log 1), as plain data, and the state after reset. Registers that the host reads
stand here under the spec's names in lower case. Log n = notes/assumptions/n.md.

Units are numbered as R65 numbers sources: a core is 136 × die + 4 × physical cluster + position, a cluster (its vault and
its dispatcher) 34 × die + physical cluster.
-/

namespace Sys2Proof.Machine

/-! ## Tasks, views and bundles -/

/-- A register of a frame, or of its lane (`v`) or core (`w`). -/
inductive Reg where
  | g (n : GReg) | p (n : PReg) | a (n : AReg) | v (n : VReg) | w (n : VReg)
  deriving DecidableEq, Repr

/-- A pending-write record (R132): the value becomes visible when `due` own cycles have passed. -/
structure Pend where
  reg : Reg
  val : BitVec 256
  due : Nat
  deriving DecidableEq, Repr

/-- An entry of a view (R215). -/
structure VEntry where
  writer : Writer
  inc : Option CSeq
  exc : Option CSeq
  deriving DecidableEq, Repr

/-- A view: its entries in the order of their first use (R217). -/
abbrev View := List VEntry

/-- The reply an `RLD` waits for, and where it goes (R296, R335). -/
structure Remote where
  dst : GReg
  size : Size
  sx : Bool
  addr : Word
  peer : BitVec 5
  deriving DecidableEq, Repr

/-- A continuation record (R296). `bundles` and `samp` name the bundles that the task has closed and its sampler commands, which its
fences and its later effects still wait for (R220, R281, R314). -/
structure Cont where
  pc : Word
  live : FMap Word
  p : BitVec 8
  schk : Bool
  spawnK : Nat
  horizon : Bool
  geom : Word
  bundles : List Nat
  samp : List Nat
  deriving DecidableEq, Repr

/-- What starts or resumes a task (R31, R37, R170, R218, R296): a release, then a ready task, then a frame. `vto` is the
count of view-too-old aborts; `core` is the core a tile or a resumed task is bound to. -/
structure Task where
  ctx : Nat
  tmpl : Nat
  id : Word
  args : FMap Word
  set : IncSet
  geom : Word
  core : Option Nat
  vto : Nat
  cont : Option Cont
  deriving DecidableEq, Repr

/-- A start named at issue (R276, R277, R289): the template, the arguments, and one `TASKID` per task it starts, in
increasing tile number; `tile` holds the core and the `GEOM` of the single tile that R267 starts. -/
structure Start where
  tmpl : Nat
  ids : List Word
  args : FMap Word
  tile : Option (Nat × Word)
  deriving DecidableEq, Repr

/-- A peer as a peer-table entry named it at issue (R332). -/
structure PeerRef where
  idx : BitVec 5
  pkg : BitVec 5
  ctx : BitVec 6
  eth : Bool
  bind : Word
  deriving DecidableEq, Repr

/-- A held effect (R274, R336). `cmd` names the engine command whose successor it is. -/
inductive Effect where
  | start (st : Start) (cmd : Option Nat)
  | arrive (core : Nat) (addr : Nat) (phase n : Nat)
  | push (core q : Nat) (v : Word)
  | arm (watch : Nat)
  | remote (peer : PeerRef) (tmpl : BitVec 12) (arg id : Word)
  deriving DecidableEq, Repr

/-- Where a bundle line goes: a home of this package (its line key), or a peer. -/
inductive Dest where
  | home (key : Nat)
  | peer (p : PeerRef)
  deriving DecidableEq, Repr

/-- The contribution that a `FOLD` or `RFOLD` line is part of (R223): the object's address and key, contribution `k`,
line `l` of `lines`. -/
structure FoldPart where
  obj : Word
  key : Nat
  k : Word
  l : Nat
  lines : Nat
  deriving DecidableEq, Repr

/-- How far a line of a closed bundle is on the way of R213. -/
inductive Prog where
  | flight | arrived | acked | settling | settled | settleAcked | quieting | quiet
  deriving DecidableEq, Repr

/-- A line of a bundle: the bytes written, keyed by offset; `std` is the `FMT` and `SCALE` of the last `STD`; `image` is what a
paired context digests of it, as its arrival left the line (R359). -/
structure BLine where
  dest : Dest
  addr : Word
  bytes : FMap (Option Byte)
  std : Option (BitVec 4 × Byte)
  fold : Option FoldPart
  page : Option Nat
  prog : Prog
  image : List Byte
  deriving DecidableEq, Repr

/-- The open bundle of a frame (R211) with its held effects. -/
structure Bundle where
  lines : List BLine
  effects : List Effect
  deriving DecidableEq, Repr

def Bundle.empty : Bundle := { lines := [], effects := [] }

/-- A closed bundle that is not yet quiet, or whose effects have not all left (R212–R214, R219, R274). `samp` are the
sampler commands that hold its effects (R314); `fclose` and `copy` name the request or the command that waits for it; `atHome`: an atomic, which goes to
its home as a request and is settled there at once (R225); `settleAt` and `quietAt` are the package's next name when its settles and its
quiet notices were sent (R323). -/
structure Closed where
  uid : Nat
  seq : CSeq
  ctx : Nat
  scope : Scope
  lines : List BLine
  effects : List Effect
  set : IncSet
  id : Word
  prio : Nat
  samp : List Nat
  fclose : Option Nat
  copy : Option Nat
  declared : Bool
  atHome : Bool
  settleAt : Nat
  quietAt : Nat
  deriving DecidableEq, Repr

/-- Where the window of a frame is (R125). -/
inductive Window where
  | resident
  | carve (off : Nat)
  | main (pa : Word)
  deriving DecidableEq, Repr

/-- A frame of the task stack (R120–R124, R129, R285, R353). `arrived`: it has come to its program counter and no
comparator has been asked yet; `brkHalted`: the core has halted at the `BRK` it stands at (R365). `acq` counts its synchronising
acquires and `FENCE.fresh`; `long` is `LANEMAP.LONG`, `owner` whether the frame owns the long registers (R229); `halting`: its `HALT` has closed its
bundle (R279); `past` holds the views of earlier counts, which requests issued before still carry (R216). -/
structure Frame where
  uid : Nat
  task : Task
  prio : Nat
  lane : Nat
  lim : Nat
  pc : Word
  g : FMap Word
  a : FMap (BitVec 32)
  p : BitVec 8
  stall : Nat
  pend : List Pend
  await : List Reg
  claims : List (BitVec 6)
  pb : FMap Nat
  need : FMap Nat
  schk : Bool
  geom : Word
  priv : Bool
  tcause : Word
  tpc : Word
  tval : Word
  tinsn0 : Word
  tinsn1 : Word
  tsave : FMap Word
  view : View
  acq : Nat
  past : FMap View
  asked : List Writer
  bundle : Bundle
  spawnK : Nat
  horizon : Bool
  long : Bool
  owner : Bool
  halting : Bool
  deferred : Bool
  settleWait : Option Scope
  bundles : List Nat
  samp : List Nat
  seen : List Nat
  window : Window
  arrived : Bool
  brkHalted : Bool
  deriving DecidableEq, Repr

/-! ## Lane state and engine commands -/

/-- A column of a weight slot: 128 expanded weights, four group multipliers `m × 2^e`, the non-finite flag (R248, R253). -/
structure WCol where
  q : List Int
  mult : List (Nat × Int)
  bad : Bool
  deriving DecidableEq, Repr

def WCol.zero : WCol := { q := [], mult := [], bad := false }

/-- A line that an engine command or a load reads: a home line, or bytes of a generator window computed at issue. -/
inductive Src where
  | line (key : Nat)
  | data (bytes : List Byte)
  deriving DecidableEq, Repr

/-- Who issued an engine command, and what it read at issue beside its operands (R198, R200, R257, R277). -/
structure Cmd where
  id : Nat
  frame : Nat
  task : Task
  prio : Nat
  ovf : Word
  view : View
  set : IncSet
  pages : List Nat
  deriving DecidableEq, Repr

/-- The operands of stochastic rounding, read at issue (R193). -/
structure Stoch where
  key : BitVec 128
  tensor : BitVec 32
  wcount : BitVec 32
  row : BitVec 32
  col : BitVec 32
  deriving DecidableEq, Repr

/-- What a weave command still has to do (R265, R266), and the exceptions of its step. Partners are cores. -/
structure Weave where
  grid : Nat
  count : Nat
  buf : Nat
  tileTo : Nat
  slotTo : Nat
  tileFrom : Nat
  slotFrom : Nat
  started : Bool
  tileSent : Bool
  slotSent : Bool
  tileGot : Bool
  slotGot : Bool
  exc : BitVec 5
  deriving DecidableEq, Repr

/-- Matrix commands and the two register reads that the matrix queue orders (R257–R266). Addresses are scratchpad
addresses. -/
inductive MatOp where
  | mwl (wf : Fmt) (addr c0 cnt : Nat)
  | mwlv (wf : Fmt) (img : List Src) (c0 cnt : Nat)
  | swap
  | mul (af : Fmt) (z : Bool) (addr : Nat)
  | pass (af wf : Fmt) (z : Bool) (addr : Nat) (imgs : List (List Src))
  | weave (af : Fmt) (z : Option Bool) (addr : Nat) (w : Weave)
  | zero
  | load (addr row rows : Nat)
  | store (f : Fmt) (r : Rnd) (addr row rows : Nat) (st : Option Stoch)
  | mv (frame : Nat) (d : VReg) (row seg : Nat)
  | mvTo (row seg : Nat) (reg : VReg) (v : BitVec 256)
  | rd (frame : Nat) (d : GReg) (row col : Nat)
  deriving DecidableEq, Repr

structure MatCmd where
  cmd : Cmd
  op : MatOp
  deriving DecidableEq, Repr

/-- A queued chain (R243, R244). -/
structure ChainCmd where
  cmd : Cmd
  dst : Fmt
  src : Fmt
  rnd : Rnd
  pd : Nat
  ps0 : Nat
  ps1 : Nat
  n : Nat
  c0 : BitVec 32
  c1 : BitVec 32
  ops : List (ChainOp × ChainSrc)
  deriving DecidableEq, Repr

/-- An engine lane (R16, R248). `acc` holds the rows, element n in bits [32n + 31 : 32n]. -/
structure Lane where
  v : FMap (BitVec 256)
  acc : FMap (BitVec 4096)
  act : FMap WCol
  inc : FMap WCol
  mq : List MatCmd
  cq : List ChainCmd
  deriving DecidableEq, Repr

def Lane.reset : Lane := { v := [], acc := [], act := [], inc := [], mq := [], cq := [] }

/-- Copy commands (R294, R295). -/
inductive CpyKind where
  | s | c (op : CpyOp) (f : Fmt) (r : Rnd) | g | f
  deriving DecidableEq, Repr

structure CpyCmd where
  cmd : Cmd
  kind : CpyKind
  pad : Nat
  n : Nat
  lines : List Src
  addrs : List (Word × Option Nat)
  word : Option (Nat × Word)
  sent : Bool
  deriving DecidableEq, Repr

/-- Sampler commands and `SREAD` (R310–R313). -/
inductive SampOp where
  | couple (c slot nbr : Nat) (wt : BitVec 8)
  | bias (c : Nat) (v : BitVec 12)
  | clamp (c : Nat) (v : Bool)
  | clampOff (c : Nat)
  | colour (c : Nat) (col : BitVec 3)
  | sweep (first cnt sweeps ncol b : Nat) (keys : FMap (BitVec 128))
  | read (frame : Nat) (d : GReg) (c : Nat)
  | write (c : Nat) (v : Word)
  | key (n : BitVec 4) (seed : Word) (snum : BitVec 32)
  deriving DecidableEq, Repr

structure SampCmd where
  cmd : Cmd
  op : SampOp
  deriving DecidableEq, Repr

/-- A long-mode instruction in flight (R232): its name, its task's priority, its register result, its exceptions and the registers
it locks. -/
structure LongOp where
  id : Nat
  frame : Nat
  prio : Nat
  gdst : Option (GReg × Word)
  wdst : Option (VReg × BitVec 2048)
  exc : BitVec 5
  lock : List VReg
  deriving DecidableEq, Repr

/-! ## Core units -/

structure QElem where
  val : Word
  set : IncSet
  deriving DecidableEq, Repr

/-- A queue register (R291): `m` counts the tasks its releases have started. -/
structure Queue where
  elems : List QElem
  n : Nat
  t : Nat
  r : Nat
  m : Nat
  deriving DecidableEq, Repr

def Queue.empty : Queue := { elems := [], n := 0, t := 0, r := 0, m := 0 }

/-- A push that waits at a core's queue input (R292); `src` is the core that sent it. -/
structure Push where
  src : Nat
  ctx : Nat
  q : Nat
  val : Word
  set : IncSet
  deriving DecidableEq, Repr

/-- An arrival that waits at a core's barrier unit (R288); `src` is the core that sent it. -/
structure Arrival where
  src : Nat
  ctx : Nat
  addr : Nat
  phase : Nat
  n : Nat
  set : IncSet
  id : Word
  deriving DecidableEq, Repr

/-- The two merge sets of a barrier object (R288). -/
structure Merge where
  cur : IncSet
  next : IncSet
  deriving DecidableEq, Repr

/-- A watch (R289). -/
structure Watch where
  id : Nat
  addr : Nat
  size : Nat
  val : Word
  start : Start
  set : IncSet
  armed : Bool
  deriving DecidableEq, Repr

/-- A kept grant, of the frame that kept it (R280). -/
structure Kept where
  frame : Nat
  tmpl : Nat
  pb : FMap Nat
  need : FMap Nat
  deriving DecidableEq, Repr

/-- A grant that engines still hold after its frame left (R245, R279). -/
structure Grant where
  frame : Nat
  pb : FMap Nat
  need : FMap Nat
  deriving DecidableEq, Repr

/-- Atomic operations at a home (R225). -/
inductive AtomOp where
  | xchg (v : Word)
  | cas (cmp v : Word)
  | add (v : Word)
  deriving DecidableEq, Repr

/-- The bytes and the description that the open bundle lays over a line at a load's issue (R208). -/
structure Overlay where
  bytes : FMap (Option Byte)
  std : Option (BitVec 4 × Byte)
  deriving DecidableEq, Repr

/-- What an outstanding request does when its reply arrives (R134, R208, R209, R222, R224, R225, R235, R338). An atomic names its commit
sequence number. -/
inductive ReqKind where
  | load (src : Src) (laid : Overlay) (off n : Nat) (sx : Bool)
  | ldtag (src : Src) (laid : Overlay)
  | ldv (src : Src) (laid : Overlay) (pad : Nat) (set : IncSet)
  | vld (srcs : List (Src × Overlay)) (off n : Nat)
  | atom (key off n : Nat) (op : AtomOp) (addr : Word) (page : Option Nat) (seq : CSeq)
  | fopen (home : Nat) (keys : List Nat) (pages : List (Option Nat)) (stage : List Nat) (stagePages : List (Option Nat)) (stageAddr : Word) (n : Nat) (op : FoldOp) (f : Fmt) (r : Rnd) (ident : Bool)
  | fclose (i : Instr) (key : Nat) (addr : Word) (set : IncSet)
  | remote (peer : PeerRef) (addr : Word) (seq : CSeq) (cas : Bool)
  | done (v : Word)
  deriving DecidableEq, Repr

/-- An outstanding request of a core; `inside` marks a wait inside the instruction (R348); `acq` names the view that it carries
(R216). -/
structure Req where
  id : Nat
  frame : Nat
  acq : Nat
  ctx : Nat
  taskId : Word
  prio : Nat
  dst : Option Reg
  inside : Bool
  kind : ReqKind
  deriving DecidableEq, Repr

/-- A forwarding entry of the core that sends a continuation record (R296). `bundles` name the bundles that the task has closed. -/
structure Fwd where
  id : Nat
  task : Task
  cont : Cont
  remote : Remote
  peer : PeerRef
  bundles : List Nat
  sent : Bool
  reply : Option Word
  deriving DecidableEq, Repr

/-- An operation of the divider or of the `FDIV`/`FSQRT` unit (R142, R151). -/
structure UnitOp where
  frame : Nat
  dst : GReg
  val : Word
  exc : BitVec 5
  deriving DecidableEq, Repr

/-- A TLB entry (R168, R169): the page, its frame, whether stores are permitted, the dirty state, the leaf's address. -/
structure Tlb where
  ctx : Nat
  page : Nat
  frame : Nat
  wr : Bool
  dirty : Bool
  leaf : Nat
  deriving DecidableEq, Repr

/-- The debug block of a core (R364, R365). `dba` and `dbc` are the words at +0x020 + 16n and +0x028 + 16n; `stepping`: a
step command is in effect, `issued`: an instruction has issued since, or a task has been admitted. -/
structure Debug where
  halted : Bool
  reason : BitVec 3
  draining : Bool
  refused : Bool
  brken : Bool
  dba : FMap Word
  dbc : FMap Word
  sel : Word
  haltReq : Bool
  stepping : Bool
  issued : Bool
  deriving DecidableEq, Repr

def Debug.reset : Debug :=
  { halted := false, reason := 0, draining := false, refused := false, brken := false, dba := [], dbc := [], sel := 0,
    haltReq := false, stepping := false, issued := false }

/-- A crossing of an exception threshold (R202): the class, `CNT`, `THR` and `POS` as they stood, and the instruction
whose events crossed it, for `TINSN` (0 for an engine command). -/
structure Crossing where
  cls : Nat
  cnt : BitVec 32
  thr : BitVec 32
  pos : BitVec 32
  t0 : Word
  t1 : Word
  deriving DecidableEq, Repr

/-- A core (R15, R16, R129, R200–R202). `crossed` are crossings that have not acted yet, `trapDue` those whose trap is due
at the next boundary. `passed` says that the boundary before the next instruction has been taken. -/
structure Core where
  ctx : Option Nat
  coreid : Word
  frames : List Frame
  lanes : FMap Lane
  w : FMap (BitVec 2048)
  long : List LongOp
  queues : FMap Queue
  arrivals : List Arrival
  pushes : List Push
  watches : List Watch
  guards : FMap IncSet
  merges : FMap Merge
  pad : List Host.Cell
  kept : Option Kept
  grants : List Grant
  cseq : CSeq
  quietUpTo : CSeq
  known : FMap (Option CSeq)
  closed : List Closed
  reqs : List Req
  div : Option UnitOp
  fdiv : Option UnitOp
  copyq : List CpyCmd
  sampq : List SampCmd
  fwd : List Fwd
  weaves : FMap Nat
  tlb : List Tlb
  carve : Nat
  ovfl : Word
  eswin : BitVec 32
  espos : BitVec 32
  esthr : FMap (BitVec 35)
  escnt : FMap (BitVec 32)
  crossed : List Crossing
  trapDue : List Crossing
  offer : Option Task
  passed : Bool
  dbg : Debug
  deriving DecidableEq, Repr

/-- A core that belongs to no context, as after reset (R129, R201, R212, R364). -/
def Core.reset : Core :=
  { ctx := none, coreid := 0, frames := [], lanes := [], w := [], long := [], queues := [], arrivals := [], pushes := [],
    watches := [], guards := [], merges := [], pad := [], kept := none, grants := [], cseq := 0, quietUpTo := 0,
    known := [], closed := [], reqs := [], div := none, fdiv := none, copyq := [], sampq := [], fwd := [], weaves := [],
    tlb := [], carve := 0, ovfl := 0, eswin := 0, espos := 0, esthr := [], escnt := [], crossed := [], trapDue := [], offer := none,
    passed := false, dbg := Debug.reset }

/-! ## Memory -/

inductive VState where
  | pending | settled | quiet
  deriving DecidableEq, Repr

/-- The tag and the state of a version (R164, R213). -/
structure Tag where
  writer : Writer
  cseq : CSeq
  scale : Byte
  desc : Bool
  fmt : BitVec 4
  st : VState
  deriving DecidableEq, Repr

/-- The tag of a line that was zeroed or never written. -/
def Tag.zero : Tag := { writer := 0, cseq := 0, scale := 0, desc := false, fmt := 0, st := .quiet }

structure LineTags where
  newer : Tag
  older : Tag
  deriving DecidableEq, Repr

def LineTags.zero : LineTags := { newer := Tag.zero, older := Tag.zero }

/-- A fold object at its home (R222): the keys and the pages of its target and staging lines; `present` holds,
for line `l` of contribution `k` at `k` × lines + `l`, the version that its arrival has made. -/
structure FoldObj where
  ctx : Nat
  home : Nat
  keys : List Nat
  pages : List (Option Nat)
  stage : List Nat
  stagePages : List (Option Nat)
  stageAddr : Word
  n : Nat
  op : FoldOp
  f : Fmt
  r : Rnd
  ident : Bool
  present : FMap (Option (Writer × CSeq))
  broken : Bool
  closing : Bool
  deriving DecidableEq, Repr

/-- A version that a home keeps aside: in its overflow pool for the frame of a protected task (R218), or a confirmed version
while a further write of its paired context is pending (R360; `frame` is 0). -/
structure Kept218 where
  frame : Nat
  key : Nat
  data : List Byte
  tag : Tag
  deriving DecidableEq, Repr

/-- A cached atomic reply of a home (R338). `src` is the source fibre direction, or 256 + the source package reached through the
scale-out unit. -/
structure Cached where
  home : Nat
  src : Nat
  ctx : Nat
  tag : BitVec 16
  old : Word
  wrote : Bool
  deriving DecidableEq, Repr

/-- The vaults and main memory. A byte's number is 64 × line key + offset. A line key is PA[39:6] for main memory and
2^34 + 2^19 × cluster + line for a vault. `newer` and `older` are the data of the two versions, `tags` their tags and
states. `unconf` marks the lines whose newer version is an unconfirmed one of a paired context (its number + 1). `confirmed` are
versions that wait while a further write of that context is pending. `hostOld` holds, for each line, what it and the next line held before
each host write to one of them, and the contexts that were live then (R27). -/
structure Memory where
  newer : List Host.Cell
  older : List Host.Cell
  tags : FMap LineTags
  unconf : FMap Nat
  bad : FMap Bool
  folds : List FoldObj
  pool : List Kept218
  confirmed : List Kept218
  cache : List Cached
  hostOld : FMap (List (List Byte × List Nat))
  deriving DecidableEq, Repr

def Memory.reset : Memory :=
  { newer := [], older := [], tags := [], unconf := [], bad := [], folds := [], pool := [], confirmed := [], cache := [], hostOld := [] }

/-! ## Contexts -/

/-- A task template (R30). `regs` is the number of general registers. -/
structure Template where
  entry : Nat
  prio : Nat
  role : Nat
  place : Nat
  argFirst : Nat
  argCount : Nat
  regs : Nat
  placeVal : Nat
  groups : List Nat
  need : FMap Nat
  deriving DecidableEq, Repr

def Template.blank : Template :=
  { entry := 0, prio := 0, role := 0, place := 1, argFirst := 0, argCount := 0, regs := 32, placeVal := 0, groups := [],
    need := [] }

/-- A group-table entry (R33). -/
structure Group where
  kind : Nat
  rows : Nat
  cols : Nat
  vdFirst : Nat
  vdLast : Nat
  clFirst : Nat
  clLast : Nat
  cmask : Nat
  deriving DecidableEq, Repr

def Group.none : Group :=
  { kind := 0, rows := 0, cols := 0, vdFirst := 0, vdLast := 0, clFirst := 0, clLast := 0, cmask := 0 }

/-- A guard (R43). -/
structure Guard where
  ceil : Nat
  kind : Nat
  bank : Nat
  off : Nat
  len : Nat
  deriving DecidableEq, Repr

def Guard.unused : Guard := { ceil := 0, kind := 0, bank := 0, off := 0, len := 0 }

/-- An entry of the virtual-die table (R70). -/
structure VDie where
  valid : Bool
  pdie : Nat
  clmask : Nat
  deriving DecidableEq, Repr

def VDie.none : VDie := { valid := false, pdie := 0, clmask := 0 }

/-- A generator window (R175); `npages` 0 is an absent one, `valid` false an invalid one. -/
structure GenWin where
  base : Nat
  npages : Nat
  func : Nat
  efmt : Nat
  key : Nat
  cols : Nat
  p0 : Word
  p1 : Word
  freq : List (BitVec 32)
  valid : Bool
  deriving DecidableEq, Repr

def GenWin.absent : GenWin :=
  { base := 0, npages := 0, func := 0, efmt := 0, key := 0, cols := 0, p0 := 0, p1 := 0, freq := [], valid := true }

/-- An open fault record (R171). -/
structure FRec where
  block : Nat
  pages : BitVec 64
  deriving DecidableEq, Repr

/-- A task that waits for a fault record, or for a free one (R172), and its dispatcher's cluster. -/
structure Waiter where
  task : Task
  cluster : Nat
  record : Option Nat
  page : Nat
  deriving DecidableEq, Repr

/-- Pair block and epoch state (R358–R361). `next` holds the releases of the digest points that the context has reached since its last
seal, each with the core that sends it. -/
structure Pair where
  pen : Bool
  ppeer : BitVec 5
  diglim : BitVec 32
  pstate : BitVec 2
  trans : BitVec 8
  epoch : BitVec 32
  ldigest : BitVec 256
  acc : BitVec 256
  replay : Bool
  anchor : List (Start × IncSet)
  next : Option (List (Nat × Start × IncSet))
  launches : Nat
  sealed : Bool
  partner : Option (BitVec 32 × BitVec 256)
  deriving DecidableEq, Repr

def Pair.reset : Pair :=
  { pen := false, ppeer := 0, diglim := 0x10000000, pstate := 0, trans := 0, epoch := 0, ldigest := 0, acc := 0,
    replay := false, anchor := [], next := none, launches := 0, sealed := false, partner := none }

/-- The creation in progress (R60): the queue, the header and the completion address. -/
structure Creation where
  q : Nat
  header : Word
  done : Word
  deriving DecidableEq, Repr

/-- A context number (R25, R26, R62, R171, R332). `state` is 0 free, 1 creating, 2 live, 3 ended. -/
structure Ctx where
  state : BitVec 2
  cause : BitVec 8
  ord : BitVec 32
  codebase : Word
  codelen : Nat
  bandmap : BitVec 32
  trapentry : Nat
  ptroot : Word
  heapbase : Word
  heaplimit : Word
  heapoff : Word
  ovflbase : Word
  stat : FMap Nat
  spillkb : Nat
  templates : List Template
  groups : FMap Group
  guards : FMap Guard
  vdies : FMap VDie
  cores : List Nat
  coreids : List Word
  vdmask : BitVec 8
  windows : FMap GenWin
  staged : List (Nat × GenWin)
  keys : FMap (BitVec 128)
  stagedKeys : List (Nat × BitVec 128)
  ovf : Word
  dispcfg : Word
  frec : FMap (Option FRec)
  waiters : List Waiter
  xpage : BitVec 48
  xcmd : BitVec 2
  xbusy : Bool
  peerA : FMap Word
  peerB : FMap Word
  pair : Pair
  admitted : Bool
  freeReq : Bool
  creating : Option Creation
  endDone : Option Word
  tearing : Bool
  deriving DecidableEq, Repr

/-- A context number that was never created. -/
def Ctx.free : Ctx :=
  { state := 0, cause := 0, ord := 0, codebase := 0, codelen := 0, bandmap := 0, trapentry := 0, ptroot := 0, heapbase := 0,
    heaplimit := 0, heapoff := 0, ovflbase := 0, stat := [], spillkb := 0, templates := [], groups := [], guards := [],
    vdies := [], cores := [], coreids := [], vdmask := 0, windows := [], staged := [], keys := [], stagedKeys := [], ovf := 0,
    dispcfg := 0, frec := [], waiters := [], xpage := 0, xcmd := 0, xbusy := false, peerA := [], peerB := [],
    pair := Pair.reset, admitted := false, freeReq := false, creating := none, endDone := none, tearing := false }

/-! ## Dispatch -/

/-- A release on its way to a dispatcher (R75, R76), or a task that moves to another one with its age and its skip count (R80).
`src` is the core that sent it, `coreCount` for the front end, 2000 + the cluster it moves from; `sentAt` is the model's own: when a core
sent it, by twice the package's next name then (log 95). -/
structure Release where
  task : Task
  cluster : Nat
  src : Nat
  aged : Bool
  skips : Nat
  sentAt : Nat := 0
  deriving DecidableEq, Repr

/-- A ready task in a dispatcher's order (R76–R79). -/
structure Ready where
  task : Task
  arrival : Nat
  aged : Bool
  skips : Nat
  blocked : Bool
  offer : Option Nat
  fetched : Bool
  deriving DecidableEq, Repr

/-- A cluster: its dispatcher, the tasks that wait at its mesh input, and its entry store (R75–R80, R369). `depths` are the
counts that neighbours last reported, keyed by 64 × cluster + context. -/
structure Cluster where
  ready : List Ready
  input : List Release
  store : List (Nat × Nat)
  depths : FMap Nat
  deriving DecidableEq, Repr

def Cluster.reset : Cluster := { ready := [], input := [], store := [], depths := [] }

/-- A cell of the sampling array (R305): couplings are (neighbour, weight) keyed by slot. -/
structure Cell where
  s : Bool
  clamp : Bool
  bias : BitVec 12
  col : BitVec 3
  nbr : FMap (Nat × BitVec 8)
  deriving DecidableEq, Repr

def Cell.zero : Cell := { s := false, clamp := false, bias := 0, col := 0, nbr := [] }

/-- The sampling array of a die (R305, R306). -/
structure Sampler where
  owner : Option Nat
  cells : FMap Cell
  kidx : BitVec 4
  seed : Word
  snum : BitVec 32
  deriving DecidableEq, Repr

def Sampler.reset : Sampler := { owner := none, cells := [], kidx := 0, seed := 0, snum := 0 }

/-- An event record (R65): source, sequence number and its 32 bytes. -/
structure EvRec where
  source : Nat
  bytes : List Byte
  deriving DecidableEq, Repr

/-- A compute die (R66, R68, R168). -/
structure Die where
  cluse : BitVec 34
  spfree : BitVec 2
  clret : BitVec 34
  corelost : BitVec 136
  lcmap : BitVec 192
  tlb : List Tlb
  buf : List EvRec
  samp : Sampler
  deriving DecidableEq, Repr

/-- `LCMAP` with logical clusters 0–31 on physical clusters 0–31 (log 7). -/
def lcmapIdentity : Nat → Nat
  | 0 => 0
  | n + 1 => lcmapIdentity n + n * 2 ^ (6 * n)

/-- A die as shipped: 32 clusters in use, two spares, no core lost (R13, R68; log 7). -/
def Die.reset : Die :=
  { cluse := 0xFFFFFFFF, spfree := 2, clret := 0, corelost := 0, lcmap := BitVec.ofNat 192 (lcmapIdentity 32), tlb := [],
    buf := [], samp := Sampler.reset }

/-! ## Host side -/

/-- A work queue (R50, R55, R56, R60). -/
structure WQueue where
  qbase : Word
  bind : BitVec 7
  tickets : BitVec 10
  log2 : BitVec 5
  err : BitVec 8
  state : BitVec 2
  wr : Word
  rd : Word
  shadow : Word
  pass : Nat
  retries : Nat
  waiting : Bool
  hold : Bool
  deriving DecidableEq, Repr

def WQueue.reset : WQueue :=
  { qbase := 0, bind := 0, tickets := 1, log2 := 6, err := 0, state := 0, wr := 0, rd := 0, shadow := 0, pass := 0,
    retries := 0, waiting := false, hold := false }

/-- The event queue and the staging (R64, R66). -/
structure Events where
  base : Word
  evint : Bool
  even : Bool
  log2 : BitVec 4
  wr : Word
  rd : Word
  shadow : Word
  lostSel : BitVec 16
  lost : FMap (BitVec 16)
  iaddr : Word
  idata : BitVec 32
  sseq : FMap (BitVec 16)
  held : List EvRec
  staging : List EvRec
  turn : Nat
  deriving DecidableEq, Repr

def Events.reset : Events :=
  { base := 0, evint := false, even := false, log2 := 4, wr := 0, rd := 0, shadow := 0, lostSel := 0, lost := [], iaddr := 0,
    idata := 0, sseq := [], held := [], staging := [], turn := 0 }

/-- Host memory, as far as it is mapped for the device (R48, R49; log 6). `unmapped` are ranges whose accesses return an
error. -/
structure HostSide where
  mem : List Host.Cell
  unmapped : List (Nat × Nat)
  down : Bool
  lanes : Nat
  read : List Byte
  deriving DecidableEq, Repr

def HostSide.reset : HostSide := { mem := [], unmapped := [], down := false, lanes := 32, read := [] }

/-! ## Fabric -/

/-- A fibre (R327–R331). `wlbad` are wavelengths that have failed to lock, `fails` the authentication failures in a row, `tag` counts the
atomic requests sent (R338), `used` holds for each class the flits whose permits the receiver has not granted again. -/
structure Fibre where
  wlmask : BitVec 18
  wlbad : BitVec 18
  fpeer : BitVec 5
  fstate : BitVec 3
  txctr : Word
  ctrlim : Word
  holdlim : BitVec 32
  kaddr : Word
  kerr : Bool
  txkey : Option (List Byte)
  rxkey : Option (List Byte)
  txcur : List Byte
  rxcur : List Byte
  fails : Nat
  tag : BitVec 16
  used : FMap Nat
  deriving DecidableEq, Repr

def Fibre.reset : Fibre :=
  { wlmask := 0xFFFF, wlbad := 0, fpeer := 0, fstate := 0, txctr := 0, ctrlim := 0xFFFFFFFFFFFFFFFF, holdlim := 0x10000000, kaddr := 0,
    kerr := false, txkey := none, rxkey := none, txcur := [], rxcur := [], fails := 0, tag := 0, used := [] }

/-- A spare fibre (128–135) after reset. -/
def Fibre.spare : Fibre := { Fibre.reset with fstate := 5 }

/-- A scale-out port (R341, R342); `buf` is its transmit buffer. -/
structure Port where
  estate : BitVec 3
  epn : Word
  epnlim : Word
  ekaddr : Word
  ekerr : Bool
  txkey : Option (List Byte)
  rxkey : Option (List Byte)
  buf : List RMsg
  deriving DecidableEq, Repr

def Port.reset : Port :=
  { estate := 0, epn := 0, epnlim := 0xFFFFFFFFFFFFFFFF, ekaddr := 0, ekerr := false, txkey := none, rxkey := none, buf := [] }

/-- A frame that the scale-out unit keeps until it is acknowledged (R341): its header and its messages. -/
structure EthFrame where
  pkg : Nat
  seq : BitVec 32
  mac : BitVec 48
  vlan : BitVec 12
  pcp : BitVec 3
  etype : BitVec 16
  msgs : List RMsg
  deriving DecidableEq, Repr

/-- A message bound for a fibre: the flits that have not been sent, and the fibre on which its first flit has gone. -/
structure Sending where
  msg : RMsg
  left : Nat
  on : Option Nat
  deriving DecidableEq, Repr

/-- The fabric of the package (R322–R342). `outbox` holds the messages that the routing die carries to contexts of this package; `queue`
those that wait for a fibre or are on their way onto it, and `wire` those that have left over fibres; `via` names the fibre that a
request has left over (R330); `ethq` holds those that wait for room in a port's buffer, `turns` counts the messages to a package that
have entered one, and `tags` the atomic requests sent to it through the scale-out unit (R338). -/
structure Fabric where
  cwave : FMap (Option (BitVec 6))
  cerr : FMap Bool
  cbusy : FMap Bool
  pkgnum : BitVec 5
  groupmask : BitVec 32
  lwstate : BitVec 3
  fibres : FMap (Option Fibre)
  evalid : FMap Word
  evlan : FMap (BitVec 12)
  etype : BitVec 16
  eretry : BitVec 32
  elimit : BitVec 32
  ports : FMap Port
  frames : List EthFrame
  txseq : FMap (BitVec 32)
  rxseq : FMap (BitVec 32)
  outbox : List RMsg
  queue : List Sending
  wire : List RMsg
  via : FMap (Option Nat)
  ethq : List RMsg
  turns : FMap Nat
  tags : FMap (BitVec 16)
  deriving DecidableEq, Repr

def Fabric.reset : Fabric :=
  { cwave := [], cerr := [], cbusy := [], pkgnum := 0, groupmask := 0, lwstate := 0, fibres := [], evalid := [], evlan := [],
    etype := 0, eretry := 20000, elimit := 0x1000000, ports := [], frames := [], txseq := [], rxseq := [], outbox := [],
    queue := [], wire := [], via := [], ethq := [], turns := [], tags := [] }

/-! ## Attestation and management -/

/-- The attestation registers and the command in progress (R389). -/
structure Attest where
  nonce : BitVec 256
  buf : Word
  stat : BitVec 2
  out : List Byte
  deriving DecidableEq, Repr

def Attest.reset : Attest := { nonce := 0, buf := 0, stat := 0, out := [] }

/-- The supplies of the package (R384), in the order of its table. -/
inductive Rail where
  | vcore | vsram | vmem | vroute | vopt
  deriving DecidableEq, Repr

/-- The order in which the rails come up (R384). -/
def railOrder : List Rail := [.vroute, .vsram, .vmem, .vcore, .vopt]

/-- An entry of the controller's shutdown log (R390). -/
structure Shutdown where
  cause : Nat
  sensor : Nat
  reading : BitVec 32
  seconds : Nat
  deriving DecidableEq, Repr

/-- Sensors, supplies, firmware and the management controller (R384–R390). `temps` are the junctions by the sensor numbers of R67, `hot`
whether the hottest is above 95 °C, and `now` what the controller has monitored last; `rails` are the rails that are up and `switched`
those that it has switched last, each in order; `running` is the image that runs, `none` the one shipped (log 15); `installed` takes
effect at the next reset; `seconds` is the controller's count at its last shutdown; `report`, `shown` and `seen` are the log and the
sensors as last read through the management port. `spares` counts the spares brought in for rows of a vault or stack and circuits of a
die (R363). -/
structure Mgmt where
  temps : FMap (BitVec 32)
  hot : Bool
  now : Readings
  rails : List Rail
  switched : List (Rail × Bool)
  inReset : Bool
  running : Option (List Byte)
  installed : Option (List Byte)
  seconds : Nat
  log : List Shutdown
  report : List Shutdown
  shown : FMap (BitVec 32)
  seen : Readings
  spares : FMap Nat
  deriving DecidableEq, Repr

def Readings.reset : Readings := { flow := 0, inlet := 0, input := 0, rails := List.replicate 5 0 }

def Mgmt.reset : Mgmt :=
  { temps := [], hot := false, now := Readings.reset, rails := railOrder, switched := railOrder.map (fun r => (r, true)), inReset := false,
    running := none, installed := none, seconds := 0, log := [], report := [], shown := [], seen := Readings.reset, spares := [] }

/-- Whether every rail is up. -/
def Mgmt.powered (m : Mgmt) : Bool := railOrder.all m.rails.contains

/-! ## The package -/

/-- What moves next (log 2): a core that issues, or a device step. -/
inductive Move where
  | core (n : Nat)
  | dev (i : Instr)
  deriving DecidableEq, Repr

/-- The package. `agenda` are the moves to come, `cur` the core whose instruction is executed, `uid` the next name for a
frame, a request or a command, `draws` how often a free choice has been made (log 2, log 17), `lastq` the queue
that the front end has chosen last (R55). -/
structure State where
  agenda : List Move
  cur : Nat
  uid : Nat
  clock : Nat
  draws : Nat
  cores : FMap Core
  clusters : FMap Cluster
  dies : FMap Die
  ctxs : FMap Ctx
  mem : Memory
  queues : FMap WQueue
  lastq : Option Nat
  entry : Option (Nat × List Byte)
  dispcfg : Word
  releases : List Release
  events : Events
  host : HostSide
  fabric : Fabric
  attest : Attest
  mgmt : Mgmt
  deriving DecidableEq, Repr

/-- The package after reset: no context, no queue enabled, dark links (the Reset columns of the register maps; values the
spec does not give are in log 5, 6, 7 and 8). -/
def State.reset : State :=
  { agenda := [], cur := 0, uid := 1, clock := 0, draws := 0, cores := [], clusters := [], dies := [], ctxs := [],
    mem := Memory.reset, queues := [], lastq := none, entry := none, dispcfg := 0x040400804000, releases := [],
    events := Events.reset, host := HostSide.reset, fabric := Fabric.reset, attest := Attest.reset, mgmt := Mgmt.reset }

/-- The model ends no step in a fault: the spec gives every step of the table an effect. -/
inductive Fault where
  /-- Raised by nothing. Safe: no run of the model ends in it. -/
  | none
  deriving DecidableEq, Repr

inductive Refusal where
  /-- Raised by an arm of `exec` whose instruction has no meaning yet. Safe: the run stops there. -/
  | notModelled (mnemonic : String)
  deriving DecidableEq, Repr

end Sys2Proof.Machine
end

