-- ==== Sys2Proof/Machine/Ops.lean ====
section
/-!
DEFINITION. The named operations over the state: units, registers, scratchpad, lines, host memory, event records (R64–R67),
the end of a context (R357, its first two steps), and taking and leaving a trap (R352, R355).
-/

namespace Sys2Proof.Machine

/-! ## Units -/

def State.core (s : State) (n : Nat) : Core := fget Core.reset s.cores n
def State.setCore (s : State) (n : Nat) (c : Core) : State := { s with cores := fset Core.reset s.cores n c }
def State.ctx (s : State) (n : Nat) : Ctx := fget Ctx.free s.ctxs n
def State.setCtx (s : State) (n : Nat) (x : Ctx) : State := { s with ctxs := fset Ctx.free s.ctxs n x }
def State.cluster (s : State) (n : Nat) : Cluster := fget Cluster.reset s.clusters n
def State.setCluster (s : State) (n : Nat) (x : Cluster) : State :=
  { s with clusters := fset Cluster.reset s.clusters n x }
def State.die (s : State) (n : Nat) : Die := fget Die.reset s.dies n
def State.setDie (s : State) (n : Nat) (x : Die) : State := { s with dies := fset Die.reset s.dies n x }
def State.queue (s : State) (n : Nat) : WQueue := fget WQueue.reset s.queues n
def State.setQueue (s : State) (n : Nat) (x : WQueue) : State := { s with queues := fset WQueue.reset s.queues n x }
def State.setMem (s : State) (m : Memory) : State := { s with mem := m }
def Fabric.fibre (x : Fabric) (n : Nat) : Fibre :=
  (fget none x.fibres n).getD (if 128 ≤ n then Fibre.spare else Fibre.reset)
def Fabric.setFibre (x : Fabric) (n : Nat) (f : Fibre) : Fabric :=
  { x with fibres := fset none x.fibres n (if f = (if 128 ≤ n then Fibre.spare else Fibre.reset) then none else some f) }
def Fabric.port (x : Fabric) (n : Nat) : Port := fget Port.reset x.ports n
def Fabric.setPort (x : Fabric) (n : Nat) (p : Port) : Fabric := { x with ports := fset Port.reset x.ports n p }

/-- The die, the physical cluster of the package and the position of a core (R65). -/
def dieOf (n : Nat) : Nat := n / 136
def clusterOf (n : Nat) : Nat := n / 4
def posOf (n : Nat) : Nat := n % 4

/-- A fresh name. -/
def State.fresh (s : State) : State := { s with uid := s.uid + 1 }

/-- The writer of a core (R164): package number and core source index. -/
def State.writer (s : State) (n : Nat) : Writer := s.fabric.pkgnum ++ BitVec.ofNat 11 n

def Core.lane (c : Core) (l : Nat) : Lane := fget Lane.reset c.lanes l
def Core.setLane (c : Core) (l : Nat) (x : Lane) : Core := { c with lanes := fset Lane.reset c.lanes l x }
def Core.queue (c : Core) (q : Nat) : Queue := fget Queue.empty c.queues q
def Core.setQueue (c : Core) (q : Nat) (x : Queue) : Core := { c with queues := fset Queue.empty c.queues q x }

/-- The frame on top, if the core runs one (R120). -/
def Core.top? (c : Core) : Option Frame := c.frames.head?
def Core.setTop (c : Core) (f : Frame) : Core := { c with frames := f :: c.frames.tail }

/-- Applies `g` to the frame with a name, wherever it is on the stack. -/
def Core.onFrame (c : Core) (uid : Nat) (g : Frame → Frame) : Core :=
  { c with frames := c.frames.map (fun f => if f.uid = uid then g f else f) }
def Core.frame? (c : Core) (uid : Nat) : Option Frame := c.frames.find? (fun f => f.uid == uid)

/-! ## Registers (R112, R120) -/

def Frame.getG (f : Frame) (n : GReg) : Word := if n = 0 then 0 else fget 0 f.g n.toNat
def Frame.setG (f : Frame) (n : GReg) (v : Word) : Frame := if n = 0 then f else { f with g := fset 0 f.g n.toNat v }
def Frame.getP (f : Frame) (n : PReg) : Bool := n == 0 || f.p.getLsbD n.toNat
/-- `p` with bit `n` replaced. -/
def putBit (p : BitVec 8) (n : Nat) (v : Bool) : BitVec 8 :=
  if v then p ||| (1#8 <<< n) else p &&& ~~~(1#8 <<< n)
def Frame.setP (f : Frame) (n : PReg) (v : Bool) : Frame := if n = 0 then f else { f with p := putBit f.p n.toNat v }
def Frame.getA (f : Frame) (n : AReg) : BitVec 32 := fget 0 f.a n.toNat
def Frame.setA (f : Frame) (n : AReg) (v : BitVec 32) : Frame := { f with a := fset 0 f.a n.toNat v }
def Lane.getV (l : Lane) (n : VReg) : BitVec 256 := fget 0 l.v n.toNat
def Core.getV (c : Core) (lane : Nat) (n : VReg) : BitVec 256 := (c.lane lane).getV n
def Core.setV (c : Core) (lane : Nat) (n : VReg) (v : BitVec 256) : Core :=
  c.setLane lane { c.lane lane with v := fset 0 (c.lane lane).v n.toNat v }
def Core.getW (c : Core) (n : VReg) : BitVec 2048 := fget 0 c.w n.toNat
def Core.setW (c : Core) (n : VReg) (v : BitVec 2048) : Core := { c with w := fset 0 c.w n.toNat v }

/-- Writes a register of the top frame, of its lane or of the core. -/
def Core.putReg (c : Core) (f : Frame) (r : Reg) (v : BitVec 256) : Core × Frame :=
  match r with
  | .g n => (c, f.setG n (v.setWidth 64))
  | .p n => (c, f.setP n (v.getLsbD 0))
  | .a n => (c, f.setA n (v.setWidth 32))
  | .v n => (c.setV f.lane n v, f)
  | .w _ => (c, f)

/-- Makes the pending writes that are due visible, in order, and counts the others down (R132). -/
def commitPend : List Pend → Core → Frame → List Pend → Core × Frame
  | [], c, f, kept => (c, { f with pend := kept.reverse })
  | x :: xs, c, f, kept =>
    if x.due ≤ 1 then
      let r := c.putReg f x.reg x.val
      commitPend xs r.1 r.2 kept
    else commitPend xs c f ({ x with due := x.due - 1 } :: kept)

/-- `k` own cycles of a frame. -/
def tick : Nat → Core → Frame → Core × Frame
  | 0, c, f => (c, f)
  | k + 1, c, f =>
    let r := commitPend f.pend c f []
    tick k r.1 r.2

/-- Spends the remaining `STALL` cycles of the top frame (R111, R135). -/
def spendStall (c : Core) : Core :=
  match c.frames with
  | [] => c
  | f :: fs =>
    let r := tick f.stall c { f with stall := 0 }
    { r.1 with frames := r.2 :: fs }

/-- Every pending write of a frame that leaves the stack (log 18). -/
def flushPend (c : Core) (f : Frame) : Core :=
  (tick (f.pend.foldl (fun n p => max n p.due) 0) c f).1

/-! ## Scratchpad (R5, R160) -/

/-- The offset and the bank of a scratchpad address. -/
def padBank (a : Nat) : Nat := a / 2 ^ 18
def padOff (a : Nat) : Nat := a % 2 ^ 18
def bankBytes : Nat := 0x30000
def Core.padRead (c : Core) (a n : Nat) : List Byte := fgetAll 0 c.pad a n
def Core.padWrite (c : Core) (a : Nat) (bs : List Byte) : Core := { c with pad := fsetAll 0 c.pad a bs }

/-- A little-endian value of a list of bytes. -/
def wordOf (bs : List Byte) : Word := BitVec.ofNat 64 (leNat bs)
/-- The low `n` bytes of a word. -/
def bytesOf (n : Nat) (w : Word) : List Byte := leBytes n w.toNat
def zext (n : Nat) (v : Nat) : Word := BitVec.ofNat 64 (v % 2 ^ (8 * n))
/-- Sign extension of `n` bytes. -/
def sext (n : Nat) (v : Nat) : Word :=
  let x := v % 2 ^ (8 * n)
  if 2 ^ (8 * n - 1) ≤ x then BitVec.ofNat 64 (x + (2 ^ 64 - 2 ^ (8 * n))) else BitVec.ofNat 64 x
def extend (sx : Bool) (n : Nat) (v : Nat) : Word := if sx then sext n v else zext n v
def Size.bytes : Size → Nat
  | .b => 1 | .h => 2 | .w => 4 | .d => 8
def wideBytes (wide : Bool) : Nat := if wide then 8 else 4

/-! ## Lines (R163, R164, R213) -/

def vaultKey0 : Nat := 2 ^ 34
/-- The key of a line of a vault. -/
def vaultKey (cluster off : Nat) : Nat := vaultKey0 + cluster * 2 ^ 19 + off / 64
def isVault (key : Nat) : Bool := vaultKey0 ≤ key
/-- The vault's cluster. -/
def vaultOf (key : Nat) : Nat := (key - vaultKey0) / 2 ^ 19
/-- The source index of a home (R65): stack, or 16 + vault. -/
def homeOf (key : Nat) : Nat := if isVault key then 16 + vaultOf key else key % 16

def Memory.lineTags (m : Memory) (key : Nat) : LineTags := fget LineTags.zero m.tags key
def Memory.newerData (m : Memory) (key : Nat) : List Byte := fgetAll 0 m.newer (64 * key) 64
def Memory.olderData (m : Memory) (key : Nat) : List Byte := fgetAll 0 m.older (64 * key) 64
def Memory.setNewer (m : Memory) (key : Nat) (bs : List Byte) : Memory :=
  { m with newer := fsetAll 0 m.newer (64 * key) bs }
def Memory.setOlder (m : Memory) (key : Nat) (bs : List Byte) : Memory :=
  { m with older := fsetAll 0 m.older (64 * key) bs }
def Memory.setTags (m : Memory) (key : Nat) (t : LineTags) : Memory :=
  { m with tags := fset LineTags.zero m.tags key t }
/-- The 8-byte tag word (R164). -/
def Tag.word (t : Tag) : Word := t.writer ++ t.cseq ++ t.scale ++ BitVec.ofBool t.desc ++ 0#3 ++ t.fmt

/-- The newer settled version (R49): the newer one unless it is pending. -/
def Memory.settledData (m : Memory) (key : Nat) : List Byte :=
  if (m.lineTags key).newer.st = .pending then m.olderData key else m.newerData key
/-- A byte of physical main memory in the newer settled version of its line. -/
def Memory.settledByte (m : Memory) (pa : Nat) : Byte :=
  if (m.lineTags (pa / 64)).newer.st = .pending then fget 0 m.older pa else fget 0 m.newer pa
def Memory.physRead (m : Memory) (pa : Nat) : Nat → List Byte
  | 0 => []
  | n + 1 => m.settledByte pa :: m.physRead (pa + 1) n
/-- Overwrites bytes of the newer version in place, where no bundle writes (R125, R169). -/
def Memory.physWrite (m : Memory) (pa : Nat) (bs : List Byte) : Memory := { m with newer := fsetAll 0 m.newer pa bs }

/-! ## Views (R215–R219) -/

/-- Serial order mod 2^32. -/
def serLe (x y : CSeq) : Bool := (y - x).toNat < 2 ^ 31
def serMax (x y : CSeq) : CSeq := if serLe x y then y else x

def View.entry? (v : View) (w : Writer) : Option VEntry := v.find? (fun e => e.writer == w)
/-- The bounds that a view holds, at most 32 (R215). -/
def VEntry.bounds (e : VEntry) : Nat := e.inc.isSome.toNat + e.exc.isSome.toNat
def View.bounds (v : View) : Nat := v.foldl (fun n e => n + e.bounds) 0
/-- Whether a bundle is included; `own` is the task's own core. -/
def View.included (v : View) (own w : Writer) (s : CSeq) : Bool :=
  (w == 0 && s == 0) || w == own || (match v.entry? w with
    | some e => (match e.inc with | some b => serLe s b | none => false)
    | none => false)
def View.excluded (v : View) (own w : Writer) (s : CSeq) : Bool :=
  !(w == 0 && s == 0) && w != own && (match v.entry? w with
    | some e => (match e.exc with | some b => serLe b s | none => false)
    | none => false)
/-- Raises the included bound of a writer. -/
def View.include (v : View) (w : Writer) (s : CSeq) : View :=
  match v.entry? w with
  | none => v ++ [{ writer := w, inc := some s, exc := none }]
  | some _ => v.map (fun e => if e.writer == w then
      { e with inc := some (match e.inc with | some b => serMax b s | none => s) } else e)
/-- Sets the excluded bound if it is absent or later. -/
def View.exclude (v : View) (w : Writer) (s : CSeq) : View :=
  match v.entry? w with
  | none => v ++ [{ writer := w, inc := none, exc := some s }]
  | some _ => v.map (fun e => if e.writer == w then
      { e with exc := some (match e.exc with | some b => if serLe b s then b else s | none => s) } else e)
/-- Whether raising a bound needs a bound that the view does not hold. -/
def View.needsInc (v : View) (w : Writer) : Bool := match v.entry? w with | some e => e.inc.isNone | none => true
def View.needsExc (v : View) (w : Writer) : Bool := match v.entry? w with | some e => e.exc.isNone | none => true
/-- The view without excluded bounds (R215). -/
def View.clearExc (v : View) : View :=
  (v.map (fun e => { e with exc := none })).filter (fun e => e.inc.isSome)
def View.ofSet (s : IncSet) : View := s.foldl (fun v p => View.include v p.1 p.2) []

/-- What the core knows of the quiet bundles of a writer (R216). -/
def Core.quiet (c : Core) (own w : Writer) (s : CSeq) : Bool :=
  if w == own then serLe s c.quietUpTo
  else match fget none c.known w.toNat with
    | some b => serLe s b
    | none => false

/-- The included set of a release (R219): the view's included bounds and the core's highest closed bundle, without bundles
known to be quiet. -/
def Core.includedSet (c : Core) (own : Writer) (v : View) : IncSet :=
  (v.filterMap (fun e => match e.inc with
    | some b => if e.writer == own || c.quiet own e.writer b then none else some (e.writer, b)
    | none => none)) ++ (if c.cseq == 0 || c.quiet own own c.cseq then [] else [(own, c.cseq)])

/-- A set without the bundles known to be quiet, if at most 8 writers are left (R219). -/
def Core.reduceSet (c : Core) (own : Writer) (s : IncSet) : Option IncSet :=
  let r := s.filter (fun p => !c.quiet own p.1 p.2)
  if r.length ≤ 8 then some r else none

/-- The union of two sets, with the larger bound of each writer. -/
def mergeSets (a b : IncSet) : IncSet :=
  b.foldl (fun t p => if t.any (fun q => q.1 == p.1) then
    t.map (fun q => if q.1 == p.1 then (q.1, serMax q.2 p.2) else q) else t ++ [p]) a

/-- The view after a synchronising acquire of a set (R215): excluded bounds cleared, included bounds raised; writers known
to be quiet are omitted, and included-only entries known to be quiet dropped, when the bounds do not suffice. `none` when
they still do not. -/
def Core.acquire (c : Core) (own : Writer) (v : View) (s : IncSet) : Option View :=
  let v1 := v.clearExc
  let all := s.foldl (fun t p => View.include t p.1 p.2) v1
  if View.bounds all ≤ 32 then some all
  else
    let v2 : View := v1.filter (fun e => !(match e.inc with | some b => c.quiet own e.writer b | none => true))
    let t := (s.filter (fun p => !c.quiet own p.1 p.2)).foldl (fun t p => View.include t p.1 p.2) v2
    if View.bounds t ≤ 32 then some t else none

/-- The view registers of R217, `VIEW0` first. -/
def View.regs (v : View) : List Word :=
  v.flatMap (fun e =>
    let both := BitVec.ofBool (e.inc.isSome && e.exc.isSome)
    (match e.inc with | some b => [(e.writer ++ b ++ 0#13 ++ both ++ 0#1 ++ 1#1 : Word)] | none => []) ++
    (match e.exc with | some b => [(e.writer ++ b ++ 0#13 ++ both ++ 1#1 ++ 1#1 : Word)] | none => []))

/-! ## Event records (R64–R67) -/

/-- Bytes 8–31 of a record: (offset, size, value) of each named field. -/
def payload (parts : List (Nat × Nat × Nat)) : List Byte :=
  fgetAll 0 (parts.foldl (fun m p => fsetAll 0 m p.1 (leBytes p.2.1 p.2.2)) []) 8 24

def srcQueue (q : Nat) : Nat := 4096 + q
def srcFrontEnd : Nat := 2 * 4096
def srcHome (h : Nat) : Nat := 3 * 4096 + h
def srcFibre (f : Nat) : Nat := 4 * 4096 + f
def srcMgmt : Nat := 5 * 4096

/-- The compute die whose buffer a source uses (R66): cores and vault homes. -/
def srcDie (src : Nat) : Option Nat :=
  if src < 4096 then some (src / 136)
  else if src / 4096 = 3 ∧ 16 ≤ src % 4096 then some ((src % 4096 - 16) / 34)
  else none

/-- Counts a lost record (R66). -/
def Events.lose (e : Events) (src : Nat) : Events :=
  let n := fget 0 e.lost src
  { e with lost := fset 0 e.lost src (if n = 0xFFFF then n else n + 1) }

/-- Posts a record (R65, R66): it takes the source's next `SSEQ` and enters the die's buffer, the staging or its source, or
is lost. -/
def State.post (s : State) (src : Nat) (ctx : Option Nat) (code : Nat) (pay : List Byte) : State :=
  let e := s.events
  let q := fget 0 e.sseq src
  let e1 := { e with sseq := fset 0 e.sseq src (q + 1) }
  let w1 := code * 2 ^ 24 + (match ctx with | some n => 0x80 + n % 64 | none => 0)
  let r : EvRec := { source := src, bytes := leBytes 2 q.toNat ++ leBytes 2 src ++ leBytes 4 w1 ++ pay }
  match srcDie src with
  | some d =>
    let x := s.die d
    if x.buf.length < 32 then { (s.setDie d { x with buf := x.buf ++ [r] }) with events := e1 }
    else { s with events := e1.lose src }
  | none =>
    if e1.staging.length < 256 ∧ e1.held = [] then { s with events := { e1 with staging := e1.staging ++ [r] } }
    else if e1.held.any (fun h => h.source == src) then { s with events := e1.lose src }
    else { s with events := { e1 with held := e1.held ++ [r] } }

/-! ## Host memory (R48, R49) -/

def HostSide.ok (h : HostSide) (a n : Nat) : Bool :=
  !h.down && !h.unmapped.any (fun r => decide (a < r.2) && decide (r.1 < a + n)) && decide (a + n ≤ 2 ^ 64)
/-- A device read of host memory; `none` is an error. -/
def State.hostRead (s : State) (a n : Nat) : Option (List Byte) :=
  if s.host.ok a n then some (fgetAll 0 s.host.mem a n) else none
/-- A device write of host memory; `none` is an error. -/
def State.hostWrite (s : State) (a : Nat) (bs : List Byte) : Option State :=
  if s.host.ok a bs.length then some { s with host := { s.host with mem := fsetAll 0 s.host.mem a bs } } else none
/-- A write whose failure has no further effect (a completion word, R49). -/
def State.hostPut (s : State) (a : Nat) (bs : List Byte) : State := (s.hostWrite a bs).getD s

/-! ## Messages (R323, R325, R326, R332, R341) -/

def State.setFabric (s : State) (x : Fabric) : State := { s with fabric := x }

/-- A peer as the peer table names it now (R332). -/
def Ctx.peer (x : Ctx) (k : BitVec 5) : Option PeerRef :=
  let a := fget 0 x.peerA k.toNat
  if a.getLsbD 63 then
    some { idx := k, pkg := a.extractLsb' 0 5, ctx := a.extractLsb' 32 6, eth := a.getLsbD 62, bind := fget 0 x.peerB k.toNat }
  else none

/-- The entry of a context that names another one: the lowest that is valid (R332). -/
def Ctx.entryOf (x : Ctx) (pkg : BitVec 5) (ctx : BitVec 6) : Option PeerRef :=
  (List.range 32).findSome? (fun k => (x.peer (BitVec.ofNat 5 k)).filter (fun p => p.pkg == pkg && p.ctx == ctx))

/-- Replies and refusals, which a served context sends. -/
def RBody.isReply : RBody → Bool
  | .lineAck .. | .settleAck .. | .loadReply .. | .atomReply .. | .refuse .. | .unknown .. | .uncorrectable .. => true
  | .line .. | .fold .. | .settle .. | .quiet .. | .release .. | .loadReq .. | .atomReq .. | .digest .. | .endNotice | .discard .. => false
/-- Lines and contributions. -/
def RBody.isLine : RBody → Bool
  | .line .. | .fold .. => true
  | .lineAck .. | .settleAck .. | .loadReply .. | .atomReply .. | .refuse .. | .unknown .. | .uncorrectable .. | .settle .. | .quiet ..
  | .release .. | .loadReq .. | .atomReq .. | .digest .. | .endNotice | .discard .. => false
/-- The address at the peer. -/
def RBody.addr : RBody → Word
  | .line _ _ a _ | .fold _ _ a _ _ _ _ | .lineAck _ _ a | .settle _ _ a | .quiet _ _ a | .loadReq _ a _ _ | .atomReq _ _ _ _ a _ _ _
  | .refuse _ _ a _ _ | .unknown a _ _ => a
  | .settleAck .. | .release .. | .loadReply .. | .atomReply .. | .uncorrectable .. | .digest .. | .endNotice | .discard .. => 0
/-- The request that waits for a reply, and its name. -/
def RBody.request? : RBody → Option Nat
  | .loadReq q _ _ _ | .atomReq _ _ q _ _ _ _ _ => some q
  | .line .. | .fold .. | .lineAck .. | .settle .. | .settleAck .. | .quiet .. | .release .. | .loadReply .. | .atomReply .. | .refuse ..
  | .unknown .. | .uncorrectable .. | .digest .. | .endNotice | .discard .. => none
/-- The class of a message (R331); digests and end notices, which the rule does not name, are counted among the releases, and
acknowledgements and refusals among the replies (log 83). -/
def RBody.cls : RBody → Nat
  | .release .. | .digest .. | .endNotice => 0
  | .loadReq .. | .atomReq .. => 1
  | .lineAck .. | .settleAck .. | .loadReply .. | .atomReply .. | .refuse .. | .unknown .. | .uncorrectable .. => 2
  | .settle .. | .quiet .. | .discard .. => 3
  | .line .. | .fold .. => 4

/-- The order in which an arbiter takes classes of one priority tag. -/
def classRank (c : Nat) : Nat :=
  match c with
  | 2 => 0
  | 3 => 1
  | 0 => 2
  | 1 => 3
  | _ => 4
/-- Whether an arbiter takes `x` before `y` (R331): the higher priority tag, then the class. -/
def RMsg.beats (x y : RMsg) : Bool :=
  decide (y.prio.toNat < x.prio.toNat) || (x.prio == y.prio && decide (classRank (RBody.cls x.body) < classRank (RBody.cls y.body)))

/-- Messages of one unit to one destination (R323). -/
def RMsg.stream (x y : RMsg) : Bool :=
  x.srcPkg == y.srcPkg && x.srcCtx == y.srcCtx && x.srcCore == y.srcCore && x.dstPkg == y.dstPkg && x.dstCtx == y.dstCtx

/-- The flits of a message; it fits a frame of 2,048 bytes (R341). -/
def msgFlits (m : RMsg) : Nat := Config.flits m % 64 + 1

/-- How many more flits class `c` may hold, where `used` tells what each class holds: what is free of its reserve, and of the shared
pool within its cap (R331, R341). -/
def classRoom (reserve shared cap : Nat) (used : Nat → Nat) (c : Nat) : Nat :=
  let taken := (List.range 5).foldl (fun n k => n + (used k - reserve)) 0
  (reserve - used c) + min (cap - (used c - reserve)) (shared - taken)

/-- The fibre to a package: the lowest that is up, else the lowest that is held (log 55). -/
def Fabric.fibreTo (x : Fabric) (pkg : BitVec 5) : Option Nat :=
  let to_ := (List.range 136).filter (fun f => (x.fibre f).fpeer == pkg)
  (to_.find? (fun f => (x.fibre f).fstate == 2)).orElse (fun _ => to_.find? (fun f => (x.fibre f).fstate == 3))

/-- The ports that carry frames to a package (R341): those of its `EPORTS` that are up, or held ones while none is up. -/
def Fabric.portsTo (x : Fabric) (pkg : BitVec 5) : List Nat :=
  let e := fget 0 x.evalid pkg.toNat
  let at_ := fun (st : BitVec 3) => (List.range 4).filter (fun p => e.getLsbD (48 + p) && (x.port p).estate == st)
  if x.etype = 0 ∨ !e.getLsbD 63 then [] else if (at_ 2).isEmpty then at_ 3 else at_ 2

/-- The way of a message: to a context of this package; over a fibre, for which it may have to wait; through the scale-out unit; there
is none. -/
inductive Way where
  | here
  | fibre
  | port
  | gone
  deriving DecidableEq, Repr

def Fabric.way (x : Fabric) (m : RMsg) : Way :=
  if m.dstPkg = x.pkgnum then .here
  else if m.eth then (if (x.portsTo m.dstPkg).isEmpty then .gone else .port)
  else if x.lwstate = 2 ∧ (!x.groupmask.getLsbD m.dstPkg.toNat ∨ (x.fibreTo m.dstPkg).isNone) then .gone
  else .fibre

/-! ## Sending over fibres (R325, R329, R331) -/

/-- The fibre that a message goes over now: the one that it has started on, or the one to its package while the link runs. -/
def Fabric.route (x : Fabric) (e : Sending) : Option Nat :=
  match e.on with
  | some f => if x.lwstate = 2 ∨ x.lwstate = 3 then some f else none
  | none => if x.lwstate = 2 ∧ x.groupmask.getLsbD e.msg.dstPkg.toNat then x.fibreTo e.msg.dstPkg else none

/-- The flits of a message that can go now: its permits, and the counters below `CTRLIM`. -/
def Fibre.sends (q : Fibre) (e : Sending) : Nat :=
  if q.fstate = 2 then min (min e.left (classRoom 32 864 648 (fget 0 q.used) (RBody.cls e.msg.body))) (q.ctrlim.toNat - q.txctr.toNat) else 0

/-- The place in the queue of the oldest message of a class over fibre `f`. -/
def Fabric.head? (x : Fabric) (f c : Nat) : Option (Nat × Sending) :=
  ((x.queue.zip (List.range x.queue.length)).find? (fun e => x.route e.1 == some f && RBody.cls e.1.msg.body == c)).map (fun e => (e.2, e.1))

/-- The head that the arbiter of fibre `f` takes. -/
def Fabric.pickHead (x : Fabric) (f : Nat) : Option (Nat × Sending) :=
  ((List.range 5).filterMap (x.head? f)).foldl (fun best e =>
    if (x.fibre f).sends e.2 = 0 then best
    else match best with
      | some b => if RMsg.beats e.2.msg b.2.msg then some e else some b
      | none => some e) none

/-- A message whose last flit has gone over fibre `f`: it carries the number of the fibre, and an atomic request its tag (R338). -/
def RMsg.leaves (m : RMsg) (f : Nat) (tag : BitVec 16) : RMsg :=
  { m with fibre := BitVec.ofNat 8 f, body := match m.body with
    | .atomReq _ r q s a z c v => .atomReq tag r q s a z c v
    | b => b }
def RBody.isAtomic : RBody → Bool
  | .atomReq .. => true
  | .line .. | .fold .. | .lineAck .. | .settle .. | .settleAck .. | .quiet .. | .release .. | .loadReq .. | .loadReply .. | .atomReply ..
  | .refuse .. | .unknown .. | .uncorrectable .. | .digest .. | .endNotice | .discard .. => false

/-- The arbiter of fibre `f` sends the flits that its choice can send. -/
def Fabric.sendHead (x : Fabric) (f : Nat) (e : Nat × Sending) : Fabric :=
  let q := x.fibre f
  let n := q.sends e.2
  let c := RBody.cls e.2.msg.body
  let q1 := { q with txctr := q.txctr + BitVec.ofNat 64 n, used := fset 0 q.used c (fget 0 q.used c + n) }
  if e.2.left ≤ n then
    let x1 := x.setFibre f (if RBody.isAtomic e.2.msg.body then { q1 with tag := q.tag + 1 } else q1)
    { x1 with
      queue := x.queue.eraseIdx e.1
      wire := x.wire ++ [RMsg.leaves e.2.msg f q.tag]
      via := match RBody.request? e.2.msg.body with
        | some r => fset none x.via r (some f)
        | none => x.via }
  else { x.setFibre f q1 with queue := x.queue.set e.1 { e.2 with left := e.2.left - n, on := some f } }

/-- Fibre `f` sends until nothing more can go. -/
def Fabric.runFibre (f : Nat) : Nat → Fabric → Fabric
  | 0, x => x
  | k + 1, x => match x.pickHead f with
    | some e => Fabric.runFibre f k (x.sendHead f e)
    | none => x

/-- The permits that the receiver of fibre `f` has granted again come back. -/
def Fabric.permits (x : Fabric) (draw f : Nat) : Fabric :=
  let q := x.fibre f
  x.setFibre f { q with used := (List.range 5).foldl (fun m c => fset 0 m c (fget 0 m c - Config.granted draw f c)) q.used }

/-- The fibres over which messages wait to go. -/
def Fabric.waiting (x : Fabric) : List Nat :=
  x.queue.foldl (fun l e => match x.route e with
    | some f => if l.contains f then l else l ++ [f]
    | none => l) []

/-! ## Sending through the scale-out unit (R341) -/

/-- The flits of a class in a port's buffer. -/
def Port.holds (q : Port) (c : Nat) : Nat := ((q.buf.filter (fun m => RBody.cls m.body == c)).map msgFlits).foldl (fun a b => a + b) 0

/-- A message enters the buffer of the port whose turn it is, if its class has room there and no earlier message of its unit waits in
the buffer of another port: messages of one unit leave in the order sent (R323, R341). -/
def Fabric.enterPort (x : Fabric) (m : RMsg) : Option Fabric :=
  let l := x.portsTo m.dstPkg
  let k := fget 0 x.turns m.dstPkg.toNat
  match l[k % l.length]? with
  | some p =>
    if msgFlits m ≤ classRoom 64 1728 1296 (x.port p).holds (RBody.cls m.body) ∧
        (List.range 4).all (fun j => j == p || !(x.port j).buf.any (RMsg.stream m)) then
      some { x.setPort p { x.port p with buf := (x.port p).buf ++ [m] } with turns := fset 0 x.turns m.dstPkg.toNat (k + 1) }
    else none
  | none => none

/-- The messages that wait enter buffers in their order; one that cannot keeps the later ones of its package and class, and of its unit,
waiting. -/
def Fabric.enterAll : List RMsg → List RMsg → Fabric → Fabric
  | [], kept, x => { x with ethq := kept.reverse }
  | m :: ms, kept, x =>
    if kept.any (fun k => (k.dstPkg == m.dstPkg && RBody.cls k.body == RBody.cls m.body) || RMsg.stream k m) then Fabric.enterAll ms (m :: kept) x
    else match x.enterPort m with
      | some x1 => Fabric.enterAll ms kept x1
      | none => Fabric.enterAll ms (m :: kept) x

/-- A port sends a frame unless its packet number is used up; with `ETYPE` 0 the unit sends nothing (R342). -/
def Fabric.portSends (x : Fabric) (p : Nat) : Bool :=
  x.etype != 0 && (x.port p).estate == 2 && decide ((x.port p).epn.toNat < (x.port p).epnlim.toNat)

/-- The messages of a buffer that are the oldest of their unit there. -/
def oldestOf (seen : List RMsg) : List RMsg → List RMsg
  | [] => []
  | m :: ms => if seen.any (RMsg.stream m) then oldestOf seen ms else m :: oldestOf (m :: seen) ms

/-- The message of a buffer that the port's arbiter takes: of those that are the oldest of their unit, the oldest of each class. -/
def pickMsg (l : List RMsg) : Option RMsg :=
  ((List.range 5).filterMap (fun c => (oldestOf [] l).find? (fun m => RBody.cls m.body == c))).foldl (fun best m => match best with
    | some b => if RMsg.beats m b then some m else some b
    | none => some m) none

/-- Port `p` sends a message in a frame of its own (log 55), with the next number of its package's sequence. -/
def Fabric.frameOut (x : Fabric) (p : Nat) (m : RMsg) : Fabric :=
  let n := m.dstPkg.toNat
  let seq := fget 0 x.txseq n
  let tag := fget 0 x.tags n
  let q := x.port p
  let frame : EthFrame :=
    { pkg := n, seq, mac := (fget 0 x.evalid n).setWidth 48, vlan := fget 0 x.evlan n, pcp := m.prio.extractLsb' 1 3, etype := x.etype,
      msgs := [RMsg.leaves m 0 tag] }
  { x.setPort p { q with epn := q.epn + 1, buf := q.buf.erase m } with
    txseq := fset 0 x.txseq n (seq + 1), frames := x.frames ++ [frame],
    tags := if RBody.isAtomic m.body then fset 0 x.tags n (tag + 1) else x.tags }

/-- Port `p` sends until its buffer is empty or its packet numbers are used up. -/
def Fabric.runPort (p : Nat) : Nat → Fabric → Fabric
  | 0, x => x
  | k + 1, x =>
    if x.portSends p then
      match pickMsg (x.port p).buf with
      | some m => Fabric.runPort p k (x.frameOut p m)
      | none => x
    else x

/-- The unit moves messages into buffers and sends them, while that makes room for more. -/
def Fabric.runPorts : Nat → Fabric → Fabric
  | 0, x => x
  | k + 1, x =>
    let x1 := Fabric.enterAll x.ethq [] x
    let x2 := (List.range 4).foldl (fun (x : Fabric) p => Fabric.runPort p (x.port p).buf.length x) x1
    if x2.ethq.isEmpty then x2 else Fabric.runPorts k x2

/-- The links send what they can. -/
def State.transmit (s : State) : State :=
  let x := s.fabric.runPorts (s.fabric.ethq.length + 1)
  let fs := x.waiting
  if fs.isEmpty then { s with fabric := x }
  else { s with draws := s.draws + 1, fabric := fs.foldl (fun (x : Fabric) f => Fabric.runFibre f (2 * x.queue.length + 8) (x.permits s.draws f)) x }

/-- A message takes its way; where there is none, it is lost. -/
def Fabric.carry (x : Fabric) (m : RMsg) : Fabric :=
  match x.way m with
  | .here => { x with outbox := x.outbox ++ [m] }
  | .fibre => { x with queue := x.queue ++ [{ msg := m, left := msgFlits m, on := none }] }
  | .port => { x with ethq := x.ethq ++ [m] }
  | .gone => x
def State.enqueue (s : State) (m : RMsg) : State :=
  match s.fabric.way m with
  | .here => { s with fabric := s.fabric.carry m }
  | .fibre | .port | .gone => { s with fabric := s.fabric.carry m }.transmit

/-! ## Circuits between compute dies (R322, R323) -/

/-- The distance of two compute dies on the routing die's grid (R73). -/
def gridHops (i j : Nat) : Nat :=
  (max (i / 4) (j / 4) - min (i / 4) (j / 4)) + (max (i % 4) (j % 4) - min (i % 4) (j % 4))

/-- `CWAVE` of a pair i < j: 16 after reset between grid neighbours. -/
def Fabric.waves (x : Fabric) (i j : Nat) : Nat :=
  match fget none x.cwave (8 * i + j) with
  | some v => v.toNat
  | none => if gridHops i j = 1 then 16 else 0

/-- Whether two dies have circuits of their own, and whether those are being changed. -/
def Fabric.joined (x : Fabric) (i j : Nat) : Bool := i != j && decide (0 < x.waves (min i j) (max i j))
def Fabric.changing (x : Fabric) (i j : Nat) : Bool := fget false x.cbusy (8 * min i j + max i j)

/-- Whether die `j` is reached from die `i` over at most `k` circuits. -/
def Fabric.reaches (x : Fabric) : Nat → Nat → Nat → Bool
  | 0, i, j => i == j
  | k + 1, i, j => i == j || (List.range 8).any (fun m => x.joined i m && x.reaches k m j)

/-- Whether a new message may follow the path of `k` circuits whose dies have the lowest numbers: none of its pairs is being changed. -/
def Fabric.follows (x : Fabric) : Nat → Nat → Nat → Bool
  | 0, i, j => i == j
  | k + 1, i, j =>
    i == j || (match (List.range 8).find? (fun m => x.joined i m && x.reaches k m j) with
      | some m => !x.changing i m && x.follows k m j
      | none => false)

/-- Whether a message between two compute dies is carried now: over the pair's own circuits, else over the path with the fewest; while
there is no path, or a pair of it is being changed, it waits in the routing die. -/
def Fabric.links (x : Fabric) (i j : Nat) : Bool :=
  i == j || (match (List.range 8).find? (fun k => x.reaches k i j) with
    | some k => x.follows k i j
    | none => false)

/-- The same from core `n` to a home: main memory is reached without crossing to another compute die. -/
def State.linksHome (s : State) (n key : Nat) : Bool := !isVault key || s.fabric.links (dieOf n) (vaultOf key / 34)

/-! ## Entries of the dispatchers (R75, R76) -/

def State.tmpl? (s : State) (t : Task) : Option Template := (s.ctx t.ctx).templates[t.tmpl]?

/-- Whether the entry block of a task's template is in the cluster's entry store (R369); a resumed task has none to fetch. -/
def State.stored (s : State) (k : Nat) (t : Task) : Bool :=
  t.cont.isSome || (match s.tmpl? t with
    | some m => (s.cluster k).store.contains (t.ctx, ((s.ctx t.ctx).codebase.toNat + m.entry) / 32)
    | none => true)

/-- The entry of a release in the order of a dispatcher: a new arrival (R76). -/
def State.entryOf (s : State) (k : Nat) (r : Release) : Ready :=
  { task := r.task, arrival := s.clock, aged := r.aged, skips := r.skips, blocked := false, offer := none, fetched := s.stored k r.task }

/-- Takes in the first `n` releases that wait at the input of a dispatcher, as long as it has room (R75). -/
def State.takeIn (k : Nat) : Nat → State → State
  | 0, s => s
  | n + 1, s =>
    let c := s.cluster k
    match c.input with
    | r :: rs => if c.ready.length < 512 then
        State.takeIn k n ({ s with clock := s.clock + 1 }.setCluster k { c with ready := c.ready ++ [s.entryOf k r], input := rs })
      else s
    | [] => s

/-- After entries have left, the input passes on as many (R75). -/
def State.refill (s : State) (k : Nat) : State := State.takeIn k (s.cluster k).input.length s

/-! ## The end of a context (R62, R357) -/

/-- Whether a core still holds a frame or a command of the context. -/
def State.ctxBusy (s : State) (n : Nat) : Bool :=
  (s.ctx n).cores.any (fun k => !(s.core k).frames.isEmpty)

/-- A paired context that ends sends its partner an end notice (R362). -/
def State.endNotice (s : State) (n : Nat) : State :=
  let x := s.ctx n
  match x.peer x.pair.ppeer with
  | some p =>
    if x.pair.pen then
      let m : RMsg := { srcPkg := s.fabric.pkgnum, srcCtx := BitVec.ofNat 6 n, srcCore := 0, dstPkg := p.pkg, dstCtx := p.ctx,
                        peer := p.idx, eth := p.eth, bind := p.bind, prio := 0, fibre := 0, taskId := 0, body := .endNotice }
      s.enqueue m
    else s
  | none => s

/-- Steps 1 and 2 of R357: status and record 0x03, and the dispatchers discard what is the context's and take in what waits at their
inputs. The cores remove their frames at their next boundary. -/
def State.endCtx (s : State) (n : Nat) (cause : Nat) (ord : BitVec 32) : State :=
  let x := s.ctx n
  if x.state ≠ 2 then s
  else
    let s1 := s.setCtx n { x with state := 3, cause := BitVec.ofNat 8 cause, ord, tearing := true, frec := [], waiters := [] }
    let s2 := (s1.post srcMgmt (some n) 0x03 (payload [(8, 1, cause), (12, 4, ord.toNat)])).endNotice n
    let s3 : State := { s2 with
      releases := s2.releases.filter (fun r => r.task.ctx != n)
      clusters := s2.clusters.filterMap (fun e =>
        let k : Cluster := { e.2 with ready := e.2.ready.filter (fun r => r.task.ctx != n),
                                      input := e.2.input.filter (fun r => r.task.ctx != n) }
        if k = Cluster.reset then none else some (e.1, k)) }
    (s3.clusters.map (fun e => e.1)).foldl State.refill s3

/-- The launch ordinal of a task (R39). -/
def ordOf (id : Word) : BitVec 32 := id.extractLsb' 32 32

/-! ## Remote errors (R326, R339) -/

/-- A remote error of a live context: record 0x09 from the issuing core, and the context ends. -/
def State.remoteError (s : State) (ctx core peer kind cause : Nat) (addr id : Word) : State :=
  if (s.ctx ctx).state = 2 then
    (s.post core (some ctx) 0x09 (payload [(8, 1, peer), (9, 1, kind), (16, 8, addr.toNat), (24, 8, id.toNat)])).endCtx ctx cause (ordOf id)
  else s

/-- The entry of a context that names the far end of a message, 0 where there is none. -/
def Ctx.entryFor (x : Ctx) (m : RMsg) : Nat := ((x.entryOf m.dstPkg m.dstCtx).map (fun p => p.idx.toNat)).getD 0

/-- A message that no way reaches is a remote error of kind 6 for the context that sent it (R326, R341); for a reply the served context's
first core posts the record (log 54). -/
def State.unreachable (s : State) (m : RMsg) : State :=
  let k := m.srcCtx.toNat
  let cause := if RBody.isLine m.body then 0x07 else 0x05
  if RBody.isReply m.body then s.remoteError k ((s.ctx k).cores.headD 0) ((s.ctx k).entryFor m) 6 cause (RBody.addr m.body) m.taskId
  else s.remoteError k m.srcCore m.peer.toNat 6 cause (RBody.addr m.body) m.taskId

/-- Sends a message. -/
def State.send (s : State) (m : RMsg) : State := if s.fabric.way m = .gone then s.unreachable m else s.enqueue m

/-- Whether the route entry of a message's package names port `p`. -/
def Fabric.portOf (x : Fabric) (p : Nat) (m : RMsg) : Bool := (fget 0 x.evalid m.dstPkg.toNat).getLsbD (48 + p)

/-- Messages in the buffer of a port that is neither up nor held, or that their route entries no longer name, wait again, before the
others. -/
def Fabric.recall (x : Fabric) (p : Nat) : Fabric :=
  let q := x.port p
  let stays := fun (m : RMsg) => (q.estate == 2 || q.estate == 3) && x.portOf p m && x.way m != .gone
  { x.setPort p { q with buf := q.buf.filter stays } with ethq := q.buf.filter (fun m => !stays m) ++ x.ethq }
def Fabric.recallAll (x : Fabric) : Fabric := (List.range 4).foldl Fabric.recall x

/-- What has not started and has no way any more ends its context, and the rest goes out as far as it can. -/
def State.pump (s : State) : State :=
  let y := s.fabric.recallAll
  let lostF := fun (e : Sending) => e.on.isNone && decide (y.way e.msg = .gone)
  let lostE := fun (m : RMsg) => decide (y.way m = .gone)
  let x := { y with queue := y.queue.filter (fun e => !lostF e), ethq := y.ethq.filter (fun m => !lostE m) }
  (((y.queue.filter lostF).map (fun e => e.msg)) ++ y.ethq.filter lostE).foldl State.unreachable ({ s with fabric := x }).transmit

/-! ## Traps (R352, R353, R355) -/

/-- `TCAUSE`. -/
def causeWord (cause : Nat) (after : Bool) : Word := BitVec.ofNat 64 (cause + if after then 0x200 else 0)

/-- Takes a trap in the top frame of core `n`: the frame records the cause, gains privilege and goes to the trap entry; in
the trap frame the context ends with cause 0x0A. -/
def State.takeTrap (s : State) (n : Nat) (cause : Nat) (after : Bool) (tval t0 t1 : Word) : State :=
  let c := s.core n
  match c.frames with
  | [] => s
  | f :: fs =>
    if f.priv then s.endCtx f.task.ctx 0x0A (ordOf f.task.id)
    else
      let x := s.ctx f.task.ctx
      s.setCore n { c with frames := { f with
        priv := true, tcause := causeWord cause after, tpc := f.pc, tval, tinsn0 := t0, tinsn1 := t1,
        pc := x.codebase + BitVec.ofNat 64 x.trapentry, arrived := true, brkHalted := false } :: fs }

/-- Where `TRET` resumes (R355): `TPC`, or with `.next` after the trapping instruction. -/
def Frame.tretPc (f : Frame) (next : Bool) : Word :=
  if next && !f.tcause.getLsbD 9 then
    f.tpc + BitVec.ofNat 64 (let n := lenBytes (f.tinsn0.extractLsb' 0 2); if n = 0 then 4 else n)
  else f.tpc

/-- Leaves the trap frame. -/
def Frame.tret (f : Frame) (next : Bool) : Frame := { f with priv := false, pc := f.tretPc next }

/-- `TINSN0` and `TINSN1` of an encoded instruction (R353; log 10). -/
def tinsn0 (i : Instr) : Word :=
  match encodeRaw i with
  | some r => r.bits.extractLsb' 0 64
  | none => 0
def tinsn1 (i : Instr) : Word :=
  match encodeRaw i with
  | some r => r.ext
  | none => 0

end Sys2Proof.Machine
end

