-- ==== Sys2Proof/Machine/Flags.lean ====
section
/-!
DEFINITION. The conditions of compares (R145, R146, R238), saturation, and the exception statistics of a core (R200–R202).
-/

namespace Sys2Proof.Machine

/-- A condition of R145 on `n`-bit patterns. -/
def condHolds (n : Nat) (c : Cond) (a b : Nat) : Bool :=
  match c with
  | .eq => a == b
  | .ne => a != b
  | .lt => decide (toS n a < toS n b)
  | .le => decide (toS n a ≤ toS n b)
  | .gt => decide (toS n b < toS n a)
  | .ge => decide (toS n b ≤ toS n a)
  | .ltu => decide (a < b)
  | .leu => decide (a ≤ b)
  | .gtu => decide (b < a)
  | .geu => decide (b ≤ a)
  | .tst => a &&& b != 0
  | .ntst => a &&& b == 0

/-- A combine suffix of R145 with the predicate `c`. -/
def combine (k : Comb) (c r : Bool) : Bool :=
  match k with
  | .set => r
  | .and => c && r
  | .or => c || r

/-- Clamps to 0 … 2^n − 1. -/
def satU (n : Nat) (v : Int) : Nat := if v < 0 then 0 else min v.toNat (2 ^ n - 1)

/-! ## Exception statistics -/

def Core.thr (c : Core) (k : Nat) : BitVec 32 := (fget 0 c.esthr k).extractLsb' 0 32
def Core.act (c : Core) (k : Nat) : BitVec 2 := (fget 0 c.esthr k).extractLsb' 32 2
def Core.hit (c : Core) (k : Nat) : Bool := (fget 0 c.esthr k).getLsbD 34
def Core.cnt (c : Core) (k : Nat) : BitVec 32 := fget 0 c.escnt k

/-- Counts one event of class `k` (R200); a count that becomes greater than its threshold while `HIT` is 0 acts (R202). Where `SWR` has
lowered the threshold below the count, the next event of the class acts (log 32). -/
def Core.countOne (c : Core) (t0 t1 : Word) (k : Nat) : Core :=
  let n := if c.cnt k = 0xFFFFFFFF then 0xFFFFFFFF else c.cnt k + 1
  let c1 := { c with escnt := fset 0 c.escnt k n }
  if (c.thr k).toNat < n.toNat ∧ !c.hit k ∧ !c.crossed.any (fun x => x.cls == k) then
    { c1 with crossed := c1.crossed ++ [{ cls := k, cnt := n, thr := c.thr k, pos := c.espos, t0, t1 }] }
  else c1

def countFrom (e : Exc) (t0 t1 : Word) : List Nat → Core → Core
  | [], c => c
  | k :: ks, c => countFrom e t0 t1 ks (if e.getLsbD k then c.countOne t0 t1 k else c)

/-- Counts the classes that an instruction or a command raised, each once (R200). -/
def Core.count (c : Core) (e : Exc) (t0 t1 : Word) : Core :=
  if c.eswin = 0 then c else countFrom e t0 t1 [0, 1, 2, 3, 4] c

/-- Every instruction issued on the core advances `ESPOS` after its own events are counted (R200). -/
def Core.advancePos (c : Core) : Core := if c.eswin = 0 then c else { c with espos := c.espos + 1 }

def clearHits (es : FMap (BitVec 35)) : FMap (BitVec 35) :=
  [0, 1, 2, 3, 4].foldl (fun m k => fset 0 m k (fget 0 m k &&& 0x3FFFFFFFF)) es

/-- A new window begins (R200, R201). -/
def Core.newWindow (c : Core) : Core := { c with espos := 0, escnt := [], esthr := clearHits c.esthr }

/-- Whether `ESPOS` has reached `ESWIN.LEN`. -/
def Core.windowFull (c : Core) : Bool := c.eswin != 0 && decide (c.eswin.toNat ≤ c.espos.toNat)

end Sys2Proof.Machine
end

