-- ==== Sys2Proof/Machine/Issue.lean ====
section
/-!
DEFINITION. Issue (R110, R111, R119–R121, R132–R137, R391): what every encoded instruction does around its own effect. The
order is: privilege, register range, stall count, guard, the waits, then the instruction's own checks and effect.
-/

namespace Sys2Proof.Machine

/-- A fixed-latency result (R132). -/
structure Write where
  reg : Reg
  val : BitVec 256
  lat : Nat
  deriving DecidableEq, Repr

/-- How an instruction retires: where the pc goes (`none`: to the next instruction), its issue cycles, the exception classes
it raised, its results. -/
structure Ret where
  pc : Option Word
  cycles : Nat
  exc : Exc
  writes : List Write
  deriving DecidableEq, Repr

def Ret.plain : Ret := { pc := none, cycles := 1, exc := 0, writes := [] }

/-- What an instruction whose guard passes does. `wait`: it does not issue, at a boundary (R348), and `pause`: with what it has begun; `hold`: it waits inside
the instruction, so no boundary follows, with what it has begun; `trap`; `abort`: its task or its context has ended without issuing it; `go`: it
issues and the task goes on; `leave`: it issues and the frame has left the stack. -/
inductive Act where
  | wait
  | pause (s : State)
  | hold (s : State)
  | trap (cause : Nat) (tval : Word)
  | abort (s : State)
  | go (s : State) (r : Ret)
  | leave (s : State)
  deriving DecidableEq, Repr

/-! ## Waits -/

/-- The reach of a scope from core `n` (R214). -/
def inReach (n : Nat) (sc : Scope) (d : Dest) : Bool :=
  match d with
  | .peer _ => sc == .system
  | .home key => match sc with
    | .cluster => isVault key && vaultOf key == clusterOf n
    | .die => isVault key && vaultOf key / 34 == dieOf n
    | .package => true
    | .system => true

/-- A line that the core knows to be settled. -/
def Prog.settledKnown : Prog → Bool
  | .settleAcked | .quieting | .quiet => true
  | .flight | .arrived | .acked | .settling | .settled => false
/-- A line that has been acknowledged. -/
def Prog.ackKnown : Prog → Bool
  | .flight | .arrived => false
  | .acked | .settling | .settled | .settleAcked | .quieting | .quiet => true

/-- Whether every bundle that the frame's task has closed has every line in the reach of `sc` settled (R220, R281). -/
def Closed.settledFor (b : Closed) (n : Nat) (sc : Scope) : Bool := b.lines.all (fun l => !inReach n sc l.dest || l.prog.settledKnown)
def State.settledFor (s : State) (n : Nat) (f : Frame) (sc : Scope) : Bool :=
  s.cores.all (fun e => e.2.closed.all (fun b => !f.bundles.contains b.uid || b.settledFor n sc))

/-- Whether the settlement that `COMMIT` or `FENCE.scope` waits for is still outstanding. -/
def State.settleWaits (s : State) (n : Nat) (f : Frame) : Bool :=
  match f.settleWait with
  | some sc => !s.settledFor n f sc
  | none => false

/-- Whether a `v` register of a lane is locked: a queued `MACMV.to` reads it (R137, R258). -/
def Core.vLocked (c : Core) (lane : Nat) (r : VReg) : Bool :=
  (c.lane lane).mq.any (fun q => match q.op with
    | .mvTo _ _ reg _ => reg == r
    | .mwl .. | .mwlv .. | .swap | .mul .. | .pass .. | .weave .. | .zero | .load .. | .store .. | .mv .. | .rd .. => false)
/-- Whether a `w` register is locked: a long instruction in flight reads it (R232). -/
def Core.wLocked (c : Core) (r : VReg) : Bool := c.long.any (fun o => o.lock.contains r)

def Core.locked (c : Core) (f : Frame) (r : Reg) : Bool :=
  match r with
  | .v k => c.vLocked f.lane k
  | .w k => c.wLocked k
  | .g _ | .p _ | .a _ => false

/-- A register that no result ever changes: `g0`, `p0` (R112). -/
def Reg.fixed : Reg → Bool
  | .g k => k == 0
  | .p k => k == 0
  | .a _ | .v _ | .w _ => false

def Reg.num : Reg → Nat
  | .g k => k.toNat
  | .p k => k.toNat
  | .a k => k.toNat
  | .v k => k.toNat
  | .w k => k.toNat

/-- The first general register beyond the frame's range (R121). -/
def Frame.outOfRange (f : Frame) (rs : List Reg) : Option Nat :=
  (rs.find? (fun r => match r with
    | .g k => decide (f.lim ≤ k.toNat)
    | .p _ | .a _ | .v _ | .w _ => false)).map Reg.num

/-- The first register with a pending-write record (R133). -/
def Frame.pending (f : Frame) (rs : List Reg) : Option Nat :=
  (rs.find? (fun r => f.pend.any (fun x => x.reg == r))).map Reg.num

def Frame.awaits (f : Frame) (rs : List Reg) : Bool := rs.any (fun r => f.await.contains r)

/-! ## Retirement -/

/-- Every issued instruction advances `ESPOS`; a boundary follows (R200, R349). -/
def Core.issued (c : Core) : Core := { c.advancePos with passed := false, dbg := { c.dbg with issued := true } }

/-- The pending-write records of an instruction's results. -/
def records (ws : List Write) : List Pend :=
  (ws.filter (fun w => !w.reg.fixed)).map (fun w => { reg := w.reg, val := w.val, due := w.lat })

/-- The top frame after an instruction that retires as `r` says, before its issue cycles have passed. -/
def Frame.retired (f : Frame) (size : Nat) (h : Hdr) (r : Ret) : Frame :=
  { f with pc := r.pc.getD (f.pc + BitVec.ofNat 64 size), pend := f.pend ++ records r.writes, stall := h.stall.toNat,
           arrived := true, brkHalted := false }

/-- The core after its top frame `f` has issued an instruction (R111, R132, R200). -/
def Core.retire (c : Core) (f : Frame) (fs : List Frame) (i : Instr) (h : Hdr) (r : Ret) : Core :=
  let t := tick r.cycles c (f.retired i.size h r)
  (({ t.1 with frames := t.2 :: fs }).count r.exc (tinsn0 i) (tinsn1 i)).issued

def State.retire (s : State) (n : Nat) (i : Instr) (h : Hdr) (r : Ret) : State :=
  match (s.core n).frames with
  | [] => s
  | f :: fs => s.setCore n ((s.core n).retire f fs i h r)

/-- A trap of instruction `i` in the top frame of core `n`; a boundary follows. -/
def State.trapped (s : State) (n : Nat) (i : Instr) (cause : Nat) (tval : Word) : State :=
  let s1 := s.takeTrap n cause false tval (tinsn0 i) (tinsn1 i)
  s1.setCore n { s1.core n with passed := false }

/-- The core has come to a boundary (`wait`) without issuing. -/
def State.stopped (s : State) (n : Nat) : State := s.setCore n { s.core n with passed := false }

/-- An instruction whose queue is full does not issue: it waits at the boundary before it, and nothing of it is checked (R244, R257, R294,
R296, R313, R348). -/
def waitAct (full : Bool) (g : Act) : Act := if full then .wait else g

def Act.next (a : Act) (s : State) (n : Nat) (i : Instr) (h : Hdr) : State :=
  match a with
  | .wait => s.stopped n
  | .pause s1 => s1.stopped n
  | .hold s1 => s1
  | .trap cause tval => s.trapped n i cause tval
  | .abort s1 => s1.stopped n
  | .go s1 r => s1.retire n i h r
  | .leave s1 => s1.setCore n ((s1.core n).issued)

/-- Issues the instruction `i` on core `n`. `regs` are the registers it names, in the order of its fields, `wr` the vector
registers it writes, `priv` whether it is P-marked; `body` is its own effect. -/
def issueOn (n : Nat) (i : Instr) (regs wr : List Reg) (priv : Bool) (s : State) (c : Core) (f : Frame) (h : Hdr)
    (body : Act) : State :=
  let guard : List Reg := if h.gp = 0 then [] else [.p h.gp]
  if s.settleWaits n f then s.stopped n
  else if priv && !f.priv then s.trapped n i 0x05 0
  else match f.outOfRange regs with
    | some k => s.trapped n i 0x06 (BitVec.ofNat 64 k)
    | none =>
      match (if f.schk then f.pending (guard ++ regs) else none) with
      | some k => s.trapped n i 0x07 (BitVec.ofNat 64 k)
      | none =>
        if f.awaits guard then s.stopped n
        else if f.getP h.gp == h.gn then s.retire n i h Ret.plain
        else if f.awaits regs || wr.any (c.locked f) then s.stopped n
        else body.next s n i h

/-- Issue on the current core; a core that is halted, that waits inside an instruction or that runs no frame issues
nothing (R348, R365). -/
def issue (i : Instr) (regs wr : List Reg) (priv : Bool) (s : State) (body : Nat → Core → Frame → Act) : State :=
  let n := s.cur
  let c := s.core n
  match c.frames, i.hdr? with
  | f :: _, some h =>
    if c.dbg.halted || c.reqs.any (fun q => q.inside) then s
    else issueOn n i regs wr priv s c f h (body n c f)
  | _, _ => s

/-- A result of the top frame's own registers, with latency `lat` (R132). -/
def gRes (d : GReg) (v : Word) (lat : Nat) : Write := { reg := .g d, val := v.setWidth 256, lat }
def pRes (d : PReg) (v : Bool) (lat : Nat) : Write := { reg := .p d, val := if v then 1 else 0, lat }
def aRes (d : AReg) (v : BitVec 32) (lat : Nat) : Write := { reg := .a d, val := v.setWidth 256, lat }
def vRes (d : VReg) (v : BitVec 256) (lat : Nat) : Write := { reg := .v d, val := v, lat }

/-- An instruction that does nothing but write results of the frame's registers. -/
def issueRes (i : Instr) (regs : List Reg) (s : State) (res : Frame → List Write) : State :=
  issue i regs [] false s (fun _ _ f => .go s { Ret.plain with writes := res f })

end Sys2Proof.Machine
end

