-- ==== Sys2Proof/Machine/Starts.lean ====
section
/-!
DEFINITION. Where a started task goes and how it is called: core sets (R36), the deal of tiles (R74), `GEOM` (R264), task
identifiers (R37), the dispatcher of a start (R75), engine successors (R277).
-/

namespace Sys2Proof.Machine

/-! ## The context's cores (R71, R72) -/

def coreidVd (w : Word) : Nat := (w.extractLsb' 10 3).toNat
def coreidCl (w : Word) : Nat := (w.extractLsb' 13 5).toNat
def coreidPos (w : Word) : Nat := (w.extractLsb' 18 2).toNat

/-- The physical core of a logical core number. -/
def Ctx.coreOf (x : Ctx) (lcore : Nat) : Option Nat := x.cores[lcore]?

/-- The cores of the table whose `COREID` meets a condition, in logical order. -/
def Ctx.coresWhere (x : Ctx) (p : Word → Bool) : List Nat :=
  ((x.cores.zip x.coreids).filter (fun e => p e.2)).map (fun e => e.1)

/-- `members(vd, cl)` of R74. -/
def Ctx.members (x : Ctx) (mask vd cl : Nat) : List Nat :=
  x.coresWhere (fun w => coreidVd w == vd && coreidCl w == cl && mask.testBit (coreidPos w))

/-- A core set, or the cores of a grid's rectangle (R33, R36). -/
def Ctx.setCores (x : Ctx) (g : Group) : List Nat :=
  x.coresWhere (fun w => decide (g.vdFirst ≤ coreidVd w) && decide (coreidVd w ≤ g.vdLast) &&
    decide (g.clFirst ≤ coreidCl w) && decide (coreidCl w ≤ g.clLast) && g.cmask.testBit (coreidPos w))

def Ctx.group (x : Ctx) (k : Nat) : Group := fget Group.none x.groups k
def Ctx.guard (x : Ctx) (k : Nat) : Guard := fget Guard.unused x.guards k

/-- The cores on which a task of the template may run. -/
def Ctx.placeCores (x : Ctx) (t : Template) : List Nat :=
  if t.place = 1 then (x.coreOf t.placeVal).toList else x.setCores (x.group t.placeVal)

/-- Whether the start of template number `t` is valid: it exists and its core set holds a core (R36, R276). -/
def Ctx.startable (x : Ctx) (t : Nat) : Bool :=
  match x.templates[t]? with
  | some m => !(x.placeCores m).isEmpty
  | none => false

/-- The number of tasks a start of a template starts (R35, R37). -/
def Ctx.startCount (x : Ctx) (t : Nat) : Nat :=
  match x.templates[t]? with
  | some m => if m.place = 0 then (x.group m.placeVal).rows * (x.group m.placeVal).cols else 1
  | none => 0

/-! ## Tiles (R74, R264) -/

/-- The first nonempty slot from `j` on, within `n` tries. -/
def firstSlot (slots : List (List Nat)) : Nat → Nat → List Nat
  | 0, _ => []
  | n + 1, j =>
    let l := slots.getD (j % slots.length) []
    if l.isEmpty then firstSlot slots n (j + 1) else l

def Ctx.slots (x : Ctx) (g : Group) : List (List Nat) :=
  (List.range (g.vdLast + 1 - g.vdFirst)).flatMap (fun i =>
    (List.range (g.clLast + 1 - g.clFirst)).map (fun j => x.members g.cmask (g.vdFirst + i) (g.clFirst + j)))

/-- The number of one bits of a mask of four. -/
def ones4 (m : Nat) : Nat := (m.testBit 0).toNat + (m.testBit 1).toNat + (m.testBit 2).toNat + (m.testBit 3).toNat

/-- `core(t)` of R74. -/
def Ctx.tileCore (x : Ctx) (g : Group) (t : Nat) : Option Nat :=
  let slots := x.slots g
  let k := ones4 g.cmask
  let l := firstSlot slots slots.length (t / k)
  if l.isEmpty then none else l[(t % k) % l.length]?

/-- The tile of a grid at (ty, tx), and its core. -/
def Group.tiles (g : Group) : Nat := g.rows * g.cols
def Ctx.sole (x : Ctx) (g : Group) (t : Nat) : Bool :=
  (List.range g.tiles).all (fun u => u == t || x.tileCore g u != x.tileCore g t)

/-- `GEOM` of tile `t` of the grid in group `grp` (R264). -/
def Ctx.geomOf (x : Ctx) (grp t : Nat) : Word :=
  let g := x.group grp
  let ty := t / g.cols
  let tx := t % g.cols
  let b : Bool → BitVec 1 := BitVec.ofBool
  (0#14 ++ 1#1 ++ b (x.sole g t) ++ b (ty == 0) ++ b (ty + 1 == g.rows) ++ b (tx == 0) ++ b (tx + 1 == g.cols) ++
    BitVec.ofNat 5 (g.rows - 1) ++ BitVec.ofNat 3 (g.cols - 1) ++ BitVec.ofNat 5 ty ++ BitVec.ofNat 3 tx ++
    BitVec.ofNat 10 (32 * ty) ++ BitVec.ofNat 10 (128 * tx) ++ BitVec.ofNat 8 grp : BitVec 64)

/-! ## Identifiers (R37) -/

def childPath (path : BitVec 32) (k : Nat) : BitVec 32 := path * 33 + BitVec.ofNat 32 (k + 1)
def taskId (ord path : BitVec 32) : Word := ord ++ path
def pathOf (id : Word) : BitVec 32 := id.extractLsb' 0 32
/-- The identifiers of `n` children from spawn index `k` on. -/
def childIds (id : Word) (k n : Nat) : List Word :=
  (List.range n).map (fun j => taskId (ordOf id) (childPath (pathOf id) (k + j)))

/-! ## Releases (R75) -/

/-- A list without repeats, in the order of the first occurrences. -/
def distinct (l : List Nat) : List Nat := l.foldl (fun t k => if t.contains k then t else t ++ [k]) []

/-- The clusters of a set that hold a context core of the set, in order (R75). -/
def Ctx.setClusters (x : Ctx) (g : Group) : List Nat := distinct ((x.setCores g).map clusterOf)

/-- The task that identifier `id` names, number `j` of its start, with its dispatcher. -/
def Ctx.placeTask (x : Ctx) (ctx : Nat) (st : Start) (set : IncSet) (m : Template) (j : Nat) (id : Word) :
    Option (Task × Nat) :=
  let base : Task := { ctx, tmpl := st.tmpl, id, args := st.args, set, geom := 0, core := none, vto := 0, cont := none }
  match st.tile with
  | some (c, geom) => some ({ base with core := some c, geom }, clusterOf c)
  | none =>
    if m.place = 0 then
      match x.tileCore (x.group m.placeVal) j with
      | some c => some ({ base with core := some c, geom := x.geomOf m.placeVal j }, clusterOf c)
      | none => none
    else if m.place = 1 then
      match x.coreOf m.placeVal with
      | some c => some ({ base with core := some c }, clusterOf c)
      | none => none
    else
      let cl := x.setClusters (x.group m.placeVal)
      match cl[(pathOf id).toNat % cl.length]? with
      | some k => some (base, k)
      | none => none

/-- The tasks of a start, each with its dispatcher's cluster. -/
def Ctx.startTasks (x : Ctx) (ctx : Nat) (st : Start) (set : IncSet) : List (Task × Nat) :=
  match x.templates[st.tmpl]? with
  | some m => (st.ids.zip (List.range st.ids.length)).filterMap (fun e => x.placeTask ctx st set m e.2 e.1)
  | none => []

/-- Sends the tasks of a start to their dispatchers; a context that has ended starts nothing. -/
def State.release (s : State) (src ctx : Nat) (st : Start) (set : IncSet) : State :=
  let x := s.ctx ctx
  if x.state ≠ 2 then s
  else { s with releases := s.releases ++ (x.startTasks ctx st set).map (fun e => { task := e.1, cluster := e.2, src, aged := false, skips := 0, sentAt := 2 * s.uid }) }

/-- The members of a task group in template order (R34). -/
def Ctx.groupMembers (x : Ctx) (grp : Nat) : List Nat :=
  (List.range x.templates.length).filter (fun t => match x.templates[t]? with
    | some m => m.groups.contains grp
    | none => false)

/-! ## Starts by a running task (R276, R277) -/

/-- The argument registers of a template. -/
def Template.argRegs (m : Template) : List Nat := (List.range m.argCount).map (fun j => m.argFirst + j)

/-- The values of the parent's registers of the same numbers; beyond its range, zero. -/
def Frame.passArgs (f : Frame) (m : Template) : FMap Word :=
  m.argRegs.foldl (fun a r => fset 0 a r (if r < f.lim then f.getG (BitVec.ofNat 5 r) else 0)) []

/-- The registers that the top frame of the current core passes to templates: the instruction reads them at issue (R133, R134). -/
def State.argRegs (s : State) (ts : Frame → List Nat) : List Reg :=
  match (s.core s.cur).frames with
  | [] => []
  | f :: _ => (ts f).flatMap (fun t => match (s.ctx f.task.ctx).templates[t]? with
    | some m => (m.argRegs.filter (fun r => decide (r < f.lim))).map (fun r => .g (BitVec.ofNat 5 r))
    | none => [])
/-- Those of the successor that register `gs` names. -/
def State.succRegs (s : State) (gs : GReg) : List Reg :=
  s.argRegs (fun f => if gs = 0 ∨ 4096 ≤ (f.getG gs).toNat then [] else [(f.getG gs).toNat])

/-- The first argument register alone. -/
def firstArg (m : Template) (v : Word) : FMap Word := if m.argCount = 0 then [] else fset 0 [] m.argFirst v

/-- A start of template `t` by frame `f` with the given arguments, and the frame with its spawn index advanced. -/
def Ctx.startBy (x : Ctx) (f : Frame) (t : Nat) (args : FMap Word) : Start × Frame :=
  let n := x.startCount t
  ({ tmpl := t, ids := childIds f.task.id f.spawnK n, args, tile := none }, { f with spawnK := f.spawnK + n })

/-- Starts of several templates in turn. -/
def Ctx.startsBy (x : Ctx) (argsOf : Template → FMap Word) : List Nat → Frame → List Start × Frame
  | [], f => ([], f)
  | t :: ts, f =>
    let r := x.startBy f t ((x.templates[t]?.map argsOf).getD [])
    let q := x.startsBy argsOf ts r.2
    (r.1 :: q.1, q.2)

/-- What an engine command's successor register names (R277): nothing, a start, or a trap cause. `cause` is the cause that
the instruction's chapter gives for the register's value. -/
inductive Succ where
  | none
  | some (st : Start) (f : Frame)
  | bad (cause : Nat)
  deriving DecidableEq, Repr

def Ctx.successor (x : Ctx) (f : Frame) (gs : GReg) (cause : Nat) : Succ :=
  if gs = 0 then .none
  else
    let v := f.getG gs
    let t := (v.extractLsb' 0 12).toNat
    if v.toNat / 4096 ≠ 0 then .bad cause
    else match x.templates[t]? with
      | none => .bad cause
      | Option.some m =>
        if !x.startable t then .bad 0x26
        else
          let r := x.startBy f t (f.passArgs m)
          .some r.1 r.2

/-- The successor of `MPASS` and `MWEAVE` (R267): a tile task of the issuing task's grid is one task, bound to the issuing
task's tile and core. -/
def Ctx.tileSuccessor (x : Ctx) (f : Frame) (n : Nat) (gs : GReg) : Succ :=
  match x.successor f gs 0x24 with
  | .some st g =>
    match x.templates[st.tmpl]? with
    | Option.some m =>
      if m.place = 0 ∧ f.geom.getLsbD 49 ∧ (f.geom.extractLsb' 0 8).toNat = m.placeVal then
        .some { st with ids := childIds f.task.id f.spawnK 1, tile := Option.some (n, f.geom) } { f with spawnK := f.spawnK + 1 }
      else .some st g
    | Option.none => .some st g
  | r => r

end Sys2Proof.Machine
end

