-- ==== Sys2Proof/Machine/Operands.lean ====
section
/-!
DEFINITION. Operand forms: pointer operands and scratchpad ranges (R113, R136, R204, R245, R258), the kinds of address, vaults
and translation (R159–R169), generator windows (R175–R179).
-/

namespace Sys2Proof.Machine

/-! ## Pointer operands (R113) -/

def Ptr.reg : Ptr → AReg
  | .plain n => n
  | .inc n => n
  | .step n _ => n

/-- The scratchpad address: the register's value at issue. -/
def Frame.ptr (f : Frame) (p : Ptr) : Nat := (f.getA (Ptr.reg p)).toNat

/-- What the field writes to its pointer register; `adv` is the distance that `PMODE` 1 advances. -/
def Frame.ptrStep (f : Frame) (p : Ptr) (adv : Nat) : List Write :=
  match p with
  | .plain _ => []
  | .inc n => [aRes n (f.getA n + BitVec.ofNat 32 adv) 1]
  | .step n k => [aRes n (f.getA n + k.signExtend 32) 1]

/-! ## Scratchpad rights (R28, R204) -/

/-- The outcome of an operand check: a trap with its cause and value, or a value. -/
inductive Chk (α : Type) where
  | ok (v : α)
  | trap (cause : Nat) (tval : Word)
  deriving DecidableEq, Repr

def Chk.bind {α β : Type} (x : Chk α) (g : α → Chk β) : Chk β :=
  match x with
  | .ok v => g v
  | .trap c t => .trap c t

/-- Whether `n` bytes at `a` lie in one bank, within the static area or the frame's own grant of that bank, byte by byte;
no bytes need only a valid address. -/
def Frame.padRange (f : Frame) (x : Ctx) (a n : Nat) : Bool :=
  let b := padBank a
  let off := padOff a
  let stat := 1024 * fget 0 x.stat b
  let lo := 1024 * fget 0 f.pb b
  let hi := lo + 1024 * fget 0 f.need b
  decide (b < 3) && decide (off < bankBytes) && decide (off + n ≤ bankBytes) &&
    (decide (n = 0) || decide (off + n ≤ stat) || (decide (lo ≤ off) && decide (off + n ≤ hi)) ||
      (decide (off ≤ stat) && decide (lo ≤ stat) && decide (off + n ≤ hi)))

/-- A scratchpad access of `n` bytes (R204): the range first, then the alignment. -/
def Frame.padCheck (f : Frame) (x : Ctx) (a n : Nat) : Chk Unit :=
  if !f.padRange x a n then .trap 0x18 (BitVec.ofNat 64 a)
  else if a % n ≠ 0 then .trap 0x19 (BitVec.ofNat 64 a)
  else .ok ()

/-- A range of one bank: range, then alignment to `al`. -/
def Frame.rangeCheck (f : Frame) (x : Ctx) (a n al : Nat) : Chk Unit :=
  if !f.padRange x a n then .trap 0x18 (BitVec.ofNat 64 a)
  else if a % al ≠ 0 then .trap 0x19 (BitVec.ofNat 64 a)
  else .ok ()

/-- `TVAL` of a trap of cause `c` at address `a` (R353). -/
def tvalOf (c a : Nat) : Word := if c = 0x18 ∨ c = 0x19 then BitVec.ofNat 64 a else 0

/-- A range of an engine command (R391): its bytes in the bank where it starts, its alignment to `al` (cause `ca`), and whether it
ends in that bank (cause `cb`). -/
def Frame.bankCheck (f : Frame) (x : Ctx) (a n al ca cb : Nat) : Chk Unit :=
  let room := bankBytes - padOff a
  if !f.padRange x a (min n room) then .trap 0x18 (BitVec.ofNat 64 a)
  else if a % al ≠ 0 then .trap ca (tvalOf ca a)
  else if room < n then .trap cb (tvalOf cb a)
  else .ok ()

/-- Whether an object of `n` bytes lies wholly in the static area (R286). -/
def Ctx.inStatic (x : Ctx) (a n : Nat) : Bool :=
  decide (padBank a < 3) && decide (padOff a + n ≤ 1024 * fget 0 x.stat (padBank a))

/-- Whether a write of `n` bytes touches a guarded region (R45); no bytes touch none. -/
def Ctx.guarded (x : Ctx) (a n : Nat) : Bool :=
  decide (0 < n) && x.guards.any (fun e => e.2.kind == 2 && e.2.bank == padBank a && decide (padOff a < e.2.off + e.2.len) &&
    decide (e.2.off < padOff a + n))

/-- The frame after writing a scratchpad range (R45). -/
def Frame.wrote (f : Frame) (x : Ctx) (a n : Nat) : Frame := { f with horizon := f.horizon || x.guarded a n }

def accessesIn (b : Nat) (as : List (Nat × Nat)) : Nat := as.foldl (fun k a => if padBank a.1 = b then k + a.2 else k) 0
/-- The issue cycles of accesses: addresses, and how many accesses each makes (R136). -/
def bankCycles (as : List (Nat × Nat)) : Nat := max 1 (max (accessesIn 0 as) (max (accessesIn 1 as) (accessesIn 2 as)))

/-! ## Ranges of engine commands (R245, R258, R295) -/

/-- A scratchpad range: address and length. -/
abbrev Range := Nat × Nat

/-- Whether two ranges share a byte; an empty one shares none. -/
def overlap (x y : Range) : Bool := x.2 != 0 && y.2 != 0 && decide (x.1 < y.1 + y.2) && decide (y.1 < x.1 + x.2)
def overlaps (xs ys : List Range) : Bool := xs.any (fun x => ys.any (overlap x))

def fmtBytes (f : Fmt) : Nat := f.width / 8
/-- The bytes of an activation tile (R250). -/
def tileBytes (af : Fmt) : Nat := 32 * 128 * fmtBytes af
/-- Code and scale bytes of one column (R251). -/
def colCode (wf : Fmt) : Nat := if wf = .w4 then 64 else if wf = .w3 then 48 else 128
def colScale (wf : Fmt) : Nat := if wf = .w4 ∨ wf = .w3 then 4 else 0
def imageBytes (wf : Fmt) (cnt : Nat) : Nat := cnt * (colCode wf + colScale wf)

def ChainCmd.srcs (q : ChainCmd) : List Range := [(q.ps0, q.n * fmtBytes q.src), (q.ps1, q.n * fmtBytes q.src)]
def ChainCmd.dsts (q : ChainCmd) : List Range := [(q.pd, q.n * fmtBytes q.dst)]

def MatOp.srcs : MatOp → List Range
  | .mwl wf a _ cnt => [(a, imageBytes wf cnt)]
  | .mul af _ a => [(a, tileBytes af)]
  | .pass af _ _ a imgs => [(a, imgs.length * tileBytes af)]
  | .weave af _ a _ => [(a, tileBytes af)]
  | .load a _ rows => [(a, 512 * rows)]
  | .mwlv .. | .swap | .zero | .store .. | .mv .. | .mvTo .. | .rd .. => []
def MatOp.dsts : MatOp → List Range
  | .weave af _ _ w => [(w.buf, tileBytes af)]
  | .store f _ a _ rows _ => [(a, rows * 128 * fmtBytes f)]
  | .mwl .. | .mwlv .. | .swap | .mul .. | .pass .. | .zero | .load .. | .mv .. | .mvTo .. | .rd .. => []

def CpyCmd.srcs (q : CpyCmd) : List Range := if q.kind = .f then [(q.pad, q.n)] else []
def CpyCmd.dsts (q : CpyCmd) : List Range :=
  (if q.kind = .f then [] else [(q.pad, q.n)]) ++ (match q.word with | some w => [(w.1, 8)] | none => [])

/-- The source and the destination ranges of every command queued or running on the core. -/
def Core.srcRanges (c : Core) : List Range :=
  c.lanes.flatMap (fun l => l.2.cq.flatMap ChainCmd.srcs ++ l.2.mq.flatMap (fun q => q.op.srcs)) ++ c.copyq.flatMap CpyCmd.srcs
def Core.dstRanges (c : Core) : List Range :=
  c.lanes.flatMap (fun l => l.2.cq.flatMap ChainCmd.dsts ++ l.2.mq.flatMap (fun q => q.op.dsts)) ++ c.copyq.flatMap CpyCmd.dsts

/-- Whether an access that reads and writes the given ranges waits for a command (R245). -/
def Core.rangeWaits (c : Core) (reads writes : List Range) : Bool :=
  overlaps (reads ++ writes) c.dstRanges || overlaps writes c.srcRanges

/-! ## Kinds of address (R159, R161, R163) -/

/-- Where a byte of a memory address is: a home line, the byte's offset in it and the page of a translated access, or a window. -/
inductive Place where
  | line (key off : Nat) (page : Option Nat)
  | window (w : Nat)
  deriving DecidableEq, Repr

/-- The outcome of resolving an address: its place, a trap, a page fault, the end of the context with a cause: 0x04 for an uncorrectable
page-table line, 0x10 for a page that the host has given to another context (R2). -/
inductive Res where
  | ok (p : Place)
  | trap (cause : Nat)
  | fault (page : Nat)
  | dead (cause : Nat)
  deriving DecidableEq, Repr

/-- The physical cluster of logical cluster `cl` of virtual die `vd`, if the context holds every enabled core of it, and there is one
(R161; log 102). -/
def State.vaultCluster (s : State) (x : Ctx) (vd cl : Nat) : Option Nat :=
  let e := fget VDie.none x.vdies vd
  let d := s.die e.pdie
  let pc := (d.lcmap.extractLsb' (6 * cl) 6).toNat
  if !x.vdmask.getLsbD vd || 32 ≤ cl || 34 ≤ pc || !d.cluse.getLsbD pc then none
  else
    let k := 34 * e.pdie + pc
    let enabled := (List.range 4).filter (fun p => !d.corelost.getLsbD (4 * pc + p))
    if enabled ≠ [] ∧ enabled.all (fun p => x.cores.contains (4 * k + p)) then some k else none

/-- The line of a vault address (R161). -/
def State.vaultLine (s : State) (x : Ctx) (a : Word) : Option Nat :=
  let off := (a.extractLsb' 0 25).toNat
  if 0x1800000 ≤ off then none
  else (s.vaultCluster x (a.extractLsb' 30 3).toNat (a.extractLsb' 25 5).toNat).map (fun k => vaultKey k off)

def isVaultAddr (a : Word) : Bool := decide (0xFFFFFFFE00000000 ≤ a.toNat)
def isTranslated (a : Word) : Bool := decide (a.toNat < 2 ^ 48)

/-- The window whose span holds a translated address; the lowest index decides (R166). -/
def GenWin.covers (w : GenWin) (a : Nat) : Bool := decide (w.base ≤ a) && decide (a < w.base + 65536 * w.npages)
def Ctx.window? (x : Ctx) (a : Nat) : Option Nat :=
  (List.range 16).find? (fun k => (fget GenWin.absent x.windows k).covers a)
def Ctx.inHeap (x : Ctx) (a : Word) : Bool := decide (x.heapbase.toNat ≤ a.toNat) && decide (a.toNat < x.heaplimit.toNat)

/-! ## Page tables and TLBs (R167–R169) -/

/-- An entry of a table in main memory: 8 bytes, read physically. -/
def Memory.entry (m : Memory) (pa : Nat) : Word := wordOf (m.physRead pa 8)
def dirValid (e : Word) : Bool := e.getLsbD 0 && e.extractLsb' 1 13 == 0 && e.extractLsb' 40 24 == 0
def leafValid (e : Word) : Bool := e.getLsbD 0 && e.extractLsb' 3 13 == 0 && e.extractLsb' 40 24 == 0

/-- The outcome of a translation: an entry, no valid leaf, or an uncorrectable line of a table (R165). -/
inductive Tr (α : Type) where
  | hit (v : α)
  | miss
  | bad
  deriving DecidableEq, Repr

/-- Whether a line of main memory is uncorrectable. -/
def Memory.isBad (m : Memory) (key : Nat) : Bool := fget false m.bad key

/-- The walk (R167): the leaf entry of a page and its address. -/
def Memory.walk (m : Memory) (root page : Nat) : Tr (Word × Nat) :=
  let a1 := root + 8 * (page / 2 ^ 21 % 2048)
  let e1 := m.entry a1
  if m.isBad (a1 / 64) then .bad
  else if !dirValid e1 then .miss
  else
    let a2 := (e1.extractLsb' 14 26).toNat * 2 ^ 14 + 8 * (page / 2 ^ 10 % 2048)
    let e2 := m.entry a2
    if m.isBad (a2 / 64) then .bad
    else if !dirValid e2 then .miss
    else
      let a3 := (e2.extractLsb' 14 26).toNat * 2 ^ 14 + 8 * (page % 1024)
      let e3 := m.entry a3
      if m.isBad (a3 / 64) then .bad else if leafValid e3 then .hit (e3, a3) else .miss

/-- Sets `DIRTY` in a leaf entry and changes no other bit (R169). -/
def Memory.setDirty (m : Memory) (leaf : Nat) : Memory :=
  m.physWrite leaf (bytesOf 8 (m.entry leaf ||| 4))

/-- The dirty state of a TLB entry goes to its leaf, as long as the tables at `root` still lead to that leaf: what the host has made of the
memory of a removed table (R173) is not written, nor is a line that is uncorrectable (R2; log 16, log 98). -/
def Memory.dirtyEntry (m : Memory) (root : Nat) (e : Tlb) : Memory :=
  match m.walk root e.page with
  | .hit l => if l.2 = e.leaf then m.setDirty e.leaf else m
  | .miss | .bad => m

def tlbFind (l : List Tlb) (ctx page : Nat) : Option Tlb := l.find? (fun e => e.ctx == ctx && e.page == page)
def tlbDrop (l : List Tlb) (ctx page : Nat) : List Tlb := l.filter (fun e => !(e.ctx == ctx && e.page == page))

/-- Puts an entry into a die TLB; the entry that a full one replaces is a free choice (log 9), and its dirty state goes to
its leaf. -/
def State.dieTlbPut (s : State) (d : Nat) (e : Tlb) : State :=
  let x := s.die d
  let old := tlbFind x.tlb e.ctx e.page
  let e1 := { e with dirty := e.dirty || (match old with | some o => o.dirty | none => false) }
  let l := tlbDrop x.tlb e.ctx e.page
  if l.length < 4096 then s.setDie d { x with tlb := l ++ [e1] }
  else
    let k := Config.pick s.draws % l.length
    let s1 := { s.setDie d { x with tlb := l.eraseIdx k ++ [e1] } with draws := s.draws + 1 }
    match l[k]? with
    | some v => if v.dirty then s1.setMem (s1.mem.dirtyEntry (s1.ctx v.ctx).ptroot.toNat v) else s1
    | none => s1

/-- Passes the dirty state of a core entry to the die TLB (R169). -/
def State.dirtyToDie (s : State) (d : Nat) (e : Tlb) : State := if e.dirty then s.dieTlbPut d e else s

/-- Puts an entry into a core TLB; likewise. -/
def State.coreTlbPut (s : State) (n : Nat) (e : Tlb) : State :=
  let c := s.core n
  if c.tlb.length < 64 then s.setCore n { c with tlb := c.tlb ++ [e] }
  else
    let k := Config.pick s.draws % c.tlb.length
    let s1 := { s.setCore n { c with tlb := c.tlb.eraseIdx k ++ [e] } with draws := s.draws + 1 }
    match c.tlb[k]? with
    | some v => s1.dirtyToDie (dieOf n) v
    | none => s1

/-- Translates a page for core `n` (R168), with the TLBs filled on the way. -/
def State.translate (s : State) (n ctx page : Nat) : Tr Tlb × State :=
  match tlbFind (s.core n).tlb ctx page with
  | some e => (.hit e, s)
  | none =>
    match tlbFind (s.die (dieOf n)).tlb ctx page with
    | some e =>
      let e1 := { e with dirty := false }
      (.hit e1, s.coreTlbPut n e1)
    | none =>
      match s.mem.walk (s.ctx ctx).ptroot.toNat page with
      | .miss => (.miss, s)
      | .bad => (.bad, s)
      | .hit (leaf, at_) =>
        let e : Tlb := { ctx, page, frame := (leaf.extractLsb' 16 24).toNat, wr := leaf.getLsbD 1, dirty := false, leaf := at_ }
        (.hit e, (s.dieTlbPut (dieOf n) e).coreTlbPut n e)

/-- A store to the page commits: dirty state gathers in its TLB entry (R169). -/
def State.markDirty (s : State) (n ctx page : Nat) : State :=
  let r := s.translate n ctx page
  let c := r.2.core n
  r.2.setCore n { c with tlb := c.tlb.map (fun e => if e.ctx = ctx ∧ e.page = page then { e with dirty := true } else e) }

/-! ## Memory of other contexts (R2) -/

/-- The entries of a table of `n` entries at `base` that a walk can use: those with a byte that is not 0, in a line that is not
uncorrectable. -/
def Memory.entriesAt (m : Memory) (base n : Nat) : List Word :=
  let slots := ((m.newer.filter (fun c => decide (base ≤ c.1) && decide (c.1 < base + 8 * n))).map (fun c => (c.1 - base) / 8)).eraseDups
  (slots.filter (fun k => !m.isBad ((base + 8 * k) / 64))).map (fun k => m.entry (base + 8 * k))

/-- The tables that the valid entries of a directory name (R167). -/
def Memory.tablesOf (m : Memory) (dir : Nat) : List Nat :=
  ((m.entriesAt dir 2048).filter dirValid).map (fun e => (e.extractLsb' 14 26).toNat * 2 ^ 14)

/-- Whether bytes of main memory belong to a context: to its heap, its overflow area, its page tables or a page that they map. -/
def Ctx.holds (x : Ctx) (m : Memory) (r : Range) : Bool :=
  let second := m.tablesOf x.ptroot.toNat
  let third := second.flatMap m.tablesOf
  let pages := ((third.flatMap (fun t => m.entriesAt t 1024)).filter leafValid).map (fun e => (e.extractLsb' 16 24).toNat * 65536)
  overlap ((x.heapbase + x.heapoff).toNat, x.heaplimit.toNat - x.heapbase.toNat) r ||
  overlap (x.ovflbase.toNat, 4800 - 1024 * x.spillkb) r ||
  (x.ptroot.toNat :: second).any (fun t => overlap (t, 2 ^ 14) r) || third.any (fun t => overlap (t, 2 ^ 13) r) ||
  pages.any (fun p => overlap (p, 65536) r)

/-- Whether a live context other than `k` holds bytes of a range of main memory. -/
def State.foreign (s : State) (k : Nat) (r : Range) : Bool :=
  (List.range 64).any (fun j => j != k && (s.ctx j).state == 2 && (s.ctx j).holds s.mem r)

/-- Whether frame `fr`, which context `k` has used for a page, is no longer what its page tables give for that page, and is memory that
another live context holds: the host has broken R173, and context `k` ends before it touches what is another's (R2, R356; log 16). -/
def State.breach (s : State) (k page fr : Nat) : Bool :=
  (match s.mem.walk (s.ctx k).ptroot.toNat page with
    | .hit e => (e.1.extractLsb' 16 24).toNat != fr
    | .miss | .bad => true) && s.foreign k (fr * 65536, 65536)

/-! ## Resolving an address -/

/-- The kind of an address (R159, R166): none, with its trap; a line that needs no translation; a window; a page. -/
inductive Kind where
  | bad (cause : Nat)
  | line (key off : Nat)
  | window (w : Nat)
  | paged (page : Nat)
  deriving DecidableEq, Repr

/-- The kind of address `a`, for a write if `wr` (R161, R163, R175, R182). -/
def State.kind (s : State) (x : Ctx) (wr : Bool) (a : Word) : Kind :=
  if isVaultAddr a then
    match s.vaultLine x a with
    | some k => .line k (a.toNat % 64)
    | none => .bad 0x11
  else if !isTranslated a then .bad 0x11
  else match x.window? a.toNat with
    | some w =>
      if !(fget GenWin.absent x.windows w).valid then .bad 0x14
      else if wr then .bad 0x12
      else .window w
    | none =>
      if x.inHeap a then
        let pa := (a + x.heapoff).toNat
        if pa < 2 ^ 40 then .line (pa / 64) (pa % 64) else .bad 0x11
      else .paged (a.toNat / 65536)

/-- The end of a context in an access of a task, with the task's ordinal unless the cause is the host's (R62). -/
def State.endFor (s : State) (cause : Nat) (t : Task) : State := s.endCtx t.ctx cause (if cause = 0x10 then 0 else ordOf t.id)

/-- The place of an address of a given kind for an access of core `n`; the TLBs are filled on the way. A page whose leaf does
not permit a store faults a write (R167). -/
def State.place (s : State) (n ctx : Nat) (wr : Bool) (a : Word) (k : Kind) : Res × State :=
  match k with
  | .bad c => (.trap c, s)
  | .line key off => (.ok (.line key off none), s)
  | .window w => (.ok (.window w), s)
  | .paged page =>
    let r := s.translate n ctx page
    match r.1 with
    | .hit e => if s.breach ctx page e.frame then (.dead 0x10, r.2)
        else if wr && !e.wr then (.fault page, r.2)
        else (.ok (.line (e.frame * 1024 + a.toNat % 65536 / 64) (a.toNat % 64) (some page)), r.2)
    | .miss => (.fault page, r.2)
    | .bad => (.dead 0x04, r.2)

/-- The place of address `a` for an access of core `n`, a write if `wr`. -/
def State.resolve (s : State) (n ctx : Nat) (wr : Bool) (a : Word) : Res × State :=
  s.place n ctx wr a (s.kind (s.ctx ctx) wr a)

/-- Whether the first and the last of `n` bytes, of the given kinds, lie in one line (R208); windows have no lines. -/
def Kind.oneLine (n : Nat) : Kind → Kind → Bool
  | .line k o, .line l p => k == l && p + 1 == o + n
  | .window v, .window w => v == w
  | .paged g, .paged h => g == h
  | _, _ => false

/-- The kind of an address operand of `n` bytes, then its alignment to `al` and its lying in one line (R208, R391 order 3). -/
def State.addrChk (s : State) (x : Ctx) (wr : Bool) (a : Word) (n al : Nat) : Chk Kind :=
  let k := s.kind x wr a
  let last := s.kind x wr (a + BitVec.ofNat 64 (n - 1))
  match k, last with
  | .bad c, _ => .trap c a
  | _, .bad c => .trap c a
  | _, _ => if a.toNat % al = 0 ∧ k.oneLine n last then .ok k else .trap 0x19 a

/-- The trap of a piece (address, length) whose first or last byte has no kind. -/
def State.kindTrap (s : State) (x : Ctx) (wr : Bool) (e : Word × Nat) : Option (Nat × Word) :=
  match s.kind x wr e.1, s.kind x wr (e.1 + BitVec.ofNat 64 (e.2 - 1)) with
  | .bad c, _ => some (c, e.1)
  | _, .bad c => some (c, e.1)
  | _, _ => none

/-- Whether an aligned piece lies in more than one line of memory. -/
def State.straddles (s : State) (x : Ctx) (wr : Bool) (e : Word × Nat) : Bool :=
  decide (e.1.toNat % 64 + e.2 ≤ 64) && !(s.kind x wr e.1).oneLine e.2 (s.kind x wr (e.1 + BitVec.ofNat 64 (e.2 - 1)))

/-- The kinds of the pieces of a range (R391, order 3): the first piece that has none decides; then an aligned piece that does not lie in
one line is misaligned (log 80). -/
def State.kindAll (s : State) (x : Ctx) (wr : Bool) (es : List (Word × Nat)) : Chk (List (Word × Kind)) :=
  match es.findSome? (s.kindTrap x wr) with
  | some t => .trap t.1 t.2
  | none => match es.find? (s.straddles x wr) with
    | some e => .trap 0x19 e.1
    | none => .ok (es.map (fun e => (e.1, s.kind x wr e.1)))

/-- The places of lines whose kinds are known, translated in order; the first fault decides (R391, order 4). -/
def State.placeAll (s : State) (n ctx : Nat) (wr : Bool) : List (Word × Kind) → Except (Res × Word) (List Place) × State
  | [] => (.ok [], s)
  | e :: es =>
    let r := s.place n ctx wr e.1 e.2
    match r.1 with
    | .ok p =>
      let q := r.2.placeAll n ctx wr es
      (match q.1 with
        | .ok ps => .ok (p :: ps)
        | .error e => .error e, q.2)
    | .trap c => (.error (.trap c, e.1), r.2)
    | .fault g => (.error (.fault g, e.1), r.2)
    | .dead c => (.error (.dead c, e.1), r.2)

/-- The addresses of `n` consecutive lines. -/
def lineAddrs (a : Word) (n : Nat) : List Word := (List.range n).map (fun k => a + BitVec.ofNat 64 (64 * k))
/-- The same as pieces of 64 bytes. -/
def linePieces (as : List Word) : List (Word × Nat) := as.map (fun a => (a, 64))

/-- Cuts `n` bytes at `a` into parts within lines; `k` bounds their number. -/
def lineParts : Nat → Nat → Nat → List (Nat × Nat)
  | 0, _, _ => []
  | k + 1, a, n =>
    if n = 0 then []
    else
      let m := min n (64 - a % 64)
      (a, m) :: lineParts k (a + m) (n - m)
/-- The pieces of `n` bytes at an address. -/
def piecesOf (a : Word) (n : Nat) : List (Word × Nat) :=
  (lineParts (n / 64 + 2) a.toNat n).map (fun p => (BitVec.ofNat 64 p.1, p.2))

/-! ## Generator windows (R176–R179) -/

/-- The rational 2/π, π/2 and the series of R178, as multiples of 2^−128 and 2^−64. -/
def twoOverPi : Int := 0xA2F9836E4E441529FC2757D1F534DDC0
def halfPi : Int := 0x1921FB54442D18469
def coef (d : Nat) : Int := ((2 ^ 65 + d) / (2 * d) : Nat)

/-- `trunc64` of a product of two multiples of 2^−64. -/
def mulT (x y : Int) : Int := x * y / 2 ^ 64

def rotSin (y z : Int) : Int :=
  mulT y (2 ^ 64 + mulT z (-coef 6 + mulT z (coef 120 + mulT z (-coef 5040 + mulT z (coef 362880)))))
def rotCos (z : Int) : Int :=
  2 ^ 64 + mulT z (-coef 2 + mulT z (coef 24 + mulT z (-coef 720 + mulT z (coef 40320 - mulT z (coef 3628800)))))

/-- The signed value of an FP32 pattern as m × 2^e, e fixed at −149. -/
def f32Fixed (x : Nat) : Int :=
  match unpack .f32 x with
  | .fin n m e => atScale n m e (-149)
  | .inf _ => 0
  | .nan _ => 0

/-- `floor` of v × 2^−k, for k ≥ 0. -/
def floorShift (v : Int) (k : Nat) : Int := v / (2 ^ k : Int)

/-- The value of `ROTARY` as a multiple of 2^−64 (R178). -/
def rotary (pos : Int) (freq : Nat) (sine : Bool) : Int :=
  let u := pos * f32Fixed freq * twoOverPi            -- a multiple of 2^-277
  let q := floorShift (u + 2 ^ 276) 277
  let r := floorShift (u - q * 2 ^ 277) 213
  let y := mulT r halfPi
  let z := mulT y y
  let sn := rotSin y z
  let cs := rotCos z
  let k := (q % 4).toNat
  if sine then [sn, cs, -sn, -cs].getD k 0 else [cs, -sn, -cs, sn].getD k 0

/-- `round1` and `sat` of R177 for the integer v × 2^q; an exact zero is +0 (log 103). -/
def winValue (f : Fmt) (ovf : Word) (v q : Int) : Nat :=
  if f.isInt then toU f.width (satS f.width (v * 2 ^ q.toNat)) else (roundInt f .rn (some ovf) v q false).1

/-- The pattern of element `n` of a window (R177–R179). -/
def GenWin.elem (w : GenWin) (key : BitVec 128) (ovf : Word) (n : Nat) : Nat :=
  let f := fmtOfCode w.efmt
  let i := n / w.cols
  let j := n % w.cols
  match w.func with
  | 1 =>
    let st := (w.p0.extractLsb' 0 32).toNat
    let sp := (w.p0.extractLsb' 32 32).toNat
    if f.isInt then winValue f ovf (toS 32 st + toS 32 sp * n) 0
    else winValue f ovf (f32Fixed st + f32Fixed sp * n) (-149)
  | 2 => winValue f ovf (if w.p0.getLsbD 0 then j else i) 0
  | 3 =>
    let d := toS 32 (w.p0.extractLsb' 0 32).toNat
    (if (j : Int) ≤ i + d then (w.p1.extractLsb' 0 32).toNat else (w.p1.extractLsb' 32 32).toNat) % 2 ^ f.width
  | 4 =>
    let pos : Int := i + toS 32 (w.p0.extractLsb' 0 32).toNat
    winValue f ovf (rotary pos (w.freq.getD (j / 2) 0).toNat (j % 2 == 1)) (-64)
  | _ =>
    let b := n * fmtBytes f
    let out := osier (w.p0 ++ BitVec.ofNat 64 (b / 16)) key
    let bits := out.toNat / 2 ^ (8 * (b % 16)) % 2 ^ f.width
    if f = .f32 then (roundTo .f32 .rn none 0 false (bits / 256) (-24) false).1 else bits

/-- Byte `a` of the window. -/
def GenWin.byteAt (w : GenWin) (key : BitVec 128) (ovf : Word) (a : Nat) : Byte :=
  let b := fmtBytes (fmtOfCode w.efmt)
  let o := a - w.base
  BitVec.ofNat 8 (w.elem key ovf (o / b) / 2 ^ (8 * (o % b)))

/-- `n` bytes of a window, under the configuration that is current (R176, R184). -/
def Ctx.windowBytes (x : Ctx) (k a n : Nat) : List Byte :=
  let w := fget GenWin.absent x.windows k
  (List.range n).map (fun i => w.byteAt (fget 0 x.keys w.key) x.ovf (a + i))

end Sys2Proof.Machine
end

