-- ==== Sys2Proof/Machine/Bundles.lean ====
section
/-!
DEFINITION. Scratchpad writes and watches (R205, R289), open bundles (R211), closing and the way of a closed bundle
(R212–R214), held effects (R274), versions and views (R215–R219), the results of requests (R134).
-/

namespace Sys2Proof.Machine

/-! ## Scratchpad writes -/

/-- Whether the word of an armed watch equals its value. -/
def Core.watchHit (c : Core) (w : Watch) : Bool := w.armed && wordOf (c.padRead w.addr w.size) == w.val

/-- After a write to a range, with the writer's included set: every watch of a word of it that equals disarms and releases
its successor (R289). -/
def State.trigger (s : State) (n : Nat) (r : Range) (set : IncSet) : State :=
  let c := s.core n
  let hit := fun (w : Watch) => overlap (w.addr, w.size) r && c.watchHit w
  if c.watches.any hit then
    (c.watches.filter hit).foldl (fun s w => s.release n (c.ctx.getD 0) w.start (mergeSets w.set set))
      (s.setCore n { c with watches := c.watches.filter (fun w => !hit w) })
  else s

/-- A scratchpad write of core `n` (R205). -/
def State.padStore (s : State) (n a : Nat) (bs : List Byte) (set : IncSet) : State :=
  (s.setCore n ((s.core n).padWrite a bs)).trigger n (a, bs.length) set

/-- The included set of a frame of core `n` now (R219). -/
def State.setOf (s : State) (n : Nat) (f : Frame) : IncSet := (s.core n).includedSet (s.writer n) f.view

/-! ## The open bundle (R211) -/

/-- Whether two lines are one line of the bundle. -/
def BLine.same (x y : BLine) : Bool :=
  x.dest == y.dest && x.fold == y.fold && (match x.dest with
    | .home _ => true
    | .peer _ => x.addr == y.addr)

/-- Later bytes replace earlier ones; the last `STD` gives the description. -/
def BLine.laid (old new : BLine) : BLine :=
  { old with bytes := new.bytes.foldl (fun m e => fset none m e.1 e.2) old.bytes, std := new.std.orElse (fun _ => old.std) }

/-- Adds a line; `none` where it would be the 129th. -/
def Bundle.put (b : Bundle) (l : BLine) : Option Bundle :=
  if b.lines.any (fun x => x.same l) then
    some { b with lines := b.lines.map (fun x => if x.same l then x.laid l else x) }
  else if b.lines.length < 128 then some { b with lines := b.lines ++ [l] }
  else none

/-- Bytes at an offset of a line. -/
def lineBytes (off : Nat) (bs : List Byte) : FMap (Option Byte) := fsetAll none [] off (bs.map some)

/-- A line of main memory or of a vault, written at issue. -/
def homeLine (key : Nat) (page : Option Nat) (a : Word) (off : Nat) (bs : List Byte) (std : Option (BitVec 4 × Byte)) :
    BLine :=
  { dest := .home key, addr := a &&& ~~~63, bytes := lineBytes off bs, std, fold := none, page, prog := .flight, image := [] }

/-- What the open bundle lays over a line (R208). A contribution in the bundle is not laid over its staging line, which is the model's choice
(log 109). -/
def Bundle.overlay (b : Bundle) (key : Nat) : Overlay :=
  match b.lines.find? (fun l => l.dest == .home key && l.fold == none) with
  | some l => { bytes := l.bytes, std := l.std }
  | none => { bytes := [], std := none }

def Overlay.none : Overlay := { bytes := [], std := Option.none }

/-- Bytes with others laid over them. -/
def layOver (bs : List Byte) (o : FMap (Option Byte)) : List Byte :=
  bs.mapIdx (fun i b => (fget Option.none o i).getD b)

/-- Attaches a held effect to the open bundle (R274). -/
def Frame.hold (f : Frame) (e : Effect) : Frame := { f with bundle := { f.bundle with effects := f.bundle.effects ++ [e] } }

/-! ## Results (R134) -/

/-- A variable-latency result for register `r` of frame `uid`: it is visible at once, and the register waits no longer. A
frame that has left takes nothing. A fixed-latency write of the register that is still pending replaces it when it is due, which is the
model's choice (log 107). -/
def Core.deliver (c : Core) (uid : Nat) (r : Reg) (v : BitVec 256) : Core :=
  match c.frame? uid with
  | none => c
  | some f =>
    let t := c.putReg f r v
    t.1.onFrame uid (fun _ => { t.2 with await := t.2.await.erase r })

/-- Completes a request. -/
def Core.finish (c : Core) (q : Req) (v : BitVec 256) : Core :=
  let c1 := { c with reqs := c.reqs.filter (fun x => x.id != q.id) }
  match q.dst with
  | some r => c1.deliver q.frame r v
  | none => c1

/-! ## Held effects leave (R274) -/

/-- One held effect of core `n` leaves with the reduced set of its bundle. A watch whose word equals its value already as it is armed merges
no set of a write, which is the model's choice (R289; log 114). -/
def State.leaveOne (s : State) (n : Nat) (b : Closed) (set : IncSet) (e : Effect) : State :=
  match e with
  | .start st _ => s.release n b.ctx st set
  | .arrive core addr phase k =>
    let c := s.core core
    if c.ctx = some b.ctx then
      s.setCore core { c with arrivals := c.arrivals ++ [{ src := n, ctx := b.ctx, addr, phase, n := k, set, id := b.id }] }
    else s
  | .push core q v =>
    let c := s.core core
    if c.ctx = some b.ctx then s.setCore core { c with pushes := c.pushes ++ [{ src := n, ctx := b.ctx, q, val := v, set }] } else s
  | .arm w =>
    let c := s.core n
    let s1 := s.setCore n { c with watches := c.watches.map (fun x => if x.id = w then { x with armed := true, set } else x) }
    match c.watches.find? (fun x => x.id == w) with
    | some x => s1.trigger n (x.addr, x.size) []
    | none => s1
  | .remote peer tmpl arg id =>
    (s.send { srcPkg := s.fabric.pkgnum, srcCtx := BitVec.ofNat 6 b.ctx, srcCore := n, dstPkg := peer.pkg, dstCtx := peer.ctx,
              peer := peer.idx, eth := peer.eth, bind := peer.bind, prio := BitVec.ofNat 4 b.prio, fibre := 0, taskId := b.id,
              body := .release tmpl arg id set, sentAt := 2 * s.uid }).fresh

/-- Whether an effect can leave once its bundle has been acknowledged: an engine successor waits for its command (R246). -/
def Effect.ready : Effect → Bool
  | .start _ (some _) => false
  | .start _ none => true
  | .arrive .. => true
  | .push .. => true
  | .arm .. => true
  | .remote .. => true

def Closed.acked (b : Closed) : Bool := b.lines.all (fun l => l.prog.ackKnown)
def Closed.settled (b : Closed) : Bool := b.lines.all (fun l => l.prog.settledKnown)

/-- Whether a sampler command has not completed yet. -/
def State.sampBusy (s : State) (id : Nat) : Bool := s.cores.any (fun e => e.2.sampq.any (fun q => q.cmd.id == id))

/-- The effects of one closed bundle leave, if its context is live, its lines are acknowledged, no sampler command holds them (R314) and
its set fits (R219). -/
def State.leaveOf (s : State) (n : Nat) (b : Closed) : State :=
  if (s.ctx b.ctx).state == 2 && b.acked && !b.samp.any s.sampBusy && b.effects.any Effect.ready then
    match (s.core n).reduceSet (s.writer n) b.set with
    | none => s
    | some set =>
      let c := s.core n
      let s1 := s.setCore n { c with closed := c.closed.map (fun x => if x.uid = b.uid then
        { x with effects := x.effects.filter (fun e => !e.ready) } else x) }
      (b.effects.filter Effect.ready).foldl (fun s e => s.leaveOne n b set e) s1
  else s

/-! ## The way of closed bundles (R213, R214) -/

def BLine.moveTo (l : BLine) (a b : Prog) : BLine := if l.prog = a then { l with prog := b } else l

/-- Settles go out for a bundle whose lines are acknowledged, once every earlier bundle's lines in the reach of its scope are
(R214). `t` is the package's next name. -/
def settleSends (n t : Nat) : Bool → List Closed → List Closed
  | _, [] => []
  | ok, b :: bs =>
    (if ok && b.acked && b.lines.any (fun l => l.prog == .acked) then
      { b with settleAt := t, lines := b.lines.map (fun l => l.moveTo .acked .settling) } else b) ::
      settleSends n t (ok && b.lines.all (fun l => !inReach n b.scope l.dest || l.prog.ackKnown)) bs

/-- A settled bundle is declared quiet once its predecessors are. -/
def quietSends (t : Nat) : Bool → List Closed → List Closed
  | _, [] => []
  | ok, b :: bs =>
    let now := ok && b.settled
    (if now && !b.declared then
      { b with declared := true, quietAt := t, lines := b.lines.map (fun l => l.moveTo .settleAcked .quieting) } else b) ::
      quietSends t now bs

/-- The highest bundle that has been declared quiet. -/
def lastDeclared (d : CSeq) : List Closed → CSeq
  | [] => d
  | b :: bs => if b.declared then lastDeclared b.seq bs else d

/-- The message that carries a line's step to a peer home. -/
def lineBody (b : Closed) (i : Nat) (l : BLine) : Option RBody :=
  match l.prog with
  | .settling => some (.settle b.seq i l.addr)
  | .quieting => some (.quiet b.seq i l.addr)
  | .flight | .arrived | .acked | .settled | .settleAcked | .quiet => none

def lineMsg (s : State) (n : Nat) (b : Closed) (p : PeerRef) (body : RBody) : RMsg :=
  { srcPkg := s.fabric.pkgnum, srcCtx := BitVec.ofNat 6 b.ctx, srcCore := n, dstPkg := p.pkg, dstCtx := p.ctx, peer := p.idx,
    eth := p.eth, bind := p.bind, prio := BitVec.ofNat 4 b.prio, fibre := 0, taskId := b.id, body, sentAt := 2 * s.uid }

/-- The messages to peers for the lines whose step has changed. -/
def stepMsgs (s : State) (n : Nat) (old new : Closed) : List RMsg :=
  ((old.lines.zip new.lines).zip (List.range new.lines.length)).filterMap (fun e =>
    match e.1.2.dest with
    | .peer p => if e.1.1.prog = e.1.2.prog then none else (lineBody new e.2 e.1.2).map (lineMsg s n new p)
    | .home _ => none)

/-- A home answers no quiet notice: a line at another package than `pkg` is done once the notice is sent, one in this package once it has
arrived. -/
def BLine.noticed (pkg : BitVec 5) (l : BLine) : BLine :=
  match l.dest with
  | .peer p => if p.pkg = pkg then l else l.moveTo .quieting .quiet
  | .home _ => l

/-- A bundle that is quiet at every home, and that nothing waits for. -/
def Closed.done (b : Closed) : Bool :=
  b.declared && b.effects.isEmpty && b.fclose.isNone && b.copy.isNone && b.lines.all (fun l => l.prog == .quiet)

/-- The requests of `FCLOSE` whose target bundle is settled (R224). -/
def Core.fclosed (c : Core) : List Req :=
  c.reqs.filter (fun q => c.closed.any (fun b => b.fclose == some q.id && b.settled))

/-- `FCLOSE` ends with status 0 once its target bundle is settled; the object is then free. -/
def Core.fcloseDone (c : Core) : Core := c.fclosed.foldl (fun c q => c.finish q 0) c
def Memory.fcloseDone (m : Memory) (qs : List Req) : Memory :=
  { m with folds := m.folds.filter (fun o => !qs.any (fun q => match q.kind with
      | .fclose _ key _ _ => o.keys.head? == some key
      | _ => false)) }

/-- What core `n` does after an acknowledgement, a close or news of quiet bundles: settles, quiets, effects. -/
def State.progress (s : State) (n : Nat) : State :=
  let c := s.core n
  let c1 := c.fcloseDone
  let l1 := c.closed.map (fun b => if b.settled then { b with fclose := none, copy := none } else b)
  let l2 := quietSends s.uid true (settleSends n s.uid true l1)
  let msgs := (c.closed.zip l2).flatMap (fun e => stepMsgs s n e.1 e.2)
  let l3 := l2.map (fun b => { b with lines := b.lines.map (BLine.noticed s.fabric.pkgnum) })
  let s1 := (s.setCore n { c1 with closed := l3, quietUpTo := lastDeclared c.quietUpTo l2 }).setMem (s.mem.fcloseDone c.fclosed)
  let s2 := msgs.foldl State.send s1
  let s3 := l3.foldl (fun s b => s.leaveOf n b) s2
  let c3 := s3.core n
  s3.setCore n { c3 with closed := c3.closed.filter (fun b => !b.done) }

/-! ## Fold objects at their home (R222, R223) -/

/-- The open object of a target line. -/
def Memory.foldAt (m : Memory) (key : Nat) (a : Word) : Option FoldObj :=
  if a.toNat % 64 = 0 then m.folds.find? (fun o => o.keys.head? == some key && !o.closing) else none

/-- The place of a contribution's line among the staging lines. -/
def FoldObj.place (o : FoldObj) (p : FoldPart) : Nat := p.k.toNat * o.keys.length + p.l

/-- The staging line of a contribution's line, if the object takes it (R223). -/
def FoldObj.slot (o : FoldObj) (p : FoldPart) : Option Nat :=
  if o.n ≤ p.k.toNat ∨ p.lines ≠ o.keys.length ∨ (fget none o.present (o.place p)).isSome then none else o.stage[o.place p]?

/-- The line that a bundle line writes: the staging line for a contribution (R223). -/
def Memory.written (m : Memory) (l : BLine) : Option Nat :=
  match l.dest, l.fold with
  | .home key, none => some key
  | .home key, some p => (m.foldAt key p.obj).bind (fun o => o.slot p)
  | .peer _, _ => none

/-- The page whose dirty state gathers when the bundle of a line commits (R169): for a contribution, that of its staging line. -/
def Memory.pageOf (m : Memory) (l : BLine) : Option Nat :=
  match l.dest, l.fold with
  | .home _, none => l.page
  | .home key, some p => (m.foldAt key p.obj).bind (fun o => (o.slot p).bind (fun _ =>
      (o.stagePages[o.place p]?).join))
  | .peer _, _ => none

/-! ## Closing (R212) -/

/-- The next commit sequence number; 0 is skipped. -/
def nextSeq (q : CSeq) : CSeq := if q + 1 = 0 then 1 else q + 1

/-- The lines for peers leave as messages when the bundle is sent (R336, R337). -/
def sendBody (b : Closed) (i : Nat) (l : BLine) : RBody :=
  let bytes := l.bytes.filterMap (fun e => e.2.map (fun v => (e.1, v)))
  match l.fold with
  | none => .line b.seq i l.addr bytes
  | some p => .fold b.seq i p.obj p.k.toNat p.l p.lines bytes

def State.sendLines (s : State) (n : Nat) (b : Closed) : State :=
  (b.lines.zip (List.range b.lines.length)).foldl (fun s e => match e.1.dest with
    | .peer p => s.send (lineMsg s n b p (sendBody b e.2 e.1))
    | .home _ => s) s

/-- The number that a compare-and-swap of the core holds, while it is not known whether that writes: it is a bundle only if it does, so
until then the core gives no other number, and closes no bundle (R225, R338; log 24). -/
def Core.casOpen (c : Core) : Option CSeq :=
  c.reqs.findSome? (fun q => match q.kind with
    | .atom _ _ _ (.cas _ _) _ _ seq => some seq
    | .remote _ _ seq true => some seq
    | _ => none)

/-- An instruction that takes a commit sequence number waits at the boundary before it while none can be given. -/
def Core.seqAct (c : Core) (g : Act) : Act := if c.casOpen.isSome then .wait else g

/-- The bundle of an atomic that frame `f` issues, with the core's next number: one line, on its way (R225, R338). It passes the abort
horizon. A compare-and-swap takes the number for good when it writes. -/
def State.atomBundle (s : State) (n : Nat) (f : Frame) (cas : Bool) (line : BLine) : State :=
  let c := s.core n
  let q := nextSeq c.cseq
  let b : Closed :=
    { uid := s.uid, seq := q, ctx := f.task.ctx, scope := .system, lines := [line], effects := [], set := [], id := f.task.id, prio := f.prio,
      samp := [], fclose := none, copy := none, declared := false, atHome := true, settleAt := 0, quietAt := 0 }
  let c1 := c.onFrame f.uid (fun g => { g with horizon := true, bundles := g.bundles ++ [s.uid] })
  (s.setCore n { c1 with cseq := if cas then c.cseq else q, closed := c1.closed ++ [b] }).fresh

/-- A compare-and-swap has not written: there is no bundle, and its number is the core's next. -/
def Core.dropAtom (c : Core) (seq : CSeq) : Core := { c with closed := c.closed.filter (fun b => b.seq != seq) }

/-- Adds a bundle of core `n` with the core's next commit sequence number. -/
def State.addClosed (s : State) (n : Nat) (b : Closed) : State :=
  let c := s.core n
  let q := nextSeq c.cseq
  let b1 := { b with uid := s.uid, seq := q }
  let s1 := (s.setCore n { c with cseq := q, closed := c.closed ++ [b1] }).fresh
  ((b.lines.filterMap s.mem.pageOf).foldl (fun s p => s.markDirty n b.ctx p) s1).sendLines n b1

/-- Closes the open bundle of the top frame of core `n` at a scope (R212). -/
def State.closeTop (s : State) (n : Nat) (sc : Scope) : State :=
  let c := s.core n
  match c.frames with
  | [] => s
  | f :: fs =>
    let q := nextSeq c.cseq
    let own := s.writer n
    let b : Closed :=
      { uid := 0, seq := 0, ctx := f.task.ctx, scope := sc, lines := f.bundle.lines, effects := f.bundle.effects,
        set := { c with cseq := q }.includedSet own f.view, id := f.task.id, prio := f.prio, samp := f.samp, fclose := none,
        copy := none, declared := false, atHome := false, settleAt := 0, quietAt := 0 }
    let f1 := { f with bundle := Bundle.empty, bundles := f.bundles ++ [s.uid],
                       horizon := f.horizon || !(f.bundle.lines.isEmpty && f.bundle.effects.isEmpty) }
    ((s.setCore n { c with frames := f1 :: fs }).addClosed n b).progress n

/-- A command has completed: its successor no longer waits for it (R246, R267). -/
def unwaitEffect (id : Nat) : Effect → Effect
  | .start st (some k) => if k = id then .start st none else .start st (some k)
  | .start st none => .start st none
  | .arrive c a p k => .arrive c a p k
  | .push c q v => .push c q v
  | .arm w => .arm w
  | .remote p t a i => .remote p t a i

def State.commandDone (s : State) (n id : Nat) : State :=
  let c := s.core n
  (s.setCore n { c with
    closed := c.closed.map (fun b => { b with effects := b.effects.map (unwaitEffect id) }),
    frames := c.frames.map (fun f => { f with bundle := { f.bundle with effects := f.bundle.effects.map (unwaitEffect id) } })
    }).progress n

/-! ## Choosing a version (R216) -/

/-- A line's two versions as a home holds them, or bytes of a window (one quiet version). -/
structure Version where
  data : List Byte
  tag : Tag
  deriving DecidableEq, Repr

/-- What a choice gives: a version and the view's changes, or the need of a bound that the view cannot hold, or
view-too-old. -/
inductive Choice where
  | take (v : Version) (view : View)
  | full
  | tooOld
  deriving DecidableEq, Repr

/-- Drops included-only entries that the core knows to be quiet, until a bound is free (R216). -/
def Core.roomFor (c : Core) (own : Writer) (v : View) : Option View :=
  if v.bounds < 32 then some v
  else
    let v1 : View := v.filter (fun e => e.exc.isSome || !(match e.inc with | some b => c.quiet own e.writer b | none => true))
    if v1.bounds < 32 then some v1 else none

/-- Raises a bound, making room where it needs one. -/
def Core.incl (c : Core) (own : Writer) (v : View) (w : Writer) (q : CSeq) : Option View :=
  if v.needsInc w then (c.roomFor own v).map (fun v => View.include v w q) else some (View.include v w q)
def Core.excl (c : Core) (own : Writer) (v : View) (w : Writer) (q : CSeq) : Option View :=
  if v.needsExc w then (c.roomFor own v).map (fun v => View.exclude v w q) else some (View.exclude v w q)

/-- The older version that a home keeps for a protected task, the newest that its view does not exclude (R218). -/
def Memory.kept (m : Memory) (view : View) (own : Writer) (frame key : Nat) : Option Kept218 :=
  m.pool.reverse.find? (fun k => k.frame == frame && k.key == key && !view.excluded own k.tag.writer k.tag.cseq)

/-- `choose(line)` of R216 for the view of frame `uid` of core `n`. -/
def State.choose (s : State) (n : Nat) (uid : Nat) (view : View) (key : Nat) : Choice :=
  let c := s.core n
  let own := s.writer n
  let t := s.mem.lineTags key
  let nw : Version := { data := s.mem.newerData key, tag := t.newer }
  let old : Version := { data := s.mem.olderData key, tag := t.older }
  let ok := if t.newer.st = .pending then view.included own t.newer.writer t.newer.cseq
    else !view.excluded own t.newer.writer t.newer.cseq
  let took := fun (v : Version) (w : View) =>
    if v.tag.st = .quiet ∨ w.included own v.tag.writer v.tag.cseq then Choice.take v w
    else match c.incl own w v.tag.writer v.tag.cseq with
      | some w1 => Choice.take v w1
      | none => Choice.full
  if ok then took nw view
  else
    let view1 := if t.newer.st = .pending then c.excl own view t.newer.writer t.newer.cseq else some view
    match view1 with
    | none => .full
    | some v1 =>
      if v1.excluded own t.older.writer t.older.cseq then
        match s.mem.kept v1 own uid key with
        | some k => took { data := k.data, tag := k.tag } v1
        | none => .tooOld
      else took old v1

/-- The view that a frame has after a synchronising acquire or a `FENCE.fresh`; the one before it stays with the requests that
carry it (R216). -/
def Core.acquired (c : Core) (f : Frame) (v : View) : Frame :=
  let carried := fun (k : Nat) => c.reqs.any (fun q => q.frame == f.uid && q.acq == k)
  let past := f.past.filter (fun e => carried e.1)
  { f with acq := f.acq + 1, past := if carried f.acq then fset [] past f.acq f.view else past, view := v, asked := [] }

/-- The view that a request of acquire count `k` carries. -/
def Frame.viewAt (f : Frame) (k : Nat) : View := if k = f.acq then f.view else fget [] f.past k

/-- A view that has to include a version which its task has read. -/
def Core.seeing (c : Core) (own : Writer) (t : Tag) (v : View) : Option View :=
  if t.st = .quiet ∨ v.included own t.writer t.cseq then some v else c.incl own v t.writer t.cseq

/-- The views of later acquire counts, each including the version. -/
def Core.seeingAll (c : Core) (own : Writer) (t : Tag) (k : Nat) : FMap View → Option (FMap View)
  | [] => some []
  | e :: es =>
    match c.seeingAll own t k es with
    | none => none
    | some rest => if e.1 ≤ k then some (e :: rest) else (c.seeing own t e.2).map (fun v => (e.1, v) :: rest)

/-- The frame after a reply to a request of acquire count `k` has given version `t` and left its view as `w`: the excluded bounds
stay with the request's view, and every later view includes what the task has read (R216). -/
def Core.tookView (c : Core) (own : Writer) (f : Frame) (k : Nat) (t : Tag) (w : View) : Option Frame :=
  if k = f.acq then some { f with view := w }
  else match c.seeing own t f.view, c.seeingAll own t k (fset [] f.past k w) with
    | some v, some p => some { f with view := v, past := p }
    | _, _ => none

/-! ## Confirmed versions set aside (R360) -/

/-- The confirmed version that waits aside comes back under a version that has settled (R360). -/
def Memory.restore (m : Memory) (key : Nat) : Memory :=
  match m.confirmed.find? (fun k => k.key == key) with
  | some k =>
    let t := m.lineTags key
    { (m.setOlder key k.data).setTags key { t with older := k.tag } with
      confirmed := m.confirmed.filter (fun e => e.key != key) }
  | none => m

/-! ## Requests (R216, R371) -/

def Src.keys (x : Src) : List Nat :=
  match x with
  | .line key => [key]
  | .data _ => []

/-- The lines that a request reads or changes. -/
def ReqKind.keys : ReqKind → List Nat
  | .load src _ _ _ _ => Src.keys src
  | .ldtag src _ => Src.keys src
  | .ldv src _ _ _ => Src.keys src
  | .vld srcs _ _ => srcs.flatMap (fun e => Src.keys e.1)
  | .atom key _ _ _ _ _ _ => [key]
  | .fopen .. => []
  | .fclose _ key _ _ => [key]
  | .remote .. => []
  | .done _ => []

/-- Whether its home chooses a version for the view of the task (R216). -/
def ReqKind.chooses (k : ReqKind) : Bool :=
  match k with
  | .load .. | .ldtag .. | .ldv .. | .vld .. | .fclose .. => !k.keys.isEmpty
  | .atom .. | .fopen .. | .remote .. | .done _ => false

/-- How many of the core's 16 outstanding requests it takes (R371): a read of a generator window takes none. -/
def ReqKind.takes : ReqKind → Nat
  | .load src _ _ _ _ => (Src.keys src).length
  | .ldtag src _ => (Src.keys src).length
  | .ldv src _ _ _ => (Src.keys src).length
  | .vld srcs _ _ => (srcs.flatMap (fun e => Src.keys e.1)).length
  | .atom .. | .fopen .. | .fclose .. | .done _ => 1
  | .remote .. => 0

def Core.outstanding (c : Core) : Nat := c.reqs.foldl (fun n q => n + q.kind.takes) 0

/-- An instruction that makes a request: with 16 outstanding the seventeenth waits at the boundary before it (R371). -/
def Core.reqAct (c : Core) (k : ReqKind) (g : Act) : Act := if 16 < c.outstanding + k.takes then .wait else g

/-- The writers whose answers could free bounds of a view (R216). -/
def View.askable (v : View) : List Writer := (v.filter (fun e => e.exc.isNone)).map (fun e => e.writer)

end Sys2Proof.Machine
end

