-- ==== Sys2Proof/Machine/Frames.lean ====
section
/-!
DEFINITION. Frames: the threshold (R129, R130), grants (R28, R78, R280), spilling and filling of windows (R122–R126), admission
(R31, R123), and leaving the stack (R124, R279).
-/

namespace Sys2Proof.Machine

/-! ## Thresholds (R129, R130) -/

/-- The highest ceiling of the guards a frame holds; 0 if none. -/
def Frame.ceil (f : Frame) (x : Ctx) : Nat := f.claims.foldl (fun m g => max m (x.guard g.toNat).ceil) 0
def Frame.thr (f : Frame) (x : Ctx) : Nat := max f.prio (f.ceil x)

/-- Whether a core admits a task of priority `p`: it is idle, or `p` exceeds `THR` (R77). -/
def State.admits (s : State) (n p : Nat) : Bool :=
  match (s.core n).frames with
  | [] => true
  | f :: _ => decide (f.thr (s.ctx f.task.ctx) < p)

/-! ## Grants (R28, R78, R280) -/

/-- Whether a range lies in a grant. -/
def inGrant (pb need : FMap Nat) (r : Range) : Bool :=
  let b := padBank r.1
  overlap r (b * 2 ^ 18 + 1024 * fget 0 pb b, 1024 * fget 0 need b)
/-- Whether a frame's engine commands keep its grant: any chain of it (R245), or another command with a range in it (R279). -/
def Core.grantBusy (c : Core) (uid : Nat) (pb need : FMap Nat) : Bool :=
  c.lanes.any (fun l =>
    l.2.cq.any (fun q => q.cmd.frame == uid) ||
    l.2.mq.any (fun q => q.cmd.frame == uid && (q.op.srcs ++ q.op.dsts).any (inGrant pb need))) ||
  c.copyq.any (fun q => q.cmd.frame == uid && (q.srcs ++ q.dsts).any (inGrant pb need))

/-- Grants whose engines are done go back to the pool (R245). -/
def Core.returnGrants (c : Core) : Core := { c with grants := c.grants.filter (fun g => c.grantBusy g.frame g.pb g.need) }

/-- The ranges of a bank, in KiB, that grants hold. -/
def Core.taken (c : Core) (b : Nat) : List (Nat × Nat) :=
  ((c.frames.map (fun f => (fget 0 f.pb b, fget 0 f.need b))) ++ (c.grants.map (fun g => (fget 0 g.pb b, fget 0 g.need b))) ++
    (match c.kept with | some k => [(fget 0 k.pb b, fget 0 k.need b)] | none => [])).filter (fun r => r.2 != 0)

/-- The lowest place for `need` KiB in bank `b` (the base of a grant is a choice of the model, log 20). -/
def placeFrom (taken : List (Nat × Nat)) (need hi : Nat) : Nat → Nat → Option Nat
  | 0, _ => none
  | k + 1, base =>
    if base + need > hi then none
    else if taken.all (fun r => decide (base + need ≤ r.1) || decide (r.1 + r.2 ≤ base)) then some base
    else placeFrom taken need hi k (base + 1)

/-- The base of a grant in a bank. A need of 0 takes no bytes; its field of `PADBASE` names the end of the static area (log 88). -/
def Core.place (c : Core) (x : Ctx) (b need : Nat) : Option Nat :=
  if need = 0 then some (fget 0 x.stat b)
  else placeFrom (c.taken b) need (if b = 2 then 192 - x.spillkb else 192) 193 (fget 0 x.stat b)

/-- A grant for a template's needs in the three banks, if the pool has room. -/
def Core.grantFor (c : Core) (x : Ctx) (m : Template) : Option (FMap Nat) :=
  match c.place x 0 (fget 0 m.need 0), c.place x 1 (fget 0 m.need 1), c.place x 2 (fget 0 m.need 2) with
  | some b0, some b1, some b2 => some (fsetAll 0 [] 0 [b0, b1, b2])
  | _, _, _ => none

/-- Whether a kept grant serves a task of template `t` (R280). -/
def Core.keptFor (c : Core) (t : Nat) (m : Template) : Option Kept :=
  match c.kept with
  | some k => if k.tmpl = t ∧ k.need = m.need then some k else none
  | none => none

/-- Whether a task fits a core (R78). -/
def State.fits (s : State) (n : Nat) (t : Task) : Bool :=
  let x := s.ctx t.ctx
  match x.templates[t.tmpl]? with
  | some m => ((s.core n).keptFor t.tmpl m).isSome || ((s.core n).grantFor x m).isSome
  | none => false
def State.fitsKept (s : State) (n : Nat) (t : Task) : Bool :=
  match (s.ctx t.ctx).templates[t.tmpl]? with
  | some m => ((s.core n).keptFor t.tmpl m).isSome
  | none => false

def zeroRange (c : Core) (b pb need : Nat) : Core :=
  { c with pad := c.pad.filter (fun e => !(padBank e.1 == b && decide (1024 * pb ≤ padOff e.1) &&
      decide (padOff e.1 < 1024 * (pb + need)))) }

/-! ## Windows (R122–R126) -/

/-- `W` of a frame. -/
def Frame.win (f : Frame) : Nat := f.lim + 8
def Frame.resident (f : Frame) : Bool := f.window == .resident
def Core.windowFree (c : Core) : Nat := 512 - ((c.frames.filter Frame.resident).map Frame.win).foldl (fun a b => a + b) 0

/-- The bytes of a spilled window (R125): pointers zero-extended, then general registers. -/
def Frame.windowBytes (f : Frame) : List Byte :=
  ((List.range 8).flatMap (fun k => bytesOf 8 ((f.getA (BitVec.ofNat 3 k)).setWidth 64))) ++
  ((List.range f.lim).flatMap (fun k => bytesOf 8 (f.getG (BitVec.ofNat 5 k))))

/-- A frame with the registers of a window read back. -/
def Frame.fillFrom (f : Frame) (bs : List Byte) : Frame :=
  let w := fun (k : Nat) => wordOf ((bs.drop (8 * k)).take 8)
  let f1 := (List.range 8).foldl (fun f k => f.setA (BitVec.ofNat 3 k) ((w k).setWidth 32)) { f with window := .resident }
  (List.range f.lim).foldl (fun f k => f.setG (BitVec.ofNat 5 k) (w (8 + k))) f1

def mainUsed (c : Core) : Bool := c.frames.any (fun f => match f.window with
  | .main _ => true
  | .resident | .carve _ => false)

/-- The scratchpad address of byte `off` of the spill carve-out (R28). -/
def Ctx.carveAt (x : Ctx) (off : Nat) : Nat := 2 * 2 ^ 18 + (192 - x.spillkb) * 1024 + off

/-- Whether a write at `OVFL` stays within what the host must provide for context `k` (R126): main memory that no other live context
holds (R2). -/
def State.spillsOwn (s : State) (k : Nat) (r : Range) : Bool := decide (r.1 + r.2 ≤ 2 ^ 40) && !s.foreign k r

/-- Spills the window of one frame: to the carve-out while it fits and no window is in main memory, else to `OVFL`. Where the host has
not provided the area, the context ends (R2, R356; log 16). -/
def State.spillOne (s : State) (n : Nat) (f : Frame) : State :=
  let c := s.core n
  let x := s.ctx f.task.ctx
  let len := 8 * f.win
  let put := fun (w : Window) (c : Core) => c.onFrame f.uid (fun f => { f with window := w, g := [], a := [] })
  if !mainUsed c && decide (c.carve + len ≤ 1024 * x.spillkb) then
    s.setCore n (put (.carve c.carve) { (c.padWrite (x.carveAt c.carve) f.windowBytes) with carve := c.carve + len })
  else
    if s.spillsOwn f.task.ctx (c.ovfl.toNat, len) then
      (s.setMem (s.mem.physWrite c.ovfl.toNat f.windowBytes)).setCore n (put (.main c.ovfl) { c with ovfl := c.ovfl + BitVec.ofNat 64 len })
    else s.endCtx f.task.ctx 0x10 0

/-- A window leaves its part of the spilled stack: the windows above it in that part move down over its bytes, and `CARVE` or `OVFL`
falls by its length. On top of its part this is R125; below, the model's choice (log 84). The move stays in what the host has provided
(R2; log 16). -/
def State.freeWindow (s : State) (n : Nat) (f : Frame) : State :=
  let c := s.core n
  let len := 8 * f.win
  match f.window with
  | .resident => s
  | .carve off =>
    let x := s.ctx f.task.ctx
    let c1 := c.padWrite (x.carveAt off) (c.padRead (x.carveAt (off + len)) (c.carve - (off + len)))
    s.setCore n { c1 with carve := c.carve - len, frames := c.frames.map (fun g => match g.window with
      | .carve o => if off < o then { g with window := .carve (o - len) } else g
      | .resident | .main _ => g) }
  | .main pa =>
    let a := pa.toNat
    let rest := c.ovfl.toNat - (a + len)
    if rest ≠ 0 ∧ !s.spillsOwn f.task.ctx (a, rest) then s.endCtx f.task.ctx 0x10 0
    else (s.setMem (s.mem.physWrite a (fgetAll 0 s.mem.newer (a + len) rest))).setCore n { c with ovfl := c.ovfl - BitVec.ofNat 64 len, frames := c.frames.map (fun g => match g.window with
      | .main p => if a < p.toNat then { g with window := .main (p - BitVec.ofNat 64 len) } else g
      | .resident | .carve _ => g) }

/-- Whether a frame may be spilled: none of its registers awaits a result (R124). -/
def Frame.spillable (f : Frame) : Bool := f.resident && f.await.all (fun r => match r with
  | .v _ | .w _ => true
  | .g _ | .p _ | .a _ => false)

/-- Spills the lowest resident windows, whole, until `w` registers are free or the context has ended; `none` if only frames that await
results are left, and then no window is spilled: the admission begins anew at the next boundary, which is the model's choice (log 106).
`k` bounds the number of frames. -/
def State.spillFor (s : State) (n w : Nat) : Nat → Option State
  | 0 => if w ≤ (s.core n).windowFree then some s else none
  | k + 1 =>
    if w ≤ (s.core n).windowFree then some s
    else match ((s.core n).frames.reverse).find? Frame.spillable with
      | some f =>
        let s1 := s.spillOne n f
        if (s1.ctx f.task.ctx).state = 2 then s1.spillFor n w k else some s1
      | none => none

/-- Fills the window of the frame about to run (R124); an uncorrectable line ends its context (R125). -/
def State.fillTop (s : State) (n : Nat) : State :=
  let c := s.core n
  match c.frames with
  | [] => s
  | f :: fs =>
    let len := 8 * f.win
    let put := fun (bs : List Byte) => (s.setCore n { c with frames := f.fillFrom bs :: fs }).freeWindow n f
    match f.window with
    | .resident => s
    | .carve off => put (c.padRead ((s.ctx f.task.ctx).carveAt off) len)
    | .main pa =>
      if (List.range (len / 64 + 2)).any (fun k => s.mem.isBad (pa.toNat / 64 + k) && decide (64 * (pa.toNat / 64 + k) < pa.toNat + len)) then
        s.endCtx f.task.ctx 0x04 (ordOf f.task.id)
      else put (fgetAll 0 s.mem.newer pa.toNat len)

/-! ## Admission (R31, R123, R278, R296) -/

/-- The frame of an admitted task, with grant `pb`. -/
def State.newFrame (s : State) (t : Task) (m : Template) (pb : FMap Nat) : Frame :=
  let x := s.ctx t.ctx
  let lane := (x.bandmap.extractLsb' (2 * m.prio) 2).toNat
  let g0 : FMap Word := t.args.foldl (fun g e => if e.1 < m.regs then fset 0 g e.1 e.2 else g) []
  let base : Frame :=
    { uid := s.uid, task := t, prio := m.prio, lane, lim := m.regs, pc := x.codebase + BitVec.ofNat 64 m.entry, g := g0,
      a := [], p := 1, stall := 0, pend := [], await := [], claims := [], pb, need := m.need, schk := false, geom := t.geom,
      priv := false, tcause := 0, tpc := 0, tval := 0, tinsn0 := 0, tinsn1 := 0, tsave := [], view := View.ofSet t.set,
      acq := 0, past := [], asked := [], bundle := Bundle.empty, spawnK := 0, horizon := false, long := false, owner := false, halting := false,
      deferred := false,
      settleWait := none, bundles := [], samp := [], seen := [], window := .resident, arrived := true, brkHalted := false }
  match t.cont with
  | none => base
  | some k => { base with pc := k.pc, g := k.live, p := k.p, schk := k.schk, spawnK := k.spawnK, horizon := k.horizon,
                          geom := k.geom, bundles := k.bundles, samp := k.samp }

/-- Pushes the frame of a task, if it fits and the windows below can make room; the kept grant of a predecessor is not
zero-filled (R280). A context that has ended over a spill takes none. -/
def State.takeTask (s : State) (n : Nat) (t : Task) : Option State :=
  let x := s.ctx t.ctx
  match x.templates[t.tmpl]? with
  | none => none
  | some m =>
    match s.spillFor n (m.regs + 8) 16 with
    | none => none
    | some s1 =>
      let c := s1.core n
      let live := (s1.ctx t.ctx).state == x.state
      let push := fun (c : Core) (pb : FMap Nat) =>
        some ((s1.setCore n { c with frames := s1.newFrame t m pb :: c.frames, dbg := { c.dbg with issued := true } }).fresh.setCtx t.ctx { x with admitted := true })
      if !live then some s1
      else match c.keptFor t.tmpl m with
      | some k => push { c with kept := none } k.pb
      | none =>
        match c.grantFor x m with
        | none => none
        | some pb =>
          let z := (List.range 3).foldl (fun c b => zeroRange c b (fget 0 pb b) (fget 0 m.need b)) c
          push z pb

/-! ## Leaving the stack (R124, R279) -/

/-- The kept grant goes back to the pool, or stays with engines that still use it (R280). -/
def Core.returnKept (c : Core) : Core :=
  match c.kept with
  | none => c
  | some k =>
    if c.grantBusy k.frame k.pb k.need then
      { c with kept := none, grants := c.grants ++ [{ frame := k.frame, pb := k.pb, need := k.need }] }
    else { c with kept := none }

/-- Pops the top frame: its pending vector results become visible, its grant goes back, stays with its engines, or is kept
for a template (R279, R280). -/
def Core.pop (c : Core) (f : Frame) (fs : List Frame) (keep : Option Nat) : Core :=
  let c1 := { flushPend c f with frames := fs }
  match keep with
  | some t => { c1.returnKept with kept := some { frame := f.uid, tmpl := t, pb := f.pb, need := f.need } }
  | none => if c1.grantBusy f.uid f.pb f.need then
      { c1 with grants := c1.grants ++ [{ frame := f.uid, pb := f.pb, need := f.need }] } else c1

/-- Homes keep no older versions for a task that has retired or aborted (R218). -/
def Memory.unprotect (m : Memory) (uid : Nat) : Memory := { m with pool := m.pool.filter (fun k => k.frame != uid) }

/-- The top frame leaves the stack, with its window wherever that is. -/
def State.popTop (s : State) (n : Nat) (keep : Option Nat) : State :=
  match (s.core n).frames with
  | [] => s
  | f :: _ =>
    let s1 := s.freeWindow n f
    (s1.setCore n ((s1.core n).pop f (s1.core n).frames.tail keep)).setMem (s1.mem.unprotect f.uid)

/-- An abort of the top frame (R170): its open bundle, the effects held with it and its claims are gone. -/
def State.dropTop (s : State) (n : Nat) : State :=
  let c := s.core n
  match c.frames with
  | [] => s
  | f :: _ =>
    (s.setCore n { c with
      watches := c.watches.filter (fun w => w.armed || !f.bundle.effects.contains (.arm w.id)) }).popTop n none

/-- A task that has faulted on a page waits for its fault record, or for a free one (R172). -/
def State.recordFault (s : State) (w : Waiter) : State :=
  let k := w.task.ctx
  let x := s.ctx k
  let blk := w.page / 64
  let bit : BitVec 64 := 1 <<< (w.page % 64)
  let recs := List.range 8
  match recs.find? (fun r => match fget none x.frec r with | some e => e.block == blk | none => false) with
  | some r =>
    let e := (fget none x.frec r).getD { block := blk, pages := 0 }
    s.setCtx k { x with frec := fset none x.frec r (some { e with pages := e.pages ||| bit }),
                        waiters := x.waiters ++ [{ w with record := some r }] }
  | none =>
    match recs.find? (fun r => (fget none x.frec r).isNone) with
    | some r =>
      (s.setCtx k { x with frec := fset none x.frec r (some { block := blk, pages := bit }),
                           waiters := x.waiters ++ [{ w with record := some r }] }).post
        srcMgmt (some k) 0x06 (payload [(8, 1, r), (16, 8, blk * 2 ^ 22)])
    | none => s.setCtx k { x with waiters := x.waiters ++ [{ w with record := none }] }

end Sys2Proof.Machine
end

