-- ==== Sys2Proof/Machine/Offers.lean ====
section
/-!
DEFINITION. The cluster dispatchers (R75–R81): the order of ready tasks, eligibility, fit, offers, skips and blocks; and aborts of
tasks, which free a core (R170, R172, R218, R350).
-/

namespace Sys2Proof.Machine

def State.prioOf (s : State) (t : Task) : Nat := ((s.tmpl? t).map Template.prio).getD 0
def State.roleOf (s : State) (t : Task) : Nat := ((s.tmpl? t).map Template.role).getD 0

/-- `before(x, y)` of R76. -/
def State.before (s : State) (x y : Ready) : Bool :=
  let px := s.prioOf x.task
  let py := s.prioOf y.task
  let rx := s.roleOf x.task
  let ry := s.roleOf y.task
  if px ≠ py then decide (py < px)
  else if x.aged ≠ y.aged then x.aged
  else if !x.aged ∧ rx ≠ ry then decide (rx < ry)
  else decide (x.arrival < y.arrival)

/-- Puts a task into the order; the list stands in the order of R76. -/
def State.insertReady (s : State) (r : Ready) : List Ready → List Ready
  | [] => [r]
  | x :: xs => if s.before r x then r :: x :: xs else x :: s.insertReady r xs

def State.sortReady (s : State) (l : List Ready) : List Ready := l.foldr (fun r t => s.insertReady r t) []

/-- Whether a core belongs to the placement of a task. -/
def State.placed (s : State) (t : Task) (n : Nat) : Bool :=
  match t.core with
  | some c => c == n
  | none => match s.tmpl? t with
    | some m => ((s.ctx t.ctx).placeCores m).contains n
    | none => false

/-- Eligible at a core (R77). -/
def State.eligible (s : State) (t : Task) (n : Nat) : Bool :=
  (s.core n).ctx == some t.ctx && s.placed t n && s.admits n (s.prioOf t)

/-- The cores of a cluster. -/
def clusterCores (k : Nat) : List Nat := [4 * k, 4 * k + 1, 4 * k + 2, 4 * k + 3]

def offerTo (l : List Ready) (n : Nat) : Bool := l.any (fun r => r.offer == some n)

/-- The limit of skips of the task's context; 0 acts as 1 (R81). -/
def State.skipLim (s : State) (t : Task) : Nat := max 1 ((s.ctx t.ctx).dispcfg.extractLsb' 20 4).toNat

/-- Whether a blocked task keeps `r` from core `n` (R79): a blocked task that is eligible for the core by its placement
stands before it, and it does not fit by kept banks. -/
def State.blockedFor (s : State) (l : List Ready) (r : Ready) (n : Nat) : Bool :=
  l.any (fun b => (b.blocked || decide (s.skipLim b.task ≤ b.skips)) && b != r && b.offer.isNone && b.task.ctx == r.task.ctx && s.placed b.task n && s.before b r) &&
    !s.fitsKept n r.task

/-- Whether a core may be offered a ready task now. -/
def State.offerable (s : State) (l : List Ready) (r : Ready) (n : Nat) : Bool :=
  r.offer.isNone && r.fetched && !offerTo l n && !(s.core n).dbg.halted && s.eligible r.task n && s.fits n r.task &&
    !s.blockedFor l r n

/-- The preference among cores (R77): idle first, then the lowest `THR`, then the lowest position. -/
def State.thrKey (s : State) (n : Nat) : Nat :=
  match (s.core n).frames with
  | [] => 0
  | f :: _ => 1 + f.thr (s.ctx f.task.ctx)

def State.bestCore (s : State) : List Nat → Option Nat
  | [] => none
  | n :: ns => match s.bestCore ns with
    | none => some n
    | some m => if s.thrKey n ≤ s.thrKey m then some n else some m

/-- The first task that is eligible at a core stands unoffered. One whose entry block has not come yet (R369) is passed over and
counts no skip (log 86). -/
def State.firstEligible (s : State) (l : List Ready) (n : Nat) : Option Ready :=
  l.find? (fun r => r.offer.isNone && r.fetched && s.eligible r.task n)

/-- Counts a skip for the first eligible task at the core, if another task is offered there because it does not fit. -/
def State.countSkip (s : State) (l : List Ready) (n : Nat) (offered : Ready) : List Ready :=
  match s.firstEligible l n with
  | some x => if x != offered && !s.fits n x.task then l.map (fun r => if r = x then { r with skips := r.skips + 1 } else r) else l
  | none => l

/-- Offers in the order of the tasks: each goes to the best core that it may be offered to. -/
def State.offerRound (s : State) (k : Nat) : List Ready → List Ready → List Ready
  | [], l => l
  | r :: rs, l =>
    match s.bestCore ((clusterCores k).filter (fun n => s.offerable l r n)) with
    | some n =>
      let l1 := s.countSkip l n r
      s.offerRound k rs (l1.map (fun x => if x = r then { x with offer := some n, blocked := false } else x))
    | none => s.offerRound k rs l

/-- The dispatcher of a cluster makes the offers it can (R77, R79). -/
def State.offers (s : State) (k : Nat) : State :=
  let c := s.cluster k
  let l := s.sortReady c.ready
  s.setCluster k { c with ready := s.offerRound k l l }

/-- Takes a release into a dispatcher's order, or leaves it at the full dispatcher's input (R75). -/
def State.enter (s : State) (k : Nat) (r : Release) : State :=
  let c := s.cluster k
  if c.ready.length < 512 ∧ c.input = [] then
    { s with clock := s.clock + 1 }.setCluster k { c with ready := c.ready ++ [s.entryOf k r] } |>.offers k
  else s.setCluster k { c with input := c.input ++ [r] }

/-- The offer to core `n` is returned: the task takes its old place (R77). -/
def State.returnOffer (s : State) (n : Nat) : State :=
  let k := clusterOf n
  let c := s.cluster k
  (s.setCore n { s.core n with offer := none }).setCluster k
    { c with ready := c.ready.map (fun r => if r.offer = some n then { r with offer := none } else r) }

/-- The offered task has been admitted: its entry leaves the order. -/
def State.takeOffer (s : State) (n : Nat) : State :=
  let k := clusterOf n
  let c := s.cluster k
  ((s.setCore n { s.core n with offer := none }).setCluster k { c with ready := c.ready.filter (fun r => r.offer != some n) }).refill k

/-- The task that is offered to core `n`: one that has reached it, or one on its way, which the boundary finds too (R283, R299;
log 19). -/
def State.offered (s : State) (n : Nat) : Option Task :=
  match (s.core n).offer with
  | some t => some t
  | none => ((s.cluster (clusterOf n)).ready.find? (fun r => r.offer == some n)).map Ready.task

/-- Admission at a boundary (R349, step 4): the offered task is admitted if it is still eligible and fits, otherwise the
offer is returned. The boundary goes on unless admission waits for windows (R124). -/
def State.admitStep (s : State) (n : Nat) : State × Bool :=
  match s.offered n with
  | none => (s, true)
  | some t =>
    if s.eligible t n && s.fits n t && !(s.core n).dbg.halted then
      match s.takeTask n t with
      | some s1 => ((s1.takeOffer n).offers (clusterOf n), true)
      | none => (s, false)
    else ((s.returnOffer n).offers (clusterOf n), true)

/-! ## Aborts (R170, R172, R218, R350) -/

/-- A page fault of the top frame of core `n` (R170, R172). The dispatcher sees the core that the abort has freed (R77). Of a context that
has ended nothing waits (R357). -/
def State.pageFault (s : State) (n page : Nat) : State :=
  match (s.core n).frames with
  | [] => s
  | f :: _ =>
    if f.horizon then s.endCtx f.task.ctx 0x03 (ordOf f.task.id)
    else
      let s1 := s.dropTop n
      (if (s.ctx f.task.ctx).state = 2 then s1.recordFault { task := f.task, cluster := clusterOf n, record := none, page } else s1).offers
        (clusterOf n)

/-- A view-too-old abort of the top frame (R218): the task enters its dispatcher at once, unless its context has ended (R357). -/
def State.viewTooOld (s : State) (n : Nat) : State :=
  match (s.core n).frames with
  | [] => s
  | f :: _ =>
    if f.horizon then s.endCtx f.task.ctx 0x0C (ordOf f.task.id)
    else
      let again : Release := { task := { f.task with vto := f.task.vto + 1 }, cluster := clusterOf n, src := n, aged := false, skips := 0 }
      let s1 := s.dropTop n
      (if (s.ctx f.task.ctx).state = 2 then s1.enter (clusterOf n) again else s1).offers (clusterOf n)

/-- The abort of a frame that may lie below others: on top it is taken at once, else deferred (R350). -/
def State.viewTooOldOf (s : State) (n uid : Nat) : State :=
  let c := s.core n
  match c.frames with
  | f :: _ => if f.uid = uid then s.viewTooOld n else s.setCore n (c.onFrame uid (fun g => { g with deferred := true }))
  | [] => s

/-- An access that faults or traps, as an instruction's outcome. -/
def resAct (s : State) (n : Nat) (f : Frame) (r : Res) (a : Word) : Act :=
  match r with
  | .ok _ => .wait
  | .trap c => .trap c a
  | .fault page => .abort (s.pageFault n page)
  | .dead c => .abort (s.endFor c f.task)

end Sys2Proof.Machine
end

