-- ==== Sys2Proof/Machine/Teardown.lean ====
section
/-!
DEFINITION. The teardown of a context (R357), with the harvest and the invalidation of TLB entries (R169, R171).
-/

namespace Sys2Proof.Machine

/-! ## The end of a context (R357, steps 3–6) -/

/-- Removes the frames of an ending context from a core; nothing of them leaves, nor any effect of a closed bundle that has not left. -/
def Core.stripFrames (c : Core) : Core :=
  { c with frames := [], trapDue := [], crossed := [], offer := none, passed := false,
           closed := c.closed.map (fun b => { b with effects := [] }) }

/-- Fold objects without the contribution lines at staging line `key` whose versions are gone: a contribution is present only while its
lines are there (R223). -/
def Memory.foldLose (m : Memory) (key : Nat) (gone : Writer × CSeq → Bool) : Memory :=
  { m with folds := m.folds.map (fun o =>
      { o with present := o.present.filter (fun e => !(o.stage[e.1]? == some key && (match e.2 with
          | some v => gone v
          | none => false))) }) }

/-- A pending version whose writer's context ends is discarded: the other version becomes the newer one (R213). -/
def Memory.discard (m : Memory) (key : Nat) : Memory :=
  let t := m.lineTags key
  if t.newer.st = .pending then
    (((m.setNewer key (m.olderData key)).setTags key { newer := t.older, older := t.older }).restore key).foldLose key
      (fun v => v == (t.newer.writer, t.newer.cseq))
  else m

/-- Every pending version of a writer's bundles that `p` names is discarded, at whatever line. -/
def Memory.discardOf (m : Memory) (w : Writer) (p : CSeq → Bool) : Memory :=
  ((m.tags.filter (fun e => e.2.newer.st == .pending && e.2.newer.writer == w && p e.2.newer.cseq)).map (fun e => e.1)).foldl
    Memory.discard m

/-! ## Confirmation and discarding in paired contexts (R360, R361) -/

/-- Every unconfirmed version of a context becomes confirmed. -/
def Memory.confirm (m : Memory) (k : Nat) : Memory :=
  { m with unconf := m.unconf.filter (fun e => e.2 != k + 1), confirmed := m.confirmed.filter (fun e => fget 0 m.unconf e.key != k + 1) }

/-- The confirmed version of a line (R360): one kept aside, or the older one of an unconfirmed line, or the newer settled
one. -/
def Memory.confirmedOf (m : Memory) (key : Nat) : List Byte × Tag :=
  let t := m.lineTags key
  match m.confirmed.find? (fun e => e.key == key) with
  | some e => (e.data, e.tag)
  | none =>
    if fget 0 m.unconf key ≠ 0 ∨ t.newer.st = .pending then (m.olderData key, t.older) else (m.newerData key, t.newer)

/-- A line returns to its confirmed version. -/
def Memory.revert (m : Memory) (key : Nat) : Memory :=
  let v := m.confirmedOf key
  (((m.setNewer key v.1).setOlder key v.1).setTags key { newer := v.2, older := v.2 }).foldLose key
    (fun e => e != (v.2.writer, v.2.cseq))

/-- Every unconfirmed version of a context is discarded. -/
def Memory.discardEpoch (m : Memory) (k : Nat) : Memory :=
  ((m.unconf.filter (fun e => e.2 == k + 1)).foldl (fun m e => m.revert e.1) m).confirm k

/-- The peer homes that hold lines of a bundle which it has not settled. -/
def Closed.peers (b : Closed) : List PeerRef :=
  b.lines.foldl (fun l x => match x.dest with
    | .peer p => if x.prog.settledKnown || l.contains p then l else l ++ [p]
    | .home _ => l) []

/-- The homes discard what the ended context has pending (R213, R357): those of this package at once, those of peers when they are
told (log 91). -/
def State.discardPending (s : State) (n : Nat) : State :=
  let s1 := s.setMem (s.mem.discardOf (s.writer n) (fun _ => true))
  (s.core n).closed.foldl (fun s b => b.peers.foldl (fun s p => s.send (lineMsg s n b p (.discard b.seq))) s) s1

/-- A vault after it has been zeroed (R161). -/
def Memory.zeroVault (m : Memory) (k : Nat) : Memory :=
  let out := fun (key : Nat) => !(isVault key && vaultOf key == k)
  { m with newer := m.newer.filter (fun e => out (e.1 / 64)), older := m.older.filter (fun e => out (e.1 / 64)),
           tags := m.tags.filter (fun e => out e.1), unconf := m.unconf.filter (fun e => out e.1) }

/-- The vaults that a context could address: every cluster of which it holds a core. -/
def Ctx.vaults (x : Ctx) : List Nat := distinct (x.cores.map clusterOf)

/-- Writes back every dirty entry of the TLB of a die or a core that is chosen (R169); `root` gives the page tables of a context. -/
def Memory.writeBack (m : Memory) (root : Nat → Nat) (l : List Tlb) (p : Tlb → Bool) : Memory :=
  l.foldl (fun m e => if p e && e.dirty then m.dirtyEntry (root e.ctx) e else m) m

/-- Harvest (R171): all dirty state of the chosen entries is written back; they stay. -/
def State.harvest (s : State) (p : Tlb → Bool) : State :=
  let root := fun (k : Nat) => (s.ctx k).ptroot.toNat
  let m1 := s.cores.foldl (fun m e => m.writeBack root e.2.tlb p) s.mem
  let m2 := s.dies.foldl (fun m e => m.writeBack root e.2.tlb p) m1
  let clean := fun (e : Tlb) => if p e then { e with dirty := false } else e
  { s with mem := m2, cores := s.cores.map (fun e => (e.1, { e.2 with tlb := e.2.tlb.map clean })),
           dies := s.dies.map (fun e => (e.1, { e.2 with tlb := e.2.tlb.map clean })) }

/-- A core map without the entries that have become default ones. -/
def trimCores (m : FMap Core) : FMap Core := ftrim Core.reset m
def trimDies (m : FMap Die) : FMap Die := ftrim Die.reset m

def trimClusters (m : FMap Cluster) : FMap Cluster := ftrim Cluster.reset m
/-- A dispatcher without what it stores of an ended context. -/
def Cluster.forget (c : Cluster) (k : Nat) : Cluster :=
  { c with store := c.store.filter (fun b => b.1 != k), depths := c.depths.filter (fun d => d.1 % 64 != k) }

/-- Invalidation: dirty state is written back, and the entries go (R169, R171). -/
def State.invalidate (s : State) (p : Tlb → Bool) : State :=
  let s1 := s.harvest p
  let keep := fun (l : List Tlb) => l.filter (fun e => !p e)
  { s1 with cores := trimCores (s1.cores.map (fun e => (e.1, { e.2 with tlb := keep e.2.tlb }))),
            dies := trimDies (s1.dies.map (fun e => (e.1, { e.2 with tlb := keep e.2.tlb }))) }

/-- The last number that a core has given, counting the one of a remote compare-and-swap that its peer may still execute. -/
def Core.lastSeq (c : Core) : CSeq :=
  (c.reqs.findSome? (fun q => match q.kind with
    | .remote _ _ seq true => some seq
    | _ => none)).getD c.cseq

/-- A core after it has left its context: zeroed and free. The commit sequence goes on (R212), the debug block stays. -/
def Core.freed (c : Core) : Core := { Core.reset with cseq := c.lastSeq, quietUpTo := c.lastSeq, dbg := c.dbg }

/-- Contents of code lines that the host has overwritten are forgotten with the context. -/
def forgetOld (k : Nat) (m : FMap (List (List Byte × List Nat))) : FMap (List (List Byte × List Nat)) :=
  m.filterMap (fun e =>
    let l := e.2.filterMap (fun o => let live := o.2.filter (fun c => c != k); if live.isEmpty then none else some (o.1, live))
    if l.isEmpty then none else some (e.1, l))

/-- Steps 4 to 6 of R357, once no core holds a frame of the context; the dispatchers offer what they have taken in since it ended. What a
paired context has not confirmed is not seen outside it (R360), so it goes too (log 97). -/
def State.finishTeardown (s : State) (k : Nat) : State :=
  let x := s.ctx k
  if !x.tearing || x.cores.any (fun n => !(s.core n).frames.isEmpty) then s
  else
    let s1 := x.cores.foldl State.discardPending s
    let s2 := s1.invalidate (fun e => e.ctx == k)
    let s3 := x.cores.foldl (fun s n => s.setCore n (s.core n).freed) s2
    let m := x.vaults.foldl Memory.zeroVault (s3.mem.discardEpoch k)
    let s4 := { s3 with
      mem := { m with folds := m.folds.filter (fun o => o.ctx != k),
                      hostOld := forgetOld k m.hostOld,
                      cache := m.cache.filter (fun e => e.ctx != k) },
      dies := trimDies (s3.dies.map (fun (e : Nat × Die) => (e.1, if e.2.samp.owner = some k then { e.2 with samp := Sampler.reset } else e.2))) }
    let s5 := { s4 with clusters := trimClusters (s4.clusters.map (fun (e : Nat × Cluster) => (e.1, e.2.forget k))) }
    let left := { Ctx.free with ord := x.ord, endDone := x.endDone, pair := x.pair }
    let s6 := s5.setCtx k (if x.freeReq then left else { left with state := x.state, cause := x.cause })
    (s6.clusters.map (fun e => e.1)).foldl State.offers s6

/-- Step 3 of R357 at one core, and the rest once it was the last. -/
def State.tearCore (s : State) (n : Nat) : State :=
  match (s.core n).ctx with
  | none => s
  | some k => if (s.ctx k).tearing then (s.setCore n (s.core n).stripFrames).finishTeardown k else s

end Sys2Proof.Machine
end

