-- ==== Sys2Proof/Machine/Ways.lean ====
section
/-!
DEFINITION. What lies between a core and its destinations in this package: where an access of a peer lands (R332), the lines of a bundle
under all their names (R208, R211), lines and messages on their way, and which of them a destination can take, and in which order (R213,
R215, R216, R323, R371, R380).
-/

namespace Sys2Proof.Machine

/-! ## Accesses of peers (R332, R339) -/

/-- Where an access of a peer lands: a line, with the byte's offset in it and the leaf of a translated page; a window; an error of a
kind of R339; an uncorrectable table. -/
inductive PeerAt where
  | line (key off : Nat) (leaf : Option Nat)
  | window (w : Nat)
  | bad (kind : Nat)
  | dead
  deriving DecidableEq, Repr

def PeerAt.key? : PeerAt → Option Nat
  | .line key _ _ => some key
  | .window _ | .bad _ | .dead => none

/-- An access of `n` bytes at address `a` of context `k`, aligned to `n`. -/
def State.peerAt (s : State) (k : Nat) (wr : Bool) (a : Word) (n : Nat) : PeerAt :=
  let x := s.ctx k
  if a.toNat % n ≠ 0 then .bad 3
  else match s.kind x wr a with
    | .bad c => .bad (if c = 0x12 then 5 else 3)
    | .line key off => if off + n ≤ 64 then .line key off none else .bad 3
    | .window w => .window w
    | .paged page =>
      match s.mem.walk x.ptroot.toNat page with
      | .miss => .bad 4
      | .bad => .dead
      | .hit (e, leaf) =>
        if wr && !e.getLsbD 1 then .bad 4
        else .line ((e.extractLsb' 16 24).toNat * 1024 + a.toNat % 65536 / 64) (a.toNat % 64) (some leaf)

/-- The receiving context's entry for the sender, and whether its binding value is the message's (R332). -/
def Ctx.bound (x : Ctx) (m : RMsg) : Bool := (x.entryOf m.srcPkg m.srcCtx).any (fun p => p.bind == m.bind)

/-! ## The lines of a bundle (R208, R211) -/

/-- The line of this package that a line for a peer context of this package is written to (R332). -/
def State.peerKey (s : State) (l : BLine) : Option Nat :=
  match l.dest with
  | .home _ => none
  | .peer p =>
    if p.pkg ≠ s.fabric.pkgnum then none
    else match l.fold with
      | none => (s.peerAt p.ctx.toNat true l.addr 64).key?
      | some q => (s.peerAt p.ctx.toNat true q.obj 1).key?.bind (fun key => (s.mem.foldAt key q.obj).bind (fun o => o.slot { q with key }))

/-- The line of this package that a stored line is, under whatever name. -/
def State.lineKey (s : State) (l : BLine) : Option Nat :=
  match l.dest with
  | .home key => some key
  | .peer _ => s.peerKey l

/-- Whether two stored lines are one line under two names: an address of the task and one of a peer context of this package, or two
entries of the peer table that name one context. -/
def State.oneLine (s : State) (x y : BLine) : Bool :=
  x.fold.isNone && y.fold.isNone && !x.same y && (match x.dest, y.dest with
    | .peer p, .peer q => (p.pkg == q.pkg && p.ctx == q.ctx && x.addr == y.addr) || (s.peerKey x).any (fun k => s.peerKey y == some k)
    | .home _, .peer _ | .peer _, .home _ => (s.lineKey x).any (fun k => s.lineKey y == some k)
    | .home _, .home _ => false)

/-- A line without the bytes that `new` brings. -/
def BLine.without (l new : BLine) : BLine := { l with bytes := l.bytes.filter (fun e => !new.bytes.any (fun d => d.1 == e.1)) }

/-- Adds a line to an open bundle: its bytes replace earlier ones of the line, under any of its names (R211; log 104). -/
def State.putLine (s : State) (b : Bundle) (l : BLine) : Option Bundle :=
  (b.put l).map (fun c => { c with lines := c.lines.map (fun x => if s.oneLine x l then x.without l else x) })

def State.putLines (s : State) (b : Bundle) : List BLine → Option Bundle
  | [] => some b
  | l :: ls => match s.putLine b l with
    | some c => s.putLines c ls
    | none => none

/-- What the open bundle lays over a line (R208): its own lines, and those for a peer of this package. -/
def State.overlay (s : State) (b : Bundle) (key : Nat) : Overlay :=
  (b.lines.filter (fun l => s.peerKey l == some key && l.fold == none)).foldl (fun o l =>
    { o with bytes := l.bytes.foldl (fun m e => fset none m e.1 e.2) o.bytes }) (b.overlay key)

/-! ## Lines on their way (R215, R376) -/

/-- The bundle and the line of it that a message brings. -/
def RBody.line? : RBody → Option (CSeq × Nat)
  | .line seq i _ _ | .fold seq i _ _ _ _ _ => some (seq, i)
  | .atomReq _ _ _ seq _ _ _ _ => some (seq, 0)
  | .lineAck .. | .settle .. | .settleAck .. | .quiet .. | .release .. | .loadReq .. | .loadReply .. | .atomReply .. | .refuse .. | .unknown ..
  | .uncorrectable .. | .digest .. | .endNotice | .discard .. => none

/-- Whether the routing die still carries line `i` of a bundle of core `n` to a peer of this package. -/
def State.carried (s : State) (n : Nat) (seq : CSeq) (i : Nat) : Bool :=
  s.fabric.outbox.any (fun m => m.srcPkg == s.fabric.pkgnum && m.srcCore == n && RBody.line? m.body == some (seq, i))

/-- Whether line `i` of a bundle of core `n` is still on its way to line `key` of this package. -/
def State.onWay (s : State) (n : Nat) (b : Closed) (i key : Nat) (l : BLine) : Bool :=
  l.prog == .flight && (s.mem.written l == some key || (s.peerKey l == some key && s.carried n b.seq i))

/-- Whether a line that core `n` writes in a bundle closed before name `id` is still on its way to its home (R215). -/
def State.inFlight (s : State) (n id key : Nat) : Bool :=
  (s.core n).closed.any (fun b => decide (b.uid < id) &&
    (b.lines.zip (List.range b.lines.length)).any (fun e => s.onWay n b e.2 key e.1))

/-- Whether a read by core `n` of a line for a request of name `id` waits: for a line of the core's own on its way, or for circuits to
the home (R323). -/
def State.lineHeld (s : State) (n id key : Nat) : Bool := s.inFlight n id key || !s.linksHome n key

/-! ## What waits at its home (R213, R216, R225) -/

/-- Whether a request of core `n` still waits for its lines. The requests of a task that choose versions are served in the order in
which they were issued, so that each goes on from the view that the one before has left; an earlier request of the task for the same
line, and an earlier bundle of the core on the way to it, come first too (R215, R216, R378). -/
def State.reqWaits (s : State) (n : Nat) (q : Req) : Bool :=
  (s.core n).reqs.any (fun x => x.frame == q.frame && decide (x.id < q.id) &&
    ((q.kind.chooses && x.kind.chooses) || q.kind.keys.any x.kind.keys.contains)) ||
  q.kind.keys.any (s.lineHeld n q.id)

/-- Whether an outstanding request of the core, older than a bundle, still names the line (R216). -/
def Core.readsBefore (c : Core) (uid key : Nat) : Bool :=
  c.reqs.any (fun q => decide (q.id < uid) && q.kind.keys.contains key)

/-- Whether a bundle of the core before `seq` is not yet quiet at its homes: bundles become quiet in `CSEQ` order (R213, R378). A home
of another package counts as told once its notice is sent. -/
def Core.quietBehind (c : Core) (seq : CSeq) : Bool :=
  (c.closed.takeWhile (fun b => b.seq != seq)).any (fun b => b.lines.any (fun l => l.prog != .quiet))

/-- Whether the newer version of a line is pending, and of another bundle than `q` of writer `w`. -/
def Memory.pendingFor (m : Memory) (key : Nat) (w : Writer) (q : CSeq) : Bool :=
  let t := (m.lineTags key).newer
  t.st == .pending && !(t.writer == w && t.cseq == q)

/-- Whether an atomic waits at its home: for what is before it at its line, or until the newer version is settled (R225). -/
def State.atomWaits (s : State) (n : Nat) (q : Req) (key : Nat) : Bool := s.reqWaits n q || (s.mem.lineTags key).newer.st == .pending

/-- Whether an `FCLOSE` waits: for contributions of the core on their way, or, applied, for its target bundle. -/
def Core.closeWaits (c : Core) (q : Req) (key : Nat) : Bool :=
  c.closed.any (fun b => b.fclose == some q.id || (decide (b.uid < q.id) && b.lines.any (fun l => l.prog == .flight && l.dest == .home key)))

/-- Whether an earlier line of the core for the same line is on its way. -/
def State.lineFirst (s : State) (n : Nat) (b : Closed) (i key : Nat) : Bool :=
  (s.core n).closed.any (fun x => !x.atHome && (x.lines.zip (List.range x.lines.length)).any (fun e =>
    e.1.fold == none && s.onWay n x e.2 key e.1 && (decide (x.uid < b.uid) || (x.uid == b.uid && decide (e.2 < i)))))

/-- Whether line `i` of a bundle of core `n` comes too early to line `key`: an outstanding request may need the older version, or an
earlier write of the core to the line is on its way (R216). -/
def State.lineEarly (s : State) (n : Nat) (b : Closed) (i : Nat) (fold : Bool) (key : Nat) : Bool :=
  (s.core n).readsBefore b.uid key || (!fold && s.lineFirst n b i key)

/-- Whether line `i` of a bundle of core `n` waits at line `key`, where it is written: for circuits, for another version that is pending,
for an earlier write of the core to the line, or for an outstanding request that may need the older version (R213, R216). -/
def State.lineWaits (s : State) (n : Nat) (b : Closed) (i : Nat) (l : BLine) (key : Nat) : Bool :=
  !s.linksHome n key || s.mem.pendingFor key (s.writer n) b.seq || s.lineEarly n b i l.fold.isSome key

/-! ## Messages from peers that wait at their homes (R213, R225, R323, R338) -/

/-- The destination of folds of a target line: its vault's home, or the package's fold unit. -/
def foldDest (key : Nat) : Nat := if isVault key then homeOf key else 4096

/-- The line that a message names. -/
def State.msgLine (s : State) (m : RMsg) : Option Nat :=
  let k := m.dstCtx.toNat
  match m.body with
  | .line _ _ a _ | .settle _ _ a | .quiet _ _ a => (s.peerAt k true a 64).key?
  | .fold _ _ a _ _ _ _ => (s.peerAt k true a 1).key?
  | .loadReq _ a sz _ => (s.peerAt k false a (Size.bytes sz)).key?
  | .atomReq _ _ _ _ a sz _ _ => (s.peerAt k true a (Size.bytes sz)).key?
  | .lineAck .. | .settleAck .. | .release .. | .loadReply .. | .atomReply .. | .refuse .. | .unknown .. | .uncorrectable .. | .digest ..
  | .endNotice | .discard .. => none

/-- The line that a message reads or writes: for a contribution its staging line. -/
def State.msgKey (s : State) (m : RMsg) : Option Nat :=
  match m.body with
  | .fold _ _ a k l lines _ =>
    (s.msgLine m).bind (fun key => (s.mem.foldAt key a).bind (fun o => o.slot { obj := a, key, k := BitVec.ofNat 64 k, l, lines }))
  | .settle .. | .quiet .. => none
  | .line .. | .loadReq .. | .atomReq .. | .lineAck .. | .settleAck .. | .release .. | .loadReply .. | .atomReply .. | .refuse ..
  | .unknown .. | .uncorrectable .. | .digest .. | .endNotice | .discard .. => s.msgLine m

def RMsg.writer (m : RMsg) : Writer := m.srcPkg ++ BitVec.ofNat 11 m.srcCore

/-- The source that a reply cache files an atomic under (R338): the fibre that it came over, or its package where it came through the
scale-out unit. -/
def RMsg.cacheSrc (m : RMsg) : Nat := if m.eth then 256 + m.srcPkg.toNat else m.fibre.toNat
def Memory.cached (m : Memory) (home src : Nat) : List Cached := m.cache.filter (fun e => e.home == home && e.src == src)

/-- What the home of line `key` answers to an atomic request without acting: the reply that it holds, or that the tag is older than all
64 that it holds; `none`: it acts (R338). -/
def State.replay (s : State) (m : RMsg) (tag : BitVec 16) (retry : Bool) (key : Nat) : Option (Option Cached) :=
  if !retry || m.srcPkg == s.fabric.pkgnum then none
  else
    let held := s.mem.cached (homeOf key) (RMsg.cacheSrc m)
    match held.find? (fun e => e.tag == tag && e.ctx == m.dstCtx.toNat) with
    | some e => some (some e)
    | none => if 64 ≤ held.length ∧ held.all (fun e => decide ((e.tag - tag).toNat < 2 ^ 15)) then some none else none

/-- The dispatchers that the release of a message goes to: the template's place at the peer decides (R336). A tile grid takes its
identifiers from the release's on (log 42). -/
def Ctx.peerStart (x : Ctx) (t : BitVec 12) (arg id : Word) : Start :=
  { tmpl := t.toNat, tile := none,
    ids := (List.range (x.startCount t.toNat)).map (fun j => taskId (ordOf id) (pathOf id + BitVec.ofNat 32 j)),
    args := match x.templates[t.toNat]? with
      | some p => firstArg p arg
      | none => [] }
def State.msgClusters (s : State) (m : RMsg) : List Nat :=
  match m.body with
  | .release t arg id set => ((s.ctx m.dstCtx.toNat).startTasks m.dstCtx.toNat ((s.ctx m.dstCtx.toNat).peerStart t arg id) set).map (fun e => e.2)
  | .line .. | .fold .. | .lineAck .. | .settle .. | .settleAck .. | .quiet .. | .loadReq .. | .loadReply .. | .atomReq .. | .atomReply ..
  | .refuse .. | .unknown .. | .uncorrectable .. | .digest .. | .endNotice | .discard .. => []

/-- The messages that the routing die holds and that came before `m`. -/
def State.msgsBefore (s : State) (m : RMsg) : List RMsg := s.fabric.outbox.takeWhile (fun y => y != m)

/-- Whether an earlier message of the same unit waits for the same line, or is a release to the same dispatcher (R274, R323). -/
def State.msgFirst (s : State) (m : RMsg) : Bool :=
  (s.msgsBefore m).any (fun y => y.srcPkg == m.srcPkg && y.srcCore == m.srcCore &&
    ((s.msgKey m).any (fun key => s.msgKey y == some key) || (s.msgClusters m).any (s.msgClusters y).contains))

/-- Whether a line or a contribution of a peer waits at line `key`; one of this package waits as the core's other lines do. -/
def State.peerLineWaits (s : State) (m : RMsg) (seq : CSeq) (i : Nat) (fold : Bool) (key : Nat) : Bool :=
  (!s.mem.isBad key && s.mem.pendingFor key (RMsg.writer m) seq) ||
    (m.srcPkg == s.fabric.pkgnum && (match (s.core m.srcCore).closed.find? (fun b => b.seq == seq) with
      | some b => s.lineEarly m.srcCore b i fold key
      | none => false))

/-- Whether a message that its peer does not refuse waits: for circuits from its core to the home, for an earlier message of its unit, for
a version that is pending, or, from a core of this package, for what that has sent before. -/
def State.msgWaits (s : State) (m : RMsg) : Bool :=
  let x := s.ctx m.dstCtx.toNat
  let own := m.srcPkg == s.fabric.pkgnum
  !RBody.isReply m.body && x.state == 2 && x.bound m &&
    ((own && (s.msgLine m).any (fun key => !s.linksHome m.srcCore key)) || s.msgFirst m || (match m.body with
      | .line seq i _ _ => (s.msgKey m).any (s.peerLineWaits m seq i false)
      | .fold seq i _ _ _ _ _ => (s.msgKey m).any (s.peerLineWaits m seq i true)
      | .quiet seq _ _ => own && (s.core m.srcCore).quietBehind seq
      | .loadReq req _ _ _ => own && (s.msgKey m).any (s.inFlight m.srcCore req)
      | .atomReq tag retry _ _ _ _ _ _ =>
        (s.msgKey m).any (fun key => (s.replay m tag retry key).isNone && (s.mem.lineTags key).newer.st == .pending)
      | .lineAck .. | .settle .. | .settleAck .. | .release .. | .loadReply .. | .atomReply .. | .refuse .. | .unknown .. | .uncorrectable ..
      | .digest .. | .endNotice | .discard .. => false))

/-! ## Messages of one core to one destination (R323, R380) -/

/-- A message on its way from a core to destinations of this package: when it was sent, by twice the package's next name then, and its
place among those of that moment; its priority tag. -/
structure Sent where
  at_ : Nat
  idx : Nat
  prio : Nat
  dests : List Nat
  deriving DecidableEq, Repr

def Sent.before (x y : Sent) : Bool := decide (x.at_ < y.at_) || (x.at_ == y.at_ && decide (x.idx < y.idx))

/-- The destinations of line `l`; a line for a peer goes as a message of its own. -/
def BLine.dests (l : BLine) : List Nat :=
  match l.dest with
  | .peer _ => []
  | .home key => [if l.fold.isSome && l.prog == .flight then foldDest key else homeOf key]

/-- Line `i` of a bundle as a message: the line itself, its settle, its quiet notice. -/
def Closed.sentLine (b : Closed) (i : Nat) (l : BLine) : Sent :=
  match l.prog with
  | .settling => { at_ := 2 * b.settleAt, idx := 0, prio := b.prio, dests := l.dests }
  | .quieting => { at_ := 2 * b.quietAt, idx := 0, prio := b.prio, dests := l.dests }
  | .flight | .arrived | .acked | .settled | .settleAcked | .quiet => { at_ := 2 * b.uid + 1, idx := i, prio := b.prio, dests := l.dests }
def Closed.place (b : Closed) (i : Nat) : Option Sent := b.lines[i]?.map (b.sentLine i)

/-- A message to a peer context of this package, as a message to the home or the fold unit of the line that it names. -/
def State.sentMsg (s : State) (m : RMsg) : Sent :=
  { at_ := m.sentAt, idx := ((RBody.line? m.body).map (fun e => e.2)).getD 0, prio := m.prio.toNat,
    dests := ((s.msgLine m).map (match m.body with
      | .fold .. => foldDest
      | .line .. | .lineAck .. | .settle .. | .settleAck .. | .quiet .. | .release .. | .loadReq .. | .loadReply .. | .atomReq ..
      | .atomReply .. | .refuse .. | .unknown .. | .uncorrectable .. | .digest .. | .endNotice | .discard .. => homeOf)).toList }

/-- Whether the destination can take line `i` of a bundle now. One outside the reach of the scope that closed its bundle keeps nothing
waiting (R273, R382; log 95). -/
def State.lineReady (s : State) (n : Nat) (b : Closed) (i : Nat) (l : BLine) : Bool :=
  match l.prog, l.dest with
  | .flight, .home key =>
    !b.atHome && inReach n b.scope l.dest && s.linksHome n key && (match l.fold with
      | none => !s.lineWaits n b i l key
      | some p => (match (s.mem.foldAt key p.obj).bind (fun o => o.slot p) with
        | some st => !s.lineWaits n b i l st
        | none => true))
  | .settling, .home key => s.linksHome n key
  | .quieting, .home key => s.linksHome n key && !(s.core n).quietBehind b.seq
  | _, _ => false

/-- A request as a message; its priority tag is its task's. -/
def ReqKind.dests (k : ReqKind) : List Nat :=
  match k with
  | .load .. | .ldtag .. | .ldv .. | .vld .. | .atom .. => k.keys.map homeOf
  | .fopen _ keys _ _ _ _ _ _ _ _ _ => [foldDest (keys.headD 0)]
  | .fclose _ key _ _ => [foldDest key]
  | .remote .. | .done _ => []
def Req.place (q : Req) : Option Sent := some { at_ := 2 * q.id + 1, idx := 0, prio := q.prio, dests := q.kind.dests }

/-- Whether the destination can serve a request now. -/
def State.reqReady (s : State) (n : Nat) (q : Req) : Bool :=
  match q.kind with
  | .load .. | .ldtag .. | .ldv .. | .vld .. => !s.reqWaits n q
  | .atom key _ _ _ _ _ _ => !s.atomWaits n q key
  | .fopen _ keys _ _ _ _ _ _ _ _ _ => s.linksHome n (keys.headD 0)
  | .fclose _ key _ set =>
    !(s.core n).closeWaits q key && !s.reqWaits n q && ((s.core n).reduceSet (s.writer n) set).isSome && !(s.core n).casOpen.isSome
  | .remote .. | .done _ => false

/-- The messages of core `n` that their destinations can take now: lines and requests, and what the routing die carries to peer contexts
of this package. -/
def State.sentNow (s : State) (n : Nat) : List Sent :=
  (s.core n).closed.flatMap (fun b => (b.lines.zip (List.range b.lines.length)).filterMap (fun e =>
    if s.lineReady n b e.2 e.1 then some (b.sentLine e.2 e.1) else none)) ++
  (s.core n).reqs.filterMap (fun q => if s.reqReady n q then q.place else none) ++
  (s.fabric.outbox.filter (fun m => m.srcPkg == s.fabric.pkgnum && m.dstPkg == s.fabric.pkgnum && m.srcCore == n && !s.msgWaits m)).map s.sentMsg

/-- Whether an earlier message of core `n` comes first to a destination of message `x`: messages of one unit to one destination arrive in
the order in which they were sent (R323, R380). One that has to wait there keeps no other waiting, nor does one of a lower priority tag
(R371; log 95). -/
def State.behind (s : State) (n : Nat) (x : Option Sent) : Bool :=
  match x with
  | none => false
  | some x => (s.sentNow n).any (fun y => y.before x && decide (x.prio ≤ y.prio) && y.dests.any x.dests.contains)

/-- The messages that name no home: answers, digests and end notices. Those of one context come in order. -/
def RBody.homeless : RBody → Bool
  | .digest .. | .endNotice => true
  | b => RBody.isReply b

/-- Whether the routing die can deliver a message that it holds. -/
def State.msgReady (s : State) (m : RMsg) : Bool :=
  !s.msgWaits m && !(RBody.homeless m.body && (s.msgsBefore m).any (fun y => RBody.homeless y.body && RMsg.stream m y)) &&
    !(m.srcPkg == s.fabric.pkgnum && s.behind m.srcCore (some (s.sentMsg m)))

end Sys2Proof.Machine
end

