-- ==== Sys2Proof/Machine/Window.lean ====
section
/-!
DEFINITION. Window descriptors (R175), staging and making current (R183, R184), and reading lines through a view at once
(R183, R216).
-/

namespace Sys2Proof.Machine

/-! ## Descriptors (R175) -/

/-- The formats permitted for a function. -/
def winFmtOk (func efmt : Nat) : Bool :=
  match func with
  | 1 => decide (efmt ≤ 8)
  | 2 => decide (efmt ≤ 8)
  | 3 => decide (efmt ≤ 7)
  | 4 => decide (efmt ≤ 2)
  | 5 => efmt == 0 || (decide (5 ≤ efmt) && decide (efmt ≤ 8))
  | _ => false

/-- Whether an FP32 pattern is finite. -/
def f32Finite (x : Nat) : Bool := x / 2 ^ 23 % 256 != 255

/-- Whether the parameters obey the table; `NFREQ` is `P1`[56:48] + 1, and a nonzero `P1`[63:57] makes a ROTARY
descriptor invalid (log 90). -/
def winParamsOk (w : GenWin) : Bool :=
  let p0 := w.p0.toNat
  let p1 := w.p1.toNat
  let lo := p1 % 2 ^ 32
  let hi := p1 / 2 ^ 32
  match w.func with
  | 1 => p1 == 0 && (decide (5 ≤ w.efmt) || (f32Finite (p0 % 2 ^ 32) && f32Finite (p0 / 2 ^ 32)))
  | 2 => decide (p0 < 2) && p1 == 0
  | 3 => decide (p0 < 2 ^ 32) && decide (lo < 2 ^ (fmtOfCode w.efmt).width) && decide (hi < 2 ^ (fmtOfCode w.efmt).width)
  | 4 => decide (p0 < 2 ^ 32) && p1 % 4 == 0 && decide (p1 < 2 ^ 57) && decide (w.cols ≤ 2 * (p1 / 2 ^ 48 + 1))
  | _ => p1 == 0

/-- A descriptor's fields; `valid` without its frequency table. -/
def parseWin (bs : List Byte) : GenWin :=
  let num := fun (o n : Nat) => leNat ((bs.drop o).take n)
  let w : GenWin :=
    { base := num 0 8, npages := num 8 4, func := num 12 1, efmt := num 13 1, key := num 14 1, cols := num 16 4,
      p0 := BitVec.ofNat 64 (num 24 8), p1 := BitVec.ofNat 64 (num 32 8), freq := [], valid := true }
  let colsOk := if w.func = 2 ∨ w.func = 3 ∨ w.func = 4 then decide (1 ≤ w.cols) && decide (w.cols ≤ 2 ^ 24) else w.cols == 0
  { w with valid := w.npages == 0 ||
      (w.base % 65536 == 0 && decide (w.base + 65536 * w.npages ≤ 2 ^ 48) && winFmtOk w.func w.efmt && colsOk &&
        decide (w.key ≤ (if w.func = 5 then 15 else 0)) && winParamsOk w && num 15 1 == 0 && num 20 4 == 0 && num 40 24 == 0) }

/-- Whether the descriptor has a frequency table to read: its heap address and length in bytes. -/
def GenWin.table (w : GenWin) : Option (Nat × Nat) :=
  if w.valid ∧ w.npages ≠ 0 ∧ w.func = 4 then some (w.p1.toNat % 2 ^ 48, 4 * (w.p1.toNat / 2 ^ 48 % 512 + 1)) else none

/-- The descriptor with its table kept; a value that is not finite makes it invalid. -/
def GenWin.withTable (w : GenWin) (bs : List Byte) : GenWin :=
  let fs := (List.range (bs.length / 4)).map (fun k => BitVec.ofNat 32 (leNat ((bs.drop (4 * k)).take 4)))
  { w with freq := fs, valid := w.valid && fs.all (fun v => f32Finite v.toNat) }

def Ctx.heapRange (x : Ctx) (a n : Nat) : Bool := decide (x.heapbase.toNat ≤ a) && decide (a + n ≤ x.heaplimit.toNat)

/-! ## Staging (R183, R184) -/

def Ctx.stageWin (x : Ctx) (k : Nat) (w : GenWin) : Ctx :=
  { x with staged := x.staged.filter (fun e => e.1 != k) ++ [(k, w)] }
def Ctx.stageKey (x : Ctx) (k : Nat) (v : BitVec 128) : Ctx :=
  { x with stagedKeys := x.stagedKeys.filter (fun e => e.1 != k) ++ [(k, v)] }
/-- Makes everything staged current. -/
def Ctx.makeCurrent (x : Ctx) : Ctx :=
  { x with windows := x.staged.foldl (fun m e => fset GenWin.absent m e.1 e.2) x.windows,
           keys := x.stagedKeys.foldl (fun m e => fset 0 m e.1 e.2) x.keys, staged := [], stagedKeys := [] }

/-! ## Reading through a frame's view (R216) -/

/-- What a read of a line gives: a version with the view updated, a wait, view-too-old, an uncorrectable line. -/
inductive Got where
  | ok (v : Version) (s : State)
  | wait
  | tooOld
  | dead
  deriving DecidableEq, Repr

/-- Whether the home keeps older versions for a task's re-run (R218). -/
def Frame.protect (f : Frame) : Bool := decide (4 ≤ f.task.vto)

/-- A read that lacks a bound waits for the answers of the writers that can be asked, and is then too old (R216). -/
def Frame.lacking (f : Frame) (v : View) : Got := if v.askable.all f.asked.contains then .tooOld else .wait

/-- The home chooses a version for a request of frame `f` of core `n` that carries the view of acquire count `k`, and the reply
updates that view. -/
def State.readLine (s : State) (n : Nat) (f : Frame) (k key : Nat) : Got :=
  if s.mem.isBad key then .dead
  else match s.choose n f.uid (f.viewAt k) key with
    | .take v w =>
      match (s.core n).tookView (s.writer n) f k v.tag w with
      | none => f.lacking f.view
      | some g => .ok v (s.setCore n ((s.core n).onFrame f.uid (fun _ =>
          { g with asked := [], seen := if g.protect && !g.seen.contains key then g.seen ++ [key] else g.seen })))
    | .full => f.lacking (f.viewAt k)
    | .tooOld => .tooOld

/-- Whether a read at issue by frame `f` of core `n` must wait: an earlier request of the task has not chosen its version yet, a bundle of
the core is on the way to the line, no circuits lead to its home, or an earlier message of the core comes there first. -/
def State.readWaits (s : State) (n : Nat) (f : Frame) (key : Nat) : Bool :=
  (s.core n).reqs.any (fun q => q.frame == f.uid && (q.kind.chooses || q.kind.keys.contains key)) || s.lineHeld n s.uid key ||
    s.behind n (some { at_ := 2 * s.uid + 1, idx := 0, prio := f.prio, dests := [homeOf key] })

/-- Reads bytes at translated addresses of lines in order for the top frame, as loads do that reply at once. -/
inductive Bytes where
  | ok (bs : List Byte) (s : State)
  | wait
  | stop (s : State)
  | bad (cause : Nat) (a : Word)
  deriving DecidableEq, Repr

/-- The parts (address, length) of aligned lines, cut where a line of main memory ends: with `HEAPOFF` no multiple of 64, a heap line lies
in two (R163). -/
def Ctx.cutParts (x : Ctx) (ps : List (Nat × Nat)) : List (Nat × Nat) :=
  ps.flatMap (fun p =>
    let o := (if x.inHeap (BitVec.ofNat 64 p.1) then p.1 + x.heapoff.toNat else p.1) % 64
    if o + p.2 ≤ 64 then [p] else [(p.1, 64 - o), (p.1 + (64 - o), p.2 - (64 - o))])

/-- The bytes of parts in turn, each within one line, with the open bundle laid over them (R208). -/
def State.readCut (s : State) (n : Nat) : List (Nat × Nat) → Bytes
  | [] => .ok [] s
  | p :: ps =>
    match (s.core n).frames with
    | [] => .wait
    | f :: _ =>
      let x := s.ctx f.task.ctx
      let a : Word := BitVec.ofNat 64 p.1
      let r := s.resolve n f.task.ctx false a
      match r.1 with
      | .trap c => .bad c a
      | .fault page => .stop (r.2.pageFault n page)
      | .dead c => .stop (r.2.endFor c f.task)
      | .ok (.window k) =>
        match r.2.readCut n ps with
        | .ok bs s1 => .ok (x.windowBytes k p.1 p.2 ++ bs) s1
        | q => q
      | .ok (.line key off _) =>
        if s.readWaits n f key then .wait
        else match r.2.readLine n f f.acq key with
          | .wait => .wait
          | .tooOld => .stop (r.2.viewTooOld n)
          | .dead => .stop (r.2.endCtx f.task.ctx 0x04 (ordOf f.task.id))
          | .ok v s1 =>
            match s1.readCut n ps with
            | .ok bs s2 => .ok (((layOver v.data (s.overlay f.bundle key).bytes).drop off).take p.2 ++ bs) s2
            | q => q

/-- The bytes of parts (address, length) of aligned lines that the top frame of core `n` reads. -/
def State.readParts (s : State) (n : Nat) (ps : List (Nat × Nat)) : Bytes :=
  match (s.core n).frames with
  | [] => .wait
  | f :: _ => s.readCut n ((s.ctx f.task.ctx).cutParts ps)

end Sys2Proof.Machine
end

