-- ==== Sys2Proof/Machine/Fetch.lean ====
section
/-!
DEFINITION. Fetching an instruction (R105, R106, R119 orders 1 to 7): the fetch block that holds the program counter, and the
traps of fetch and decode.
-/

namespace Sys2Proof.Machine

/-- What a fetch gives: an instruction, a trap with `TINSN0` and `TINSN1`, or the end of the task or of the context. -/
inductive Fetched where
  | ok (i : Instr)
  | trap (cause : Nat) (tval t0 t1 : Word)
  | fault (page : Nat)
  | dead (cause : Nat)
  deriving DecidableEq, Repr

/-- `TINSN1` of fetched bytes: `J` or `K` as the length says (R353). -/
def fetchTinsn1 (bs : List Byte) : Word :=
  match lenBytes (BitVec.ofNat 2 ((bs.getD 0 0).toNat)) with
  | 12 => wordOf ((bs.drop 8).take 4)
  | 16 => wordOf ((bs.drop 8).take 8)
  | _ => 0

/-- Orders 4 to 7 of R119 on the bytes from the program counter to the end of its fetch block. -/
def decodeBlock (bs : List Byte) : Fetched :=
  let len := lenBytes (BitVec.ofNat 2 ((bs.getD 0 0).toNat))
  if len = 0 then .trap 0x03 0 (wordOf (bs.take 8)) 0
  else if bs.length < len then .trap 0x04 0 0 0
  else match decode bs with
    | .ok r => .ok r.1
    | .error _ => .trap 0x03 0 (wordOf (bs.take 8)) (fetchTinsn1 bs)

/-- The contents of a line and the next one before each host write to either of them under live context `k`. -/
def Memory.oldCode (m : Memory) (k key : Nat) : List (List Byte) :=
  ((fget [] m.hostOld key).filter (fun e => e.2.contains k)).map (fun e => e.1)

/-- The bytes of a fetch block of context `k` from address `a` on. Where the host has written the line while the context was live, the
block returns its contents as they were before one of the writes, or new ones, by a free choice (R27; log 17). -/
def State.blockBytes (s : State) (k : Nat) (p : Place) (a : Word) : List Byte × State :=
  let n := 32 - a.toNat % 32
  match p with
  | .line key off _ =>
    let l := s.mem.oldCode k key
    let new := s.mem.physRead (64 * key + off) n
    if l.isEmpty then (new, s)
    else (match l[Config.oldCode s.draws % (l.length + 1)]? with
      | some bs => (bs.drop off).take n
      | none => new, { s with draws := s.draws + 1 })
  | .window w => ((s.ctx k).windowBytes w a.toNat n, s)

/-- Whether a fetch block touches an uncorrectable line. -/
def Memory.blockBad (m : Memory) (p : Place) (a : Word) : Bool :=
  match p with
  | .line key off _ => m.isBad key || m.isBad ((64 * key + off + (31 - a.toNat % 32)) / 64)
  | .window _ => false

/-- Fetches for the top frame of core `n`. -/
def State.fetch (s : State) (n : Nat) (f : Frame) : Fetched × State :=
  let x := s.ctx f.task.ctx
  let a := f.pc
  if a.extractLsb' 0 2 ≠ 0 then (.trap 0x01 0 0 0, s)
  else if a.toNat < x.codebase.toNat ∨ x.codebase.toNat + x.codelen ≤ a.toNat then (.trap 0x02 0 0 0, s)
  else
    let r := s.resolve n f.task.ctx false a
    match r.1 with
    | .ok p =>
      if r.2.mem.blockBad p a then (.dead 0x04, r.2)
      else
        let b := r.2.blockBytes f.task.ctx p a
        (decodeBlock b.1, b.2)
    | .trap c => (.trap c a 0 0, r.2)
    | .fault page => (.fault page, r.2)
    | .dead c => (.dead c, r.2)

/-- A context that holds one core and a code section of one fetch block, for `State.withFetchWord` (log 21). -/
def probeCtx (n : Nat) : Ctx :=
  { Ctx.free with
    state := 2, codebase := 0x10000, codelen := 32, heaplimit := 0x20000, bandmap := 0, admitted := true,
    templates := [Template.blank],
    cores := [n], coreids := [0], vdmask := 1, vdies := [(0, { valid := true, pdie := n / 136, clmask := 1 })] }

def probeTask : Task :=
  { ctx := 0, tmpl := 0, id := 0, args := [], set := [], geom := 0, core := none, vto := 0, cont := none }

end Sys2Proof.Machine
end

