-- ==== Sys2Proof/Machine/Boundary.lean ====
section
/-!
DEFINITION. The instruction boundary (R349, R350, R365) and what exception statistics do (R200–R202): INSTRUCTION_BOUNDARY,
EXCEPTION_WINDOW_END, EXCEPTION_THRESHOLD.
-/

namespace Sys2Proof.Machine

/-! ## Exception statistics (R200, R202) -/

/-- The traps of crossed thresholds enter the running task in the order of their classes; without a frame they stay due. -/
def State.enterDue (s : State) (n : Nat) : State :=
  let c := s.core n
  if c.frames.isEmpty || c.trapDue.isEmpty then s
  else
    ((List.range 5).flatMap (fun k => c.trapDue.filter (fun x => x.cls == k))).foldl
      (fun s x => s.takeTrap n 0x16 true (BitVec.ofNat 64 x.cls) x.t0 x.t1) (s.setCore n { c with trapDue := [] })

def Core.setHit (c : Core) (k : Nat) : Core := { c with esthr := fset 0 c.esthr k (fget 0 c.esthr k ||| 0x400000000) }

/-- The class whose crossing acts next: crossings act in increasing class order (R202). -/
def Core.nextCrossed (c : Core) : Option Nat := (List.range 5).find? (fun k => c.crossed.any (fun x => x.cls == k))

/-- EXCEPTION_THRESHOLD: a crossing sets `HIT` and acts once, as `ACT` gives. -/
def execExceptionThreshold (core k : Nat) (s : State) : Host.Outcome State Fault Refusal :=
  let c := s.core core
  match (if c.nextCrossed = some k then c.crossed.find? (fun x => x.cls == k) else none) with
  | none => .next s
  | some x =>
    let c1 := { c.setHit k with crossed := c.crossed.filter (fun x => x.cls != k) }
    let c2 := if (c.act k).getLsbD 0 then { c1 with trapDue := c1.trapDue ++ [x] } else c1
    let s1 := s.setCore core c2
    .next (if (c.act k).getLsbD 1 then
      s1.post core c.ctx 0x07 (payload [(8, 1, k), (12, 4, x.cnt.toNat), (16, 4, x.thr.toNat), (20, 4, x.pos.toNat)])
    else s1)

/-- EXCEPTION_WINDOW_END: a new window begins, once the crossings of the old one have acted. -/
def execExceptionWindowEnd (core : Nat) (s : State) : Host.Outcome State Fault Refusal :=
  let c := s.core core
  .next (if c.windowFull ∧ c.crossed.isEmpty then s.setCore core c.newWindow else s)

/-! ## Debug halts (R365) -/

/-- Whether comparator `k` matches the next instruction of a frame. -/
def Debug.compares (d : Debug) (k : Nat) (f : Frame) : Bool :=
  let a := fget 0 d.dba k
  a.getLsbD 0 && (a.extractLsb' 2 46).toNat == f.pc.toNat / 4 && ((fget 0 d.dbc k).extractLsb' 32 6).toNat == f.task.ctx

/-- The matches of an arrival: a comparator with a nonzero `DBCNT` counts it down, one with zero halts. -/
def Debug.matched (d : Debug) (f : Frame) : Debug × Bool :=
  (List.range 4).foldl (fun (r : Debug × Bool) k =>
    if r.1.compares k f then
      (if (fget 0 r.1.dbc k).extractLsb' 0 16 = 0 then (r.1, true)
        else ({ r.1 with dbc := fset 0 r.1.dbc k (fget 0 r.1.dbc k - 1) }, r.2))
    else r) (d, false)

/-- Whether the next instruction of a frame is a `BRK`. -/
def State.brkNext (s : State) (n : Nat) (f : Frame) : Bool :=
  match (s.fetch n f).1 with
  | .ok i => (match i with
    | .brk _ _ => true
    | _ => false)
  | .trap .. | .fault _ | .dead _ => false

/-- The core halts for a reason: its record is posted, and its offer goes back. The next program counter of a core with no frame is
given as 0 (log 100). -/
def State.haltCore (s : State) (n : Nat) (reason : Nat) : State :=
  let c := s.core n
  let pc := (c.top?.map (fun f => f.pc.toNat)).getD 0
  let s1 := s.setCore n { c with
    passed := false, dbg := { c.dbg with halted := true, reason := BitVec.ofNat 3 reason, haltReq := false, stepping := false } }
  ((s1.post n c.ctx 0x0F (payload [(8, 1, reason), (16, 8, pc)])).returnOffer n).offers (clusterOf n)

/-- Why a core halts at its boundary, if it does (R365). The order, where several conditions hold, is the model's choice (log 115). -/
def haltReason (d : Debug) (brk hit : Bool) : Option Nat :=
  if d.haltReq then some 0 else if brk && d.brken then some 1 else if hit then some 2 else if d.stepping && d.issued then some 3 else none

/-- Step 5 of R349. The `BRK` at which a core halts issues as a `NOP` later. -/
def State.haltStep (s : State) (n : Nat) : State :=
  let c := s.core n
  match c.frames with
  | [] => match haltReason c.dbg false false with
    | some r => s.haltCore n r
    | none => s
  | f :: fs =>
    let m := if f.arrived then c.dbg.matched f else (c.dbg, false)
    let brk := s.brkNext n f
    match haltReason m.1 (brk && !f.brkHalted) m.2 with
    | some r =>
      (s.setCore n { c with dbg := m.1, frames := { f with arrived := false, brkHalted := brk } :: fs }).haltCore n r
    | none => s.setCore n { c with dbg := m.1, frames := { f with arrived := false } :: fs }

/-! ## The boundary (R349) -/

/-- Whether the frame on top may issue now. -/
def State.mayIssue (s : State) (n : Nat) : Bool :=
  let c := s.core n
  match c.frames with
  | [] => false
  | f :: _ => !c.dbg.halted && !f.deferred && f.resident && (s.ctx f.task.ctx).state == 2 && !s.settleWaits n f

/-- The end of a boundary: the frame about to run has its window, and a wait for settlement that is over is forgotten. -/
def State.pass (s : State) (n : Nat) : State :=
  let s1 := if (s.core n).dbg.halted then s else s.fillTop n
  if s1.mayIssue n then
    let c := s1.core n
    s1.setCore n { c with passed := true, frames := match c.frames with
      | [] => []
      | f :: fs => { f with settleWait := none } :: fs }
  else s1

/-- A deferred abort of the frame about to issue. -/
def State.takeDeferred (s : State) (n : Nat) : State :=
  match (s.core n).top? with
  | some f => if f.deferred then s.viewTooOld n else s
  | none => s

/-- INSTRUCTION_BOUNDARY. A halted core only takes part in the end of its context; no boundary falls inside an instruction, nor before the
crossings of the instruction before it have acted (R202). -/
def execInstructionBoundary (core : Nat) (s : State) : Host.Outcome State Fault Refusal :=
  let c := s.core core
  if c.passed || c.reqs.any (fun q => q.inside) || !c.crossed.isEmpty then .next s
  else
    let s1 := s.tearCore core
    if c.dbg.halted then .next s1
    else
      let r := ((s1.takeDeferred core).enterDue core).admitStep core
      if r.2 then .next ((r.1.haltStep core).pass core) else .next r.1

end Sys2Proof.Machine
end

