-- ==== Sys2Proof/Machine/Int.lean ====
section
/-!
DEFINITION. The integer and address instructions (R138–R144) and the predicate instructions (R145–R147).
-/

namespace Sys2Proof.Machine

/-! ## Results (R141–R143) -/

def mulhS (a b : Word) : Word := (a.signExtend 128 * b.signExtend 128).extractLsb' 64 64
def mulhU (a b : Word) : Word := (a.setWidth 128 * b.setWidth 128).extractLsb' 64 64

/-- A register shift count. -/
def cnt6 (b : Word) : Nat := (b.extractLsb' 0 6).toNat

def minWord (u : Bool) (a b : Word) : Word := if (if u then a.ult b else a.slt b) then a else b
def maxWord (u : Bool) (a b : Word) : Word := if (if u then a.ult b else a.slt b) then b else a
def absWord (a : Word) : Word := if a.slt 0 then 0 - a else a

/-- Leading zeros of the low `n` bits. -/
def clzFrom (a : Word) : Nat → Nat
  | 0 => 0
  | n + 1 => if a.getLsbD n then 0 else clzFrom a n + 1
def clzWord (a : Word) : Word := BitVec.ofNat 64 (clzFrom a 64)
def popcWord (a : Word) : Word := BitVec.ofNat 64 (onesOf a)

/-- `DIV` and `REM` (R142). -/
def divWord (u : Bool) (a b : Word) : Word :=
  if b = 0 then 0xFFFFFFFFFFFFFFFF
  else if u then a / b
  else if a = 0x8000000000000000 ∧ b = 0xFFFFFFFFFFFFFFFF then 0x8000000000000000
  else BitVec.ofInt 64 (a.toInt.tdiv b.toInt)
def remWord (u : Bool) (a b : Word) : Word :=
  if b = 0 then a
  else if u then a % b
  else if a = 0x8000000000000000 ∧ b = 0xFFFFFFFFFFFFFFFF then 0
  else BitVec.ofInt 64 (a.toInt.tmod b.toInt)

/-- Saturating sums. -/
def addsWord (u : Bool) (a b : Word) : Word :=
  if u then BitVec.ofNat 64 (min (a.toNat + b.toNat) (2 ^ 64 - 1)) else BitVec.ofInt 64 (satS 64 (a.toInt + b.toInt))

/-- A mask of the `w` low bits. -/
def onesWord (w : Nat) : Word := BitVec.ofNat 64 (2 ^ w - 1)
/-- `EXT` of `w` bits from bit `lo`. -/
def extWord (sx : Bool) (a : Word) (lo w : Nat) : Word :=
  let f := (a >>> lo) &&& onesWord w
  if sx && f.getLsbD (w - 1) then f ||| ~~~(onesWord w) else f
/-- `INS` of the `w` low bits of `a` at bit `lo` of `d`. -/
def insWord (d a : Word) (lo w : Nat) : Word :=
  let mask := onesWord w <<< lo
  (d &&& ~~~mask) ||| ((a <<< lo) &&& mask)
/-- `LEA`. -/
def leaWord (a b : Word) (s : BitVec 3) (disp : BitVec 19) : Word := a + (b <<< s.toNat) + disp.signExtend 64

/-! ## Meanings -/

/-- An instruction that writes one function of the frame to `d` with latency `lat` (R139). -/
def intRes (i : Instr) (regs : List Reg) (d : GReg) (lat : Nat) (v : Frame → Word) (s : State) :
    Host.Outcome State Fault Refusal :=
  .next (issueRes i regs s (fun f => [gRes d (v f) lat]))

/-- `NOP`: the bits that R118 ignores show only in `TINSN0` and `TINSN1`. -/
def execNop (h : Hdr) (x : NopBits) (s : State) : Host.Outcome State Fault Refusal :=
  .next (issueRes (.nop h x) [] s (fun _ => []))
def execAdd (h : Hdr) (d a b : GReg) (s : State) : Host.Outcome State Fault Refusal :=
  intRes (.add h d a b) [.g d, .g a, .g b] d 1 (fun f => f.getG a + f.getG b) s
def execAddi (h : Hdr) (d a : GReg) (imm : BitVec 24) (s : State) : Host.Outcome State Fault Refusal :=
  intRes (.addi h d a imm) [.g d, .g a] d 1 (fun f => f.getG a + imm.signExtend 64) s
def execSub (h : Hdr) (d a b : GReg) (s : State) : Host.Outcome State Fault Refusal :=
  intRes (.sub h d a b) [.g d, .g a, .g b] d 1 (fun f => f.getG a - f.getG b) s
def execMul (h : Hdr) (d a b : GReg) (s : State) : Host.Outcome State Fault Refusal :=
  intRes (.mul h d a b) [.g d, .g a, .g b] d 3 (fun f => f.getG a * f.getG b) s
def execMulh (h : Hdr) (u : Bool) (d a b : GReg) (s : State) : Host.Outcome State Fault Refusal :=
  intRes (.mulh h u d a b) [.g d, .g a, .g b] d 3
    (fun f => if u then mulhU (f.getG a) (f.getG b) else mulhS (f.getG a) (f.getG b)) s

/-- Whether a register awaits nothing: `g0` takes no result (R112). -/
def awaitReg (d : GReg) : List Reg := if d = 0 then [] else [.g d]

/-- An operation of the divider (R142): it waits at issue while the divider is busy, and its result is a variable-latency
one. -/
def divIssue (i : Instr) (d a b : GReg) (v : Word → Word → Word) (s : State) : Host.Outcome State Fault Refusal :=
  .next (issue i [.g d, .g a, .g b] [] false s (fun n c f =>
    if c.div.isSome then .wait
    else .go (s.setCore n { c.setTop { f with await := f.await ++ awaitReg d } with
        div := some { frame := f.uid, dst := d, val := v (f.getG a) (f.getG b), exc := 0 } }) Ret.plain))

def execDiv (h : Hdr) (u : Bool) (d a b : GReg) (s : State) : Host.Outcome State Fault Refusal :=
  divIssue (.div h u d a b) d a b (divWord u) s
def execRem (h : Hdr) (u : Bool) (d a b : GReg) (s : State) : Host.Outcome State Fault Refusal :=
  divIssue (.rem h u d a b) d a b (remWord u) s

/-- DIVIDE_COMPLETE: the divider delivers its result and is free (R142). -/
def execDivideComplete (core : Nat) (s : State) : Host.Outcome State Fault Refusal :=
  let c := s.core core
  match c.div with
  | none => .next s
  | some q => .next (s.setCore core ({ c with div := none }.deliver q.frame (.g q.dst) (q.val.setWidth 256)))

def execAnd (h : Hdr) (d a b : GReg) (s : State) : Host.Outcome State Fault Refusal :=
  intRes (.and h d a b) [.g d, .g a, .g b] d 1 (fun f => f.getG a &&& f.getG b) s
def execOr (h : Hdr) (d a b : GReg) (s : State) : Host.Outcome State Fault Refusal :=
  intRes (.or h d a b) [.g d, .g a, .g b] d 1 (fun f => f.getG a ||| f.getG b) s
def execXor (h : Hdr) (d a b : GReg) (s : State) : Host.Outcome State Fault Refusal :=
  intRes (.xor h d a b) [.g d, .g a, .g b] d 1 (fun f => f.getG a ^^^ f.getG b) s
def execAndn (h : Hdr) (d a b : GReg) (s : State) : Host.Outcome State Fault Refusal :=
  intRes (.andn h d a b) [.g d, .g a, .g b] d 1 (fun f => f.getG a &&& ~~~(f.getG b)) s
def execShl (h : Hdr) (d a b : GReg) (s : State) : Host.Outcome State Fault Refusal :=
  intRes (.shl h d a b) [.g d, .g a, .g b] d 1 (fun f => f.getG a <<< cnt6 (f.getG b)) s
def execShr (h : Hdr) (d a b : GReg) (s : State) : Host.Outcome State Fault Refusal :=
  intRes (.shr h d a b) [.g d, .g a, .g b] d 1 (fun f => f.getG a >>> cnt6 (f.getG b)) s
def execSar (h : Hdr) (d a b : GReg) (s : State) : Host.Outcome State Fault Refusal :=
  intRes (.sar h d a b) [.g d, .g a, .g b] d 1 (fun f => (f.getG a).sshiftRight (cnt6 (f.getG b))) s
def execRot (h : Hdr) (d a b : GReg) (s : State) : Host.Outcome State Fault Refusal :=
  intRes (.rot h d a b) [.g d, .g a, .g b] d 1 (fun f => (f.getG a).rotateLeft (cnt6 (f.getG b))) s
def execShli (h : Hdr) (d a : GReg) (n : BitVec 6) (s : State) : Host.Outcome State Fault Refusal :=
  intRes (.shli h d a n) [.g d, .g a] d 1 (fun f => f.getG a <<< n.toNat) s
def execShri (h : Hdr) (d a : GReg) (n : BitVec 6) (s : State) : Host.Outcome State Fault Refusal :=
  intRes (.shri h d a n) [.g d, .g a] d 1 (fun f => f.getG a >>> n.toNat) s
def execSari (h : Hdr) (d a : GReg) (n : BitVec 6) (s : State) : Host.Outcome State Fault Refusal :=
  intRes (.sari h d a n) [.g d, .g a] d 1 (fun f => (f.getG a).sshiftRight n.toNat) s
def execMovi (h : Hdr) (d : GReg) (imm : BitVec 32) (s : State) : Host.Outcome State Fault Refusal :=
  intRes (.movi h d imm) [.g d] d 1 (fun _ => imm.signExtend 64) s
def execMoviD (h : Hdr) (d : GReg) (imm : BitVec 64) (s : State) : Host.Outcome State Fault Refusal :=
  intRes (.moviD h d imm) [.g d] d 1 (fun _ => imm) s
def execMin (h : Hdr) (u : Bool) (d a b : GReg) (s : State) : Host.Outcome State Fault Refusal :=
  intRes (.min h u d a b) [.g d, .g a, .g b] d 1 (fun f => minWord u (f.getG a) (f.getG b)) s
def execMax (h : Hdr) (u : Bool) (d a b : GReg) (s : State) : Host.Outcome State Fault Refusal :=
  intRes (.max h u d a b) [.g d, .g a, .g b] d 1 (fun f => maxWord u (f.getG a) (f.getG b)) s
def execAbs (h : Hdr) (d a : GReg) (s : State) : Host.Outcome State Fault Refusal :=
  intRes (.abs h d a) [.g d, .g a] d 1 (fun f => absWord (f.getG a)) s
def execClz (h : Hdr) (d a : GReg) (s : State) : Host.Outcome State Fault Refusal :=
  intRes (.clz h d a) [.g d, .g a] d 1 (fun f => clzWord (f.getG a)) s
def execPopc (h : Hdr) (d a : GReg) (s : State) : Host.Outcome State Fault Refusal :=
  intRes (.popc h d a) [.g d, .g a] d 1 (fun f => popcWord (f.getG a)) s
def execExt (h : Hdr) (sx : Bool) (d a : GReg) (lo wm1 : BitVec 6) (s : State) : Host.Outcome State Fault Refusal :=
  intRes (.ext h sx d a lo wm1) [.g d, .g a] d 1 (fun f => extWord sx (f.getG a) lo.toNat (wm1.toNat + 1)) s
/-- `INS` reads `gd` as a source too (R143). -/
def execIns (h : Hdr) (d a : GReg) (lo wm1 : BitVec 6) (s : State) : Host.Outcome State Fault Refusal :=
  intRes (.ins h d a lo wm1) [.g d, .g a] d 1 (fun f => insWord (f.getG d) (f.getG a) lo.toNat (wm1.toNat + 1)) s
def execSel (h : Hdr) (d : GReg) (c : PReg) (a b : GReg) (s : State) : Host.Outcome State Fault Refusal :=
  intRes (.sel h d c a b) [.g d, .g a, .g b, .p c] d 1 (fun f => if f.getP c then f.getG a else f.getG b) s
def execLea (h : Hdr) (d a b : GReg) (k : BitVec 3) (disp : BitVec 19) (s : State) : Host.Outcome State Fault Refusal :=
  intRes (.lea h d a b k disp) [.g d, .g a, .g b] d 1 (fun f => leaWord (f.getG a) (f.getG b) k disp) s
def execAdds (h : Hdr) (u : Bool) (d a b : GReg) (s : State) : Host.Outcome State Fault Refusal :=
  intRes (.adds h u d a b) [.g d, .g a, .g b] d 1 (fun f => addsWord u (f.getG a) (f.getG b)) s
def execMad (h : Hdr) (d a b c : GReg) (s : State) : Host.Outcome State Fault Refusal :=
  intRes (.mad h d a b c) [.g d, .g a, .g b, .g c] d 3 (fun f => f.getG a * f.getG b + f.getG c) s

/-- The hop distance of two physical dies, two rows of four (R73). -/
def hopDist (p q : Nat) : Nat :=
  (if p / 4 ≤ q / 4 then q / 4 - p / 4 else p / 4 - q / 4) + (if p % 4 ≤ q % 4 then q % 4 - p % 4 else p % 4 - q % 4)

/-- `HOPS` (R144): a virtual die that contributes no core traps with cause 0x10. -/
def execHops (h : Hdr) (d a b : GReg) (s : State) : Host.Outcome State Fault Refusal :=
  .next (issue (.hops h d a b) [.g d, .g a, .g b] [] false s (fun _ _ f =>
    let x := s.ctx f.task.ctx
    let p := (f.getG a).toNat
    let q := (f.getG b).toNat
    if 8 ≤ p ∨ 8 ≤ q ∨ !x.vdmask.getLsbD p ∨ !x.vdmask.getLsbD q then .trap 0x10 0
    else .go s { Ret.plain with writes := [gRes d (BitVec.ofNat 64
      (hopDist (fget VDie.none x.vdies p).pdie (fget VDie.none x.vdies q).pdie)) 2] }))

/-! ## Compares and predicates -/

/-- `CMP` and `CMPI` (R146). -/
def cmpWrites (f : Frame) (cond : Cond) (comb : Comb) (d c : PReg) (a b : Word) : List Write :=
  let r := condHolds 64 cond a.toNat b.toNat
  [pRes d (combine comb (f.getP d) r) 1, pRes c (combine comb (f.getP c) (!r)) 1]

def execCmp (h : Hdr) (cond : Cond) (comb : Comb) (d c : PReg) (a b : GReg) (s : State) : Host.Outcome State Fault Refusal :=
  .next (issueRes (.cmp h cond comb d c a b) [.p d, .g a, .g b, .p c] s
    (fun f => cmpWrites f cond comb d c (f.getG a) (f.getG b)))
def execCmpi (h : Hdr) (cond : Cond) (comb : Comb) (d : PReg) (a : GReg) (imm : BitVec 24) (s : State) :
    Host.Outcome State Fault Refusal :=
  .next (issueRes (.cmpi h cond comb d a imm) [.p d, .g a] s
    (fun f => cmpWrites f cond comb d 0 (f.getG a) (imm.signExtend 64)))

/-- An instruction that writes one predicate (R147). -/
def predRes (i : Instr) (regs : List Reg) (d : PReg) (v : Frame → Bool) (s : State) : Host.Outcome State Fault Refusal :=
  .next (issueRes i regs s (fun f => [pRes d (v f) 1]))

def execPand (h : Hdr) (n : Bool) (d a b : PReg) (s : State) : Host.Outcome State Fault Refusal :=
  predRes (.pand h n d a b) [.p d, .p a, .p b] d (fun f => f.getP a && (f.getP b != n)) s
def execPor (h : Hdr) (n : Bool) (d a b : PReg) (s : State) : Host.Outcome State Fault Refusal :=
  predRes (.por h n d a b) [.p d, .p a, .p b] d (fun f => f.getP a || (f.getP b != n)) s
def execPxor (h : Hdr) (n : Bool) (d a b : PReg) (s : State) : Host.Outcome State Fault Refusal :=
  predRes (.pxor h n d a b) [.p d, .p a, .p b] d (fun f => f.getP a != (f.getP b != n)) s
def execPnot (h : Hdr) (d a : PReg) (s : State) : Host.Outcome State Fault Refusal :=
  predRes (.pnot h d a) [.p d, .p a] d (fun f => !f.getP a) s
def execPset (h : Hdr) (d : PReg) (v : Bool) (s : State) : Host.Outcome State Fault Refusal :=
  predRes (.pset h d v) [.p d] d (fun _ => v) s
def execPtest (h : Hdr) (d : PReg) (a : GReg) (bit : BitVec 6) (s : State) : Host.Outcome State Fault Refusal :=
  predRes (.ptest h d a bit) [.p d, .g a] d (fun f => (f.getG a).getLsbD bit.toNat) s

/-- The predicates as a number, bit 0 set for `p0` (R147). -/
def Frame.predWord (f : Frame) : Word := (f.p ||| 1).setWidth 64

/-- `PGET` reads every predicate. -/
def execPget (h : Hdr) (d : GReg) (s : State) : Host.Outcome State Fault Refusal :=
  intRes (.pget h d) [.g d, .p 1, .p 2, .p 3, .p 4, .p 5, .p 6, .p 7] d 1 Frame.predWord s

/-- The predicates that a mask of `PPUT` names. -/
def maskPreds (mask : BitVec 7) : List PReg := ([1, 2, 3, 4, 5, 6, 7] : List PReg).filter (fun k => mask.getLsbD (k.toNat - 1))

def execPput (h : Hdr) (a : GReg) (mask : BitVec 7) (s : State) : Host.Outcome State Fault Refusal :=
  .next (issueRes (.pput h a mask) (.g a :: (maskPreds mask).map .p) s
    (fun f => (maskPreds mask).map (fun k => pRes k ((f.getG a).getLsbD k.toNat) 1)))

end Sys2Proof.Machine
end

