-- ==== Sys2Proof/Machine/Float.lean ====
section
/-!
DEFINITION. The scalar floating-point and conversion instructions (R151–R158).
-/

namespace Sys2Proof.Machine

/-- The value that an instruction reads: the low bits of a register (R151). -/
def Frame.getF (f : Frame) (w : Nat) (n : GReg) : Nat := (f.getG n).toNat % 2 ^ w

/-- A result with the exceptions that it raised. -/
def fltRes (i : Instr) (regs : List Reg) (d : GReg) (lat : Nat) (v : State → Frame → Nat × Exc) (s : State) :
    Host.Outcome State Fault Refusal :=
  .next (issue i regs [] false s (fun _ _ f =>
    .go s { Ret.plain with exc := (v s f).2, writes := [gRes d (BitVec.ofNat 64 (v s f).1) lat] }))

/-- An operation of the unit that `FDIV` and `FSQRT` share (R151); its exceptions are counted at issue (log 22). -/
def fdivIssue (i : Instr) (regs : List Reg) (d : GReg) (v : Frame → Nat × Exc) (s : State) :
    Host.Outcome State Fault Refusal :=
  .next (issue i regs [] false s (fun n c f =>
    if c.fdiv.isSome then .wait
    else .go (s.setCore n { c.setTop { f with await := f.await ++ awaitReg d } with
        fdiv := some { frame := f.uid, dst := d, val := BitVec.ofNat 64 (v f).1, exc := 0 } }) { Ret.plain with exc := (v f).2 }))

def execFadd (h : Hdr) (f : Fmt) (r : Rnd) (d a b : GReg) (s : State) : Host.Outcome State Fault Refusal :=
  fltRes (.fadd h f r d a b) [.g d, .g a, .g b] d 4 (fun _ x => fAdd f r (x.getF f.width a) (x.getF f.width b)) s
def execFsub (h : Hdr) (f : Fmt) (r : Rnd) (d a b : GReg) (s : State) : Host.Outcome State Fault Refusal :=
  fltRes (.fsub h f r d a b) [.g d, .g a, .g b] d 4 (fun _ x => fSub f r (x.getF f.width a) (x.getF f.width b)) s
def execFmul (h : Hdr) (f : Fmt) (r : Rnd) (d a b : GReg) (s : State) : Host.Outcome State Fault Refusal :=
  fltRes (.fmul h f r d a b) [.g d, .g a, .g b] d 4 (fun _ x => fMul f r (x.getF f.width a) (x.getF f.width b)) s
def execFdiv (h : Hdr) (f : Fmt) (r : Rnd) (d a b : GReg) (s : State) : Host.Outcome State Fault Refusal :=
  fdivIssue (.fdiv h f r d a b) [.g d, .g a, .g b] d (fun x => fDiv f r (x.getF f.width a) (x.getF f.width b)) s
def execFsqrt (h : Hdr) (f : Fmt) (r : Rnd) (d a : GReg) (s : State) : Host.Outcome State Fault Refusal :=
  fdivIssue (.fsqrt h f r d a) [.g d, .g a] d (fun x => fSqrt f r (x.getF f.width a)) s
def execFfma (h : Hdr) (f : Fmt) (r : Rnd) (d a b c : GReg) (s : State) : Host.Outcome State Fault Refusal :=
  fltRes (.ffma h f r d a b c) [.g d, .g a, .g b, .g c] d 4
    (fun _ x => fFma f r (x.getF f.width a) (x.getF f.width b) (x.getF f.width c)) s
def execFmin (h : Hdr) (f : Fmt) (d a b : GReg) (s : State) : Host.Outcome State Fault Refusal :=
  fltRes (.fmin h f d a b) [.g d, .g a, .g b] d 2 (fun _ x => fMinMax f false (x.getF f.width a) (x.getF f.width b)) s
def execFmax (h : Hdr) (f : Fmt) (d a b : GReg) (s : State) : Host.Outcome State Fault Refusal :=
  fltRes (.fmax h f d a b) [.g d, .g a, .g b] d 2 (fun _ x => fMinMax f true (x.getF f.width a) (x.getF f.width b)) s
def execFminp (h : Hdr) (f : Fmt) (d a b : GReg) (s : State) : Host.Outcome State Fault Refusal :=
  fltRes (.fminp h f d a b) [.g d, .g a, .g b] d 2 (fun _ x => fMinMaxP f false (x.getF f.width a) (x.getF f.width b)) s
def execFmaxp (h : Hdr) (f : Fmt) (d a b : GReg) (s : State) : Host.Outcome State Fault Refusal :=
  fltRes (.fmaxp h f d a b) [.g d, .g a, .g b] d 2 (fun _ x => fMinMaxP f true (x.getF f.width a) (x.getF f.width b)) s
def execFabs (h : Hdr) (f : Fmt) (d a : GReg) (s : State) : Host.Outcome State Fault Refusal :=
  fltRes (.fabs h f d a) [.g d, .g a] d 1 (fun _ x => (fAbs f (x.getF f.width a), excNone)) s
def execFneg (h : Hdr) (f : Fmt) (d a : GReg) (s : State) : Host.Outcome State Fault Refusal :=
  fltRes (.fneg h f d a) [.g d, .g a] d 1 (fun _ x => (fNeg f (x.getF f.width a), excNone)) s

/-- `FCMP` writes a predicate (R155). -/
def execFcmp (h : Hdr) (cond : FCond) (f : Fmt) (d : PReg) (a b : GReg) (s : State) : Host.Outcome State Fault Refusal :=
  .next (issue (.fcmp h cond f d a b) [.p d, .g a, .g b] [] false s (fun _ _ x =>
    let r := fCond f cond (x.getF f.width a) (x.getF f.width b)
    .go s { Ret.plain with exc := r.2, writes := [pRes d r.1 2] }))

def execFclass (h : Hdr) (f : Fmt) (d a : GReg) (s : State) : Host.Outcome State Fault Refusal :=
  fltRes (.fclass h f d a) [.g d, .g a] d 2 (fun _ x => (2 ^ fClass f (x.getF f.width a), excNone)) s
/-- `FCVT` with the context's overflow table (R157, R194–R196). -/
def execFcvt (h : Hdr) (dst src : Fmt) (r : Rnd) (d a : GReg) (s : State) : Host.Outcome State Fault Refusal :=
  fltRes (.fcvt h dst src r d a) [.g d, .g a] d 3
    (fun s x => fConv dst src r (s.ctx x.task.ctx).ovf 0 (x.getF src.width a)) s
def execIcvtf (h : Hdr) (dst src : Fmt) (r : Rnd) (d a : GReg) (s : State) : Host.Outcome State Fault Refusal :=
  fltRes (.icvtf h dst src r d a) [.g d, .g a] d 3
    (fun s x => intToF dst r (s.ctx x.task.ctx).ovf 0 (toS src.width (x.getF src.width a))) s
/-- `FCVTI`: the integer result is sign-extended (R151). -/
def execFcvti (h : Hdr) (dst src : Fmt) (r : Rnd) (d a : GReg) (s : State) : Host.Outcome State Fault Refusal :=
  fltRes (.fcvti h dst src r d a) [.g d, .g a] d 3 (fun _ x =>
    let v := fToInt dst.width src r 0 (x.getF src.width a)
    (toU 64 v.1, v.2)) s
def execFmovi (h : Hdr) (f : Fmt) (d : GReg) (imm : BitVec 32) (s : State) : Host.Outcome State Fault Refusal :=
  fltRes (.fmovi h f d imm) [.g d] d 1 (fun _ _ => (imm.toNat, excNone)) s
def execFrnd (h : Hdr) (f : Fmt) (r : Rnd) (d a : GReg) (s : State) : Host.Outcome State Fault Refusal :=
  fltRes (.frnd h f r d a) [.g d, .g a] d 4 (fun _ x => fRnd f r (x.getF f.width a)) s
def execFscale (h : Hdr) (f : Fmt) (r : Rnd) (d a b : GReg) (s : State) : Host.Outcome State Fault Refusal :=
  fltRes (.fscale h f r d a b) [.g d, .g a, .g b] d 4
    (fun _ x => fScale f r (x.getF f.width a) (x.getG b).toInt) s

/-- FP_DIVIDE_UNIT_COMPLETE: the unit delivers its result and is free (R151). -/
def execFpDivideUnitComplete (core : Nat) (s : State) : Host.Outcome State Fault Refusal :=
  let c := s.core core
  match c.fdiv with
  | none => .next s
  | some q => .next (s.setCore core ({ c with fdiv := none }.deliver q.frame (.g q.dst) (q.val.setWidth 256)))

end Sys2Proof.Machine
end

