-- ==== Sys2Proof/Machine/Mem.lean ====
section
/-!
DEFINITION. The instructions of the 0x40 block (R204–R225) at their issue: scratchpad instructions, loads and stores, closing,
fences, probes, folds and atomics. Replies and homes are in Home.lean.
-/

namespace Sys2Proof.Machine

/-! ## Helpers -/

/-- An operand check as an outcome. -/
def Chk.act {α : Type} (x : Chk α) (g : α → Act) : Act :=
  match x with
  | .ok v => g v
  | .trap c t => .trap c t

/-- Resolves the operand of `al` bytes at address `a` of the top frame `f`: kind, alignment, translation. -/
def State.withAddr (s : State) (n : Nat) (f : Frame) (wr : Bool) (a : Word) (al : Nat) (g : Place → State → Act) : Act :=
  (s.addrChk (s.ctx f.task.ctx) wr a al al).act (fun k =>
    let r := s.place n f.task.ctx wr a k
    match r.1 with
    | .ok p => g p r.2
    | .trap _ | .fault _ | .dead _ => resAct r.2 n f r.1 a)

/-- The home line of an access that is no window access. -/
def Place.onLine (p : Place) (g : Nat → Nat → Option Nat → Act) : Act :=
  match p with
  | .line key off page => g key off page
  | .window _ => .wait

/-- Waits while a byte of a range belongs to a queued command (R245, R258, R295). -/
def padAct (c : Core) (reads writes : List Range) (g : Act) : Act := if c.rangeWaits reads writes then .wait else g

/-- A frame that writes a guarded region passes the abort horizon (R45). -/
def State.guardedWrite (s : State) (n : Nat) (f : Frame) (a len : Nat) : State :=
  s.setCore n ((s.core n).onFrame f.uid (fun g => g.wrote (s.ctx f.task.ctx) a len))

/-- A scratchpad write by an instruction of the top frame `f` (R45, R205, R289). -/
def State.instrStore (s : State) (n : Nat) (f : Frame) (a : Nat) (bs : List Byte) : State :=
  (s.guardedWrite n f a bs.length).padStore n a bs (s.setOf n f)

def Core.padNat (c : Core) (a n : Nat) : Nat := leNat (c.padRead a n)

/-! ## Scratchpad instructions (R207) -/

def execLds (h : Hdr) (x : Bool) (sz : Size) (sx : Bool) (d : GReg) (p : Ptr) (s : State) : Host.Outcome State Fault Refusal :=
  .next (issue (.lds h x sz sx d p) [.g d, .a (Ptr.reg p)] [] false s (fun _ c f =>
    let n := (Size.bytes sz)
    let a := f.ptr p
    (f.padCheck (s.ctx f.task.ctx) a n).act (fun _ => padAct c [(a, n)] []
      (.go s { Ret.plain with writes := gRes d (extend sx n (c.padNat a n)) 3 :: f.ptrStep p n }))))

def execSts (h : Hdr) (x : Bool) (sz : Size) (p : Ptr) (a : GReg) (s : State) : Host.Outcome State Fault Refusal :=
  .next (issue (.sts h x sz p a) [.a (Ptr.reg p), .g a] [] false s (fun k c f =>
    let n := (Size.bytes sz)
    let q := f.ptr p
    (f.padCheck (s.ctx f.task.ctx) q n).act (fun _ => padAct c [] [(q, n)]
      (.go (s.instrStore k f q (bytesOf n (f.getG a))) { Ret.plain with writes := f.ptrStep p n }))))

/-- A scratchpad instruction with destination D and sources in scratchpad; `rmw`: D is read too (R136, R207). -/
def padOp (i : Instr) (n : Nat) (p : Ptr) (qs : List Ptr) (rmw : Bool) (v : State → Frame → Nat → List Nat → Nat × Exc)
    (s : State) : Host.Outcome State Fault Refusal :=
  .next (issue i ((p :: qs).map (fun t => Reg.a (Ptr.reg t))) [] false s (fun k c f =>
    let a := f.ptr p
    let as := qs.map f.ptr
    let chk := (a :: as).foldl (fun r t => r.bind (fun _ => f.padCheck (s.ctx f.task.ctx) t n)) (Chk.ok ())
    chk.act (fun _ => padAct c ((if rmw then a :: as else as).map (fun t => (t, n))) [(a, n)]
      (let r := v s f (c.padNat a n) (as.map (fun t => c.padNat t n))
      .go (s.instrStore k f a (leBytes n r.1)) { Ret.plain with
        cycles := bankCycles ((a, if rmw then 2 else 1) :: as.map (fun t => (t, 1))), exc := r.2,
        writes := (p :: qs).flatMap (fun t => f.ptrStep t n) }))))

def execSmov (h : Hdr) (x : Bool) (sz : Size) (p q : Ptr) (s : State) : Host.Outcome State Fault Refusal :=
  padOp (.smov h x sz p q) (Size.bytes sz) p [q] false (fun _ _ _ vs => (vs.getD 0 0, excNone)) s

/-- The `SALU` operations on `n`-bit patterns. -/
def saluVal (op : SaluOp) (n a b : Nat) : Nat :=
  match op with
  | .add => toU n (a + b)
  | .sub => toU n ((a : Int) - b)
  | .and => a &&& b
  | .or => a ||| b
  | .xor => a ^^^ b
  | .min => if toS n a ≤ toS n b then a else b
  | .max => if toS n a ≤ toS n b then b else a
  | .minu => min a b
  | .maxu => max a b
  | .adds => toU n (satS n (toS n a + toS n b))
  | .addus => satU n (a + b)
  | .mul => toU n (a * b)

def execSalu (h : Hdr) (x : Bool) (op : SaluOp) (sz : Size) (p q r : Ptr) (s : State) : Host.Outcome State Fault Refusal :=
  padOp (.salu h x op sz p q r) (Size.bytes sz) p [q, r] false
    (fun _ _ _ vs => (saluVal op (8 * (Size.bytes sz)) (vs.getD 0 0) (vs.getD 1 0), excNone)) s

def sfltVal (op : SfltOp) (f : Fmt) (r : Rnd) (a b : Nat) : Nat × Exc :=
  match op with
  | .add => fAdd f r a b
  | .sub => fSub f r a b
  | .mul => fMul f r a b
  | .min => fMinMax f false a b
  | .max => fMinMax f true a b
  | .minp => fMinMaxP f false a b
  | .maxp => fMinMaxP f true a b

def execSflt (h : Hdr) (x : Bool) (op : SfltOp) (f : Fmt) (rnd : Rnd) (p q r : Ptr) (s : State) :
    Host.Outcome State Fault Refusal :=
  padOp (.sflt h x op f rnd p q r) (fmtBytes f) p [q, r] false
    (fun _ _ _ vs => sfltVal op f rnd (vs.getD 0 0) (vs.getD 1 0)) s

def execSfma (h : Hdr) (x : Bool) (f : Fmt) (rnd : Rnd) (p q r : Ptr) (s : State) : Host.Outcome State Fault Refusal :=
  padOp (.sfma h x f rnd p q r) (fmtBytes f) p [q, r] true
    (fun _ _ d vs => fFma f rnd (vs.getD 0 0) (vs.getD 1 0) d) s

/-- A scratchpad atomic (R225): `new` of the old value, `none` writes nothing. That it counts as two accesses of its bank even then is the
model's choice (R136; log 108). -/
def padAtomic (i : Instr) (regs : List GReg) (wide : Bool) (d : GReg) (p : Ptr) (new : Frame → Nat → Option Nat) (s : State) :
    Host.Outcome State Fault Refusal :=
  .next (issue i (.g d :: .a (Ptr.reg p) :: regs.map .g) [] false s (fun k c f =>
    let n := wideBytes wide
    let a := f.ptr p
    (f.padCheck (s.ctx f.task.ctx) a n).act (fun _ => padAct c [(a, n)] [(a, n)]
      (let old := c.padNat a n
      let s1 := match new f old with
        | some v => s.instrStore k f a (leBytes n v)
        | none => s
      .go s1 { Ret.plain with cycles := bankCycles [(a, 2)], writes := gRes d (zext n old) 3 :: f.ptrStep p n }))))

def execXchgs (h : Hdr) (wide : Bool) (d : GReg) (p : Ptr) (b : GReg) (s : State) : Host.Outcome State Fault Refusal :=
  padAtomic (.xchgs h wide d p b) [b] wide d p (fun f _ => some (f.getG b).toNat) s
def execCass (h : Hdr) (wide : Bool) (d : GReg) (p : Ptr) (b c : GReg) (s : State) : Host.Outcome State Fault Refusal :=
  padAtomic (.cass h wide d p b c) [b, c] wide d p
    (fun f old => if old = (f.getG b).toNat % 2 ^ (8 * wideBytes wide) then some (f.getG c).toNat else none) s
def execXadds (h : Hdr) (wide : Bool) (d : GReg) (p : Ptr) (b : GReg) (s : State) : Host.Outcome State Fault Refusal :=
  padAtomic (.xadds h wide d p b) [b] wide d p (fun f old => some (old + (f.getG b).toNat)) s

/-! ## Loads (R208, R209) -/

/-- A request of frame `f` of core `n`. -/
def State.request (s : State) (n : Nat) (f : Frame) (dst : Option Reg) (inside : Bool) (k : ReqKind) : State :=
  let c := s.core n
  (s.setCore n { c with reqs := c.reqs ++
    [{ id := s.uid, frame := f.uid, acq := f.acq, ctx := f.task.ctx, taskId := f.task.id, prio := f.prio, dst, inside, kind := k }] }).fresh

/-- A request whose result goes to a general register that awaits it (R134). -/
def State.ask (s : State) (n : Nat) (f : Frame) (d : GReg) (k : ReqKind) : State :=
  (s.setCore n ((s.core n).onFrame f.uid (fun g => { g with await := g.await ++ awaitReg d }))).request n f
    (if d = 0 then none else some (.g d)) false k

/-- An instruction that only asks for a result. -/
def State.askAct (s : State) (n : Nat) (f : Frame) (d : GReg) (k : ReqKind) : Act := (s.core n).reqAct k (.go (s.ask n f d k) Ret.plain)

/-- The offset of an access in what `State.source` gives. -/
def Place.off (p : Place) (a : Word) : Nat :=
  match p with
  | .line _ off _ => off
  | .window _ => a.toNat % 64

/-- What a load reads: its line with what the open bundle lays over it, or the bytes of the aligned line of a window. -/
def State.source (s : State) (f : Frame) (a : Word) (p : Place) : Src × Overlay :=
  match p with
  | .line key _ _ => (.line key, s.overlay f.bundle key)
  | .window k => (.data ((s.ctx f.task.ctx).windowBytes k (a.toNat / 64 * 64) 64), Overlay.none)

def execLd (h : Hdr) (sz : Size) (sx : Bool) (d a : GReg) (disp : BitVec 24) (s : State) : Host.Outcome State Fault Refusal :=
  .next (issue (.ld h sz sx d a disp) [.g d, .g a] [] false s (fun n _ f =>
    let ad := f.getG a + disp.signExtend 64
    s.withAddr n f false ad (Size.bytes sz) (fun p s1 =>
      let r := s1.source f ad p
      s1.askAct n f d (.load r.1 r.2 (p.off ad) (Size.bytes sz) sx))))

/-- The tag of a window address (R176). -/
def winTag (f : Nat) : Tag := { writer := 0, cseq := 0, scale := 0x78, desc := true, fmt := BitVec.ofNat 4 f, st := .quiet }

def execLdtag (h : Hdr) (d a : GReg) (s : State) : Host.Outcome State Fault Refusal :=
  .next (issue (.ldtag h d a) [.g d, .g a] [] false s (fun n _ f =>
    let ad := f.getG a
    s.withAddr n f false ad 64 (fun p s1 =>
      match p with
      | .line key _ _ => s1.askAct n f d (.ldtag (.line key) (s.overlay f.bundle key))
      | .window k =>
        let t := winTag (fget GenWin.absent (s.ctx f.task.ctx).windows k).efmt
        s1.askAct n f d (.load (.data (bytesOf 8 t.word)) Overlay.none 0 8 false))))

/-- `LDV` (R206, R208): it completes before the next instruction issues. -/
def execLdv (h : Hdr) (p : Ptr) (a : GReg) (disp : BitVec 24) (s : State) : Host.Outcome State Fault Refusal :=
  .next (issue (.ldv h p a disp) [.a (Ptr.reg p), .g a] [] false s (fun n c f =>
    let q := f.ptr p
    let ad := f.getG a + disp.signExtend 64
    (f.padCheck (s.ctx f.task.ctx) q 64).act (fun _ =>
      s.withAddr n f false ad 64 (fun pl s1 => padAct c [] [(q, 64)]
        (let r := s1.source f ad pl
        let k : ReqKind := .ldv r.1 r.2 q (s.setOf n f)
        c.reqAct k (.go (s1.request n f none true k) { Ret.plain with writes := f.ptrStep p 64 }))))))

/-- The formats of a described line (R209). -/
def descFmtOk (code : Nat) : Bool := decide (code ≤ 7) || code == 9 || code == 10

/-- The description of a line: its format and scale, if it has one. -/
def describe (t : Tag) (o : Overlay) : Option (Fmt × Byte) :=
  match o.std with
  | some d => some (fmtOfCode d.1.toNat, d.2)
  | none => if t.desc && descFmtOk t.fmt.toNat then some (fmtOfCode t.fmt.toNat, t.scale) else none

/-- Element × scale, rounded once (R209). -/
def descValue (src : Fmt) (sc : Byte) (x : Nat) (dst : Fmt) (r : Rnd) (ovf : Word) : Nat × Exc :=
  let k := scaleVal sc
  if src.isInt ∨ src = .w4 ∨ src = .w3 then
    let v := toS src.width x
    roundTo dst r (some ovf) 0 (decide (v < 0)) (v.natAbs * k.1) k.2 false
  else match unpack src x with
    | .nan _ => (convNan dst src x, excNone)
    | .inf n => if k.1 = 0 then invalidNan dst else placeVal dst r (some ovf) (.inf n)
    | .fin n m e => roundTo dst r (some ovf) 0 n (m * k.1) (e + k.2) false

/-- `LDD` of element `e` of a line of the given description and bytes: a trap, or its value (R209). -/
def lddValue (d : Option (Fmt × Byte)) (bs : List Byte) (e : Nat) (f : Fmt) (r : Rnd) (ovf : Word) : Chk (Nat × Exc) :=
  match d with
  | none => .trap 0x1B 0
  | some d =>
    if 512 / d.1.width ≤ e then .trap 0x1C 0
    else .ok (descValue d.1 d.2 (leNat bs / 2 ^ (d.1.width * e) % 2 ^ d.1.width) f r ovf)

/-- `LDD`: the tag of the chosen version decides whether it traps (R119, R209), so the version is chosen when it issues, and until it
can be it waits at the boundary before. Its result is variable-latency. -/
def execLdd (h : Hdr) (f : Fmt) (r : Rnd) (d a b : GReg) (s : State) : Host.Outcome State Fault Refusal :=
  .next (issue (.ldd h f r d a b) [.g d, .g a, .g b] [] false s (fun n c x =>
    let ad := x.getG a
    let gives := fun (s : State) (q : Option (Fmt × Byte)) (bs : List Byte) (answer : Word → ReqKind) =>
      (lddValue q bs (x.getG b).toNat f r (s.ctx x.task.ctx).ovf).act (fun v =>
        let k := answer (BitVec.ofNat 64 v.1)
        c.reqAct k (.go (s.ask n x d k) { Ret.plain with exc := v.2 }))
    s.withAddr n x false ad 64 (fun p s1 =>
      match p with
      | .window k =>
        gives s1 (some (fmtOfCode (fget GenWin.absent (s.ctx x.task.ctx).windows k).efmt, 0x78))
          ((s.ctx x.task.ctx).windowBytes k ad.toNat 64) (fun v => .load (.data (bytesOf 8 v)) Overlay.none 0 8 false)
      | .line key _ _ =>
        if s.readWaits n x key then .wait
        else match s1.readLine n x x.acq key with
          | .wait => .wait
          | .tooOld => .abort (s1.viewTooOld n)
          | .dead => .abort (s1.endCtx x.task.ctx 0x04 (ordOf x.task.id))
          | .ok v s2 => gives s2 (describe v.tag (s.overlay x.bundle key)) (layOver v.data (s.overlay x.bundle key).bytes) .done)))

/-! ## Stores (R208, R210, R211) -/

/-- Adds lines to the open bundle of the top frame `f`; a 129th line traps (R211). -/
def State.bundlePut (s : State) (n : Nat) (f : Frame) (ls : List BLine) (r : Ret) : Act :=
  match s.putLines f.bundle ls with
  | none => .trap 0x1A 0
  | some b => .go (s.setCore n ((s.core n).onFrame f.uid (fun g => { g with bundle := b }))) r

def execSt (h : Hdr) (sz : Size) (a b : GReg) (disp : BitVec 24) (s : State) : Host.Outcome State Fault Refusal :=
  .next (issue (.st h sz a b disp) [.g a, .g b] [] false s (fun n _ f =>
    let ad := f.getG a + disp.signExtend 64
    s.withAddr n f true ad (Size.bytes sz) (fun p s1 => p.onLine (fun key off page =>
      s1.bundlePut n f [homeLine key page ad off (bytesOf (Size.bytes sz) (f.getG b)) none] Ret.plain))))

/-- `STV` and `STD`: 64 bytes of scratchpad into the open bundle. -/
def lineStore (i : Instr) (regs : List Reg) (p : Ptr) (ad : Frame → Word) (std : Frame → Option (BitVec 4 × Byte)) (s : State) :
    Host.Outcome State Fault Refusal :=
  .next (issue i regs [] false s (fun n c f =>
    let q := f.ptr p
    (f.padCheck (s.ctx f.task.ctx) q 64).act (fun _ =>
      s.withAddr n f true (ad f) 64 (fun pl s1 => padAct c [(q, 64)] [] (pl.onLine (fun key off page =>
        s1.bundlePut n f [homeLine key page (ad f) off (c.padRead q 64) (std f)] { Ret.plain with writes := f.ptrStep p 64 }))))))

def execStv (h : Hdr) (p : Ptr) (a : GReg) (disp : BitVec 24) (s : State) : Host.Outcome State Fault Refusal :=
  lineStore (.stv h p a disp) [.a (Ptr.reg p), .g a] p (fun f => f.getG a + disp.signExtend 64) (fun _ => none) s
def execStd (h : Hdr) (f : Fmt) (p : Ptr) (a b : GReg) (s : State) : Host.Outcome State Fault Refusal :=
  lineStore (.std h f p a b) [.a (Ptr.reg p), .g a, .g b] p (fun x => x.getG a)
    (fun x => some (BitVec.ofNat 4 (fmtCode f), (x.getG b).setWidth 8)) s

/-! ## Closing, fences, probes (R212, R220, R221) -/

def execBclose (h : Hdr) (sc : Scope) (s : State) : Host.Outcome State Fault Refusal :=
  .next (issue (.bclose h sc) [] [] false s (fun n c _ => c.seqAct (.go (s.closeTop n sc) Ret.plain)))

/-- `FENCE.scope`: the task issues nothing further until its closed bundles are settled in the reach. -/
def execFence (h : Hdr) (sc : Scope) (s : State) : Host.Outcome State Fault Refusal :=
  .next (issue (.fence h sc) [] [] false s (fun n c f => .go (s.setCore n (c.setTop { f with settleWait := some sc })) Ret.plain))

def execFenceFresh (h : Hdr) (s : State) : Host.Outcome State Fault Refusal :=
  .next (issue (.fenceFresh h) [] [] false s (fun n c f => .go (s.setCore n (c.setTop (c.acquired f []))) Ret.plain))

/-- `PROBE` and `PROBE.w` (R173, R221): windows do nothing, valid or not (R182). -/
def execProbe (h : Hdr) (w : Bool) (a : GReg) (s : State) : Host.Outcome State Fault Refusal :=
  .next (issue (.probe h w a) [.g a] [] false s (fun n _ f =>
    let ad := f.getG a
    match s.kind (s.ctx f.task.ctx) false ad with
    | .bad c => if c = 0x14 then .go s Ret.plain else .trap c ad
    | .line _ _ => .go s Ret.plain
    | .window _ => .go s Ret.plain
    | .paged page =>
      let r := s.place n f.task.ctx w ad (.paged page)
      match r.1 with
      | .ok _ => .go r.2 Ret.plain
      | .trap _ | .fault _ | .dead _ => resAct r.2 n f r.1 ad))

/-- `PREF` (R173, R221): a missing page drops it. -/
def execPref (h : Hdr) (a : GReg) (s : State) : Host.Outcome State Fault Refusal :=
  .next (issue (.pref h a) [.g a] [] false s (fun n _ f =>
    let ad := f.getG a
    match s.kind (s.ctx f.task.ctx) false ad with
    | .bad c => if c = 0x14 then .go s Ret.plain else .trap c ad
    | .line _ _ => .go s Ret.plain
    | .window _ => .go s Ret.plain
    | .paged page => .go (s.place n f.task.ctx false ad (.paged page)).2 Ret.plain))

/-! ## Folds (R222–R224) -/

/-- The fold home of a target line: the vault's home, or the package's fold unit. -/
def foldHome (key : Nat) : Nat := if isVault key then homeOf key else 0
/-- How many objects a fold home holds. -/
def foldSlots (key : Nat) : Nat := if isVault key then 16 else 64

def keysOf (ps : List Place) : List Nat := ps.filterMap (fun p => match p with
  | .line key _ _ => some key
  | .window _ => none)
def Place.page : Place → Option Nat
  | .line _ _ page => page
  | .window _ => none

/-- Whether the staging area of a vault target is in the same vault. -/
def sameVault (ga gb : Word) : Bool := !isVaultAddr ga || (isVaultAddr gb && ga.extractLsb' 25 39 == gb.extractLsb' 25 39)

/-- Translates the pages of ranges whose kinds are known, the lower range first (R391, order 4). -/
def State.placeTwo (s : State) (n ctx : Nat) (wr : Bool) (xs ys : List (Word × Kind)) :
    Except (Res × Word) (List Place × List Place) × State :=
  let lowFirst := decide ((xs.head?.map (fun e => e.1.toNat)).getD 0 ≤ (ys.head?.map (fun e => e.1.toNat)).getD 0)
  let r := s.placeAll n ctx wr (if lowFirst then xs ++ ys else ys ++ xs)
  (match r.1 with
    | .ok ps => .ok (if lowFirst then (ps.take xs.length, ps.drop xs.length) else (ps.drop ys.length, ps.take ys.length))
    | .error e => .error e, r.2)

/-- `FOPEN`: the object keeps the pages of its lines, which gather dirty state when a contribution's or the close's bundle commits
(R169, log 33). -/
def execFopen (h : Hdr) (op : FoldOp) (f : Fmt) (r : Rnd) (d a b c : GReg) (s : State) : Host.Outcome State Fault Refusal :=
  .next (issue (.fopen h op f r d a b c) [.g d, .g a, .g b, .g c] [] false s (fun n _ x =>
    let ga := x.getG a
    let gb := x.getG b
    let gc := (x.getG c).toNat
    let cx := s.ctx x.task.ctx
    let cnt := gc % 64 + 1
    let lines := gc / 256 % 16 + 1
    if gc &&& 0x10F3F ≠ gc then Act.trap 0x1D 0
    else (s.kindAll cx true (linePieces (lineAddrs ga lines))).act (fun ks =>
      if ga.toNat % 64 ≠ 0 then .trap 0x1D 0
      else (s.kindAll cx true (linePieces (lineAddrs gb (cnt * lines)))).act (fun kt =>
        if !sameVault ga gb ∨ gb.toNat % 64 ≠ 0 then .trap 0x1D 0
        else
          let q := s.placeTwo n x.task.ctx true ks kt
          match q.1 with
          | .error e => resAct q.2 n x e.1 e.2
          | .ok ps =>
            let k : ReqKind := .fopen (foldHome ((keysOf ps.1).headD 0)) (keysOf ps.1) (ps.1.map Place.page) (keysOf ps.2) (ps.2.map Place.page)
              gb cnt op f r (gc.testBit 16)
            let s1 := q.2.ask n x d k
            (q.2.core n).reqAct k (.go (s1.setCore n ((s1.core n).onFrame x.uid (fun g => { g with horizon := true }))) Ret.plain)))))

/-- `FOLD` (R223): the lines of contribution `gb`, which count among the lines of the open bundle. -/
def execFold (h : Hdr) (p : Ptr) (a b : GReg) (lm1 : BitVec 4) (s : State) : Host.Outcome State Fault Refusal :=
  .next (issue (.fold h p a b lm1) [.a (Ptr.reg p), .g a, .g b] [] false s (fun n c f =>
    let q := f.ptr p
    let lines := lm1.toNat + 1
    let ga := f.getG a
    (f.rangeCheck (s.ctx f.task.ctx) q (64 * lines) 64).act (fun _ =>
      s.withAddr n f true ga 1 (fun pl s1 => padAct c [(q, 64 * lines)] [] (pl.onLine (fun key _ _ =>
        s1.bundlePut n f
          ((List.range lines).map (fun l => { homeLine key none ga 0 (c.padRead (q + 64 * l) 64) none with
            fold := some { obj := ga, key, k := f.getG b, l, lines } }))
          { Ret.plain with writes := f.ptrStep p (64 * lines) }))))))

/-- `FCLOSE`: its request carries the closer's included set as it stands now (R224); while that holds more than 8 writers the request
waits to be served (R219). -/
def execFclose (h : Hdr) (d a : GReg) (s : State) : Host.Outcome State Fault Refusal :=
  .next (issue (.fclose h d a) [.g d, .g a] [] false s (fun n _ f =>
    let ga := f.getG a
    s.withAddr n f true ga 1 (fun pl s1 => pl.onLine (fun key _ _ =>
      s1.askAct n f d (.fclose (.fclose h d a) key ga (s.setOf n f))))))

/-! ## Atomics (R225) -/

/-- Whether an atomic writes only if it compares equal. -/
def AtomOp.compares : AtomOp → Bool
  | .cas _ _ => true
  | .xchg _ | .add _ => false

/-- A memory atomic: a bundle of its own, whose line its home writes when it acts on the request. -/
def memAtomic (i : Instr) (regs : List GReg) (wide : Bool) (d a : GReg) (op : Frame → AtomOp) (s : State) :
    Host.Outcome State Fault Refusal :=
  .next (issue i (.g d :: .g a :: regs.map .g) [] false s (fun n _ f =>
    let ad := f.getG a
    s.withAddr n f true ad (wideBytes wide) (fun p s1 => p.onLine (fun key off page =>
      let c1 := s1.core n
      let k : ReqKind := .atom key off (wideBytes wide) (op f) (ad &&& ~~~63) page (nextSeq c1.cseq)
      c1.seqAct (c1.reqAct k (.go ((s1.ask n f d k).atomBundle n f (op f).compares (homeLine key page ad off [] none)) Ret.plain))))))

def execXchg (h : Hdr) (wide : Bool) (d a b : GReg) (s : State) : Host.Outcome State Fault Refusal :=
  memAtomic (.xchg h wide d a b) [b] wide d a (fun f => .xchg (f.getG b)) s
def execCas (h : Hdr) (wide : Bool) (d a b c : GReg) (s : State) : Host.Outcome State Fault Refusal :=
  memAtomic (.cas h wide d a b c) [b, c] wide d a (fun f => .cas (f.getG b) (f.getG c)) s
def execXadd (h : Hdr) (wide : Bool) (d a b : GReg) (s : State) : Host.Outcome State Fault Refusal :=
  memAtomic (.xadd h wide d a b) [b] wide d a (fun f => .add (f.getG b)) s

end Sys2Proof.Machine
end

