-- ==== Sys2Proof/Machine/Sys.lean ====
section
/-!
DEFINITION. The system block: control and status registers (R127–R130, R201, R217, R285, R353), traps and returns (R354, R355),
the overflow table (R197), windows and keys (R183, R184), translation (R174).
-/

namespace Sys2Proof.Machine

/-! ## Control and status registers -/

/-- `THRESH` (R129). -/
def State.threshReg (s : State) (n : Nat) : Word :=
  match (s.core n).frames with
  | [] => 0x1000
  | f :: _ =>
    let x := s.ctx f.task.ctx
    BitVec.ofNat 64 (256 * f.ceil x + 16 * f.prio + f.thr x)

/-- `FRAME` (R129). -/
def Core.frameReg (c : Core) : Word :=
  let w := match c.frames with
    | [] => 0
    | f :: _ => 65536 * f.priv.toNat + 1024 * f.win
  BitVec.ofNat 64 (2 ^ 18 * c.carve + w + 32 * (c.frames.filter Frame.resident).length + c.frames.length)

def Frame.padbaseReg (f : Frame) : Word :=
  BitVec.ofNat 64 (fget 0 f.pb 0 + 256 * fget 0 f.pb 1 + 65536 * fget 0 f.pb 2)

/-- Six-bit fields, the first lowest. -/
def packGuards : List (BitVec 6) → Nat
  | [] => 0
  | g :: gs => g.toNat + 64 * packGuards gs
def Frame.claimsReg (f : Frame) : Word := BitVec.ofNat 64 (2 ^ 48 * f.claims.length + packGuards f.claims)

def Core.esthrReg (c : Core) (k : Nat) : Word := (fget 0 c.esthr k).setWidth 64

/-- The value of a register for frame `f` of core `n`. -/
def State.csrRead (s : State) (n : Nat) (f : Frame) (csr : Nat) : Word :=
  let c := s.core n
  let x := s.ctx f.task.ctx
  if 0x20 ≤ csr ∧ csr < 0x40 then (View.regs f.view).getD (csr - 0x20) 0
  else if 0x48 ≤ csr ∧ csr < 0x50 then fget 0 f.tsave (csr - 0x48)
  else if 0x88 ≤ csr ∧ csr < 0x8D then c.esthrReg (csr - 0x88)
  else if 0x90 ≤ csr ∧ csr < 0x95 then (c.cnt (csr - 0x90)).setWidth 64
  else match csr with
    | 0x000 => s.threshReg n
    | 0x001 => f.task.id
    | 0x002 => c.coreid
    | 0x003 => x.vdmask.setWidth 64
    | 0x004 => x.bandmap.setWidth 64
    | 0x005 => BitVec.ofNat 64 (4 * f.long.toNat + f.lane)
    | 0x006 => c.frameReg
    | 0x007 => f.padbaseReg
    | 0x008 => c.ovfl
    | 0x009 => BitVec.ofNat 64 f.schk.toNat
    | 0x00A => f.claimsReg
    | 0x00B => f.geom
    | 0x040 => f.tcause
    | 0x041 => f.tpc
    | 0x042 => f.tval
    | 0x043 => f.tinsn0
    | 0x044 => f.tinsn1
    | 0x080 => c.eswin.setWidth 64
    | 0x081 => c.espos.setWidth 64
    | _ => 0

/-- Registers that privileged code alone writes (PRW). -/
def csrPriv (csr : Nat) : Bool :=
  csr == 0x41 || (decide (0x48 ≤ csr) && decide (csr < 0x50)) || csr == 0x80 || (decide (0x88 ≤ csr) && decide (csr < 0x8D))
/-- Registers that can be written; a write to another one is ignored (R11). -/
def csrWritable (csr : Nat) : Bool := csr == 0x09 || csrPriv csr

/-- A frame after a write of one of its registers. -/
def Frame.csrWrite (f : Frame) (csr : Nat) (v : Word) : Frame :=
  if csr = 0x09 then { f with schk := v.getLsbD 0 }
  else if csr = 0x41 then { f with tpc := v }
  else if 0x48 ≤ csr ∧ csr < 0x50 then { f with tsave := fset 0 f.tsave (csr - 0x48) v }
  else f

/-- A core after a write of one of its registers: `ESWIN` restarts the window, `ESTHR` keeps `HIT` (R201). -/
def Core.csrWrite (c : Core) (csr : Nat) (v : Word) : Core :=
  if csr = 0x80 then { c.newWindow with eswin := v.setWidth 32 }
  else if 0x88 ≤ csr ∧ csr < 0x8D then
    let k := csr - 0x88
    { c with esthr := fset 0 c.esthr k (BitVec.ofBool (c.hit k) ++ (v.setWidth 34 : BitVec 34)) }
  else c

def execSrd (h : Hdr) (d : GReg) (csr : BitVec 12) (s : State) : Host.Outcome State Fault Refusal :=
  .next (issue (.srd h d csr) [.g d] [] false s (fun n _ f =>
    .go s { Ret.plain with writes := [gRes d (s.csrRead n f csr.toNat) 2] }))

/-- `SWR`: outside privileged state a PRW register traps (R11, R391). -/
def execSwr (h : Hdr) (csr : BitVec 12) (a : GReg) (s : State) : Host.Outcome State Fault Refusal :=
  .next (issue (.swr h csr a) [.g a] [] false s (fun n c f =>
    if csrPriv csr.toNat && !f.priv then .trap 0x05 0
    else .go (s.setCore n ((c.csrWrite csr.toNat (f.getG a)).setTop (f.csrWrite csr.toNat (f.getG a)))) Ret.plain))

/-! ## Traps (R354, R355) -/

def execTrap (h : Hdr) (imm : BitVec 24) (s : State) : Host.Outcome State Fault Refusal :=
  .next (issue (.trap h imm) [] [] false s (fun _ _ _ => .trap 0x08 (imm.setWidth 64)))

/-- `BRK`: one at which the core has halted issues as a `NOP` (R365); with debug breaks enabled the core halts at the boundary
before it. -/
def execBrk (h : Hdr) (imm : BitVec 24) (s : State) : Host.Outcome State Fault Refusal :=
  .next (issue (.brk h imm) [] [] false s (fun _ c f =>
    if f.brkHalted then .go s Ret.plain
    else if c.dbg.brken then .wait
    else .trap 0x09 (imm.setWidth 64)))

/-- The return from the trap frame, which occupies three cycles like a taken transfer (R368). -/
def trapReturn (i : Instr) (next : Bool) (s : State) : Host.Outcome State Fault Refusal :=
  .next (issue i [] [] true s (fun n c f =>
    .go (s.setCore n (c.setTop (f.tret next))) { Ret.plain with pc := some (f.tretPc next), cycles := 3 }))

def execTret (h : Hdr) (s : State) : Host.Outcome State Fault Refusal := trapReturn (.tret h) false s
def execTretNext (h : Hdr) (s : State) : Host.Outcome State Fault Refusal := trapReturn (.tretNext h) true s
/-- `TRET.kill`: the task aborts and is not queued again. -/
def execTretKill (h : Hdr) (s : State) : Host.Outcome State Fault Refusal :=
  .next (issue (.tretKill h) [] [] true s (fun n _ _ => .leave ((s.dropTop n).offers (clusterOf n))))
/-- `TRET.end`: the context ends with cause 0x0D. -/
def execTretEnd (h : Hdr) (s : State) : Host.Outcome State Fault Refusal :=
  .next (issue (.tretEnd h) [] [] true s (fun _ _ f => .leave (s.endCtx f.task.ctx 0x0D (ordOf f.task.id))))

/-! ## The overflow table (R197) -/

/-- Whether a value is an overflow table: no reserved bit, no action 3. -/
def ovfOk (v : Word) : Bool :=
  decide (v.toNat < 1024) && (List.range 5).all (fun k => v.extractLsb' (2 * k) 2 != 3#2)

def execOvld (h : Hdr) (a : GReg) (s : State) : Host.Outcome State Fault Refusal :=
  .next (issue (.ovld h a) [.g a] [] true s (fun _ _ f =>
    if ovfOk (f.getG a) then .go (s.setCtx f.task.ctx { s.ctx f.task.ctx with ovf := f.getG a }) Ret.plain
    else .trap 0x15 0))

/-! ## Windows and keys (R183, R184) -/

/-- The outcome of a read for `GENSET`. -/
def Bytes.act (r : Bytes) (g : List Byte → State → Act) : Act :=
  match r with
  | .ok bs s => g bs s
  | .wait => .wait
  | .stop s => .abort s
  | .bad c a => .trap c a

def execGenset (h : Hdr) (k : BitVec 4) (a : GReg) (s : State) : Host.Outcome State Fault Refusal :=
  .next (issue (.genset h k a) [.g a] [] true s (fun n _ f =>
    let ad := (f.getG a).toNat
    let x := s.ctx f.task.ctx
    let stage := fun (w : GenWin) (s : State) =>
      if w.valid then Act.go (s.setCtx f.task.ctx ((s.ctx f.task.ctx).stageWin k.toNat w)) Ret.plain else Act.trap 0x13 0
    if ad % 64 ≠ 0 ∨ !x.heapRange ad 64 then .trap 0x13 0
    else (s.readParts n [(ad, 64)]).act (fun bs s1 =>
      let w := parseWin bs
      match w.table with
      | none => stage w s1
      | some t =>
        if !x.heapRange t.1 t.2 then .trap 0x13 0
        else (s1.readParts n (lineParts 40 t.1 t.2)).act (fun fs s2 => stage (w.withTable fs) s2))))

def execKeyset (h : Hdr) (k : BitVec 4) (a b : GReg) (s : State) : Host.Outcome State Fault Refusal :=
  .next (issue (.keyset h k a b) [.g a, .g b] [] true s (fun _ _ f =>
    .go (s.setCtx f.task.ctx ((s.ctx f.task.ctx).stageKey k.toNat (f.getG b ++ f.getG a))) Ret.plain))

def execGensync (h : Hdr) (s : State) : Host.Outcome State Fault Refusal :=
  .next (issue (.gensync h) [] [] false s (fun _ _ f =>
    .go (s.setCtx f.task.ctx (s.ctx f.task.ctx).makeCurrent) Ret.plain))

/-! ## Translation (R174) -/

/-- The commands that a core has queued or runs (R170). -/
def Core.cmds (c : Core) : List Cmd :=
  c.lanes.flatMap (fun l => l.2.cq.map (fun q => q.cmd) ++ l.2.mq.map (fun q => q.cmd)) ++ c.copyq.map (fun q => q.cmd) ++
    c.sampq.map (fun q => q.cmd)

/-- Whether an engine command of the context holds a translation of a page (R170). -/
def State.pageHeld (s : State) (ctx : Nat) (p : Nat → Bool) : Bool :=
  s.cores.any (fun e => e.2.cmds.any (fun q => q.task.ctx == ctx && q.pages.any p))

def execHarvest (h : Hdr) (s : State) : Host.Outcome State Fault Refusal :=
  .next (issue (.harvest h) [] [] true s (fun _ _ f => .go (s.harvest (fun e => e.ctx == f.task.ctx)) Ret.plain))

/-- An invalidation waits inside the instruction while a command holds a translation that it removes. -/
def tlbInvalidate (i : Instr) (regs : List Reg) (page : Frame → Nat → Bool) (s : State) : Host.Outcome State Fault Refusal :=
  .next (issue i regs [] true s (fun _ _ f =>
    if s.pageHeld f.task.ctx (page f) then .hold s
    else .go (s.invalidate (fun e => e.ctx == f.task.ctx && page f e.page)) Ret.plain))

def execTlbinv (h : Hdr) (a : GReg) (s : State) : Host.Outcome State Fault Refusal :=
  tlbInvalidate (.tlbinv h a) [.g a] (fun f p => p == (f.getG a).toNat / 65536) s
def execTlbinvAll (h : Hdr) (s : State) : Host.Outcome State Fault Refusal := tlbInvalidate (.tlbinvAll h) [] (fun _ _ => true) s

end Sys2Proof.Machine
end

