-- ==== Sys2Proof/Machine/Debugging.lean ====
section
/-!
DEFINITION. The debug block of a core (R364–R366): DEBUG_HALT_COMMAND, DEBUG_RESUME, DEBUG_STEP, DEBUG_DRAIN,
DEBUG_DRAIN_COMPLETE, DDATA_WRITE, and what `DDATA` reads.
-/

namespace Sys2Proof.Machine

def State.setDebug (s : State) (n : Nat) (d : Debug) : State := s.setCore n { s.core n with dbg := d }

/-! ## Commands (R365, R366) -/

/-- DEBUG_HALT_COMMAND: a running core halts at its next boundary. -/
def execDebugHaltCommand (core : Nat) (s : State) : Host.Outcome State Fault Refusal :=
  let d := (s.core core).dbg
  .next (if d.halted then s else s.setDebug core { d with haltReq := true })

/-- DEBUG_RESUME: a halted core goes on from its boundary, and its dispatcher may offer it tasks again. -/
def execDebugResume (core : Nat) (s : State) : Host.Outcome State Fault Refusal :=
  let d := (s.core core).dbg
  .next (if d.halted then (s.setDebug core { d with halted := false }).offers (clusterOf core) else s)

/-- DEBUG_STEP: likewise, until one instruction has issued or a task has been admitted. -/
def execDebugStep (core : Nat) (s : State) : Host.Outcome State Fault Refusal :=
  let d := (s.core core).dbg
  .next (if d.halted then (s.setDebug core { d with halted := false, stepping := true, issued := false }).offers (clusterOf core) else s)

/-- DEBUG_DRAIN: the engines of a halted core run its queues to empty (log 2). -/
def execDebugDrain (core : Nat) (s : State) : Host.Outcome State Fault Refusal :=
  let d := (s.core core).dbg
  .next (if d.halted then s.setDebug core { d with draining := true } else s)

/-- Whether the engine queues of a core are empty and its lock bits clear. -/
def Core.drained (c : Core) : Bool :=
  c.lanes.all (fun l => l.2.mq.isEmpty && l.2.cq.isEmpty) && c.copyq.isEmpty && c.sampq.isEmpty && c.long.isEmpty

/-- DEBUG_DRAIN_COMPLETE. -/
def execDebugDrainComplete (core : Nat) (s : State) : Host.Outcome State Fault Refusal :=
  let c := s.core core
  .next (if c.dbg.draining ∧ c.drained then s.setDebug core { c.dbg with draining := false } else s)

/-! ## The selected word (R364, R366) -/

def Debug.num (d : Debug) : Nat := (d.sel.extractLsb' 0 12).toNat
def Debug.cls (d : Debug) : Nat := (d.sel.extractLsb' 12 4).toNat
def Debug.fsel (d : Debug) : Nat := (d.sel.extractLsb' 16 4).toNat
def Debug.word (d : Debug) : Nat := (d.sel.extractLsb' 24 6).toNat

/-- A 64-bit word of a wide register. -/
def getWord64 {n : Nat} (v : BitVec n) (k : Nat) : Word := v.extractLsb' (64 * k) 64
def putWord64 {n : Nat} (v : BitVec n) (k : Nat) (x : Word) : BitVec n :=
  (v &&& ~~~((0xFFFFFFFFFFFFFFFF#64).setWidth n <<< (64 * k))) ||| (x.setWidth n <<< (64 * k))

/-- A frame with its registers, wherever its window is (R125). -/
def State.windowOf (s : State) (n : Nat) (f : Frame) : Frame :=
  let len := 8 * f.win
  match f.window with
  | .resident => f
  | .carve off => f.fillFrom ((s.core n).padRead (2 * 2 ^ 18 + (192 - (s.ctx f.task.ctx).spillkb) * 1024 + off) len)
  | .main pa => f.fillFrom (fgetAll 0 s.mem.newer pa.toNat len)

/-- Changes the registers of a frame, wherever its window is; where the host has not provided the area of a spilled one, the context ends
(R2; log 16). -/
def State.onWindow (s : State) (n : Nat) (f : Frame) (g : Frame → Frame) : State :=
  let w := g (s.windowOf n f)
  let c := s.core n
  match f.window with
  | .resident => s.setCore n (c.onFrame f.uid g)
  | .carve off =>
    s.setCore n ((c.padWrite (2 * 2 ^ 18 + (192 - (s.ctx f.task.ctx).spillkb) * 1024 + off) w.windowBytes).onFrame f.uid
      (fun x => { x with pend := w.pend }))
  | .main pa =>
    if s.spillsOwn f.task.ctx (pa.toNat, 8 * f.win) then
      (s.setMem (s.mem.physWrite pa.toNat w.windowBytes)).setCore n (c.onFrame f.uid (fun x => { x with pend := w.pend }))
    else s.endCtx f.task.ctx 0x10 0

/-- The selected frame; the control registers of a core without one read with the values of an idle core. -/
def Core.selFrame? (c : Core) : Option Frame := c.frames[c.dbg.fsel]?
def State.idleFrame (s : State) (n : Nat) : Frame :=
  s.newFrame { probeTask with ctx := ((s.core n).ctx).getD 0 } Template.blank []

/-- What `DDATA` reads. -/
def State.ddataRead (s : State) (n : Nat) : Word :=
  let c := s.core n
  let d := c.dbg
  let k := d.num
  if !d.halted then 0
  else match d.cls with
    | 3 => if k < 64 then getWord64 (c.getV (k / 16) (BitVec.ofNat 4 k)) d.word else 0
    | 4 => if k < 16 then getWord64 (c.getW (BitVec.ofNat 4 k)) d.word else 0
    | 7 => if k < 128 then getWord64 (fget 0 (c.lane (k / 32)).acc (k % 32)) d.word else 0
    | 5 => s.csrRead n (c.selFrame?.getD (s.idleFrame n)) k
    | cl => match c.selFrame? with
      | none => 0
      | some f => match cl with
        | 0 => if k < 32 then (s.windowOf n f).getG (BitVec.ofNat 5 k) else 0
        | 1 => if k < 8 then BitVec.ofNat 64 (f.getP (BitVec.ofNat 3 k)).toNat else 0
        | 2 => if k < 8 then ((s.windowOf n f).getA (BitVec.ofNat 3 k)).setWidth 64 else 0
        | 6 => f.pc
        | _ => 0

/-- Discards the pending-write records of a register. -/
def Frame.unpend (f : Frame) (r : Reg) : Frame := { f with pend := f.pend.filter (fun x => x.reg != r) }

/-- The writes of `DDATA` to a frame's own registers; `none` is a refusal. -/
def State.ddataFrame (s : State) (n : Nat) (f : Frame) (cl k : Nat) (v : Word) : Option State :=
  match cl with
  | 0 =>
    let r : GReg := BitVec.ofNat 5 k
    if 32 ≤ k then some s
    else if f.awaits [.g r] then none else some (s.onWindow n f (fun f => (f.unpend (.g r)).setG r v))
  | 1 =>
    let r : PReg := BitVec.ofNat 3 k
    if 8 ≤ k then some s
    else if f.awaits [.p r] then none
    else some (s.setCore n ((s.core n).onFrame f.uid (fun f => (f.unpend (.p r)).setP r (v.getLsbD 0))))
  | 2 =>
    let r : AReg := BitVec.ofNat 3 k
    if 8 ≤ k then some s
    else if f.awaits [.a r] then none else some (s.onWindow n f (fun f => (f.unpend (.a r)).setA r (v.setWidth 32)))
  | 6 => some (s.setCore n ((s.core n).onFrame f.uid (fun f => { f with pc := v, brkHalted := false })))
  | _ => some s

/-- The writes of `DDATA` to `v`, `w`, `ACC` and control registers; `none` is a refusal. -/
def State.ddataCore (s : State) (n : Nat) (cl k word : Nat) (v : Word) : Option State :=
  let c := s.core n
  match cl with
  | 3 =>
    let l := k / 16
    let r : VReg := BitVec.ofNat 4 k
    if 64 ≤ k then some s
    else if c.frames.any (fun f => f.lane == l && f.awaits [.v r]) || c.vLocked l r || !(c.lane l).mq.isEmpty then none
    else some (s.setCore n ({ c with frames := c.frames.map (fun (f : Frame) => if f.lane = l then f.unpend (.v r) else f) }.setV l r
      (putWord64 (c.getV l r) word v)))
  | 4 =>
    let r : VReg := BitVec.ofNat 4 k
    if 16 ≤ k then some s
    else if c.frames.any (fun f => f.awaits [.w r]) || c.wLocked r then none
    else some (s.setCore n (c.setW r (putWord64 (c.getW r) word v)))
  | 7 =>
    let l := k / 32
    if 128 ≤ k then some s
    else if !(c.lane l).mq.isEmpty then none
    else some (s.setCore n (c.setLane l { c.lane l with acc := fset 0 (c.lane l).acc (k % 32) (putWord64 (fget 0 (c.lane l).acc (k % 32)) word v) }))
  | 5 =>
    if !csrWritable k then none
    else
      let c1 := c.csrWrite k v
      some (s.setCore n (match c.selFrame? with
        | some f => c1.onFrame f.uid (fun f => f.csrWrite k v)
        | none => c1))
  | _ => match c.selFrame? with
    | some f => s.ddataFrame n f cl k v
    | none => some s

/-- DDATA_WRITE: written only while the core is halted; a refused write sets `REFUSED`. -/
def execDdataWrite (core : Nat) (v : Word) (s : State) : Host.Outcome State Fault Refusal :=
  let d := (s.core core).dbg
  let flag := fun (b : Bool) (s : State) => s.setDebug core { (s.core core).dbg with refused := b }
  if !d.halted then .next (flag true s)
  else .next (match s.ddataCore core d.cls d.num d.word v with
    | some s1 => flag false s1
    | none => flag true s)

end Sys2Proof.Machine
end

