-- ==== Sys2Proof/Machine/Home.lean ====
section
/-!
DEFINITION. Replies and memory homes: LOAD_REPLY, the way of bundle lines (R213), atomics (R225) and folds (R222–R224) at their
homes, quiet queries (R216), and what paired contexts add (R359, R360).
-/

namespace Sys2Proof.Machine

/-! ## Versions at a home (R213) -/

/-- Keeps the version that a write replaces for every protected task that has read the line, while the home's pool of 512 has
room (R218). -/
def State.protectOld (s : State) (key : Nat) (old : Kept218) : Memory :=
  let frames := s.cores.flatMap (fun e => (e.2.frames.filter (fun f => f.seen.contains key)).map (fun f => f.uid))
  let room := 512 - (s.mem.pool.filter (fun k => homeOf k.key == homeOf key)).length
  { s.mem with pool := s.mem.pool ++ (frames.take room).map (fun u => { old with frame := u }) }

/-- A write reaches its home: the older version gives way to the newer one's data with the bytes laid over it. In a paired
context the confirmed version under an unconfirmed one is kept aside (R360). A second line of one bundle, under another name of the
line, lies over the version that the first has made (log 104). -/
def State.arriveLine (s : State) (ctx key : Nat) (w : Writer) (q : CSeq) (bytes : FMap (Option Byte)) (std : Option (BitVec 4 × Byte))
    (st : VState) : State :=
  let t := s.mem.lineTags key
  let nd := s.mem.newerData key
  let old : Kept218 := { frame := 0, key, data := s.mem.olderData key, tag := t.older }
  let tag : Tag := match std with
    | some d => { writer := w, cseq := q, scale := d.2, desc := true, fmt := d.1, st }
    | none => { t.newer with writer := w, cseq := q, st }
  let again := t.newer.st == .pending && t.newer.writer == w && t.newer.cseq == q
  let m := if again then s.mem else (s.protectOld key old).setOlder key nd
  let m1 := (m.setNewer key (layOver nd bytes)).setTags key { newer := tag, older := if again then t.older else t.newer }
  let paired := (s.ctx ctx).pair.pen
  let m2 := if paired && !again && fget 0 m.unconf key != 0 then { m1 with confirmed := m1.confirmed ++ [old] } else m1
  s.setMem (if paired then { m2 with unconf := fset 0 m2.unconf key (ctx + 1) } else m2)

/-- Sets the state of a writer's version. -/
def Memory.mark (m : Memory) (key : Nat) (w : Writer) (q : CSeq) (st : VState) : Memory :=
  let t := m.lineTags key
  if t.newer.writer = w ∧ t.newer.cseq = q then (m.setTags key { t with newer := { t.newer with st } }).restore key
  else if t.older.writer = w ∧ t.older.cseq = q then m.setTags key { t with older := { t.older with st } }
  else m

/-! ## Replies (R134, R216) -/

/-- The requests that act on memory, which an abort of their frame does not call back. -/
def ReqKind.acts : ReqKind → Bool
  | .atom .. | .fopen .. | .remote .. => true
  | .load .. | .ldtag .. | .ldv .. | .vld .. | .fclose .. | .done _ => false

def Core.dropReqs (c : Core) (uid : Nat) : Core :=
  { c with reqs := c.reqs.filter (fun q => q.frame != uid || q.kind.acts),
           frames := c.frames.map (fun f => if f.uid = uid then { f with await := [] } else f) }

/-- The abort of the frame of a request that finds no version (R218, R350). -/
def State.reqTooOld (s : State) (n uid : Nat) : State := ((s.setCore n ((s.core n).dropReqs uid)).viewTooOldOf n uid).stopped n

/-- A request reads an uncorrectable line (R165). -/
def State.reqDead (s : State) (n : Nat) (f : Frame) : State :=
  ((s.setCore n ((s.core n).dropReqs f.uid)).endCtx f.task.ctx 0x04 (ordOf f.task.id)).stopped n

/-- Reads a source for a request that carries the view of acquire count `k`, and goes on with its version. -/
def State.withSrc (s : State) (n : Nat) (f : Frame) (k : Nat) (x : Src) (g : Version → State → State) : State :=
  match x with
  | .data bs => g { data := bs, tag := Tag.zero } s
  | .line key =>
    match s.readLine n f k key with
    | .ok v s1 => g v s1
    | .wait => s
    | .tooOld => s.reqTooOld n f.uid
    | .dead => s.reqDead n f

/-- Reads several sources in order; the bytes of each with the open bundle laid over them. -/
def State.withSrcs (s : State) (n uid k : Nat) (acc : List Byte) (g : List Byte → State → State) : List (Src × Overlay) → State
  | [] => g acc s
  | x :: xs =>
    match (s.core n).frame? uid with
    | none => s
    | some f => s.withSrc n f k x.1 (fun v s1 => s1.withSrcs n uid k (acc ++ layOver v.data x.2.bytes) g xs)

/-- The tag that `LDTAG` returns (R208). -/
def tagSeen (v : Version) (o : Overlay) : Tag :=
  match o.std with
  | some d => { v.tag with desc := true, fmt := d.1, scale := d.2 }
  | none => v.tag

def State.finishReq (s : State) (n : Nat) (q : Req) (v : BitVec 256) : State := s.setCore n ((s.core n).finish q v)

/-- The bytes that `VLDV` loads go to the registers that `dst` and the following ones name (R235). -/
def Core.vldPut (c : Core) (f : Frame) (q : Req) (bs : List Byte) : Core :=
  match q.dst with
  | some (.v k) => { c.deliver f.uid (.v k) (BitVec.ofNat 256 (leNat bs)) with reqs := c.reqs.filter (fun x => x.id != q.id) }
  | some (.w k) => { (c.setW k (BitVec.ofNat 2048 (leNat bs))).onFrame f.uid (fun g => { g with await := g.await.erase (.w k) }) with
      reqs := c.reqs.filter (fun x => x.id != q.id) }
  | some (.g _) | some (.p _) | some (.a _) | none => { c with reqs := c.reqs.filter (fun x => x.id != q.id) }

/-- A reply of core `n` to request `q` of frame `f`. -/
def State.reply (s : State) (n : Nat) (f : Frame) (q : Req) : State :=
  match q.kind with
  | .load src o off k sx => s.withSrc n f q.acq src (fun v s1 =>
      s1.finishReq n q ((extend sx k (leNat (((layOver v.data o.bytes).drop off).take k))).setWidth 256))
  | .ldtag src o => s.withSrc n f q.acq src (fun v s1 => s1.finishReq n q ((tagSeen v o).word.setWidth 256))
  | .ldv src o pad set => s.withSrc n f q.acq src (fun v s1 =>
      ((s1.finishReq n q 0).guardedWrite n f pad 64).padStore n pad (layOver v.data o.bytes) set)
  | .vld srcs off k => s.withSrcs n f.uid q.acq [] (fun bs s1 => s1.setCore n ((s1.core n).vldPut f q ((bs.drop off).take k))) srcs
  | .done v => s.finishReq n q (v.setWidth 256)
  | .atom .. | .fopen .. | .fclose .. | .remote .. => s

/-- LOAD_REPLY. -/
def execLoadReply (core req : Nat) (s : State) : Host.Outcome State Fault Refusal :=
  let c := s.core core
  match c.reqs.find? (fun q => q.id == req) with
  | none => .next s
  | some q =>
    let gone := { c with reqs := c.reqs.filter (fun x => x.id != req) }
    if (s.ctx q.ctx).tearing then .next (s.setCore core gone)
    else if s.reqWaits core q || s.behind core q.place then .next s
    else match c.frame? q.frame, q.kind with
      | some f, _ => .next (s.reply core f q)
      | none, .done _ => .next (s.setCore core gone)
      | none, .atom .. => .next s
      | none, .fopen .. => .next s
      | none, .fclose .. => .next s
      | none, .remote .. => .next s
      | none, .load .. => .next (s.setCore core gone)
      | none, .ldtag .. => .next (s.setCore core gone)
      | none, .ldv .. => .next (s.setCore core gone)
      | none, .vld .. => .next (s.setCore core gone)

/-- QUIET_QUERY_REPLY (R216, R219): the core learns up to which bundle a writer is quiet; a writer of this package answers
itself. -/
def execQuietQueryReply (core : Nat) (writer : Writer) (upTo : CSeq) (s : State) : Host.Outcome State Fault Refusal :=
  let c := s.core core
  let near := writer.extractLsb' 11 5 = s.fabric.pkgnum
  let w := (writer.extractLsb' 0 11).toNat
  let v := if near then (s.core w).quietUpTo else upTo
  let old := fget none c.known writer.toNat
  let c1 := { c with
    known := fset none c.known writer.toNat (some (match old with | some b => serMax b v | none => v))
    frames := c.frames.map (fun f => if f.asked.contains writer then f else { f with asked := f.asked ++ [writer] }) }
  .next (if near ∧ !s.fabric.links (dieOf core) (dieOf w) then s else (s.setCore core c1).progress core)

/-! ## The way of a bundle's lines (R213) -/

/-- A closed bundle of a core and one of its lines. -/
def Core.line? (c : Core) (seq : CSeq) (i : Nat) : Option (Closed × BLine) :=
  match c.closed.find? (fun b => b.seq == seq) with
  | some b => match b.lines[i]? with
    | some l => some (b, l)
    | none => none
  | none => none

def Core.setLine (c : Core) (seq : CSeq) (i : Nat) (g : BLine → BLine) : Core :=
  { c with closed := c.closed.map (fun b => if b.seq = seq then
      { b with lines := b.lines.mapIdx (fun k l => if k = i then g l else l) } else b) }

def State.setLine (s : State) (n : Nat) (seq : CSeq) (i : Nat) (g : BLine → BLine) : State :=
  s.setCore n ((s.core n).setLine seq i g)

/-- The image of a line (R359): address, data, byte [7:0] and `SCALE` of the tag. -/
def Memory.imageOf (m : Memory) (addr : Word) (key : Nat) : List Byte :=
  let t := (m.lineTags key).newer
  bytesOf 8 addr ++ m.newerData key ++ [t.word.extractLsb' 0 8, t.scale]

/-- What a line keeps for the digest of a paired context, as its arrival left it. -/
def State.imageFor (s : State) (ctx : Nat) (addr : Word) (key : Nat) : List Byte :=
  if (s.ctx ctx).pair.pen then s.mem.imageOf addr key else []

/-- Whether a message about a line can pass between a core and the line's home of this package. -/
def State.linksLine (s : State) (n : Nat) (l : BLine) : Bool :=
  match l.dest with
  | .home key => s.linksHome n key
  | .peer _ => true

/-- Why line `key`, of page `page` of a context if it is translated, cannot be written: the host has given the page to another context
(R2), or the line is uncorrectable (R165). The context ends with this cause. -/
def State.lineLost (s : State) (ctx : Nat) (page : Option Nat) (key : Nat) : Option Nat :=
  if page.any (fun p => s.breach ctx p (key / 1024)) then some 0x10 else if s.mem.isBad key then some 0x04 else none

/-- The end of a context by a lost line of task `id` (R62). -/
def State.loseLine (s : State) (ctx cause : Nat) (id : Word) : State := s.endCtx ctx cause (if cause = 0x10 then 0 else ordOf id)

/-- A line, which comes from core `n` by a bundle or as a contribution, is written at line `key` of this package. -/
def State.lineArrives (s : State) (n : Nat) (b : Closed) (i : Nat) (l : BLine) (key : Nat) (g : BLine → BLine) : State :=
  match s.lineLost b.ctx (s.mem.pageOf l) key with
  | some c => s.loseLine b.ctx c b.id
  | none =>
    let s1 := s.arriveLine b.ctx key (s.writer n) b.seq l.bytes l.std .pending
    s1.setLine n b.seq i (fun l => { g l with prog := .arrived, image := s1.imageFor b.ctx (g l).addr key })

/-- BUNDLE_LINE_ARRIVAL. -/
def execBundleLineArrival (core : Nat) (seq : CSeq) (line : Nat) (s : State) : Host.Outcome State Fault Refusal :=
  match (s.core core).line? seq line with
  | none => .next s
  | some (b, l) =>
    match l.dest, l.fold, l.prog with
    | .home key, none, .flight =>
      .next (if b.atHome || s.lineWaits core b line l key || s.behind core (b.place line) then s else s.lineArrives core b line l key id)
    | _, _, _ => .next s

/-- Puts a line into the order of addresses. -/
def insertLine (l : BLine) : List BLine → List BLine
  | [] => [l]
  | x :: xs => if l.addr.toNat < x.addr.toNat then l :: x :: xs else x :: insertLine l xs

/-- Adds the hash of a bundle's image to the epoch of its paired context (R359), once every line has been acknowledged. -/
def State.digest (s : State) (b : Closed) : State :=
  let x := s.ctx b.ctx
  let img := (b.lines.foldr insertLine []).flatMap (fun l => l.image)
  if x.pair.pen && !img.isEmpty then s.setCtx b.ctx { x with pair := { x.pair with acc := x.pair.acc + sha256 img } } else s

/-- An acknowledgement of a line reaches core `n`; an atomic's line is already settled (R225). -/
def State.ackLine (s : State) (n : Nat) (b : Closed) (i : Nat) : State :=
  let s1 := s.setLine n b.seq i (fun l => { l with prog := if b.atHome then .settleAcked else .acked })
  let s2 := match (s1.core n).closed.find? (fun x => x.seq == b.seq) with
    | some x => if x.acked then s1.digest x else s1
    | none => s1
  s2.progress n

/-- LINE_ACKNOWLEDGEMENT. -/
def execLineAcknowledgement (core : Nat) (seq : CSeq) (line : Nat) (s : State) : Host.Outcome State Fault Refusal :=
  match (s.core core).line? seq line with
  | none => .next s
  | some (b, l) => if l.prog = .arrived ∧ s.linksLine core l then .next (s.ackLine core b line) else .next s

/-- A step of a line at a home of this package, when it is its turn there: from `a` to `b`, the version becoming `st`. -/
def State.lineMarks (s : State) (n : Nat) (seq : CSeq) (i : Nat) (a b : Prog) (st : VState) : State :=
  match (s.core n).line? seq i with
  | none => s
  | some (x, l) =>
    match l.dest with
    | .peer _ => s
    | .home key =>
      if l.prog = a ∧ s.linksHome n key ∧ !s.behind n (x.place i) then (s.setMem (s.mem.mark key (s.writer n) seq st)).setLine n seq i (fun l => { l with prog := b }) else s

/-- SETTLE_AT_HOME. -/
def execSettleAtHome (core : Nat) (seq : CSeq) (line : Nat) (s : State) : Host.Outcome State Fault Refusal :=
  .next (s.lineMarks core seq line .settling .settled .settled)

/-- SETTLE_ACKNOWLEDGEMENT: the core learns that a line is settled. -/
def execSettleAcknowledgement (core : Nat) (seq : CSeq) (line : Nat) (s : State) : Host.Outcome State Fault Refusal :=
  match (s.core core).line? seq line with
  | none => .next s
  | some (_, l) =>
    if l.prog = .settled ∧ s.linksLine core l then .next ((s.setLine core seq line (fun l => { l with prog := .settleAcked })).progress core) else .next s

/-- QUIET_AT_HOME. -/
def execQuietAtHome (core : Nat) (seq : CSeq) (line : Nat) (s : State) : Host.Outcome State Fault Refusal :=
  if (s.core core).quietBehind seq then .next s else .next ((s.lineMarks core seq line .quieting .quiet .quiet).progress core)

/-! ## Atomics at their home (R225) -/

/-- What an atomic writes; `none` for a `CAS` that fails. -/
def AtomOp.new (op : AtomOp) (n : Nat) (old : Nat) : Option Nat :=
  match op with
  | .xchg v => some v.toNat
  | .cas cmp v => if old = cmp.toNat % 2 ^ (8 * n) then some v.toNat else none
  | .add v => some (old + v.toNat)

/-- A bundle of one line of the core, made by the device for a request of a task. -/
def Closed.made (q : Req) (prio : Nat) (lines : List BLine) : Closed :=
  { uid := 0, seq := 0, ctx := q.ctx, scope := .system, lines, effects := [], set := [], id := q.taskId, prio, samp := [],
    fclose := none, copy := none, declared := false, atHome := false, settleAt := 0, quietAt := 0 }

/-- Notes in a frame that its task has closed the bundle that is added next. -/
def State.noteClosed (s : State) (n uid : Nat) : State :=
  s.setCore n ((s.core n).onFrame uid (fun f => { f with bundles := f.bundles ++ [s.uid] }))

def Core.setKind (c : Core) (id : Nat) (k : ReqKind) : Core :=
  { c with reqs := c.reqs.map (fun q => if q.id = id then { q with kind := k } else q) }

/-- ATOMIC_AT_HOME: the home acts on the newer version once it is settled, and settles what it writes at once. -/
def execAtomicAtHome (core req : Nat) (s : State) : Host.Outcome State Fault Refusal :=
  let c := s.core core
  match c.reqs.find? (fun q => q.id == req) with
  | none => .next s
  | some q =>
    match q.kind with
    | .atom key off n op addr page seq =>
      if s.atomWaits core q key || s.behind core q.place then .next s
      else match s.lineLost q.ctx page key with
      | some cause => .next ((s.setCore core { c with reqs := c.reqs.filter (fun x => x.id != req) }).loseLine q.ctx cause q.taskId)
      | none =>
        let old := leNat (((s.mem.newerData key).drop off).take n)
        let c1 := c.setKind req (.done (zext n old))
        match op.new n old with
        | none => .next ((s.setCore core (c1.dropAtom seq)).progress core)
        | some v =>
          let bytes := lineBytes off (leBytes n v)
          let s1 := (s.setCore core { c1 with cseq := if op.compares then seq else c1.cseq }).arriveLine q.ctx key (s.writer core) seq bytes none
            .settled
          let s2 := (s1.setMem (s1.mem.restore key)).setLine core seq 0 (fun l =>
            { l with bytes, prog := .arrived, image := s1.imageFor q.ctx addr key })
          .next (match page with
            | some p => s2.markDirty core q.ctx p
            | none => s2)
    | _ => .next s

/-! ## Folds at their home (R222–R224) -/

def Memory.setFold (m : Memory) (key : Nat) (g : FoldObj → FoldObj) : Memory :=
  { m with folds := m.folds.map (fun o => if o.keys.head? = some key then g o else o) }
def Memory.dropFold (m : Memory) (key : Nat) : Memory := { m with folds := m.folds.filter (fun o => o.keys.head? != some key) }

/-- FOLD_HOME_OPEN: status 0 opened, 1 table full, 2 already open. Where both hold, 2 is the model's choice (log 81). -/
def execFoldHomeOpen (core req : Nat) (s : State) : Host.Outcome State Fault Refusal :=
  let c := s.core core
  match c.reqs.find? (fun q => q.id == req) with
  | none => .next s
  | some q =>
    match q.kind with
    | .fopen home keys pages stage stagePages stageAddr n op f r ident =>
      let done := fun (v : Word) => s.setCore core (c.setKind req (.done v))
      let key := keys.headD 0
      if !s.linksHome core key || s.behind core q.place then .next s
      else if s.mem.folds.any (fun o => o.keys.head? == some key) then .next (done 2)
      else if foldSlots key ≤ (s.mem.folds.filter (fun o => o.home == home)).length then .next (done 1)
      else
        let o : FoldObj := { ctx := q.ctx, home, keys, pages, stage, stagePages, stageAddr, n, op, f, r, ident, present := [], broken := false,
                             closing := false }
        .next ((done 0).setMem { s.mem with folds := s.mem.folds ++ [o] })
    | _ => .next s

/-- The object after a line has arrived, as version `v` of its staging line. -/
def FoldObj.take (o : FoldObj) (p : FoldPart) (v : Writer × CSeq) : FoldObj :=
  { o with present := fset none o.present (o.place p) (some v) }

/-- FOLD_CONTRIBUTION_ARRIVAL: the line goes to its staging line, or is discarded and the object is broken. The page of the staging line,
which the core may not have known when it closed the bundle, gathers its dirty state now (R169). -/
def execFoldContributionArrival (core : Nat) (seq : CSeq) (line : Nat) (s : State) : Host.Outcome State Fault Refusal :=
  match (s.core core).line? seq line with
  | none => .next s
  | some (b, l) =>
    match l.dest, l.fold, l.prog with
    | .home key, some p, .flight =>
      let discard := fun (s : State) => s.setLine core seq line (fun l => { l with bytes := [], prog := .arrived })
      if !s.linksHome core key || s.behind core (b.place line) then .next s
      else match s.mem.foldAt key p.obj with
      | none => .next (discard s)
      | some o =>
        match o.slot p with
        | none => .next ((discard s).setMem (s.mem.setFold key (fun o => { o with broken := true })))
        | some st =>
          let addr := o.stageAddr + BitVec.ofNat 64 (64 * o.place p)
          if s.lineWaits core b line l st then .next s
          else
            let s1 := s.lineArrives core b line l st (fun l => { l with dest := .home st, addr })
            if (s.lineLost b.ctx (s.mem.pageOf l) st).isSome then .next s1
            else
              let s2 := s1.setMem (s1.mem.setFold key (fun o => o.take p (s.writer core, b.seq)))
              .next (match s.mem.pageOf l with
                | some page => s2.markDirty core b.ctx page
                | none => s2)
    | _, _, _ => .next s

/-- Whether contribution `k` is present for a closer with the given set (R224). -/
def Memory.foldPresent (m : Memory) (o : FoldObj) (set : IncSet) (k : Nat) : Bool :=
  let len := o.keys.length
  (List.range len).all (fun l => (fget none o.present (k * len + l)).isSome && (match o.stage[k * len + l]? with
    | some st =>
      let t := (m.lineTags st).newer
      t.st != .pending || set.any (fun p => p.1 == t.writer && serLe t.cseq p.2)
    | none => false))

/-- The identity of a fold (R224). -/
def foldIdentity (op : FoldOp) (f : Fmt) : Nat :=
  if f.isInt then
    match op with
    | .add | .or | .xor => 0
    | .and => 2 ^ f.width - 1
    | .min => 2 ^ (f.width - 1) - 1
    | .max => 2 ^ (f.width - 1)
  else match op with
    | .add => signBit f
    | .min | .max => defNan f
    | .and | .or | .xor => 0

def foldOp (op : FoldOp) (f : Fmt) (r : Rnd) (a b : Nat) : Nat × Exc :=
  if f.isInt then
    (match op with
      | .add => toU f.width (a + b)
      | .min => if toS f.width a ≤ toS f.width b then a else b
      | .max => if toS f.width a ≤ toS f.width b then b else a
      | .and => a &&& b
      | .or => a ||| b
      | .xor => a ^^^ b, excNone)
  else match op with
    | .add => fAdd f r a b
    | .min => fMinMax f false a b
    | .max => fMinMax f true a b
    | .and | .or | .xor => (a, excNone)

/-- The elements of a line. -/
def elemsOf (w : Nat) (bs : List Byte) : List Nat := (List.range (8 * bs.length / w)).map (fun e => leNat bs / 2 ^ (w * e) % 2 ^ w)
/-- The bytes of elements whose width is a number of bytes. -/
def bytesOfElems (w : Nat) (es : List Nat) : List Byte := es.flatMap (fun e => leBytes (w / 8) e)

/-- One line of the target after the contributions in order, with the exceptions. -/
def Memory.foldLine (m : Memory) (o : FoldObj) (l : Nat) (start : List Nat) : List Byte × Exc :=
  let w := o.f.width
  let r := (List.range o.n).foldl (fun (acc : List Nat × Exc) k =>
    let es := elemsOf w (m.newerData (o.stage.getD (k * o.keys.length + l) 0))
    let q := (acc.1.zip es).map (fun e => foldOp o.op o.f o.r e.1 e.2)
    (q.map (fun e => e.1), q.foldl (fun x e => x ||| e.2) acc.2)) (start, excNone)
  (bytesOfElems w r.1, r.2)

/-- The target lines of an applied close, each read through the closer's view unless the fold starts from the identity. -/
inductive FoldRun where
  | ok (lines : List BLine) (exc : Exc) (s : State)
  | wait
  | tooOld
  | dead
  deriving DecidableEq, Repr

/-- The staging lines of target line `l`. -/
def FoldObj.stagedAt (o : FoldObj) (l : Nat) : List Nat := (List.range o.n).filterMap (fun k => o.stage[k * o.keys.length + l]?)

/-- Target line `l` at address `a` after the fold. -/
def FoldObj.target (o : FoldObj) (a : Word) (l key : Nat) (bs : List Byte) : BLine :=
  homeLine key ((o.pages[l]?).join) (a + BitVec.ofNat 64 (64 * l)) 0 bs none

def State.foldRun (s : State) (n uid acq : Nat) (o : FoldObj) (a : Word) : Nat → List Nat → FoldRun
  | _, [] => .ok [] excNone s
  | l, key :: ks =>
    let start : Option (List Nat) := if o.ident then some (List.replicate (512 / o.f.width) (foldIdentity o.op o.f))
      else if ((s.core n).frame? uid).isNone then some (elemsOf o.f.width (s.mem.settledData key)) else none
    if (o.stagedAt l).any s.mem.isBad then .dead
    else match start, (s.core n).frame? uid with
    | none, none => .wait
    | none, some f =>
      (match s.readLine n f acq key with
        | .wait => .wait
        | .tooOld => .tooOld
        | .dead => .dead
        | .ok v s1 =>
          let r := s.mem.foldLine o l (elemsOf o.f.width v.data)
          match s1.foldRun n uid acq o a (l + 1) ks with
          | .ok ls e s2 => .ok (o.target a l key r.1 :: ls) (r.2 ||| e) s2
          | q => q)
    | some st, _ =>
      let r := s.mem.foldLine o l st
      match s.foldRun n uid acq o a (l + 1) ks with
      | .ok ls e s2 => .ok (o.target a l key r.1 :: ls) (r.2 ||| e) s2
      | q => q

/-- FOLD_HOME_CLOSE: status 1 not open, 2 a contribution missing, 3 broken; an applied close writes the target as a bundle, and
its status 0 comes once that bundle is settled. -/
def execFoldHomeClose (core req : Nat) (s : State) : Host.Outcome State Fault Refusal :=
  let c := s.core core
  match c.reqs.find? (fun q => q.id == req) with
  | none => .next s
  | some q =>
    match q.kind with
    | .fclose i key a full =>
      let done := fun (s : State) (v : Word) => s.setCore core ((s.core core).setKind req (.done v))
      let passes := fun (s : State) => s.setCore core ((s.core core).onFrame q.frame (fun f => { f with horizon := true }))
      if c.closeWaits q key ∨ s.reqWaits core q ∨ s.behind core q.place ∨ c.casOpen.isSome then .next s
      else match c.reduceSet (s.writer core) full, s.mem.foldAt key a with
        | none, _ => .next s
        | some _, none => .next (done s 1)
        | some set, some o =>
          if o.broken then .next ((done (passes s) 3).setMem (s.mem.dropFold key))
          else if !(List.range o.n).all (s.mem.foldPresent o set) then .next (done s 2)
          else match s.foldRun core q.frame q.acq o a 0 o.keys with
            | .wait => .next s
            | .tooOld => .next (s.reqTooOld core q.frame)
            | .dead => .next ((s.setCore core (c.dropReqs q.frame)).endCtx q.ctx 0x04 (ordOf q.taskId))
            | .ok ls exc s1 =>
              let s2 := passes (s1.setMem (s1.mem.setFold key (fun o => { o with closing := true })))
              let s3 := s2.setCore core ((s2.core core).count exc (tinsn0 i) (tinsn1 i))
              .next (((s3.noteClosed core q.frame).addClosed core { Closed.made q q.prio ls with fclose := some req }).progress core)
    | _ => .next s

end Sys2Proof.Machine
end

