-- ==== Sys2Proof/Machine/Task.lean ====
section
/-!
DEFINITION. Task and synchronisation instructions (R274–R293) and the device steps of barrier units, queues and kept grants.
-/

namespace Sys2Proof.Machine

/-! ## Starting (R276) -/

/-- Attaches starts to the open bundle, in order. -/
def holdStarts (sts : List Start) (cmd : Option Nat) (f : Frame) : Frame := sts.foldl (fun f st => f.hold (.start st cmd)) f

/-- Starts of the given templates by the top frame, with arguments by template. -/
def startAll (s : State) (n : Nat) (c : Core) (f : Frame) (ts : List Nat) (args : Template → FMap Word) : Act :=
  let x := s.ctx f.task.ctx
  if ts.all x.startable then
    let r := x.startsBy args ts f
    .go (s.setCore n (c.setTop (holdStarts r.1 none r.2))) Ret.plain
  else .trap 0x26 0

def execSpawn (h : Hdr) (t : BitVec 12) (s : State) : Host.Outcome State Fault Refusal :=
  .next (issue (.spawn h t) (s.argRegs (fun _ => [t.toNat])) [] false s (fun n c f => startAll s n c f [t.toNat] f.passArgs))
def execPost (h : Hdr) (t : BitVec 12) (a : GReg) (s : State) : Host.Outcome State Fault Refusal :=
  .next (issue (.post h t a) [.g a] [] false s (fun n c f => startAll s n c f [t.toNat] (fun m => firstArg m (f.getG a))))
def execPostGrp (h : Hdr) (grp : BitVec 12) (a : GReg) (s : State) : Host.Outcome State Fault Refusal :=
  .next (issue (.postGrp h grp a) [.g a] [] false s (fun n c f =>
    let x := s.ctx f.task.ctx
    if 254 < grp.toNat ∨ (x.group grp.toNat).kind ≠ 1 then .trap 0x26 0
    else startAll s n c f (x.groupMembers grp.toNat) (fun m => firstArg m (f.getG a))))

/-! ## Ending (R279–R281) -/

/-- Sets the guards of claims that end to a set. -/
def Core.setGuards (c : Core) (gs : List (BitVec 6)) (set : IncSet) : Core :=
  { c with guards := gs.foldl (fun m g => fset [] m g.toNat set) c.guards }

/-- The set that the claims of a frame that halts leave behind; its bundle is closed. -/
def State.haltSet (s : State) (n : Nat) (f : Frame) : Option IncSet :=
  if f.claims = [] then some [] else (s.core n).reduceSet (s.writer n) ((s.core n).includedSet (s.writer n) f.view)

/-- Step 1 of R279, once for a `HALT`: the open bundle is closed. -/
def State.haltClose (s : State) (n : Nat) (f : Frame) : State :=
  if f.halting then s
  else
    let s1 := s.closeTop n .system
    s1.setCore n ((s1.core n).onFrame f.uid (fun g => { g with halting := true }))

/-- The end of the running task (R279); the grant is kept for a template if `keep` names one. Its claims end as `UNCLAIM` ends them: while
the set that they leave behind holds more than 8 writers, it waits inside the instruction (R219, R348). The dispatcher sees the lower
`THRESH`. -/
def haltTask (s : State) (n : Nat) (c : Core) (f : Frame) (keep : Option Nat) : Act :=
  c.seqAct (
    let s1 := s.haltClose n f
    match s1.haltSet n f with
    | none => .hold s1
    | some set =>
      let s2 := s1.setCore n ((s1.core n).setGuards f.claims.reverse set)
      .leave ((s2.popTop n keep).offers (clusterOf n)))

def execHalt (h : Hdr) (s : State) : Host.Outcome State Fault Refusal :=
  .next (issue (.halt h) [] [] false s (fun n c f => haltTask s n c f none))
def execHaltK (h : Hdr) (a : GReg) (s : State) : Host.Outcome State Fault Refusal :=
  .next (issue (.haltK h a) [.g a] [] false s (fun n c f =>
    let v := (f.getG a).toNat
    if 4096 ≤ v ∨ (s.ctx f.task.ctx).templates.length ≤ v then .trap 0x26 0 else haltTask s n c f (some v)))

def execCommit (h : Hdr) (s : State) : Host.Outcome State Fault Refusal :=
  .next (issue (.commit h) [] [] false s (fun n c f =>
    let s1 := s.closeTop n .system
    c.seqAct (.go (s1.setCore n ((s1.core n).onFrame f.uid (fun f => { f with settleWait := some .system }))) Ret.plain)))

/-! ## Claims (R283) -/

/-- A synchronising acquire of a set by the top frame, inside its instruction: it waits while writers that could free bounds have
not answered, and then aborts as R215 gives. -/
def acquireAct (s : State) (n : Nat) (c : Core) (f : Frame) (set : IncSet) (g : View → Act) : Act :=
  match c.acquire (s.writer n) f.view set with
  | some v => g v
  | none =>
    if (set.map (fun p => p.1) ++ f.view.clearExc.askable).all f.asked.contains then .abort (s.viewTooOld n) else .hold s

def execClaim (h : Hdr) (g : BitVec 6) (s : State) : Host.Outcome State Fault Refusal :=
  .next (issue (.claim h g) [] [] false s (fun n c f =>
    let q := (s.ctx f.task.ctx).guard g.toNat
    if q.kind = 0 then .trap 0x28 0
    else if q.ceil < f.prio then .trap 0x27 0
    else if f.claims.contains g then .trap 0x28 0
    else if f.claims.length = 8 then .trap 0x28 0
    else acquireAct s n c f (fget [] c.guards g.toNat) (fun v =>
      .go (s.setCore n (c.setTop { c.acquired f v with claims := f.claims ++ [g] })) Ret.plain)))

def execUnclaim (h : Hdr) (g : BitVec 6) (s : State) : Host.Outcome State Fault Refusal :=
  .next (issue (.unclaim h g) [] [] false s (fun n c f =>
    if f.claims.getLast? ≠ some g then .trap 0x28 0
    else match c.reduceSet (s.writer n) (c.includedSet (s.writer n) f.view) with
      | none => .hold s
      | some set =>
        .go ((s.setCore n ((c.setTop { f with claims := f.claims.dropLast }).setGuards [g] set)).offers (clusterOf n)) Ret.plain))

/-! ## Barriers (R286–R288) -/

/-- A barrier object. -/
structure Barrier where
  succ : Nat
  dpmask : Nat
  target : Nat
  count : Nat
  done : Nat
  early : Nat
  errph : Nat
  err : Nat
  phase : Nat
  deriving DecidableEq, Repr

def Barrier.bytes (b : Barrier) : List Byte :=
  leBytes 16 (b.phase % 16 + 2 ^ 8 * (b.err % 4) + 2 ^ 12 * (b.errph % 16) + 2 ^ 16 * (b.early % 65536) + 2 ^ 32 * (b.done % 65536) +
    2 ^ 48 * (b.count % 65536) + 2 ^ 64 * (b.target % 65536) + 2 ^ 96 * (b.dpmask % 65536) + 2 ^ 120 * (b.succ % 256))
def Barrier.parse (v : Nat) : Barrier :=
  { succ := v / 2 ^ 120 % 256, dpmask := v / 2 ^ 96 % 65536, target := v / 2 ^ 64 % 65536, count := v / 2 ^ 48 % 65536,
    done := v / 2 ^ 32 % 65536, early := v / 2 ^ 16 % 65536, errph := v / 2 ^ 12 % 16, err := v / 2 ^ 8 % 4, phase := v % 16 }

/-- Whether a barrier object can lie at an address (R286). -/
def Ctx.barrierAt (x : Ctx) (a : Nat) : Bool := a % 16 == 0 && x.inStatic a 16

def execArrive (h : Hdr) (a : GReg) (phase : BitVec 4) (cm1 : BitVec 8) (s : State) : Host.Outcome State Fault Refusal :=
  .next (issue (.arrive h a phase cm1) [.g a] [] false s (fun n c f =>
    let v := f.getG a
    let x := s.ctx f.task.ctx
    let at_ := (v.extractLsb' 0 32).toNat
    match (if v.toNat < 2 ^ 42 ∧ x.barrierAt at_ then x.coreOf (v.extractLsb' 32 10).toNat else none) with
    | none => .trap 0x29 0
    | some k => .go (s.setCore n (c.setTop (f.hold (.arrive k at_ phase.toNat (cm1.toNat + 1))))) Ret.plain))

def execBinit (h : Hdr) (p : AReg) (b : GReg) (target : BitVec 16) (succ : BitVec 8) (phase : BitVec 4) (s : State) :
    Host.Outcome State Fault Refusal :=
  .next (issue (.binit h p b target succ phase) [.a p, .g b] [] false s (fun n c f =>
    let x := s.ctx f.task.ctx
    let a := (f.getA p).toNat
    let gb := (f.getG b).toNat
    let succOk := succ = 0xFF ∨ ((x.group succ.toNat).kind = 1 ∧ (x.groupMembers succ.toNat).all x.startable)
    if !x.barrierAt a ∨ target = 0 ∨ 65536 ≤ gb ∨ !decide succOk then .trap 0x29 0
    else padAct c [] [(a, 16)]
      (let o : Barrier := { succ := succ.toNat, dpmask := gb, target := target.toNat, count := target.toNat, done := 0, early := 0,
                            errph := 0, err := 0, phase := phase.toNat }
      let s1 := s.setCore n { c with merges := fset { cur := [], next := [] } c.merges a { cur := [], next := [] } }
      .go (s1.instrStore n f a o.bytes) Ret.plain)))

/-- The number of the core in its context. -/
def Ctx.lcoreOf (x : Ctx) (n : Nat) : Nat := (x.cores.findIdx? (fun k => k == n)).getD 0

/-- The starts of a completed phase (R34, R37): ordinal 0xFFFF_FFFF, positions counted over the members in order. -/
def Ctx.phaseStarts (x : Ctx) (lcore a phase : Nat) : Nat → List Nat → List Start
  | _, [] => []
  | m, t :: ts =>
    let n := x.startCount t
    let ids := (List.range n).map (fun j =>
      taskId 0xFFFFFFFF (childPath (BitVec.ofNat 32 (lcore * 2 ^ 20 + a)) (256 * phase + m + j)))
    { tmpl := t, ids, args := [], tile := none } :: x.phaseStarts lcore a phase (m + n) ts

/-- What an application of an arrival leaves: the object, its merge sets, the phases completed with their sets, an error. -/
structure Applied where
  obj : Barrier
  mg : Merge
  phases : List (Nat × IncSet)
  bad : Nat
  deriving DecidableEq, Repr

/-- `complete()`: at most two phases can complete at once, since `EARLY` never exceeds `TARGET`. -/
def completePhases : Nat → Applied → Applied
  | 0, r => r
  | k + 1, r =>
    let o := r.obj
    let r1 : Applied :=
      { r with
        obj := { o with done := (o.done + 1) % 65536, phase := (o.phase + 1) % 16, count := o.target - o.early, early := 0 }
        mg := { cur := r.mg.next, next := [] }
        phases := r.phases ++ [(o.phase, r.mg.cur)] }
    if o.target - o.early = 0 then completePhases k r1 else r1

/-- `apply` of R288. -/
def Barrier.apply (o : Barrier) (mg : Merge) (ph n : Nat) (set : IncSet) : Applied :=
  let fail := fun (e : Nat) => { obj := { o with err := e, errph := ph }, mg, phases := [], bad := e : Applied }
  if o.err ≠ 0 then { obj := o, mg, phases := [], bad := 0 }
  else if ph = o.phase then
    if o.count < n then fail 2
    else
      let r : Applied := { obj := { o with count := o.count - n }, mg := { mg with cur := mergeSets mg.cur set }, phases := [], bad := 0 }
      if o.count - n = 0 then completePhases 3 r else r
  else if ph = (o.phase + 1) % 16 then
    if o.target < o.early + n then fail 2
    else { obj := { o with early := o.early + n }, mg := { mg with next := mergeSets mg.next set }, phases := [], bad := 0 }
  else fail 1

/-- The releases of a completed phase; at a digest point of a paired context they wait for the seal, beside those of the digest points
that the context has reached since its last seal (R361; log 105). -/
def State.phaseDone (s : State) (n k a : Nat) (o : Barrier) (p : Nat × IncSet) : State :=
  let x := s.ctx k
  let sts := if o.succ = 0xFF then [] else x.phaseStarts (x.lcoreOf n) a p.1 0 (x.groupMembers o.succ)
  if x.pair.pen && o.dpmask.testBit p.1 then
    s.setCtx k { x with pair := { x.pair with next := some (x.pair.next.getD [] ++ sts.map (fun st => (n, st, p.2))) } }
  else sts.foldl (fun s st => s.release n k st p.2) s

/-- The arrival that stands `k`th in a barrier unit's input, unless an earlier one of the same core waits there: arrivals of one core
apply in the order in which they were sent, those of different cores in any order (R274, R382). -/
def Core.arrival? (c : Core) (k : Nat) : Option Arrival :=
  match c.arrivals[k]? with
  | some ar => if (c.arrivals.take k).any (fun x => x.src == ar.src) then none else some ar
  | none => none

/-- ARRIVAL_APPLY: the barrier unit applies an arrival, once its merge set holds at most 8 writers; one of a context that has ended is
discarded (R357). -/
def execArrivalApply (e : InputRef) (s : State) : Host.Outcome State Fault Refusal :=
  let core := e.core
  let c := s.core core
  match c.arrival? e.elem with
  | none => .next s
  | some ar =>
    if !s.fabric.links (dieOf ar.src) (dieOf core) then .next s
    else if (s.ctx ar.ctx).state ≠ 2 then .next (s.setCore core { c with arrivals := c.arrivals.eraseIdx e.elem })
    else
    let own := s.writer core
    let mg := fget { cur := [], next := [] } c.merges ar.addr
    let o := Barrier.parse (c.padNat ar.addr 16)
    let r := o.apply mg ar.phase ar.n ar.set
    -- the sets that the application leaves or releases, without writers known to be quiet
    match c.reduceSet own r.mg.cur, c.reduceSet own r.mg.next, r.phases.mapM (fun p => (c.reduceSet own p.2).map (fun t => (p.1, t))) with
    | some cur, some next, some phases =>
      let c1 := { c with arrivals := c.arrivals.eraseIdx e.elem, merges := fset { cur := [], next := [] } c.merges ar.addr { cur, next } }
      let s1 := s.setCore core c1
      let s2 := if o.err = 0 then s1.padStore core ar.addr r.obj.bytes ar.set else s1
      let s3 := phases.foldl (fun s p => s.phaseDone core ar.ctx ar.addr o p) s2
      .next (if r.bad = 0 then s3 else s3.post core (some ar.ctx) 0x08 (payload
        [(8, 2, (s.ctx ar.ctx).lcoreOf core), (10, 1, r.bad), (11, 1, ar.phase), (12, 4, ar.addr), (16, 2, ar.n), (24, 8, ar.id.toNat)]))
    | _, _, _ => .next s

/-! ## Watches (R289, R290) -/

def execWatch (h : Hdr) (wide : Bool) (p : AReg) (b : GReg) (t : BitVec 12) (s : State) : Host.Outcome State Fault Refusal :=
  .next (issue (.watch h wide p b t) ([.a p, .g b] ++ s.argRegs (fun _ => [t.toNat])) [] false s (fun n c f =>
    let x := s.ctx f.task.ctx
    let k := wideBytes wide
    let a := (f.getA p).toNat
    if !x.startable t.toNat then .trap 0x26 0
    else if 16 ≤ c.watches.length then .trap 0x2A 0
    else (f.padCheck x a k).act (fun _ =>
      let r := x.startBy f t.toNat ((x.templates[t.toNat]?.map f.passArgs).getD [])
      let w : Watch := { id := s.uid, addr := a, size := k, val := zext k (f.getG b).toNat, start := r.1, set := [], armed := false }
      .go (s.setCore n { c.setTop (r.2.hold (.arm s.uid)) with watches := c.watches ++ [w] }).fresh Ret.plain)))

def execUnwatch (h : Hdr) (d : GReg) (p : AReg) (s : State) : Host.Outcome State Fault Refusal :=
  .next (issue (.unwatch h d p) [.g d, .a p] [] false s (fun n c f =>
    let a := (f.getA p).toNat
    (f.padCheck (s.ctx f.task.ctx) a 4).act (fun _ =>
      let hit := fun (w : Watch) => w.armed && w.addr == a
      .go (s.setCore n { c with watches := c.watches.filter (fun w => !hit w) })
        { Ret.plain with writes := [gRes d (BitVec.ofNat 64 (c.watches.filter hit).length) 2] })))

/-! ## Queues (R291–R293) -/

def execQpush (h : Hdr) (q : QReg) (a b : GReg) (s : State) : Host.Outcome State Fault Refusal :=
  .next (issue (.qpush h q a b) [.g a, .g b] [] false s (fun n c f =>
    let v := (f.getG a).toNat
    match (if v < 1024 then (s.ctx f.task.ctx).coreOf v else none) with
    | none => .trap 0x2C 0
    | some k => .go (s.setCore n (c.setTop (f.hold (.push k q.toNat (f.getG b))))) Ret.plain))

/-- The trigger rule (R292); a queue of 32 elements triggers at most 32 times. -/
def State.queueTrigger (s : State) (core k q : Nat) : Nat → State
  | 0 => s
  | fuel + 1 =>
    let c := s.core core
    let u := c.queue q
    if u.n = 0 ∨ u.elems.length < u.r + u.n then s
    else
      let x := s.ctx k
      let cnt := x.startCount u.t
      let ids := (List.range cnt).map (fun j =>
        taskId 0xFFFFFFFE (BitVec.ofNat 32 ((x.lcoreOf core * 8 + q) * 2 ^ 16 + (u.m + j) % 2 ^ 16)))
      let s1 := s.setCore core (c.setQueue q { u with r := u.r + u.n, m := (u.m + cnt) % 2 ^ 16 })
      (s1.release core k { tmpl := u.t, ids, args := [], tile := none } []).queueTrigger core k q fuel

/-- The push that stands `k`th in a core's queue input, if it is for queue `q` and no earlier one of the same core for that queue waits
there (R274, R382). -/
def Core.push? (c : Core) (q k : Nat) : Option Push :=
  match c.pushes[k]? with
  | some p => if p.q = q ∧ !(c.pushes.take k).any (fun x => x.src == p.src && x.q == q) then some p else none
  | none => none

/-- QUEUE_PUSH_APPLY: a push that waits for the queue is appended when there is room; one of a context that has ended is discarded
(R357). -/
def execQueuePushApply (e : InputRef) (q : Nat) (s : State) : Host.Outcome State Fault Refusal :=
  let core := e.core
  let c := s.core core
  let u := c.queue q
  match c.push? q e.elem with
  | none => .next s
  | some p =>
    let c1 := { c with pushes := c.pushes.eraseIdx e.elem }
    if !s.fabric.links (dieOf p.src) (dieOf core) then .next s
    else if (s.ctx p.ctx).state ≠ 2 then .next (s.setCore core c1)
    else if 32 ≤ u.elems.length then .next s
    else
      let s1 := s.setCore core (c1.setQueue q { u with elems := u.elems ++ [{ val := p.val, set := p.set }] })
      .next (s1.queueTrigger core p.ctx q 33)

/-- `QPOP` acquires the element's set. -/
def execQpop (h : Hdr) (d : GReg) (q : QReg) (s : State) : Host.Outcome State Fault Refusal :=
  .next (issue (.qpop h d q) [.g d] [] false s (fun n c f =>
    let u := c.queue q.toNat
    match u.elems with
    | [] => .trap 0x2B 0
    | e :: es => acquireAct s n c f e.set (fun v =>
      .go (s.setCore n ((c.setTop (c.acquired f v)).setQueue q.toNat { u with elems := es, r := u.r - 1 }))
        { Ret.plain with writes := [gRes d e.val 2] })))

def execQcfg (h : Hdr) (q : QReg) (a : GReg) (s : State) : Host.Outcome State Fault Refusal :=
  .next (issue (.qcfg h q a) [.g a] [] false s (fun n c f =>
    let v := (f.getG a).toNat
    let k := v % 64
    let t := v / 64 % 4096
    if 32 < k ∨ 2 ^ 18 ≤ v ∨ (0 < k ∧ !(s.ctx f.task.ctx).startable t) then .trap 0x2C 0
    else .go ((s.setCore n (c.setQueue q.toNat { c.queue q.toNat with n := k, t := t, r := 0, m := 0 })).queueTrigger n f.task.ctx
      q.toNat 33) Ret.plain))

def execQlen (h : Hdr) (d : GReg) (q : QReg) (s : State) : Host.Outcome State Fault Refusal :=
  .next (issue (.qlen h d q) [.g d] [] false s (fun _ c _ =>
    let u := c.queue q.toNat
    .go s { Ret.plain with writes := [gRes d (BitVec.ofNat 64 (u.elems.length + 2 ^ 8 * u.r + 2 ^ 16 * u.n)) 2] }))

/-! ## Kept grants (R280) -/

/-- KEPT_GRANT_EXPIRY: the kept grant goes back to the pool. -/
def execKeptGrantExpiry (core : Nat) (s : State) : Host.Outcome State Fault Refusal :=
  .next ((s.setCore core (s.core core).returnKept).offers (clusterOf core))

end Sys2Proof.Machine
end

