-- ==== Sys2Proof/Machine/Pair.lean ====
section
/-!
DEFINITION. Paired partitions (R358–R362): SEAL, DIGEST_TIMEOUT, and what a digest and an end notice do.
-/

namespace Sys2Proof.Machine

/-! ## Quiescence (R361, step 1) -/

/-- Whether nothing of a context is on a core, in its queues or under way from it. -/
def Core.atRest (c : Core) : Bool :=
  c.frames.isEmpty && c.offer.isNone && c.reqs.isEmpty && c.fwd.isEmpty && c.copyq.isEmpty && c.sampq.isEmpty && c.arrivals.isEmpty &&
    c.pushes.isEmpty && c.long.isEmpty && c.lanes.all (fun l => l.2.mq.isEmpty && l.2.cq.isEmpty) &&
    c.closed.all (fun b => b.settled && b.effects.isEmpty)

/-- Whether a message comes from or goes to context `k` of this package. -/
def State.msgOf (s : State) (k : Nat) (m : RMsg) : Bool :=
  (m.srcPkg == s.fabric.pkgnum && m.srcCtx.toNat == k) || (m.dstPkg == s.fabric.pkgnum && m.dstCtx.toNat == k)

/-- Whether a context is quiescent. Its bundles are settled, so that the versions of the epoch are what the seal confirms. -/
def State.quiescent (s : State) (k : Nat) : Bool :=
  let x := s.ctx k
  x.cores.all (fun n => (s.core n).atRest) && x.waiters.isEmpty && s.releases.all (fun r => r.task.ctx != k) &&
    s.clusters.all (fun c => c.2.ready.all (fun r => r.task.ctx != k) && c.2.input.all (fun r => r.task.ctx != k)) &&
    !(s.fabric.outbox ++ s.fabric.queue.map Sending.msg ++ s.fabric.ethq).any (s.msgOf k)

/-! ## Disagreement (R361) -/

/-- What a disagreement zeroes on a core (R361, step 4). -/
def Core.wiped (c : Core) (x : Ctx) : Core :=
  { c with pad := c.pad.filter (fun e => decide (1024 * fget 0 x.stat (padBank e.1) ≤ padOff e.1)), lanes := [], w := [], queues := [],
           watches := [], guards := [] }

/-! ## Digests (R361) -/

def State.setPair (s : State) (k : Nat) (p : Pair) : State := s.setCtx k { s.ctx k with pair := p }

/-- The releases of an anchor, each with the core that sends it, or `coreCount` for the front end. -/
def State.anchorOut (s : State) (k : Nat) (l : List (Nat × Start × IncSet)) : State := l.foldl (fun s e => s.release e.1 k e.2.1 e.2.2) s

/-- The source number of the launch front end. -/
def coreCount : Nat := 1088

/-- The digests of a sealed epoch are compared. The source of record 0x0D is the routing die's management (log 100); on a second
disagreement what the epoch has written goes (R361). -/
def State.compareDigests (s : State) (k : Nat) (d : BitVec 256) : State :=
  let x := s.ctx k
  let p := x.pair
  if d = p.ldigest then
    let nxt := p.next.getD []
    let p1 := { p with pstate := 0, trans := if p.replay && p.trans != 255 then p.trans + 1 else p.trans, replay := false,
                       anchor := nxt.map (fun e => e.2), next := none, partner := none }
    ((s.setMem (s.mem.confirm k)).setPair k p1).anchorOut k nxt
  else
    let s1 := s.post srcMgmt (some k) 0x0D (payload [(8, 4, p.epoch.toNat), (12, 1, p.replay.toNat),
      (16, 8, (p.ldigest.extractLsb' 0 64).toNat), (24, 8, (d.extractLsb' 0 64).toNat)])
    if p.replay then (s1.setMem (s1.mem.discardEpoch k)).endCtx k 0x08 0
    else
      let s2 := x.cores.foldl (fun s n => s.setCore n ((s.core n).wiped x)) (s1.setMem (s1.mem.discardEpoch k))
      (s2.setPair k { p with pstate := 2, replay := true, next := none, partner := none, acc := 0 }).anchorOut k (p.anchor.map (fun e => (coreCount, e)))

/-- SEAL: at a digest point the quiescent context computes its digest and sends it to its partner. -/
def execSeal (ctx : Nat) (s : State) : Host.Outcome State Fault Refusal :=
  let x := s.ctx ctx
  let p := x.pair
  if x.state = 2 ∧ p.pen ∧ p.pstate ≠ 1 ∧ p.next.isSome ∧ s.quiescent ctx then
    let p1 := { p with ldigest := p.acc, acc := 0, epoch := p.epoch + 1, pstate := 1, sealed := true }
    let s1 := s.setPair ctx p1
    let s2 := match x.peer p.ppeer with
      | some q => s1.send { srcPkg := s.fabric.pkgnum, srcCtx := BitVec.ofNat 6 ctx, srcCore := 0, dstPkg := q.pkg, dstCtx := q.ctx,
                            peer := q.idx, eth := q.eth, bind := q.bind, prio := 0, fibre := 0, taskId := 0, body := .digest p.epoch p.acc }
      | none => s1.remoteError ctx 0 p.ppeer.toNat 6 0x05 0 0
    .next (match p.partner with
      | some (e, d) => if e = p.epoch then s2.compareDigests ctx d else s2
      | none => s2)
  else .next s

/-- A digest of the partner: compared if its epoch is sealed here, else kept until it is. -/
def State.digestArrives (s : State) (k : Nat) (epoch : BitVec 32) (d : BitVec 256) : State :=
  let x := s.ctx k
  let p := x.pair
  if x.state ≠ 2 ∨ !p.pen then s
  else if p.pstate = 1 ∧ epoch + 1 = p.epoch then s.compareDigests k d
  else s.setPair k { p with partner := some (epoch, d) }

/-- The end of the partner (R362). -/
def State.noticeArrives (s : State) (k : Nat) : State :=
  let x := s.ctx k
  if x.state = 2 ∧ x.pair.pen then s.endCtx k 0x0E 0 else s

/-- DIGEST_TIMEOUT: `DIGLIM` cycles have passed since the seal (log 3). -/
def execDigestTimeout (ctx : Nat) (s : State) : Host.Outcome State Fault Refusal :=
  .next (if (s.ctx ctx).pair.pen ∧ (s.ctx ctx).pair.pstate = 1 then s.endCtx ctx 0x0F 0 else s)

/-- Whether the partner of context `k` is in this package: its notice then stands in the routing die until it arrives. -/
def State.nearPartner (s : State) (k : Nat) : Bool :=
  match (s.ctx k).peer (s.ctx k).pair.ppeer with
  | some p => p.pkg == s.fabric.pkgnum
  | none => false

end Sys2Proof.Machine
end

