-- ==== Sys2Proof/Machine/Events.lean ====
section
/-!
DEFINITION. The event queue (R64, R66), host accesses of main memory (R49), the link (R49): EVENT_CONFIG_WRITE,
EVENT_READ_INDEX_WRITE, EVENT_RECORD_STAGE, EVENT_RING_WRITE, HOST_MEMORY_WRITE, HOST_MEMORY_READ, LINK_TRAINING,
APERTURE_ACCESS_NOT_PERFORMED.
-/

namespace Sys2Proof.Machine

def State.setEvents (s : State) (e : Events) : State := { s with events := e }

/-! ## The event ring (R64, R66) -/

/-- A write to 0x1008, judged against the old `EVEN`. -/
def Events.config (e : Events) (v : Word) : Events :=
  let e1 := { e with evint := v.getLsbD 5 }
  if e.even then { e1 with even := v.getLsbD 4 }
  else { e1 with log2 := v.extractLsb' 0 4, even := v.getLsbD 4 && decide (4 ≤ (v.extractLsb' 0 4).toNat) }

/-- A write of `EVRDIDX`: within the entries that the host has not read. -/
def Events.readIndex (e : Events) (v : Word) : Events :=
  if e.rd.toNat ≤ v.toNat ∧ v.toNat ≤ e.wr.toNat then { e with rd := v } else e

def execEventConfigWrite (v : Word) (s : State) : Host.Outcome State Fault Refusal := .next (s.setEvents (s.events.config v))
def execEventReadIndexWrite (v : Word) (s : State) : Host.Outcome State Fault Refusal := .next (s.setEvents (s.events.readIndex v))

/-- The first of the nine queues, from the one whose turn it is, that holds a record: 0–7 the die buffers, 8 the held records. -/
def State.stageFrom (s : State) : Nat → Nat → Option Nat
  | 0, _ => none
  | n + 1, t =>
    if (if t % 9 = 8 then s.events.held.isEmpty else (s.die (t % 9)).buf.isEmpty) then s.stageFrom n (t + 1) else some (t % 9)

/-- EVENT_RECORD_STAGE: the staging takes a record by turns from the die buffers and the held records. -/
def execEventRecordStage (s : State) : Host.Outcome State Fault Refusal :=
  let e := s.events
  if 256 ≤ e.staging.length then .next s
  else match s.stageFrom 9 e.turn with
    | none => .next s
    | some 8 => .next (s.setEvents { e with staging := e.staging ++ e.held.take 1, held := e.held.drop 1, turn := 0 })
    | some d =>
      let x := s.die d
      .next ((s.setDie d { x with buf := x.buf.drop 1 }).setEvents { e with staging := e.staging ++ x.buf.take 1, turn := d + 1 })

/-- After a record: the shadow word, and the interrupt where the ring was empty. -/
def State.afterRecord (s : State) (wasEmpty : Bool) : State :=
  let e := s.events
  let sh := 8 * (e.shadow.toNat / 8)
  let ia := 4 * (e.iaddr.toNat / 4)
  let s1 := if sh = 0 then s else match s.hostWrite sh (bytesOf 8 e.wr) with
    | some t => t
    | none => s.setEvents { e with even := false }
  if wasEmpty && e.evint && ia != 0 then
    match s1.hostWrite ia (leBytes 4 e.idata.toNat) with
    | some t => t
    | none => s1.setEvents { s1.events with evint := false }
  else s1

/-- EVENT_RING_WRITE: the oldest staged record goes to the ring; an error clears `EVEN`, and the record stays. -/
def execEventRingWrite (s : State) : Host.Outcome State Fault Refusal :=
  let e := s.events
  match e.staging with
  | [] => .next s
  | r :: rs =>
    if !e.even ∨ e.rd.toNat + 2 ^ e.log2.toNat ≤ e.wr.toNat then .next s
    else match s.hostWrite (32 * (e.base.toNat / 32) + 32 * (e.wr.toNat % 2 ^ e.log2.toNat)) r.bytes with
      | none => .next (s.setEvents { e with even := false })
      | some s1 => .next ((s1.setEvents { e with staging := rs, wr := e.wr + 1 }).afterRecord (e.wr == e.rd))

/-! ## Accesses that are not performed (R46, R49) -/

def State.notPerformed (s : State) (addr : Word) (wr mem : Bool) : State :=
  s.post srcMgmt none 0x04 (payload [(8, 8, addr.toNat), (16, 1, wr.toNat + 2 * mem.toNat)])

/-- APERTURE_ACCESS_NOT_PERFORMED: a read returns zero. -/
def execApertureAccessNotPerformed (off : Word) (wr : Bool) (s : State) : Host.Outcome State Fault Refusal :=
  let s1 := s.notPerformed off wr false
  .next (if wr then s1 else { s1 with host := { s1.host with read := List.replicate 8 0 } })

/-! ## Main memory (R49) -/

/-- Whether the link can carry an access of `n` bytes: 1 to 64 bytes within one line. -/
def State.linkCarries (s : State) (pa : Word) (n : Nat) : Bool :=
  !s.host.down && decide (1 ≤ n) && decide (pa.toNat % 64 + n ≤ 64)

/-- Keeps, for the contexts that are live, what line `key` and the next one of `old` hold, as contents of line `key` and on. -/
def Memory.keepOld (m old : Memory) (live : List Nat) (key : Nat) : Memory :=
  { m with hostOld := fset [] m.hostOld key (fget [] m.hostOld key ++ [(old.settledData key ++ old.settledData (key + 1), live)]) }

/-- What a host write to a line of `old` replaces (R27). A fetch block may begin in the line before, so that is kept with it. -/
def Memory.noteOld (m old : Memory) (key : Nat) (live : List Nat) : Memory :=
  if live.isEmpty then m else ((if key = 0 then [key] else [key - 1, key]).foldl (fun m k => m.keepOld old live k) m)

/-- HOST_MEMORY_WRITE: the bytes are merged over the newer version, which a settled version of tag 0 replaces; the write waits
while the newer version is pending. -/
def execHostMemoryWrite (pa : Word) (bytes : List Byte) (s : State) : Host.Outcome State Fault Refusal :=
  let key := pa.toNat / 64
  if !s.linkCarries pa bytes.length then .next s
  else if 2 ^ 40 ≤ pa.toNat then .next (s.notPerformed pa true true)
  else if (s.mem.lineTags key).newer.st = .pending then .next s
  else .next (s.setMem (((s.mem.physWrite pa.toNat bytes).setTags key
    { s.mem.lineTags key with newer := { Tag.zero with st := .settled } }).noteOld s.mem key
      ((List.range 64).filter (fun k => (s.ctx k).state == 2))))

/-- The bytes of a line that the host reads: of the confirmed version in a paired context (R360). -/
def Memory.hostLine (m : Memory) (key : Nat) : List Byte := if fget 0 m.unconf key ≠ 0 then (m.confirmedOf key).1 else m.settledData key

/-- HOST_MEMORY_READ. -/
def execHostMemoryRead (pa : Word) (n : Nat) (s : State) : Host.Outcome State Fault Refusal :=
  if !s.linkCarries pa n then .next s
  else if 2 ^ 40 ≤ pa.toNat then
    let s1 := s.notPerformed pa false true
    .next { s1 with host := { s1.host with read := List.replicate n 0 } }
  else .next { s with host := { s.host with read := ((s.mem.hostLine (pa.toNat / 64)).drop (pa.toNat % 64)).take n } }

/-- LINK_TRAINING: `groups` are the groups of 8 lanes that train; with none, the link is down. -/
def execLinkTraining (groups : BitVec 4) (s : State) : Host.Outcome State Fault Refusal :=
  let n := ((List.range 4).filter (fun k => groups.getLsbD k)).length
  .next (if s.mgmt.powered then { s with host := { s.host with lanes := 8 * n, down := n == 0 } } else s)

end Sys2Proof.Machine
end

