-- ==== Sys2Proof/Machine/Faults.lean ====
section
/-!
DEFINITION. Fault records and translation commands of the host (R171, R172): FAULT_RECORD_RELEASE, XCMD_INVALIDATE_ALL,
XCMD_HARVEST, XCMD_INVALIDATE_PAGE, XCMD_COMPLETE.
-/

namespace Sys2Proof.Machine

/-- A write of `FREL`: the record closes, its tasks are queued again, and the tasks that wait for a free record take their faults
again (R170, R172). -/
def State.freeRecord (s : State) (k r : Nat) : State :=
  let x := s.ctx k
  if (fget none x.frec r).isNone then s
  else
    let again := x.waiters.filter (fun w => w.record == some r)
    let lone := x.waiters.filter (fun w => w.record == none)
    let s1 := s.setCtx k { x with
      frec := fset none x.frec r none, waiters := x.waiters.filter (fun w => w.record != some r && w.record != none) }
    let rels := again.map (fun w => ({ task := w.task, cluster := w.cluster, src := 2 ^ 19 + k, aged := false, skips := 0 } : Release))
    let s2 := { s1 with releases := s1.releases ++ rels }
    lone.foldl State.recordFault s2

def execFaultRecordRelease (ctx r : Nat) (s : State) : Host.Outcome State Fault Refusal := .next (s.freeRecord ctx r)

/-- The entries that an invalidation command removes: of the context, or of its page `XPAGE`. -/
def xcmdHits (k : Nat) (x : Ctx) (e : Tlb) : Bool := e.ctx == k && (x.xcmd == 1 || (x.xcmd == 3 && e.page == x.xpage.toNat))

/-- An `XCMD` starts, unless the last one is not complete: a harvest writes back at once, an invalidation removes the entries. -/
def State.xcmd (s : State) (k : Nat) (cmd : BitVec 2) (page : BitVec 48) : State :=
  let x := s.ctx k
  if x.xbusy then s
  else
    let y := { x with xcmd := cmd, xpage := page, xbusy := true }
    let s1 := s.setCtx k y
    if cmd = 2 then s1.harvest (fun e => e.ctx == k) else s1.invalidate (xcmdHits k y)

def execXcmdInvalidateAll (ctx : Nat) (s : State) : Host.Outcome State Fault Refusal := .next (s.xcmd ctx 1 (s.ctx ctx).xpage)
def execXcmdHarvest (ctx : Nat) (s : State) : Host.Outcome State Fault Refusal := .next (s.xcmd ctx 2 (s.ctx ctx).xpage)
def execXcmdInvalidatePage (ctx : Nat) (page : BitVec 48) (s : State) : Host.Outcome State Fault Refusal := .next (s.xcmd ctx 3 page)

/-- XCMD_COMPLETE: an invalidation waits for the engine commands that hold a translation it removes (R170); entries that were
filled meanwhile go too. -/
def execXcmdComplete (ctx : Nat) (s : State) : Host.Outcome State Fault Refusal :=
  let x := s.ctx ctx
  let held := x.xcmd != 2 && s.pageHeld ctx (fun p => x.xcmd == 1 || p == x.xpage.toNat)
  if !x.xbusy ∨ held then .next s
  else
    let s1 := if x.xcmd = 2 then s else s.invalidate (xcmdHits ctx x)
    .next (s1.setCtx ctx { s1.ctx ctx with xcmd := 0, xbusy := false })

end Sys2Proof.Machine
end

