-- ==== Sys2Proof/Machine/Dispatcher.lean ====
section
/-!
DEFINITION. The steps of the dispatchers (R75–R81, R369) and the end of a context whose last task has retired (R282):
RELEASE_ARRIVAL, OFFER_ARRIVAL, TASK_AGED, SKIP_LIMIT_BLOCK, DISPATCH_EXCHANGE, ENTRY_STORE_FETCH, CONTEXT_LAST_TASK_RETIRED.
-/

namespace Sys2Proof.Machine

/-! ## Releases and offers (R75–R79) -/

/-- The set of a release as it arrives: at most 8 writers (R219). One of a core waits until so many are left; a resumed task is
no message. -/
def State.releaseSet (s : State) (r : Release) : Option IncSet :=
  if r.task.set.length ≤ 8 ∨ r.task.cont.isSome ∨ 1088 ≤ r.src then some r.task.set
  else (s.core r.src).reduceSet (s.writer r.src) r.task.set

/-- Whether a release can pass between the compute dies of its core and its dispatcher (R323). -/
def State.linksRelease (s : State) (r : Release) : Bool := decide (1088 ≤ r.src) || s.fabric.links (dieOf r.src) (r.cluster / 34)

/-- Whether an earlier release of the same core to the same dispatcher still goes to its peer context in this package (R274, R336, R380). -/
def State.releaseBehind (s : State) (r : Release) : Bool :=
  s.fabric.outbox.any (fun m => m.srcPkg == s.fabric.pkgnum && m.srcCore == r.src && decide (m.sentAt < r.sentAt) &&
    (s.msgClusters m).contains r.cluster)

/-- RELEASE_ARRIVAL: release `k` of those under way, the oldest from its source to its dispatcher; one of a context that has
ended is discarded (R357). -/
def execReleaseArrival (k : Nat) (s : State) : Host.Outcome State Fault Refusal :=
  match s.releases[k]? with
  | none => .next s
  | some r =>
    if (s.releases.take k).any (fun x => x.src == r.src && x.cluster == r.cluster) || !s.linksRelease r || s.releaseBehind r then .next s
    else
      let s1 := { s with releases := s.releases.eraseIdx k }
      if (s.ctx r.task.ctx).state ≠ 2 then .next s1
      else match s.releaseSet r with
        | none => .next s
        | some set => .next (s1.enter r.cluster { r with task := { r.task with set } })

/-- OFFER_ARRIVAL: the offered task has reached its core, which admits it at its next boundary; a halted core returns it (R365). -/
def execOfferArrival (core : Nat) (s : State) : Host.Outcome State Fault Refusal :=
  let c := s.core core
  match c.offer, (s.cluster (clusterOf core)).ready.find? (fun r => r.offer == some core) with
  | none, some r =>
    .next (if c.dbg.halted then (s.returnOffer core).offers (clusterOf core)
      else s.setCore core { c with offer := some r.task })
  | none, none => .next s
  | some _, _ => .next s

/-- Changes entry `k` of a dispatcher, and makes the offers that this allows. -/
def State.onReady (s : State) (cluster k : Nat) (g : Ready → Ready) : State :=
  let c := s.cluster cluster
  (s.setCluster cluster { c with ready := c.ready.mapIdx (fun i r => if i = k then g r else r) }).offers cluster

/-- TASK_AGED: the task has waited `AGELIM` cycles (log 3). -/
def execTaskAged (cluster k : Nat) (s : State) : Host.Outcome State Fault Refusal :=
  .next (s.onReady cluster k (fun r => { r with aged := true }))

/-- SKIP_LIMIT_BLOCK: a task whose skip count has reached `SKIPLIM` blocks its cores until it is offered (R79). -/
def execSkipLimitBlock (cluster k : Nat) (s : State) : Host.Outcome State Fault Refusal :=
  .next (s.onReady cluster k (fun r => if s.skipLim r.task ≤ r.skips ∧ r.offer.isNone then { r with blocked := true } else r))

/-- ENTRY_STORE_FETCH: the entry block of a task that was not in the store has come (R369). -/
def execEntryStoreFetch (cluster k : Nat) (s : State) : Host.Outcome State Fault Refusal :=
  .next (s.onReady cluster k (fun r => { r with fetched := true }))

/-! ## Moves (R80) -/

/-- The clusters next to cluster `k` on its virtual die that hold cores of the context: the next lower and the next higher. -/
def Ctx.neighbours (x : Ctx) (k : Nat) : List Nat :=
  match (x.cores.zip x.coreids).find? (fun e => clusterOf e.1 == k) with
  | none => []
  | some e =>
    let l := distinct ((x.coresWhere (fun w => coreidVd w == coreidVd e.2)).map clusterOf)
    let i := l.findIdx (fun c => c == k)
    (if i = 0 then [] else (l[i - 1]?).toList) ++ (l[i + 1]?).toList

/-- A movable ready task of context `ctx`: `PLACE` 2, no offer outstanding. -/
def State.movable (s : State) (ctx : Nat) (r : Ready) : Bool :=
  r.task.ctx == ctx && r.offer.isNone && r.task.core.isNone && (match s.tmpl? r.task with
    | some m => m.place == 2
    | none => false)

/-- The tasks that go to cluster `to_`, the last of the order first: at most `n`, whose set holds a core there. -/
def State.takeMoves (s : State) (ctx to_ : Nat) : Nat → List Ready → List Ready
  | 0, _ => []
  | _, [] => []
  | n + 1, r :: rs =>
    if s.movable ctx r && (match s.tmpl? r.task with
        | some m => ((s.ctx ctx).setClusters ((s.ctx ctx).group m.placeVal)).contains to_
        | none => false) then r :: s.takeMoves ctx to_ n rs
    else s.takeMoves ctx to_ (n + 1) rs

/-- Cluster `k` tells neighbour `b` its count `d`, and sends it tasks if the count exceeds the neighbour's last one by more than
`XTHRESH`. A neighbour that has reported nothing yet counts as one that has reported 0 (log 85). -/
def State.exchange (s : State) (k ctx d b : Nat) : State :=
  let c := s.cluster k
  let nb := s.cluster b
  let s1 := s.setCluster b { nb with depths := fset 0 nb.depths (64 * k + ctx) d }
  let last := fget 0 c.depths (64 * b + ctx)
  let thr := ((s.ctx ctx).dispcfg.extractLsb' 40 8).toNat
  if thr = 0 ∨ d ≤ last + thr then s1
  else
    let mv := s.takeMoves ctx b ((d - last) / 2) (s.sortReady c.ready).reverse
    { s1.setCluster k { c with ready := c.ready.filter (fun r => !mv.contains r) } with
      releases := s1.releases ++ mv.map (fun r => { task := r.task, cluster := b, src := 2000 + k, aged := r.aged, skips := r.skips }) }

/-- DISPATCH_EXCHANGE: a dispatcher's exchange with its neighbours, for every context that holds cores in its cluster (log 3). -/
def execDispatchExchange (cluster : Nat) (s : State) : Host.Outcome State Fault Refusal :=
  .next (((List.range 64).foldl (fun (s : State) ctx =>
    let d := ((s.cluster cluster).ready.filter (s.movable ctx)).length
    ((s.ctx ctx).neighbours cluster).foldl (fun s b => s.exchange cluster ctx d b) s) s).refill cluster |>.offers cluster)

/-! ## The last task (R282) -/

def WQueue.nonEmpty (q : WQueue) : Bool := q.state == 1 && decide (q.rd.toNat < q.wr.toNat)

/-- A start, an arrival, a push or a remote release that has not left yet. -/
def Effect.alive : Effect → Bool
  | .start .. | .arrive .. | .push .. | .remote .. => true
  | .arm _ => false

/-- Nothing of a context is on a core: no frame, no record, no engine command, no effect that is still to leave, no request, and no line
of a bundle that is not settled (log 67). -/
def Core.idleFor (c : Core) : Bool :=
  c.frames.isEmpty && c.fwd.isEmpty && c.reqs.isEmpty && c.copyq.isEmpty && c.sampq.isEmpty && c.arrivals.isEmpty && c.pushes.isEmpty &&
    c.lanes.all (fun l => l.2.mq.isEmpty && l.2.cq.isEmpty) && c.closed.all (fun b => !b.effects.any Effect.alive && b.settled)

/-- The conditions of R282; a release that waits for a seal (R361) is one in flight. -/
def State.lastRetired (s : State) (k : Nat) : Bool :=
  let x := s.ctx k
  x.state == 2 && x.admitted && x.pair.next.isNone && s.queues.all (fun q => !(q.2.bind.toNat == k && q.2.nonEmpty)) &&
    x.cores.all (fun n => (s.core n).idleFor) && x.waiters.isEmpty && s.releases.all (fun r => r.task.ctx != k) &&
    s.clusters.all (fun c => c.2.ready.all (fun r => r.task.ctx != k) && c.2.input.all (fun r => r.task.ctx != k))

/-- CONTEXT_LAST_TASK_RETIRED. -/
def execContextLastTaskRetired (ctx : Nat) (s : State) : Host.Outcome State Fault Refusal :=
  .next (if s.lastRetired ctx then s.endCtx ctx 0x01 0 else s)

end Sys2Proof.Machine
end

