-- ==== Sys2Proof/Machine/Queues.lean ====
section
/-!
DEFINITION. Work queues and their entries (R50–R62), but for the creation of a context: QUEUE_DOORBELL, QUEUE_ENABLE,
QUEUE_DISABLE, QUEUE_ARBITRATION, SEQ_RETRY, STALE_ENTRY, LAUNCH_ENTRY, CREATE_CONTEXT_ENTRY, END_CONTEXT_ENTRY,
NO_OPERATION_ENTRY, END_COMPLETION, CONTEXT_FREE.
-/

namespace Sys2Proof.Machine

/-! ## The state of a queue (R50–R54) -/

def WQueue.size (q : WQueue) : Nat := 2 ^ q.log2.toNat

/-- The context of a queue's records: the one that it is bound to. -/
def WQueue.ctx? (q : WQueue) : Option Nat := if q.bind.toNat < 64 then some q.bind.toNat else none

/-- A queue enters state 2 with a cause (R52, R53). An entry that the front end already holds is still consumed (R54; log 96). -/
def State.queueError (s : State) (n : Nat) (err : Nat) : State :=
  let q := s.queue n
  (s.setQueue n { q with state := 2, err := BitVec.ofNat 8 err, waiting := false, retries := 0 }).post (srcQueue n) q.ctx? 0x01
    (payload [(8, 2, n), (10, 1, err), (16, 8, q.rd.toNat), (24, 8, q.wr.toNat)])

/-- Whether a queue takes part in arbitration (R55). -/
def WQueue.eligible (q : WQueue) : Bool := q.nonEmpty && !q.waiting && !q.hold

/-- The virtual time: the smallest pass of the eligible queues, or the pass of the queue chosen last. -/
def State.virtualTime (s : State) : Nat :=
  match (s.queues.filter (fun e => e.2.eligible)).map (fun e => e.2.pass) with
  | [] => (s.lastq.map (fun n => (s.queue n).pass)).getD 0
  | p :: ps => ps.foldl min p

/-- Changes a queue; one that becomes eligible by it has at least the virtual time as its pass. -/
def State.changeQueue (s : State) (n : Nat) (q : WQueue) : State :=
  if q.eligible && !(s.queue n).eligible then s.setQueue n { q with pass := max q.pass s.virtualTime } else s.setQueue n q

/-- A doorbell (R52). -/
def State.doorbell (s : State) (n : Nat) (v : Word) : State :=
  let q := s.queue n
  if q.state ≠ 1 then s.setQueue n { q with wr := v }
  else if v.toNat < q.rd.toNat then (s.setQueue n { q with wr := v }).queueError n 0x02
  else if q.rd.toNat + q.size < v.toNat then (s.setQueue n { q with wr := v }).queueError n 0x01
  else s.changeQueue n { q with wr := v }

/-- An enable (R51). A refused one leaves `ERR` as it was (log 96). -/
def State.enableQueue (s : State) (n : Nat) : State :=
  let q := s.queue n
  if q.state = 0 ∧ q.bind.toNat ≤ 64 ∧ q.tickets ≠ 0 ∧ 6 ≤ q.log2.toNat ∧ q.log2.toNat ≤ 16 ∧ q.rd.toNat ≤ q.wr.toNat ∧
      q.wr.toNat ≤ q.rd.toNat + q.size then
    s.changeQueue n { q with state := 1, err := 0, waiting := false, retries := 0 }
  else s

/-- A disable (R54). -/
def State.disableQueue (s : State) (n : Nat) : State :=
  s.setQueue n { s.queue n with state := 0, waiting := false, retries := 0 }

def execQueueDoorbell (q : Nat) (v : Word) (s : State) : Host.Outcome State Fault Refusal := .next (s.doorbell q v)
def execQueueEnable (q : Nat) (s : State) : Host.Outcome State Fault Refusal := .next (s.enableQueue q)
def execQueueDisable (q : Nat) (s : State) : Host.Outcome State Fault Refusal := .next (s.disableQueue q)

/-! ## Choosing and reading (R55, R56) -/

def WQueue.stride (q : WQueue) : Nat := 2 ^ 20 / q.tickets.toNat

/-- The first eligible queue of a list with the smallest pass. -/
def firstQueue : FMap WQueue → Option Nat
  | [] => none
  | e :: es =>
    if e.2.eligible then
      match es.find? (fun x => x.2.eligible && decide (x.2.pass < e.2.pass)) with
      | none => some e.1
      | some _ => firstQueue es
    else firstQueue es

/-- The eligible queue with the smallest pass, and among equals the lowest number. -/
def bestQueue (m : FMap WQueue) : Option Nat := firstQueue (ftrim WQueue.reset m)

def entryWord (bs : List Byte) (k : Nat) : Nat := leNat ((bs.drop (4 * k)).take 4)
def entryArg (bs : List Byte) (k : Nat) : Word := wordOf ((bs.drop (8 + 8 * k)).take 8)
def entrySeq (bs : List Byte) : Word := wordOf ((bs.drop 56).take 8)

/-- QUEUE_ARBITRATION: the front end, if it holds no entry, chooses a queue and reads its head entry. An entry that holds its own
index is consumed by one of the entry steps. -/
def execQueueArbitration (s : State) : Host.Outcome State Fault Refusal :=
  match s.entry, bestQueue s.queues with
  | none, some n =>
    let q := s.queue n
    let s1 := { s with lastq := some n }
    (match s.hostRead (64 * (q.qbase.toNat / 64) + 64 * (q.rd.toNat % q.size)) 64 with
      | none => .next (s1.queueError n 0x03)
      | some bs =>
        if entrySeq bs = q.rd then
          .next { s1.setQueue n { q with pass := (q.pass + q.stride) % 2 ^ 64, retries := 0 } with entry := some (n, bs) }
        else .next (s1.setQueue n { q with waiting := true, retries := q.retries + 1 }))
  | none, none => .next s
  | some _, _ => .next s

/-- SEQ_RETRY: the wait of 256 front-end cycles is over (log 3). -/
def execSeqRetry (n : Nat) (s : State) : Host.Outcome State Fault Refusal :=
  let q := s.queue n
  .next (if q.state = 1 ∧ q.waiting ∧ q.retries < 16 then s.changeQueue n { q with waiting := false } else s)

/-- STALE_ENTRY: the index did not match over 16 reads. -/
def execStaleEntry (n : Nat) (s : State) : Host.Outcome State Fault Refusal :=
  let q := s.queue n
  .next (if q.state = 1 ∧ q.waiting ∧ 16 ≤ q.retries then s.queueError n 0x05 else s)

/-! ## Consuming (R51, R57–R61) -/

/-- The entry that the front end holds leaves it: `QRDIDX` advances, and the shadow word is written. Where that write fails after `EN` = 0,
the queue stays in state 0 and no record is posted (log 96). -/
def State.consume (s : State) (n : Nat) (bs : List Byte) : State :=
  let q := s.queue n
  let q1 := if q.rd = entrySeq bs then { q with rd := q.rd + 1 } else q
  let s1 := { s.setQueue n q1 with entry := none }
  let sh := 8 * (q1.shadow.toNat / 8)
  if sh = 0 then s1
  else match s1.hostWrite sh (bytesOf 8 q1.rd) with
    | some s2 => s2
    | none => if q1.state = 1 then s1.queueError n 0x04 else s1

/-- A refused entry posts its record (R58). -/
def State.refuse (s : State) (n : Nat) (bs : List Byte) (cause : Nat) : State :=
  (s.post (srcQueue n) (s.queue n).ctx? 0x02 (payload [(8, 2, n), (10, 1, cause), (16, 8, (entrySeq bs).toNat)])).consume n bs

/-- Runs `g` on the entry that the front end holds, if its kind is `p`. -/
def State.onEntry (s : State) (p : Nat → Bool) (g : Nat → List Byte → State) : Host.Outcome State Fault Refusal :=
  match s.entry with
  | none => .next s
  | some (n, bs) => if p (entryWord bs 0 / 2 ^ 28) then .next (g n bs) else .next s

def entryTmpl (bs : List Byte) : Nat := entryWord bs 0 % 4096
/-- Reserved bits, and fields that only a launch uses. -/
def entryPlain (bs : List Byte) : Bool := entryWord bs 0 % 2 ^ 28 == 0 && entryWord bs 1 == 0

/-- The first cause that a launch entry meets in the order of R58, by `BIND` as it stands when the entry is consumed (log 96). -/
def State.launchCause (s : State) (q : WQueue) (bs : List Byte) : Option Nat :=
  let x := s.ctx q.bind.toNat
  if entryWord bs 0 / 4096 % 2 ^ 16 ≠ 0 then some 0x01
  else if 64 ≤ q.bind.toNat then some 0x02
  else if x.state ≠ 2 then some 0x05
  else if x.pair.pen ∧ (x.pair.sealed ∨ 8 ≤ x.pair.launches) then some 0x07
  else match x.templates[entryTmpl bs]? with
    | none => some 0x03
    | some m => if 6 < m.argCount then some 0x04 else if (x.placeCores m).isEmpty then some 0x06 else none

/-- The start of a launch entry (R35, R37, R57). -/
def Ctx.launchStart (x : Ctx) (bs : List Byte) : Start :=
  let t := entryTmpl bs
  let ord : BitVec 32 := BitVec.ofNat 32 (entryWord bs 1)
  match x.templates[t]? with
  | none => { tmpl := t, ids := [], args := [], tile := none }
  | some m =>
    { tmpl := t, tile := none,
      ids := if m.place = 0 then (List.range (x.startCount t)).map (fun j => taskId ord (BitVec.ofNat 32 (j + 1))) else [taskId ord 0],
      args := (List.range m.argCount).foldl (fun a j => fset 0 a (m.argFirst + j) (entryArg bs j)) [] }

/-- The source number of the releases of a queue: releases of one queue arrive in order (R57). -/
def launchSrc (n : Nat) : Nat := 2 ^ 20 + n

/-- LAUNCH_ENTRY. A launch into a paired context joins the anchor of epoch 0 (R360). -/
def execLaunchEntry (s : State) : Host.Outcome State Fault Refusal :=
  s.onEntry (fun k => k == 1) (fun n bs =>
    let q := s.queue n
    match s.launchCause q bs with
    | some c => s.refuse n bs c
    | none =>
      let k := q.bind.toNat
      let x := s.ctx k
      let st := x.launchStart bs
      let s1 := if x.pair.pen then
          s.setCtx k { x with pair := { x.pair with anchor := x.pair.anchor ++ [(st, [])], launches := x.pair.launches + 1 } }
        else s
      (s1.release (launchSrc n) k st []).consume n bs)

/-- The completion word (R59); a failed write is lost (R49). -/
def State.completion (s : State) (addr : Word) (status ctx : Nat) : State := s.hostPut addr.toNat (leBytes 8 (status + 256 * ctx))

/-- The cause that a create or end entry meets: a broken rule of R59, or a queue that is no management queue. -/
def manageCause (q : WQueue) (ok : Bool) : Option Nat := if !ok then some 0x01 else if q.bind.toNat < 64 then some 0x02 else none

/-- CREATE_CONTEXT_ENTRY: a free number begins its creation, and the queue waits for it; another one answers 0x0A (R60). -/
def execCreateContextEntry (s : State) : Host.Outcome State Fault Refusal :=
  s.onEntry (fun k => k == 2) (fun n bs =>
    let a := entryArg bs
    match manageCause (s.queue n) (entryPlain bs && (a 0).toNat % 64 == 0 && (a 1).toNat % 8 == 0 && decide ((a 2).toNat < 64)) with
    | some c => s.refuse n bs c
    | none =>
      let k := (a 2).toNat
      let x := s.ctx k
      if x.state ≠ 0 then (s.consume n bs).completion (a 1) 0x0A k
      else
        let s1 := s.setCtx k { x with state := 1, creating := some { q := n, header := a 0, done := a 1 } }
        (s1.setQueue n { s1.queue n with hold := true }).consume n bs)

/-- END_CONTEXT_ENTRY (R61). -/
def execEndContextEntry (s : State) : Host.Outcome State Fault Refusal :=
  s.onEntry (fun k => k == 3) (fun n bs =>
    let a := entryArg bs
    match manageCause (s.queue n) (entryPlain bs && decide ((a 0).toNat < 64) && (a 1).toNat % 8 == 0 && a 2 == 0) with
    | some c => s.refuse n bs c
    | none =>
      let k := (a 0).toNat
      let x := s.ctx k
      if x.state ≠ 2 then (s.consume n bs).completion (a 1) 0x0B k
      else ((s.setCtx k { x with endDone := some (a 1) }).endCtx k 0x02 0).consume n bs)

/-- NO_OPERATION_ENTRY: an entry of kind 0; one of kind 4 to 15 is refused. -/
def execNoOperationEntry (s : State) : Host.Outcome State Fault Refusal :=
  s.onEntry (fun k => k == 0 || decide (4 ≤ k)) (fun n bs =>
    if entryWord bs 0 < 2 ^ 28 && entryPlain bs then s.consume n bs else s.refuse n bs 0x01)

/-- END_COMPLETION: every core of the ended context is free (R61). -/
def execEndCompletion (ctx : Nat) (s : State) : Host.Outcome State Fault Refusal :=
  let x := s.ctx ctx
  match x.endDone with
  | none => .next s
  | some a => .next (if x.tearing then s else (s.setCtx ctx { x with endDone := none }).completion a 0 ctx)

/-- `FREE` of an ended context; before its teardown is complete it takes effect at the end of it (R62, R357). -/
def State.freeCtx (s : State) (k : Nat) : State :=
  let x := s.ctx k
  if x.state ≠ 3 then s
  else s.setCtx k (if x.tearing then { x with freeReq := true } else { x with state := 0, cause := 0 })

def execContextFree (ctx : Nat) (s : State) : Host.Outcome State Fault Refusal := .next (s.freeCtx ctx)

end Sys2Proof.Machine
end

