-- ==== Sys2Proof/Machine/Creation.lean ====
section
/-!
DEFINITION. The creation of a context (R25–R30, R33, R36, R40, R43, R44, R60, R70–R72, R369): the image, the checks of R29 in their
order, the context's tables, and the step CONTEXT_CREATION_COMPLETE.
-/

namespace Sys2Proof.Machine

/-- A little-endian field of `n` bytes at an offset. -/
def numAt (bs : List Byte) (o n : Nat) : Nat := leNat ((bs.drop o).take n)
/-- Bits [`hi` : `lo`] of a number. -/
def bitsOf (v hi lo : Nat) : Nat := v / 2 ^ lo % 2 ^ (hi - lo + 1)

/-! ## The header (R26) -/

/-- Check 0x02. -/
def headerForm (h : List Byte) : Bool :=
  numAt h 0x00 4 == 0x43394E54 && numAt h 0x04 2 == 1 && numAt h 0x06 2 == 0 && numAt h 0x84 28 == 0 &&
    decide (32 ≤ numAt h 0x10 4) && decide (numAt h 0x10 4 ≤ 2 ^ 31) && decide (1 ≤ numAt h 0x14 2) && decide (numAt h 0x14 2 ≤ 4096) &&
    decide (1 ≤ numAt h 0x16 2) && decide (numAt h 0x16 2 ≤ 1024) && decide (numAt h 0x80 1 ≤ 192) && decide (numAt h 0x81 1 ≤ 192) &&
    decide (numAt h 0x82 1 ≤ 192) && decide (numAt h 0x83 1 ≤ 192)

/-- Check 0x09. -/
def headerAddrs (h : List Byte) : Bool :=
  decide (numAt h 0x60 8 ≤ numAt h 0x68 8) && numAt h 0x08 8 % 32 == 0 && numAt h 0x34 4 % 4 == 0 && decide (numAt h 0x34 4 < numAt h 0x10 4) &&
    numAt h 0x58 8 % 16384 == 0 && decide (numAt h 0x58 8 < 2 ^ 40) && numAt h 0x78 8 % 8 == 0 && decide (numAt h 0x78 8 < 2 ^ 40)

/-- The tables that a header names, as read from host memory. -/
structure Image where
  templates : List Byte
  groups : List Byte
  guards : List Byte
  vd : List Byte
  windows : List Byte
  ovf : List Byte
  keys : List Byte
  deriving DecidableEq, Repr

def State.readImage (s : State) (h : List Byte) : Option Image :=
  match s.hostRead (numAt h 0x18 8) (32 * numAt h 0x14 2), s.hostRead (numAt h 0x20 8) 4096, s.hostRead (numAt h 0x28 8) 960,
      s.hostRead (numAt h 0x38 8) 64, s.hostRead (numAt h 0x40 8) 1024, s.hostRead (numAt h 0x48 8) 8, s.hostRead (numAt h 0x50 8) 256 with
  | some templates, some groups, some guards, some vd, some windows, some ovf, some keys =>
    some { templates, groups, guards, vd, windows, ovf, keys }
  | _, _, _, _, _, _, _ => none

/-- The entry `k` of a table of `n`-byte entries. -/
def tableEntry (bs : List Byte) (n k : Nat) : List Byte := (bs.drop (n * k)).take n

/-! ## Cores (R70–R72) -/

def parseVd (bs : List Byte) (k : Nat) : VDie :=
  let v := numAt (tableEntry bs 8 k) 0 8
  { valid := bitsOf v 31 31 == 1, pdie := bitsOf v 2 0, clmask := bitsOf v 63 32 }

/-- The number of logical clusters of a die, and the physical cluster of one. -/
def Die.logical (d : Die) : Nat := ((List.range 34).filter (fun k => d.cluse.getLsbD k)).length
def Die.physical (d : Die) (c : Nat) : Nat := (d.lcmap.extractLsb' (6 * c) 6).toNat

/-- The enabled cores of logical cluster `c` of die `p`, each with its position. -/
def State.enabledCores (s : State) (p c : Nat) : List (Nat × Nat) :=
  let d := s.die p
  let pc := d.physical c
  if d.logical ≤ c ∨ !d.cluse.getLsbD pc then []
  else ((List.range 4).filter (fun k => !d.corelost.getLsbD (4 * pc + k))).map (fun k => (136 * p + 4 * pc + k, k))

/-- The free enabled cores that an entry names, with virtual die, logical cluster and position. -/
def State.coresOfVd (s : State) (vds : List VDie) (n : Nat) : List (Nat × Nat × Nat × Nat) :=
  let e := vds.getD n VDie.none
  if !e.valid ∨ (vds.take n).any (fun x => x.valid && x.pdie == e.pdie) then []
  else ((List.range 32).filter (fun c => e.clmask.testBit c)).flatMap (fun c =>
    ((s.enabledCores e.pdie c).filter (fun k => (s.core k.1).ctx.isNone)).map (fun k => (k.1, n, c, k.2)))

/-- The list of R71. -/
def State.namedCores (s : State) (vds : List VDie) : List (Nat × Nat × Nat × Nat) :=
  (List.range 8).flatMap (s.coresOfVd vds)

/-- `COREID` (R72). -/
def coreidOf (lcore : Nat) (e : Nat × Nat × Nat × Nat) : Word :=
  BitVec.ofNat 64 (lcore + 2 ^ 10 * e.2.1 + 2 ^ 13 * e.2.2.1 + 2 ^ 18 * e.2.2.2)

/-! ## Checks 0x04 to 0x08 (R30, R33, R40, R43) -/

def laneOf (bandmap p : Nat) : Nat := bitsOf bandmap (2 * p + 1) (2 * p)
def bandmapOk (bandmap : Nat) : Bool := (List.range 15).all (fun p => decide (laneOf bandmap p ≤ laneOf bandmap (p + 1)))

def parseGroup (bs : List Byte) (k : Nat) : Group :=
  let e := tableEntry bs 16 k
  let w0 := numAt e 0 4
  let w1 := numAt e 4 4
  let grid := bitsOf w0 31 28 == 2
  { kind := bitsOf w0 31 28, rows := if grid then bitsOf w0 12 8 + 1 else 0, cols := if grid then bitsOf w0 2 0 + 1 else 0,
    vdFirst := bitsOf w1 3 0, vdLast := bitsOf w1 7 4, clFirst := bitsOf w1 12 8, clLast := bitsOf w1 20 16, cmask := bitsOf w1 27 24 }

/-- The rules of an entry of the group map; `x` holds the cores and the virtual dies. -/
def Ctx.groupOk (x : Ctx) (bs : List Byte) (k : Nat) : Bool :=
  let e := tableEntry bs 16 k
  let w0 := numAt e 0 4
  let w1 := numAt e 4 4
  let g := parseGroup bs k
  let vd := fun (n : Nat) => n < 8 && (fget VDie.none x.vdies n).valid
  decide (g.kind ≤ 3) && bitsOf w0 27 13 == 0 && bitsOf w0 7 3 == 0 && (g.kind == 2 || (bitsOf w0 12 8 == 0 && bitsOf w0 2 0 == 0)) &&
    numAt e 8 8 == 0 && !(k == 255 && g.kind == 1) &&
    (if g.kind ≤ 1 then w1 == 0
     else vd g.vdFirst && vd g.vdLast && decide (g.vdFirst ≤ g.vdLast) && decide (g.clFirst ≤ g.clLast) && g.cmask != 0 &&
       bitsOf w1 15 13 == 0 && bitsOf w1 23 21 == 0 && bitsOf w1 31 28 == 0 &&
       (g.kind == 3 || decide (g.rows * g.cols ≤ (x.setCores g).length)))

def parseTemplate (bs : List Byte) (k : Nat) : Template :=
  let e := tableEntry bs 32 k
  let w1 := numAt e 4 4
  let w4 := numAt e 16 4
  { entry := numAt e 0 4, prio := bitsOf w1 31 28, role := bitsOf w1 27 26, place := bitsOf w1 25 24, argFirst := bitsOf w1 23 19,
    argCount := bitsOf w1 18 14, regs := 8 * (bitsOf w1 13 12 + 1), placeVal := numAt e 8 4,
    groups := ((List.range 4).map (fun j => numAt e (12 + j) 1)).filter (fun g => g != 255),
    need := fsetAll 0 [] 0 [bitsOf w4 7 0, bitsOf w4 15 8, bitsOf w4 23 16] }

/-- A list without repeats. -/
def noRepeat (l : List Nat) : Bool := (distinct l).length == l.length

/-- The rules of the template map; a need above 192 is refused here in every bank (log 87). -/
def Ctx.templateOk (x : Ctx) (ncores : Nat) (bs : List Byte) (k : Nat) : Bool :=
  let e := tableEntry bs 32 k
  let m := parseTemplate bs k
  m.entry % 4 == 0 && decide (m.entry < x.codelen) && decide (m.role ≤ 2) && decide (m.place ≤ 2) && bitsOf (numAt e 4 4) 11 0 == 0 &&
    (if m.argCount = 0 then m.argFirst == 0
     else decide (1 ≤ m.argFirst) && decide (m.argFirst + m.argCount ≤ 32) && decide (m.argFirst + m.argCount ≤ m.regs)) &&
    (match m.place with
      | 0 => decide (m.placeVal < 256) && (x.group m.placeVal).kind == 2
      | 1 => decide (m.placeVal < ncores)
      | _ => decide (m.placeVal < 256) && (x.group m.placeVal).kind == 3) &&
    m.groups.all (fun g => (x.group g).kind == 1) && noRepeat m.groups &&
    (List.range 3).all (fun b => decide (fget 0 m.need b ≤ 192)) && bitsOf (numAt e 16 4) 31 24 == 0 && numAt e 20 12 == 0

def parseGuard (bs : List Byte) (k : Nat) : Guard :=
  let e := tableEntry bs 16 k
  let w0 := numAt e 0 4
  { ceil := bitsOf w0 31 28, kind := bitsOf w0 27 26, bank := bitsOf w0 25 24, off := bitsOf (numAt e 4 4) 17 0, len := bitsOf (numAt e 8 4) 17 0 }

/-- The rules of the guard map. -/
def Ctx.guardOk (x : Ctx) (bs : List Byte) (k : Nat) : Bool :=
  let e := tableEntry bs 16 k
  let g := parseGuard bs k
  decide (g.kind ≤ 2) && bitsOf (numAt e 0 4) 23 0 == 0 && bitsOf (numAt e 4 4) 31 18 == 0 && bitsOf (numAt e 8 4) 31 18 == 0 &&
    numAt e 12 4 == 0 &&
    (match g.kind with
      | 0 => g.bank == 0
      | 1 => g.bank == 0 && numAt e 4 8 == 0
      | _ => decide (g.bank ≤ 2) && g.off % 64 == 0 && g.len % 64 == 0 && decide (64 ≤ g.len) &&
        decide (g.off + g.len ≤ 1024 * fget 0 x.stat g.bank))

def Guard.overlaps (g h : Guard) : Bool :=
  g.kind == 2 && h.kind == 2 && g.bank == h.bank && decide (g.off < h.off + h.len) && decide (h.off < g.off + g.len)

def guardsApart (bs : List Byte) : Bool :=
  (List.range 60).all (fun k => (List.range k).all (fun j => !(parseGuard bs k).overlaps (parseGuard bs j)))

/-- Check 0x08. -/
def Ctx.banksOk (x : Ctx) : Bool :=
  (List.range 3).all (fun b => decide (fget 0 x.stat b + (if b = 2 then x.spillkb else 0) +
    x.templates.foldl (fun n m => max n (fget 0 m.need b)) 0 ≤ 192))

/-! ## The context's tables -/

/-- Guards 0–59 of the image, and the lane guards 60–63 (R44). -/
def guardTable (bandmap : Nat) (bs : List Byte) : FMap Guard :=
  let declared := (List.range 60).foldl (fun m k => fset Guard.unused m k (parseGuard bs k)) []
  (List.range 4).foldl (fun m l =>
    match (List.range 16).reverse.find? (fun p => laneOf bandmap p == l) with
    | some top => fset Guard.unused m (60 + l) { ceil := top, kind := 1, bank := 0, off := 0, len := 0 }
    | none => m) declared

/-- The overflow table: reserved bits are ignored, and action 3 is action 0 (R196). -/
def ovfOf (v : Word) : Word :=
  (List.range 5).foldl (fun (w : Word) k => if w.extractLsb' (2 * k) 2 = 3 then w &&& ~~~((3 : Word) <<< (2 * k)) else w) (v &&& 0x3FF)

/-- A window descriptor; the frequency table is read from the heap as it is settled (R175). One with a table that cannot be read or has
an invalid word is not valid (log 70). -/
def State.loadWin (s : State) (x : Ctx) (bs : List Byte) (k : Nat) : GenWin :=
  let w := parseWin (tableEntry bs 64 k)
  match w.table with
  | none => w
  | some t =>
    let pa := (BitVec.ofNat 64 t.1 + x.heapoff).toNat
    if !x.heapRange t.1 t.2 ∨ 2 ^ 40 < pa + t.2 ∨ (List.range (t.2 / 64 + 2)).any (fun i => s.mem.isBad (pa / 64 + i) && decide (64 * (pa / 64 + i) < pa + t.2))
    then { w with valid := false }
    else w.withTable (s.mem.physRead pa t.2)

/-- The context up to its core table, from the header and the cores of R71. -/
def Ctx.base (x : Ctx) (h : List Byte) (vds : List VDie) (cores : List (Nat × Nat × Nat × Nat)) (dispcfg : Word) : Ctx :=
  let num := fun (o n : Nat) => numAt h o n
  { x with
    codebase := BitVec.ofNat 64 (num 0x08 8), codelen := num 0x10 4, bandmap := BitVec.ofNat 32 (num 0x30 4), trapentry := num 0x34 4,
    ptroot := BitVec.ofNat 64 (num 0x58 8), heapbase := BitVec.ofNat 64 (num 0x60 8), heaplimit := BitVec.ofNat 64 (num 0x68 8),
    heapoff := BitVec.ofNat 64 (num 0x70 8), ovflbase := BitVec.ofNat 64 (num 0x78 8),
    stat := fsetAll 0 [] 0 [num 0x80 1, num 0x81 1, num 0x82 1], spillkb := num 0x83 1,
    vdies := (List.range 8).foldl (fun m k => fset VDie.none m k (vds.getD k VDie.none)) [],
    cores := cores.map (fun e => e.1), coreids := cores.mapIdx coreidOf,
    vdmask := (List.range 8).foldl (fun (m : BitVec 8) k => if cores.any (fun e => e.2.1 == k) then m ||| (1 <<< k) else m) 0, dispcfg }

/-- The context with the tables of its image. -/
def State.fullCtx (s : State) (x : Ctx) (h : List Byte) (t : Image) : Ctx :=
  { x with
    templates := (List.range (numAt h 0x14 2)).map (parseTemplate t.templates),
    guards := guardTable (numAt h 0x30 4) t.guards,
    windows := (List.range 16).foldl (fun m k => fset GenWin.absent m k (s.loadWin x t.windows k)) [],
    keys := (List.range 16).foldl (fun m k => fset 0 m k (BitVec.ofNat 128 (numAt t.keys (16 * k) 16))) [],
    ovf := ovfOf (wordOf t.ovf) }

/-- The first failing check of R29, or the context that is created. -/
def State.buildCtx (s : State) (x : Ctx) (header : Word) : Except Nat Ctx :=
  match s.hostRead header.toNat 160 with
  | none => .error 0x01
  | some h =>
    if !headerForm h then .error 0x02
    else if !headerAddrs h then .error 0x09
    else match s.readImage h with
      | none => .error 0x01
      | some t =>
        let vds := (List.range 8).map (parseVd t.vd)
        let ncores := numAt h 0x16 2
        let named := s.namedCores vds
        if named.length < ncores then .error 0x03
        else if !bandmapOk (numAt h 0x30 4) then .error 0x04
        else
          let x1 := x.base h vds (named.take ncores) s.dispcfg
          let x2 := { x1 with groups := (List.range 256).foldl (fun m k => fset Group.none m k (parseGroup t.groups k)) [] }
          if !(List.range (numAt h 0x14 2)).all (x2.templateOk ncores t.templates) then .error 0x05
          else if !(List.range 256).all (x1.groupOk t.groups) then .error 0x06
          else if !(List.range 60).all (x1.guardOk t.guards) || !guardsApart t.guards then .error 0x07
          else
            let x3 := s.fullCtx x2 h t
            if !x3.banksOk then .error 0x08 else .ok x3

/-! ## The step -/

/-- A core as it enters a context (R28, R129, R201): the commit sequence goes on (R212), the debug block stays. -/
def Core.joined (c : Core) (ctx : Nat) (id : Word) (ovfl : Word) : Core := { c.freed with ctx := some ctx, coreid := id, ovfl }

/-- The clusters that the placement of a template can reach. -/
def Ctx.reach (x : Ctx) (m : Template) : List Nat :=
  if m.place = 1 then ((x.coreOf m.placeVal).toList).map clusterOf else x.setClusters (x.group m.placeVal)

/-- The entry stores take the entry block of each template, in template order, until they are full (R369). -/
def State.storeEntries (s : State) (k : Nat) (x : Ctx) : State :=
  x.templates.foldl (fun s m =>
    let blk := (k, (x.codebase.toNat + m.entry) / 32)
    (x.reach m).foldl (fun s c =>
      let q := s.cluster c
      if q.store.length < 4096 ∧ !q.store.contains blk then s.setCluster c { q with store := q.store ++ [blk] } else s) s) s

/-- The context becomes live. -/
def State.goLive (s : State) (k : Nat) (x : Ctx) : State :=
  let p := (s.ctx k).pair
  let y := { x with state := 2, creating := none, admitted := false, freeReq := false, tearing := false,
                    pair := { Pair.reset with pen := p.pen, ppeer := p.ppeer, diglim := p.diglim } }
  let s1 := (x.cores.zip x.coreids).foldl (fun s e => s.setCore e.1 ((s.core e.1).joined k e.2 x.ovflbase)) s
  (s1.setCtx k y).storeEntries k y

/-- CONTEXT_CREATION_COMPLETE: the image is read and checked, `STATE` takes its final value, the completion word is written, and
the queue of the create entry goes on (R60). -/
def execContextCreationComplete (ctx : Nat) (s : State) : Host.Outcome State Fault Refusal :=
  let x := s.ctx ctx
  match x.creating with
  | none => .next s
  | some c =>
    let r := match s.buildCtx x c.header with
      | .ok y => (s.goLive ctx y, 0)
      | .error e => (s.setCtx ctx { x with state := 0, creating := none }, e)
    let s1 := r.1.completion c.done r.2 ctx
    .next (s1.changeQueue c.q { s1.queue c.q with hold := false })

end Sys2Proof.Machine
end

