-- ==== Sys2Proof/Machine/Remote.lean ====
section
/-!
DEFINITION. Remote instructions (R334–R338), continuation records (R296), what arrives from peers (R332, R335–R339), and the steps
CONTINUATION_SEND, CONTINUATION_RESUME, REMOTE_MESSAGE_RECEIVE and HOLD_LIMIT_EXPIRY.
-/

namespace Sys2Proof.Machine

/-! ## Issue -/

/-- The checks of a remote instruction: no remote write in a paired context (R360), a valid peer entry (R334). -/
def peerAct (x : Ctx) (write : Bool) (peer : BitVec 5) (g : PeerRef → Act) : Act :=
  if write && x.pair.pen then .trap 0x31 0
  else match x.peer peer with
    | none => .trap 0x30 0
    | some p => g p

/-- A message of core `n` for a task of priority `prio`. -/
def State.msgTo (s : State) (n ctx : Nat) (prio : BitVec 4) (id : Word) (p : PeerRef) (body : RBody) : RMsg :=
  { srcPkg := s.fabric.pkgnum, srcCtx := BitVec.ofNat 6 ctx, srcCore := n, dstPkg := p.pkg, dstCtx := p.ctx, peer := p.idx, eth := p.eth,
    bind := p.bind, prio, fibre := 0, taskId := id, body, sentAt := 2 * s.uid }

/-- The registers that a live mask names. -/
def liveRegs (live : BitVec 32) : List Nat := (List.range 32).filter (fun k => live.getLsbD k)

/-- The live registers within the range of the top frame of the current core: `RLD` reads them at issue (R133, R134). -/
def State.liveArgs (s : State) (live : BitVec 32) : List Reg :=
  match (s.core s.cur).frames with
  | [] => []
  | f :: _ => ((liveRegs live).filter (fun k => decide (k < f.lim))).map (fun k => .g (BitVec.ofNat 5 k))

/-- The predicates, which a continuation record keeps: `RLD` reads them at issue (R133, R296). -/
def predRegs : List Reg := (List.range 7).map (fun k => .p (BitVec.ofNat 3 (k + 1)))

/-- `RLD` (R296, R335): the task halts into a continuation record. -/
def execRld (h : Hdr) (sz : Size) (sx : Bool) (d a : GReg) (peer : BitVec 5) (live : BitVec 32) (s : State) :
    Host.Outcome State Fault Refusal :=
  .next (issue (.rld h sz sx d a peer live) ([.g d, .g a] ++ s.liveArgs live ++ predRegs) [] false s (fun n c f =>
    let x := s.ctx f.task.ctx
    waitAct (decide (16 ≤ c.fwd.length)) (peerAct x false peer (fun p =>
      if (liveRegs live).any (fun k => decide (f.lim ≤ k)) then .trap 0x30 0
      else if f.claims ≠ [] ∨ f.long ∨ f.priv then .trap 0x2D 0
      else if c.casOpen.isSome then .wait
      else
        let s1 := s.closeTop n .system
        let c1 := s1.core n
        match c1.frame? f.uid with
        | none => .wait
        | some f1 =>
          let cont : Cont :=
            { pc := f.pc + BitVec.ofNat 64 (Instr.rld h sz sx d a peer live).size,
              live := (liveRegs live).foldl (fun m k => fset 0 m k (f.getG (BitVec.ofNat 5 k))) [],
              p := f.p, schk := f.schk, spawnK := f1.spawnK, horizon := f1.horizon, geom := f.geom, bundles := f1.bundles, samp := f1.samp }
          let e : Fwd :=
            { id := s1.uid, task := { f.task with set := c1.includedSet (s1.writer n) f.view }, cont,
              remote := { dst := d, size := sz, sx, addr := f.getG a, peer }, peer := p, bundles := f1.bundles, sent := false, reply := none }
          .leave (((s1.setCore n { c1 with fwd := c1.fwd ++ [e] }).fresh.popTop n none).offers (clusterOf n))))))

/-- A line for a peer home: the aligned line with the bytes at their offset, or, where the access is misaligned, the address itself,
which the peer refuses (R334). -/
def peerLine (p : PeerRef) (a : Word) (bs : List Byte) (fold : Option FoldPart) : BLine :=
  let ok := decide (a.toNat % bs.length = 0)
  { dest := .peer p, addr := if ok then a &&& ~~~63 else a, bytes := lineBytes (if ok then a.toNat % 64 else 0) bs, std := none, fold,
    page := none, prog := .flight, image := [] }

/-- `RST`, with the held release of `RST.rel` (R336). -/
def rstOp (i : Instr) (sz : Size) (a b : GReg) (peer : BitVec 5) (rel : Option (BitVec 12)) (s : State) :
    Host.Outcome State Fault Refusal :=
  .next (issue i [.g a, .g b] [] false s (fun n c f =>
    peerAct (s.ctx f.task.ctx) true peer (fun p =>
      match s.putLine f.bundle (peerLine p (f.getG a) (bytesOf (Size.bytes sz) (f.getG b)) none) with
      | none => .trap 0x1A 0
      | some bd =>
        let f1 := { f with bundle := bd }
        let f2 := match rel with
          | some t => { f1.hold (.remote p t (f.getG b) (taskId (ordOf f.task.id) (childPath (pathOf f.task.id) f.spawnK))) with
                          spawnK := f.spawnK + 1 }
          | none => f1
        .go (s.setCore n (c.setTop f2)) Ret.plain)))

def execRst (h : Hdr) (sz : Size) (a b : GReg) (peer : BitVec 5) (s : State) : Host.Outcome State Fault Refusal :=
  rstOp (.rst h sz a b peer) sz a b peer none s
def execRstRel (h : Hdr) (sz : Size) (a b : GReg) (peer : BitVec 5) (t : BitVec 12) (s : State) : Host.Outcome State Fault Refusal :=
  rstOp (.rstRel h sz a b peer t) sz a b peer (some t) s

def execRfold (h : Hdr) (p : Ptr) (a b : GReg) (lm1 : BitVec 4) (peer : BitVec 5) (s : State) : Host.Outcome State Fault Refusal :=
  .next (issue (.rfold h p a b lm1 peer) [.a (Ptr.reg p), .g a, .g b] [] false s (fun n c f =>
    let x := s.ctx f.task.ctx
    let q := f.ptr p
    let lines := lm1.toNat + 1
    let ga := f.getG a
    peerAct x true peer (fun r =>
      (f.rangeCheck x q (64 * lines) 64).act (fun _ => padAct c [(q, 64 * lines)] []
        (s.bundlePut n f ((List.range lines).map (fun l =>
            { peerLine r ga (c.padRead (q + 64 * l) 64) (some { obj := ga, key := 0, k := f.getG b, l, lines }) with
              addr := ga, bytes := lineBytes 0 (c.padRead (q + 64 * l) 64) }))
          { Ret.plain with writes := f.ptrStep p (64 * lines) })))))

/-- `RCAS` and `RXCHG` (R338): a bundle of one line with the next commit sequence number, and the request. The request gets its tag
where it leaves the package. -/
def remoteAtomic (i : Instr) (regs : List GReg) (wide : Bool) (d a : GReg) (peer : BitVec 5) (cmp : Frame → Option Word)
    (new : Frame → Word) (s : State) : Host.Outcome State Fault Refusal :=
  .next (issue i (.g d :: .g a :: regs.map .g) [] false s (fun n c f =>
    peerAct (s.ctx f.task.ctx) true peer (fun p =>
      let ga := f.getG a
      let q := nextSeq c.cseq
      let cas := (cmp f).isSome
      let body : RBody := .atomReq 0 false s.uid q ga (if wide then .d else .w) (cmp f) (new f)
      let s1 := (s.ask n f d (.remote p ga q cas)).atomBundle n f cas (peerLine p ga (bytesOf (wideBytes wide) (new f)) none)
      c.seqAct (.go (s1.send (s.msgTo n f.task.ctx (BitVec.ofNat 4 f.prio) f.task.id p body)) Ret.plain))))

def execRcas (h : Hdr) (wide : Bool) (d a b c : GReg) (peer : BitVec 5) (s : State) : Host.Outcome State Fault Refusal :=
  remoteAtomic (.rcas h wide d a b c peer) [b, c] wide d a peer (fun f => some (f.getG b)) (fun f => f.getG c) s
def execRxchg (h : Hdr) (wide : Bool) (d a b : GReg) (peer : BitVec 5) (s : State) : Host.Outcome State Fault Refusal :=
  remoteAtomic (.rxchg h wide d a b peer) [b] wide d a peer (fun _ => none) (fun f => f.getG b) s

/-! ## Continuation records (R296, R335) -/

/-- CONTINUATION_SEND: the record, and with it the request, is sent once every line of every bundle of the task has been
acknowledged and its set fits. -/
def execContinuationSend (core k : Nat) (s : State) : Host.Outcome State Fault Refusal :=
  let c := s.core core
  match c.fwd[k]? with
  | none => .next s
  | some e =>
    if e.sent || s.cores.any (fun k => k.2.closed.any (fun b => e.bundles.contains b.uid && !b.acked)) then .next s
    else match c.reduceSet (s.writer core) e.task.set with
      | none => .next s
      | some set =>
        let c1 := { c with fwd := c.fwd.set k { e with sent := true, task := { e.task with set } } }
        .next ((s.setCore core c1).send
          (s.msgTo core e.task.ctx (BitVec.ofNat 4 (s.prioOf e.task)) e.task.id e.peer (.loadReq e.id e.remote.addr e.remote.size set)))

/-- CONTINUATION_RESUME: the reply has reached the record; its task becomes a release of a resumed task, unless its context has ended
(R357). -/
def execContinuationResume (core k : Nat) (s : State) : Host.Outcome State Fault Refusal :=
  let c := s.core core
  match c.fwd[k]? with
  | none => .next s
  | some e =>
    match e.reply with
    | none => .next s
    | some v =>
      let x := s.ctx e.task.ctx
      let live := if e.remote.dst = 0 then e.cont.live else fset 0 e.cont.live e.remote.dst.toNat v
      let place2 := match x.templates[e.task.tmpl]? with
        | some m => m.place == 2
        | none => false
      let cl := match x.templates[e.task.tmpl]? with
        | some m => x.setClusters (x.group m.placeVal)
        | none => []
      let t : Task := { e.task with cont := some { e.cont with live }, core := if place2 then none else some core, geom := e.cont.geom }
      let k1 := if place2 then (cl[(pathOf e.task.id).toNat % cl.length]?).getD (clusterOf core) else clusterOf core
      let s1 := s.setCore core { c with fwd := c.fwd.eraseIdx k }
      .next (if x.state = 2 then
          { s1 with releases := s1.releases ++ [{ task := t, cluster := k1, src := core, aged := false, skips := 0, sentAt := 2 * s.uid }] }
        else s1)

/-! ## At the peer (R332, R335–R339) -/

/-- The answer of context `m.dstCtx` to a message; it takes the way that the context's own entry for the requester gives (R341), or, where
it has none, the one on which the request came (log 54). -/
def State.answer (s : State) (m : RMsg) (body : RBody) : RMsg :=
  { m with srcPkg := m.dstPkg, srcCtx := m.dstCtx, dstPkg := m.srcPkg, dstCtx := m.srcCtx, fibre := 0, body,
           eth := (((s.ctx m.dstCtx.toNat).entryOf m.srcPkg m.srcCtx).map (fun p => p.eth)).getD m.eth }
def State.reject (s : State) (m : RMsg) (kind : Nat) : State :=
  s.send (s.answer m (.refuse kind (RBody.isLine m.body) (RBody.addr m.body) m.taskId (RBody.request? m.body)))

/-- The answer of a home that is uncorrectable (R339). -/
def State.answerDead (s : State) (m : RMsg) : State := s.send (s.answer m (.uncorrectable m.taskId (RBody.request? m.body)))

/-- Runs `g` on the line of a remote access; an error goes back to the issuer. -/
def State.atPeer (s : State) (m : RMsg) (wr : Bool) (a : Word) (n : Nat) (g : Nat → Nat → Option Nat → State) : State :=
  match s.peerAt m.dstCtx.toNat wr a n with
  | .line key off leaf => g key off leaf
  | .window _ => s
  | .bad kind => s.reject m kind
  | .dead => s.answerDead m

/-- Runs `g` unless a line is uncorrectable, which ends the issuing context (R339). -/
def State.sound (s : State) (m : RMsg) (key : Nat) (g : State) : State := if s.mem.isBad key then s.answerDead m else g

/-- The dirty state of a page that a peer has stored to (R169). -/
def State.leafDirty (s : State) (leaf : Option Nat) : State :=
  match leaf with
  | some a => s.setMem (s.mem.setDirty a)
  | none => s

/-- The bytes of a message as a bundle line holds them. -/
def msgBytes (bs : List (Nat × Byte)) : FMap (Option Byte) := bs.foldl (fun m e => fset none m e.1 (some e.2)) []

/-- A line of a bundle arrives. -/
def State.peerWrites (s : State) (m : RMsg) (seq : CSeq) (idx : Nat) (a : Word) (key : Nat) (leaf : Option Nat) (bs : List (Nat × Byte)) :
    State :=
  s.sound m key (((s.arriveLine m.dstCtx.toNat key (RMsg.writer m) seq (msgBytes bs) none .pending).leafDirty leaf).send
    (s.answer m (.lineAck seq idx a)))

/-- The leaf of the page of a staging line, as the page tables of the object's context hold it now. -/
def State.stageLeaf (s : State) (o : FoldObj) (page : Option Nat) : Option Nat :=
  match page with
  | none => none
  | some p => match s.mem.walk (s.ctx o.ctx).ptroot.toNat p with
    | .hit (_, leaf) => some leaf
    | .miss | .bad => none

/-- A contribution arrives at the fold home (R223, R337): only its staging line is touched. -/
def State.peerFold (s : State) (m : RMsg) (seq : CSeq) (idx : Nat) (p : FoldPart) (bs : List (Nat × Byte)) : State :=
  let lost := fun (t : State) => t.send (s.answer m (.lineAck seq idx p.obj))
  match s.mem.foldAt p.key p.obj with
  | none => lost s
  | some o =>
    match o.slot p with
    | none => lost (s.setMem (s.mem.setFold p.key (fun o => { o with broken := true })))
    | some st =>
      let j := o.place p
      let t := s.peerWrites m seq idx (o.stageAddr + BitVec.ofNat 64 (64 * j)) st (s.stageLeaf o ((o.stagePages[j]?).join)) bs
      if s.mem.isBad st then t else t.setMem (t.mem.setFold p.key (fun o => o.take p (RMsg.writer m, seq)))

/-- The version that a remote load takes (R335, R360): no bound is excluded, and a paired context shows confirmed versions only. -/
def Memory.remoteVersion (m : Memory) (key : Nat) (set : IncSet) (paired : Bool) : List Byte × Tag :=
  let t := m.lineTags key
  let included := set.any (fun p => p.1 == t.newer.writer && serLe t.newer.cseq p.2)
  if paired then m.confirmedOf key
  else if t.newer.st = .pending ∧ !included then (m.olderData key, t.older)
  else (m.newerData key, t.newer)

/-- A remote load at its home. -/
def State.peerLoad (s : State) (m : RMsg) (req : Nat) (a : Word) (sz : Size) (set : IncSet) : State :=
  let n := Size.bytes sz
  let x := s.ctx m.dstCtx.toNat
  match s.peerAt m.dstCtx.toNat false a n with
  | .window w => s.send (s.answer m (.loadReply req (wordOf (x.windowBytes w a.toNat n)) 0 0 true))
  | .line .. | .bad _ | .dead => s.atPeer m false a n (fun key off _ => s.sound m key
      (let v := s.mem.remoteVersion key set x.pair.pen
      s.send (s.answer m (.loadReply req (wordOf ((v.1.drop off).take n)) v.2.writer v.2.cseq (v.2.st == .quiet)))))

/-- A home keeps the last 64 of each source (R338). -/
def Memory.cachePut (m : Memory) (e : Cached) : Memory :=
  let l := m.cached e.home e.src
  let old := m.cache.filter (fun x => !(x.home == e.home && x.src == e.src))
  { m with cache := old ++ l.drop (l.length - 63) ++ [e] }

/-- A remote atomic at its home (R225, R338): in a paired context it sees the confirmed version (R360). -/
def State.peerAtomic (s : State) (m : RMsg) (tag : BitVec 16) (retry : Bool) (req : Nat) (seq : CSeq) (a : Word) (sz : Size)
    (cmp : Option Word) (new : Word) : State :=
  let n := Size.bytes sz
  s.atPeer m true a n (fun key off leaf =>
    match s.replay m tag retry key with
    | some (some e) => s.send (s.answer m (.atomReply req e.old e.wrote))
    | some none => s.send (s.answer m (.unknown a m.taskId (some req)))
    | none => s.sound m key
        (let seen := if (s.ctx m.dstCtx.toNat).pair.pen then (s.mem.confirmedOf key).1 else s.mem.newerData key
        let old := leNat ((seen.drop off).take n)
        let op : AtomOp := match cmp with
          | some c => .cas c new
          | none => .xchg new
        let s1 := match op.new n old with
          | some v =>
            let t := s.arriveLine m.dstCtx.toNat key (RMsg.writer m) seq (lineBytes off (leBytes n v)) none .settled
            (t.setMem (t.mem.restore key)).leafDirty leaf
          | none => s
        let wrote := (op.new n old).isSome
        let e : Cached := { home := homeOf key, src := RMsg.cacheSrc m, ctx := m.dstCtx.toNat, tag, old := zext n old, wrote }
        (if m.srcPkg = s.fabric.pkgnum then s1 else s1.setMem (s1.mem.cachePut e)).send (s.answer m (.atomReply req (zext n old) wrote))))

/-- Releases that core `n` of this package sent at `t` stand before those that it has sent later (R274, R380). -/
def insertSent (n t : Nat) (new old : List Release) : List Release :=
  let later := fun (r : Release) => r.src == n && decide (t < r.sentAt)
  old.takeWhile (fun r => !later r) ++ new ++ old.dropWhile (fun r => !later r)

/-- A release of `RST.rel` (R336): one of this package goes on among the releases of its core. -/
def State.peerRelease (s : State) (m : RMsg) (t : BitVec 12) (arg id : Word) (set : IncSet) : State :=
  let k := m.dstCtx.toNat
  let x := s.ctx k
  if !x.startable t.toNat then s.reject m 9
  else if m.srcPkg = s.fabric.pkgnum then
    { s with releases := insertSent m.srcCore m.sentAt ((x.startTasks k (x.peerStart t arg id) set).map (fun e =>
        { task := e.1, cluster := e.2, src := m.srcCore, aged := false, skips := 0, sentAt := m.sentAt })) s.releases }
  else s.release (4096 + m.srcPkg.toNat * 2048 + m.srcCore) k (x.peerStart t arg id) set

/-- Marks a line of a peer's bundle, and goes on. -/
def State.peerMark (s : State) (m : RMsg) (seq : CSeq) (a : Word) (st : VState) (g : State → State) : State :=
  match s.peerAt m.dstCtx.toNat true a 64 with
  | .line key _ _ => g (s.setMem (s.mem.mark key (RMsg.writer m) seq st))
  | .window _ | .bad _ | .dead => g s

/-- The core of a line in this package takes note that the line is quiet (R378). -/
def State.quietHere (s : State) (m : RMsg) (seq : CSeq) (idx : Nat) : State :=
  if m.srcPkg = s.fabric.pkgnum then (s.setLine m.srcCore seq idx (fun l => l.moveTo .quieting .quiet)).progress m.srcCore else s

/-- The homes discard a bundle of an ended context, and what of it waits at them (R213, R357). -/
def State.discards (s : State) (m : RMsg) (seq : CSeq) : State :=
  let gone := fun (y : RMsg) => RMsg.writer y == RMsg.writer m && (match y.body with
    | .line q _ _ _ | .fold q _ _ _ _ _ _ => q == seq
    | .atomReq .. | .lineAck .. | .settle .. | .settleAck .. | .quiet .. | .release .. | .loadReq .. | .loadReply .. | .atomReply ..
    | .refuse .. | .unknown .. | .uncorrectable .. | .digest .. | .endNotice | .discard .. => false)
  let s1 := s.setMem (s.mem.discardOf (RMsg.writer m) (fun q => q == seq))
  s1.setFabric { s1.fabric with outbox := s1.fabric.outbox.filter (fun y => !gone y) }

/-- A request reaches a peer context of this package. -/
def State.receiveRequest (s : State) (m : RMsg) : State :=
  let k := m.dstCtx.toNat
  let x := s.ctx k
  match m.body with
  | .discard seq => s.discards m seq
  | body =>
    if x.state ≠ 2 then s.reject m 1
    else if !x.bound m then s.reject m 2
    else match body with
      | .line seq idx a bs => s.atPeer m true a 64 (fun key _ leaf => s.peerWrites m seq idx a key leaf bs)
      | .fold seq idx a n l lines bs => s.atPeer m true a 1 (fun key _ _ =>
          s.peerFold m seq idx { obj := a, key, k := BitVec.ofNat 64 n, l, lines } bs)
      | .settle seq idx a => s.peerMark m seq a .settled (fun t => t.send (s.answer m (.settleAck seq idx)))
      | .quiet seq idx a => s.peerMark m seq a .quiet (fun t => t.quietHere m seq idx)
      | .release t arg id set => s.peerRelease m t arg id set
      | .loadReq req a sz set => s.peerLoad m req a sz set
      | .atomReq tag retry req seq a sz cmp new => s.peerAtomic m tag retry req seq a sz cmp new
      | .digest e d => s.digestArrives k e d
      | .endNotice => s.noticeArrives k
      | .lineAck .. | .settleAck .. | .loadReply .. | .atomReply .. | .refuse .. | .unknown .. | .uncorrectable .. | .discard .. => s

/-! ## Replies at the issuer (R332, R357) -/

/-- The reply of an atomic: its result, and its bundle is settled; where it has written nothing there is no bundle (R338). -/
def State.atomicReplied (s : State) (n req : Nat) (old : Word) (wrote : Bool) : State :=
  let c := s.core n
  match c.reqs.find? (fun q => q.id == req) with
  | none => s
  | some q =>
    match q.kind with
    | .remote _ _ seq cas =>
      let c1 := c.finish q (old.setWidth 256)
      let c2 := if wrote then
          { c1 with cseq := if cas then seq else c1.cseq, closed := c1.closed.map (fun b => if b.seq = seq then
              { b with lines := b.lines.map (fun l => { l with prog := .settleAcked }) } else b) }
        else c1.dropAtom seq
      (s.setCore n c2).progress n
    | _ => s

/-- The peer that the request of a reply named at its issue; `none`: the core waits for no such reply. -/
def Core.repliedBy (c : Core) (body : RBody) : Option PeerRef :=
  let line := fun (seq : CSeq) (idx : Nat) => match c.line? seq idx with
    | some (_, l) => (match l.dest with
      | .peer p => some p
      | .home _ => none)
    | none => none
  match body with
  | .lineAck seq idx _ => line seq idx
  | .settleAck seq idx => line seq idx
  | .loadReply req _ _ _ _ => (c.fwd.find? (fun e => e.id == req)).map (fun e => e.peer)
  | .atomReply req _ _ => (c.reqs.find? (fun q => q.id == req)).bind (fun q => match q.kind with
      | .remote p _ _ _ => some p
      | _ => none)
  | .refuse .. | .unknown .. | .uncorrectable .. | .line .. | .fold .. | .settle .. | .quiet .. | .release .. | .loadReq .. | .atomReq ..
  | .digest .. | .endNotice | .discard .. => none

/-- Whether a message comes from a peer. -/
def PeerRef.sent (p : PeerRef) (m : RMsg) : Bool := p.pkg == m.srcPkg && p.ctx == m.srcCtx

/-- The request that a reply or an error answer answers. -/
def RBody.answers? : RBody → Option Nat
  | .loadReply req _ _ _ _ | .atomReply req _ _ => some req
  | .refuse _ _ _ _ req | .unknown _ _ req | .uncorrectable _ req => req
  | .lineAck .. | .settleAck .. | .line .. | .fold .. | .settle .. | .quiet .. | .release .. | .loadReq .. | .atomReq .. | .digest ..
  | .endNotice | .discard .. => none

/-- An outward request has its reply (R325). -/
def State.answered (s : State) (body : RBody) : State :=
  match RBody.answers? body with
  | some req => { s with fabric := { s.fabric with via := fset none s.fabric.via req none } }
  | none => s

/-- The core of context `k` that an error answer concerns: its issuer, or for an answer to a reply of `k` the first of `k` (log 54). -/
def State.errorCore (s : State) (k n : Nat) : Nat := if (s.core n).ctx = some k then n else (s.ctx k).cores.headD 0

/-- A reply takes its effect. -/
def State.takeReply (s : State) (n : Nat) (body : RBody) : State :=
  let c := s.core n
  match body with
  | .lineAck seq idx a =>
    (match c.line? seq idx with
      | some (b, l) => if l.prog = .flight then (s.setLine n seq idx (fun l => if l.fold.isSome then { l with addr := a } else l)).ackLine n b idx
          else s
      | none => s)
  | .settleAck seq idx => (s.setLine n seq idx (fun l => l.moveTo .settling .settleAcked)).progress n
  | .loadReply req v w q quiet =>
    s.setCore n { c with fwd := c.fwd.map (fun e => if e.id = req then
      { e with reply := some (extend e.remote.sx (Size.bytes e.remote.size) v.toNat),
               task := { e.task with set := if quiet then e.task.set else mergeSets e.task.set [(w, q)] } } else e) }
  | .atomReply req old wrote => s.atomicReplied n req old wrote
  | .refuse .. | .unknown .. | .uncorrectable .. | .line .. | .fold .. | .settle .. | .quiet .. | .release .. | .loadReq .. | .atomReq ..
  | .digest .. | .endNotice | .discard .. => s

/-- A reply or an error answer reaches its core; a context that is not live takes none (R357). Like every message it is checked against
the receiving context's entry for its sender (R332): one that fails is refused, a remote error for that sender. One that answers nothing
the sender was asked is lost (log 53). -/
def State.receiveReply (s : State) (m : RMsg) : State :=
  let k := m.dstCtx.toNat
  let s1 := s.answered m.body
  if (s1.ctx k).state ≠ 2 then s1
  else if !(s1.ctx k).bound m then s1.reject m 2
  else match m.body with
    | .refuse kind line a id _ => s1.remoteError k (s1.errorCore k m.srcCore) m.peer.toNat kind (if kind = 6 ∧ line then 0x07 else 0x05) a id
    | .unknown a id _ => s1.remoteError k m.srcCore m.peer.toNat 7 0x06 a id
    | .uncorrectable id _ => s1.endCtx k 0x04 (ordOf id)
    | body => match (s1.core m.srcCore).repliedBy body with
      | none => s1
      | some p => if p.sent m then s1.takeReply m.srcCore body else s1

/-- A message for a context of this package takes its effect. -/
def State.receive (s : State) (m : RMsg) : State := if RBody.isReply m.body then s.receiveReply m else s.receiveRequest m

/-- The routing die delivers a message that it holds. -/
def State.deliverMsg (s : State) (m : RMsg) : State := (s.setFabric { s.fabric with outbox := s.fabric.outbox.erase m }).receive m

/-- Whether two messages carry one request, sent again (R338). -/
def RMsg.resent (x y : RMsg) : Bool :=
  (RBody.request? x.body).isSome && RBody.request? x.body == RBody.request? y.body && x.srcPkg == y.srcPkg && x.srcCore == y.srcCore

/-- A message arrives from another package: one that has to wait at its home stands in the routing die until it is its turn, and lets later
ones pass (R213); a request that waits there and comes again is one request (R338). -/
def State.arrive (s : State) (m : RMsg) : State :=
  if s.fabric.outbox.any (RMsg.resent m) then s
  else if s.msgWaits m then s.setFabric { s.fabric with outbox := s.fabric.outbox ++ [m] } else s.receive m

/-- Whether a message can come over its fibre: the link runs or drains, the fibre leads to the sender's package, and that package is
in the connected group (R325). -/
def Fabric.brings (x : Fabric) (m : RMsg) : Bool :=
  let q := x.fibre m.fibre.toNat
  decide (m.fibre.toNat < 136) && (x.lwstate == 2 || x.lwstate == 3) && (q.fstate == 2 || q.fstate == 3) && q.fpeer == m.srcPkg &&
    x.groupmask.getLsbD m.srcPkg.toNat

/-- A message has come over fibre `f`: its authentication failures are no longer in a row (R328). -/
def State.heard (s : State) (f : Nat) : State :=
  { s with fabric := s.fabric.setFibre f { s.fabric.fibre f with fails := 0 } }

/-- REMOTE_MESSAGE_RECEIVE: a message that the routing die holds for a context of this package, when it is its turn, or one that
arrives over a fibre from another package. With that one, permits may come back. -/
def execRemoteMessageReceive (m : RMsg) (s : State) : Host.Outcome State Fault Refusal :=
  if m.dstPkg ≠ s.fabric.pkgnum then .next s
  else if s.fabric.outbox.contains m then .next (if s.msgReady m then s.deliverMsg m else s)
  else if m.srcPkg = s.fabric.pkgnum ∨ m.eth ∨ !s.fabric.brings m then .next s
  else .next ((s.heard m.fibre.toNat).arrive m).pump

/-! ## Digests and end notices (R332, R361, R362) -/

/-- The message for context `k` that stands in the routing die. -/
def State.heldFor (s : State) (k : Nat) (body : RBody) : Option RMsg :=
  s.fabric.outbox.find? (fun m => m.dstPkg == s.fabric.pkgnum && m.dstCtx.toNat == k && m.body == body)

/-- A digest or an end notice for context `k` comes from its partner: from one of this package as a message that is checked like every other
(R332), after the earlier ones; that of another package is an event of the links (log 60). -/
def State.fromPartner (s : State) (k : Nat) (body : RBody) (g : State → State) : State :=
  match s.heldFor k body with
  | some m => if s.msgReady m then s.deliverMsg m else s
  | none => if s.nearPartner k then s else g s

/-- DIGEST_ARRIVAL. -/
def execDigestArrival (ctx : Nat) (epoch : BitVec 32) (d : BitVec 256) (s : State) : Host.Outcome State Fault Refusal :=
  .next (s.fromPartner ctx (.digest epoch d) (fun s => s.digestArrives ctx epoch d))

/-- END_NOTICE_ARRIVAL: not before an earlier digest (R323, R362). -/
def execEndNoticeArrival (ctx : Nat) (s : State) : Host.Outcome State Fault Refusal :=
  .next (s.fromPartner ctx .endNotice (fun s => s.noticeArrives ctx))

/-! ## The hold limit (R330, R341) -/

/-- Whether request `r` waits across a held link: over the fibre that it has left over, or before the one that it goes to; in the buffer
of a held port, or before or behind ports that are all held. -/
def Fabric.held (x : Fabric) (p : PeerRef) (r : Nat) : Bool :=
  let mine := fun (m : RMsg) => RBody.request? m.body == some r
  let heldFibre := fun (f : Option Nat) => match f with
    | some f => (x.fibre f).fstate == 3
    | none => false
  if p.pkg = x.pkgnum then false
  else if p.eth then
    match (List.range 4).find? (fun k => (x.port k).buf.any mine) with
    | some k => (x.port k).estate == 3
    | none => !(x.portsTo p.pkg).isEmpty && (x.portsTo p.pkg).all (fun k => (x.port k).estate == 3)
  else match fget none x.via r, x.queue.find? (fun e => mine e.msg) with
    | some f, _ => heldFibre (some f)
    | none, some e => heldFibre (x.route e)
    | none, none => false

/-- HOLD_LIMIT_EXPIRY: a request, or the record of an `RLD`, has waited `HOLDLIM` across a held fibre or port. -/
def execHoldLimitExpiry (core req : Nat) (s : State) : Host.Outcome State Fault Refusal :=
  let c := s.core core
  match c.reqs.find? (fun q => q.id == req), c.fwd.find? (fun e => e.id == req) with
  | some q, _ =>
    (match q.kind with
      | .remote p a _ _ => .next (if s.fabric.held p req then s.remoteError q.ctx core p.idx.toNat 8 0x09 a q.taskId else s)
      | _ => .next s)
  | none, some e =>
    .next (if e.sent && e.reply.isNone && s.fabric.held e.peer req then
      s.remoteError e.task.ctx core e.peer.idx.toNat 8 0x09 e.remote.addr e.task.id else s)
  | none, none => .next s

end Sys2Proof.Machine
end

