-- ==== Sys2Proof/Machine/Links.lean ====
section
/-!
DEFINITION. Circuits between dies (R322, R323), the connected group (R324–R326), fibres and their keys (R327–R330): CWAVE_WRITE,
CIRCUIT_REASSIGN_COMPLETE, LW_DRAIN, LW_RELOCK, LW_GO_DARK, DRAIN_COMPLETE, LOCK_COMPLETE, STAGE_TRANSMIT_KEY, STAGE_RECEIVE_KEY,
FIBRE_HELD, FIBRE_FAILED, FLIT_AUTH_FAILURE, KEY_CHANGE_FLIT_ARRIVAL.
-/

namespace Sys2Proof.Machine

def State.setFibre (s : State) (f : Nat) (q : Fibre) : State := s.setFabric (s.fabric.setFibre f q)

/-! ## Circuits (R322, R323) -/

/-- The circuits of a die, in all. -/
def Fabric.dieWaves (x : Fabric) (d : Nat) : Nat :=
  ((List.range 8).map (fun k => if k < d then x.waves k d else if d < k then x.waves d k else 0)).foldl (fun a b => a + b) 0

/-- A write to `CWAVE`: refused with `CERR`, or the pair's circuits change until the reassignment completes. -/
def State.writeWaves (s : State) (i j : Nat) (v : Word) : State :=
  let x := s.fabric
  let k := 8 * i + j
  let n := (v.extractLsb' 0 6).toNat
  if 8 ≤ j ∨ j ≤ i then s
  else if fget false x.cbusy k ∨ 32 < n ∨ 64 + x.waves i j < x.dieWaves i + n ∨ 64 + x.waves i j < x.dieWaves j + n then
    s.setFabric { x with cerr := fset false x.cerr k true }
  else s.setFabric { x with
    cerr := fset false x.cerr k false, cbusy := fset false x.cbusy k true, cwave := fset none x.cwave k (some (v.extractLsb' 0 6)) }

def execCwaveWrite (i j : Nat) (v : Word) (s : State) : Host.Outcome State Fault Refusal := .next (s.writeWaves i j v)

/-- CIRCUIT_REASSIGN_COMPLETE. -/
def execCircuitReassignComplete (i j : Nat) (s : State) : Host.Outcome State Fault Refusal :=
  .next (s.setFabric { s.fabric with cbusy := fset false s.fabric.cbusy (8 * i + j) false })

/-! ## The connected group (R324–R326) -/

/-- Drain: outward traffic stops entering the links. -/
def State.lwDrain (s : State) : State := if s.fabric.lwstate = 2 then s.setFabric { s.fabric with lwstate := 3 } else s
def execLwDrain (s : State) : Host.Outcome State Fault Refusal := .next s.lwDrain

/-- Fibres that are neither failed nor spare. -/
def Fabric.active (x : Fabric) : Nat := ((List.range 136).filter (fun f => (x.fibre f).fstate != 4 && (x.fibre f).fstate != 5)).length

/-- The spare fibres that a relock puts in the place of failed ones (R328). -/
def Fabric.sparesDue (x : Fabric) : List Nat :=
  ((List.range 136).filter (fun f => (x.fibre f).fstate == 5)).take (128 - x.active)

/-- A fibre whose lasers train or go off: its permits are free again. -/
def Fibre.restart (q : Fibre) (st : BitVec 3) : Fibre :=
  if q.fstate = 4 ∨ q.fstate = 5 then q else { q with fstate := st, used := [], fails := if st = 1 then 0 else q.fails }

/-- Every fibre in use restarts in a state, and the link enters another; a message that has begun goes again from its first flit. -/
def Fabric.restart (x : Fabric) (st : BitVec 3) (lw : BitVec 3) : Fabric :=
  let y := (List.range 136).foldl (fun (x : Fabric) f => x.setFibre f ((x.fibre f).restart st)) x
  { y with lwstate := lw, queue := y.queue.map (fun e => { e with left := msgFlits e.msg, on := none }) }

/-- Record 0x0E: a part of a kind has taken the place of another (R363). -/
def State.spareEvent (s : State) (kind unit idx : Nat) : State := s.post srcMgmt none 0x0E (payload [(8, 1, kind), (9, 1, unit), (12, 4, idx)])

/-- The lasers relock: spares take the place of failed fibres, and every fibre in use trains. -/
def State.lwRelock (s : State) : State :=
  if s.fabric.lwstate = 0 ∨ s.fabric.lwstate = 4 then
    let l := s.fabric.sparesDue
    let x := l.foldl (fun (x : Fabric) f => x.setFibre f { x.fibre f with fstate := 0 }) s.fabric
    l.foldl (fun s f => s.spareEvent 5 0 f) (s.setFabric (x.restart 1 1))
  else s
def execLwRelock (s : State) : Host.Outcome State Fault Refusal := .next s.lwRelock

/-- The lasers go off. -/
def State.lwGoDark (s : State) : State :=
  if s.fabric.lwstate = 2 ∨ s.fabric.lwstate = 4 then s.setFabric (s.fabric.restart 0 0) else s
def execLwGoDark (s : State) : Host.Outcome State Fault Refusal := .next s.lwGoDark

/-- Whether nothing is on its way over a fibre: no message has begun without having gone whole, and every request that has left has its
reply. -/
def Fabric.repliesIn (x : Fabric) : Bool := x.queue.all (fun e => e.on.isNone) && x.via.all (fun e => e.2.isNone)

/-- DRAIN_COMPLETE: the drain markers have arrived on every up fibre (an event of the links), and every outward request has its
reply. -/
def execDrainComplete (s : State) : Host.Outcome State Fault Refusal :=
  .next (if s.fabric.lwstate = 3 ∧ s.fabric.repliesIn then s.setFabric { s.fabric with lwstate := 4 } else s)

/-! ## Keys (R327, R329) -/

/-- A fibre that is up or held takes up its staged transmit key: the counter restarts, and a held fibre goes on. -/
def Fibre.takeKey (q : Fibre) : Fibre :=
  match q.txkey with
  | some k => if q.fstate = 2 ∨ q.fstate = 3 then { q with txcur := k, txkey := none, txctr := 0, fstate := 2 } else q
  | none => q

/-- LOCK_COMPLETE: the fibres of the list are up with the far ends that they have learned, and every one whose far end is in the
group is among them (an event of the links); waiting messages go out, or end their contexts (R326). -/
def execLockComplete (up : List (Nat × BitVec 5)) (s : State) : Host.Outcome State Fault Refusal :=
  if s.fabric.lwstate ≠ 1 then .next s
  else
    let x := up.foldl (fun (x : Fabric) e =>
      if (x.fibre e.1).fstate = 1 then x.setFibre e.1 ({ x.fibre e.1 with fstate := 2, fpeer := e.2 }).takeKey else x) s.fabric
    let s1 := (s.setFabric { x with lwstate := 2 }).post srcMgmt none 0x0C (payload [(8, 4, x.groupmask.toNat)])
    .next s1.pump

/-- A key is read from host memory; a failed read stages nothing and sets `KERR`. -/
def State.stageKey (s : State) (f : Nat) (addr : Word) (tx : Bool) : State :=
  let q := { s.fabric.fibre f with kaddr := addr }
  match s.hostRead (64 * (addr.toNat / 64)) 32 with
  | none => s.setFibre f { q with kerr := true }
  | some k =>
    if tx then (s.setFibre f ({ q with kerr := false, txkey := some k }).takeKey).pump
    else s.setFibre f { q with kerr := false, rxkey := some k }

def execStageTransmitKey (f : Nat) (addr : Word) (s : State) : Host.Outcome State Fault Refusal :=
  .next (if f < 136 then s.stageKey f addr true else s)
def execStageReceiveKey (f : Nat) (addr : Word) (s : State) : Host.Outcome State Fault Refusal :=
  .next (if f < 136 then s.stageKey f addr false else s)

/-- KEY_CHANGE_FLIT_ARRIVAL: the receiver takes up its staged key. -/
def execKeyChangeFlitArrival (f : Nat) (s : State) : Host.Outcome State Fault Refusal :=
  let q := s.fabric.fibre f
  match q.rxkey with
  | some k => .next (s.setFibre f { q with rxcur := k, rxkey := none, fails := 0 })
  | none => .next s

/-! ## Holding and failing (R328–R330) -/

/-- Whether a flit waits for a counter of fibre `f` that has reached `CTRLIM`. -/
def Fabric.waitsFor (x : Fabric) (f : Nat) : Bool :=
  decide ((x.fibre f).ctrlim.toNat ≤ (x.fibre f).txctr.toNat) && x.queue.any (fun e => x.route e == some f)

/-- FIBRE_HELD: a flit's counter would reach `CTRLIM`, and no key is staged. -/
def execFibreHeld (f : Nat) (s : State) : Host.Outcome State Fault Refusal :=
  let q := s.fabric.fibre f
  if q.fstate = 2 ∧ q.txkey.isNone ∧ s.fabric.waitsFor f then
    let s1 := s.setFibre f { q with fstate := 3 }
    .next (s1.post (srcFibre f) none 0x0A (payload [(8, 2, f), (16, 8, q.txctr.toNat)]))
  else .next s

def ones18 (m : BitVec 18) : Nat := ((List.range 18).filter (fun k => m.getLsbD k)).length

/-- Fibre `f` fails: what has begun on it goes again over another fibre with the same far end, and the replies that were to come over it
come over that one. -/
def Fabric.fail (x : Fabric) (f : Nat) : Fabric :=
  let y := x.setFibre f { x.fibre f with fstate := 4, used := [] }
  let k := y.fibreTo (x.fibre f).fpeer
  { y with
    queue := y.queue.map (fun e => if e.on = some f then { e with left := msgFlits e.msg, on := none } else e)
    via := y.via.map (fun e => if e.2 = some f then (e.1, (k.orElse (fun _ => some f))) else e) }

/-- FIBRE_FAILED: after 16 authentication failures in a row, or with fewer than 8 wavelengths; its traffic moves. -/
def execFibreFailed (f : Nat) (s : State) : Host.Outcome State Fault Refusal :=
  let q := s.fabric.fibre f
  if f < 136 ∧ (1 ≤ q.fstate.toNat ∧ q.fstate.toNat ≤ 3) ∧ (16 ≤ q.fails ∨ ones18 q.wlmask < 8) then
    let s1 := s.setFabric (s.fabric.fail f)
    .next ((s1.post (srcFibre f) none 0x0B (payload [(8, 2, f), (16, 8, q.wlmask.toNat)])).pump)
  else .next s

/-- FLIT_AUTH_FAILURE: the flit is discarded and sent again, so nothing but the count of failures in a row changes. -/
def execFlitAuthFailure (f : Nat) (s : State) : Host.Outcome State Fault Refusal :=
  let q := s.fabric.fibre f
  .next (if q.fstate = 2 ∨ q.fstate = 3 then s.setFibre f { q with fails := q.fails + 1 } else s)

end Sys2Proof.Machine
end

