-- ==== Sys2Proof/Machine/ScaleOut.lean ====
section
/-!
DEFINITION. The scale-out unit (R341, R342): SCALEOUT_STAGE_TRANSMIT_KEY, SCALEOUT_STAGE_RECEIVE_KEY, SCALEOUT_FRAME_RECEIVE,
SCALEOUT_RETRANSMIT, SCALEOUT_UNDELIVERABLE, SCALEOUT_ACKNOWLEDGEMENT, SCALEOUT_PORT_HELD, SCALEOUT_PORT_STATE_CHANGE.
-/

namespace Sys2Proof.Machine

def State.setPort (s : State) (p : Nat) (q : Port) : State := s.setFabric (s.fabric.setPort p q)

/-- The record of a port that has changed `ESTATE`. -/
def State.portEvent (s : State) (p : Nat) : State :=
  let q := s.fabric.port p
  s.post srcMgmt none 0x11 (payload [(8, 1, p), (9, 1, q.estate.toNat), (16, 8, q.epn.toNat)])

/-! ## Frames -/

/-- A kept frame goes once more, through the port whose turn it is, with the next packet number of that port (R341). -/
def Fabric.resend (x : Fabric) (e : EthFrame) : Fabric :=
  let l := (x.portsTo (BitVec.ofNat 5 e.pkg)).filter x.portSends
  let k := fget 0 x.turns e.pkg
  match l[k % l.length]? with
  | none => x
  | some p =>
    { x.setPort p { x.port p with epn := (x.port p).epn + 1 } with turns := fset 0 x.turns e.pkg (k + 1) }

def Fabric.frame? (x : Fabric) (pkg : Nat) (seq : BitVec 32) : Option EthFrame := x.frames.find? (fun e => e.pkg == pkg && e.seq == seq)
def Fabric.dropFrame (x : Fabric) (pkg : Nat) (seq : BitVec 32) : Fabric :=
  { x with frames := x.frames.filter (fun e => !(e.pkg == pkg && e.seq == seq)) }

/-- SCALEOUT_RETRANSMIT: a frame that has been sent and not acknowledged for `ERETRY` is sent again. -/
def execScaleoutRetransmit (pkg : Nat) (seq : BitVec 32) (s : State) : Host.Outcome State Fault Refusal :=
  match s.fabric.frame? pkg seq with
  | some e => .next (s.setFabric (s.fabric.resend e))
  | none => .next s

/-- SCALEOUT_ACKNOWLEDGEMENT. -/
def execScaleoutAcknowledgement (pkg : Nat) (seq : BitVec 32) (s : State) : Host.Outcome State Fault Refusal :=
  .next (s.setFabric (s.fabric.dropFrame pkg seq))

/-- SCALEOUT_UNDELIVERABLE: a frame unacknowledged for `ELIMIT` after its first transmission is a remote error of kind 6 for
every context that has a message in it. -/
def execScaleoutUndeliverable (pkg : Nat) (seq : BitVec 32) (s : State) : Host.Outcome State Fault Refusal :=
  match s.fabric.frame? pkg seq with
  | none => .next s
  | some e => .next (e.msgs.foldl State.unreachable (s.setFabric (s.fabric.dropFrame pkg seq)))

/-- SCALEOUT_FRAME_RECEIVE: the next frame of a package's sequence is delivered, its messages in order; any other is a duplicate, or comes
again. -/
def execScaleoutFrameReceive (pkg : Nat) (seq : BitVec 32) (msgs : List RMsg) (s : State) : Host.Outcome State Fault Refusal :=
  if fget 0 s.fabric.rxseq pkg ≠ seq then .next s
  else
    let s1 := (msgs.filter (fun m => m.eth && m.srcPkg.toNat == pkg && m.dstPkg == s.fabric.pkgnum)).foldl State.arrive s
    .next (s1.setFabric { s1.fabric with rxseq := fset 0 s1.fabric.rxseq pkg (seq + 1) })

/-! ## Ports and keys -/

/-- A port that is up or held takes up its staged transmit key: packet numbers restart, and a held port goes on. -/
def Port.takeKey (q : Port) : Port :=
  match q.txkey with
  | some _ => if q.estate = 2 ∨ q.estate = 3 then { q with txkey := none, epn := 0, estate := 2 } else q
  | none => q

/-- Puts a port into a new state, with its record if `ESTATE` has changed; what waited goes out, or ends its contexts. -/
def State.changePort (s : State) (p : Nat) (q : Port) : State :=
  let s1 := s.setFabric (s.fabric.setPort p q)
  (if q.estate = (s.fabric.port p).estate then s1 else s1.portEvent p).pump

/-- A key for a port is read from host memory; a failed read stages nothing and sets `EKERR`. -/
def State.stagePortKey (s : State) (p : Nat) (addr : Word) (tx : Bool) : State :=
  let q := { s.fabric.port p with ekaddr := addr }
  match s.hostRead (64 * (addr.toNat / 64)) 32 with
  | none => s.setPort p { q with ekerr := true }
  | some k =>
    if tx then s.changePort p ({ q with ekerr := false, txkey := some k }).takeKey
    else s.setPort p { q with ekerr := false, rxkey := some k }

def execScaleoutStageTransmitKey (p : Nat) (addr : Word) (s : State) : Host.Outcome State Fault Refusal :=
  .next (if p < 4 then s.stagePortKey p addr true else s)
def execScaleoutStageReceiveKey (p : Nat) (addr : Word) (s : State) : Host.Outcome State Fault Refusal :=
  .next (if p < 4 then s.stagePortKey p addr false else s)

/-- SCALEOUT_PORT_HELD: the packet number would reach `EPNLIM`, and no transmit key is staged. -/
def execScaleoutPortHeld (p : Nat) (s : State) : Host.Outcome State Fault Refusal :=
  let q := s.fabric.port p
  .next (if q.estate = 2 ∧ q.epnlim.toNat ≤ q.epn.toNat ∧ q.txkey.isNone then s.changePort p { q with estate := 3 } else s)

/-- SCALEOUT_PORT_STATE_CHANGE: the link of a port goes down, trains or comes up. A held port stays held while its link is up. -/
def execScaleoutPortStateChange (p : Nat) (st : BitVec 3) (s : State) : Host.Outcome State Fault Refusal :=
  let q := s.fabric.port p
  .next (if p < 4 ∧ st.toNat ≤ 2 ∧ ¬(st = 2 ∧ q.estate = 3) then s.changePort p ({ q with estate := st }).takeKey else s)

end Sys2Proof.Machine
end

