-- ==== Sys2Proof/Machine/SlhDsa.lean ====
section
/-!
DEFINITION. SLH-DSA-SHA2-256s of FIPS 205 (R388, R389; log 15): SHA-512 and HMAC, addresses, one-time keys, Merkle trees, the
few-time keys of the message digest, and key generation, signing and verification of pure messages with an empty context string.
The parameters are n = 32, 8 layers of trees of height 8, 22 trees of height 14, and digits of 4 bits.
-/

namespace Sys2Proof.Machine

/-! ## Bytes -/

/-- A big-endian number of `n` bytes, and its value. -/
def beBytes (n x : Nat) : List Byte := (List.range n).map (fun i => BitVec.ofNat 8 (x / 2 ^ (8 * (n - 1 - i))))
def beNat (bs : List Byte) : Nat := bs.foldl (fun t b => 256 * t + b.toNat) 0
/-- Bytes cut or filled with zeros to a length. -/
def sized (n : Nat) (bs : List Byte) : List Byte := (bs ++ List.replicate (n - bs.length) 0).take n

/-! ## SHA-512 (FIPS 180-4) -/

/-- The first 64 bits of the fractional part of the `k`th root of `p`. -/
def rootFraction64 (k p : Nat) : BitVec 64 := BitVec.ofNat 64 (rootFloor k (p * 2 ^ (64 * k)) 70 0)

/-- The round constants, from the cube roots of the first 80 primes, and the initial value, from the square roots of the first 8. -/
def sha512Rounds : List (BitVec 64) := (primesBelow 410).map (rootFraction64 3)
def sha512Init : List (BitVec 64) := (primesBelow 20).map (rootFraction64 2)

/-- Extends a reversed message schedule by `n` words. -/
def sha512Extend : Nat → List (BitVec 64) → List (BitVec 64)
  | 0, w => w
  | n + 1, w =>
    let x := w.getD 14 0
    let y := w.getD 1 0
    let next := w.getD 15 0 + w.getD 6 0 + (x.rotateRight 1 ^^^ x.rotateRight 8 ^^^ x >>> 7) + (y.rotateRight 19 ^^^ y.rotateRight 61 ^^^ y >>> 6)
    sha512Extend n (next :: w)

def sha512Round (s : List (BitVec 64)) (kw : BitVec 64) : List (BitVec 64) :=
  match s with
  | [a, b, c, d, e, f, g, h] =>
    let t := h + kw + (e.rotateRight 14 ^^^ e.rotateRight 18 ^^^ e.rotateRight 41) + ((e &&& f) ^^^ (~~~e &&& g))
    let u := (a.rotateRight 28 ^^^ a.rotateRight 34 ^^^ a.rotateRight 39) + ((a &&& b) ^^^ (a &&& c) ^^^ (b &&& c))
    [t + u, a, b, c, d + t, e, f, g]
  | _ => s

def sha512Block (s : List (BitVec 64)) (block : List Byte) : List (BitVec 64) :=
  let w := (List.range 16).map (fun i => BitVec.ofNat 64 (beNat ((block.drop (8 * i)).take 8)))
  let r := (sha512Rounds.zip (sha512Extend 64 w.reverse).reverse).foldl (fun s e => sha512Round s (e.1 + e.2)) s
  (s.zip r).map (fun e => e.1 + e.2)

def sha512Blocks : Nat → List (BitVec 64) → List Byte → List (BitVec 64)
  | 0, s, _ => s
  | n + 1, s, bs => sha512Blocks n (sha512Block s (bs.take 128)) (bs.drop 128)

/-- The digest, in the byte order of FIPS 180-4. -/
def sha512 (msg : List Byte) : List Byte :=
  let all := msg ++ 0x80#8 :: List.replicate ((239 - msg.length % 128) % 128) 0 ++ beBytes 16 (8 * msg.length)
  (sha512Blocks (all.length / 128) sha512Init all).flatMap (fun w => beBytes 8 w.toNat)

/-- HMAC-SHA-512 with a key of at most 128 bytes. -/
def hmac512 (key msg : List Byte) : List Byte :=
  let k := sized 128 key
  sha512 (k.map (fun b => b ^^^ 0x5C) ++ sha512 (k.map (fun b => b ^^^ 0x36) ++ msg))

/-! ## Addresses and hashes -/

/-- An address: the layer and the tree, its kind, and three words that the kind gives a meaning. -/
structure Adrs where
  layer : Nat
  tree : Nat
  kind : Nat
  pair : Nat
  level : Nat
  index : Nat
  deriving DecidableEq, Repr

/-- The 22 bytes of a compressed address. -/
def Adrs.bytes (a : Adrs) : List Byte :=
  beBytes 1 a.layer ++ beBytes 8 a.tree ++ beBytes 1 a.kind ++ beBytes 4 a.pair ++ beBytes 4 a.level ++ beBytes 4 a.index

/-- The hash of one value, which also makes secret values, and the hash of several. -/
def slhF (pk : List Byte) (a : Adrs) (m : List Byte) : List Byte := sha256Bytes (pk ++ List.replicate 32 0 ++ a.bytes ++ m)
def slhT (pk : List Byte) (a : Adrs) (m : List Byte) : List Byte := (sha512 (pk ++ List.replicate 96 0 ++ a.bytes ++ m)).take 32

/-- The seeds of a key: of secret values, of message randomness, and the public one. -/
structure SlhSeeds where
  secret : List Byte
  prf : List Byte
  pub : List Byte
  deriving DecidableEq, Repr

/-- A 96-byte seed as the three seeds of a key. -/
def slhSeeds (seed : List Byte) : SlhSeeds :=
  let s := sized 96 seed
  { secret := s.take 32, prf := (s.drop 32).take 32, pub := s.drop 64 }

/-! ## One-time keys -/

/-- The 67 digits of a 32-byte value: 64 of the value and 3 of their checksum. -/
def wotsDigits (m : List Byte) : List Nat :=
  let d := m.flatMap (fun b => [b.toNat / 16, b.toNat % 16])
  let c := d.foldl (fun t x => t + (15 - x)) 0
  d ++ [c / 256 % 16, c / 16 % 16, c % 16]

/-- `k` steps of a hash chain from step `i` on. -/
def wotsChain (pk : List Byte) (a : Adrs) (x : List Byte) (i : Nat) : Nat → List Byte
  | 0 => x
  | k + 1 => slhF pk { a with index := i + k } (wotsChain pk a x i k)

/-- Chain `i` of key pair `p` of a tree, from its secret value, after `k` steps. -/
def wotsFrom (sd : SlhSeeds) (layer tree p i k : Nat) : List Byte :=
  let a : Adrs := { layer, tree, kind := 0, pair := p, level := i, index := 0 }
  wotsChain sd.pub a (slhF sd.pub { a with kind := 5 } sd.secret) 0 k

/-- A one-time public key from the ends of its chains. -/
def wotsRoot (pk : List Byte) (layer tree p : Nat) (ends : List (List Byte)) : List Byte :=
  slhT pk { layer, tree, kind := 1, pair := p, level := 0, index := 0 } ends.flatten

def wotsSign (sd : SlhSeeds) (layer tree p : Nat) (m : List Byte) : List (List Byte) :=
  (wotsDigits m).mapIdx (fun i d => wotsFrom sd layer tree p i d)

/-- The one-time public key that a signature of `m` belongs to. -/
def wotsVerify (pk : List Byte) (layer tree p : Nat) (sig : List (List Byte)) (m : List Byte) : List Byte :=
  wotsRoot pk layer tree p ((sig.zip (wotsDigits m)).mapIdx (fun i e =>
    wotsChain pk { layer, tree, kind := 0, pair := p, level := i, index := 0 } e.1 e.2 (15 - e.2)))

/-! ## Trees -/

/-- The root that a node and the siblings on its way give; `idx` is the node's index at level `k`. -/
def slhClimb (pk : List Byte) (a : Adrs) (k idx : Nat) (node : List Byte) : List (List Byte) → List Byte
  | [] => node
  | x :: xs =>
    let up := slhT pk { a with level := k + 1, index := idx / 2 } (if idx % 2 = 0 then node ++ x else x ++ node)
    slhClimb pk a (k + 1) (idx / 2) up xs

/-- Node `i` at level `z` of a tree of one-time keys. -/
def xmssNode (sd : SlhSeeds) (layer tree : Nat) : Nat → Nat → List Byte
  | 0, i => wotsRoot sd.pub layer tree i ((List.range 67).map (fun c => wotsFrom sd layer tree i c 15))
  | z + 1, i =>
    slhT sd.pub { layer, tree, kind := 2, pair := 0, level := z + 1, index := i }
      (xmssNode sd layer tree z (2 * i) ++ xmssNode sd layer tree z (2 * i + 1))

/-- The siblings on the way from leaf `i` to a root at level `h`. -/
def pathOfLeaf (node : Nat → Nat → List Byte) (h i : Nat) : List (List Byte) :=
  (List.range h).map (fun j => node j ((i / 2 ^ j) ^^^ 1))

/-- The signatures of `n` layers from `layer` on: leaf `leaf` of tree `tree` signs `m`, and each root is signed above. -/
def hyperSign (sd : SlhSeeds) (layer tree leaf : Nat) (m : List Byte) : Nat → List (List Byte)
  | 0 => []
  | n + 1 =>
    wotsSign sd layer tree leaf m ++ pathOfLeaf (xmssNode sd layer tree) 8 leaf ++
      hyperSign sd (layer + 1) (tree / 256) (tree % 256) (xmssNode sd layer tree 8 0) n

/-- The root that the signatures of `n` layers give. -/
def hyperRoot (pk : List Byte) (layer tree leaf : Nat) (m : List Byte) (sig : List (List Byte)) : Nat → List Byte
  | 0 => m
  | n + 1 =>
    let a : Adrs := { layer, tree, kind := 2, pair := 0, level := 0, index := 0 }
    let root := slhClimb pk a 0 leaf (wotsVerify pk layer tree leaf (sig.take 67) m) ((sig.drop 67).take 8)
    hyperRoot pk (layer + 1) (tree / 256) (tree % 256) root (sig.drop 75) n

/-! ## Few-time keys -/

/-- Where a message digest points: the leaf of each of 22 trees, the tree and the leaf that sign them. -/
structure SlhPlace where
  leaves : List Nat
  tree : Nat
  leaf : Nat
  deriving DecidableEq, Repr

/-- The place of a message under randomness `r`. -/
def slhPlace (pk root r m : List Byte) : SlhPlace :=
  let d := (sha512 (r ++ pk ++ sha512 (r ++ pk ++ root ++ m) ++ beBytes 4 0)).take 47
  let x := beNat (d.take 39)
  { leaves := (List.range 22).map (fun i => x / 2 ^ (312 - 14 * (i + 1)) % 2 ^ 14), tree := beNat ((d.drop 39).take 7),
    leaf := beNat (d.drop 46) }

def SlhPlace.adrs (p : SlhPlace) (kind : Nat) : Adrs := { layer := 0, tree := p.tree, kind, pair := p.leaf, level := 0, index := 0 }

/-- The secret value of leaf `i`, counted over the trees, and node `i` at level `z`. -/
def forsSecret (sd : SlhSeeds) (p : SlhPlace) (i : Nat) : List Byte := slhF sd.pub { p.adrs 6 with index := i } sd.secret
def forsNode (sd : SlhSeeds) (p : SlhPlace) : Nat → Nat → List Byte
  | 0, i => slhF sd.pub { p.adrs 3 with index := i } (forsSecret sd p i)
  | z + 1, i => slhT sd.pub { p.adrs 3 with level := z + 1, index := i } (forsNode sd p z (2 * i) ++ forsNode sd p z (2 * i + 1))

def forsSign (sd : SlhSeeds) (p : SlhPlace) : List (List Byte) :=
  (p.leaves.mapIdx (fun t l =>
    let i := 2 ^ 14 * t + l
    forsSecret sd p i :: pathOfLeaf (forsNode sd p) 14 i)).flatten

/-- The public key that the few-time signatures at a place give. -/
def forsRoot (pk : List Byte) (p : SlhPlace) (sig : List (List Byte)) : List Byte :=
  slhT pk (p.adrs 4) (p.leaves.mapIdx (fun t l =>
    let i := 2 ^ 14 * t + l
    let part := (sig.drop (15 * t)).take 15
    slhClimb pk (p.adrs 3) 0 i (slhF pk { p.adrs 3 with index := i } (part.headD [])) part.tail)).flatten

/-! ## Keys and signatures -/

/-- The public key of a seed: the public seed and the root of the topmost tree, 64 bytes. -/
def slhPublic (seed : List Byte) : List Byte := (slhSeeds seed).pub ++ xmssNode (slhSeeds seed) 7 0 8 0

/-- A message as the pure variant signs it: with the domain byte 0 and an empty context string. -/
def slhPure (m : List Byte) : List Byte := beBytes 1 0 ++ beBytes 1 0 ++ m

/-- The signature of a message under the key of a seed, with the random value `rnd`: 29,792 bytes. -/
def slhSign (seed m rnd : List Byte) : List Byte :=
  let sd := slhSeeds seed
  let r := (hmac512 sd.prf (sized 32 rnd ++ slhPure m)).take 32
  let p := slhPlace sd.pub (xmssNode sd 7 0 8 0) r (slhPure m)
  let f := forsSign sd p
  r ++ f.flatten ++ (hyperSign sd 0 p.tree p.leaf (forsRoot sd.pub p f) 8).flatten

/-- Whether a signature of a message is valid under a public key. -/
def slhVerify (key m sig : List Byte) : Bool :=
  let pk := key.take 32
  let parts := (List.range 931).map (fun i => (sig.drop (32 * i)).take 32)
  let p := slhPlace pk (key.drop 32) (parts.headD []) (slhPure m)
  key.length == 64 && sig.length == 29792 &&
    hyperRoot pk 0 p.tree p.leaf (forsRoot pk p (parts.tail.take 330)) (parts.drop 331) 8 == key.drop 32

end Sys2Proof.Machine
end

