-- ==== Sys2Proof/Machine/Package.lean ====
section
/-!
DEFINITION. The package around its cores: harvest (R69), spares (R363), boot and identity (R388, R389), temperatures, supplies and the
management controller (R384, R386, R390): HARVEST_BLOCK_CHANGE, SPARE_BRING_IN, RESET_BOOT, PRODUCE_REPORT, WRITE_ENDORSEMENT,
ATTESTATION_COMPLETE, JUNCTION_TEMPERATURE, THERMAL_SHUTDOWN, MANAGEMENT_POWER_REQUEST, MANAGEMENT_FIRMWARE_INSTALL,
MANAGEMENT_READ, SUPPLY_OUT_OF_TOLERANCE.
-/

namespace Sys2Proof.Machine

/-! ## Harvest and spares (R69, R363) -/

/-- Whether a context holds a core of a die. -/
def State.dieBusy (s : State) (d : Nat) : Bool := s.cores.any (fun e => e.1 / 136 == d && e.2.ctx.isSome)

/-- The fields of `LCMAP`, and a map from its fields. -/
def Die.lcs (d : Die) : List Nat := (List.range 32).map d.physical
def lcmapOf (l : List Nat) : BitVec 192 := BitVec.ofNat 192 (l.foldr (fun p n => p + 64 * n) 0)

/-- The spare cluster of a die that is brought in next: the lowest-numbered one (log 89). -/
def Die.spare (d : Die) : Option Nat :=
  if d.spfree = 0 then none else (List.range 34).find? (fun k => !d.cluse.getLsbD k && !d.clret.getLsbD k)

/-- A die after cluster `pc` is retired: a spare takes its logical number, or the clusters above it move down (R69). -/
def Die.retire (d : Die) (pc : Nat) : Die :=
  let bit : BitVec 34 := 1 <<< pc
  let d1 := { d with cluse := d.cluse &&& ~~~bit, clret := d.clret ||| bit }
  match d.spare with
  | some k => { d1 with cluse := d1.cluse ||| (1 <<< k), spfree := d.spfree - 1, lcmap := lcmapOf (d.lcs.map (fun p => if p = pc then k else p)) }
  | none => { d1 with lcmap := lcmapOf (d.lcs.filter (fun p => p != pc) ++ [0x3F]) }

/-- The record of a harvest block. -/
def State.harvestEvent (s : State) (d : Nat) : State :=
  let x := s.die d
  s.post srcMgmt none 0x05 (payload [(8, 1, d), (16, 8, x.cluse.toNat), (24, 8, x.clret.toNat + 2 ^ 62 * x.spfree.toNat)])

/-- A cluster in use is retired, with the record of its harvest block and, where a spare takes its place, that of the spare. -/
def State.retireCluster (s : State) (die pc : Nat) : State :=
  let d := s.die die
  let s1 := (s.setDie die (d.retire pc)).harvestEvent die
  if d.spare.isSome then s1.spareEvent 1 die pc else s1

/-- HARVEST_BLOCK_CHANGE: an in-use cluster, or one core of it, is retired once no context holds a core on the die. -/
def execHarvestBlockChange (die pc : Nat) (core : Option Nat) (s : State) : Host.Outcome State Fault Refusal :=
  let d := s.die die
  if 8 ≤ die ∨ s.dieBusy die ∨ !d.cluse.getLsbD pc then .next s
  else match core with
    | none => .next (s.retireCluster die pc)
    | some k => .next (if k < 4 then
        (s.setDie die { d with corelost := d.corelost ||| (1 <<< (4 * pc + k)) }).harvestEvent die else s)

/-- The spare wavelength of a fibre that takes the place of wavelength `w`. -/
def Fibre.spareWave (q : Fibre) (w : Nat) : Option Nat :=
  (List.range 18).find? (fun k => k != w && !q.wlmask.getLsbD k && !q.wlbad.getLsbD k)

/-- A fibre after wavelength `w` has failed to lock (R328). -/
def Fibre.dropWave (q : Fibre) (w : Nat) : Fibre :=
  let bit : BitVec 18 := 1 <<< w
  let m := q.wlmask &&& ~~~bit
  { q with wlbad := q.wlbad ||| bit, wlmask := match q.spareWave w with
    | some k => m ||| (1 <<< k)
    | none => m }

/-- A wavelength fails to lock while the lasers lock (R363, row 4). -/
def State.waveFails (s : State) (f w : Nat) : State :=
  let q := s.fabric.fibre f
  if 136 ≤ f ∨ s.fabric.lwstate ≠ 1 ∨ !q.wlmask.getLsbD w then s
  else
    let s1 := s.setFibre f (q.dropWave w)
    if (q.spareWave w).isSome then s1.spareEvent 4 0 (18 * f + w) else s1

/-- One spare of a pool of `size` is brought in, if one is left (R363). -/
def State.fromPool (s : State) (pool size kind unit idx : Nat) : Option State :=
  let k := fget 0 s.mgmt.spares pool
  if k < size then some ({ s with mgmt := { s.mgmt with spares := fset 0 s.mgmt.spares pool (k + 1) } }.spareEvent kind unit idx) else none

/-- Whether a context holds a core of a cluster. -/
def State.clusterHeld (s : State) (k : Nat) : Bool := s.cores.any (fun e => e.1 / 4 == k && e.2.ctx.isSome)

/-- A circuit of die `i` to die `j` fails: the pair's circuits are rebuilt (R323). -/
def State.circuitFails (s : State) (i j idx : Nat) : State :=
  if 8 ≤ i ∨ 8 ≤ j ∨ i = j then s
  else match s.fromPool (3072 + i) 4 6 i idx with
    | some s1 => s1.setFabric { s1.fabric with cbusy := fset false s1.fabric.cbusy (8 * min i j + max i j) true }
    | none => s

/-- SPARE_BRING_IN: what recurs in a part brings in a spare, where one is left, with record 0x0E. `idx` is a physical cluster; 2^16 ×
cluster + row of a vault; the row of a stack; 18 × fibre + wavelength; a fibre; 2^16 × die + circuit (log 94). The spare of a failed
fibre comes in at the next relock, with LW_RELOCK. -/
def execSpareBringIn (kind unit idx : Nat) (s : State) : Host.Outcome State Fault Refusal :=
  .next (match kind with
    | 1 => if 8 ≤ unit ∨ s.dieBusy unit ∨ !(s.die unit).cluse.getLsbD idx ∨ (s.die unit).spare.isNone then s else s.retireCluster unit idx
    | 2 =>
      let cl := 34 * unit + idx / 65536
      if 8 ≤ unit ∨ 34 ≤ idx / 65536 ∨ s.clusterHeld cl then s else (s.fromPool cl 64 2 unit idx).getD s
    | 3 => if 16 ≤ unit then s else (s.fromPool (2048 + unit) 256 3 unit idx).getD s
    | 4 => s.waveFails (idx / 18) (idx % 18)
    | 6 => s.circuitFails unit (idx / 65536) idx
    | _ => s)

/-! ## Power and boot (R384, R388, R390) -/

/-- The image that runs. -/
def Mgmt.image (m : Mgmt) : List Byte := m.running.getD Config.shippedImage

def celsius16 (t : Int) : Int := 16 * t

/-- Whether the hottest junction is above 95 °C. -/
def hotOf (temps : FMap (BitVec 32)) : Bool := (List.range 33).any (fun k => decide (celsius16 95 < (fget 0 temps k).toInt))

/-- The package without power or in reset: of the old state, fuses, failed fibres, host memory and the controller remain. -/
def State.cleared (s : State) (m : Mgmt) : State :=
  { State.reset with
    agenda := s.agenda, cur := s.cur, uid := s.uid, clock := s.clock, draws := s.draws,
    dies := trimDies (s.dies.map (fun (e : Nat × Die) => (e.1, { e.2 with tlb := [], buf := [], samp := Sampler.reset }))),
    host := s.host, mgmt := m,
    fabric := (List.range 136).foldl (fun (x : Fabric) f =>
      let q := s.fabric.fibre f
      x.setFibre f { x.fibre f with wlmask := q.wlmask, wlbad := q.wlbad, fstate := if q.fstate = 4 ∨ q.fstate = 5 then q.fstate else 0 })
      Fabric.reset }

/-- What the boot ROM checks of an image (R388): the hash of the key that it carries is the fused one, its signature over the SHA-256 of
the image is valid, and its security version is at or above the fused rollback counter. -/
def imageOk (image : List Byte) : Bool :=
  let key := sized 64 (Config.imageKey image)
  sha256Bytes key == Config.firmwareKeyHash && slhVerify key (sha256Bytes image) (sized 29792 (Config.imageSig image)) &&
    decide (Config.rollback.toNat ≤ (Config.imageSvn image).toNat)

/-- A log entry of the controller, which keeps the last 64; the seconds that have passed since the one before are a free value (log 3,
log 17). -/
def State.shutdown (s : State) (cause sensor : Nat) (reading : BitVec 32) : State :=
  let t := s.mgmt.seconds + Config.pick s.draws
  let l := s.mgmt.log ++ [{ cause, sensor, reading, seconds := t }]
  { s with draws := s.draws + 1, mgmt := { s.mgmt with seconds := t, log := l.drop (l.length - 64) } }

/-- The controller switches a rail. -/
def Mgmt.switch (m : Mgmt) (on : Bool) (r : Rail) : Mgmt :=
  if m.rails.contains r == on then m
  else { m with rails := if on then m.rails ++ [r] else m.rails.filter (fun q => q != r), switched := m.switched ++ [(r, on)] }

/-- The rails come up in the order of R384, and go down in the reverse order. -/
def Mgmt.railsUp (m : Mgmt) : Mgmt := railOrder.foldl (fun m r => m.switch true r) { m with switched := [] }
def Mgmt.railsDown (m : Mgmt) : Mgmt := railOrder.reverse.foldl (fun m r => m.switch false r) { m with switched := [] }

/-- The controller removes every rail: nothing more is written, and Jexlink goes down. -/
def State.powerOff (s : State) (cause sensor : Nat) (reading : BitVec 32) : State :=
  let s1 := s.shutdown cause sensor reading
  let s2 := s1.cleared { s1.mgmt.railsDown with inReset := true, hot := hotOf s1.mgmt.temps }
  { s2 with host := { s2.host with down := true } }

/-- RESET_BOOT: the boot ROM checks the image; an installed one takes effect. A rejected one leaves the device in reset. -/
def execResetBoot (s : State) : Host.Outcome State Fault Refusal :=
  if !s.mgmt.powered then .next s
  else
    let s1 := if s.mgmt.installed.isSome ∧ !s.mgmt.inReset then s.shutdown 0x06 0 0 else s
    let run := s1.mgmt.installed.orElse (fun _ => s1.mgmt.running)
    .next (s1.cleared { s1.mgmt with running := run, installed := none, inReset := !imageOk (run.getD Config.shippedImage) })

def execManagementPowerRequest (up : Bool) (s : State) : Host.Outcome State Fault Refusal :=
  .next (if up then { s with mgmt := s.mgmt.railsUp } else if s.mgmt.rails = [] then s else s.powerOff 0x05 0 0)
def execManagementFirmwareInstall (image : List Byte) (s : State) : Host.Outcome State Fault Refusal :=
  .next { s with mgmt := { s.mgmt with installed := some image } }

/-- What the sensors show for the `n`th time they are read: free values (log 75). -/
def sensed (n : Nat) : Readings :=
  { flow := Config.sensor n 0, inlet := Config.sensor n 1, input := Config.sensor n 2,
    rails := (List.range 5).map (fun k => Config.sensor n (3 + k)) }

/-- MANAGEMENT_READ: the sensors as the controller finds them, and its log. -/
def execManagementRead (s : State) : Host.Outcome State Fault Refusal :=
  let now := sensed s.draws
  .next { s with draws := s.draws + 1, mgmt := { s.mgmt with now, report := s.mgmt.log, shown := s.mgmt.temps, seen := now } }

/-- The steps that need no running device: those of the controller, of the sensors, of the link's lanes, and the boot. While the device
is in reset, the others do nothing (R388). -/
def aliveInReset (i : Instr) : Bool :=
  match i with
  | .resetBoot | .junctionTemperature .. | .thermalShutdown .. | .managementPowerRequest .. | .managementFirmwareInstall ..
  | .managementRead .. | .supplyOutOfTolerance .. | .linkTraining .. => true
  | _ => false

/-! ## Temperatures and supplies (R384, R386) -/

/-- JUNCTION_TEMPERATURE: a sensor's reading in units of 1/16 °C; record 0x10 when the hottest junction crosses 95 °C. -/
def execJunctionTemperature (sensor : Nat) (temp : BitVec 32) (s : State) : Host.Outcome State Fault Refusal :=
  let m := s.mgmt
  let temps := fset 0 m.temps sensor temp
  let s1 := { s with mgmt := { m with temps, hot := hotOf temps } }
  .next (if 33 ≤ sensor then s
    else if hotOf temps && !m.hot && m.powered then s1.post srcMgmt none 0x10 (payload [(8, 1, sensor), (12, 4, temp.toNat)]) else s1)

/-- THERMAL_SHUTDOWN: a junction above 110 °C, or in a TN9-M8 a coolant flow that has been below 2.0 L/min for 1 s. -/
def execThermalShutdown (flow : Bool) (sensor : Nat) (reading : BitVec 32) (s : State) : Host.Outcome State Fault Refusal :=
  let m := s.mgmt
  .next (if m.rails = [] then s
    else if flow then
      (if Config.form = 1 ∧ reading.toNat < 2000 then
        { s with mgmt := { m with now := { m.now with flow := reading } } }.powerOff 0x02 sensor reading else s)
    else if sensor < 33 ∧ celsius16 110 < reading.toInt then
      { s with mgmt := { m with temps := fset 0 m.temps sensor reading } }.powerOff 0x01 sensor reading
    else s)

/-- The voltage of a rail in mV, and its tolerance in per cent (R384). -/
def Rail.level : Rail → Nat × Nat
  | .vcore => (750, 3)
  | .vsram => (800, 3)
  | .vmem => (1050, 3)
  | .vroute => (850, 3)
  | .vopt => (3300, 5)

def Rail.out (r : Rail) (mv : Nat) : Bool :=
  decide (100 * mv < (100 - (Rail.level r).2) * (Rail.level r).1) || decide ((100 + (Rail.level r).2) * (Rail.level r).1 < 100 * mv)

/-- SUPPLY_OUT_OF_TOLERANCE: a rail, by its row in the table of R384, or the input, has been out of its range for 10 ms. -/
def execSupplyOutOfTolerance (input : Bool) (rail : Nat) (reading : BitVec 32) (s : State) : Host.Outcome State Fault Refusal :=
  let m := s.mgmt
  .next (if m.rails = [] then s
    else if input then
      (if reading.toNat < 48000 ∨ 54000 < reading.toNat then
        { s with mgmt := { m with now := { m.now with input := reading } } }.powerOff 0x04 rail reading else s)
    else match ([.vcore, .vsram, .vmem, .vroute, .vopt] : List Rail)[rail]? with
      | some r => if r.out reading.toNat then
          { s with mgmt := { m with now := { m.now with rails := m.now.rails.set rail reading } } }.powerOff 0x03 rail reading else s
      | none => s)

/-! ## Attestation (R389) -/

/-- The 64 bytes of a harvest block (R68). -/
def Die.block (d : Die) : List Byte :=
  leBytes 8 d.cluse.toNat ++ leBytes 8 (d.clret.toNat + 2 ^ 34 * d.spfree.toNat) ++ leBytes 24 d.corelost.toNat ++ leBytes 24 d.lcmap.toNat

def State.harvestBytes (s : State) : List Byte := (List.range 8).flatMap (fun d => (s.die d).block)

/-- The identity public key (R389): that of the fused seed. -/
def identityKey : List Byte := slhPublic Config.identitySeed

/-- The report over the captured nonce, signed under the identity key with a free random value (log 15). -/
def State.reportBytes (s : State) : List Byte :=
  let image := s.mgmt.image
  let body := leBytes 4 0x54455441 ++ leBytes 4 1 ++ leBytes 8 (Config.imageSvn image).toNat ++ sha256Bytes image ++
    leBytes 32 s.attest.nonce.toNat ++ sha256Bytes s.harvestBytes ++ identityKey ++ List.replicate 32 0
  body ++ slhSign Config.identitySeed body (Config.slhRandom s.draws)

/-- The endorsement, signed at manufacture under Prethen's identity root key. -/
def endorsementBytes : List Byte :=
  let body := leBytes 4 0x444E4545 ++ leBytes 4 1 ++ leBytes 8 Config.serial.toNat ++ identityKey ++
    sha256Bytes (slhPublic Config.rootSeed)
  body ++ slhSign Config.rootSeed body Config.endorseRandom

/-- A command of `ACMD` begins, unless one is under way or the device is in reset. -/
def State.attestStart (s : State) (out : List Byte) : State :=
  if s.attest.stat = 1 ∨ s.mgmt.inReset then s else { s with draws := s.draws + 1, attest := { s.attest with stat := 1, out } }

def execProduceReport (s : State) : Host.Outcome State Fault Refusal := .next (s.attestStart s.reportBytes)
def execWriteEndorsement (s : State) : Host.Outcome State Fault Refusal := .next (s.attestStart endorsementBytes)

/-- Writes bytes in blocks of 64, in increasing address, until one fails (R49); the last block has only the bytes left (log 99). -/
def State.writeBlocks (s : State) : Nat → Nat → List Byte → State × Bool
  | 0, _, bs => (s, bs.isEmpty)
  | k + 1, a, bs =>
    if bs.isEmpty then (s, true)
    else match s.hostWrite a (bs.take 64) with
      | none => (s, false)
      | some s1 => s1.writeBlocks k (a + 64) (bs.drop 64)

/-- ATTESTATION_COMPLETE. -/
def execAttestationComplete (s : State) : Host.Outcome State Fault Refusal :=
  if s.attest.stat ≠ 1 ∨ s.mgmt.inReset then .next s
  else
    let r := s.writeBlocks 470 (64 * (s.attest.buf.toNat / 64)) s.attest.out
    .next { r.1 with attest := { r.1.attest with stat := if r.2 then 2 else 3, out := [] } }

end Sys2Proof.Machine
end

