-- ==== Sys2Proof/Machine/Aperture.lean ====
section
/-!
DEFINITION. The register aperture (R10, R11, R46): what every register reads, and REGISTER_WRITE. A write to a register that has a
behaviour of its own is the step of that behaviour.
-/

namespace Sys2Proof.Machine

/-- Bits `v` as a register of the given width shows them. -/
def low (n : Nat) (v : Word) : Word := v &&& BitVec.ofNat 64 (2 ^ n - 1)
def bit (b : Bool) : Nat := b.toNat
def regOf (v : Nat) : Word := BitVec.ofNat 64 v

/-- Replaces word `k` of a wide field. -/
def setWordOf {n : Nat} (v : BitVec n) (k : Nat) (w : Word) : BitVec n := putWord64 v k w

/-! ## Reading -/

/-- `NENCORE`: the enabled cores of the package. -/
def State.enabledCount (s : State) : Nat :=
  ((List.range 8).flatMap (fun d => (List.range 32).flatMap (fun c => s.enabledCores d c))).length

/-- Identity (R47). -/
def State.readIdentity (s : State) (o : Nat) : Word :=
  match o with
  | 0x00 => (0x5052#16 ++ 0x0009#16 ++ Config.form ++ Config.step ++ 1#16 : BitVec 64)
  | 0x08 => Config.imageSvn s.mgmt.image
  | 0x10 => Config.imageBuild s.mgmt.image
  | 0x18 => Config.serial
  | 0x20 => regOf (2 ^ 40 * 8 + 2 ^ 32 * 64 + 2 ^ 16 * 1024 + s.enabledCount)
  | _ => 0

/-- A harvest block (R68). -/
def State.readHarvest (s : State) (d o : Nat) : Word := getWord64 (BitVec.ofNat 512 (leNat (s.die d).block)) (o / 8)

/-- The registers from 0x0300 to 0x0FFF (R81, R322, R324, R389). -/
def State.readLow (s : State) (o : Nat) : Word :=
  let x := s.fabric
  if 0x800 ≤ o ∧ o < 0xA00 then
    let i := (o - 0x800) / 64
    let j := (o - 0x800) / 8 % 8
    if i < j then regOf (2 ^ 15 * bit (fget false x.cerr (8 * i + j)) + 2 ^ 14 * bit (fget false x.cbusy (8 * i + j)) + x.waves i j) else 0
  else match o with
    | 0x300 => s.dispcfg
    | 0x400 => x.pkgnum.setWidth 64
    | 0x408 => x.groupmask.setWidth 64
    | 0x410 => x.lwstate.setWidth 64
    | 0xC00 => getWord64 s.attest.nonce 0
    | 0xC08 => getWord64 s.attest.nonce 1
    | 0xC10 => getWord64 s.attest.nonce 2
    | 0xC18 => getWord64 s.attest.nonce 3
    | 0xC20 => s.attest.buf
    | 0xC30 => s.attest.stat.setWidth 64
    | _ => 0

/-- The event registers (R64). -/
def Events.read (e : Events) (o : Nat) : Word :=
  match o with
  | 0x00 => e.base
  | 0x08 => regOf (32 * bit e.evint + 16 * bit e.even + e.log2.toNat)
  | 0x10 => e.wr
  | 0x18 => e.rd
  | 0x20 => e.shadow
  | 0x28 => e.lostSel.setWidth 64
  | 0x30 => (fget 0 e.lost e.lostSel.toNat).setWidth 64
  | 0x40 => e.iaddr
  | 0x48 => e.idata.setWidth 64
  | _ => 0

/-- A queue block (R50). -/
def WQueue.read (q : WQueue) (o : Nat) : Word :=
  match o with
  | 0x00 => q.qbase
  | 0x08 => regOf (2 ^ 32 * q.bind.toNat + 2 ^ 16 * q.tickets.toNat + q.log2.toNat)
  | 0x10 => regOf (2 ^ 16 * q.err.toNat + 2 ^ 8 * q.state.toNat)
  | 0x18 => q.wr
  | 0x20 => q.rd
  | 0x28 => q.shadow
  | _ => 0

/-- A context status word (R62). -/
def Ctx.status (x : Ctx) : Word := regOf (2 ^ 32 * x.ord.toNat + 2 ^ 8 * x.cause.toNat + x.state.toNat)

/-- The fault records and translation registers (R171). -/
def Ctx.readFault (x : Ctx) (o : Nat) : Word :=
  if o < 0x80 then
    match fget none x.frec (o / 16) with
    | none => 0
    | some r => if o % 16 = 0 then regOf (2 ^ 22 * r.block + 1) else r.pages
  else if o = 0x90 then regOf (bit x.xbusy) else 0

/-- A peer table (R332). -/
def Ctx.readPeer (x : Ctx) (o : Nat) : Word := if o % 16 = 0 then fget 0 x.peerA (o / 16) else fget 0 x.peerB (o / 16)

/-- A fibre block (R327). -/
def Fibre.read (q : Fibre) (o : Nat) : Word :=
  match o with
  | 0x00 => regOf (2 ^ 32 * q.wlmask.toNat + 2 ^ 8 * q.fpeer.toNat + q.fstate.toNat)
  | 0x08 => q.txctr
  | 0x10 => q.ctrlim
  | 0x18 => q.holdlim.setWidth 64
  | 0x28 => regOf (4 * bit q.kerr + 2 * bit q.rxkey.isSome + bit q.txkey.isSome)
  | _ => 0

/-- A pair block (R358). -/
def Pair.read (p : Pair) (o : Nat) : Word :=
  match o with
  | 0x00 => regOf (2 ^ 63 * bit p.pen + 2 ^ 32 * p.ppeer.toNat + p.diglim.toNat)
  | 0x08 => regOf (2 ^ 40 * p.pstate.toNat + 2 ^ 32 * p.trans.toNat + p.epoch.toNat)
  | 0x10 => getWord64 p.ldigest 0
  | 0x18 => getWord64 p.ldigest 1
  | 0x20 => getWord64 p.ldigest 2
  | 0x28 => getWord64 p.ldigest 3
  | _ => 0

/-- The scale-out registers (R342). -/
def Fabric.readScale (x : Fabric) (o : Nat) : Word :=
  if o < 0x200 then (if o % 16 = 0 then fget 0 x.evalid (o / 16) else (fget 0 x.evlan (o / 16)).setWidth 64)
  else if 0x400 ≤ o ∧ o < 0x500 then
    let p := x.port ((o - 0x400) / 64)
    match o % 64 with
    | 0x00 => regOf (2 ^ 48 * p.estate.toNat + (Config.pmac ((o - 0x400) / 64)).toNat)
    | 0x08 => p.epn
    | 0x10 => p.epnlim
    | 0x20 => regOf (4 * bit p.ekerr + 2 * bit p.rxkey.isSome + bit p.txkey.isSome)
    | _ => 0
  else match o with
    | 0x200 => x.etype.setWidth 64
    | 0x208 => x.eretry.setWidth 64
    | 0x210 => x.elimit.setWidth 64
    | _ => 0

/-- A debug block (R364). -/
def State.readDebug (s : State) (n o : Nat) : Word :=
  let d := (s.core n).dbg
  if 0x20 ≤ o ∧ o < 0x60 then (if o % 16 = 0 then fget 0 d.dba ((o - 0x20) / 16) else fget 0 d.dbc ((o - 0x20) / 16))
  else match o with
    | 0x08 => regOf (32 * bit d.refused + 16 * bit d.draining + 2 * d.reason.toNat + bit d.halted)
    | 0x10 => regOf (bit d.brken)
    | 0x60 => d.sel
    | 0x68 => s.ddataRead n
    | _ => 0

/-- What an aligned 8-byte read at offset `o` returns; everything reads as zero while the device stays in reset (R388). -/
def State.apertureRead (s : State) (o : Nat) : Word :=
  if s.mgmt.inReset then 0
  else if o < 0x100 then s.readIdentity o
  else if o < 0x300 then s.readHarvest ((o - 0x100) / 64) (o % 64)
  else if o < 0x1000 then s.readLow o
  else if o < 0x1080 then s.events.read (o - 0x1000)
  else if 0x100000 ≤ o ∧ o < 0x110000 then (s.queue ((o - 0x100000) / 64)).read (o % 64)
  else if 0x200000 ≤ o ∧ o < 0x200200 then (s.ctx ((o - 0x200000) / 8)).status
  else if 0x300000 ≤ o ∧ o < 0x304000 then (s.ctx ((o - 0x300000) / 256)).readFault (o % 256)
  else if 0x340000 ≤ o ∧ o < 0x348000 then (s.ctx ((o - 0x340000) / 512)).readPeer (o % 512)
  else if 0x350000 ≤ o ∧ o < 0x352200 then (s.fabric.fibre ((o - 0x350000) / 64)).read (o % 64)
  else if 0x360000 ≤ o ∧ o < 0x361000 then (s.ctx ((o - 0x360000) / 64)).pair.read (o % 64)
  else if 0x370000 ≤ o ∧ o < 0x370800 then s.fabric.readScale (o - 0x370000)
  else if 0x400000 ≤ o ∧ o < 0x620000 then s.readDebug ((o - 0x400000) / 2048) (o % 2048)
  else 0

/-! ## Writing -/

/-- The registers from 0x0300 to 0x0FFF. -/
def State.writeLow (s : State) (o : Nat) (v : Word) : State :=
  let x := s.fabric
  let attest := fun (a : Attest) => if s.attest.stat = 1 then s else { s with attest := a }
  if 0x800 ≤ o ∧ o < 0xA00 then s.writeWaves ((o - 0x800) / 64) ((o - 0x800) / 8 % 8) v
  else match o with
    | 0x300 => { s with dispcfg := low 48 v }
    | 0x400 => if x.lwstate = 0 then s.setFabric { x with pkgnum := v.setWidth 5 } else s
    | 0x408 => if x.lwstate = 0 ∨ x.lwstate = 4 then s.setFabric { x with groupmask := v.setWidth 32 } else s
    | 0x410 => match (v.extractLsb' 8 2).toNat with
      | 1 => s.lwDrain
      | 2 => s.lwRelock
      | 3 => s.lwGoDark
      | _ => s
    | 0xC00 => attest { s.attest with nonce := setWordOf s.attest.nonce 0 v }
    | 0xC08 => attest { s.attest with nonce := setWordOf s.attest.nonce 1 v }
    | 0xC10 => attest { s.attest with nonce := setWordOf s.attest.nonce 2 v }
    | 0xC18 => attest { s.attest with nonce := setWordOf s.attest.nonce 3 v }
    | 0xC20 => attest { s.attest with buf := v &&& ~~~63 }
    | 0xC28 => match (v.extractLsb' 0 2).toNat with
      | 1 => s.attestStart s.reportBytes
      | 2 => s.attestStart endorsementBytes
      | _ => s
    | _ => s

/-- The event registers; `EVBASE` only while `EVEN` is 0. -/
def Events.write (e : Events) (o : Nat) (v : Word) : Events :=
  match o with
  | 0x00 => if e.even then e else { e with base := v &&& ~~~31 }
  | 0x08 => e.config v
  | 0x18 => e.readIndex v
  | 0x20 => { e with shadow := v &&& ~~~7 }
  | 0x28 => { e with lostSel := v.setWidth 16 }
  | 0x30 => { e with lost := fset 0 e.lost e.lostSel.toNat (v.setWidth 16) }
  | 0x40 => { e with iaddr := v &&& ~~~3 }
  | 0x48 => { e with idata := v.setWidth 32 }
  | _ => e

/-- A queue block. -/
def State.writeQueue (s : State) (n o : Nat) (v : Word) : State :=
  let q := s.queue n
  match o with
  | 0x00 => if q.state = 0 then s.setQueue n { q with qbase := v &&& ~~~63 } else s
  | 0x08 => if q.state = 0 then
      s.setQueue n { q with bind := v.extractLsb' 32 7, tickets := v.extractLsb' 16 10, log2 := v.extractLsb' 0 5 } else s
  | 0x10 => if v.getLsbD 0 then s.enableQueue n else s.disableQueue n
  | 0x18 => s.doorbell n v
  | 0x20 => if q.state = 0 then s.setQueue n { q with rd := v } else s
  | 0x28 => s.setQueue n { q with shadow := v &&& ~~~7 }
  | _ => s

/-- The fault and translation registers. -/
def State.writeFault (s : State) (k o : Nat) (v : Word) : State :=
  match o with
  | 0x80 => s.freeRecord k (v.extractLsb' 0 3).toNat
  | 0x88 => if v.extractLsb' 0 2 = 0 then s else s.xcmd k (v.extractLsb' 0 2) (v.extractLsb' 16 48)
  | _ => s

/-- A peer table. -/
def State.writePeer (s : State) (k o : Nat) (v : Word) : State :=
  let x := s.ctx k
  s.setCtx k (if o % 16 = 0 then { x with peerA := fset 0 x.peerA (o / 16) (v &&& 0xC000003F0000001F) }
    else { x with peerB := fset 0 x.peerB (o / 16) v })

/-- A fibre block. -/
def State.writeFibre (s : State) (f o : Nat) (v : Word) : State :=
  let q := s.fabric.fibre f
  match o with
  | 0x10 => (s.setFibre f { q with ctrlim := v }).pump
  | 0x18 => s.setFibre f { q with holdlim := v.setWidth 32 }
  | 0x20 => match (v.extractLsb' 0 2).toNat with
    | 1 => s.stageKey f (v &&& ~~~63) true
    | 2 => s.stageKey f (v &&& ~~~63) false
    | _ => s.setFibre f { q with kaddr := v &&& ~~~63 }
  | _ => s

/-- A pair block: `PEN` and `PPEER` only while `STATE` is 0. -/
def State.writePair (s : State) (k o : Nat) (v : Word) : State :=
  let x := s.ctx k
  let p := { x.pair with diglim := v.setWidth 32 }
  if o ≠ 0 then s
  else s.setCtx k { x with pair := if x.state = 0 then { p with pen := v.getLsbD 63, ppeer := v.extractLsb' 32 5 } else p }

/-- The scale-out registers. -/
def State.writeScale (s : State) (o : Nat) (v : Word) : State :=
  let x := s.fabric
  if o < 0x200 then
    (s.setFabric (if o % 16 = 0 then { x with evalid := fset 0 x.evalid (o / 16) (v &&& 0x800FFFFFFFFFFFFF) }
      else { x with evlan := fset 0 x.evlan (o / 16) (v.setWidth 12) })).pump
  else if 0x400 ≤ o ∧ o < 0x500 then
    let p := (o - 0x400) / 64
    match o % 64 with
    | 0x10 => s.changePort p { x.port p with epnlim := v }
    | 0x18 => match (v.extractLsb' 0 2).toNat with
      | 1 => s.stagePortKey p (v &&& ~~~63) true
      | 2 => s.stagePortKey p (v &&& ~~~63) false
      | _ => s.setPort p { x.port p with ekaddr := v &&& ~~~63 }
    | _ => s
  else match o with
    | 0x200 => (s.setFabric { x with etype := v.setWidth 16 }).pump
    | 0x208 => s.setFabric { x with eretry := v.setWidth 32 }
    | 0x210 => s.setFabric { x with elimit := v.setWidth 32 }
    | _ => s

/-- The next state of a step that always has one. -/
def stateOf (s : State) (o : Host.Outcome State Fault Refusal) : State :=
  match o with
  | .next t => t
  | .fault _ => s
  | .refused _ => s

/-- A debug block. -/
def State.writeDebug (s : State) (n o : Nat) (v : Word) : State :=
  let d := (s.core n).dbg
  if 0x20 ≤ o ∧ o < 0x60 then
    let k := (o - 0x20) / 16
    s.setDebug n (if o % 16 = 0 then { d with dba := fset 0 d.dba k (v &&& 0xFFFFFFFFFFFD) }
      else { d with dbc := fset 0 d.dbc k (v &&& 0x3F0000FFFF) })
  else match o with
    | 0x00 => match (v.extractLsb' 0 3).toNat with
      | 1 => stateOf s (execDebugHaltCommand n s)
      | 2 => stateOf s (execDebugResume n s)
      | 3 => stateOf s (execDebugStep n s)
      | 4 => stateOf s (execDebugDrain n s)
      | _ => s
    | 0x10 => s.setDebug n { d with brken := v.getLsbD 0 }
    | 0x60 => s.setDebug n { d with sel := v &&& 0x3F0FFFFF }
    | 0x68 => stateOf s (execDdataWrite n v s)
    | _ => s

/-- An aligned 8-byte write at offset `o` of the aperture; registers that are read-only or unassigned ignore it (R11, R46). -/
def State.apertureWrite (s : State) (o : Nat) (v : Word) : State :=
  if o < 0x300 then s
  else if o < 0x1000 then s.writeLow o v
  else if o < 0x1080 then s.setEvents (s.events.write (o - 0x1000) v)
  else if 0x100000 ≤ o ∧ o < 0x110000 then s.writeQueue ((o - 0x100000) / 64) (o % 64) v
  else if 0x200000 ≤ o ∧ o < 0x200200 then (if v.getLsbD 2 then s.freeCtx ((o - 0x200000) / 8) else s)
  else if 0x300000 ≤ o ∧ o < 0x304000 then s.writeFault ((o - 0x300000) / 256) (o % 256) v
  else if 0x340000 ≤ o ∧ o < 0x348000 then s.writePeer ((o - 0x340000) / 512) (o % 512) v
  else if 0x350000 ≤ o ∧ o < 0x352200 then s.writeFibre ((o - 0x350000) / 64) (o % 64) v
  else if 0x360000 ≤ o ∧ o < 0x361000 then s.writePair ((o - 0x360000) / 64) (o % 64) v
  else if 0x370000 ≤ o ∧ o < 0x370800 then s.writeScale (o - 0x370000) v
  else if 0x400000 ≤ o ∧ o < 0x620000 then s.writeDebug ((o - 0x400000) / 2048) (o % 2048) v
  else s

/-- REGISTER_WRITE. -/
def execRegisterWrite (off v : Word) (s : State) : Host.Outcome State Fault Refusal :=
  .next (if s.host.down ∨ s.mgmt.inReset then s
    else if off.toNat % 8 ≠ 0 ∨ 0x800000 ≤ off.toNat then s.notPerformed off true false
    else s.apertureWrite off.toNat v)

end Sys2Proof.Machine
end

