-- ==== Sys2Proof/Machine/Control.lean ====
section
/-!
DEFINITION. The control transfers (R148–R150). A taken transfer occupies three issue cycles.
-/

namespace Sys2Proof.Machine

/-- An offset in 4-byte units from the instruction's own address (R114). -/
def Frame.target {n : Nat} (f : Frame) (off : BitVec n) : Word := f.pc + (off.signExtend 64 <<< 2)

/-- A transfer that is taken: to a target, with results. -/
def taken (pc : Word) (ws : List Write) : Ret := { pc := some pc, cycles := 3, exc := 0, writes := ws }

/-- The link: the address of the next instruction (R148). -/
def Frame.link (f : Frame) (i : Instr) : Word := f.pc + BitVec.ofNat 64 i.size

def jump (i : Instr) (regs : List Reg) (target : Frame → Word) (ws : Frame → List Write) (s : State) :
    Host.Outcome State Fault Refusal :=
  .next (issue i regs [] false s (fun _ _ f => .go s (taken (target f) (ws f))))

def execBr (h : Hdr) (off : BitVec 24) (s : State) : Host.Outcome State Fault Refusal :=
  jump (.br h off) [] (fun f => f.target off) (fun _ => []) s
def execBrFar (h : Hdr) (off : BitVec 32) (s : State) : Host.Outcome State Fault Refusal :=
  jump (.brFar h off) [] (fun f => f.target off) (fun _ => []) s
def execJmp (h : Hdr) (a : GReg) (s : State) : Host.Outcome State Fault Refusal :=
  jump (.jmp h a) [.g a] (fun f => f.getG a) (fun _ => []) s
def execCall (h : Hdr) (d : GReg) (off : BitVec 24) (s : State) : Host.Outcome State Fault Refusal :=
  jump (.call h d off) [.g d] (fun f => f.target off) (fun f => [gRes d (f.link (.call h d off)) 1]) s
def execCallFar (h : Hdr) (d : GReg) (off : BitVec 32) (s : State) : Host.Outcome State Fault Refusal :=
  jump (.callFar h d off) [.g d] (fun f => f.target off) (fun f => [gRes d (f.link (.callFar h d off)) 1]) s
def execCallr (h : Hdr) (d a : GReg) (s : State) : Host.Outcome State Fault Refusal :=
  jump (.callr h d a) [.g d, .g a] (fun f => f.getG a) (fun f => [gRes d (f.link (.callr h d a)) 1]) s
def execRet (h : Hdr) (a : GReg) (s : State) : Host.Outcome State Fault Refusal :=
  jump (.ret h a) [.g a] (fun f => f.getG a) (fun _ => []) s

/-- `LOOP` (R148, R149): the decremented value is written whether or not the branch is taken. -/
def execLoop (h : Hdr) (d : GReg) (off : BitVec 24) (s : State) : Host.Outcome State Fault Refusal :=
  .next (issue (.loop h d off) [.g d] [] false s (fun _ _ f =>
    let v := f.getG d - 1
    if v = 0 then .go s { Ret.plain with writes := [gRes d v 1] }
    else .go s (taken (f.target off) [gRes d v 1])))

end Sys2Proof.Machine
end

