-- ==== Sys2Proof/Machine/Vector.lean ====
section
/-!
DEFINITION. Vector instructions (R228–R242), chains (R243–R246), and the steps LONG_VECTOR_COMPLETE and CHAIN_RUN.
-/

namespace Sys2Proof.Machine

/-! ## Modes, registers, elements (R228–R232) -/

def vecBits (w : Bool) : Nat := if w then 2048 else 256
/-- The vector register that a field names under the width flag. -/
def vr (w : Bool) (k : VReg) : Reg := if w then .w k else .v k
def Core.getVec (c : Core) (f : Frame) (w : Bool) (k : VReg) : Nat := if w then (c.getW k).toNat else (c.getV f.lane k).toNat

/-- The elements of `b` bits of a register value. -/
def vElems (b n x : Nat) : List Nat := (List.range n).map (fun e => x / 2 ^ (b * e) % 2 ^ b)
def vPack (b : Nat) : List Nat → Nat
  | [] => 0
  | e :: es => e % 2 ^ b + 2 ^ b * vPack b es

/-- The lane guard of a lane (R43). -/
def laneGuard (lane : Nat) : BitVec 6 := BitVec.ofNat 6 (60 + lane)
def Frame.laneClaimed (f : Frame) : Bool := f.claims.contains (laneGuard f.lane)

/-- The checks of mode and lane claim (R228, R231). An instruction that meets both raises 0x20 (log 101). -/
def Frame.vecMode (f : Frame) (w : Bool) (g : Act) : Act :=
  if w != f.long then .trap 0x20 0
  else if !w && !f.laneClaimed then .trap 0x22 0
  else g

/-- A command's registers `w0`–`w15` are locked until it completes; its result arrives then (R232). -/
def Core.sendLong (c : Core) (f : Frame) (o : LongOp) (dst : Option Reg) : Core :=
  { c.setTop { f with await := f.await ++ dst.toList } with long := c.long ++ [o] }

/-- A vector instruction with a result. `dst` is a general or a vector register, `srcs` the vector sources; `val` computes the
result and the exceptions from the registers. -/
def vecOp (i : Instr) (w : Bool) (lat : Nat) (regs : List Reg) (dst : Reg) (srcs : List VReg)
    (val : State → Core → Frame → (VReg → Nat) → Chk (Nat × Exc)) (s : State) : Host.Outcome State Fault Refusal :=
  .next (issue i regs [dst] false s (fun n c f => f.vecMode w
    ((val s c f (c.getVec f w)).act (fun r =>
      if w then
        let o : LongOp := { id := s.uid, frame := f.uid, prio := f.prio, gdst := none, wdst := none, exc := r.2, lock := srcs }
        let o1 := match dst with
          | .g d => { o with gdst := some (d, BitVec.ofNat 64 r.1) }
          | .w d => { o with wdst := some (d, BitVec.ofNat 2048 r.1) }
          | .p _ | .a _ | .v _ => o
        .go (s.setCore n (c.sendLong f o1 (if dst.fixed then none else some dst))).fresh Ret.plain
      else .go s { Ret.plain with exc := r.2, writes := [{ reg := dst, val := BitVec.ofNat 256 r.1, lat }] }))))

/-- Delivers the result of a long instruction; a frame that has left takes nothing. -/
def Core.longDone (c : Core) (o : LongOp) : Core :=
  let c1 := match o.gdst with
    | some r => c.deliver o.frame (.g r.1) (r.2.setWidth 256)
    | none => c
  match o.wdst, c.frame? o.frame with
  | some r, some _ => (c1.setW r.1 r.2).onFrame o.frame (fun f => { f with await := f.await.erase (.w r.1) })
  | _, _ => c1

/-- Whether the long vector unit of core `n`'s cluster takes another core's instruction before `o`: one of a higher task priority, or an
older one of the same (R17, R232, R371). -/
def State.longWaits (s : State) (n : Nat) (o : LongOp) : Bool :=
  (List.range 4).any (fun p => match (s.core (4 * clusterOf n + p)).long with
    | [] => false
    | x :: _ => decide (o.prio < x.prio) || (x.prio == o.prio && decide (x.id < o.id)))

/-- LONG_VECTOR_COMPLETE: the oldest long instruction of a core completes (R232). The instruction of a threshold trap that its events
cause is not the one that stands at the boundary, and `TINSN` is 0 (log 43). -/
def execLongVectorComplete (core : Nat) (s : State) : Host.Outcome State Fault Refusal :=
  let c := s.core core
  match c.long with
  | [] => .next s
  | o :: os => if s.longWaits core o then .next s else .next (s.setCore core (({ c with long := os }.longDone o).count o.exc 0 0))

/-! ## `VMODE` (R229) -/

/-- Whether a lock bit of `w0`–`w15` is set: a long instruction reads one, or a result for one has not arrived. -/
def Core.longLocked (c : Core) (f : Frame) : Bool :=
  c.long.any (fun o => !o.lock.isEmpty) || f.await.any (fun r => match r with
    | .w _ => true
    | .g _ | .p _ | .a _ | .v _ => false)

/-- `VMODE.long`: the frame becomes the owner at once, and waits for the lock bits at the boundary before the instruction (R348). -/
def execVmodeLong (h : Hdr) (s : State) : Host.Outcome State Fault Refusal :=
  .next (issue (.vmodeLong h) [] [] false s (fun n c f =>
    if f.long then .go s Ret.plain
    else if c.frames.tail.any (fun g => g.owner) then .trap 0x21 0
    else if c.longLocked f then .pause (s.setCore n (c.setTop { f with owner := true }))
    else .go (s.setCore n { c.setTop { f with long := true, owner := true } with w := [] }) Ret.plain))

def execVmodeShort (h : Hdr) (s : State) : Host.Outcome State Fault Refusal :=
  .next (issue (.vmodeShort h) [] [] false s (fun n c f => .go (if f.long then s.setCore n (c.setTop { f with long := false, owner := false }) else s) Ret.plain))

/-! ## Loads and stores (R235) -/

def vecAccess (w : Bool) : Nat := if w then 256 else 32
def vecAlign (w : Bool) : Nat := if w then 64 else 32

def execVld (h : Hdr) (x w : Bool) (d : VReg) (p : Ptr) (s : State) : Host.Outcome State Fault Refusal :=
  .next (issue (.vld h x w d p) [vr w d, .a (Ptr.reg p)] [vr w d] false s (fun n c f => f.vecMode w
    (let a := f.ptr p
    let k := vecAccess w
    (f.rangeCheck (s.ctx f.task.ctx) a k (vecAlign w)).act (fun _ => padAct c [(a, k)] []
      (let v := c.padNat a k
      let r := { Ret.plain with cycles := bankCycles [(a, (k + 63) / 64)], writes := f.ptrStep p k }
      if w then
        let o : LongOp :=
          { id := s.uid, frame := f.uid, prio := f.prio, gdst := none, wdst := some (d, BitVec.ofNat 2048 v), exc := 0, lock := [] }
        .go (s.setCore n (c.sendLong f o (some (.w d)))).fresh r
      else .go s { r with writes := vRes d (BitVec.ofNat 256 v) 3 :: r.writes })))))

def execVst (h : Hdr) (x w : Bool) (p : Ptr) (a : VReg) (s : State) : Host.Outcome State Fault Refusal :=
  .next (issue (.vst h x w p a) [.a (Ptr.reg p), vr w a] [] false s (fun n c f => f.vecMode w
    (let q := f.ptr p
    let k := vecAccess w
    (f.rangeCheck (s.ctx f.task.ctx) q k (vecAlign w)).act (fun _ => padAct c [] [(q, k)]
      (let o : LongOp := { id := s.uid, frame := f.uid, prio := f.prio, gdst := none, wdst := none, exc := 0, lock := [a] }
      let s1 := if w then (s.setCore n (c.sendLong f o none)).fresh else s
      .go (s1.instrStore n f q (leBytes k (c.getVec f w a)))
        { Ret.plain with cycles := bankCycles [(q, (k + 63) / 64)], writes := f.ptrStep p k })))))

/-- The lines of a vector memory access: kinds, alignment, translation. -/
def State.withLines (s : State) (n : Nat) (f : Frame) (wr : Bool) (a : Word) (al : Nat) (g : List Place → State → Act) : Act :=
  (s.kindAll (s.ctx f.task.ctx) wr (piecesOf a al)).act (fun ks =>
    if a.toNat % al ≠ 0 then .trap 0x19 a
    else
      let r := s.placeAll n f.task.ctx wr ks
      match r.1 with
      | .ok ps => g ps r.2
      | .error e => resAct r.2 n f e.1 e.2)

def vecLines (w : Bool) : Nat := if w then 4 else 1

def execVldv (h : Hdr) (w : Bool) (d : VReg) (a : GReg) (s : State) : Host.Outcome State Fault Refusal :=
  .next (issue (.vldv h w d a) [vr w d, .g a] [vr w d] false s (fun n _ f => f.vecMode w
    (let ad := f.getG a
    s.withLines n f false ad (vecAccess w) (fun ps s1 =>
      let srcs := (ps.zip (lineAddrs (ad &&& ~~~63) (vecLines w))).map (fun e => s1.source f e.2 e.1)
      let s2 := s1.setCore n ((s1.core n).onFrame f.uid (fun g => { g with await := g.await ++ [vr w d] }))
      let k : ReqKind := .vld srcs ((ps.head?.map (fun p => p.off ad)).getD 0) (vecAccess w)
      (s1.core n).reqAct k (.go (s2.request n f (some (vr w d)) false k) Ret.plain)))))

def execVstv (h : Hdr) (w : Bool) (a : GReg) (b : VReg) (s : State) : Host.Outcome State Fault Refusal :=
  .next (issue (.vstv h w a b) [.g a, vr w b] [] false s (fun n c f => f.vecMode w
    (let ad := f.getG a
    let bs := leBytes (vecAccess w) (c.getVec f w b)
    s.withLines n f true ad (vecAccess w) (fun ps s1 =>
      let c1 := s1.core n
      let s2 := if w then (s1.setCore n { c1 with long := c1.long ++
          [{ id := s1.uid, frame := f.uid, prio := f.prio, gdst := none, wdst := none, exc := 0, lock := [b] }] }).fresh
        else s1
      s2.bundlePut n f ((ps.zip (List.range ps.length)).filterMap (fun e => match e.1 with
        | .line key off page => some (homeLine key page (ad + BitVec.ofNat 64 (64 * e.2)) off
            ((bs.drop (64 * e.2)).take 64) none)
        | .window _ => none)) Ret.plain))))

/-! ## Element-wise instructions (R236–R238) -/

/-- A result computed element by element. -/
def mapElems (b : Nat) (es : List (Nat × Exc)) : Nat × Exc := (vPack b (es.map (fun e => e.1)), es.foldl (fun x e => x ||| e.2) excNone)

/-- The number of elements of a register. -/
def vecN (w : Bool) (b : Nat) : Nat := vecBits w / b

def vec1 (i : Instr) (w : Bool) (lat : Nat) (f : Fmt) (d a : VReg) (op : Nat → Nat × Exc) (s : State) :
    Host.Outcome State Fault Refusal :=
  vecOp i w lat [vr w d, vr w a] (vr w d) [a] (fun _ _ _ get =>
    .ok (mapElems f.width ((vElems f.width (vecN w f.width) (get a)).map op))) s

def vec2 (i : Instr) (w : Bool) (lat : Nat) (f : Fmt) (d a b : VReg) (op : Nat → Nat → Nat × Exc) (s : State) :
    Host.Outcome State Fault Refusal :=
  vecOp i w lat [vr w d, vr w a, vr w b] (vr w d) [a, b] (fun _ _ _ get =>
    let n := vecN w f.width
    .ok (mapElems f.width (((vElems f.width n (get a)).zip (vElems f.width n (get b))).map (fun e => op e.1 e.2)))) s

def vec3 (i : Instr) (w : Bool) (lat : Nat) (f : Fmt) (d a b c : VReg) (op : Nat → Nat → Nat → Nat × Exc) (s : State) :
    Host.Outcome State Fault Refusal :=
  vecOp i w lat [vr w d, vr w a, vr w b, vr w c] (vr w d) [a, b, c] (fun _ _ _ get =>
    let n := vecN w f.width
    .ok (mapElems f.width (((vElems f.width n (get a)).zip ((vElems f.width n (get b)).zip (vElems f.width n (get c)))).map
      (fun e => op e.1 e.2.1 e.2.2)))) s

/-- Integer addition and subtraction, saturated with `.sat`. -/
def intAdd (n : Nat) (sat : Bool) (v : Int) : Nat × Exc := (toU n (if sat then satS n v else v), excNone)

def execVadd (h : Hdr) (w sat : Bool) (f : Fmt) (r : Rnd) (d a b : VReg) (s : State) : Host.Outcome State Fault Refusal :=
  vec2 (.vadd h w sat f r d a b) w 2 f d a b (fun x y =>
    if f.isInt then intAdd f.width sat (toS f.width x + toS f.width y) else fAdd f r x y) s
def execVsub (h : Hdr) (w sat : Bool) (f : Fmt) (r : Rnd) (d a b : VReg) (s : State) : Host.Outcome State Fault Refusal :=
  vec2 (.vsub h w sat f r d a b) w 2 f d a b (fun x y =>
    if f.isInt then intAdd f.width sat (toS f.width x - toS f.width y) else fSub f r x y) s
def execVmul (h : Hdr) (w : Bool) (f : Fmt) (r : Rnd) (d a b : VReg) (s : State) : Host.Outcome State Fault Refusal :=
  vec2 (.vmul h w f r d a b) w 3 f d a b (fun x y =>
    if f.isInt then (toU f.width (x * y), excNone) else fMul f r x y) s
def execVfma (h : Hdr) (w : Bool) (f : Fmt) (r : Rnd) (d a b c : VReg) (s : State) : Host.Outcome State Fault Refusal :=
  vec3 (.vfma h w f r d a b c) w 4 f d a b c (fFma f r) s

/-- Minimum or maximum of elements (R199, R237). -/
def elemMinMax (f : Fmt) (big u : Bool) (x y : Nat) : Nat × Exc :=
  if f.isInt then
    (if (if u then decide (x ≤ y) else decide (toS f.width x ≤ toS f.width y)) != big then x else y, excNone)
  else fMinMax f big x y

def execVmin (h : Hdr) (w u : Bool) (f : Fmt) (d a b : VReg) (s : State) : Host.Outcome State Fault Refusal :=
  vec2 (.vmin h w u f d a b) w 2 f d a b (elemMinMax f false u) s
def execVmax (h : Hdr) (w u : Bool) (f : Fmt) (d a b : VReg) (s : State) : Host.Outcome State Fault Refusal :=
  vec2 (.vmax h w u f d a b) w 2 f d a b (elemMinMax f true u) s
def execVminp (h : Hdr) (w : Bool) (f : Fmt) (d a b : VReg) (s : State) : Host.Outcome State Fault Refusal :=
  vec2 (.vminp h w f d a b) w 2 f d a b (fMinMaxP f false) s
def execVmaxp (h : Hdr) (w : Bool) (f : Fmt) (d a b : VReg) (s : State) : Host.Outcome State Fault Refusal :=
  vec2 (.vmaxp h w f d a b) w 2 f d a b (fMinMaxP f true) s
/-- `VCLAMP`: the minimum with `vc` of the maximum with `vb`. -/
def execVclamp (h : Hdr) (w u : Bool) (f : Fmt) (d a b c : VReg) (s : State) : Host.Outcome State Fault Refusal :=
  vec3 (.vclamp h w u f d a b c) w 2 f d a b c (fun x y z =>
    let m := elemMinMax f true u x y
    let r := elemMinMax f false u m.1 z
    (r.1, m.2 ||| r.2)) s
def execVneg (h : Hdr) (w : Bool) (f : Fmt) (d a : VReg) (s : State) : Host.Outcome State Fault Refusal :=
  vec1 (.vneg h w f d a) w 1 f d a (fun x => (if f.isInt then toU f.width (-(x : Int)) else fNeg f x, excNone)) s
def execVabs (h : Hdr) (w : Bool) (f : Fmt) (d a : VReg) (s : State) : Host.Outcome State Fault Refusal :=
  vec1 (.vabs h w f d a) w 1 f d a (fun x => (if f.isInt then toU f.width (toS f.width x).natAbs else fAbs f x, excNone)) s

/-- The bitwise instructions act on whole registers; INT64 elements serve. -/
def execVand (h : Hdr) (w : Bool) (d a b : VReg) (s : State) : Host.Outcome State Fault Refusal :=
  vec2 (.vand h w d a b) w 1 .i64 d a b (fun x y => (x &&& y, excNone)) s
def execVor (h : Hdr) (w : Bool) (d a b : VReg) (s : State) : Host.Outcome State Fault Refusal :=
  vec2 (.vor h w d a b) w 1 .i64 d a b (fun x y => (x ||| y, excNone)) s
def execVxor (h : Hdr) (w : Bool) (d a b : VReg) (s : State) : Host.Outcome State Fault Refusal :=
  vec2 (.vxor h w d a b) w 1 .i64 d a b (fun x y => (x ^^^ y, excNone)) s

def execVshl (h : Hdr) (w : Bool) (f : Fmt) (d a b : VReg) (s : State) : Host.Outcome State Fault Refusal :=
  vec2 (.vshl h w f d a b) w 1 f d a b (fun x k => (if f.width ≤ k then 0 else x * 2 ^ k % 2 ^ f.width, excNone)) s
def execVshr (h : Hdr) (w sx : Bool) (f : Fmt) (d a b : VReg) (s : State) : Host.Outcome State Fault Refusal :=
  vec2 (.vshr h w sx f d a b) w 1 f d a b (fun x k =>
    let k1 := min k f.width
    (if sx then toU f.width (toS f.width x / 2 ^ k1) else x / 2 ^ k1, excNone)) s

/-- `VCMP`: all ones or all zeros (R238). -/
def execVcmp (h : Hdr) (w : Bool) (cond : VCond) (f : Fmt) (d a b : VReg) (s : State) : Host.Outcome State Fault Refusal :=
  vec2 (.vcmp h w cond f d a b) w 2 f d a b (fun x y =>
    let r := match cond with
      | .int c => (condHolds f.width c x y, excNone)
      | .flt c => fCond f c x y
    (if r.1 then 2 ^ f.width - 1 else 0, r.2)) s
def execVsel (h : Hdr) (w : Bool) (f : Fmt) (d m a b : VReg) (s : State) : Host.Outcome State Fault Refusal :=
  vecOp (.vsel h w f d m a b) w 1 [vr w d, vr w a, vr w b, vr w m] (vr w d) [a, b, m] (fun _ _ _ get =>
    let n := vecN w f.width
    .ok (mapElems f.width (((vElems f.width n (get m)).zip ((vElems f.width n (get a)).zip (vElems f.width n (get b)))).map
      (fun e => (if e.1 / 2 ^ (f.width - 1) % 2 = 1 then e.2.1 else e.2.2, excNone))))) s

/-! ## Reductions and dot products (R239, R240) -/

/-- A value for a general register: integers sign-extended, floats with zeros above (R233). -/
def elemWord (f : Fmt) (x : Nat) : Nat := if f.isInt then toU 64 (toS f.width x) else x

/-- Folds the elements from element 0. -/
def foldElems (op : Nat → Nat → Nat × Exc) (es : List Nat) : Nat × Exc :=
  match es with
  | [] => (0, excNone)
  | e :: es => es.foldl (fun (r : Nat × Exc) x => let q := op r.1 x; (q.1, r.2 ||| q.2)) (e, excNone)

def redVal (op : RedOp) (f : Fmt) (r : Rnd) (es : List Nat) : Nat × Exc :=
  match op with
  | .add =>
    if f.isInt then (toU 64 ((es.map (toS f.width)).foldl (fun x y => x + y) 0), excNone)
    else (nanOf f es).getD (sumVals f r (es.map (unpack f)))
  | .min => let q := foldElems (elemMinMax f false false) es; (elemWord f q.1, q.2)
  | .max => let q := foldElems (elemMinMax f true false) es; (elemWord f q.1, q.2)
  | .minp => foldElems (fMinMaxP f false) es
  | .maxp => foldElems (fMinMaxP f true) es
  | .and => (elemWord f (foldElems (fun x y => (x &&& y, excNone)) es).1, excNone)
  | .or => (elemWord f (foldElems (fun x y => (x ||| y, excNone)) es).1, excNone)
  | .xor => (elemWord f (foldElems (fun x y => (x ^^^ y, excNone)) es).1, excNone)

def execVred (h : Hdr) (w : Bool) (op : RedOp) (f : Fmt) (r : Rnd) (d : GReg) (a : VReg) (s : State) :
    Host.Outcome State Fault Refusal :=
  vecOp (.vred h w op f r d a) w 5 [.g d, vr w a] (.g d) [a] (fun _ _ _ get =>
    .ok (redVal op f r (vElems f.width (vecN w f.width) (get a)))) s

/-- An exact sum of a value and products, with the NaN of the first operand that is one (R239, R240). `ops` are the operands in
order with their formats. A ∞ × 0 raises invalid, also beside a NaN operand, which then gives the value (log 17). -/
def dotVal (f : Fmt) (r : Rnd) (src : Fmt) (acc : Nat) (ps : List (Nat × Nat)) : Nat × Exc :=
  let prods := ps.map (fun p => mulVal (unpack src p.1) (unpack src p.2))
  let bad := prods.any Option.isNone
  let flat := ps.flatMap (fun p => [p.1, p.2])
  let sig := isSnan f acc || flat.any (isSnan src)
  let nan := if isNan f acc then some acc else (flat.find? (isNan src)).map (convNan f src)
  match nan with
  | some x => (quieten f x, if sig || bad then excInvalid else excNone)
  | none => if bad then invalidNan f else sumVals f r (unpack f acc :: prods.filterMap (fun p => p))

def execVdot (h : Hdr) (w : Bool) (dst src : Fmt) (r : Rnd) (d a b : VReg) (s : State) : Host.Outcome State Fault Refusal :=
  vecOp (.vdot h w dst src r d a b) w 4 [vr w d, vr w a, vr w b] (vr w d) [d, a, b] (fun _ _ _ get =>
    let k := 32 / src.width
    let n := vecN w src.width
    let xs := vElems src.width n (get a)
    let ys := vElems src.width n (get b)
    let part := fun (e : Nat) => ((xs.drop (k * e)).take k).zip ((ys.drop (k * e)).take k)
    .ok (mapElems 32 (((vElems 32 (vecN w 32) (get d)).zip (List.range (vecN w 32))).map (fun e =>
      if dst = .f32 then dotVal .f32 r src e.1 (part e.2)
      else (toU 32 ((part e.2).foldl (fun t p => t + toS src.width p.1 * toS src.width p.2) (toS 32 e.1)), excNone))))) s

/-! ## Moving elements (R241) -/

def execVperm (h : Hdr) (w : Bool) (f : Fmt) (d a b c : VReg) (s : State) : Host.Outcome State Fault Refusal :=
  vecOp (.vperm h w f d a b c) w 2 [vr w d, vr w a, vr w b, vr w c] (vr w d) [a, b, c] (fun _ _ _ get =>
    let n := vecN w f.width
    let tab := vElems f.width n (get a) ++ vElems f.width n (get c)
    .ok (mapElems f.width ((vElems f.width n (get b)).map (fun x => (tab.getD x 0, excNone))))) s

def execVbcast (h : Hdr) (w : Bool) (f : Fmt) (d : VReg) (a : GReg) (s : State) : Host.Outcome State Fault Refusal :=
  vecOp (.vbcast h w f d a) w 1 [vr w d, .g a] (vr w d) [] (fun _ _ x _ =>
    .ok (vPack f.width (List.replicate (vecN w f.width) (x.getF f.width a)), excNone)) s

def execVmovg (h : Hdr) (w : Bool) (f : Fmt) (d : GReg) (a : VReg) (idx : BitVec 8) (s : State) : Host.Outcome State Fault Refusal :=
  vecOp (.vmovg h w f d a idx) w 2 [.g d, vr w a] (.g d) [a] (fun _ _ _ get =>
    if vecN w f.width ≤ idx.toNat then .trap 0x1C 0
    else .ok (elemWord f ((vElems f.width (vecN w f.width) (get a)).getD idx.toNat 0), excNone)) s

def execVins (h : Hdr) (w : Bool) (f : Fmt) (d : VReg) (a : GReg) (idx : BitVec 8) (s : State) : Host.Outcome State Fault Refusal :=
  vecOp (.vins h w f d a idx) w 1 [vr w d, .g a] (vr w d) [d] (fun _ _ x get =>
    if vecN w f.width ≤ idx.toNat then .trap 0x1C 0
    else .ok (vPack f.width ((vElems f.width (vecN w f.width) (get d)).set idx.toNat (x.getF f.width a)), excNone)) s

/-! ## Conversion (R242) -/

/-- The drawn 24-bit number of stochastic rounding (R193). -/
def drawOf (key : BitVec 128) (tensor wcount row col : BitVec 32) : Nat := (osier (tensor ++ wcount ++ row ++ col) key).toNat % 2 ^ 24

/-- One value converted between any two formats. -/
def convElem (dst src : Fmt) (r : Rnd) (ovf : Word) (draw x : Nat) : Nat × Exc :=
  match src.isInt, dst.isInt with
  | false, false => fConv dst src r ovf draw x
  | true, false => intToF dst r ovf draw (toS src.width x)
  | false, true => let q := fToInt dst.width src r draw x; (toU dst.width q.1, q.2)
  | true, true => (toU dst.width (satS dst.width (toS src.width x)), excNone)

def rsRegs (rs : Option RsOp) : List Reg := match rs with
  | some o => [.g o.gt, .g o.gr]
  | none => []

/-- The draw for source element `k`. -/
def rsDraw (x : Ctx) (f : Frame) (rs : Option RsOp) (k : Nat) : Nat :=
  match rs with
  | none => 0
  | some o =>
    let gt := f.getG o.gt
    let gr := f.getG o.gr
    drawOf (fget 0 x.keys o.key.toNat) (gt.extractLsb' 0 32) (gt.extractLsb' 32 32) (gr.extractLsb' 0 32)
      (gr.extractLsb' 32 32 + BitVec.ofNat 32 k)

def execVcvt (h : Hdr) (w : Bool) (dst src : Fmt) (r : Rnd) (d a : VReg) (part : BitVec 3) (rs : Option RsOp) (s : State) :
    Host.Outcome State Fault Refusal :=
  let narrow := decide (dst.width < src.width)
  vecOp (.vcvt h w dst src r d a part rs) w 3 ([vr w d, vr w a] ++ rsRegs rs) (vr w d) (if narrow then [d, a] else [a])
    (fun s _ f get =>
      let x := s.ctx f.task.ctx
      let ns := vecN w src.width
      let nd := vecN w dst.width
      let base := if narrow then 0 else part.toNat * nd
      let es := ((vElems src.width ns (get a)).drop base).take (min ns nd)
      let qs := (es.zip (List.range es.length)).map (fun e => convElem dst src r x.ovf (rsDraw x f rs (base + e.2)) e.1)
      let q := mapElems dst.width qs
      if narrow then
        let old := vElems dst.width nd (get d)
        .ok (vPack dst.width (old.take (part.toNat * ns) ++ qs.map (fun e => e.1) ++ old.drop (part.toNat * ns + ns)), q.2)
      else .ok q) s

/-! ## Chains (R243–R246) -/

/-- What an engine command keeps of its issue. -/
def State.cmdOf (s : State) (n : Nat) (f : Frame) (pages : List Nat) : Cmd :=
  { id := s.uid, frame := f.uid, task := f.task, prio := f.prio, ovf := (s.ctx f.task.ctx).ovf, view := f.view,
    set := s.setOf n f, pages := distinct pages }

/-- The frame with the command's successor held (R274, R277). -/
def Succ.attach (q : Succ) (f : Frame) (id : Nat) (g : Frame → Act) : Act :=
  match q with
  | .none => g f
  | .some st f1 => g (f1.hold (.start st (Option.some id)))
  | .bad c => .trap c 0

def execVchain (h : Hdr) (dst src : Fmt) (r : Rnd) (pd ps0 ps1 : Ptr) (gk gn gs : GReg) (ops : List (ChainOp × ChainSrc)) (s : State) :
    Host.Outcome State Fault Refusal :=
  .next (issue (.vchain h dst src r pd ps0 ps1 gk gn gs ops) ([.a (Ptr.reg pd), .a (Ptr.reg ps0), .a (Ptr.reg ps1), .g gk, .g gn, .g gs] ++ s.succRegs gs)
    [] false s (fun n c f =>
      let x := s.ctx f.task.ctx
      let cnt := (f.getG gn).toNat
      waitAct (decide (4 ≤ (c.lane f.lane).cq.length)) (if 65536 < cnt then .trap 0x23 0
      else (x.successor f gs 0x23).attach f s.uid (fun f1 =>
        let nd := cnt * fmtBytes dst
        let ns := cnt * fmtBytes src
        ((f.rangeCheck x (f.ptr pd) nd (fmtBytes dst)).bind (fun _ =>
          (f.rangeCheck x (f.ptr ps0) ns (fmtBytes src)).bind (fun _ => f.rangeCheck x (f.ptr ps1) ns (fmtBytes src)))).act (fun _ =>
          padAct c [(f.ptr ps0, ns), (f.ptr ps1, ns)] [(f.ptr pd, nd)]
            (let k := f.getG gk
            let q : ChainCmd :=
              { cmd := s.cmdOf n f [], dst, src, rnd := r, pd := f.ptr pd, ps0 := f.ptr ps0, ps1 := f.ptr ps1, n := cnt,
                c0 := k.extractLsb' 0 32, c1 := k.extractLsb' 32 32, ops }
            let c1 := (c.setTop (f1.wrote x (f.ptr pd) nd)).setLane f.lane { c.lane f.lane with cq := (c.lane f.lane).cq ++ [q] }
            .go (s.setCore n c1).fresh
              { Ret.plain with writes := f.ptrStep pd nd ++ f.ptrStep ps0 ns ++ f.ptrStep ps1 ns }))))))

/-- One operation of a chain on FP32 patterns. -/
def chainOp (op : ChainOp) (t u : Nat) : Nat × Exc :=
  match op with
  | .add => fAdd .f32 .rn t u
  | .sub => fSub .f32 .rn t u
  | .mul => fMul .f32 .rn t u
  | .min => fMinMax .f32 false t u
  | .max => fMinMax .f32 true t u
  | .minp => fMinMaxP .f32 false t u
  | .maxp => fMinMaxP .f32 true t u
  | .abs => (fAbs .f32 t, excNone)
  | .neg => (fNeg .f32 t, excNone)

/-- An element of a chain: the pattern stored and the exceptions. -/
def ChainCmd.elem (q : ChainCmd) (x0 x1 : Nat) : Nat × Exc :=
  let wide := fun (x : Nat) => (fConv .f32 q.src .rn q.cmd.ovf 0 x).1
  let t := q.ops.foldl (fun (r : Nat × Exc) o =>
    let u := match o.2 with
      | .s1 => wide x1
      | .c0 => q.c0.toNat
      | .c1 => q.c1.toNat
    let v := chainOp o.1 r.1 u
    (v.1, r.2 ||| v.2)) (wide x0, excNone)
  let v := fConv q.dst .f32 q.rnd q.cmd.ovf 0 t.1
  (v.1, t.2 ||| v.2)

/-- Runs elements `e` onward, `k` of them; each write is visible to later reads. -/
def ChainCmd.run (q : ChainCmd) (n : Nat) : Nat → Nat → State → Exc → State × Exc
  | 0, _, s, x => (s, x)
  | k + 1, e, s, x =>
    let c := s.core n
    let bs := fmtBytes q.src
    let v := q.elem (c.padNat (q.ps0 + bs * e) bs) (c.padNat (q.ps1 + bs * e) bs)
    q.run n k (e + 1) (s.padStore n (q.pd + fmtBytes q.dst * e) (leBytes (fmtBytes q.dst) v.1) q.cmd.set) (x ||| v.2)

/-- An engine command has completed: exceptions are counted, its successor may leave, grants go back (R200, R245, R246). -/
def State.cmdComplete (s : State) (n id : Nat) (x : Exc) : State :=
  let s1 := s.setCore n (((s.core n).count x 0 0).returnGrants)
  (s1.commandDone n id).offers (clusterOf n)

/-- CHAIN_RUN: the oldest chain of a lane runs; one of a context that is ending is discarded (R357). -/
def execChainRun (core lane : Nat) (s : State) : Host.Outcome State Fault Refusal :=
  let c := s.core core
  match (c.lane lane).cq with
  | [] => .next s
  | q :: qs =>
    let s1 := s.setCore core (c.setLane lane { c.lane lane with cq := qs })
    if (s.ctx q.cmd.task.ctx).tearing then .next s1
    else
      let r := q.run core q.n 0 s1 excNone
      .next (r.1.cmdComplete core q.cmd.id r.2)

end Sys2Proof.Machine
end

