-- ==== Sys2Proof/Machine/Copy.lean ====
section
/-!
DEFINITION. Lines read by engines (R216, R259, R295), copy commands (R294, R295) and COPY_COMMAND_RUN.
-/

namespace Sys2Proof.Machine

/-! ## Engine reads (R259, R295) -/

/-- What an engine finds at a line: its bytes, an earlier bundle still on its way, no version, an uncorrectable line. -/
inductive Line where
  | ok (bs : List Byte)
  | wait
  | tooOld
  | dead
  deriving DecidableEq, Repr

/-- The version of a line for a command's view, which takes no entry (R259). -/
def State.engineLine (s : State) (n : Nat) (q : Cmd) (x : Src) : Line :=
  match x with
  | .data bs => .ok bs
  | .line key =>
    let own := s.writer n
    let t := s.mem.lineTags key
    let ok := if t.newer.st = .pending then q.view.included own t.newer.writer t.newer.cseq
      else !q.view.excluded own t.newer.writer t.newer.cseq
    if s.lineHeld n q.id key then .wait
    else if s.mem.isBad key then .dead
    else if ok then .ok (s.mem.newerData key)
    else if !q.view.excluded own t.older.writer t.older.cseq then .ok (s.mem.olderData key)
    else match s.mem.kept q.view own q.frame key with
      | some k => .ok k.data
      | none => .tooOld

/-- The bytes of lines in order; the first that gives none decides. -/
def State.engineLines (s : State) (n : Nat) (q : Cmd) : List Src → Line
  | [] => .ok []
  | x :: xs =>
    match s.engineLine n q x with
    | .ok bs => match s.engineLines n q xs with
      | .ok cs => .ok (bs ++ cs)
      | r => r
    | r => r

/-- A command finds no version: its task aborts at its next boundary, or, if it has retired, the context ends (R218, R259, R295,
R350). A task that has been aborted or has become a continuation record counts as retired, which is the model's choice (log 112). -/
def State.engineTooOld (s : State) (n : Nat) (q : Cmd) : State :=
  let c := s.core n
  match c.frame? q.frame with
  | some _ => (s.setCore n (c.onFrame q.frame (fun f => { f with deferred := true }))).stopped n
  | none => s.endCtx q.task.ctx 0x0C (ordOf q.task.id)

/-- Runs `g` on the bytes of lines; `drop` is the state without the command. -/
def State.withEngine (s drop : State) (n : Nat) (q : Cmd) (xs : List Src) (g : List Byte → State) : State :=
  match s.engineLines n q xs with
  | .ok bs => g bs
  | .wait => s
  | .tooOld => drop.engineTooOld n q
  | .dead => drop.endCtx q.task.ctx 0x04 (ordOf q.task.id)

/-! ## Issue (R294) -/

/-- Puts an address and its kind into the order of addresses. -/
def insertAddr (e : Word × Kind) : List (Word × Kind) → List (Word × Kind)
  | [] => [e]
  | x :: xs => if x.1.toNat < e.1.toNat then x :: insertAddr e xs else e :: x :: xs

/-- The places of lines, translated in increasing address (R391); the result is in the order of the lines. -/
def State.placeSorted (s : State) (n ctx : Nat) (wr : Bool) (ks : List (Word × Kind)) :
    Except (Res × Word) (List Place) × State :=
  let sorted := ks.foldr insertAddr []
  let r := s.placeAll n ctx wr sorted
  match r.1 with
  | .error e => (.error e, r.2)
  | .ok ps =>
    let m : FMap Place := (sorted.zip ps).map (fun e => (e.1.1.toNat, e.2))
    (.ok (ks.map (fun e => fget (.window 0) m e.1.toNat)), r.2)

/-- The lines of a copy: rows of `rowlen` bytes at a distance of `stride`. -/
def copyAddrs (ga : Word) (n : Nat) (stride : Word) (rowlen : Nat) : List Word :=
  (List.range (n / 64)).map (fun k => ga + stride * BitVec.ofNat 64 (64 * k / rowlen) + BitVec.ofNat 64 (64 * k % rowlen))

/-- The checks of the completion word (R294). -/
def Frame.wordOk (f : Frame) (x : Ctx) (pw : Option AReg) (pad n : Nat) : Bool :=
  match pw with
  | none => true
  | some a =>
    let w := (f.getA a).toNat
    w % 8 == 0 && f.padRange x w 8 && !overlap (w, 8) (pad, n)

/-- The memory operand: its kind, then its alignment. An address of no kind breaks the rule of field A, whose cause R294 gives; a
vault address that names no vault line has the cause of R185. -/
def State.copyKinds (s : State) (x : Ctx) (wr : Bool) (ga : Word) (as : List Word) : Chk (List (Word × Kind)) :=
  if !isVaultAddr ga && !isTranslated ga then .trap 0x2C 0
  else (s.kindAll x wr (linePieces as)).bind (fun ks => if ga.toNat % 64 ≠ 0 then .trap 0x2C 0 else .ok ks)

/-- A copy command at issue. A row length that does not divide the byte count is a `K` value outside the table, which only the
registers show (log 47). -/
def copyOp (i : Instr) (kind : CpyKind) (p : Ptr) (a gn gv gs : GReg) (pw : WordOp) (stride : Word)
    (rowlen : Option Nat) (s : State) : Host.Outcome State Fault Refusal :=
  .next (issue i ([.a (Ptr.reg p), .g a, .g gn, .g gv, .g gs] ++ pw.reg?.toList.map .a ++ s.succRegs gs) [] false s (fun n c f =>
    let x := s.ctx f.task.ctx
    let cnt := (f.getG gn).toNat
    let row := rowlen.getD cnt
    let wr := decide (kind = .f)
    let pad := f.ptr p
    let ga := f.getG a
    waitAct (decide (8 ≤ c.copyq.length)) (if cnt = 0 ∨ 196608 < cnt ∨ cnt % 64 ≠ 0 then .trap 0x2C 0
    else (x.successor f gs 0x2C).attach f s.uid (fun f1 =>
      if cnt % row ≠ 0 then .trap 0x03 0
      else ((f.bankCheck x pad cnt 64 0x2C 0x2C).bind (fun _ =>
        (s.copyKinds x wr ga (copyAddrs ga cnt stride row)).bind (fun ks =>
          if f.wordOk x pw.reg? pad cnt then .ok ks else .trap 0x2C 0))).act (fun ks =>
        let r := s.placeSorted n f.task.ctx wr ks
        match r.1 with
        | .error e => resAct r.2 n f e.1 e.2
        | .ok ps =>
          let word := pw.reg?.map (fun w => ((f.getA w).toNat, f.getG gv))
          let dst := (if wr then [] else [(pad, cnt)]) ++ (word.map (fun w => ((w.1, 8) : Range))).toList
          let s1 := r.2
          let c1 := s1.core n
          padAct c1 (if wr then [(pad, cnt)] else []) dst
            (let q : CpyCmd :=
              { cmd := s1.cmdOf n f (ps.filterMap (fun p => match p with
                  | .line _ _ page => page
                  | .window _ => none)),
                kind, pad, n := cnt,
                lines := (ps.zip ks).map (fun e => (s1.source f e.2.1 e.1).1),
                addrs := (ps.zip ks).map (fun e => (e.2.1, match e.1 with
                  | .line _ _ page => page
                  | .window _ => none)),
                word, sent := false }
            let f2 := dst.foldl (fun g r => g.wrote x r.1 r.2) { f1 with horizon := f1.horizon || wr }
            .go (s1.setCore n { c1.setTop f2 with copyq := c1.copyq ++ [q] }).fresh
              { Ret.plain with writes := f.ptrStep p cnt }))))))

def execCpys (h : Hdr) (p : Ptr) (a gn gv gs : GReg) (pw : WordOp) (s : State) : Host.Outcome State Fault Refusal :=
  copyOp (.cpys h p a gn gv gs pw) .s p a gn gv gs pw 0 none s
def execCpyc (h : Hdr) (op : CpyOp) (f : Fmt) (r : Rnd) (p : Ptr) (a gn gv gs : GReg) (pw : WordOp) (s : State) :
    Host.Outcome State Fault Refusal :=
  copyOp (.cpyc h op f r p a gn gv gs pw) (.c op f r) p a gn gv gs pw 0 none s
def execCpyg (h : Hdr) (p : Ptr) (a gn gv gs : GReg) (pw : WordOp) (stride : BitVec 32) (rowlen : BitVec 16) (s : State) :
    Host.Outcome State Fault Refusal :=
  copyOp (.cpyg h p a gn gv gs pw stride rowlen) .g p a gn gv gs pw (stride.signExtend 64) (some rowlen.toNat) s
def execCpyf (h : Hdr) (p : Ptr) (a gn gv gs : GReg) (pw : WordOp) (s : State) : Host.Outcome State Fault Refusal :=
  copyOp (.cpyf h p a gn gv gs pw) .f p a gn gv gs pw 0 none s

/-! ## Running (R295) -/

/-- One element of a combining copy. -/
def cpyVal (op : CpyOp) (f : Fmt) (r : Rnd) (a b : Nat) : Nat × Exc :=
  match op with
  | .add => if f.isInt then (toU f.width (a + b), excNone) else fAdd f r a b
  | .min => elemMinMax f false false a b
  | .max => elemMinMax f true false a b
  | .minp => if f.isInt then elemMinMax f false false a b else fMinMaxP f false a b
  | .maxp => if f.isInt then elemMinMax f true false a b else fMinMaxP f true a b

/-- What a copy stores in scratchpad. -/
def CpyKind.result (k : CpyKind) (old mem : List Byte) : List Byte × Exc :=
  match k with
  | .c op fm r =>
    let q := ((elemsOf fm.width old).zip (elemsOf fm.width mem)).map (fun e => cpyVal op fm r e.1 e.2)
    (bytesOfElems fm.width (q.map (fun e => e.1)), q.foldl (fun x e => x ||| e.2) excNone)
  | .s | .g | .f => (mem, excNone)

/-- The end of a copy: the completion word, then the successor. -/
def State.copyEnd (s : State) (n : Nat) (q : CpyCmd) (x : Exc) : State :=
  let s1 := match q.word with
    | some w => s.padStore n w.1 (bytesOf 8 w.2) q.cmd.set
    | none => s
  s1.cmdComplete n q.cmd.id x

/-- The lines of a `CPYF`, and its bundles of at most 128 lines. -/
def CpyCmd.outLines (q : CpyCmd) (bs : List Byte) : List BLine :=
  ((q.lines.zip q.addrs).zip (List.range q.lines.length)).filterMap (fun e => match e.1.1 with
    | .line key => some (homeLine key e.1.2.2 e.1.2.1 0 ((bs.drop (64 * e.2)).take 64) none)
    | .data _ => none)

def chunks (k : Nat) : Nat → List BLine → List (List BLine)
  | 0, _ => []
  | m + 1, ls => if ls.isEmpty then [] else ls.take k :: chunks k m (ls.drop k)

def State.copySend (s : State) (n : Nat) (q : CpyCmd) : State :=
  let bs := (s.core n).padRead q.pad q.n
  let made := fun (ls : List BLine) =>
    { uid := 0, seq := 0, ctx := q.cmd.task.ctx, scope := .system, lines := ls, effects := [], set := [], id := q.cmd.task.id,
      prio := q.cmd.prio, samp := [], fclose := none, copy := some q.cmd.id, declared := false, atHome := false, settleAt := 0, quietAt := 0 : Closed }
  ((chunks 128 25 (q.outLines bs)).foldl (fun s ls => s.addClosed n (made ls)) s).progress n

/-- Whether a line of the command now lies in a generator window (R182). -/
def CpyCmd.inWindow (q : CpyCmd) (x : Ctx) : Bool :=
  q.addrs.any (fun a => isTranslated a.1 && (x.window? a.1.toNat).isSome)

/-- Whether another core of the cluster has a copy of higher task priority that waits to start (R17, R371, R377). -/
def State.copyWaits (s : State) (n : Nat) (q : CpyCmd) : Bool :=
  (List.range 4).any (fun p => match (s.core (4 * clusterOf n + p)).copyq with
    | [] => false
    | x :: _ => !x.sent && decide (q.cmd.prio < x.cmd.prio))

/-- COPY_COMMAND_RUN: the oldest copy of a core runs. A `CPYF` sends its bundles first, and ends once they are settled. -/
def execCopyCommandRun (core : Nat) (s : State) : Host.Outcome State Fault Refusal :=
  let c := s.core core
  match c.copyq with
  | [] => .next s
  | q :: qs =>
    let drop := s.setCore core { c with copyq := qs }
    let k := q.cmd.task.ctx
    if (s.ctx k).tearing then .next drop
    else if !q.sent && s.copyWaits core q then .next s
    else if q.kind = .f then
      if q.sent then .next (if c.closed.any (fun b => b.copy == some q.cmd.id) then s else drop.copyEnd core q excNone)
      else if c.casOpen.isSome then .next s
      else if q.inWindow (s.ctx k) then .next (drop.endCtx k 0x05 (ordOf q.cmd.task.id))
      else .next ((s.setCore core { c with copyq := { q with sent := true } :: qs }).copySend core q)
    else .next (s.withEngine drop core q.cmd q.lines (fun bs =>
      let r := q.kind.result (c.padRead q.pad q.n) bs
      (drop.padStore core q.pad r.1 q.cmd.set).copyEnd core q r.2))

end Sys2Proof.Machine
end

