-- ==== Sys2Proof/Machine/Matrix.lean ====
section
/-!
DEFINITION. Matrix instructions (R248–R268) and the steps MATRIX_COMMAND_RUN, WEAVE_SEND and WEAVE_TIMEOUT.
-/

namespace Sys2Proof.Machine

/-! ## Expansion and alignment (R252, R253) -/

/-- Whether a pattern is finite. -/
def finite (f : Fmt) (x : Nat) : Bool := match unpack f x with
  | .fin _ _ _ => true
  | .inf _ | .nan _ => false

/-- `sig`, `ex` and the shift σ of R252. -/
def sigOf (f : Fmt) (x : Nat) : Nat := x % 2 ^ fmtP f + if x / 2 ^ fmtP f % 2 ^ fmtE f = 0 then 0 else 2 ^ fmtP f
def exOf (f : Fmt) (x : Nat) : Nat := max 1 (x / 2 ^ fmtP f % 2 ^ fmtE f)
def shiftOf (f : Fmt) : Nat :=
  match f with
  | .e4m3 => 5
  | .e5m2 => 6
  | _ => 9

/-- `E` of a group: the largest exponent of its finite elements. -/
def groupExp (f : Fmt) (xs : List Nat) : Nat := xs.foldl (fun m x => if finite f x then max m (exOf f x) else m) 1

/-- The aligned integer of an element; an element that is not finite counts as 0. -/
def alignElem (f : Fmt) (top x : Nat) : Int :=
  if finite f x then
    let q : Int := (sigOf f x * 2 ^ (exOf f x + shiftOf f) / 2 ^ top : Nat)
    if x / signBit f % 2 = 1 then -q else q
  else 0

/-- `align`: the integers of a group and their power `G`. -/
def alignGroup (f : Fmt) (xs : List Nat) : List Int × Int :=
  let top := groupExp f xs
  (xs.map (alignElem f top), (top : Int) - fmtBias f - fmtP f - shiftOf f)

/-- Cuts a list into groups of `k`; `n` of them. -/
def groupsOf {α : Type} (k n : Nat) (l : List α) : List (List α) := (List.range n).map (fun g => (l.drop (k * g)).take k)

/-- One column of a weight image: its code bytes and its scale bytes. -/
def expandCol (wf : Fmt) (code scale : List Byte) : WCol :=
  let es := elemsOf wf.width code
  if wf = .w4 ∨ wf = .w3 then { q := es.map (toS wf.width), mult := scale.map scaleVal, bad := false }
  else
    let gs := (groupsOf 32 4 es).map (alignGroup wf)
    { q := gs.flatMap (fun g => g.1), mult := gs.map (fun g => (1, g.2)), bad := es.any (fun x => !finite wf x) }

/-- The columns of a weight image (R251). -/
def expandImage (wf : Fmt) (cnt : Nat) (bs : List Byte) : List WCol :=
  (List.range cnt).map (fun j => expandCol wf ((bs.drop (colCode wf * j)).take (colCode wf))
    ((bs.drop (colCode wf * cnt + colScale wf * j)).take (colScale wf)))

/-- A weight load into the incoming slot. -/
def Lane.loadCols (l : Lane) (c0 : Nat) (cols : List WCol) : Lane := { l with inc := fsetAll WCol.zero l.inc c0 cols }
def Lane.swap (l : Lane) : Lane := { l with act := l.inc, inc := l.act }

/-! ## A step of a pass (R254, R255) -/

/-- ⌊log2 |v × 2^e|⌋ of a nonzero term. -/
def termLog (t : Int × Int) : Int := (ilog2 t.1.natAbs : Int) + t.2

/-- A term as a multiple of 2^q, truncated toward zero. -/
def truncAt (q : Int) (t : Int × Int) : Int :=
  if q ≤ t.2 then t.1 * 2 ^ (t.2 - q).toNat else Int.tdiv t.1 (2 ^ (q - t.2).toNat)

/-- Whether v × 2^q rounds to a tiny value (R192). -/
def isTiny (v q : Int) : Bool :=
  let t := roundMag (fmtP .f32) none .rn (decide (v < 0)) v.natAbs q false false
  v != 0 && decide (expOf t.1 t.2.1 < expMin .f32)

/-- `window_round` of terms v × 2^e. Inexact compares the result with the exact sum. -/
def windowRound (ts : List (Int × Int)) : Nat × Exc :=
  let nz := ts.filter (fun t => t.1 != 0)
  match nz with
  | [] => (0, excNone)
  | t :: _ =>
    let q := nz.foldl (fun m t => max m (termLog t)) (termLog t) - 123
    let sum : Int := nz.foldl (fun (s : Int) t => s + truncAt q t) 0
    let lo := nz.foldl (fun m t => min m t.2) (min q (-149))
    let exact : Int := nz.foldl (fun (s : Int) t => s + t.1 * 2 ^ (t.2 - lo).toNat) 0
    let r := roundInt .f32 .rn none sum q false
    if r.2 &&& excOverflow ≠ 0 then r
    else
      let res := match unpack .f32 r.1 with
        | .fin n m e => atScale n m e lo
        | .inf _ | .nan _ => 0
      if res = exact then (r.1, excNone) else (r.1, if isTiny sum q then excUnderflow ||| excInexact else excInexact)

/-- Σ q × w over one group. -/
def dotInt (xs ys : List Int) : Int := (xs.zip ys).foldl (fun s e => s + e.1 * e.2) 0

/-- One accumulator element after a step. `row` are the aligned groups of the activation row, `bad` whether it holds a
non-finite activation. -/
def accElem (row : List (List Int × Int)) (bad z : Bool) (col : WCol) (old : Nat) : Nat × Exc :=
  if !z && isNan .f32 old then (quieten .f32 old, if isSnan .f32 old then excInvalid else excNone)
  else if bad || col.bad then invalidNan .f32
  else match (if z then FVal.fin false 0 0 else unpack .f32 old) with
    | .inf _ | .nan _ => (old, excNone)
    | .fin n m e =>
      let ts := ((row.zip (groupsOf 32 4 col.q)).zip (List.range 4)).map (fun g =>
        let w := col.mult.getD g.2 (0, 0)
        (dotInt g.1.1.1 g.1.2 * w.1, g.1.1.2 + w.2))
      windowRound (ts ++ [(if n then -(m : Int) else m, e)])

/-- A step: the accumulator with the tile's products added, and the exceptions. -/
def Lane.step (l : Lane) (af : Fmt) (z : Bool) (tile : List Byte) : Lane × Exc :=
  let cols := (List.range 128).map (fun n => fget WCol.zero l.act n)
  let es := elemsOf af.width tile
  let rows := (List.range 32).map (fun i =>
    let xs := (es.drop (128 * i)).take 128
    let gs := (groupsOf 32 4 xs).map (alignGroup af)
    let bad := xs.any (fun x => !finite af x)
    mapElems 32 ((cols.zip (vElems 32 128 (fget 0 l.acc i).toNat)).map (fun e => accElem gs bad z e.1 e.2)))
  ({ l with acc := fsetAll 0 [] 0 (rows.map (fun r => BitVec.ofNat 4096 r.1)) }, rows.foldl (fun x r => x ||| r.2) excNone)

/-! ## Issue (R249, R256–R266) -/

/-- A matrix instruction that reads: it needs the lane guard (R249). -/
def matIssue (i : Instr) (regs : List Reg) (s : State) (body : Nat → Core → Frame → Act) :
    Host.Outcome State Fault Refusal :=
  .next (issue i regs [] false s (fun n c f => if !f.laneClaimed then .trap 0x22 0 else body n c f))

/-- Whether an entry of the queue is a command; a register read is none. -/
def MatOp.isCmd : MatOp → Bool
  | .mv .. | .rd .. => false
  | .mwl .. | .mwlv .. | .swap | .mul .. | .pass .. | .weave .. | .zero | .load .. | .store .. | .mvTo .. => true
def Lane.full (l : Lane) : Bool := decide (4 ≤ (l.mq.filter (fun q => q.op.isCmd)).length)

/-- A matrix command: while the queue of its lane is full it does not issue (R257). -/
def matCmd (i : Instr) (regs : List Reg) (s : State) (body : Nat → Core → Frame → Act) : Host.Outcome State Fault Refusal :=
  .next (issue i regs [] false s (fun n c f => waitAct (c.lane f.lane).full (if !f.laneClaimed then .trap 0x22 0 else body n c f)))

/-- Enters a command; `f1` is the frame after it, `ws` the pointer results. -/
def matPush (s : State) (n : Nat) (f f1 : Frame) (op : MatOp) (pages : List Nat) (ws : List Write) : Act :=
  let c := s.core n
  let l := c.lane f.lane
  padAct c op.srcs op.dsts
    (.go (s.setCore n ((c.setTop (op.dsts.foldl (fun g r => g.wrote (s.ctx f.task.ctx) r.1 r.2) f1)).setLane f.lane
      { l with mq := l.mq ++ [{ cmd := s.cmdOf n f pages, op }] })).fresh { Ret.plain with writes := ws })

/-- A register read that the queue orders. -/
def matRead (s : State) (n : Nat) (f : Frame) (dst : List Reg) (op : MatOp) : Act :=
  let c := s.core n
  let l := c.lane f.lane
  .go (s.setCore n ((c.setTop { f with await := f.await ++ dst }).setLane f.lane
    { l with mq := l.mq ++ [{ cmd := s.cmdOf n f [], op }] })).fresh Ret.plain

def execMwl (h : Hdr) (wf : Fmt) (p : Ptr) (c0 cm1 : BitVec 7) (s : State) : Host.Outcome State Fault Refusal :=
  matCmd (.mwl h wf p c0 cm1) [.a (Ptr.reg p)] s (fun n _ f =>
    let cnt := cm1.toNat + 1
    let k := imageBytes wf cnt
    if 128 < c0.toNat + cnt then .trap 0x24 0
    else (f.bankCheck (s.ctx f.task.ctx) (f.ptr p) k 64 0x19 0x24).act (fun _ =>
      matPush s n f f (.mwl wf (f.ptr p) c0.toNat cnt) [] (f.ptrStep p k)))

def execMswap (h : Hdr) (s : State) : Host.Outcome State Fault Refusal :=
  matCmd (.mswap h) [] s (fun n _ f => matPush s n f f .swap [] [])

def execMmul (h : Hdr) (af : Fmt) (z : Bool) (p : Ptr) (s : State) : Host.Outcome State Fault Refusal :=
  matCmd (.mmul h af z p) [.a (Ptr.reg p)] s (fun n _ f =>
    (f.bankCheck (s.ctx f.task.ctx) (f.ptr p) (tileBytes af) 64 0x19 0x24).act (fun _ =>
      matPush s n f f (.mul af z (f.ptr p)) [] (f.ptrStep p (tileBytes af))))

/-- The lines of weight images: kinds, then the alignment of every image, then translation (R391). -/
def State.images (s : State) (n : Nat) (f : Frame) (starts : List Word) (bytes : Nat) (g : List (List Src) → List Nat → State → Act) :
    Act :=
  (s.kindAll (s.ctx f.task.ctx) false (starts.flatMap (fun a => piecesOf a bytes))).act (fun ks =>
    match starts.find? (fun a => a.toNat % 64 != 0) with
    | some a => .trap 0x19 a
    | none =>
      let r := s.placeSorted n f.task.ctx false ks
      match r.1 with
      | .error e => resAct r.2 n f e.1 e.2
      | .ok ps =>
        let srcs := (ps.zip ks).map (fun e => (r.2.source f e.2.1 e.1).1)
        g (groupsOf ((bytes + 63) / 64) starts.length srcs) (ps.filterMap (fun p => match p with
          | .line _ _ page => page
          | .window _ => none)) r.2)

def execMwlv (h : Hdr) (wf : Fmt) (a : GReg) (c0 cm1 : BitVec 7) (s : State) : Host.Outcome State Fault Refusal :=
  matCmd (.mwlv h wf a c0 cm1) [.g a] s (fun n _ f =>
    let cnt := cm1.toNat + 1
    if 128 < c0.toNat + cnt then .trap 0x24 0
    else s.images n f [f.getG a] (imageBytes wf cnt) (fun imgs pages s1 =>
      matPush s1 n f f (.mwlv wf (imgs.flatMap (fun i => i)) c0.toNat cnt) pages []))

/-- The frame with a matrix command's successor held (R267). -/
def matSucc (s : State) (n : Nat) (f : Frame) (gs : GReg) (g : Frame → Act) : Act :=
  ((s.ctx f.task.ctx).tileSuccessor f n gs).attach f s.uid g

def execMpass (h : Hdr) (af wf : Fmt) (z : Bool) (p : Ptr) (b gs : GReg) (sm1 : BitVec 8) (stride : BitVec 32) (s : State) :
    Host.Outcome State Fault Refusal :=
  matCmd (.mpass h af wf z p b gs sm1 stride) ([.a (Ptr.reg p), .g b, .g gs] ++ s.succRegs gs) s (fun n _ f =>
    let k := sm1.toNat + 1
    let len := k * tileBytes af
    let starts := (List.range k).map (fun j => f.getG b + stride.signExtend 64 * BitVec.ofNat 64 j)
    matSucc s n f gs (fun f1 =>
      (f.bankCheck (s.ctx f.task.ctx) (f.ptr p) len 64 0x19 0x24).act (fun _ =>
        s.images n f starts (imageBytes wf 128) (fun imgs pages s1 =>
          matPush s1 n f f1 (.pass af wf z (f.ptr p) imgs) pages (f.ptrStep p len)))))

/-- The cores of the partners of a weave command (R265): tile and slot sent to, tile and slot received from. -/
def Ctx.partners (x : Ctx) (geom : Word) (skew : Bool) : Option (Nat × Nat × Nat × Nat) :=
  let r := (geom.extractLsb' 39 5).toNat + 1
  let c := (geom.extractLsb' 36 3).toNat + 1
  let ty := (geom.extractLsb' 31 5).toNat
  let tx := (geom.extractLsb' 28 3).toNat
  let g := x.group (geom.extractLsb' 0 8).toNat
  let dx := if skew then ty else 1
  let dy := if skew then tx else 1
  let at_ := fun (y : Int) (z : Int) => x.tileCore g ((y % r).toNat * c + (z % c).toNat)
  match at_ ty (tx - dx), at_ (ty - dy) tx, at_ ty (tx + dx), at_ (ty + dy) tx with
  | some a, some b, some d, some e => some (a, b, d, e)
  | _, _, _, _ => none

/-- A weave command. `z` is absent for `MSKEW`. One that lacks both the lane guard and a grid tile raises the lane guard's cause, which is
the model's choice (log 101). -/
def weaveOp (i : Instr) (regs : List Reg) (af : Fmt) (z : Option Bool) (p q : AReg) (gs : GReg) (s : State) :
    Host.Outcome State Fault Refusal :=
  matCmd i regs s (fun n c f =>
    let x := s.ctx f.task.ctx
    let a := (f.getA p).toNat
    let b := (f.getA q).toNat
    let t := tileBytes af
    let grid := (f.geom.extractLsb' 0 8).toNat
    if !f.geom.getLsbD 49 || !f.geom.getLsbD 48 then .trap 0x25 0
    else matSucc s n f gs (fun f1 =>
      ((f.bankCheck x a t 64 0x19 0x24).bind (fun _ => f.bankCheck x b t 64 0x19 0x24)).act (fun _ =>
        if overlap (a, t) (b, t) then .trap 0x24 0
        else match x.partners f.geom z.isNone with
          | none => .wait
          | some w =>
            let k := fget 0 c.weaves grid
            matPush (s.setCore n { c with weaves := fset 0 c.weaves grid (k + 1) }) n f f1
              (.weave af z a { grid, count := k, buf := b, tileTo := w.1, slotTo := w.2.1, tileFrom := w.2.2.1, slotFrom := w.2.2.2,
                               started := false, tileSent := false, slotSent := false, tileGot := false, slotGot := false,
                               exc := 0 }) [] [])))

def execMweave (h : Hdr) (af : Fmt) (z : Bool) (p q : AReg) (gs : GReg) (s : State) : Host.Outcome State Fault Refusal :=
  weaveOp (.mweave h af z p q gs) ([.a p, .a q, .g gs] ++ s.succRegs gs) af (some z) p q gs s
def execMskew (h : Hdr) (af : Fmt) (p q : AReg) (s : State) : Host.Outcome State Fault Refusal :=
  weaveOp (.mskew h af p q) [.a p, .a q] af none p q 0 s

def execMacz (h : Hdr) (s : State) : Host.Outcome State Fault Refusal :=
  matCmd (.macz h) [] s (fun n _ f => matPush s n f f .zero [] [])

def execMacld (h : Hdr) (p : Ptr) (row rm1 : BitVec 5) (s : State) : Host.Outcome State Fault Refusal :=
  matCmd (.macld h p row rm1) [.a (Ptr.reg p)] s (fun n _ f =>
    let k := rm1.toNat + 1
    if 32 < row.toNat + k then .trap 0x24 0
    else (f.bankCheck (s.ctx f.task.ctx) (f.ptr p) (512 * k) 64 0x19 0x24).act (fun _ =>
      matPush s n f f (.load (f.ptr p) row.toNat k) [] (f.ptrStep p (512 * k))))

/-- The operands of stochastic rounding as they stand at issue (R193, R263). -/
def Frame.stoch (f : Frame) (x : Ctx) (o : RsOp) : Stoch :=
  { key := fget 0 x.keys o.key.toNat, tensor := (f.getG o.gt).extractLsb' 0 32, wcount := (f.getG o.gt).extractLsb' 32 32,
    row := (f.getG o.gr).extractLsb' 0 32, col := (f.getG o.gr).extractLsb' 32 32 }

def execMacst (h : Hdr) (fm : Fmt) (r : Rnd) (p : Ptr) (row rm1 : BitVec 5) (rs : Option RsOp) (s : State) :
    Host.Outcome State Fault Refusal :=
  matCmd (.macst h fm r p row rm1 rs) (.a (Ptr.reg p) :: rsRegs rs) s (fun n _ f =>
    let x := s.ctx f.task.ctx
    let k := rm1.toNat + 1
    let len := k * 128 * fmtBytes fm
    if 32 < row.toNat + k then .trap 0x24 0
    else (f.bankCheck x (f.ptr p) len 64 0x19 0x24).act (fun _ =>
      matPush s n f f (.store fm r (f.ptr p) row.toNat k (rs.map (f.stoch x))) [] (f.ptrStep p len)))

def execMacmv (h : Hdr) (d : VReg) (row : BitVec 5) (seg : BitVec 4) (s : State) : Host.Outcome State Fault Refusal :=
  .next (issue (.macmv h d row seg) [.v d] [.v d] false s (fun n _ f => f.vecMode false
    (matRead s n f [.v d] (.mv f.uid d row.toNat seg.toNat))))

def execMacmvTo (h : Hdr) (row : BitVec 5) (seg : BitVec 4) (a : VReg) (s : State) : Host.Outcome State Fault Refusal :=
  .next (issue (.macmvTo h row seg a) [.v a] [] false s (fun n c f => waitAct (c.lane f.lane).full (f.vecMode false
    (matPush s n f f (.mvTo row.toNat seg.toNat a (c.getV f.lane a)) [] []))))

def execMacrd (h : Hdr) (d : GReg) (row : BitVec 5) (col : BitVec 7) (s : State) : Host.Outcome State Fault Refusal :=
  matIssue (.macrd h d row col) [.g d] s (fun n _ f => matRead s n f (awaitReg d) (.rd f.uid d row.toNat col.toNat))

/-! ## Running (R257, R265, R266) -/

/-- Bits of an accumulator row. -/
def Lane.accBits (l : Lane) (row lo n : Nat) : Nat := (fget 0 l.acc row).toNat / 2 ^ lo % 2 ^ n
def Lane.setAcc (l : Lane) (row : Nat) (v : BitVec 4096) : Lane := { l with acc := fset 0 l.acc row v }
/-- A row with its segment of eight elements replaced. -/
def putSeg (r : BitVec 4096) (seg : Nat) (v : BitVec 256) : BitVec 4096 :=
  (r &&& ~~~((BitVec.allOnes 256).setWidth 4096 <<< (256 * seg))) ||| (v.setWidth 4096 <<< (256 * seg))

/-- The bytes of stored rows, and the exceptions. -/
def Lane.storeRows (l : Lane) (f : Fmt) (r : Rnd) (ovf : Word) (row rows : Nat) (st : Option Stoch) : List Byte × Exc :=
  let es := (List.range rows).flatMap (fun i =>
    ((vElems 32 128 (fget 0 l.acc (row + i)).toNat).zip (List.range 128)).map (fun e =>
      if f = .f32 then (e.1, excNone)
      else
        let draw := match st with
          | some o => drawOf o.key o.tensor o.wcount (o.row + BitVec.ofNat 32 (row + i)) (o.col + BitVec.ofNat 32 e.2)
          | none => 0
        fConv f .f32 r ovf draw e.1))
  (bytesOfElems f.width (es.map (fun e => e.1)), es.foldl (fun x e => x ||| e.2) excNone)

/-- The steps of `MPASS` (R262). -/
def Lane.passes (l : Lane) (af wf : Fmt) (z : Bool) : List (List Byte × List Byte) → Lane × Exc
  | [] => (l, excNone)
  | e :: es =>
    let r := (l.loadCols 0 (expandImage wf 128 e.1)).swap.step af z e.2
    let q := r.1.passes af wf false es
    (q.1, r.2 ||| q.2)

/-- The command at the head of a lane's queue is a weave command of a grid and a count that has started. -/
def Lane.weaving (l : Lane) (grid count : Nat) : Bool :=
  match l.mq with
  | q :: _ => (match q.op with
    | .weave _ _ _ w => w.grid == grid && w.count == count && w.started
    | .mwl .. | .mwlv .. | .swap | .mul .. | .pass .. | .zero | .load .. | .store .. | .mv .. | .mvTo .. | .rd .. => false)
  | [] => false
/-- The lane of a core whose weave command is paired and has started. -/
def Core.weaveLane (c : Core) (grid count : Nat) : Option Nat := [0, 1, 2, 3].find? (fun l => (c.lane l).weaving grid count)

/-- Changes the weave command at the head of a queue. -/
def Lane.onWeave (l : Lane) (g : Weave → Weave) : Lane :=
  match l.mq with
  | q :: qs => (match q.op with
    | .weave af z a w => { l with mq := { q with op := .weave af z a (g w) } :: qs }
    | .mwl .. | .mwlv .. | .swap | .mul .. | .pass .. | .zero | .load .. | .store .. | .mv .. | .mvTo .. | .rd .. => l)
  | [] => l

def Weave.done (w : Weave) : Bool := w.tileSent && w.slotSent && w.tileGot && w.slotGot

/-- Ends a command whose lane state is `l`. -/
def State.matEnd (s : State) (n lane : Nat) (l : Lane) (id : Nat) (x : Exc) : State :=
  (s.setCore n ((s.core n).setLane lane { l with mq := l.mq.tail })).cmdComplete n id x

/-- Runs the command `q` at the head of the queue of lane `l`. An `MPASS` of which any image is too old has no effect at all, which is the
model's choice (log 113). -/
def State.matRun (s : State) (n lane : Nat) (l : Lane) (q : MatCmd) : State :=
  let c := s.core n
  let fin := fun (l : Lane) (x : Exc) => s.matEnd n lane l q.cmd.id x
  let drop := s.setCore n (c.setLane lane { l with mq := l.mq.tail })
  match q.op with
  | .mwl wf a c0 cnt => fin (l.loadCols c0 (expandImage wf cnt (c.padRead a (imageBytes wf cnt)))) excNone
  | .mwlv wf img c0 cnt => s.withEngine drop n q.cmd img (fun bs => fin (l.loadCols c0 (expandImage wf cnt bs)) excNone)
  | .swap => fin l.swap excNone
  | .mul af z a =>
    let r := l.step af z (c.padRead a (tileBytes af))
    fin r.1 r.2
  | .pass af wf z a imgs => s.withEngine drop n q.cmd (imgs.flatMap (fun i => i)) (fun bs =>
      let ts := (List.range imgs.length).map (fun j => c.padRead (a + j * tileBytes af) (tileBytes af))
      let r := l.passes af wf z ((groupsOf (imageBytes wf 128) imgs.length bs).zip ts)
      fin r.1 r.2)
  | .weave af z a w =>
    if w.started then (if w.done then fin l w.exc else s)
    else
      let r := match z with
        | some z => l.step af z (c.padRead a (tileBytes af))
        | none => (l, excNone)
      s.setCore n (c.setLane lane (r.1.onWeave (fun w => { w with started := true, exc := r.2 })))
  | .zero => fin { l with acc := [] } excNone
  | .load a row rows => fin ((List.range rows).foldl (fun l i =>
      l.setAcc (row + i) (BitVec.ofNat 4096 (c.padNat (a + 512 * i) 512))) l) excNone
  | .store f r a row rows st =>
    let o := l.storeRows f r q.cmd.ovf row rows st
    (s.padStore n a o.1 q.cmd.set).matEnd n lane l q.cmd.id o.2
  | .mvTo row seg _ v => fin (l.setAcc row (putSeg (fget 0 l.acc row) seg v)) excNone
  | .mv uid d row seg =>
    let v := BitVec.ofNat 256 (l.accBits row (256 * seg) 256)
    let c1 := c.setLane lane { l with mq := l.mq.tail }
    s.setCore n (match c1.frame? uid with
      | some _ => c1.deliver uid (.v d) v
      | none => c1.setV lane d v)
  | .rd uid d row col =>
    s.setCore n ((c.setLane lane { l with mq := l.mq.tail }).deliver uid (.g d) (BitVec.ofNat 256 (l.accBits row (32 * col) 32)))

/-- MATRIX_COMMAND_RUN: the command at the head of the queue runs; a weave command starts, and ends once its data has
moved. A command of a context that is ending is discarded (R357). -/
def execMatrixCommandRun (core lane : Nat) (s : State) : Host.Outcome State Fault Refusal :=
  let c := s.core core
  let l := c.lane lane
  match l.mq with
  | [] => .next s
  | q :: qs =>
    if (s.ctx q.cmd.task.ctx).tearing then .next (s.setCore core (c.setLane lane { l with mq := qs }))
    else .next (s.matRun core lane l q)

/-- The weave command at the head of a lane that has started, with the address of its tile. -/
def Lane.weave? (l : Lane) : Option (MatCmd × Fmt × Nat × Weave) :=
  match l.mq with
  | q :: _ => (match q.op with
    | .weave af _ a w => if w.started then some (q, af, a, w) else none
    | .mwl .. | .mwlv .. | .swap | .mul .. | .pass .. | .zero | .load .. | .store .. | .mv .. | .mvTo .. | .rd .. => none)
  | [] => none

/-- WEAVE_SEND: the activation tile, or with `slot` the active slot, goes to the paired command of its receiver. -/
def execWeaveSend (core lane : Nat) (slot : Bool) (s : State) : Host.Outcome State Fault Refusal :=
  let c := s.core core
  match (c.lane lane).weave? with
  | none => .next s
  | some (_, af, a, w) =>
    let to_ := if slot then w.slotTo else w.tileTo
    if (if slot then w.slotSent else w.tileSent) || !s.fabric.links (dieOf core) (dieOf to_) then .next s
    else match (s.core to_).weaveLane w.grid w.count with
      | none => .next s
      | some k =>
        let bytes := c.padRead a (tileBytes af)
        let cols := (c.lane lane).act
        let s1 := s.setCore core (c.setLane lane ((c.lane lane).onWeave (fun w =>
          if slot then { w with slotSent := true } else { w with tileSent := true })))
        let d := s1.core to_
        let l := (d.lane k).onWeave (fun w => if slot then { w with slotGot := true } else { w with tileGot := true })
        if slot then .next (s1.setCore to_ (d.setLane k { l with inc := cols }))
        else match (d.lane k).weave? with
          | none => .next s
          | some (r, _, _, v) => .next ((s1.setCore to_ (d.setLane k l)).padStore to_ v.buf bytes r.cmd.set)

/-- WEAVE_TIMEOUT: a partner that a started command waits for has not started in time. -/
def execWeaveTimeout (core lane : Nat) (s : State) : Host.Outcome State Fault Refusal :=
  match ((s.core core).lane lane).weave? with
  | none => .next s
  | some (q, _, _, w) =>
    let away := fun (k : Nat) => ((s.core k).weaveLane w.grid w.count).isNone
    if (!w.tileSent && away w.tileTo) || (!w.slotSent && away w.slotTo) || (!w.tileGot && away w.tileFrom) ||
        (!w.slotGot && away w.slotFrom) then .next (s.endCtx q.cmd.task.ctx 0x0B (ordOf q.cmd.task.id))
    else .next s

end Sys2Proof.Machine
end

