-- ==== Sys2Proof/Machine/Sampler.lean ====
section
/-!
DEFINITION. The sampling array (R305–R316) and SAMPLER_COMMAND_RUN.
-/

namespace Sys2Proof.Machine

/-! ## Issue -/

/-- A sampler instruction (R306, R313): the queue, then ownership, then the operand's own check, then the array is taken. `op` gives
the command and the frame after it, or a trap. -/
def sampIssue (i : Instr) (regs : List Reg) (read : Bool) (s : State) (op : Nat → Frame → (SampOp → Frame → Act) → Act) :
    Host.Outcome State Fault Refusal :=
  .next (issue i regs [] false s (fun n c f =>
    let d := dieOf n
    let x := (s.die d).samp
    waitAct (decide (4 ≤ c.sampq.length)) (if x.owner.any (fun k => k != f.task.ctx) then .trap 0x2E 0
    else op n f (fun o f1 =>
        let f2 := { f1 with samp := f1.samp ++ [s.uid], horizon := f1.horizon || !read }
        let s1 := s.setCore n { c.setTop f2 with sampq := c.sampq ++ [{ cmd := s.cmdOf n f [], op := o }] }
        .go (s1.setDie d { s1.die d with samp := { x with owner := some f.task.ctx } }).fresh Ret.plain))))

/-- A setting command: its limit, and the command. -/
def sampSet (i : Instr) (regs : List GReg) (s : State) (ok : Frame → Bool) (op : Frame → SampOp) : Host.Outcome State Fault Refusal :=
  sampIssue i (regs.map .g) false s (fun _ f k => if ok f then k (op f) f else .trap 0x2F 0)

/-- A cell operand (R309). -/
def Frame.cellOk (f : Frame) (a : GReg) : Bool := decide ((f.getG a).toNat < 2 ^ 16)
def Frame.cellOf (f : Frame) (a : GReg) : Nat := (f.getG a).toNat % 2 ^ 16

def execScouple (h : Hdr) (a b : GReg) (slot : BitVec 4) (s : State) : Host.Outcome State Fault Refusal :=
  sampSet (.scouple h a b slot) [a, b] s (fun f => f.cellOk a && decide ((f.getG b).toNat < 2 ^ 24))
    (fun f => .couple (f.cellOf a) slot.toNat (f.cellOf b) ((f.getG b).extractLsb' 16 8))
def execSbias (h : Hdr) (a b : GReg) (s : State) : Host.Outcome State Fault Refusal :=
  sampSet (.sbias h a b) [a, b] s
    (fun f => f.cellOk a && decide (-2048 ≤ (f.getG b).toInt) && decide ((f.getG b).toInt ≤ 2047))
    (fun f => .bias (f.cellOf a) ((f.getG b).extractLsb' 0 12))
def execSclamp (h : Hdr) (a : GReg) (v : Bool) (s : State) : Host.Outcome State Fault Refusal :=
  sampSet (.sclamp h a v) [a] s (fun f => f.cellOk a) (fun f => .clamp (f.cellOf a) v)
def execSclampOff (h : Hdr) (a : GReg) (s : State) : Host.Outcome State Fault Refusal :=
  sampSet (.sclampOff h a) [a] s (fun f => f.cellOk a) (fun f => .clampOff (f.cellOf a))
def execScolour (h : Hdr) (a : GReg) (col : BitVec 3) (s : State) : Host.Outcome State Fault Refusal :=
  sampSet (.scolour h a col) [a] s (fun f => f.cellOk a) (fun f => .colour (f.cellOf a) col)
def execSkey (h : Hdr) (n : BitVec 4) (a b : GReg) (s : State) : Host.Outcome State Fault Refusal :=
  sampSet (.skey h n a b) [a, b] s (fun f => decide ((f.getG b).toNat < 2 ^ 32))
    (fun f => .key n (f.getG a) ((f.getG b).extractLsb' 0 32))

def execSweep (h : Hdr) (a gs : GReg) (sm1 : BitVec 8) (ncm1 : BitVec 3) (b : BitVec 4) (s : State) : Host.Outcome State Fault Refusal :=
  sampIssue (.sweep h a gs sm1 ncm1 b) ([.g a, .g gs] ++ s.succRegs gs) false s (fun _ f k =>
    let x := s.ctx f.task.ctx
    let v := (f.getG a).toNat
    let first := v % 2 ^ 16
    let cnt := v / 2 ^ 16 + 1
    if 2 ^ 32 ≤ v ∨ 65536 < first + cnt then .trap 0x2F 0
    else (x.successor f gs 0x2F).attach f s.uid
      (k (.sweep first cnt (sm1.toNat + 1) (ncm1.toNat + 1) b.toNat x.keys)))

/-- The limit of `SREAD` and `SWRITE` (R312). -/
def Frame.cells64 (f : Frame) (a : GReg) : Bool := f.cellOk a && f.cellOf a % 64 == 0

def execSread (h : Hdr) (d a : GReg) (s : State) : Host.Outcome State Fault Refusal :=
  sampIssue (.sread h d a) [.g d, .g a] true s (fun _ f k =>
    if f.cells64 a then k (.read f.uid d (f.cellOf a)) { f with await := f.await ++ awaitReg d } else .trap 0x2F 0)
def execSwrite (h : Hdr) (a b : GReg) (s : State) : Host.Outcome State Fault Refusal :=
  sampSet (.swrite h a b) [a, b] s (fun f => f.cells64 a) (fun f => .write (f.cellOf a) (f.getG b))

/-! ## Running (R307, R308, R310–R313) -/

def Sampler.cell (x : Sampler) (c : Nat) : Cell := fget Cell.zero x.cells c
def Sampler.onCell (x : Sampler) (c : Nat) (g : Cell → Cell) : Sampler :=
  { x with cells := fset Cell.zero x.cells c (g (x.cell c)) }

/-- The field of a cell: its bias and its weighted neighbours. -/
def Sampler.field (x : Sampler) (c : Nat) : Int :=
  let k := x.cell c
  (List.range 16).foldl (fun h j =>
    let e := fget (0, 0) k.nbr j
    if (x.cell e.1).s then h + e.2.toInt else h) k.bias.toInt

/-- The new value of cell `c`. -/
def Sampler.draw (x : Sampler) (key : BitVec 128) (b c : Nat) : Bool :=
  decide ((osier (x.seed ++ x.snum ++ 0#16 ++ BitVec.ofNat 16 c) key).toNat % 2 ^ 24 < sigm (x.field c) b)

/-- One class step: every cell of the class from the state before it. -/
def Sampler.classStep (x : Sampler) (key : BitVec 128) (b first cnt k : Nat) : Sampler :=
  ((List.range cnt).map (fun j => first + j)).foldl (fun y c =>
    if (x.cell c).col.toNat = k ∧ !(x.cell c).clamp then y.onCell c (fun e => { e with s := x.draw key b c }) else y) x

/-- One sweep. -/
def Sampler.sweepOnce (x : Sampler) (key : BitVec 128) (b first cnt ncol : Nat) : Sampler :=
  let y := (List.range ncol).foldl (fun y k => y.classStep key b first cnt k) x
  { y with snum := y.snum + 1 }

/-- The array after a command. -/
def Sampler.run (x : Sampler) (op : SampOp) : Sampler :=
  match op with
  | .couple c slot nbr wt => x.onCell c (fun e => { e with nbr := fset (0, 0) e.nbr slot (nbr, wt) })
  | .bias c v => x.onCell c (fun e => { e with bias := v })
  | .clamp c v => x.onCell c (fun e => { e with s := v, clamp := true })
  | .clampOff c => x.onCell c (fun e => { e with clamp := false })
  | .colour c col => x.onCell c (fun e => { e with col })
  | .sweep first cnt sweeps ncol b keys =>
    let key := fget 0 keys x.kidx.toNat
    (List.range sweeps).foldl (fun y _ => y.sweepOnce key b first cnt ncol) x
  | .read .. => x
  | .write c v => (List.range 64).foldl (fun y i =>
      if (y.cell (c + i)).clamp then y else y.onCell (c + i) (fun e => { e with s := v.getLsbD i })) x
  | .key n seed snum => { x with kidx := n, seed, snum }

/-- The values of 64 cells. -/
def Sampler.read64 (x : Sampler) (c : Nat) : Word :=
  BitVec.ofNat 64 ((List.range 64).foldl (fun v i => if (x.cell (c + i)).s then v + 2 ^ i else v) 0)

/-- The head that the array takes (R313): the highest priority, and among equal ones the command that issued first. -/
def bestSamp (hs : List (Nat × SampCmd)) : Option (Nat × SampCmd) :=
  match hs with
  | [] => none
  | e :: es => match bestSamp es with
    | none => some e
    | some r => if r.2.cmd.prio < e.2.cmd.prio ∨ (r.2.cmd.prio = e.2.cmd.prio ∧ e.2.cmd.id < r.2.cmd.id) then some e else some r
def State.sampHeads (s : State) (d : Nat) : List (Nat × SampCmd) :=
  (List.range 136).filterMap (fun k => (s.core (136 * d + k)).sampq.head?.map (fun q => (136 * d + k, q)))

/-- Held effects wait no longer for a sampler command (R314); those of a task that has resumed on another core wait there. -/
def State.sampDone (s : State) (id : Nat) : State :=
  ((s.cores.filter (fun e => e.2.closed.any (fun b => b.samp.contains id))).map (fun e => e.1)).foldl State.progress s

/-- SAMPLER_COMMAND_RUN: the array of a die takes a command and runs it whole. A command of a context that is ending is
discarded (R306). -/
def execSamplerCommandRun (die : Nat) (s : State) : Host.Outcome State Fault Refusal :=
  match bestSamp (s.sampHeads die) with
  | none => .next s
  | some (n, q) =>
    let s1 := s.setCore n { s.core n with sampq := (s.core n).sampq.tail }
    if (s.ctx q.cmd.task.ctx).tearing then .next s1
    else
      let x := (s.die die).samp
      let s2 := s1.setDie die { s1.die die with samp := x.run q.op }
      let s3 := match q.op with
        | .read uid d c => s2.setCore n ((s2.core n).deliver uid (.g d) ((x.read64 c).setWidth 256))
        | .couple .. | .bias .. | .clamp .. | .clampOff .. | .colour .. | .sweep .. | .write .. | .key .. => s2
      .next ((s3.cmdComplete n q.cmd.id excNone).sampDone q.cmd.id)

end Sys2Proof.Machine
end

