-- ==== Sys2Proof/Machine/Dispatch.lean ====
section
/-!
DEFINITION. One arm per constructor of `Instr`: the meaning of each step.
-/

namespace Sys2Proof.Machine

def exec (i : Instr) (s : State) : Host.Outcome State Fault Refusal :=
  match i with
  | .nop h x => Sys2Proof.Machine.execNop h x s
  | .add h d a b => Sys2Proof.Machine.execAdd h d a b s
  | .addi h d a imm => Sys2Proof.Machine.execAddi h d a imm s
  | .sub h d a b => Sys2Proof.Machine.execSub h d a b s
  | .mul h d a b => Sys2Proof.Machine.execMul h d a b s
  | .mulh h u d a b => Sys2Proof.Machine.execMulh h u d a b s
  | .div h u d a b => Sys2Proof.Machine.execDiv h u d a b s
  | .rem h u d a b => Sys2Proof.Machine.execRem h u d a b s
  | .and h d a b => Sys2Proof.Machine.execAnd h d a b s
  | .or h d a b => Sys2Proof.Machine.execOr h d a b s
  | .xor h d a b => Sys2Proof.Machine.execXor h d a b s
  | .andn h d a b => Sys2Proof.Machine.execAndn h d a b s
  | .shl h d a b => Sys2Proof.Machine.execShl h d a b s
  | .shr h d a b => Sys2Proof.Machine.execShr h d a b s
  | .sar h d a b => Sys2Proof.Machine.execSar h d a b s
  | .rot h d a b => Sys2Proof.Machine.execRot h d a b s
  | .shli h d a n => Sys2Proof.Machine.execShli h d a n s
  | .shri h d a n => Sys2Proof.Machine.execShri h d a n s
  | .sari h d a n => Sys2Proof.Machine.execSari h d a n s
  | .movi h d imm => Sys2Proof.Machine.execMovi h d imm s
  | .moviD h d imm => Sys2Proof.Machine.execMoviD h d imm s
  | .min h u d a b => Sys2Proof.Machine.execMin h u d a b s
  | .max h u d a b => Sys2Proof.Machine.execMax h u d a b s
  | .abs h d a => Sys2Proof.Machine.execAbs h d a s
  | .clz h d a => Sys2Proof.Machine.execClz h d a s
  | .popc h d a => Sys2Proof.Machine.execPopc h d a s
  | .ext h sx d a lo wm1 => Sys2Proof.Machine.execExt h sx d a lo wm1 s
  | .ins h d a lo wm1 => Sys2Proof.Machine.execIns h d a lo wm1 s
  | .sel h d c a b => Sys2Proof.Machine.execSel h d c a b s
  | .lea h d a b scale disp => Sys2Proof.Machine.execLea h d a b scale disp s
  | .adds h u d a b => Sys2Proof.Machine.execAdds h u d a b s
  | .hops h d a b => Sys2Proof.Machine.execHops h d a b s
  | .mad h d a b c => Sys2Proof.Machine.execMad h d a b c s
  | .cmp h cond comb d c a b => Sys2Proof.Machine.execCmp h cond comb d c a b s
  | .cmpi h cond comb d a imm => Sys2Proof.Machine.execCmpi h cond comb d a imm s
  | .pand h n d a b => Sys2Proof.Machine.execPand h n d a b s
  | .por h n d a b => Sys2Proof.Machine.execPor h n d a b s
  | .pxor h n d a b => Sys2Proof.Machine.execPxor h n d a b s
  | .pnot h d a => Sys2Proof.Machine.execPnot h d a s
  | .pset h d v => Sys2Proof.Machine.execPset h d v s
  | .ptest h d a bit => Sys2Proof.Machine.execPtest h d a bit s
  | .pget h d => Sys2Proof.Machine.execPget h d s
  | .pput h a mask => Sys2Proof.Machine.execPput h a mask s
  | .br h off => Sys2Proof.Machine.execBr h off s
  | .brFar h off => Sys2Proof.Machine.execBrFar h off s
  | .jmp h a => Sys2Proof.Machine.execJmp h a s
  | .call h d off => Sys2Proof.Machine.execCall h d off s
  | .callFar h d off => Sys2Proof.Machine.execCallFar h d off s
  | .callr h d a => Sys2Proof.Machine.execCallr h d a s
  | .ret h a => Sys2Proof.Machine.execRet h a s
  | .loop h d off => Sys2Proof.Machine.execLoop h d off s
  | .lds h x sz sx d p => Sys2Proof.Machine.execLds h x sz sx d p s
  | .sts h x sz p a => Sys2Proof.Machine.execSts h x sz p a s
  | .ldv h p a disp => Sys2Proof.Machine.execLdv h p a disp s
  | .stv h p a disp => Sys2Proof.Machine.execStv h p a disp s
  | .ld h sz sx d a disp => Sys2Proof.Machine.execLd h sz sx d a disp s
  | .st h sz a b disp => Sys2Proof.Machine.execSt h sz a b disp s
  | .ldd h f r d a b => Sys2Proof.Machine.execLdd h f r d a b s
  | .std h f p a b => Sys2Proof.Machine.execStd h f p a b s
  | .smov h x sz p q => Sys2Proof.Machine.execSmov h x sz p q s
  | .salu h x op sz p q r => Sys2Proof.Machine.execSalu h x op sz p q r s
  | .sflt h x op f rnd p q r => Sys2Proof.Machine.execSflt h x op f rnd p q r s
  | .sfma h x f rnd p q r => Sys2Proof.Machine.execSfma h x f rnd p q r s
  | .bclose h sc => Sys2Proof.Machine.execBclose h sc s
  | .fence h sc => Sys2Proof.Machine.execFence h sc s
  | .fenceFresh h => Sys2Proof.Machine.execFenceFresh h s
  | .probe h w a => Sys2Proof.Machine.execProbe h w a s
  | .pref h a => Sys2Proof.Machine.execPref h a s
  | .fopen h op f r d a b c => Sys2Proof.Machine.execFopen h op f r d a b c s
  | .fold h p a b lm1 => Sys2Proof.Machine.execFold h p a b lm1 s
  | .fclose h d a => Sys2Proof.Machine.execFclose h d a s
  | .xchg h wide d a b => Sys2Proof.Machine.execXchg h wide d a b s
  | .cas h wide d a b c => Sys2Proof.Machine.execCas h wide d a b c s
  | .xchgs h wide d p b => Sys2Proof.Machine.execXchgs h wide d p b s
  | .cass h wide d p b c => Sys2Proof.Machine.execCass h wide d p b c s
  | .xadd h wide d a b => Sys2Proof.Machine.execXadd h wide d a b s
  | .xadds h wide d p b => Sys2Proof.Machine.execXadds h wide d p b s
  | .ldtag h d a => Sys2Proof.Machine.execLdtag h d a s
  | .spawn h t => Sys2Proof.Machine.execSpawn h t s
  | .post h t a => Sys2Proof.Machine.execPost h t a s
  | .postGrp h grp a => Sys2Proof.Machine.execPostGrp h grp a s
  | .halt h => Sys2Proof.Machine.execHalt h s
  | .haltK h a => Sys2Proof.Machine.execHaltK h a s
  | .commit h => Sys2Proof.Machine.execCommit h s
  | .claim h g => Sys2Proof.Machine.execClaim h g s
  | .unclaim h g => Sys2Proof.Machine.execUnclaim h g s
  | .arrive h a phase cm1 => Sys2Proof.Machine.execArrive h a phase cm1 s
  | .binit h p b target succ phase => Sys2Proof.Machine.execBinit h p b target succ phase s
  | .watch h wide p b t => Sys2Proof.Machine.execWatch h wide p b t s
  | .unwatch h d p => Sys2Proof.Machine.execUnwatch h d p s
  | .qpush h q a b => Sys2Proof.Machine.execQpush h q a b s
  | .qpop h d q => Sys2Proof.Machine.execQpop h d q s
  | .qcfg h q a => Sys2Proof.Machine.execQcfg h q a s
  | .qlen h d q => Sys2Proof.Machine.execQlen h d q s
  | .rld h sz sx d a peer live => Sys2Proof.Machine.execRld h sz sx d a peer live s
  | .rst h sz a b peer => Sys2Proof.Machine.execRst h sz a b peer s
  | .rstRel h sz a b peer t => Sys2Proof.Machine.execRstRel h sz a b peer t s
  | .rcas h wide d a b c peer => Sys2Proof.Machine.execRcas h wide d a b c peer s
  | .rfold h p a b lm1 peer => Sys2Proof.Machine.execRfold h p a b lm1 peer s
  | .rxchg h wide d a b peer => Sys2Proof.Machine.execRxchg h wide d a b peer s
  | .fadd h f r d a b => Sys2Proof.Machine.execFadd h f r d a b s
  | .fsub h f r d a b => Sys2Proof.Machine.execFsub h f r d a b s
  | .fmul h f r d a b => Sys2Proof.Machine.execFmul h f r d a b s
  | .fdiv h f r d a b => Sys2Proof.Machine.execFdiv h f r d a b s
  | .fsqrt h f r d a => Sys2Proof.Machine.execFsqrt h f r d a s
  | .ffma h f r d a b c => Sys2Proof.Machine.execFfma h f r d a b c s
  | .fmin h f d a b => Sys2Proof.Machine.execFmin h f d a b s
  | .fmax h f d a b => Sys2Proof.Machine.execFmax h f d a b s
  | .fminp h f d a b => Sys2Proof.Machine.execFminp h f d a b s
  | .fmaxp h f d a b => Sys2Proof.Machine.execFmaxp h f d a b s
  | .fabs h f d a => Sys2Proof.Machine.execFabs h f d a s
  | .fneg h f d a => Sys2Proof.Machine.execFneg h f d a s
  | .fcmp h cond f d a b => Sys2Proof.Machine.execFcmp h cond f d a b s
  | .fclass h f d a => Sys2Proof.Machine.execFclass h f d a s
  | .fcvt h dst src r d a => Sys2Proof.Machine.execFcvt h dst src r d a s
  | .icvtf h dst src r d a => Sys2Proof.Machine.execIcvtf h dst src r d a s
  | .fcvti h dst src r d a => Sys2Proof.Machine.execFcvti h dst src r d a s
  | .fmovi h f d imm => Sys2Proof.Machine.execFmovi h f d imm s
  | .frnd h f r d a => Sys2Proof.Machine.execFrnd h f r d a s
  | .fscale h f r d a b => Sys2Proof.Machine.execFscale h f r d a b s
  | .vmodeLong h => Sys2Proof.Machine.execVmodeLong h s
  | .vmodeShort h => Sys2Proof.Machine.execVmodeShort h s
  | .vld h x w d p => Sys2Proof.Machine.execVld h x w d p s
  | .vst h x w p a => Sys2Proof.Machine.execVst h x w p a s
  | .vldv h w d a => Sys2Proof.Machine.execVldv h w d a s
  | .vstv h w a b => Sys2Proof.Machine.execVstv h w a b s
  | .vadd h w sat f r d a b => Sys2Proof.Machine.execVadd h w sat f r d a b s
  | .vsub h w sat f r d a b => Sys2Proof.Machine.execVsub h w sat f r d a b s
  | .vmul h w f r d a b => Sys2Proof.Machine.execVmul h w f r d a b s
  | .vfma h w f r d a b c => Sys2Proof.Machine.execVfma h w f r d a b c s
  | .vmin h w u f d a b => Sys2Proof.Machine.execVmin h w u f d a b s
  | .vmax h w u f d a b => Sys2Proof.Machine.execVmax h w u f d a b s
  | .vminp h w f d a b => Sys2Proof.Machine.execVminp h w f d a b s
  | .vmaxp h w f d a b => Sys2Proof.Machine.execVmaxp h w f d a b s
  | .vneg h w f d a => Sys2Proof.Machine.execVneg h w f d a s
  | .vabs h w f d a => Sys2Proof.Machine.execVabs h w f d a s
  | .vand h w d a b => Sys2Proof.Machine.execVand h w d a b s
  | .vor h w d a b => Sys2Proof.Machine.execVor h w d a b s
  | .vxor h w d a b => Sys2Proof.Machine.execVxor h w d a b s
  | .vshl h w f d a b => Sys2Proof.Machine.execVshl h w f d a b s
  | .vshr h w sx f d a b => Sys2Proof.Machine.execVshr h w sx f d a b s
  | .vcmp h w cond f d a b => Sys2Proof.Machine.execVcmp h w cond f d a b s
  | .vsel h w f d m a b => Sys2Proof.Machine.execVsel h w f d m a b s
  | .vred h w op f r d a => Sys2Proof.Machine.execVred h w op f r d a s
  | .vdot h w dst src r d a b => Sys2Proof.Machine.execVdot h w dst src r d a b s
  | .vperm h w f d a b c => Sys2Proof.Machine.execVperm h w f d a b c s
  | .vbcast h w f d a => Sys2Proof.Machine.execVbcast h w f d a s
  | .vcvt h w dst src r d a part rs => Sys2Proof.Machine.execVcvt h w dst src r d a part rs s
  | .vmovg h w f d a idx => Sys2Proof.Machine.execVmovg h w f d a idx s
  | .vins h w f d a idx => Sys2Proof.Machine.execVins h w f d a idx s
  | .vchain h dst src r pd ps0 ps1 gk gn gs ops => Sys2Proof.Machine.execVchain h dst src r pd ps0 ps1 gk gn gs ops s
  | .vclamp h w u f d a b c => Sys2Proof.Machine.execVclamp h w u f d a b c s
  | .mwl h wf p c0 cm1 => Sys2Proof.Machine.execMwl h wf p c0 cm1 s
  | .mswap h => Sys2Proof.Machine.execMswap h s
  | .mmul h af z p => Sys2Proof.Machine.execMmul h af z p s
  | .mpass h af wf z p b gs sm1 stride => Sys2Proof.Machine.execMpass h af wf z p b gs sm1 stride s
  | .mweave h af z p q gs => Sys2Proof.Machine.execMweave h af z p q gs s
  | .macz h => Sys2Proof.Machine.execMacz h s
  | .macld h p row rm1 => Sys2Proof.Machine.execMacld h p row rm1 s
  | .macst h f r p row rm1 rs => Sys2Proof.Machine.execMacst h f r p row rm1 rs s
  | .macmv h d row seg => Sys2Proof.Machine.execMacmv h d row seg s
  | .macmvTo h row seg a => Sys2Proof.Machine.execMacmvTo h row seg a s
  | .mskew h af p q => Sys2Proof.Machine.execMskew h af p q s
  | .macrd h d row col => Sys2Proof.Machine.execMacrd h d row col s
  | .mwlv h wf a c0 cm1 => Sys2Proof.Machine.execMwlv h wf a c0 cm1 s
  | .scouple h a b slot => Sys2Proof.Machine.execScouple h a b slot s
  | .sbias h a b => Sys2Proof.Machine.execSbias h a b s
  | .sclamp h a v => Sys2Proof.Machine.execSclamp h a v s
  | .sclampOff h a => Sys2Proof.Machine.execSclampOff h a s
  | .scolour h a col => Sys2Proof.Machine.execScolour h a col s
  | .sweep h a gs sm1 ncm1 b => Sys2Proof.Machine.execSweep h a gs sm1 ncm1 b s
  | .sread h d a => Sys2Proof.Machine.execSread h d a s
  | .swrite h a b => Sys2Proof.Machine.execSwrite h a b s
  | .skey h n a b => Sys2Proof.Machine.execSkey h n a b s
  | .cpys h p a gn gv gs pw => Sys2Proof.Machine.execCpys h p a gn gv gs pw s
  | .cpyc h op f r p a gn gv gs pw => Sys2Proof.Machine.execCpyc h op f r p a gn gv gs pw s
  | .cpyg h p a gn gv gs pw stride rowlen => Sys2Proof.Machine.execCpyg h p a gn gv gs pw stride rowlen s
  | .cpyf h p a gn gv gs pw => Sys2Proof.Machine.execCpyf h p a gn gv gs pw s
  | .srd h d csr => Sys2Proof.Machine.execSrd h d csr s
  | .swr h csr a => Sys2Proof.Machine.execSwr h csr a s
  | .trap h imm => Sys2Proof.Machine.execTrap h imm s
  | .brk h imm => Sys2Proof.Machine.execBrk h imm s
  | .ovld h a => Sys2Proof.Machine.execOvld h a s
  | .genset h n a => Sys2Proof.Machine.execGenset h n a s
  | .gensync h => Sys2Proof.Machine.execGensync h s
  | .harvest h => Sys2Proof.Machine.execHarvest h s
  | .tret h => Sys2Proof.Machine.execTret h s
  | .tretNext h => Sys2Proof.Machine.execTretNext h s
  | .tretKill h => Sys2Proof.Machine.execTretKill h s
  | .tretEnd h => Sys2Proof.Machine.execTretEnd h s
  | .keyset h n a b => Sys2Proof.Machine.execKeyset h n a b s
  | .tlbinv h a => Sys2Proof.Machine.execTlbinv h a s
  | .tlbinvAll h => Sys2Proof.Machine.execTlbinvAll h s
  | .instructionBoundary core => Sys2Proof.Machine.execInstructionBoundary core s
  | .loadReply core req => Sys2Proof.Machine.execLoadReply core req s
  | .divideComplete core => Sys2Proof.Machine.execDivideComplete core s
  | .fpDivideUnitComplete core => Sys2Proof.Machine.execFpDivideUnitComplete core s
  | .longVectorComplete core => Sys2Proof.Machine.execLongVectorComplete core s
  | .chainRun core lane => Sys2Proof.Machine.execChainRun core lane s
  | .matrixCommandRun core lane => Sys2Proof.Machine.execMatrixCommandRun core lane s
  | .weaveSend core lane slot => Sys2Proof.Machine.execWeaveSend core lane slot s
  | .weaveTimeout core lane => Sys2Proof.Machine.execWeaveTimeout core lane s
  | .copyCommandRun core => Sys2Proof.Machine.execCopyCommandRun core s
  | .samplerCommandRun die => Sys2Proof.Machine.execSamplerCommandRun die s
  | .bundleLineArrival core seq line => Sys2Proof.Machine.execBundleLineArrival core seq line s
  | .lineAcknowledgement core seq line => Sys2Proof.Machine.execLineAcknowledgement core seq line s
  | .settleAtHome core seq line => Sys2Proof.Machine.execSettleAtHome core seq line s
  | .settleAcknowledgement core seq line => Sys2Proof.Machine.execSettleAcknowledgement core seq line s
  | .quietAtHome core seq line => Sys2Proof.Machine.execQuietAtHome core seq line s
  | .quietQueryReply core writer upTo => Sys2Proof.Machine.execQuietQueryReply core writer upTo s
  | .atomicAtHome core req => Sys2Proof.Machine.execAtomicAtHome core req s
  | .foldHomeOpen core req => Sys2Proof.Machine.execFoldHomeOpen core req s
  | .foldContributionArrival core seq line => Sys2Proof.Machine.execFoldContributionArrival core seq line s
  | .foldHomeClose core req => Sys2Proof.Machine.execFoldHomeClose core req s
  | .releaseArrival k => Sys2Proof.Machine.execReleaseArrival k s
  | .offerArrival core => Sys2Proof.Machine.execOfferArrival core s
  | .taskAged cluster k => Sys2Proof.Machine.execTaskAged cluster k s
  | .skipLimitBlock cluster k => Sys2Proof.Machine.execSkipLimitBlock cluster k s
  | .dispatchExchange cluster => Sys2Proof.Machine.execDispatchExchange cluster s
  | .entryStoreFetch cluster k => Sys2Proof.Machine.execEntryStoreFetch cluster k s
  | .arrivalApply e => Sys2Proof.Machine.execArrivalApply e s
  | .queuePushApply e q => Sys2Proof.Machine.execQueuePushApply e q s
  | .continuationSend core k => Sys2Proof.Machine.execContinuationSend core k s
  | .continuationResume core k => Sys2Proof.Machine.execContinuationResume core k s
  | .remoteMessageReceive m => Sys2Proof.Machine.execRemoteMessageReceive m s
  | .keptGrantExpiry core => Sys2Proof.Machine.execKeptGrantExpiry core s
  | .contextLastTaskRetired ctx => Sys2Proof.Machine.execContextLastTaskRetired ctx s
  | .exceptionWindowEnd core => Sys2Proof.Machine.execExceptionWindowEnd core s
  | .exceptionThreshold core c => Sys2Proof.Machine.execExceptionThreshold core c s
  | .seal ctx => Sys2Proof.Machine.execSeal ctx s
  | .digestArrival ctx epoch d => Sys2Proof.Machine.execDigestArrival ctx epoch d s
  | .digestTimeout ctx => Sys2Proof.Machine.execDigestTimeout ctx s
  | .endNoticeArrival ctx => Sys2Proof.Machine.execEndNoticeArrival ctx s
  | .queueArbitration => Sys2Proof.Machine.execQueueArbitration s
  | .launchEntry => Sys2Proof.Machine.execLaunchEntry s
  | .createContextEntry => Sys2Proof.Machine.execCreateContextEntry s
  | .endContextEntry => Sys2Proof.Machine.execEndContextEntry s
  | .noOperationEntry => Sys2Proof.Machine.execNoOperationEntry s
  | .seqRetry q => Sys2Proof.Machine.execSeqRetry q s
  | .staleEntry q => Sys2Proof.Machine.execStaleEntry q s
  | .contextCreationComplete ctx => Sys2Proof.Machine.execContextCreationComplete ctx s
  | .endCompletion ctx => Sys2Proof.Machine.execEndCompletion ctx s
  | .queueDoorbell q v => Sys2Proof.Machine.execQueueDoorbell q v s
  | .queueEnable q => Sys2Proof.Machine.execQueueEnable q s
  | .queueDisable q => Sys2Proof.Machine.execQueueDisable q s
  | .eventConfigWrite v => Sys2Proof.Machine.execEventConfigWrite v s
  | .eventReadIndexWrite v => Sys2Proof.Machine.execEventReadIndexWrite v s
  | .contextFree ctx => Sys2Proof.Machine.execContextFree ctx s
  | .faultRecordRelease ctx rec => Sys2Proof.Machine.execFaultRecordRelease ctx rec s
  | .xcmdInvalidateAll ctx => Sys2Proof.Machine.execXcmdInvalidateAll ctx s
  | .xcmdHarvest ctx => Sys2Proof.Machine.execXcmdHarvest ctx s
  | .xcmdInvalidatePage ctx page => Sys2Proof.Machine.execXcmdInvalidatePage ctx page s
  | .xcmdComplete ctx => Sys2Proof.Machine.execXcmdComplete ctx s
  | .cwaveWrite a b v => Sys2Proof.Machine.execCwaveWrite a b v s
  | .circuitReassignComplete a b => Sys2Proof.Machine.execCircuitReassignComplete a b s
  | .lwDrain => Sys2Proof.Machine.execLwDrain s
  | .lwRelock => Sys2Proof.Machine.execLwRelock s
  | .lwGoDark => Sys2Proof.Machine.execLwGoDark s
  | .drainComplete => Sys2Proof.Machine.execDrainComplete s
  | .lockComplete up => Sys2Proof.Machine.execLockComplete up s
  | .stageTransmitKey f addr => Sys2Proof.Machine.execStageTransmitKey f addr s
  | .stageReceiveKey f addr => Sys2Proof.Machine.execStageReceiveKey f addr s
  | .fibreHeld f => Sys2Proof.Machine.execFibreHeld f s
  | .fibreFailed f => Sys2Proof.Machine.execFibreFailed f s
  | .flitAuthFailure f => Sys2Proof.Machine.execFlitAuthFailure f s
  | .holdLimitExpiry core req => Sys2Proof.Machine.execHoldLimitExpiry core req s
  | .scaleoutStageTransmitKey p addr => Sys2Proof.Machine.execScaleoutStageTransmitKey p addr s
  | .scaleoutStageReceiveKey p addr => Sys2Proof.Machine.execScaleoutStageReceiveKey p addr s
  | .scaleoutFrameReceive pkg seq msgs => Sys2Proof.Machine.execScaleoutFrameReceive pkg seq msgs s
  | .scaleoutRetransmit pkg seq => Sys2Proof.Machine.execScaleoutRetransmit pkg seq s
  | .scaleoutUndeliverable pkg seq => Sys2Proof.Machine.execScaleoutUndeliverable pkg seq s
  | .scaleoutPortHeld p => Sys2Proof.Machine.execScaleoutPortHeld p s
  | .scaleoutPortStateChange p st => Sys2Proof.Machine.execScaleoutPortStateChange p st s
  | .produceReport => Sys2Proof.Machine.execProduceReport s
  | .writeEndorsement => Sys2Proof.Machine.execWriteEndorsement s
  | .attestationComplete => Sys2Proof.Machine.execAttestationComplete s
  | .debugHaltCommand core => Sys2Proof.Machine.execDebugHaltCommand core s
  | .debugResume core => Sys2Proof.Machine.execDebugResume core s
  | .debugStep core => Sys2Proof.Machine.execDebugStep core s
  | .debugDrain core => Sys2Proof.Machine.execDebugDrain core s
  | .debugDrainComplete core => Sys2Proof.Machine.execDebugDrainComplete core s
  | .ddataWrite core v => Sys2Proof.Machine.execDdataWrite core v s
  | .registerWrite off v => Sys2Proof.Machine.execRegisterWrite off v s
  | .apertureAccessNotPerformed off wr => Sys2Proof.Machine.execApertureAccessNotPerformed off wr s
  | .hostMemoryWrite pa bytes => Sys2Proof.Machine.execHostMemoryWrite pa bytes s
  | .hostMemoryRead pa n => Sys2Proof.Machine.execHostMemoryRead pa n s
  | .linkTraining groups => Sys2Proof.Machine.execLinkTraining groups s
  | .eventRecordStage => Sys2Proof.Machine.execEventRecordStage s
  | .eventRingWrite => Sys2Proof.Machine.execEventRingWrite s
  | .harvestBlockChange die pc core => Sys2Proof.Machine.execHarvestBlockChange die pc core s
  | .spareBringIn kind unit idx => Sys2Proof.Machine.execSpareBringIn kind unit idx s
  | .resetBoot => Sys2Proof.Machine.execResetBoot s
  | .junctionTemperature sensor temp => Sys2Proof.Machine.execJunctionTemperature sensor temp s
  | .thermalShutdown flow sensor reading => Sys2Proof.Machine.execThermalShutdown flow sensor reading s
  | .managementPowerRequest up => Sys2Proof.Machine.execManagementPowerRequest up s
  | .managementFirmwareInstall image => Sys2Proof.Machine.execManagementFirmwareInstall image s
  | .managementRead => Sys2Proof.Machine.execManagementRead s
  | .supplyOutOfTolerance input rail reading => Sys2Proof.Machine.execSupplyOutOfTolerance input rail reading s
  | .keyChangeFlitArrival f => Sys2Proof.Machine.execKeyChangeFlitArrival f s
  | .scaleoutAcknowledgement pkg seq => Sys2Proof.Machine.execScaleoutAcknowledgement pkg seq s

end Sys2Proof.Machine
end

