-- ==== Sys2Proof/Machine/Step.lean ====
section
/-!
DEFINITION. One step of the package (log 2): the next move of the agenda, or, where it is empty, the current core. A core acts
on a crossed threshold, on a full window, at its boundary (R349), and else issues the instruction at its program counter.
-/

namespace Sys2Proof.Machine

/-- The core issues: it spends the remaining `STALL` cycles, fetches, and executes (R111, R119). -/
def issueStep (s : State) (n : Nat) : Host.Outcome State Fault Refusal :=
  let s1 := s.setCore n (spendStall (s.core n))
  match (s1.core n).frames with
  | [] => .next s
  | f :: _ =>
    let r := s1.fetch n f
    match r.1 with
    | .ok i => exec i r.2
    | .trap cause tval t0 t1 => .next ((r.2.takeTrap n cause false tval t0 t1).stopped n)
    | .fault page => .next ((r.2.pageFault n page).stopped n)
    | .dead c => .next ((r.2.endFor c f.task).stopped n)

def coreStep (s : State) (n : Nat) : Host.Outcome State Fault Refusal :=
  let c := s.core n
  match c.nextCrossed with
  | some k => exec (.exceptionThreshold n k) s
  | none =>
    if c.windowFull then exec (.exceptionWindowEnd n) s
    else if !c.passed then exec (.instructionBoundary n) s
    else if c.dbg.halted || c.reqs.any (fun q => q.inside) then .next s
    else issueStep s n

def step (s : State) : Host.Outcome State Fault Refusal :=
  match s.agenda with
  | [] => coreStep s s.cur
  | .core n :: ms => coreStep { s with agenda := ms, cur := n } n
  | .dev i :: ms => match i.hdr? with
    | none => if s.mgmt.inReset && !aliveInReset i then .next { s with agenda := ms } else exec i { s with agenda := ms }
    | some _ => .next { s with agenda := ms }

/-- `s` with an instruction of `nbits` bits placed where the next step fetches, on the current core, in a context of one fetch
block of code that is loaded and running (log 21). -/
def State.withFetchWord (s : State) (nbits w : Nat) : State :=
  let n := s.cur
  let m := (s.mem.physWrite 0x10000 (leBytes 16 (w % 2 ^ nbits))).setTags 0x400 LineTags.zero
  let s1 := { s.setCtx 0 (probeCtx n) with agenda := [.core n], mem := m }
  let f := s1.newFrame probeTask Template.blank []
  s1.setCore n { Core.reset with ctx := some 0, frames := [f], passed := true }

end Sys2Proof.Machine
end

