-- ==== Sys2Proof/Safety.lean ====
section
/-!
DEFINITION. What counts as a safe step, the canonical form of the package's memories, and when a core issues an instruction: the
terms that statements about the machine use.
-/

namespace Sys2Proof.Machine

/-- A step that is neither a fault nor a refusal. -/
def goesOn (o : Host.Outcome State Fault Refusal) : Bool :=
  match o with
  | .next _ => true
  | .fault _ => false
  | .refused _ => false

/-- Both versions of main memory and the vaults, and the tags, are in canonical form. -/
def Memory.wf (m : Memory) : Bool := mapWf 0 m.newer && mapWf 0 m.older && mapWf LineTags.zero m.tags

/-- The memories of the package are in canonical form: main memory and the vaults, host memory, every scratchpad. -/
def State.memWf (s : State) : Bool := s.mem.wf && mapWf 0 s.host.mem && s.cores.all (fun e => mapWf 0 e.2.pad)

/-- The registers that a guard names: none for the guard `p0` (R110). -/
def guardRegs (h : Hdr) : List Reg := if h.gp = 0 then [] else [.p h.gp]

/-- The current core can come to an instruction: `f` is its top frame, above `fs`; it is not halted (R365), it does not wait inside an
instruction (R348), and no settlement that `COMMIT` or `FENCE` waits for is outstanding (R220, R281). -/
structure AtInstr (s : State) (f : Frame) (fs : List Frame) : Prop where
  top : (s.core s.cur).frames = f :: fs
  running : (s.core s.cur).dbg.halted = false
  outside : ((s.core s.cur).reqs.any fun q => q.inside) = false
  settled : s.settleWaits s.cur f = false

/-- An instruction with header `h` comes to its own checks: the frame has the privilege that a P-marked one needs (R119, R131), its
general registers lie in the range (R121), no register it names has a pending write where `SCHK` counts them (R133), none awaits a
result (R134), its guard passes (R110), and the vector registers `wr` that it writes are not locked (R137). -/
structure Issues (s : State) (f : Frame) (fs : List Frame) (h : Hdr) (priv : Bool) (regs wr : List Reg) : Prop
    extends AtInstr s f fs where
  mode : priv = true → f.priv = true
  range : ∀ k, Reg.g k ∈ regs → k.toNat < f.lim
  counted : f.schk = true → ∀ r ∈ guardRegs h ++ regs, ∀ x ∈ f.pend, x.reg ≠ r
  arrived : ∀ r ∈ guardRegs h ++ regs, r ∉ f.await
  passes : f.getP h.gp ≠ h.gn
  unlocked : ∀ r ∈ wr, (s.core s.cur).locked f r = false

/-- The P-marked instructions (R119): those that only the trap frame may issue (R131). -/
def pMarked (i : Instr) (h : Hdr) : Prop :=
  (∃ a, i = .ovld h a) ∨ (∃ n a, i = .genset h n a) ∨ (∃ n a b, i = .keyset h n a b) ∨ i = .harvest h ∨ (∃ a, i = .tlbinv h a) ∨
    i = .tlbinvAll h ∨ i = .tret h ∨ i = .tretNext h ∨ i = .tretKill h ∨ i = .tretEnd h

/-- `i` issues and its results are `ws` (R132): the next state is the one after its retirement. -/
def results (s : State) (i : Instr) (h : Hdr) (ws : List Write) : Prop :=
  exec i s = .next (s.retire s.cur i h { Ret.plain with writes := ws })

/-- `i` issues as a taken transfer to `pc`, of three issue cycles (R150). -/
def jumps (s : State) (i : Instr) (h : Hdr) (pc : Word) (ws : List Write) : Prop :=
  exec i s = .next (s.retire s.cur i h { pc := some pc, cycles := 3, exc := 0, writes := ws })

/-- `i` issues: its own effect leaves `t`, and it retires as `r` says. -/
def completes (s : State) (i : Instr) (h : Hdr) (t : State) (r : Ret) : Prop := exec i s = .next (t.retire s.cur i h r)

/-- A memory access of frame `f` at address `a`, aligned to `al`, reaches the place `pl` without a trap or a fault (R159, R167);
`s1` is the state with the TLBs filled on the way. -/
def reaches (s : State) (f : Frame) (wr : Bool) (a : Word) (al : Nat) (pl : Place) (s1 : State) : Prop :=
  ∃ k, s.addrChk (s.ctx f.task.ctx) wr a al al = .ok k ∧ s.place s.cur f.task.ctx wr a k = (.ok pl, s1)

/-- Scratchpad accesses of `n` bytes at the operands `ps` are permitted and aligned (R204), and no queued command keeps them
waiting (R245), with `reads` and `writes` what the instruction reads and writes. -/
structure PadFree (s : State) (f : Frame) (n : Nat) (ps reads writes : List Ptr) : Prop where
  permitted : ∀ p ∈ ps, f.padCheck (s.ctx f.task.ctx) (f.ptr p) n = .ok ()
  unclaimed : (s.core s.cur).rangeWaits (reads.map fun p => (f.ptr p, n)) (writes.map fun p => (f.ptr p, n)) = false

end Sys2Proof.Machine
end

