-- ==== Sys2Proof/Certificates/Slice0/Obligations.lean ====
section
/-!
DEFINITION. The statements for the provers. Log n = notes/assumptions/n.md.
-/

open Sys2Proof Sys2Proof.Machine

/-! ## Integer, address, compare and predicate instructions, transfers -/

/-- R141: the integer results. A register that is `g0` as destination keeps reading as zero (R112): the result is discarded. -/
def Obligations.IntegerResults : Prop :=
  ∀ (s : State) (f : Frame) (fs : List Frame) (h : Hdr) (d a b c : GReg),
    let x := f.getG a
    let y := f.getG b
    let k := y.toNat % 64
    (Issues s f fs h false [.g d, .g a, .g b] [] →
      results s (.add h d a b) h [gRes d (BitVec.ofNat 64 (x.toNat + y.toNat)) 1] ∧
      results s (.sub h d a b) h [gRes d (BitVec.ofInt 64 (x.toNat - y.toNat)) 1] ∧
      results s (.mul h d a b) h [gRes d (BitVec.ofNat 64 (x.toNat * y.toNat)) 3] ∧
      results s (.mulh h false d a b) h [gRes d (BitVec.ofInt 64 (x.toInt * y.toInt / 2 ^ 64)) 3] ∧
      results s (.mulh h true d a b) h [gRes d (BitVec.ofNat 64 (x.toNat * y.toNat / 2 ^ 64)) 3] ∧
      results s (.and h d a b) h [gRes d (x &&& y) 1] ∧
      results s (.or h d a b) h [gRes d (x ||| y) 1] ∧
      results s (.xor h d a b) h [gRes d (x ^^^ y) 1] ∧
      results s (.andn h d a b) h [gRes d (x &&& ~~~y) 1] ∧
      results s (.shl h d a b) h [gRes d (BitVec.ofNat 64 (x.toNat * 2 ^ k)) 1] ∧
      results s (.shr h d a b) h [gRes d (BitVec.ofNat 64 (x.toNat / 2 ^ k)) 1] ∧
      results s (.sar h d a b) h [gRes d (BitVec.ofInt 64 (x.toInt / 2 ^ k)) 1] ∧
      results s (.rot h d a b) h [gRes d (BitVec.ofNat 64 (x.toNat * 2 ^ k + x.toNat / 2 ^ (64 - k))) 1] ∧
      results s (.min h false d a b) h [gRes d (if x.toInt < y.toInt then x else y) 1] ∧
      results s (.min h true d a b) h [gRes d (if x.toNat < y.toNat then x else y) 1] ∧
      results s (.max h false d a b) h [gRes d (if x.toInt < y.toInt then y else x) 1] ∧
      results s (.max h true d a b) h [gRes d (if x.toNat < y.toNat then y else x) 1] ∧
      results s (.adds h false d a b) h
        [gRes d (BitVec.ofInt 64 (max (-2 ^ 63) (min (x.toInt + y.toInt) (2 ^ 63 - 1)))) 1] ∧
      results s (.adds h true d a b) h [gRes d (BitVec.ofNat 64 (min (x.toNat + y.toNat) (2 ^ 64 - 1))) 1]) ∧
    (Issues s f fs h false [.g d, .g a, .g b, .g c] [] →
      results s (.mad h d a b c) h [gRes d (BitVec.ofNat 64 (x.toNat * y.toNat + (f.getG c).toNat)) 3]) ∧
    (Issues s f fs h false [.g d, .g a] [] → ∀ (imm : BitVec 24) (n : BitVec 6),
      results s (.addi h d a imm) h [gRes d (BitVec.ofInt 64 (x.toNat + imm.toInt)) 1] ∧
      results s (.shli h d a n) h [gRes d (BitVec.ofNat 64 (x.toNat * 2 ^ n.toNat)) 1] ∧
      results s (.shri h d a n) h [gRes d (BitVec.ofNat 64 (x.toNat / 2 ^ n.toNat)) 1] ∧
      results s (.sari h d a n) h [gRes d (BitVec.ofInt 64 (x.toInt / 2 ^ n.toNat)) 1] ∧
      results s (.abs h d a) h [gRes d (if 0 ≤ x.toInt then x else BitVec.ofInt 64 (0 - x.toInt)) 1] ∧
      (∃ v : Word, results s (.clz h d a) h [gRes d v 1] ∧ v.toNat ≤ 64 ∧ x.toNat < 2 ^ (64 - v.toNat) ∧
        (v.toNat < 64 → 2 ^ (63 - v.toNat) ≤ x.toNat)) ∧
      results s (.popc h d a) h [gRes d (BitVec.ofNat 64 ((List.range 64).filter x.getLsbD).length) 1]) ∧
    (Issues s f fs h false [.g d] [] → ∀ (j : BitVec 32) (w : BitVec 64),
      results s (.movi h d j) h [gRes d (BitVec.ofInt 64 j.toInt) 1] ∧
      results s (.moviD h d w) h [gRes d w 1])

/-- R142: division. `DIV` and `REM` write gd as a variable-latency result: the divider takes the value (R134). While the divider is busy
they wait at the boundary before them. -/
def Obligations.DivideAndRemainder : Prop :=
  ∀ (s : State) (f : Frame) (fs : List Frame) (h : Hdr) (u : Bool) (d a b : GReg),
    Issues s f fs h false [.g d, .g a, .g b] [] →
    let n : Int := if u then (f.getG a).toNat else (f.getG a).toInt
    let m : Int := if u then (f.getG b).toNat else (f.getG b).toInt
    let q : Int := if m = 0 then 2 ^ 64 - 1 else if u = false ∧ n = -2 ^ 63 ∧ m = -1 then -2 ^ 63 else n.tdiv m
    let r : Int := if m = 0 then n else if u = false ∧ n = -2 ^ 63 ∧ m = -1 then 0 else n - n.tdiv m * m
    let c := s.core s.cur
    let busy (v : Word) : State := s.setCore s.cur { c.setTop { f with await := f.await ++ (if d = 0 then [] else [.g d]) } with
      div := some { frame := f.uid, dst := d, val := v, exc := 0 } }
    (c.div = none →
      exec (.div h u d a b) s = .next ((busy (BitVec.ofInt 64 q)).retire s.cur (.div h u d a b) h Ret.plain) ∧
      exec (.rem h u d a b) s = .next ((busy (BitVec.ofInt 64 r)).retire s.cur (.rem h u d a b) h Ret.plain)) ∧
    (c.div ≠ none →
      exec (.div h u d a b) s = .next (s.stopped s.cur) ∧ exec (.rem h u d a b) s = .next (s.stopped s.cur))

/-- R143: `EXT`, `INS`, `SEL`, `LEA`, with `w` the width and `lo` the lowest bit of the field. R144: `HOPS` gives the hop distance of two
virtual dies, and traps with cause 0x10 where one of them does not exist. -/
def Obligations.FieldSelectAndAddress : Prop :=
  (∀ (s : State) (f : Frame) (fs : List Frame) (h : Hdr) (d a b : GReg),
    let x := f.getG a
    (Issues s f fs h false [.g d, .g a] [] → ∀ (sx : Bool) (lo wm1 : BitVec 6), lo.toNat + wm1.toNat + 1 ≤ 64 →
      let w := wm1.toNat + 1
      let e := x.toNat / 2 ^ lo.toNat % 2 ^ w
      results s (.ext h sx d a lo wm1) h
        [gRes d (if sx = true ∧ 2 ^ (w - 1) ≤ e then BitVec.ofInt 64 ((e : Int) - 2 ^ w) else BitVec.ofNat 64 e) 1] ∧
      (∃ v : Word, results s (.ins h d a lo wm1) h [gRes d v 1] ∧
        ∀ i, i < 64 → v.getLsbD i = if lo.toNat ≤ i ∧ i < lo.toNat + w then x.getLsbD (i - lo.toNat) else (f.getG d).getLsbD i)) ∧
    (∀ c : PReg, Issues s f fs h false [.g d, .g a, .g b, .p c] [] →
      results s (.sel h d c a b) h [gRes d (if f.getP c then x else f.getG b) 1]) ∧
    (Issues s f fs h false [.g d, .g a, .g b] [] → ∀ (k : BitVec 3) (disp : BitVec 19),
      results s (.lea h d a b k disp) h
        [gRes d (BitVec.ofInt 64 (x.toNat + (f.getG b).toNat * 2 ^ k.toNat + disp.toInt)) 1])) ∧
  (∀ (s : State) (f : Frame) (fs : List Frame) (h : Hdr) (d a b : GReg),
    Issues s f fs h false [.g d, .g a, .g b] [] →
    let x := s.ctx f.task.ctx
    let p := (f.getG a).toNat
    let q := (f.getG b).toNat
    let has (k : Nat) : Prop := k < 8 ∧ x.vdmask.getLsbD k = true
    let die (k : Nat) : Nat := (fget VDie.none x.vdies k).pdie
    (has p ∧ has q →
      results s (.hops h d a b) h [gRes d (BitVec.ofNat 64
        (((die p / 4 : Int) - (die q / 4 : Int)).natAbs + ((die p % 4 : Int) - (die q % 4 : Int)).natAbs)) 2]) ∧
    (¬ (has p ∧ has q) → exec (.hops h d a b) s = .next (s.trapped s.cur (.hops h d a b) 0x10 0)))

/-- R145, R146: the conditions and the combines of `CMP` and `CMPI`. R147: the other predicate instructions. -/
def Obligations.ComparesAndPredicates : Prop :=
  (∀ (s : State) (f : Frame) (fs : List Frame) (h : Hdr) (cond : Cond) (comb : Comb) (d c : PReg) (a b : GReg) (imm : BitVec 24),
    let holds (x y : Word) : Prop := match cond with
      | .eq => x = y
      | .ne => x ≠ y
      | .lt => x.toInt < y.toInt
      | .le => x.toInt ≤ y.toInt
      | .gt => y.toInt < x.toInt
      | .ge => y.toInt ≤ x.toInt
      | .ltu => x.toNat < y.toNat
      | .leu => x.toNat ≤ y.toNat
      | .gtu => y.toNat < x.toNat
      | .geu => y.toNat ≤ x.toNat
      | .tst => x &&& y ≠ 0
      | .ntst => x &&& y = 0
    let writes (r : Bool) (c : PReg) : List Write := match comb with
      | .set => [pRes d r 1, pRes c (!r) 1]
      | .and => [pRes d (f.getP d && r) 1, pRes c (f.getP c && !r) 1]
      | .or => [pRes d (f.getP d || r) 1, pRes c (f.getP c || !r) 1]
    (Issues s f fs h false [.p d, .g a, .g b, .p c] [] → ∃ r : Bool, (r = true ↔ holds (f.getG a) (f.getG b)) ∧
      results s (.cmp h cond comb d c a b) h (writes r c)) ∧
    (Issues s f fs h false [.p d, .g a] [] → ∃ r : Bool, (r = true ↔ holds (f.getG a) (BitVec.ofInt 64 imm.toInt)) ∧
      results s (.cmpi h cond comb d a imm) h (writes r 0))) ∧
  (∀ (s : State) (f : Frame) (fs : List Frame) (h : Hdr) (n v : Bool) (d a b : PReg) (g : GReg) (bit : BitVec 6) (mask : BitVec 7),
    let q : Bool := if n then !f.getP b else f.getP b
    (Issues s f fs h false [.p d, .p a, .p b] [] →
      results s (.pand h n d a b) h [pRes d (f.getP a && q) 1] ∧
      results s (.por h n d a b) h [pRes d (f.getP a || q) 1] ∧
      results s (.pxor h n d a b) h [pRes d (xor (f.getP a) q) 1]) ∧
    (Issues s f fs h false [.p d, .p a] [] → results s (.pnot h d a) h [pRes d (!f.getP a) 1]) ∧
    (Issues s f fs h false [.p d] [] → results s (.pset h d v) h [pRes d v 1]) ∧
    (Issues s f fs h false [.p d, .g g] [] → results s (.ptest h d g bit) h [pRes d ((f.getG g).getLsbD bit.toNat) 1]) ∧
    (Issues s f fs h false [.g g, .p 1, .p 2, .p 3, .p 4, .p 5, .p 6, .p 7] [] →
      results s (.pget h g) h [gRes g (BitVec.ofNat 64
        (([0, 1, 2, 3, 4, 5, 6, 7] : List PReg).foldl (fun t i => t + if f.getP i then 2 ^ i.toNat else 0) 0)) 1]) ∧
    (let ks := ([1, 2, 3, 4, 5, 6, 7] : List PReg).filter (fun i => mask.getLsbD (i.toNat - 1))
     Issues s f fs h false (.g g :: ks.map .p) [] →
      results s (.pput h g mask) h (ks.map (fun i => pRes i ((f.getG g).getLsbD i.toNat) 1))))

/-- R148, R150: the transfers. A target is a signed offset in 4-byte units from the instruction's own address, or a register; the link is
the instruction's own address plus its length; a taken transfer occupies three issue cycles, a `LOOP` that is not taken one. R118: a
`NOP` of any length does nothing. -/
def Obligations.ControlTransfers : Prop :=
  (∀ (s : State) (f : Frame) (fs : List Frame) (h : Hdr) (d a : GReg) (off : BitVec 24) (far : BitVec 32),
    let near : Word := BitVec.ofInt 64 (f.pc.toNat + 4 * off.toInt)
    let away : Word := BitVec.ofInt 64 (f.pc.toNat + 4 * far.toInt)
    let link (len : Nat) : Write := gRes d (BitVec.ofNat 64 (f.pc.toNat + len)) 1
    (Issues s f fs h false [] [] → jumps s (.br h off) h near [] ∧ jumps s (.brFar h far) h away []) ∧
    (Issues s f fs h false [.g a] [] → jumps s (.jmp h a) h (f.getG a) [] ∧ jumps s (.ret h a) h (f.getG a) []) ∧
    (Issues s f fs h false [.g d] [] →
      jumps s (.call h d off) h near [link 8] ∧ jumps s (.callFar h d far) h away [link 12] ∧
      (let v : Word := BitVec.ofInt 64 ((f.getG d).toNat - 1)
       (v ≠ 0 → jumps s (.loop h d off) h near [gRes d v 1]) ∧ (v = 0 → results s (.loop h d off) h [gRes d v 1]))) ∧
    (Issues s f fs h false [.g d, .g a] [] → jumps s (.callr h d a) h (f.getG a) [link 8])) ∧
  (∀ (s : State) (f : Frame) (fs : List Frame) (h : Hdr) (len : Len) (rest : BitVec 47) (ext : BitVec 64),
    Issues s f fs h false [] [] → results s (.nop h { len, rest, ext }) h [])

/-! ## Issue, results, traps -/

/-- R110: an instruction whose guard fails only retires, whatever it is; the frame is one in which no earlier check stops it. -/
def Obligations.FailedGuardOnlyRetires : Prop :=
  ∀ (s : State) (f : Frame) (fs : List Frame) (i : Instr) (h : Hdr),
    i.hdr? = some h → AtInstr s f fs → f.lim = 32 → f.schk = false → (f.priv = true ∨ ¬ pMarked i h) →
    (∀ r ∈ guardRegs h, r ∉ f.await) → f.getP h.gp = h.gn →
    exec i s = .next (s.retire s.cur i h Ret.plain)

/-- R131, order 8 of R119: a P-marked instruction outside privileged state traps with cause 0x05, whatever its guard. R121: an instruction
that names a general register beyond the frame's range traps with cause 0x06 and the register's number (R353), whether or not its guard
passes; said for instructions of three general registers. R133: while `SCHK.EN` is 1, an instruction that names a register with a
pending write traps with cause 0x07, before its guard is evaluated; while it is 0 no check is made. `TVAL` is the number of the first
such register, in the order of the fields (log 36). R134: an instruction that names a register whose variable-latency result has not
arrived waits at the boundary before it. -/
def Obligations.ChecksBeforeIssue : Prop :=
  (∀ (s : State) (f : Frame) (fs : List Frame) (i : Instr) (h : Hdr),
    pMarked i h → AtInstr s f fs → f.priv = false → exec i s = .next (s.trapped s.cur i 0x05 0)) ∧
  (∀ (s : State) (f : Frame) (fs : List Frame) (h : Hdr) (d a b : GReg),
    AtInstr s f fs → f.lim ≤ d.toNat ∨ f.lim ≤ a.toNat ∨ f.lim ≤ b.toNat →
    ∀ i ∈ [Instr.add h d a b, .sub h d a b, .mul h d a b, .and h d a b, .or h d a b, .xor h d a b, .andn h d a b, .shl h d a b,
        .shr h d a b, .sar h d a b, .rot h d a b, .div h false d a b, .rem h false d a b, .hops h d a b],
      exec i s = .next (s.trapped s.cur i 0x06 (BitVec.ofNat 64
        (if f.lim ≤ d.toNat then d else if f.lim ≤ a.toNat then a else b).toNat))) ∧
  (∀ (s : State) (f : Frame) (fs : List Frame) (h : Hdr) (d a b : GReg),
    AtInstr s f fs → f.lim = 32 → f.schk = true →
    let held (r : Reg) : Bool := f.pend.any (fun x => x.reg == r)
    (h.gp ≠ 0 → held (.p h.gp) = true → ∀ i, i.hdr? = some h → (f.priv = true ∨ ¬ pMarked i h) →
      exec i s = .next (s.trapped s.cur i 0x07 (BitVec.ofNat 64 h.gp.toNat))) ∧
    ((h.gp = 0 ∨ held (.p h.gp) = false) →
      (held (.g d) = true → exec (.add h d a b) s = .next (s.trapped s.cur (.add h d a b) 0x07 (BitVec.ofNat 64 d.toNat))) ∧
      (held (.g d) = false → held (.g a) = true →
        exec (.add h d a b) s = .next (s.trapped s.cur (.add h d a b) 0x07 (BitVec.ofNat 64 a.toNat))) ∧
      (held (.g d) = false → held (.g a) = false → held (.g b) = true →
        exec (.add h d a b) s = .next (s.trapped s.cur (.add h d a b) 0x07 (BitVec.ofNat 64 b.toNat))))) ∧
  (∀ (s : State) (f : Frame) (fs : List Frame) (h : Hdr) (d a b : GReg),
    AtInstr s f fs → f.lim = 32 → f.schk = false → (∀ r ∈ guardRegs h, r ∉ f.await) → f.getP h.gp ≠ h.gn →
    Reg.g d ∈ f.await ∨ Reg.g a ∈ f.await ∨ Reg.g b ∈ f.await →
    ∀ i ∈ [Instr.add h d a b, .sub h d a b, .mul h d a b, .and h d a b, .or h d a b, .xor h d a b, .andn h d a b, .shl h d a b,
        .shr h d a b, .sar h d a b, .rot h d a b, .div h false d a b, .rem h false d a b, .hops h d a b],
      exec i s = .next (s.stopped s.cur))

/-- R111, R132, R200: what a retirement leaves alone. Other units of the package, other cores, the frames below and, in the frame,
everything but the program counter, the registers with pending or new results, the pending writes and the stall count stay as they were;
`ESPOS` counts the instruction. Where this rests on a choice of the model: log 18. -/
def Obligations.RetirementFrame : Prop :=
  ∀ (s : State) (n : Nat) (i : Instr) (h : Hdr) (r : Ret) (f : Frame) (fs : List Frame),
    (s.core n).frames = f :: fs →
    let t := s.retire n i h r
    let c := s.core n
    let c' := t.core n
    t = { s with cores := t.cores } ∧ (∀ k, k ≠ n → t.core k = s.core k) ∧
    c' = { c with frames := c'.frames, lanes := c'.lanes, escnt := c'.escnt, espos := c'.espos, crossed := c'.crossed,
                  passed := false, dbg := { c.dbg with issued := true } } ∧
    c'.espos = (if c.eswin = 0 then c.espos else c.espos + 1) ∧
    (r.exc = 0 → c'.escnt = c.escnt ∧ c'.crossed = c.crossed) ∧
    (∀ l, { c'.lane l with v := [] } = { c.lane l with v := [] }) ∧
    (∀ l q, l ≠ f.lane ∨ (∀ x ∈ f.pend ++ records r.writes, x.reg ≠ .v q) → c'.getV l q = c.getV l q) ∧
    ∃ f', c'.frames = f' :: fs ∧
      f'.pc = (match r.pc with | some p => p | none => f.pc + BitVec.ofNat 64 i.size) ∧ f'.stall = h.stall.toNat ∧
      f' = { f with pc := f'.pc, stall := f'.stall, g := f'.g, p := f'.p, a := f'.a, pend := f'.pend, arrived := true,
                    brkHalted := false } ∧
      (∀ q, (∀ x ∈ f.pend ++ records r.writes, x.reg ≠ .g q) → f'.getG q = f.getG q) ∧
      (∀ q, (∀ x ∈ f.pend ++ records r.writes, x.reg ≠ .p q) → f'.getP q = f.getP q) ∧
      (∀ q, (∀ x ∈ f.pend ++ records r.writes, x.reg ≠ .a q) → f'.getA q = f.getA q)

/-- R132: a fixed-latency result is read as before for fewer than its own cycles, and then as the new value; of two writes of one register
that are due together the later instruction's is kept. The result of an instruction with latency 1 is read by the next instruction,
whatever is pending (R132). -/
def Obligations.ResultsBecomeVisible : Prop :=
  (∀ (c : Core) (f : Frame) (q : GReg) (v w : Word) (lat k : Nat), q ≠ 0 → 0 < lat → (∀ x ∈ f.pend, x.reg ≠ .g q) →
    let f1 := { f with pend := f.pend ++ records [gRes q v lat] }
    let f2 := { f with pend := f.pend ++ records [gRes q v (lat + 1)] }
    let f3 := { (tick 1 c f2).2 with pend := (tick 1 c f2).2.pend ++ records [gRes q w lat] }
    (tick k c f1).2.getG q = (if k < lat then f.getG q else v) ∧
    (tick k c f3).2.getG q = (if k < lat then f.getG q else w)) ∧
  (∀ (s : State) (n : Nat) (i : Instr) (h : Hdr) (f : Frame) (fs : List Frame) (q : GReg) (v : Word),
    (s.core n).frames = f :: fs →
    ∃ f', ((s.retire n i h { Ret.plain with writes := [gRes q v 1] }).core n).frames = f' :: fs ∧
      f'.getG q = if q = 0 then 0 else v)

/-- R352: a trap outside the trap frame writes the trap registers, gives the frame privilege and sends it to the trap entry; nothing else of
the package changes. R352, R356: a trap in the trap frame ends the context with cause 0x0A and the ordinal of the task. -/
def Obligations.TrapEntry : Prop :=
  (∀ (s : State) (n : Nat) (f : Frame) (fs : List Frame) (cause : Nat) (after : Bool) (tval t0 t1 : Word),
    (s.core n).frames = f :: fs → f.priv = false → cause < 256 →
    let x := s.ctx f.task.ctx
    let t := s.takeTrap n cause after tval t0 t1
    ∃ f', t = s.setCore n { s.core n with frames := f' :: fs } ∧
      f' = { f with priv := f'.priv, tcause := f'.tcause, tpc := f'.tpc, tval := f'.tval, tinsn0 := f'.tinsn0, tinsn1 := f'.tinsn1,
                    pc := f'.pc, arrived := true, brkHalted := false } ∧
      f'.priv = true ∧ f'.tcause.toNat % 256 = cause ∧ f'.tcause.getLsbD 9 = after ∧ f'.tcause.toNat < 1024 ∧
      f'.tcause.getLsbD 8 = false ∧ f'.tpc = f.pc ∧ f'.tval = tval ∧ f'.tinsn0 = t0 ∧ f'.tinsn1 = t1 ∧
      f'.pc = x.codebase + BitVec.ofNat 64 x.trapentry) ∧
  (∀ (s : State) (n : Nat) (f : Frame) (fs : List Frame) (cause : Nat) (after : Bool) (tval t0 t1 : Word),
    (s.core n).frames = f :: fs → f.priv = true → (s.ctx f.task.ctx).state = 2 →
    let t := s.takeTrap n cause after tval t0 t1
    (t.ctx f.task.ctx).state = 3 ∧ (t.ctx f.task.ctx).cause = 0x0A ∧
    (t.ctx f.task.ctx).ord = f.task.id.extractLsb' 32 32 ∧ t.cores = s.cores ∧ t.mem = s.mem)

/-- R354: `TRAP n` raises cause 0x08 with `TVAL` n; `BRK n` raises cause 0x09 with `TVAL` n unless debug breaks are enabled; then the core
waits at the boundary before it, where R368 halts it, and a `BRK` at which the core has halted does nothing (R365). R355: the four modes
of `TRET`; R368: `TRET` and `TRET.next` occupy three cycles, like a taken transfer. Where this rests on a choice of the model: log 63. -/
def Obligations.TrapInstructions : Prop :=
  (∀ (s : State) (f : Frame) (fs : List Frame) (h : Hdr) (n : BitVec 24), Issues s f fs h false [] [] →
    exec (.trap h n) s = .next (s.trapped s.cur (.trap h n) 0x08 (BitVec.ofNat 64 n.toNat)) ∧
    (f.brkHalted = true → results s (.brk h n) h []) ∧
    (f.brkHalted = false → (s.core s.cur).dbg.brken = true → exec (.brk h n) s = .next (s.stopped s.cur)) ∧
    (f.brkHalted = false → (s.core s.cur).dbg.brken = false →
      exec (.brk h n) s = .next (s.trapped s.cur (.brk h n) 0x09 (BitVec.ofNat 64 n.toNat)))) ∧
  (∀ (s : State) (f : Frame) (fs : List Frame) (h : Hdr), Issues s f fs h true [] [] →
    let c := s.core s.cur
    let step := if f.tinsn0.extractLsb' 0 2 = 0 then 4 else if f.tinsn0.extractLsb' 0 2 = 1 then 8
      else if f.tinsn0.extractLsb' 0 2 = 2 then 12 else 16
    let next := if f.tcause.getLsbD 9 then f.tpc else f.tpc + BitVec.ofNat 64 step
    exec (.tret h) s = .next ((s.setCore s.cur { c with frames := { f with priv := false, pc := f.tpc } :: fs }).retire s.cur (.tret h) h
      { Ret.plain with pc := some f.tpc, cycles := 3 }) ∧
    exec (.tretNext h) s = .next ((s.setCore s.cur { c with frames := { f with priv := false, pc := next } :: fs }).retire s.cur
      (.tretNext h) h { Ret.plain with pc := some next, cycles := 3 }) ∧
    (f.window = .resident → ∃ t, exec (.tretKill h) s = .next t ∧ (t.core s.cur).frames = fs ∧ t.releases = s.releases) ∧
    (∃ t, exec (.tretEnd h) s = .next t ∧ ((s.ctx f.task.ctx).state = 2 →
      (t.ctx f.task.ctx).state = 3 ∧ (t.ctx f.task.ctx).cause = 0x0D ∧ (t.ctx f.task.ctx).ord = f.task.id.extractLsb' 32 32)))

/-! ## Scratchpad and memory instructions -/

/-- R207, R136, R113: the scratchpad instructions. The sources are read before the destination is written; what an integer operation of `n`
bytes gives is taken on 8n bits, signed where the operation is. R225: the scratchpad atomics write their new value and return the old
one, zero-extended; a `CAS` that fails writes nothing. -/
def Obligations.ScratchpadInstructions : Prop :=
  (∀ (s : State) (f : Frame) (fs : List Frame) (h : Hdr) (x sx : Bool) (sz : Size) (d a : GReg) (p q r : Ptr) (fm : Fmt) (rnd : Rnd),
    let c := s.core s.cur
    let n := Size.bytes sz
    let e := fmtBytes fm
    let rd (k : Nat) (t : Ptr) : Nat := leNat (c.padRead (f.ptr t) k)
    let put (k : Nat) (t : Ptr) (v : Nat) : State := s.instrStore s.cur f (f.ptr t) (leBytes k v)
    let step (k : Nat) (ts : List Ptr) : List Write := ts.flatMap (fun t => f.ptrStep t k)
    let three (ps : List Ptr) : Prop := Issues s f fs h false (ps.map fun t => .a (Ptr.reg t)) []
    let m : Int := 2 ^ (8 * n)
    let low (v : Int) : Nat := (v % m).toNat
    let sgn (v : Nat) : Int := if 2 * (v : Int) < m then v else v - m
    (Issues s f fs h false [.g d, .a (Ptr.reg p)] [] → PadFree s f n [p] [p] [] →
      results s (.lds h x sz sx d p) h
        (gRes d (if sx then BitVec.ofInt 64 (sgn (rd n p)) else BitVec.ofNat 64 (rd n p)) 3 :: f.ptrStep p n)) ∧
    (Issues s f fs h false [.a (Ptr.reg p), .g a] [] → PadFree s f n [p] [] [p] →
      completes s (.sts h x sz p a) h (put n p (f.getG a).toNat) { Ret.plain with writes := f.ptrStep p n }) ∧
    (three [p, q] → PadFree s f n [p, q] [q] [p] →
      completes s (.smov h x sz p q) h (put n p (rd n q))
        { Ret.plain with cycles := bankCycles [(f.ptr p, 1), (f.ptr q, 1)], writes := step n [p, q] }) ∧
    (three [p, q, r] → PadFree s f n [p, q, r] [q, r] [p] →
      let cyc := bankCycles [(f.ptr p, 1), (f.ptr q, 1), (f.ptr r, 1)]
      let y := rd n q
      let z := rd n r
      ∀ e ∈ [(SaluOp.add, low (y + z)), (.sub, low (y - z)), (.mul, low (y * z)), (.and, y &&& z), (.or, y ||| z), (.xor, y ^^^ z),
          (.min, if sgn y ≤ sgn z then y else z), (.max, if sgn y ≤ sgn z then z else y), (.minu, min y z), (.maxu, max y z),
          (.adds, low (max (-m / 2) (min (sgn y + sgn z) (m / 2 - 1)))), (.addus, min (y + z) (2 ^ (8 * n) - 1))],
        completes s (.salu h x e.1 sz p q r) h (put n p e.2) { Ret.plain with cycles := cyc, writes := step n [p, q, r] }) ∧
    (three [p, q, r] → PadFree s f e [p, q, r] [q, r] [p] →
      let cyc := bankCycles [(f.ptr p, 1), (f.ptr q, 1), (f.ptr r, 1)]
      let y := rd e q
      let z := rd e r
      ∀ o ∈ [(SfltOp.add, fAdd fm rnd y z), (.sub, fSub fm rnd y z), (.mul, fMul fm rnd y z), (.min, fMinMax fm false y z),
          (.max, fMinMax fm true y z), (.minp, fMinMaxP fm false y z), (.maxp, fMinMaxP fm true y z)],
        completes s (.sflt h x o.1 fm rnd p q r) h (put e p o.2.1) { pc := none, cycles := cyc, exc := o.2.2, writes := step e [p, q, r] }) ∧
    (three [p, q, r] → PadFree s f e [p, q, r] [p, q, r] [p] →
      let o := fFma fm rnd (rd e q) (rd e r) (rd e p)
      completes s (.sfma h x fm rnd p q r) h (put e p o.1)
        { pc := none, cycles := bankCycles [(f.ptr p, 2), (f.ptr q, 1), (f.ptr r, 1)], exc := o.2, writes := step e [p, q, r] })) ∧
  (∀ (s : State) (f : Frame) (fs : List Frame) (h : Hdr) (wide : Bool) (d b c : GReg) (p : Ptr),
    let n := if wide then 8 else 4
    let old := leNat ((s.core s.cur).padRead (f.ptr p) n)
    let put (v : Nat) : State := s.instrStore s.cur f (f.ptr p) (leBytes n (v % 2 ^ (8 * n)))
    let r : Ret := { Ret.plain with cycles := 2, writes := gRes d (BitVec.ofNat 64 old) 3 :: f.ptrStep p n }
    PadFree s f n [p] [p] [p] →
    (Issues s f fs h false [.g d, .a (Ptr.reg p), .g b] [] →
      completes s (.xchgs h wide d p b) h (put (f.getG b).toNat) r ∧
      completes s (.xadds h wide d p b) h (put (old + (f.getG b).toNat)) r) ∧
    (Issues s f fs h false [.g d, .a (Ptr.reg p), .g b, .g c] [] →
      completes s (.cass h wide d p b c) h (if old = (f.getG b).toNat % 2 ^ (8 * n) then put (f.getG c).toNat else s) r))

/-- R205: a scratchpad write changes the bytes written and no other byte; nothing else of the package changes but the core's watches and the
tasks that they release (R289) and the horizon of the writing frame (R45). -/
def Obligations.ScratchpadWriteFrame : Prop :=
  ∀ (s : State) (n : Nat) (f : Frame) (a : Nat) (bs : List Byte),
    let t := s.instrStore n f a bs
    let c := s.core n
    let c' := t.core n
    (∀ k, fget 0 c'.pad k = if a ≤ k ∧ k < a + bs.length then bs.getD (k - a) 0 else fget 0 c.pad k) ∧
    (∀ k, k ≠ n → t.core k = s.core k) ∧
    t = { s with cores := t.cores, releases := t.releases } ∧
    c' = { c with pad := c'.pad, watches := c'.watches, frames := c'.frames } ∧
    (c.watches = [] → t.releases = s.releases ∧ c'.watches = []) ∧
    c'.frames = c.frames.map (fun g => if g.uid = f.uid then
      { g with horizon := g.horizon || (s.ctx f.task.ctx).guarded a bs.length } else g)

/-- R208, R209, R221: the loads at issue. The request names its line and takes what the open bundle lays over it; the register waits for
the reply (R134); `LDV` completes inside the instruction (R206). `LDD` decodes its element by the description of the version that is
chosen, with a trap where the line has none or the element lies beyond it. R371: with 16 requests outstanding a load of a line waits at
the boundary before it; a load of a window, `LDD` too, takes none of the 16. R170: a load whose page has no leaf that serves it takes a page
fault. Where this rests on a choice of the model: log 23. -/
def Obligations.LoadsAtIssue : Prop :=
  ∀ (s : State) (f : Frame) (fs : List Frame) (h : Hdr) (sz : Size) (sx : Bool) (d a b : GReg) (disp : BitVec 24) (p : Ptr) (fm : Fmt)
      (r : Rnd) (pl : Place) (s1 : State),
    let n := Size.bytes sz
    let x := s.ctx f.task.ctx
    let ad := BitVec.ofInt 64 ((f.getG a).toNat + disp.toInt)
    let src (w : Word) := s1.source f w pl
    let free : Prop := (s.core s.cur).outstanding < 16
    (Issues s f fs h false [.g d, .g a] [] → ∀ k page, s.addrChk x false ad n n = .ok k → s.place s.cur f.task.ctx false ad k = (.fault page, s1) →
      exec (.ld h sz sx d a disp) s = .next ((s1.pageFault s.cur page).stopped s.cur)) ∧
    (Issues s f fs h false [.g d, .g a] [] →
      (reaches s f false ad n pl s1 →
        (free → completes s (.ld h sz sx d a disp) h (s1.ask s.cur f d (.load (src ad).1 (src ad).2 (pl.off ad) n sx)) Ret.plain) ∧
        ((∃ k, pl = .window k) → (s.core s.cur).outstanding ≤ 16 → completes s (.ld h sz sx d a disp) h
          (s1.ask s.cur f d (.load (src ad).1 (src ad).2 (pl.off ad) n sx)) Ret.plain) ∧
        (¬ free → (∃ key off page, pl = .line key off page) → exec (.ld h sz sx d a disp) s = .next (s.stopped s.cur))) ∧
      (reaches s f false (f.getG a) 64 pl s1 → free →
        completes s (.ldtag h d a) h (s1.ask s.cur f d (match pl with
          | .line key _ _ => .ldtag (.line key) (s.overlay f.bundle key)
          | .window k => .load (.data (bytesOf 8 (winTag (fget GenWin.absent x.windows k).efmt).word)) Overlay.none 0 8 false))
          Ret.plain)) ∧
    (Issues s f fs h false [.a (Ptr.reg p), .g a] [] → f.padCheck x (f.ptr p) 64 = .ok () →
      (s.core s.cur).rangeWaits [] [(f.ptr p, 64)] = false → reaches s f false ad 64 pl s1 → free →
      completes s (.ldv h p a disp) h (s1.request s.cur f none true (.ldv (src ad).1 (src ad).2 (f.ptr p) (s.setOf s.cur f)))
        { Ret.plain with writes := f.ptrStep p 64 }) ∧
    (Issues s f fs h false [.g d, .g a, .g b] [] → reaches s f false (f.getG a) 64 pl s1 →
      let i : Instr := .ldd h fm r d a b
      let gives (t : State) (desc : Option (Fmt × Byte)) (bs : List Byte) (answer : Word → ReqKind) : Prop :=
        match lddValue desc bs (f.getG b).toNat fm r x.ovf with
        | .ok v => completes s i h (t.ask s.cur f d (answer (BitVec.ofNat 64 v.1))) { Ret.plain with exc := v.2 }
        | .trap c tv => exec i s = .next (s.trapped s.cur i c tv)
      (∀ k, pl = .window k → (s.core s.cur).outstanding ≤ 16 →
        gives s1 (some (fmtOfCode (fget GenWin.absent x.windows k).efmt, 0x78)) (x.windowBytes k (f.getG a).toNat 64)
          (fun v => .load (.data (bytesOf 8 v)) Overlay.none 0 8 false)) ∧
      (∀ key off page, pl = .line key off page →
        (s.readWaits s.cur f key = true → exec i s = .next (s.stopped s.cur)) ∧
        (free → s.readWaits s.cur f key = false → ∀ v t, s1.readLine s.cur f f.acq key = .ok v t →
          gives t (describe v.tag (s.overlay f.bundle key)) (layOver v.data (s.overlay f.bundle key).bytes) .done)))

/-- R134, R208: the reply to a load. The bytes are those of the version that the home chooses for the frame (R216) with the open bundle's
bytes at issue over them; the register takes the value, extended as the load says, and waits no longer. The requests of a task are served
in the order of their issue, and those of a core for one home in the order sent (R323). Where no version obeys the view, the task takes a
view-too-old abort (R218). Where this rests on a choice of the model: log 4, log 95. -/
def Obligations.LoadReplyDeliversItsBytes : Prop :=
  ∀ (s s1 : State) (n id : Nat) (q : Req) (f : Frame) (d : GReg) (key off k : Nat) (o : Overlay) (sx : Bool) (v : Version),
    (s.core n).reqs.find? (fun q => q.id == id) = some q → q.id = id → (s.ctx q.ctx).tearing = false → s.reqWaits n q = false →
    s.behind n q.place = false → (s.core n).frame? q.frame = some f → q.dst = some (.g d) → q.kind = .load (.line key) o off k sx →
    (s.readLine n f q.acq key = .tooOld → exec (.loadReply n id) s =
      .next (((s.setCore n ((s.core n).dropReqs f.uid)).viewTooOldOf n f.uid).stopped n)) ∧
    (s.readLine n f q.acq key = .ok v s1 →
    let bytes := ((List.range 64).map (fun i => (fget none o.bytes i).getD (v.data.getD i 0))).drop off |>.take k
    v.data.length = 64 →
    ∃ t g, exec (.loadReply n id) s = .next t ∧ (t.core n).frame? q.frame = some g ∧
      (d ≠ 0 → g.getG d = if sx ∧ 2 ^ (8 * k - 1) ≤ leNat bytes % 2 ^ (8 * k) then
          BitVec.ofInt 64 ((leNat bytes % 2 ^ (8 * k) : Nat) - 2 ^ (8 * k)) else BitVec.ofNat 64 (leNat bytes % 2 ^ (8 * k))) ∧
      (∀ e, e ≠ d → g.getG e = f.getG e) ∧ g.await = f.await.erase (.g d) ∧ g.p = f.p ∧ g.a = f.a ∧ g.pc = f.pc ∧
      (t.core n).reqs = (s.core n).reqs.filter (fun x => x.id != id) ∧ t.mem = s.mem)

/-- R208, R210, R211: a store puts its bytes into the line of the open bundle that its address names; a 129th line traps with cause 0x1A.
Memory is unchanged until the bundle is closed and arrives. R211, R208: what the open bundle lays over a line after a store: the bytes
stored, at their offset, over those it laid before; the description of the last `STD`. Other lines are as before. R376, R332: a line for a
peer of this package lays its bytes over the line that the peer's address names there; of two stores to one line, under whatever names of
it, the later one's bytes lie over the earlier one's. Where this rests on a choice of the model: log 104, log 109. -/
def Obligations.StoresEnterTheOpenBundle : Prop :=
  (∀ (s : State) (f : Frame) (fs : List Frame) (h : Hdr) (sz : Size) (a b : GReg) (disp : BitVec 24) (p : Ptr) (fm : Fmt)
      (key off : Nat) (page : Option Nat) (s1 : State),
    let n := Size.bytes sz
    let ad := BitVec.ofInt 64 ((f.getG a).toNat + disp.toInt)
    let pad := (s.core s.cur).padRead (f.ptr p) 64
    let free : Prop := f.padCheck (s.ctx f.task.ctx) (f.ptr p) 64 = .ok () ∧ (s.core s.cur).rangeWaits [(f.ptr p, 64)] [] = false
    let stores (i : Instr) (l : BLine) (ws : List Write) : Prop := match s1.putLine f.bundle l with
      | none => exec i s = .next (s.trapped s.cur i 0x1A 0)
      | some bd => completes s i h (s1.setCore s.cur ((s1.core s.cur).onFrame f.uid (fun g => { g with bundle := bd })))
          { Ret.plain with writes := ws }
    (Issues s f fs h false [.g a, .g b] [] → reaches s f true ad n (.line key off page) s1 →
      stores (.st h sz a b disp) (homeLine key page ad off (bytesOf n (f.getG b)) none) []) ∧
    (Issues s f fs h false [.a (Ptr.reg p), .g a] [] → free → reaches s f true ad 64 (.line key off page) s1 →
      stores (.stv h p a disp) (homeLine key page ad off pad none) (f.ptrStep p 64)) ∧
    (Issues s f fs h false [.a (Ptr.reg p), .g a, .g b] [] → free → reaches s f true (f.getG a) 64 (.line key off page) s1 →
      stores (.std h fm p a b) (homeLine key page (f.getG a) off pad (some (BitVec.ofNat 4 (fmtCode fm), (f.getG b).setWidth 8)))
        (f.ptrStep p 64))) ∧
  (∀ (s : State) (b c : Bundle) (key key' : Nat) (page : Option Nat) (a : Word) (off : Nat) (bs : List Byte)
      (std : Option (BitVec 4 × Byte)),
    s.putLine b (homeLine key page a off bs std) = some c →
    (∀ i, fget none (c.overlay key).bytes i =
      if off ≤ i ∧ i < off + bs.length then bs[i - off]? else fget none (b.overlay key).bytes i) ∧
    (c.overlay key).std = (match std with | some d => some d | none => (b.overlay key).std) ∧
    (key' ≠ key → c.overlay key' = b.overlay key') ∧ c.effects = b.effects ∧ c.lines.length ≤ b.lines.length + 1 ∧
    (b.lines.length ≤ 128 → c.lines.length ≤ 128)) ∧
  (∀ (s : State) (b : Bundle) (l : BLine) (key : Nat),
    ((∀ x ∈ b.lines, s.peerKey x ≠ some key) → s.overlay b key = b.overlay key) ∧
    (s.putLine b l = none ↔ 128 ≤ b.lines.length ∧ ∀ x ∈ b.lines, x.dest = l.dest → x.fold = l.fold →
      (∃ p, l.dest = .peer p) ∧ x.addr ≠ l.addr) ∧
    (∀ c, s.putLine b l = some c → l.fold = none → mapWf none l.bytes = true → (∀ x ∈ b.lines, mapWf none x.bytes = true) →
      (s.lineKey l = some key → ∀ i, fget none (s.overlay c key).bytes i = match fget none l.bytes i with
        | some v => some v
        | none => fget none (s.overlay b key).bytes i) ∧
      (s.lineKey l ≠ some key → s.overlay c key = s.overlay b key)))

/-! ## Bundles, views and homes -/

/-- R212: closing. The bundle takes the core's next commit sequence number (0 is skipped), keeps the lines of the open bundle and the scope,
and the frame has an empty open bundle. While it is not known whether a compare-and-swap of the core writes, and so takes that number, the
instruction waits at the boundary before it (log 24). -/
def Obligations.ClosingABundle : Prop :=
  ∀ (s : State) (f : Frame) (fs : List Frame) (h : Hdr) (sc : Scope), Issues s f fs h false [] [] →
    ((s.core s.cur).casOpen ≠ none → exec (.bclose h sc) s = .next (s.stopped s.cur)) ∧
    ((s.core s.cur).casOpen = none → (∀ l ∈ f.bundle.lines, l.prog = .flight) →
    let q : CSeq := if (s.core s.cur).cseq = 0xFFFFFFFF then 1 else (s.core s.cur).cseq + 1
    ∃ t g gs, completes s (.bclose h sc) h t Ret.plain ∧ (t.core s.cur).cseq = q ∧ (t.core s.cur).frames = g :: gs ∧
      g.bundle = Bundle.empty ∧ g.bundles = f.bundles ++ [s.uid] ∧ g.view = f.view ∧ g.pc = f.pc ∧ gs.map Frame.uid = fs.map Frame.uid ∧
      (f.bundle.lines ≠ [] → ∃ b ∈ (t.core s.cur).closed, b.uid = s.uid ∧ b.seq = q ∧ b.scope = sc ∧ b.lines = f.bundle.lines ∧ b.ctx = f.task.ctx))

/-- R220, R221, R281: `COMMIT`, the fences and the probes. After `FENCE.scope` and `COMMIT` the task issues nothing further while a line
of one of its closed bundles in the reach is not known to be settled, at whatever core it has closed them: a line that is settled at its
home and whose settle has not been acknowledged still keeps it waiting (log 34). `FENCE.fresh` empties the view; a probe or a prefetch of
a line that needs no translation, or of a window, does nothing. Where this rests on a choice of the model: log 34, log 40. -/
def Obligations.FencesAndProbes : Prop :=
  ∀ (s : State) (f : Frame) (fs : List Frame) (h : Hdr) (sc : Scope) (a : GReg) (w : Bool),
    let c := s.core s.cur
    let ad := f.getG a
    let top (g : Frame) : State := s.setCore s.cur (c.setTop g)
    (Issues s f fs h false [] [] →
      completes s (.fence h sc) h (top { f with settleWait := some sc }) Ret.plain ∧
      (∃ past, completes s (.fenceFresh h) h (top { f with acq := f.acq + 1, past, view := [], asked := [] }) Ret.plain) ∧
      (c.casOpen = none → completes s (.commit h) h ((s.closeTop s.cur .system).setCore s.cur (((s.closeTop s.cur .system).core s.cur).onFrame f.uid
        (fun g => { g with settleWait := some .system }))) Ret.plain)) ∧
    (∀ i, i.hdr? = some h → c.frames = f :: fs → c.dbg.halted = false → (c.reqs.any fun q => q.inside) = false →
      f.settleWait = some sc → (∃ k, ∃ b ∈ (s.core k).closed, b.uid ∈ f.bundles ∧ ∃ l ∈ b.lines, inReach s.cur sc l.dest ∧
        l.prog ∈ [Prog.flight, .arrived, .acked, .settling, .settled]) → exec i s = .next (s.stopped s.cur)) ∧
    (Issues s f fs h false [.g a] [] →
      (∀ key off, s.kind (s.ctx f.task.ctx) false ad = .line key off → results s (.probe h w a) h [] ∧ results s (.pref h a) h []) ∧
      (∀ k, s.kind (s.ctx f.task.ctx) false ad = .window k → results s (.probe h w a) h [] ∧ results s (.pref h a) h []) ∧
      (∀ page pl s1, s.kind (s.ctx f.task.ctx) false ad = .paged page →
        s.place s.cur f.task.ctx w ad (.paged page) = (.ok pl, s1) → completes s (.probe h w a) h s1 Ret.plain) ∧
      (∀ page, s.kind (s.ctx f.task.ctx) false ad = .paged page →
        completes s (.pref h a) h (s.place s.cur f.task.ctx false ad (.paged page)).2 Ret.plain) ∧
      (s.kind (s.ctx f.task.ctx) false ad = .bad 0x11 →
        exec (.probe h w a) s = .next (s.trapped s.cur (.probe h w a) 0x11 ad)))

/-- R213: a line arrives at its home. The newer version becomes the older one; the bytes written lie over its data; the new version is
pending, with the writer and the sequence number of the bundle. Every other line keeps its data and its tags. While the newer version is
pending the line waits; a second line of the same bundle, under another name of the line, adds its bytes to the pending version. An earlier message of the core that the home can take comes first (R323), and the message goes over circuits that
lead from the core to the home. R165: an uncorrectable line ends the context with cause 0x04. Where this rests on a choice of the model:
log 25, log 82, log 95, log 104. -/
def Obligations.LineArrivesAtItsHome : Prop :=
  ∀ (s : State) (n : Nat) (seq : CSeq) (i : Nat) (b : Closed) (l : BLine) (key : Nat),
    (s.core n).line? seq i = some (b, l) → l.dest = .home key → l.fold = none → l.prog = .flight → b.seq = seq → b.atHome = false →
    (let v := (s.mem.lineTags key).newer
     (v.st = .pending → ¬ (v.writer = s.writer n ∧ v.cseq = seq) → exec (.bundleLineArrival n seq i) s = .next s) ∧
     (v.st = .pending → v.writer = s.writer n → v.cseq = seq → s.mem.isBad key = false →
      (∀ p, l.page = some p → s.breach b.ctx p (key / 1024) = false) → (s.core n).readsBefore b.uid key = false →
      s.lineFirst n b i key = false → s.behind n (b.place i) = false → s.linksHome n key = true →
      let old := s.mem.newerData key
      ∃ t, exec (.bundleLineArrival n seq i) s = .next t ∧
        t.mem.newerData key = (List.range 64).map (fun k => (fget none l.bytes k).getD (old.getD k 0)) ∧
        t.mem.olderData key = s.mem.olderData key ∧ (t.mem.lineTags key).older = (s.mem.lineTags key).older ∧
        (t.mem.lineTags key).newer.st = .pending ∧ (t.mem.lineTags key).newer.writer = s.writer n ∧ (t.mem.lineTags key).newer.cseq = seq ∧
        (l.std = none → t.mem.lineTags key = s.mem.lineTags key) ∧
        (∀ k, k ≠ key → t.mem.newerData k = s.mem.newerData k ∧ t.mem.olderData k = s.mem.olderData k ∧
          t.mem.lineTags k = s.mem.lineTags k))) ∧
    (s.lineWaits n b i l key = false → s.behind n (b.place i) = false → s.mem.isBad key = true → l.page = none →
      (s.ctx b.ctx).state = 2 → ∃ t, exec (.bundleLineArrival n seq i) s = .next t ∧ (t.ctx b.ctx).state = 3 ∧
        (t.ctx b.ctx).cause = 0x04 ∧ (t.ctx b.ctx).ord = b.id.extractLsb' 32 32 ∧ t.mem = s.mem) ∧
    (s.mem.isBad key = false → (∀ p, l.page = some p → s.breach b.ctx p (key / 1024) = false) →
    (s.mem.lineTags key).newer.st ≠ .pending → (s.core n).readsBefore b.uid key = false → s.lineFirst n b i key = false →
    s.behind n (b.place i) = false → s.linksHome n key = true →
    let old := s.mem.newerData key
    ∃ t, exec (.bundleLineArrival n seq i) s = .next t ∧
      t.mem.newerData key = (List.range 64).map (fun k => (fget none l.bytes k).getD (old.getD k 0)) ∧ t.mem.olderData key = old ∧
      (t.mem.lineTags key).older = (s.mem.lineTags key).newer ∧ (t.mem.lineTags key).newer.st = .pending ∧
      (t.mem.lineTags key).newer.writer = s.writer n ∧ (t.mem.lineTags key).newer.cseq = seq ∧
      (∀ d, l.std = some d → (t.mem.lineTags key).newer.desc = true ∧ (t.mem.lineTags key).newer.fmt = d.1 ∧
        (t.mem.lineTags key).newer.scale = d.2) ∧
      (l.std = none → (t.mem.lineTags key).newer.desc = (s.mem.lineTags key).newer.desc) ∧
      (∀ k, k ≠ key → t.mem.newerData k = s.mem.newerData k ∧ t.mem.olderData k = s.mem.olderData k ∧
        t.mem.lineTags k = s.mem.lineTags k) ∧
      (∃ b' image, (t.core n).line? seq i = some (b', { l with prog := .arrived, image })) ∧ t = { s with mem := t.mem, cores := t.cores })

/-- R213: the other steps of a line. Settling and quieting change the state of the version that the bundle wrote, and no data. R216, R219:
what a core learns of a writer of another package: that its bundles are quiet up to a bound, which never falls back. Where this rests on a
choice of the model: log 34, log 95. -/
def Obligations.LinesSettleAndBecomeQuiet : Prop :=
  (∀ (s : State) (n : Nat) (seq : CSeq) (i : Nat) (b : Closed) (l : BLine) (key : Nat),
    (s.core n).line? seq i = some (b, l) → l.dest = .home key → b.seq = seq →
    (s.mem.lineTags key).newer.writer = s.writer n ∧ (s.mem.lineTags key).newer.cseq = seq →
    s.mem.confirmed = [] → s.linksHome n key = true →
    let tags (t : State) (st : VState) : Prop :=
      (∀ k, t.mem.newerData k = s.mem.newerData k ∧ t.mem.olderData k = s.mem.olderData k) ∧
      t.mem.lineTags key = { s.mem.lineTags key with newer := { (s.mem.lineTags key).newer with st } } ∧
      (∀ k, k ≠ key → t.mem.lineTags k = s.mem.lineTags k)
    (l.prog = .settling → s.behind n (b.place i) = false → ∃ t, exec (.settleAtHome n seq i) s = .next t ∧ tags t .settled ∧
      ∃ b', (t.core n).line? seq i = some (b', { l with prog := .settled })) ∧
    (l.prog = .quieting → (s.core n).quietBehind seq = false → s.behind n (b.place i) = false → ∃ t, exec (.quietAtHome n seq i) s = .next t ∧ tags t .quiet) ∧
    (l.prog = .arrived → b.atHome = false → (s.ctx b.ctx).pair.pen = false →
      exec (.lineAcknowledgement n seq i) s = .next ((s.setLine n seq i (fun l => { l with prog := .acked })).progress n)) ∧
    (l.prog = .settled →
      exec (.settleAcknowledgement n seq i) s = .next ((s.setLine n seq i (fun l => { l with prog := .settleAcked })).progress n))) ∧
  (∀ (s : State) (n : Nat) (w : Writer) (up : CSeq), w.extractLsb' 11 5 ≠ s.fabric.pkgnum →
    let old := fget none (s.core n).known w.toNat
    let c := s.core n
    let new : CSeq := match old with
      | none => up
      | some b => if (up - b).toNat < 2 ^ 31 then up else b
    exec (.quietQueryReply n w up) s = .next ((s.setCore n { c with
      known := fset none c.known w.toNat (some new)
      frames := c.frames.map (fun f => if w ∈ f.asked then f else { f with asked := f.asked ++ [w] }) }).progress n))

/-- R216, R218: the choice of a version. A home gives the newer version, the older one, or one that it keeps for a protected task (R218). It
never gives a version that the resulting view excludes, but for a pending one that the view includes, whether the newer version is settled,
or pending and declined; nor a pending one that the view does not include. Declining the pending newer version sets the exclusion of its
writer at or before its bundle. The view includes what is given, unless that is quiet. Where no version can be given, the newer settled one
and the older one are excluded. Bounds half the number space apart, which serial order does not compare, are left out, and a view names a
writer once. -/
def Obligations.ChosenVersionsObeyTheView : Prop :=
  ∀ (s : State) (n uid : Nat) (v : View) (key : Nat),
    let t := s.mem.lineTags key
    let own := s.writer n
    (∀ w x, s.choose n uid v key = .take x w →
      let newer : Version := { data := s.mem.newerData key, tag := t.newer }
      (x = newer ∨ x = { data := s.mem.olderData key, tag := t.older } ∨
        ∃ k ∈ s.mem.pool, k.frame = uid ∧ k.key = key ∧ x = { data := k.data, tag := k.tag }) ∧
      (s.mem.pool = [] → x.tag = t.newer → x.tag.st = .pending → v.included own x.tag.writer x.tag.cseq = true ∨ x.tag = t.older) ∧
      ((v.map VEntry.writer).Nodup → w.excluded own x.tag.writer x.tag.cseq = false ∨
        x = newer ∧ t.newer.st = .pending ∧ v.included own t.newer.writer t.newer.cseq = true) ∧
      (t.newer.st = .pending → v.included own t.newer.writer t.newer.cseq = false →
        ∃ e ∈ w, e.writer = t.newer.writer ∧ ∃ b, e.exc = some b ∧ serLe b t.newer.cseq = true) ∧
      ((∀ e ∈ v, ∀ b, e.writer = x.tag.writer → e.inc = some b → (b - x.tag.cseq).toNat ≠ 2 ^ 31) →
        x.tag.st = .quiet ∨ w.included own x.tag.writer x.tag.cseq = true)) ∧
    (s.choose n uid v key = .tooOld →
      (t.newer.st = .pending → v.included own t.newer.writer t.newer.cseq = false) ∧
      (t.newer.st ≠ .pending → v.excluded own t.newer.writer t.newer.cseq = true ∧ v.excluded own t.older.writer t.older.cseq = true))

/-! ## Atomics and folds -/

/-- R225: an atomic of main memory or of a vault. At issue the register waits for the old value, the task has passed the abort horizon, and
the atomic is a bundle of one line, closed at system scope with the core's next commit sequence number, which a `CAS` takes for good when it
writes; while another compare-and-swap holds that number the atomic waits at the boundary before it. The home changes only the bytes of the
operand, as the version of that bundle, settled, returns the old value zero-extended, and leaves memory as it was where a `CAS` fails, which
is then no bundle. Where this rests on a choice of the model: log 37, log 24, log 95. -/
def Obligations.MemoryAtomics : Prop :=
  (∀ (s : State) (f : Frame) (fs : List Frame) (h : Hdr) (wide : Bool) (d a b c : GReg) (key off : Nat) (page : Option Nat)
      (s1 : State),
    let ad := f.getG a
    let n := if wide then 8 else 4
    let k := s.core s.cur
    let q : CSeq := if k.cseq = 0xFFFFFFFF then 1 else k.cseq + 1
    let req (op : AtomOp) : State := s1.ask s.cur f d (.atom key off n op (ad &&& ~~~63) page q)
    let line := homeLine key page ad off [] none
    let asks (op : AtomOp) : State := (req op).atomBundle s.cur f op.compares line
    reaches s f true ad n (.line key off page) s1 → k.outstanding < 16 →
    (k.casOpen = none →
      (Issues s f fs h false [.g d, .g a, .g b] [] →
        completes s (.xchg h wide d a b) h (asks (.xchg (f.getG b))) Ret.plain ∧
        completes s (.xadd h wide d a b) h (asks (.add (f.getG b))) Ret.plain) ∧
      (Issues s f fs h false [.g d, .g a, .g b, .g c] [] →
        completes s (.cas h wide d a b c) h (asks (.cas (f.getG b) (f.getG c))) Ret.plain) ∧
      (∀ op, ((asks op).core s.cur).cseq = (match op with
          | .cas _ _ => k.cseq
          | .xchg _ | .add _ => q) ∧
        (∃ e ∈ ((asks op).core s.cur).closed, e.seq = q ∧ e.scope = .system ∧ e.lines = [line] ∧ e.ctx = f.task.ctx ∧ e.id = f.task.id) ∧
        (∀ g ∈ ((asks op).core s.cur).frames, g.uid = f.uid → g.horizon = true))) ∧
    (k.casOpen ≠ none →
      (Issues s f fs h false [.g d, .g a, .g b] [] → exec (.xchg h wide d a b) s = .next (s.stopped s.cur) ∧
        exec (.xadd h wide d a b) s = .next (s.stopped s.cur)) ∧
      (Issues s f fs h false [.g d, .g a, .g b, .g c] [] → exec (.cas h wide d a b c) s = .next (s.stopped s.cur)))) ∧
  (∀ (s : State) (n id : Nat) (q : Req) (key off k : Nat) (op : AtomOp) (addr : Word) (page : Option Nat) (seq : CSeq),
    (s.core n).reqs.find? (fun q => q.id == id) = some q → q.kind = .atom key off k op addr page seq → off + k ≤ 64 → page = none →
    s.reqWaits n q = false → s.behind n q.place = false → (s.mem.lineTags key).newer.st ≠ .pending → s.mem.isBad key = false →
    s.mem.confirmed = [] → (s.ctx q.ctx).pair.pen = false → (s.core n).fclosed = [] →
    let data := s.mem.newerData key
    let old := leNat ((data.drop off).take k)
    let new : Option Nat := match op with
      | .xchg v => some v.toNat
      | .add v => some (old + v.toNat)
      | .cas cmp v => if old = cmp.toNat % 2 ^ (8 * k) then some v.toNat else none
    ∃ t, exec (.atomicAtHome n id) s = .next t ∧
      (∀ r ∈ (t.core n).reqs, r.id = id → r.kind = .done (BitVec.ofNat 64 (old % 2 ^ (8 * k)))) ∧
      (new = none → (t.core n).cseq = (s.core n).cseq ∧ (∀ b ∈ (t.core n).closed, b.seq ≠ seq) ∧ t.mem = s.mem) ∧
      (∀ v, new = some v → t.mem.newerData key = data.take off ++ leBytes k v ++ data.drop (off + k) ∧
        t.mem.olderData key = data ∧ (t.mem.lineTags key).newer.st = .settled ∧ (t.mem.lineTags key).newer.writer = s.writer n ∧
        (t.mem.lineTags key).newer.cseq = seq ∧ (t.core n).cseq = (match op with
          | .cas _ _ => seq
          | .xchg _ | .add _ => (s.core n).cseq)) ∧
      (∀ j, j ≠ key → t.mem.newerData j = s.mem.newerData j ∧ t.mem.olderData j = s.mem.olderData j))

/-- R222, R223, R224: the fold instructions at issue: `FOPEN` asks the home for an object, `FOLD` puts its lines into the open bundle,
`FCLOSE` carries the closer's included set. R222: `FOPEN` with a target of `lines` lines and a staging area of
`cnt` × `lines` lines asks the fold home of the target for an object, which keeps the pages of its lines (log 33); the task has passed the abort horizon
(log 37). The home answers 2 where the target is open, 1 where its table is full, and else 0 with an object that has no contribution. That
it answers 2 where both hold is the model's choice (log 81), as is the order of a core's messages that wait (log 95). -/
def Obligations.FoldObjectsOpen : Prop :=
  (∀ (s : State) (f : Frame) (fs : List Frame) (h : Hdr) (d a b : GReg) (p : Ptr) (lm1 : BitVec 4) (key off : Nat)
      (page : Option Nat) (s1 : State),
    let c := s.core s.cur
    let ga := f.getG a
    let lines := lm1.toNat + 1
    let part (l : Nat) : BLine := { homeLine key none ga 0 (c.padRead (f.ptr p + 64 * l) 64) none with
      fold := some { obj := ga, key, k := f.getG b, l, lines } }
    reaches s f true ga 1 (.line key off page) s1 →
    (Issues s f fs h false [.a (Ptr.reg p), .g a, .g b] [] →
      f.rangeCheck (s.ctx f.task.ctx) (f.ptr p) (64 * lines) 64 = .ok () → c.rangeWaits [(f.ptr p, 64 * lines)] [] = false →
      ∀ bd, s1.putLines f.bundle ((List.range lines).map part) = some bd →
        completes s (.fold h p a b lm1) h (s1.setCore s.cur ((s1.core s.cur).onFrame f.uid (fun g => { g with bundle := bd })))
          { Ret.plain with writes := f.ptrStep p (64 * lines) }) ∧
    (Issues s f fs h false [.g d, .g a] [] → c.outstanding < 16 →
      completes s (.fclose h d a) h (s1.ask s.cur f d (.fclose (.fclose h d a) key ga (c.includedSet (s.writer s.cur) f.view))) Ret.plain)) ∧
  ((∀ (s : State) (f : Frame) (fs : List Frame) (h : Hdr) (op : FoldOp) (fm : Fmt) (r : Rnd) (d a b c : GReg),
    Issues s f fs h false [.g d, .g a, .g b, .g c] [] →
    let x := s.ctx f.task.ctx
    let ga := f.getG a
    let gb := f.getG b
    let gc := (f.getG c).toNat
    let cnt := gc % 64 + 1
    let lines := gc / 256 % 16 + 1
    (gc &&& 0x10F3F ≠ gc → exec (.fopen h op fm r d a b c) s = .next (s.trapped s.cur (.fopen h op fm r d a b c) 0x1D 0)) ∧
    (∀ ks kt ps s1, gc &&& 0x10F3F = gc → ga.toNat % 64 = 0 → gb.toNat % 64 = 0 → sameVault ga gb = true →
      s.kindAll x true (linePieces (lineAddrs ga lines)) = .ok ks → s.kindAll x true (linePieces (lineAddrs gb (cnt * lines))) = .ok kt →
      s.placeTwo s.cur f.task.ctx true ks kt = (.ok ps, s1) → (s1.core s.cur).outstanding < 16 →
      let s2 := s1.ask s.cur f d
        (.fopen (foldHome ((keysOf ps.1).headD 0)) (keysOf ps.1) (ps.1.map Place.page) (keysOf ps.2) (ps.2.map Place.page) gb cnt op fm r
          (gc.testBit 16))
      completes s (.fopen h op fm r d a b c) h
        (s2.setCore s.cur ((s2.core s.cur).onFrame f.uid (fun g => { g with horizon := true }))) Ret.plain)) ∧
  (∀ (s : State) (n id : Nat) (q : Req) (home : Nat) (key : Nat) (keys stage : List Nat) (pages spages : List (Option Nat))
      (sa : Word) (cnt : Nat) (op : FoldOp) (fm : Fmt) (r : Rnd) (ident : Bool),
    (s.core n).reqs.find? (fun q => q.id == id) = some q →
    q.kind = .fopen home (key :: keys) pages stage spages sa cnt op fm r ident → s.linksHome n key = true →
    s.behind n q.place = false →
    let isOpen : Prop := ∃ o ∈ s.mem.folds, o.keys.head? = some key
    let full : Prop := (if vaultKey0 ≤ key then 16 else 64) ≤ (s.mem.folds.filter (fun o => o.home == home)).length
    let answer (v : Word) : State := s.setCore n ((s.core n).setKind id (.done v))
    (isOpen → exec (.foldHomeOpen n id) s = .next (answer 2)) ∧
    (¬ isOpen → full → exec (.foldHomeOpen n id) s = .next (answer 1)) ∧
    (¬ isOpen → ¬ full → exec (.foldHomeOpen n id) s = .next ((answer 0).setMem { s.mem with folds := s.mem.folds ++
      [{ ctx := q.ctx, home, keys := key :: keys, pages, stage, stagePages := spages, stageAddr := sa, n := cnt, op, f := fm, r, ident,
         present := [], broken := false, closing := false }] }))))

/-- R223, R224: contributions and closes at the fold home. A line of contribution k goes to its staging line and is marked present; a
contribution that the object does not take breaks it; one whose pending version is discarded is present no longer (R213); a close of no open
object answers 1, with a contribution missing 2, of a broken object 3, which frees it; an applied close writes the target as a bundle of the
closer, which carries the priority tag of its task (R331, R371). R224: the fold of an integer line by addition: element by element the start and the contributions, mod 2^w, with no exception. Where
this rests on a choice of the model: log 24, log 39, log 95. -/
def Obligations.FoldContributionsAndClose : Prop :=
  ((∀ (s : State) (n : Nat) (seq : CSeq) (i : Nat) (b : Closed) (l : BLine) (p : FoldPart) (key : Nat) (o : FoldObj),
    (s.core n).line? seq i = some (b, l) → b.seq = seq → l.dest = .home key → l.fold = some p → l.prog = .flight →
    s.mem.foldAt key p.obj = some o → s.linksHome n key = true → s.behind n (b.place i) = false →
    let j := p.k.toNat * o.keys.length + p.l
    (∀ st, p.k.toNat < o.n → p.lines = o.keys.length → p.l < p.lines → fget none o.present j = none →
      o.stage[j]? = some st → (s.mem.lineTags st).newer.st ≠ .pending → s.mem.isBad st = false → (o.stagePages[j]?).join = none →
      (s.core n).readsBefore b.uid st = false → s.linksHome n st = true →
      ∃ t, exec (.foldContributionArrival n seq i) s = .next t ∧
        t.mem.newerData st = (List.range 64).map (fun k => (fget none l.bytes k).getD ((s.mem.newerData st).getD k 0)) ∧
        (t.mem.lineTags st).newer.writer = s.writer n ∧ (t.mem.lineTags st).newer.cseq = seq ∧
        (∃ o' ∈ t.mem.folds, o'.keys = o.keys ∧ fget none o'.present j = some (s.writer n, seq)) ∧
        (∀ k, k ≠ st → t.mem.newerData k = s.mem.newerData k)) ∧
    (o.n ≤ p.k.toNat ∨ p.lines ≠ o.keys.length ∨ fget none o.present j ≠ none →
      ∃ t, exec (.foldContributionArrival n seq i) s = .next t ∧ (∀ o' ∈ t.mem.folds, o'.keys.head? = some key → o'.broken = true) ∧
        (∀ k, t.mem.newerData k = s.mem.newerData k))) ∧
  (∀ (m : Memory) (x j st : Nat) (o : FoldObj),
    let v := (m.lineTags st).newer
    m.folds[x]? = some o → o.stage[j]? = some st → mapWf none o.present = true → v.st = .pending →
    fget none o.present j = some (v.writer, v.cseq) →
    ∃ o', (m.discard st).folds[x]? = some o' ∧ o'.keys = o.keys ∧ fget none o'.present j = none ∧
      (∀ i, o.stage[i]? ≠ some st → fget none o'.present i = fget none o.present i)) ∧
  (∀ (s : State) (n id : Nat) (q : Req) (i : Instr) (key : Nat) (a : Word) (view set : IncSet),
    let c := s.core n
    c.reqs.find? (fun q => q.id == id) = some q → q.kind = .fclose i key a view → c.reduceSet (s.writer n) view = some set →
    s.reqWaits n q = false → s.behind n q.place = false → c.casOpen = none →
    (∀ b ∈ c.closed, b.fclose ≠ some id ∧ (b.uid < id → ∀ l ∈ b.lines, l.prog = .flight → l.dest ≠ .home key)) →
    let answer (s : State) (v : Word) : State := s.setCore n ((s.core n).setKind id (.done v))
    let past : State := s.setCore n (c.onFrame q.frame (fun f => { f with horizon := true }))
    (s.mem.foldAt key a = none → exec (.foldHomeClose n id) s = .next (answer s 1)) ∧
    (∀ o, s.mem.foldAt key a = some o →
      (o.broken = true → exec (.foldHomeClose n id) s = .next ((answer past 3).setMem (s.mem.dropFold key))) ∧
      (o.broken = false → (∃ k, k < o.n ∧ s.mem.foldPresent o set k = false) →
        exec (.foldHomeClose n id) s = .next (answer s 2)) ∧
      (o.broken = false → (∀ k, k < o.n → s.mem.foldPresent o set k = true) → ∀ ls e s1,
        s.foldRun n q.frame q.acq o a 0 o.keys = .ok ls e s1 →
        let s2 := s1.setMem (s1.mem.setFold key (fun o => { o with closing := true }))
        let s3 := s2.setCore n ((s2.core n).onFrame q.frame (fun f => { f with horizon := true }))
        let s4 := s3.setCore n ((s3.core n).count e (tinsn0 i) (tinsn1 i))
        exec (.foldHomeClose n id) s = .next
          (((s4.noteClosed n q.frame).addClosed n { Closed.made q q.prio ls with fclose := some id }).progress n))))) ∧
  (∀ (m : Memory) (o : FoldObj) (l : Nat) (start : List Nat) (e : Nat),
    o.op = .add → o.f = .i8 ∨ o.f = .i16 ∨ o.f = .i32 → start.length = 512 / o.f.width → e < start.length →
    (∀ x ∈ start, x < 2 ^ o.f.width) →
    let w := o.f.width
    let part (k : Nat) : Nat := leNat (m.newerData (o.stage.getD (k * o.keys.length + l) 0)) / 2 ^ (w * e) % 2 ^ w
    (m.foldLine o l start).2 = 0 ∧ (m.foldLine o l start).1.length = 64 ∧
    leNat (m.foldLine o l start).1 / 2 ^ (w * e) % 2 ^ w =
      (start.getD e 0 + ((List.range o.n).map part).foldl (fun a b => a + b) 0) % 2 ^ w)

/-! ## Tasks, claims, barriers, watches, queues -/

/-- R34, R37, R276: `SPAWN`, `POST` and `POST.grp` attach their starts to the open bundle (R274): `SPAWN` and `POST` of one template, with
one identifier for each task it starts, from the spawn index on, which advances; `POST.grp` of the members of a task group in template
order. `SPAWN` reads the template's argument registers, within the frame's range, at its issue (R133, R134). A template that cannot start,
or no group, traps with cause 0x26. Where this rests on a choice of the model: log 28. -/
def Obligations.StartsByATask : Prop :=
  ∀ (s : State) (f : Frame) (fs : List Frame) (h : Hdr) (a : GReg),
    let x := s.ctx f.task.ctx
    let c := s.core s.cur
    (∀ (t : BitVec 12) (m : Template), x.templates[t.toNat]? = some m →
      let cnt := if m.place = 0 then (x.group m.placeVal).rows * (x.group m.placeVal).cols else 1
      let id (j : Nat) : Word := f.task.id.extractLsb' 32 32 ++
        (BitVec.ofNat 32 ((f.task.id.extractLsb' 0 32).toNat * 33 + f.spawnK + j + 1) : BitVec 32)
      let holds (args : FMap Word) : State := s.setCore s.cur (c.setTop { f with
        bundle := { f.bundle with
          effects := f.bundle.effects ++ [.start { tmpl := t.toNat, ids := (List.range cnt).map id, args, tile := none } none] },
        spawnK := f.spawnK + cnt })
      (x.placeCores m ≠ [] →
        (Issues s f fs h false (s.argRegs fun _ => [t.toNat]) [] → completes s (.spawn h t) h (holds (f.passArgs m)) Ret.plain) ∧
        (Issues s f fs h false [.g a] [] →
          completes s (.post h t a) h (holds (if m.argCount = 0 then [] else fset 0 [] m.argFirst (f.getG a))) Ret.plain)) ∧
      (x.placeCores m = [] →
        (Issues s f fs h false (s.argRegs fun _ => [t.toNat]) [] →
          exec (.spawn h t) s = .next (s.trapped s.cur (.spawn h t) 0x26 0)) ∧
        (Issues s f fs h false [.g a] [] → exec (.post h t a) s = .next (s.trapped s.cur (.post h t a) 0x26 0)))) ∧
    (Issues s f fs h false [.g a] [] → ∀ (g : BitVec 12),
      let members := (List.range x.templates.length).filter
        (fun t => ((x.templates[t]?).map (fun m => m.groups.contains g.toNat)).getD false)
      let r := x.startsBy (fun m => firstArg m (f.getG a)) members f
      (g.toNat < 255 → (x.group g.toNat).kind = 1 → (∀ t ∈ members, x.startable t = true) →
        completes s (.postGrp h g a) h (s.setCore s.cur (c.setTop { r.2 with
          bundle := { r.2.bundle with effects := r.2.bundle.effects ++ r.1.map (fun st => .start st none) } })) Ret.plain ∧
        r.1.map Start.tmpl = members) ∧
      (255 ≤ g.toNat ∨ (x.group g.toNat).kind ≠ 1 → exec (.postGrp h g a) s = .next (s.trapped s.cur (.postGrp h g a) 0x26 0)))

/-- R279, R280: the end of a task: its bundle is closed, its frame leaves the stack, its claims are gone; `HALT.k` keeps its grant for the
template that it names. While the set that a frame's claims leave behind does not yet fit, the task waits inside the instruction, with its
bundle closed and its claims held (R219, R283, R348). The popped frame's pending vector results become visible (log 18), the dispatcher
makes its offers in the same step (log 19), and a compare-and-swap that may still take the next number keeps the instruction waiting at the
boundary before it (log 24): these are the model's choice. R170, R218: an abort, for a page fault or a view that is too old, ends a task that
has passed its abort horizon with its context; one that has not loses its frame and what it holds, memory and scratchpad stay, and it waits
for its fault record, or enters its dispatcher again; that of a frame below is deferred (R350). -/
def Obligations.TasksEnd : Prop :=
  (∀ (s : State) (n page : Nat) (f : Frame) (fs : List Frame), (s.core n).frames = f :: fs → f.window = .resident →
    let k := f.task.ctx
    let c := s.core n
    let gone (t : State) : Prop := (t.core n).frames = fs ∧ (t.core n).pad = c.pad ∧ (t.core n).closed = c.closed ∧
      (∀ key, t.mem.newerData key = s.mem.newerData key ∧ t.mem.olderData key = s.mem.olderData key ∧ t.mem.lineTags key = s.mem.lineTags key)
    let fault := s.pageFault n page
    let old := s.viewTooOld n
    (f.horizon = true → fault = s.endCtx k 0x03 (f.task.id.extractLsb' 32 32) ∧ old = s.endCtx k 0x0C (f.task.id.extractLsb' 32 32)) ∧
    (f.horizon = false → (s.ctx k).state = 2 →
      gone fault ∧ gone old ∧
      (∃ w ∈ (fault.ctx k).waiters, w.task = f.task ∧ w.page = page ∧
        match w.record with
        | some r => r < 8 ∧ ∃ e, fget none (fault.ctx k).frec r = some e ∧ e.block = page / 64 ∧ e.pages.getLsbD (page % 64) = true
        | none => ∀ r, r < 8 → fget none (s.ctx k).frec r ≠ none) ∧
      ((∃ e ∈ (old.cluster (clusterOf n)).ready, e.task = { f.task with vto := f.task.vto + 1 }) ∨
        ∃ e ∈ (old.cluster (clusterOf n)).input, e.task = { f.task with vto := f.task.vto + 1 })) ∧
    s.viewTooOldOf n f.uid = old ∧
    (∀ u, u ≠ f.uid → s.viewTooOldOf n u = s.setCore n (c.onFrame u (fun g => { g with deferred := true })))) ∧
  ∀ (s : State) (f : Frame) (fs : List Frame) (h : Hdr) (a : GReg),
    let n := s.cur
    let named : Prop := (f.getG a).toNat < 4096 ∧ (f.getG a).toNat < (s.ctx f.task.ctx).templates.length
    let s1 : State := if f.halting then s else
      (s.closeTop n .system).setCore n (((s.closeTop n .system).core n).onFrame f.uid (fun g => { g with halting := true }))
    let leaves (set : IncSet) (keep : Option Nat) : State :=
      let s2 := ((s1.setCore n ((s1.core n).setGuards f.claims.reverse set)).popTop n keep).offers (clusterOf n)
      s2.setCore n ((s2.core n).issued)
    (∀ set, (s.core n).casOpen = none → s1.haltSet n f = some set →
      (Issues s f fs h false [] [] → exec (.halt h) s = .next (leaves set none) ∧
        ((leaves set none).core n).frames.map Frame.uid = fs.map Frame.uid ∧ ((leaves set none).core n).kept = (s.core n).kept) ∧
      (Issues s f fs h false [.g a] [] → named →
        let t := leaves set (some (f.getG a).toNat)
        exec (.haltK h a) s = .next t ∧ (t.core n).frames.map Frame.uid = fs.map Frame.uid ∧
        (t.core n).kept = some { frame := f.uid, tmpl := (f.getG a).toNat, pb := f.pb, need := f.need })) ∧
    ((s.core n).casOpen = none → s1.haltSet n f = none →
      (Issues s f fs h false [] [] → exec (.halt h) s = .next s1) ∧
      (Issues s f fs h false [.g a] [] → named → exec (.haltK h a) s = .next s1)) ∧
    ((s.core n).casOpen ≠ none →
      (Issues s f fs h false [] [] → exec (.halt h) s = .next (s.stopped n)) ∧
      (Issues s f fs h false [.g a] [] → named → exec (.haltK h a) s = .next (s.stopped n)))

/-- R283: claims are taken in order of ceilings at or above the task's priority and given back in reverse order; the guard's set is
acquired, and what is given back is the task's included set. The dispatcher makes its offers in the step of `UNCLAIM`, which is the model's
choice (log 19). -/
def Obligations.ClaimsNest : Prop :=
  ∀ (s : State) (f : Frame) (fs : List Frame) (h : Hdr) (g : BitVec 6), Issues s f fs h false [] [] →
    let c := s.core s.cur
    let q := (s.ctx f.task.ctx).guard g.toNat
    let traps (i : Instr) (k : Nat) : Prop := exec i s = .next (s.trapped s.cur i k 0)
    (q.kind = 0 → traps (.claim h g) 0x28) ∧
    (q.kind ≠ 0 → q.ceil < f.prio → traps (.claim h g) 0x27) ∧
    (q.kind ≠ 0 → f.prio ≤ q.ceil → g ∈ f.claims ∨ f.claims.length = 8 → traps (.claim h g) 0x28) ∧
    (q.kind ≠ 0 → f.prio ≤ q.ceil → g ∉ f.claims → f.claims.length < 8 →
      ∀ v, c.acquire (s.writer s.cur) f.view (fget [] c.guards g.toNat) = some v →
        completes s (.claim h g) h (s.setCore s.cur (c.setTop { c.acquired f v with claims := f.claims ++ [g] })) Ret.plain ∧
        (c.acquired f v).view = v ∧ (c.acquired f v).asked = []) ∧
    (f.claims.getLast? ≠ some g → traps (.unclaim h g) 0x28) ∧
    (∀ cs set, f.claims = cs ++ [g] → c.reduceSet (s.writer s.cur) (c.includedSet (s.writer s.cur) f.view) = some set →
      completes s (.unclaim h g) h ((s.setCore s.cur { c.setTop { f with claims := cs } with
        guards := fset [] c.guards g.toNat set }).offers (clusterOf s.cur)) Ret.plain)

/-- R286, R287: `BINIT` writes a barrier object, `ARRIVE` attaches an arrival to the open bundle. R288: `apply` of an arrival, on a barrier
object with no error recorded: an arrival for the object's phase counts down, the last one completes the phase and releases with the
merged set; where `EARLY` equals `TARGET` the next phase completes with it; one for the next phase counts as early; any other, or one too
many, is an error that leaves the counts as they were. -/
def Obligations.Barriers : Prop :=
  (∀ (s : State) (f : Frame) (fs : List Frame) (h : Hdr) (a b : GReg) (p : AReg) (phase : BitVec 4) (cm1 : BitVec 8)
      (target : BitVec 16) (succ : BitVec 8),
    let x := s.ctx f.task.ctx
    let c := s.core s.cur
    (Issues s f fs h false [.g a] [] → ∀ k, (f.getG a).toNat < 2 ^ 42 →
      let at_ := (f.getG a).toNat % 2 ^ 32
      x.barrierAt at_ = true → x.cores[(f.getG a).toNat / 2 ^ 32]? = some k →
      completes s (.arrive h a phase cm1) h (s.setCore s.cur (c.setTop { f with
        bundle := { f.bundle with effects := f.bundle.effects ++ [.arrive k at_ phase.toNat (cm1.toNat + 1)] } })) Ret.plain) ∧
    (Issues s f fs h false [.a p, .g b] [] →
      let at_ := (f.getA p).toNat
      let fresh : Merge := { cur := [], next := [] }
      x.barrierAt at_ = true → target ≠ 0 → (f.getG b).toNat < 65536 →
      succ = 0xFF ∨ (x.group succ.toNat).kind = 1 ∧ (∀ t ∈ x.groupMembers succ.toNat, x.startable t = true) → c.rangeWaits [] [(at_, 16)] = false →
      completes s (.binit h p b target succ phase) h
        ((s.setCore s.cur { c with merges := fset fresh c.merges at_ fresh }).instrStore s.cur f at_ (leBytes 16
          (phase.toNat + 2 ^ 48 * target.toNat + 2 ^ 64 * target.toNat + 2 ^ 96 * (f.getG b).toNat + 2 ^ 120 * succ.toNat))) Ret.plain)) ∧
  (∀ (o : Barrier) (mg : Merge) (ph n : Nat) (set : IncSet), o.err = 0 → o.phase < 16 → o.early ≤ o.target → 0 < o.target → 0 < n →
    let r := o.apply mg ph n set
    (ph = o.phase → n < o.count → r.obj = { o with count := o.count - n } ∧ r.phases = [] ∧ r.bad = 0 ∧
      r.mg = { mg with cur := mergeSets mg.cur set }) ∧
    (ph = o.phase → n = o.count → o.early < o.target →
      r.obj = { o with count := o.target - o.early, early := 0, done := (o.done + 1) % 65536, phase := (o.phase + 1) % 16 } ∧
      r.phases = [(ph, mergeSets mg.cur set)] ∧ r.mg = { cur := mg.next, next := [] } ∧ r.bad = 0) ∧
    (ph = o.phase → n = o.count → o.early = o.target →
      r.obj = { o with count := o.target, early := 0, done := (o.done + 2) % 65536, phase := (o.phase + 2) % 16 } ∧
      r.phases = [(ph, mergeSets mg.cur set), ((o.phase + 1) % 16, mg.next)] ∧ r.mg = { cur := [], next := [] } ∧ r.bad = 0) ∧
    (ph = (o.phase + 1) % 16 → o.early + n ≤ o.target → r.obj = { o with early := o.early + n } ∧ r.phases = [] ∧ r.bad = 0) ∧
    (ph = o.phase ∧ o.count < n ∨ ph = (o.phase + 1) % 16 ∧ o.target < o.early + n → r.obj = { o with err := 2, errph := ph } ∧
      r.phases = [] ∧ r.bad = 2) ∧
    (ph ≠ o.phase → ph ≠ (o.phase + 1) % 16 → r.obj = { o with err := 1, errph := ph } ∧ r.phases = [] ∧ r.bad = 1))

/-- R289, R290, R291, R293: watches and queue registers. `WATCH` names its start at issue and arms it with the bundle; `UNWATCH` drops the
armed watches of a word; `QPUSH` attaches a push; `QPOP` takes the oldest element, or traps with cause 0x2B where there is none; `QLEN`
reads the length, the triggered count and N; `QCFG` sets N and the template and restarts the counts. -/
def Obligations.WatchesAndQueues : Prop :=
  ∀ (s : State) (f : Frame) (fs : List Frame) (h : Hdr) (wide : Bool) (d a b : GReg) (p : AReg) (q : QReg) (t : BitVec 12),
    let x := s.ctx f.task.ctx
    let c := s.core s.cur
    let u := c.queue q.toNat
    let at_ := (f.getA p).toNat
    (Issues s f fs h false ([.a p, .g b] ++ s.argRegs fun _ => [t.toNat]) [] → ∀ m, x.templates[t.toNat]? = some m → x.placeCores m ≠ [] → c.watches.length < 16 →
      f.padCheck x at_ (if wide then 8 else 4) = .ok () →
      let r := x.startBy f t.toNat (f.passArgs m)
      let w : Watch :=
        { id := s.uid, addr := at_, size := if wide then 8 else 4, val := if wide then f.getG b else (f.getG b) &&& 0xFFFFFFFF,
          start := r.1, set := [], armed := false }
      completes s (.watch h wide p b t) h (s.setCore s.cur { c.setTop { r.2 with
        bundle := { r.2.bundle with effects := r.2.bundle.effects ++ [.arm s.uid] } } with watches := c.watches ++ [w] }).fresh
        Ret.plain) ∧
    (Issues s f fs h false [.g d, .a p] [] → f.padCheck x at_ 4 = .ok () →
      let hit (w : Watch) : Bool := w.armed && w.addr == at_
      completes s (.unwatch h d p) h (s.setCore s.cur { c with watches := c.watches.filter (fun w => !hit w) })
        { Ret.plain with writes := [gRes d (BitVec.ofNat 64 (c.watches.filter hit).length) 2] }) ∧
    (Issues s f fs h false [.g a, .g b] [] → ∀ k, (f.getG a).toNat < 1024 → x.cores[(f.getG a).toNat]? = some k →
      completes s (.qpush h q a b) h (s.setCore s.cur (c.setTop { f with
        bundle := { f.bundle with effects := f.bundle.effects ++ [.push k q.toNat (f.getG b)] } })) Ret.plain) ∧
    (Issues s f fs h false [.g d] [] →
      (u.elems = [] → exec (.qpop h d q) s = .next (s.trapped s.cur (.qpop h d q) 0x2B 0)) ∧
      (∀ e es v, u.elems = e :: es → c.acquire (s.writer s.cur) f.view e.set = some v →
        completes s (.qpop h d q) h
          (s.setCore s.cur ((c.setTop (c.acquired f v)).setQueue q.toNat { u with elems := es, r := u.r - 1 }))
          { Ret.plain with writes := [gRes d e.val 2] }) ∧
      results s (.qlen h d q) h [gRes d (BitVec.ofNat 64 (u.elems.length + 2 ^ 8 * u.r + 2 ^ 16 * u.n)) 2]) ∧
    (Issues s f fs h false [.g a] [] →
      let n := (f.getG a).toNat % 64
      let k := (f.getG a).toNat / 64
      (n ≤ 32 → k < 4096 → (n = 0 ∨ x.startable k = true) →
        completes s (.qcfg h q a) h ((s.setCore s.cur (c.setQueue q.toNat { elems := u.elems, n, t := k, r := 0, m := 0 })).queueTrigger
          s.cur f.task.ctx q.toNat 33) Ret.plain) ∧
      (32 < n ∨ 4096 ≤ k ∨ (n ≠ 0 ∧ x.startable k = false) →
        exec (.qcfg h q a) s = .next (s.trapped s.cur (.qcfg h q a) 0x2C 0)))

/-- R288, R292: the barrier unit applies an arrival to the object in scratchpad, and a queue takes a push while it holds fewer than 32
elements: the oldest of one core, those of different cores in any order (R274, R382; log 25), once circuits lead from it (log 82). One
behind an earlier one of its core does nothing yet (log 13). R357: one of a context that has ended is discarded: it has no effect, and
nothing is reported. Where this rests on a choice of the model: log 13, log 25, log 82. -/
def Obligations.ArrivalsAndPushesAreApplied : Prop :=
  (∀ (s : State) (n k : Nat) (ar : Arrival), (s.core n).arrivals[k]? = some ar →
    let c := s.core n
    let o := Barrier.parse (leNat (c.padRead ar.addr 16))
    ((∃ x ∈ c.arrivals.take k, x.src = ar.src) → exec (.arrivalApply { core := n, elem := k }) s = .next s) ∧
    ((∀ x ∈ c.arrivals.take k, x.src ≠ ar.src) → s.fabric.links (dieOf ar.src) (dieOf n) = true → (s.ctx ar.ctx).state ≠ 2 →
      exec (.arrivalApply { core := n, elem := k }) s = .next (s.setCore n { c with arrivals := c.arrivals.eraseIdx k })) ∧
    ((∀ x ∈ c.arrivals.take k, x.src ≠ ar.src) → s.fabric.links (dieOf ar.src) (dieOf n) = true → (s.ctx ar.ctx).state = 2 → c.watches = [] →
      o.err = 0 → ar.phase = o.phase → ar.n < o.count → o.early < o.target →
      ∀ cur next, c.reduceSet (s.writer n) (mergeSets (fget { cur := [], next := [] } c.merges ar.addr).cur ar.set) = some cur →
        c.reduceSet (s.writer n) (fget { cur := [], next := [] } c.merges ar.addr).next = some next →
        ∃ t, exec (.arrivalApply { core := n, elem := k }) s = .next t ∧ (t.core n).arrivals = c.arrivals.eraseIdx k ∧
          (t.core n).padRead ar.addr 16 = { o with count := o.count - ar.n }.bytes ∧
          fget { cur := [], next := [] } (t.core n).merges ar.addr = { cur, next } ∧ t.releases = s.releases ∧ t.mem = s.mem)) ∧
  (∀ (s : State) (n q k : Nat) (p : Push), (s.core n).pushes[k]? = some p → p.q = q →
    let u := (s.core n).queue q
    ((∃ x ∈ (s.core n).pushes.take k, x.src = p.src ∧ x.q = q) → exec (.queuePushApply { core := n, elem := k } q) s = .next s) ∧
    ((∀ x ∈ (s.core n).pushes.take k, ¬(x.src = p.src ∧ x.q = q)) → s.fabric.links (dieOf p.src) (dieOf n) = true → (s.ctx p.ctx).state ≠ 2 →
      exec (.queuePushApply { core := n, elem := k } q) s = .next (s.setCore n { s.core n with pushes := (s.core n).pushes.eraseIdx k })) ∧
    ((∀ x ∈ (s.core n).pushes.take k, ¬(x.src = p.src ∧ x.q = q)) → s.fabric.links (dieOf p.src) (dieOf n) = true → (s.ctx p.ctx).state = 2 →
      u.elems.length < 32 →
      ∃ t, exec (.queuePushApply { core := n, elem := k } q) s = .next t ∧ ((t.core n).queue q).elems = u.elems ++ [{ val := p.val, set := p.set }] ∧
        (t.core n).pushes = (s.core n).pushes.eraseIdx k ∧ t.mem = s.mem))

/-! ## Remote instructions -/

/-- R296, R334, R335, R336, R338: the remote instructions at issue, towards the peer that the peer table names. `RLD` closes the bundle
at system scope with the next commit sequence number, saves its live registers and its predicates in a continuation record, and reads them
at issue (R133); it leaves the core, or waits while the core holds 16 records, whatever it names; `RST` and
`RFOLD` put lines for the peer into the open bundle, `RST.rel` a release beside its line; `RCAS` and `RXCHG` are bundles of one line, sent as
a request under the next commit sequence number, which waits in the routing die while the link is dark (R325). R334, R360: every remote
instruction whose peer entry is invalid traps with cause 0x30, and every remote write of a paired context with cause 0x31. Where this rests
on a choice of the model: log 24, log 61, log 116. -/
def Obligations.RemoteInstructions : Prop :=
  (∀ (s : State) (f : Frame) (fs : List Frame) (h : Hdr) (sz : Size) (sx wide : Bool) (d a b c : GReg) (q : Ptr) (lm1 : BitVec 4)
      (peer : BitVec 5) (live : BitVec 32) (t : BitVec 12) (p : PeerRef),
    let x := s.ctx f.task.ctx
    let k := s.core s.cur
    let named (j : Nat) : Prop := j < 32 ∧ live.getLsbD j = true
    let preds : List Reg := [.p 1, .p 2, .p 3, .p 4, .p 5, .p 6, .p 7]
    x.peer peer = some p →
    let seq : CSeq := if k.cseq = 0xFFFFFFFF then 1 else k.cseq + 1
    (Issues s f fs h false ([.g d, .g a] ++ s.liveArgs live ++ preds) [] → (∀ j, named j → j < f.lim) → f.claims = [] →
      f.long = false → f.priv = false → k.fwd.length < 16 → k.casOpen = none →
      ∃ t e, exec (.rld h sz sx d a peer live) s = .next t ∧ (t.core s.cur).frames.map Frame.uid = fs.map Frame.uid ∧
        (t.core s.cur).fwd = k.fwd ++ [e] ∧ e.cont.pc = f.pc + 16 ∧ e.cont.p = f.p ∧
        (∀ j, j < 32 → fget 0 e.cont.live j = if live.getLsbD j then f.getG (BitVec.ofNat 5 j) else 0) ∧
        e.remote = { dst := d, size := sz, sx, addr := f.getG a, peer } ∧ e.peer = p ∧ e.task.id = f.task.id ∧ e.sent = false ∧
        e.reply = none ∧ (t.core s.cur).cseq = seq ∧ e.bundles = f.bundles ++ [s.uid] ∧
        (f.bundle.lines ≠ [] → (∀ l ∈ f.bundle.lines, l.prog = .flight) → ∃ b ∈ (t.core s.cur).closed,
          b.uid = s.uid ∧ b.seq = seq ∧ b.scope = .system ∧ b.lines = f.bundle.lines)) ∧
    (x.pair.pen = false → Issues s f fs h false [.g a, .g b] [] → ∀ bd,
      s.putLine f.bundle (peerLine p (f.getG a) (bytesOf (Size.bytes sz) (f.getG b)) none) = some bd →
      completes s (.rst h sz a b peer) h (s.setCore s.cur (k.setTop { f with bundle := bd })) Ret.plain ∧
      completes s (.rstRel h sz a b peer t) h (s.setCore s.cur (k.setTop { f with
        bundle := { bd with effects := bd.effects ++ [.remote p t (f.getG b) (f.task.id.extractLsb' 32 32 ++
          (BitVec.ofNat 32 ((f.task.id.extractLsb' 0 32).toNat * 33 + f.spawnK + 1) : BitVec 32))] },
        spawnK := f.spawnK + 1 })) Ret.plain) ∧
    (x.pair.pen = false → Issues s f fs h false [.a (Ptr.reg q), .g a, .g b] [] →
      let lines := lm1.toNat + 1
      f.rangeCheck x (f.ptr q) (64 * lines) 64 = .ok () → k.rangeWaits [(f.ptr q, 64 * lines)] [] = false →
      ∀ bd, s.putLines f.bundle ((List.range lines).map (fun l =>
          { dest := .peer p, addr := f.getG a, bytes := lineBytes 0 (k.padRead (f.ptr q + 64 * l) 64), std := none,
            fold := some { obj := f.getG a, key := 0, k := f.getG b, l, lines }, page := none, prog := .flight, image := [] })) = some bd →
        completes s (.rfold h q a b lm1 peer) h (s.setCore s.cur (k.onFrame f.uid (fun g => { g with bundle := bd })))
          { Ret.plain with writes := f.ptrStep q (64 * lines) }) ∧
    (x.pair.pen = false →
      let asks (i : Instr) (cmp : Option Word) (new : Word) : Prop :=
        let m := s.msgTo s.cur f.task.ctx (BitVec.ofNat 4 f.prio) f.task.id p
          (.atomReq 0 false s.uid seq (f.getG a) (if wide then .d else .w) cmp new)
        (k.casOpen ≠ none → exec i s = .next (s.stopped s.cur)) ∧
        (k.casOpen = none → ∃ t, completes s i h t Ret.plain ∧ (t.core s.cur).cseq = (if cmp.isSome then k.cseq else seq) ∧
          (∃ r ∈ (t.core s.cur).reqs, r.id = s.uid ∧ r.kind = .remote p (f.getG a) seq cmp.isSome ∧
            r.dst = if d = 0 then none else some (.g d)) ∧
          (∃ b ∈ (t.core s.cur).closed, b.seq = seq ∧ b.scope = .system ∧
            b.lines = [peerLine p (f.getG a) (bytesOf (if wide then 8 else 4) new) none]) ∧
          (s.fabric.way m = .here → t.fabric.outbox = s.fabric.outbox ++ [m]) ∧
          (s.fabric.way m = .fibre → s.fabric.lwstate ≠ 2 → s.fabric.lwstate ≠ 3 →
            t.fabric.queue = s.fabric.queue ++ [{ msg := m, left := msgFlits m, on := none }]))
      (Issues s f fs h false [.g d, .g a, .g b, .g c] [] → asks (.rcas h wide d a b c peer) (some (f.getG b)) (f.getG c)) ∧
      (Issues s f fs h false [.g d, .g a, .g b] [] → asks (.rxchg h wide d a b peer) none (f.getG b)))) ∧
  (∀ (s : State) (f : Frame) (fs : List Frame) (h : Hdr) (sz : Size) (sx wide : Bool) (d a b c : GReg) (q : Ptr) (lm1 : BitVec 4)
      (peer : BitVec 5) (live : BitVec 32) (t : BitVec 12),
    let x := s.ctx f.task.ctx
    let traps (i : Instr) : Prop := (x.pair.pen = true → exec i s = .next (s.trapped s.cur i 0x31 0)) ∧
      (x.pair.pen = false → x.peer peer = none → exec i s = .next (s.trapped s.cur i 0x30 0))
    (Issues s f fs h false ([.g d, .g a] ++ s.liveArgs live ++ [.p 1, .p 2, .p 3, .p 4, .p 5, .p 6, .p 7]) [] →
      (16 ≤ (s.core s.cur).fwd.length → exec (.rld h sz sx d a peer live) s = .next (s.stopped s.cur)) ∧
      ((s.core s.cur).fwd.length < 16 → x.peer peer = none →
        exec (.rld h sz sx d a peer live) s = .next (s.trapped s.cur (.rld h sz sx d a peer live) 0x30 0))) ∧
    (Issues s f fs h false [.g a, .g b] [] → traps (.rst h sz a b peer) ∧ traps (.rstRel h sz a b peer t)) ∧
    (Issues s f fs h false [.a (Ptr.reg q), .g a, .g b] [] → traps (.rfold h q a b lm1 peer)) ∧
    (Issues s f fs h false [.g d, .g a, .g b, .g c] [] → traps (.rcas h wide d a b c peer)) ∧
    (Issues s f fs h false [.g d, .g a, .g b] [] → traps (.rxchg h wide d a b peer)))

/-! ## Floating point and slow units -/

/-- R151, R154–R158: the scalar floating-point instructions read the low bits of their operands and write the pattern zero-extended, with
their latencies; the exception classes are counted (R200). `FABS` and `FNEG` change the sign bit alone and raise nothing. -/
def Obligations.FloatResults : Prop :=
  ∀ (s : State) (f : Frame) (fs : List Frame) (h : Hdr) (fm dst src : Fmt) (r : Rnd) (d a b c : GReg) (pd : PReg) (cond : FCond)
      (imm : BitVec 32),
    let v (g : GReg) : Nat := (f.getG g).toNat % 2 ^ fm.width
    let w (g : GReg) : Nat := (f.getG g).toNat % 2 ^ src.width
    let ovf := (s.ctx f.task.ctx).ovf
    let sgn := 2 ^ (fm.width - 1)
    let gives (i : Instr) (lat : Nat) (x : Nat × Exc) : Prop :=
      completes s i h s { pc := none, cycles := 1, exc := x.2, writes := [gRes d (BitVec.ofNat 64 x.1) lat] }
    fm ∈ [Fmt.f32, .bf16, .f16, .e4m3, .e5m2] →
    (Issues s f fs h false [.g d, .g a, .g b] [] →
      gives (.fadd h fm r d a b) 4 (fAdd fm r (v a) (v b)) ∧ gives (.fsub h fm r d a b) 4 (fSub fm r (v a) (v b)) ∧
      gives (.fmul h fm r d a b) 4 (fMul fm r (v a) (v b)) ∧ gives (.fmin h fm d a b) 2 (fMinMax fm false (v a) (v b)) ∧
      gives (.fmax h fm d a b) 2 (fMinMax fm true (v a) (v b)) ∧ gives (.fminp h fm d a b) 2 (fMinMaxP fm false (v a) (v b)) ∧
      gives (.fmaxp h fm d a b) 2 (fMinMaxP fm true (v a) (v b)) ∧
      gives (.fscale h fm r d a b) 4 (fScale fm r (v a) (f.getG b).toInt)) ∧
    (Issues s f fs h false [.g d, .g a, .g b, .g c] [] → gives (.ffma h fm r d a b c) 4 (fFma fm r (v a) (v b) (v c))) ∧
    (Issues s f fs h false [.g d, .g a] [] →
      gives (.fabs h fm d a) 1 (v a % sgn, 0) ∧ gives (.fneg h fm d a) 1 (v a ^^^ sgn, 0) ∧
      gives (.fclass h fm d a) 2 (2 ^ fClass fm (v a), 0) ∧ gives (.frnd h fm r d a) 4 (fRnd fm r (v a)) ∧
      gives (.fcvt h dst src r d a) 3 (fConv dst src r ovf 0 (w a)) ∧
      gives (.icvtf h dst src r d a) 3 (intToF dst r ovf 0 (toS src.width (w a))) ∧
      gives (.fcvti h dst src r d a) 3 (((fToInt dst.width src r 0 (w a)).1 % 2 ^ 64).toNat, (fToInt dst.width src r 0 (w a)).2)) ∧
    (Issues s f fs h false [.g d] [] → gives (.fmovi h fm d imm) 1 (imm.toNat, 0)) ∧
    (Issues s f fs h false [.p pd, .g a, .g b] [] → completes s (.fcmp h cond fm pd a b) h s
      { pc := none, cycles := 1, exc := (fCond fm cond (v a) (v b)).2, writes := [pRes pd (fCond fm cond (v a) (v b)).1 2] })

/-- R192: a value of the format is rounded to itself in every mode, and raises nothing. -/
def Obligations.RepresentableValuesRoundToThemselves : Prop :=
  ∀ (f : Fmt) (r : Rnd) (t : Option Word) (draw x : Nat) (n : Bool) (m : Nat) (e : Int),
    f ∈ [Fmt.f32, .bf16, .f16, .e4m3, .e5m2] → x < 2 ^ f.width → unpack f x = .fin n m e → roundTo f r t draw n m e false = (x, 0)

/-- R151, R142, R134: the divider and the unit of `FDIV` and `FSQRT` take one operation at a time, deliver the result to the register that
awaits it, and are free again; an operation that finds the unit busy waits at the boundary before it. Where this rests on a choice of the
model: log 22. -/
def Obligations.SlowUnitsDeliver : Prop :=
  (∀ (s : State) (f : Frame) (fs : List Frame) (h : Hdr) (fm : Fmt) (r : Rnd) (d a b : GReg),
    let c := s.core s.cur
    let v (g : GReg) : Nat := (f.getG g).toNat % 2 ^ fm.width
    let takes (i : Instr) (x : Nat × Exc) : Prop :=
      (c.fdiv = none → completes s i h (s.setCore s.cur { c.setTop { f with await := f.await ++ (if d = 0 then [] else [.g d]) } with
        fdiv := some { frame := f.uid, dst := d, val := BitVec.ofNat 64 x.1, exc := 0 } }) { Ret.plain with exc := x.2 }) ∧
      (c.fdiv ≠ none → exec i s = .next (s.stopped s.cur))
    (Issues s f fs h false [.g d, .g a, .g b] [] → takes (.fdiv h fm r d a b) (fDiv fm r (v a) (v b))) ∧
    (Issues s f fs h false [.g d, .g a] [] → takes (.fsqrt h fm r d a) (fSqrt fm r (v a)))) ∧
  (∀ (s : State) (n : Nat) (q : UnitOp) (f : Frame), (s.core n).frame? q.frame = some f →
    let got (t : State) : Prop := ∃ g, (t.core n).frame? q.frame = some g ∧ (q.dst ≠ 0 → g.getG q.dst = q.val) ∧
      (∀ k, k ≠ q.dst → g.getG k = f.getG k) ∧ g.await = f.await.erase (.g q.dst) ∧ g.p = f.p ∧ g.pc = f.pc ∧ t.mem = s.mem
    ((s.core n).div = some q → ∃ t, exec (.divideComplete n) s = .next t ∧ (t.core n).div = none ∧ got t) ∧
    ((s.core n).fdiv = some q → ∃ t, exec (.fpDivideUnitComplete n) s = .next t ∧ (t.core n).fdiv = none ∧ got t))

/-! ## Vectors and engines -/

/-- R228–R232, R236–R238: the element-wise vector instructions, in the mode that their width needs and with the lane claimed for `v`
registers. The result is packed element by element; a `v` result has a fixed latency, a `w` one is a long instruction: that it takes its
values at issue and locks its sources until it completes is the model's choice (log 11). -/
def Obligations.VectorElementwise : Prop :=
  ∀ (s : State) (f : Frame) (fs : List Frame) (h : Hdr) (w sat u sx : Bool) (fm : Fmt) (r : Rnd) (d a b e : VReg) (cond : VCond),
    f.long = w → (w = false → laneGuard f.lane ∈ f.claims) →
    let c := s.core s.cur
    let gives (i : Instr) (lat : Nat) (srcs : List VReg) (x : Nat × Exc) : Prop := match w with
      | false => completes s i h s { pc := none, cycles := 1, exc := x.2, writes := [{ reg := .v d, val := BitVec.ofNat 256 x.1, lat }] }
      | true =>
        let o : LongOp :=
          { id := s.uid, frame := f.uid, prio := f.prio, gdst := none, wdst := some (d, BitVec.ofNat 2048 x.1), exc := x.2, lock := srcs }
        completes s i h (s.setCore s.cur { c.setTop { f with await := f.await ++ [.w d] } with long := c.long ++ [o] }).fresh Ret.plain
    let els (t : Fmt) (q : VReg) : List Nat := vElems t.width ((if w then 2048 else 256) / t.width) (c.getVec f w q)
    let pack (t : Fmt) (xs : List (Nat × Exc)) : Nat × Exc := (vPack t.width (xs.map (fun x => x.1)), xs.foldl (fun x y => x ||| y.2) 0)
    let two (t : Fmt) (op : Nat → Nat → Nat × Exc) : Nat × Exc := pack t (((els t a).zip (els t b)).map (fun x => op x.1 x.2))
    let three (op : Nat → Nat → Nat → Nat × Exc) : Nat × Exc :=
      pack fm (((els fm a).zip ((els fm b).zip (els fm e))).map (fun x => op x.1 x.2.1 x.2.2))
    let n := fm.width
    let low (v : Int) : Nat := (v % 2 ^ n).toNat
    let sgn (x : Nat) : Int := toS n x
    let clip (v : Int) : Int := if sat then max (-2 ^ (n - 1)) (min v (2 ^ (n - 1) - 1)) else v
    (Issues s f fs h false [vr w d, vr w a, vr w b] [vr w d] →
      (∀ i ∈ [(Instr.vadd h w sat fm r d a b, 2, fun x y => if fm.isInt then (low (clip (sgn x + sgn y)), 0) else fAdd fm r x y),
          (.vsub h w sat fm r d a b, 2, fun x y => if fm.isInt then (low (clip (sgn x - sgn y)), 0) else fSub fm r x y),
          (.vmul h w fm r d a b, 3, fun x y => if fm.isInt then (low (x * y), 0) else fMul fm r x y),
          (.vmin h w u fm d a b, 2, elemMinMax fm false u), (.vmax h w u fm d a b, 2, elemMinMax fm true u),
          (.vminp h w fm d a b, 2, fMinMaxP fm false), (.vmaxp h w fm d a b, 2, fMinMaxP fm true),
          (.vshl h w fm d a b, 1, fun x k => (if n ≤ k then 0 else x * 2 ^ k % 2 ^ n, 0)),
          (.vshr h w sx fm d a b, 1, fun x k => (if sx then low (sgn x / 2 ^ min k n) else x / 2 ^ min k n, 0)),
          (.vcmp h w cond fm d a b, 2, fun x y =>
            let t : Bool × Exc := match cond with
              | .int k => (condHolds n k x y, 0)
              | .flt k => fCond fm k x y
            (if t.1 then 2 ^ n - 1 else 0, t.2))],
        gives i.1 i.2.1 [a, b] (two fm i.2.2)) ∧
      gives (.vand h w d a b) 1 [a, b] (two .i64 (fun x y => (x &&& y, 0))) ∧
      gives (.vor h w d a b) 1 [a, b] (two .i64 (fun x y => (x ||| y, 0))) ∧
      gives (.vxor h w d a b) 1 [a, b] (two .i64 (fun x y => (x ^^^ y, 0)))) ∧
    (Issues s f fs h false [vr w d, vr w a] [vr w d] →
      gives (.vneg h w fm d a) 1 [a] (pack fm ((els fm a).map (fun (x : Nat) => (if fm.isInt then low (-(x : Int)) else fNeg fm x, 0)))) ∧
      gives (.vabs h w fm d a) 1 [a] (pack fm ((els fm a).map (fun (x : Nat) => (if fm.isInt then low (sgn x).natAbs else fAbs fm x, 0))))) ∧
    (Issues s f fs h false [vr w d, vr w a, vr w b, vr w e] [vr w d] →
      gives (.vfma h w fm r d a b e) 4 [a, b, e] (three (fFma fm r)) ∧
      gives (.vclamp h w u fm d a b e) 2 [a, b, e] (three (fun x y z =>
        let m := elemMinMax fm true u x y
        ((elemMinMax fm false u m.1 z).1, m.2 ||| (elemMinMax fm false u m.1 z).2))) ∧
      gives (.vsel h w fm d e a b) 1 [a, b, e] (pack fm (((els fm e).zip ((els fm a).zip (els fm b))).map
        (fun x => (if x.1 / 2 ^ (n - 1) % 2 = 1 then x.2.1 else x.2.2, 0)))))

/-- R239–R242: reductions, dot products, permutations, moves between a vector and a general register, conversions. That a `w` instruction
takes its values at issue and locks its sources until it completes is the model's choice (log 11). -/
def Obligations.VectorAcrossElements : Prop :=
  ∀ (s : State) (f : Frame) (fs : List Frame) (h : Hdr) (w : Bool) (fm dst src : Fmt) (r : Rnd) (op : RedOp) (d a b e : VReg) (g : GReg)
      (idx : BitVec 8) (part : BitVec 3) (rs : Option RsOp),
    f.long = w → (w = false → laneGuard f.lane ∈ f.claims) →
    let c := s.core s.cur
    let x := s.ctx f.task.ctx
    let sends (o : LongOp) (t : List Reg) : State :=
      (s.setCore s.cur { c.setTop { f with await := f.await ++ t } with long := c.long ++ [o] }).fresh
    let vec (i : Instr) (lat : Nat) (srcs : List VReg) (v : Nat × Exc) : Prop := match w with
      | false => completes s i h s { pc := none, cycles := 1, exc := v.2, writes := [{ reg := .v d, val := BitVec.ofNat 256 v.1, lat }] }
      | true => completes s i h (sends
          { id := s.uid, frame := f.uid, prio := f.prio, gdst := none, wdst := some (d, BitVec.ofNat 2048 v.1), exc := v.2, lock := srcs }
          [.w d]) Ret.plain
    let gen (i : Instr) (lat : Nat) (srcs : List VReg) (v : Nat × Exc) : Prop := match w with
      | false => completes s i h s { pc := none, cycles := 1, exc := v.2, writes := [{ reg := .g g, val := BitVec.ofNat 256 v.1, lat }] }
      | true => completes s i h (sends
          { id := s.uid, frame := f.uid, prio := f.prio, gdst := some (g, BitVec.ofNat 64 v.1), wdst := none, exc := v.2, lock := srcs }
          (if g = 0 then [] else [.g g])) Ret.plain
    let num (t : Fmt) : Nat := (if w then 2048 else 256) / t.width
    let els (t : Fmt) (q : VReg) : List Nat := vElems t.width (num t) (c.getVec f w q)
    let low := (f.getG g).toNat % 2 ^ fm.width
    (Issues s f fs h false [.g g, vr w a] [.g g] →
      gen (.vred h w op fm r g a) 5 [a] (redVal op fm r (els fm a)) ∧
      (idx.toNat < num fm → gen (.vmovg h w fm g a idx) 2 [a] (elemWord fm ((els fm a).getD idx.toNat 0), 0)) ∧
      (num fm ≤ idx.toNat → exec (.vmovg h w fm g a idx) s = .next (s.trapped s.cur (.vmovg h w fm g a idx) 0x1C 0))) ∧
    (Issues s f fs h false [vr w d, .g g] [vr w d] →
      vec (.vbcast h w fm d g) 1 [] (vPack fm.width (List.replicate (num fm) low), 0) ∧
      (idx.toNat < num fm → vec (.vins h w fm d g idx) 1 [d] (vPack fm.width ((els fm d).set idx.toNat low), 0)) ∧
      (num fm ≤ idx.toNat → exec (.vins h w fm d g idx) s = .next (s.trapped s.cur (.vins h w fm d g idx) 0x1C 0))) ∧
    (Issues s f fs h false [vr w d, vr w a, vr w b, vr w e] [vr w d] →
      vec (.vperm h w fm d a b e) 2 [a, b, e] (vPack fm.width ((els fm b).map (fun k => (els fm a ++ els fm e).getD k 0)), 0)) ∧
    (Issues s f fs h false [vr w d, vr w a, vr w b] [vr w d] →
      let k := 32 / src.width
      let pairs (j : Nat) : List (Nat × Nat) := (((els src a).drop (k * j)).take k).zip (((els src b).drop (k * j)).take k)
      let qs := ((els .f32 d).zip (List.range (num .f32))).map (fun y =>
        if dst = .f32 then dotVal .f32 r src y.1 (pairs y.2)
        else ((((pairs y.2).foldl (fun (t : Int) (p : Nat × Nat) => t + toS src.width p.1 * toS src.width p.2) (toS 32 y.1)) % 2 ^ 32).toNat, 0))
      vec (.vdot h w dst src r d a b) 4 [d, a, b] (vPack 32 (qs.map (fun y => y.1)), qs.foldl (fun t y => t ||| y.2) 0)) ∧
    (Issues s f fs h false ([vr w d, vr w a] ++ rsRegs rs) [vr w d] →
      let narrow := decide (dst.width < src.width)
      let base := if narrow then 0 else part.toNat * num dst
      let es := ((els src a).drop base).take (min (num src) (num dst))
      let qs := (es.zip (List.range es.length)).map (fun y => convElem dst src r x.ovf (rsDraw x f rs (base + y.2)) y.1)
      let at_ := part.toNat * num src
      let new := qs.map (fun y => y.1)
      vec (.vcvt h w dst src r d a part rs) 3 (if narrow then [d, a] else [a]) (vPack dst.width
        (if narrow then (els dst d).take at_ ++ new ++ (els dst d).drop (at_ + num src) else new), qs.foldl (fun t y => t ||| y.2) 0))

/-- R229, R232, R235: the vector modes, the vector loads and stores, and the completion of the oldest long instruction: its result arrives
and each class that it raised adds 1 to the core's count (R200), unless the cluster's long unit takes another core's instruction first (R17,
R371): one of a higher task priority, or an older one of the same. `VMODE.long` makes its frame the owner of the long registers at once and
waits at the boundary before it for their lock bits; while a frame below is the owner it traps. Where this rests on a choice of the model:
log 11, log 13, log 45. -/
def Obligations.VectorModesAndMemory : Prop :=
  (∀ (s : State) (f : Frame) (fs : List Frame) (h : Hdr) (x w : Bool) (d : VReg) (a : GReg) (p : Ptr),
    let c := s.core s.cur
    let k := if w then 256 else 32
    let al := if w then 64 else 32
    let q := f.ptr p
    let ready : Prop := f.long = w ∧ (w = false → laneGuard f.lane ∈ f.claims)
    let long (o : LongOp) (t : List Reg) : State :=
      (s.setCore s.cur { c.setTop { f with await := f.await ++ t } with long := c.long ++ [o] }).fresh
    let o0 (u : Nat) : LongOp := { id := u, frame := f.uid, prio := f.prio, gdst := none, wdst := none, exc := 0, lock := [] }
    let r : Ret := { Ret.plain with cycles := bankCycles [(q, if w then 4 else 1)], writes := f.ptrStep p k }
    (Issues s f fs h false [] [] →
      let clear : Prop := (∀ o ∈ c.long, o.lock = []) ∧ ∀ y, Reg.w y ∉ f.await
      (f.long = true → completes s (.vmodeShort h) h (s.setCore s.cur (c.setTop { f with long := false, owner := false })) Ret.plain ∧
        results s (.vmodeLong h) h []) ∧
      (f.long = false →
        results s (.vmodeShort h) h [] ∧
        ((∃ g ∈ fs, g.owner = true) → exec (.vmodeLong h) s = .next (s.trapped s.cur (.vmodeLong h) 0x21 0)) ∧
        ((∀ g ∈ fs, g.owner = false) →
          (¬ clear → exec (.vmodeLong h) s = .next ((s.setCore s.cur (c.setTop { f with owner := true })).stopped s.cur)) ∧
          (clear → completes s (.vmodeLong h) h
            (s.setCore s.cur { c.setTop { f with long := true, owner := true } with w := [] }) Ret.plain)))) ∧
    (Issues s f fs h false [vr w d, .a (Ptr.reg p)] [vr w d] → ready → f.rangeCheck (s.ctx f.task.ctx) q k al = .ok () →
      c.rangeWaits [(q, k)] [] = false →
      let v := leNat (c.padRead q k)
      (w = false → completes s (.vld h x w d p) h s { r with writes := vRes d (BitVec.ofNat 256 v) 3 :: r.writes }) ∧
      (w = true → completes s (.vld h x w d p) h
        (long { o0 s.uid with wdst := some (d, BitVec.ofNat 2048 v) } [.w d]) r)) ∧
    (Issues s f fs h false [.a (Ptr.reg p), vr w d] [] → ready → f.rangeCheck (s.ctx f.task.ctx) q k al = .ok () →
      c.rangeWaits [] [(q, k)] = false →
      let s1 := if w then long { o0 s.uid with lock := [d] } [] else s
      completes s (.vst h x w p d) h (s1.instrStore s.cur f q (leBytes k (c.getVec f w d))) r) ∧
    (∀ ks ps s1, let ad := f.getG a
      let n := if w then 4 else 1
      ready → ad.toNat % k = 0 →
      (Issues s f fs h false [vr w d, .g a] [vr w d] → c.outstanding + n ≤ 16 →
        s.kindAll (s.ctx f.task.ctx) false (piecesOf ad k) = .ok ks → s.placeAll s.cur f.task.ctx false ks = (.ok ps, s1) →
        let srcs := (ps.zip (lineAddrs (ad &&& ~~~63) n)).map (fun e => s1.source f e.2 e.1)
        let s2 := s1.setCore s.cur ((s1.core s.cur).onFrame f.uid (fun g => { g with await := g.await ++ [vr w d] }))
        completes s (.vldv h w d a) h (s2.request s.cur f (some (vr w d)) false (.vld srcs ((ps.head?.map (fun p => p.off ad)).getD 0) k))
          Ret.plain) ∧
      (Issues s f fs h false [.g a, vr w d] [] →
        s.kindAll (s.ctx f.task.ctx) true (piecesOf ad k) = .ok ks → s.placeAll s.cur f.task.ctx true ks = (.ok ps, s1) →
        let bs := leBytes k (c.getVec f w d)
        let c1 := s1.core s.cur
        let s2 := if w then (s1.setCore s.cur { c1 with long := c1.long ++ [{ o0 s1.uid with lock := [d] }] }).fresh else s1
        ∀ bd, s2.putLines f.bundle ((ps.zip (List.range ps.length)).filterMap (fun e => match e.1 with
            | .line key off page => some (homeLine key page (ad + BitVec.ofNat 64 (64 * e.2)) off ((bs.drop (64 * e.2)).take 64) none)
            | .window _ => none)) = some bd →
          completes s (.vstv h w a d) h (s2.setCore s.cur ((s2.core s.cur).onFrame f.uid (fun g => { g with bundle := bd }))) Ret.plain))) ∧
  (∀ (s : State) (n : Nat) (o : LongOp) (os : List LongOp), (s.core n).long = o :: os →
    (s.longWaits n o = true → exec (.longVectorComplete n) s = .next s) ∧
    (s.longWaits n o = false → ∃ t, exec (.longVectorComplete n) s = .next t ∧ (t.core n).long = os ∧ t.mem = s.mem ∧
      (∀ v, o.wdst = some v → (∃ f, (s.core n).frame? o.frame = some f) → (t.core n).getW v.1 = v.2) ∧
      (∀ v f, o.gdst = some v → o.wdst = none → v.1 ≠ 0 → (s.core n).frame? o.frame = some f →
        ∃ g, (t.core n).frame? o.frame = some g ∧ g.getG v.1 = v.2) ∧
      (∀ k, k < 5 → fget 0 (t.core n).escnt k = (let v := fget 0 (s.core n).escnt k
        if (s.core n).eswin ≠ 0 ∧ o.exc.getLsbD k = true ∧ v ≠ 0xFFFFFFFF then v + 1 else v))))

/-- R243, R244: chains. At issue a chain takes a place of the four of its lane's queue, with its operands and the successor's argument
registers (R133, R134) as they stand and its successor held until it completes; while the queue is full it waits, whatever it names. When
it runs, every element of the destination is the chain of operations on the elements of the sources (for
ranges that do not overlap), and no other byte changes. Where this rests on a choice of the model: log 49, log 116. -/
def Obligations.Chains : Prop :=
  (∀ (s : State) (f f1 : Frame) (fs : List Frame) (h : Hdr) (dst src : Fmt) (r : Rnd) (pd p0 p1 : Ptr) (gk gn gs : GReg)
      (ops : List (ChainOp × ChainSrc)),
    let x := s.ctx f.task.ctx
    let c := s.core s.cur
    let cnt := (f.getG gn).toNat
    let nd := cnt * fmtBytes dst
    let ns := cnt * fmtBytes src
    Issues s f fs h false ([.a (Ptr.reg pd), .a (Ptr.reg p0), .a (Ptr.reg p1), .g gk, .g gn, .g gs] ++ s.succRegs gs) [] →
    (4 ≤ (c.lane f.lane).cq.length → exec (.vchain h dst src r pd p0 p1 gk gn gs ops) s = .next (s.stopped s.cur)) ∧
    (cnt ≤ 65536 →
    (x.successor f gs 0x23 = .none ∧ f1 = f ∨
      ∃ st g, x.successor f gs 0x23 = .some st g ∧ f1 = g.hold (.start st (some s.uid))) →
    f.rangeCheck x (f.ptr pd) nd (fmtBytes dst) = .ok () → f.rangeCheck x (f.ptr p0) ns (fmtBytes src) = .ok () →
    f.rangeCheck x (f.ptr p1) ns (fmtBytes src) = .ok () → (c.lane f.lane).cq.length < 4 →
    c.rangeWaits [(f.ptr p0, ns), (f.ptr p1, ns)] [(f.ptr pd, nd)] = false →
    let q : ChainCmd :=
      { cmd := s.cmdOf s.cur f [], dst, src, rnd := r, pd := f.ptr pd, ps0 := f.ptr p0, ps1 := f.ptr p1, n := cnt,
        c0 := (f.getG gk).extractLsb' 0 32, c1 := (f.getG gk).extractLsb' 32 32, ops }
    completes s (.vchain h dst src r pd p0 p1 gk gn gs ops) h (s.setCore s.cur ((c.setTop (f1.wrote x (f.ptr pd) nd)).setLane f.lane
      { c.lane f.lane with cq := (c.lane f.lane).cq ++ [q] })).fresh
      { Ret.plain with writes := f.ptrStep pd nd ++ f.ptrStep p0 ns ++ f.ptrStep p1 ns })) ∧
  (∀ (s : State) (n lane : Nat) (q : ChainCmd) (qs : List ChainCmd), ((s.core n).lane lane).cq = q :: qs →
    (s.ctx q.cmd.task.ctx).tearing = false → (s.core n).watches = [] →
    let bd := fmtBytes q.dst
    let bs := fmtBytes q.src
    (∀ p ∈ [q.ps0, q.ps1], p + bs * q.n ≤ q.pd ∨ q.pd + bd * q.n ≤ p) →
    let old (a k : Nat) : Nat := leNat ((s.core n).padRead a k)
    ∃ t, exec (.chainRun n lane) s = .next t ∧ ((t.core n).lane lane).cq = qs ∧
      (∀ e, e < q.n → (t.core n).padRead (q.pd + bd * e) bd = leBytes bd (q.elem (old (q.ps0 + bs * e) bs) (old (q.ps1 + bs * e) bs)).1) ∧
      (∀ a, a < q.pd ∨ q.pd + bd * q.n ≤ a → fget 0 (t.core n).pad a = fget 0 (s.core n).pad a))

/-- R248, R249, R257, R258, R260–R264: the matrix instructions at issue enter the queue of the lane, with the lane guard held, room among
its four commands and no byte of theirs claimed by another command; the two register reads take no place of the four. A command whose queue
is full does not issue: it waits at its boundary, whatever it names and whether or not the guard is held. R250, R259, R261,
R262, R265, R266: the matrix instructions that read weight images from memory, and the weave. `MWEAVE` and `MSKEW` of a tile whose core
holds no other tile name their partners at issue; a weave that is paired sends its tile and its slot, and a partner that does not come in
time ends the context with cause 0x0B. That a time limit of a weave with nothing outstanding does nothing is the model's choice (log 13).
Where else this rests on a choice of the model: log 49, log 52. -/
def Obligations.MatrixIssue : Prop :=
  (∀ (s : State) (f : Frame) (fs : List Frame) (h : Hdr) (af : Fmt) (r : Rnd) (z : Bool) (p : Ptr) (c0 cm1 : BitVec 7)
      (row rm1 : BitVec 5) (col : BitVec 7) (seg : BitVec 4) (rs : Option RsOp) (a : VReg) (d : GReg),
    let x := s.ctx f.task.ctx
    let c := s.core s.cur
    let l := c.lane f.lane
    let q := f.ptr p
    let enters (i : Instr) (g : Frame) (op : MatOp) (ws : List Write) : Prop := completes s i h (s.setCore s.cur ((c.setTop g).setLane
      f.lane { l with mq := l.mq ++ [{ cmd := s.cmdOf s.cur f [], op }] })).fresh { Ret.plain with writes := ws }
    let can (op : MatOp) : Prop := l.full = false ∧ c.rangeWaits op.srcs op.dsts = false
    let fits (n : Nat) : Prop := f.bankCheck x q n 64 0x19 0x24 = .ok ()
    let cnt := cm1.toNat + 1
    let rows := rm1.toNat + 1
    let stays (i : Instr) : Prop := exec i s = .next (s.stopped s.cur)
    (l.full = true →
      (Issues s f fs h false [.a (Ptr.reg p)] [] → stays (.mwl h af p c0 cm1) ∧ stays (.mmul h af z p) ∧ stays (.macld h p row rm1)) ∧
      (Issues s f fs h false [] [] → stays (.mswap h) ∧ stays (.macz h)) ∧
      (Issues s f fs h false (.a (Ptr.reg p) :: rsRegs rs) [] → stays (.macst h af r p row rm1 rs)) ∧
      (Issues s f fs h false [.v a] [] → stays (.macmvTo h row seg a))) ∧
    (laneGuard f.lane ∈ f.claims →
    (Issues s f fs h false [.a (Ptr.reg p)] [] →
      (c0.toNat + cnt ≤ 128 → fits (imageBytes af cnt) → can (.mwl af q c0.toNat cnt) →
        enters (.mwl h af p c0 cm1) f (.mwl af q c0.toNat cnt) (f.ptrStep p (imageBytes af cnt))) ∧
      (128 < c0.toNat + cnt → l.full = false → exec (.mwl h af p c0 cm1) s = .next (s.trapped s.cur (.mwl h af p c0 cm1) 0x24 0)) ∧
      (fits (tileBytes af) → can (.mul af z q) → enters (.mmul h af z p) f (.mul af z q) (f.ptrStep p (tileBytes af))) ∧
      (row.toNat + rows ≤ 32 → fits (512 * rows) → can (.load q row.toNat rows) →
        enters (.macld h p row rm1) f (.load q row.toNat rows) (f.ptrStep p (512 * rows)))) ∧
    (Issues s f fs h false [] [] → l.full = false → c.rangeWaits [] [] = false →
      enters (.mswap h) f .swap [] ∧ enters (.macz h) f .zero []) ∧
    (Issues s f fs h false (.a (Ptr.reg p) :: rsRegs rs) [] →
      let len := rows * 128 * fmtBytes af
      let op : MatOp := .store af r q row.toNat rows (rs.map (f.stoch x))
      row.toNat + rows ≤ 32 → fits len → can op → enters (.macst h af r p row rm1 rs) (f.wrote x q len) op (f.ptrStep p len)) ∧
    (Issues s f fs h false [.v a] [.v a] → f.long = false →
      enters (.macmv h a row seg) { f with await := f.await ++ [.v a] } (.mv f.uid a row.toNat seg.toNat) []) ∧
    (Issues s f fs h false [.v a] [] → f.long = false → l.full = false →
      enters (.macmvTo h row seg a) f (.mvTo row.toNat seg.toNat a (c.getV f.lane a)) []) ∧
    (Issues s f fs h false [.g d] [] →
      enters (.macrd h d row col) { f with await := f.await ++ (if d = 0 then [] else [.g d]) } (.rd f.uid d row.toNat col.toNat) []))) ∧
  ((∀ (s : State) (f f1 : Frame) (fs : List Frame) (h : Hdr) (af wf : Fmt) (z : Bool) (p : Ptr) (pa pb : AReg) (a b gs : GReg)
      (c0 cm1 : BitVec 7) (sm1 : BitVec 8) (stride : BitVec 32),
    let x := s.ctx f.task.ctx
    let c := s.core s.cur
    let enters (s1 : State) (i : Instr) (g : Frame) (op : MatOp) (pgs : List Nat) (ws : List Write) : Prop :=
      let c := s1.core s.cur
      let l := c.lane f.lane
      c.rangeWaits op.srcs op.dsts = false →
      completes s i h (s1.setCore s.cur ((c.setTop (op.dsts.foldl (fun g r => g.wrote x r.1 r.2) g)).setLane f.lane
        { l with mq := l.mq ++ [{ cmd := s1.cmdOf s.cur f pgs, op }] })).fresh { Ret.plain with writes := ws }
    let pages (ps : List Place) : List Nat := ps.filterMap Place.page
    let lines (starts : List Word) (n : Nat) : List (Word × Nat) := starts.flatMap (fun a => piecesOf a n)
    let held (e : GReg) : Prop := x.tileSuccessor f s.cur e = .none ∧ f1 = f ∨
      ∃ st g, x.tileSuccessor f s.cur e = .some st g ∧ f1 = g.hold (.start st (some s.uid))
    let stays (i : Instr) : Prop := exec i s = .next (s.stopped s.cur)
    ((c.lane f.lane).full = true →
      (Issues s f fs h false [.g a] [] → stays (.mwlv h wf a c0 cm1)) ∧
      (Issues s f fs h false ([.a (Ptr.reg p), .g b, .g gs] ++ s.succRegs gs) [] → stays (.mpass h af wf z p b gs sm1 stride)) ∧
      (Issues s f fs h false ([.a pa, .a pb, .g gs] ++ s.succRegs gs) [] → stays (.mweave h af z pa pb gs)) ∧
      (Issues s f fs h false [.a pa, .a pb] [] → stays (.mskew h af pa pb))) ∧
    (laneGuard f.lane ∈ f.claims → (c.lane f.lane).full = false →
    (Issues s f fs h false [.g a] [] → ∀ ks ps s1,
      let cnt := cm1.toNat + 1
      let n := imageBytes wf cnt
      c0.toNat + cnt ≤ 128 → (f.getG a).toNat % 64 = 0 →
      s.kindAll x false (lines [f.getG a] n) = .ok ks → s.placeSorted s.cur f.task.ctx false ks = (.ok ps, s1) →
      let srcs := (ps.zip ks).map (fun e => (s1.source f e.2.1 e.1).1)
      enters s1 (.mwlv h wf a c0 cm1) f (.mwlv wf ((groupsOf ((n + 63) / 64) 1 srcs).flatMap (fun i => i)) c0.toNat cnt) (pages ps) []) ∧
    (Issues s f fs h false ([.a (Ptr.reg p), .g b, .g gs] ++ s.succRegs gs) [] → held gs → ∀ ks ps s1,
      let k := sm1.toNat + 1
      let starts := (List.range k).map (fun j => f.getG b + stride.signExtend 64 * BitVec.ofNat 64 j)
      let n := imageBytes wf 128
      f.bankCheck x (f.ptr p) (k * tileBytes af) 64 0x19 0x24 = .ok () → (∀ w ∈ starts, w.toNat % 64 = 0) →
      s.kindAll x false (lines starts n) = .ok ks → s.placeSorted s.cur f.task.ctx false ks = (.ok ps, s1) →
      let srcs := (ps.zip ks).map (fun e => (s1.source f e.2.1 e.1).1)
      enters s1 (.mpass h af wf z p b gs sm1 stride) f1 (.pass af wf z (f.ptr p) (groupsOf ((n + 63) / 64) k srcs)) (pages ps)
        (f.ptrStep p (k * tileBytes af))) ∧
    (let qa := (f.getA pa).toNat
     let qb := (f.getA pb).toNat
     let t := tileBytes af
     let grid := (f.geom.extractLsb' 0 8).toNat
     let count := fget 0 c.weaves grid
     let s1 := s.setCore s.cur { c with weaves := fset 0 c.weaves grid (count + 1) }
     let op (z : Option Bool) (w : Nat × Nat × Nat × Nat) : MatOp := .weave af z qa
       { grid, count, buf := qb, tileTo := w.1, slotTo := w.2.1, tileFrom := w.2.2.1, slotFrom := w.2.2.2, started := false,
         tileSent := false, slotSent := false, tileGot := false, slotGot := false, exc := 0 }
     f.bankCheck x qa t 64 0x19 0x24 = .ok () → f.bankCheck x qb t 64 0x19 0x24 = .ok () → (qa + t ≤ qb ∨ qb + t ≤ qa) →
     f.geom.getLsbD 49 = true → f.geom.getLsbD 48 = true → ∀ w,
     (Issues s f fs h false ([.a pa, .a pb, .g gs] ++ s.succRegs gs) [] → held gs → x.partners f.geom false = some w →
       enters s1 (.mweave h af z pa pb gs) f1 (op (some z) w) [] []) ∧
     (Issues s f fs h false [.a pa, .a pb] [] → x.partners f.geom true = some w →
       enters s1 (.mskew h af pa pb) f (op none w) [] [])))) ∧
  (∀ (s : State) (n lane : Nat) (q : MatCmd) (af : Fmt) (a : Nat) (w : Weave), ((s.core n).lane lane).weave? = some (q, af, a, w) →
    (∀ k, w.slotTo ≠ n → s.fabric.links (dieOf n) (dieOf w.slotTo) = true → (s.core w.slotTo).weaveLane w.grid w.count = some k → w.slotSent = false →
      ∃ t, exec (.weaveSend n lane true) s = .next t ∧ ((t.core w.slotTo).lane k).inc = ((s.core n).lane lane).act) ∧
    (∀ k, w.tileTo ≠ n → s.fabric.links (dieOf n) (dieOf w.tileTo) = true → (s.core w.tileTo).weaveLane w.grid w.count = some k → w.tileSent = false → (s.core w.tileTo).watches = [] →
      ∀ q' af' a' v, ((s.core w.tileTo).lane k).weave? = some (q', af', a', v) → ∃ t, exec (.weaveSend n lane false) s = .next t ∧
        (t.core w.tileTo).padRead v.buf (tileBytes af) = (s.core n).padRead a (tileBytes af)) ∧
    (w.tileSent = false → (s.core w.tileTo).weaveLane w.grid w.count = none →
      exec (.weaveTimeout n lane) s = .next (s.endCtx q.cmd.task.ctx 0x0B (q.cmd.task.id.extractLsb' 32 32))) ∧
    (w.tileSent = true → w.slotSent = true → w.tileGot = true → w.slotGot = true → exec (.weaveTimeout n lane) s = .next s)))

/-- R251, R256, R260–R262, R264, R265: what matrix commands do when they run. `MPASS` loads each image, swaps it in and makes a step; a weave
makes its step and then exchanges, and ends once it has sent and received both. The commands act on the accumulators and the weight slots of
their lane, `MACST` on scratchpad too; other lanes, other cores' lanes, scratchpads and frames, every line of memory, and the frames of the
core but for the held effects that the end of a command frees stay as they were (while no `FCLOSE` of the core ends in the same step). That a
weave that has started and waits does nothing is the model's choice (log 13). Where else this rests on a choice of the model: log 52. -/
def Obligations.MatrixCommandsRun : Prop :=
  ∀ (s : State) (n lane : Nat) (q : MatCmd) (qs : List MatCmd), ((s.core n).lane lane).mq = q :: qs →
    (s.ctx q.cmd.task.ctx).tearing = false →
    let c := s.core n
    let l := c.lane lane
    let bare (g : Frame) : Frame := { g with bundle := { g.bundle with effects := [] } }
    let others (t : State) : Prop := (∀ k, k ≠ lane → (t.core n).lane k = c.lane k) ∧
      (∀ key, t.mem.newerData key = s.mem.newerData key ∧ t.mem.olderData key = s.mem.olderData key ∧
        t.mem.lineTags key = s.mem.lineTags key) ∧
      (∀ m, m ≠ n → (t.core m).frames = (s.core m).frames ∧ (t.core m).pad = (s.core m).pad ∧ (t.core m).lanes = (s.core m).lanes)
    let gives (l' : Lane) : Prop := ∃ t, exec (.matrixCommandRun n lane) s = .next t ∧ (t.core n).pad = c.pad ∧
      { (t.core n).lane lane with v := [] } = { l' with mq := qs, v := [] } ∧
      (c.fclosed = [] → (t.core n).lane lane = { l' with mq := qs } ∧ others t ∧ (t.core n).frames.map bare = c.frames.map bare)
    (q.op = .swap → gives { l with act := l.inc, inc := l.act }) ∧
    (q.op = .zero → gives { l with acc := [] }) ∧
    (∀ wf a c0 cnt, q.op = .mwl wf a c0 cnt →
      gives { l with inc := fsetAll WCol.zero l.inc c0 (expandImage wf cnt (c.padRead a (imageBytes wf cnt))) }) ∧
    (∀ wf img c0 cnt bs, q.op = .mwlv wf img c0 cnt → s.engineLines n q.cmd img = .ok bs →
      gives { l with inc := fsetAll WCol.zero l.inc c0 (expandImage wf cnt bs) }) ∧
    (∀ af z a, q.op = .mul af z a → gives (l.step af z (c.padRead a (tileBytes af))).1) ∧
    (∀ af wf z a imgs bs, q.op = .pass af wf z a imgs → s.engineLines n q.cmd (imgs.flatMap fun i => i) = .ok bs →
      let tiles := (List.range imgs.length).map (fun j => c.padRead (a + j * tileBytes af) (tileBytes af))
      gives (l.passes af wf z ((groupsOf (imageBytes wf 128) imgs.length bs).zip tiles)).1) ∧
    (∀ (k : Lane) (af wf : Fmt) (z : Bool) (img tile : List Byte) (es : List (List Byte × List Byte)),
      let k1 : Lane := { k with act := fsetAll WCol.zero k.inc 0 (expandImage wf 128 img), inc := k.act }
      (k.passes af wf z ((img, tile) :: es)).1 = ((k1.step af z tile).1.passes af wf false es).1) ∧
    (∀ af z a w, q.op = .weave af z a w →
      (w.started = false →
        let r := match z with
          | some z => l.step af z (c.padRead a (tileBytes af))
          | none => (l, 0)
        exec (.matrixCommandRun n lane) s = .next (s.setCore n (c.setLane lane { r.1 with
          mq := { q with op := .weave af z a { w with started := true, exc := r.2 } } :: qs }))) ∧
      (w.started = true → w.tileSent = true → w.slotSent = true → w.tileGot = true → w.slotGot = true → gives l) ∧
      (w.started = true → w.tileSent = false ∨ w.slotSent = false ∨ w.tileGot = false ∨ w.slotGot = false →
        exec (.matrixCommandRun n lane) s = .next s)) ∧
    (∀ a row rows, q.op = .load a row rows → ∃ acc, gives { l with acc } ∧
      (∀ i, i < rows → fget 0 acc (row + i) = BitVec.ofNat 4096 (leNat (c.padRead (a + 512 * i) 512))) ∧
      (∀ k, k < row ∨ row + rows ≤ k → fget 0 acc k = fget 0 l.acc k)) ∧
    (∀ row seg reg v, q.op = .mvTo row seg reg v → seg < 16 → ∃ acc, gives { l with acc } ∧
      (∀ k, k ≠ row → fget 0 acc k = fget 0 l.acc k) ∧
      (∀ b, b < 4096 → (fget 0 acc row).getLsbD b = if b / 256 = seg then v.getLsbD (b % 256) else (fget 0 l.acc row).getLsbD b)) ∧
    (∀ fm r a row rows st, q.op = .store fm r a row rows st → c.watches = [] → ∃ t, exec (.matrixCommandRun n lane) s = .next t ∧
      (t.core n).padRead a (l.storeRows fm r q.cmd.ovf row rows st).1.length = (l.storeRows fm r q.cmd.ovf row rows st).1 ∧
      { (t.core n).lane lane with v := [] } = { l with mq := qs, v := [] } ∧ (c.fclosed = [] → others t)) ∧
    (∀ uid d row col f, q.op = .rd uid d row col → c.frame? uid = some f → d ≠ 0 → ∃ t g, exec (.matrixCommandRun n lane) s = .next t ∧
      (t.core n).frame? uid = some g ∧ g.getG d = BitVec.ofNat 64 ((fget 0 l.acc row).toNat / 2 ^ (32 * col) % 2 ^ 32) ∧
      g.await = f.await.erase (.g d) ∧ (∀ k, k ≠ d → g.getG k = f.getG k) ∧ others t) ∧
    (∀ uid d row seg f, q.op = .mv uid d row seg → c.frame? uid = some f → ∃ t, exec (.matrixCommandRun n lane) s = .next t ∧
      (t.core n).getV f.lane d = BitVec.ofNat 256 ((fget 0 l.acc row).toNat / 2 ^ (256 * seg) % 2 ^ 256))

/-- R306, R309–R313: the sampler instructions. Each enters the core's queue of four and takes the array for the context; while the queue is
full it waits at its boundary, and nothing of it is checked (R348, log 116). An array of another context traps with cause 0x2E before any
other check (R391), and then an operand beyond its limit with 0x2F. All but `SREAD` pass the abort horizon (log 38). R307, R308, R310–R313: the array runs one command whole. The settings
change one cell each; a sweep updates the unclamped cells of each class in turn, all of a class from the state before it, and counts the
sweep; `SREAD` delivers 64 cells and `SWRITE` writes those that are not clamped. A command of a context that is ending is discarded. -/
def Obligations.SamplingArray : Prop :=
  (∀ (s : State) (f : Frame) (fs : List Frame) (h : Hdr) (a b d gs : GReg) (slot : BitVec 4) (v : Bool) (col : BitVec 3) (sm1 : BitVec 8)
      (ncm1 : BitVec 3) (bb : BitVec 4),
    let c := s.core s.cur
    let die := s.cur / 136
    let x := (s.die die).samp
    let va := (f.getG a).toNat
    let vb := (f.getG b).toNat
    let trap (i : Instr) (cause : Nat) : Prop := exec i s = .next (s.trapped s.cur i cause 0)
    let free (i : Instr) (q : Prop) : Prop :=
      (4 ≤ c.sampq.length → exec i s = .next (s.stopped s.cur)) ∧
      (c.sampq.length < 4 → (∀ k, x.owner = some k → k ≠ f.task.ctx → trap i 0x2E) ∧ (x.owner = none ∨ x.owner = some f.task.ctx → q))
    let enters (i : Instr) (g : Frame) (op : SampOp) (read : Bool) : Prop := free i
      (completes s i h
        ((s.setCore s.cur { c.setTop { g with samp := g.samp ++ [s.uid], horizon := g.horizon || !read } with
          sampq := c.sampq ++ [{ cmd := s.cmdOf s.cur f [], op }] }).setDie die
          { s.die die with samp := { x with owner := some f.task.ctx } }).fresh Ret.plain)
    let bad (i : Instr) : Prop := free i (trap i 0x2F)
    (Issues s f fs h false [.g a, .g b] [] →
      (va < 65536 → vb < 2 ^ 24 →
        enters (.scouple h a b slot) f (.couple va slot.toNat (vb % 65536) (BitVec.ofNat 8 (vb / 65536))) false) ∧
      (va < 65536 → -2048 ≤ (f.getG b).toInt → (f.getG b).toInt ≤ 2047 →
        enters (.sbias h a b) f (.bias va (BitVec.ofInt 12 (f.getG b).toInt)) false) ∧
      (va < 65536 → va % 64 = 0 → enters (.swrite h a b) f (.write va (f.getG b)) false) ∧
      (vb < 2 ^ 32 → enters (.skey h bb a b) f (.key bb (f.getG a) (BitVec.ofNat 32 vb)) false) ∧
      (65536 ≤ va ∨ 2 ^ 24 ≤ vb → bad (.scouple h a b slot)) ∧ (2 ^ 32 ≤ vb → bad (.skey h bb a b)) ∧
      (65536 ≤ va ∨ (f.getG b).toInt < -2048 ∨ 2047 < (f.getG b).toInt → bad (.sbias h a b)) ∧
      (65536 ≤ va ∨ va % 64 ≠ 0 → bad (.swrite h a b))) ∧
    (Issues s f fs h false [.g a] [] →
      (va < 65536 → enters (.sclamp h a v) f (.clamp va v) false ∧ enters (.sclampOff h a) f (.clampOff va) false ∧
        enters (.scolour h a col) f (.colour va col) false) ∧
      (65536 ≤ va → bad (.sclamp h a v) ∧ bad (.sclampOff h a) ∧ bad (.scolour h a col))) ∧
    (Issues s f fs h false ([.g a, .g gs] ++ s.succRegs gs) [] →
      let first := va % 65536
      let cnt := va / 65536 + 1
      let y := s.ctx f.task.ctx
      let i : Instr := .sweep h a gs sm1 ncm1 bb
      (va < 2 ^ 32 → first + cnt ≤ 65536 →
        (∀ f1,
          (y.successor f gs 0x2F = .none ∧ f1 = f ∨ ∃ st g, y.successor f gs 0x2F = .some st g ∧ f1 = g.hold (.start st (some s.uid))) →
          enters i f1 (.sweep first cnt (sm1.toNat + 1) (ncm1.toNat + 1) bb.toNat y.keys) false) ∧
        (∀ k, y.successor f gs 0x2F = .bad k → free i (trap i k))) ∧
      (2 ^ 32 ≤ va ∨ 65536 < first + cnt → bad i)) ∧
    (Issues s f fs h false [.g d, .g a] [] →
      (va < 65536 → va % 64 = 0 → enters (.sread h d a) { f with await := f.await ++ (if d = 0 then [] else [.g d]) } (.read f.uid d va) true) ∧
      (65536 ≤ va ∨ va % 64 ≠ 0 → bad (.sread h d a)))) ∧
  (∀ (s : State) (die n : Nat) (q : SampCmd), bestSamp (s.sampHeads die) = some (n, q) →
    let x := (s.die die).samp
    let old (y : Sampler) (k : Nat) : Cell := fget Cell.zero y.cells k
    let bare (y : Sampler) : Sampler := { y with cells := [] }
    let gives (y : Sampler) : Prop := ∃ t, exec (.samplerCommandRun die) s = .next t ∧ (t.die die).samp = y ∧
      (t.core n).sampq = (s.core n).sampq.tail ∧ (∀ d, d ≠ die → (t.die d).samp = (s.die d).samp) ∧ (∀ m, (t.core m).pad = (s.core m).pad) ∧
      ((∀ m, (s.core m).fclosed = []) → ∀ key, t.mem.newerData key = s.mem.newerData key ∧ t.mem.olderData key = s.mem.olderData key ∧
        t.mem.lineTags key = s.mem.lineTags key)
    let sets (k : Nat) (e : Cell) : Prop := ∃ y, gives y ∧ bare y = bare x ∧ ∀ j, old y j = if j = k then e else old x j
    ((s.ctx q.cmd.task.ctx).tearing = true → gives x) ∧ ((s.ctx q.cmd.task.ctx).tearing = false →
    (∀ c slot nbr wt, q.op = .couple c slot nbr wt → sets c { old x c with nbr := fset (0, 0) (old x c).nbr slot (nbr, wt) }) ∧
    (∀ c v, q.op = .bias c v → sets c { old x c with bias := v }) ∧
    (∀ c v, q.op = .clamp c v → sets c { old x c with s := v, clamp := true }) ∧
    (∀ c, q.op = .clampOff c → sets c { old x c with clamp := false }) ∧
    (∀ c col, q.op = .colour c col → sets c { old x c with col }) ∧
    (∀ k seed snum, q.op = .key k seed snum → gives { x with kidx := k, seed, snum }) ∧
    (∀ c v, q.op = .write c v → ∃ y, gives y ∧ bare y = bare x ∧ ∀ k, old y k =
      if c ≤ k ∧ k < c + 64 ∧ (old x k).clamp = false then { old x k with s := v.getLsbD (k - c) } else old x k) ∧
    (∀ first cnt sweeps ncol b keys, q.op = .sweep first cnt sweeps ncol b keys →
      let key := fget 0 keys x.kidx.toNat
      let sum (y : Sampler) (c : Nat) : Int := (old y c).bias.toInt + ((List.range 16).map (fun j =>
        let e := fget (0, 0) (old y c).nbr j
        if (old y e.1).s then e.2.toInt else 0)).sum
      let value (y : Sampler) (c : Nat) : Bool :=
        decide ((osier (y.seed ++ y.snum ++ 0#16 ++ BitVec.ofNat 16 c) key).toNat % 2 ^ 24 < sigm (sum y c) b)
      ∃ st : Nat → Nat → Sampler, st 0 0 = x ∧ gives (st sweeps 0) ∧
        (∀ i, i < sweeps → st (i + 1) 0 = { st i ncol with snum := (st i ncol).snum + 1 }) ∧
        (∀ i k, i < sweeps → k < ncol → bare (st i (k + 1)) = bare (st i k) ∧
          ∀ c, old (st i (k + 1)) c = if first ≤ c ∧ c < first + cnt ∧ (old (st i k) c).col.toNat = k ∧ (old (st i k) c).clamp = false
            then { old (st i k) c with s := value (st i k) c } else old (st i k) c)) ∧
    (∀ uid d c f, q.op = .read uid d c → (s.core n).frame? uid = some f → d ≠ 0 → (s.core n).fclosed = [] →
      gives x ∧ ∃ t g, exec (.samplerCommandRun die) s = .next t ∧ (t.core n).frame? uid = some g ∧
        ∀ i, i < 64 → (g.getG d).getLsbD i = (old x (c + i)).s)))

/-- R294, R295: copies. At issue a copy takes a place of the eight of its core's queue, with its lines translated, and waits at its boundary
while the queue is full, whatever it names; when it runs, the
lines' bytes go to scratchpad (combined with what is there for `CPYC`), `CPYF` writes scratchpad to memory in bundles, and a copy ends
with its completion word. R17, R377: it waits while another core of the cluster has a copy of a higher task priority to start. Where this
rests on a choice of the model: log 13, log 24, log 47, log 48, log 49, log 116. -/
def Obligations.Copies : Prop :=
  (∀ (s : State) (f f1 : Frame) (fs : List Frame) (h : Hdr) (op : CpyOp) (fm : Fmt) (r : Rnd) (p : Ptr) (a gn gv gs : GReg) (pw : WordOp)
      (stride : BitVec 32) (rowlen : BitVec 16),
    let x := s.ctx f.task.ctx
    let cnt := (f.getG gn).toNat
    let pad := f.ptr p
    let ga := f.getG a
    let word := pw.reg?.map (fun w => ((f.getA w).toNat, f.getG gv))
    let copies (i : Instr) (kind : CpyKind) (str : Word) (row : Nat) : Prop := ∀ ks ps s1,
      let wr := decide (kind = .f)
      let dst : List (Nat × Nat) := (if wr then [] else [(pad, cnt)]) ++ (word.map (fun w => (w.1, 8))).toList
      let c1 := s1.core s.cur
      cnt % row = 0 → s.copyKinds x wr ga (copyAddrs ga cnt str row) = .ok ks → f.wordOk x pw.reg? pad cnt = true →
      s.placeSorted s.cur f.task.ctx wr ks = (.ok ps, s1) →
      c1.rangeWaits (if wr then [(pad, cnt)] else []) dst = false →
      let q : CpyCmd :=
        { cmd := s1.cmdOf s.cur f (ps.filterMap Place.page), kind, pad, n := cnt, lines := (ps.zip ks).map (fun e => (s1.source f e.2.1 e.1).1),
          addrs := (ps.zip ks).map (fun e => (e.2.1, match e.1 with
            | .line _ _ page => page
            | .window _ => none)), word, sent := false }
      completes s i h (s1.setCore s.cur { c1.setTop (dst.foldl (fun g r => g.wrote x r.1 r.2) { f1 with horizon := f1.horizon || wr }) with
        copyq := c1.copyq ++ [q] }).fresh { Ret.plain with writes := f.ptrStep p cnt }
    Issues s f fs h false ([.a (Ptr.reg p), .g a, .g gn, .g gv, .g gs] ++ pw.reg?.toList.map .a ++ s.succRegs gs) [] →
    (8 ≤ (s.core s.cur).copyq.length → ∀ i ∈ [Instr.cpys h p a gn gv gs pw, .cpyc h op fm r p a gn gv gs pw, .cpyf h p a gn gv gs pw,
      .cpyg h p a gn gv gs pw stride rowlen], exec i s = .next (s.stopped s.cur)) ∧
    ((s.core s.cur).copyq.length < 8 →
    (x.successor f gs 0x2C = .none ∧ f1 = f ∨ ∃ st g, x.successor f gs 0x2C = .some st g ∧ f1 = g.hold (.start st (some s.uid))) →
    0 < cnt → cnt ≤ 196608 → cnt % 64 = 0 → f.bankCheck x pad cnt 64 0x2C 0x2C = .ok () →
    copies (.cpys h p a gn gv gs pw) .s 0 cnt ∧ copies (.cpyc h op fm r p a gn gv gs pw) (.c op fm r) 0 cnt ∧
    copies (.cpyf h p a gn gv gs pw) .f 0 cnt ∧
    copies (.cpyg h p a gn gv gs pw stride rowlen) .g (stride.signExtend 64) rowlen.toNat)) ∧
  (∀ (s : State) (n : Nat) (q : CpyCmd) (qs : List CpyCmd), (s.core n).copyq = q :: qs → (s.ctx q.cmd.task.ctx).tearing = false →
    let c := s.core n
    (q.sent = false → s.copyWaits n q = true → exec (.copyCommandRun n) s = .next s) ∧
    (s.copyWaits n q = false → ((∀ bs w, q.kind = .s ∨ q.kind = .g → s.engineLines n q.cmd q.lines = .ok bs → c.watches = [] → q.word = some w →
      (w.1 + 8 ≤ q.pad ∨ q.pad + bs.length ≤ w.1) →
      ∃ t, exec (.copyCommandRun n) s = .next t ∧ (t.core n).copyq = qs ∧ (t.core n).padRead q.pad bs.length = bs ∧
        (t.core n).padRead w.1 8 = bytesOf 8 w.2) ∧
    (∀ bs op fm r, q.kind = .c op fm r → fm.width = 32 → q.n % 64 = 0 → bs.length = q.n → s.engineLines n q.cmd q.lines = .ok bs →
      c.watches = [] → q.word = none →
      ∃ t, exec (.copyCommandRun n) s = .next t ∧ (t.core n).copyq = qs ∧ ∀ e, 4 * e < q.n →
        leNat ((t.core n).padRead (q.pad + 4 * e) 4) % 2 ^ 32 =
          (cpyVal op fm r (leNat (c.padRead (q.pad + 4 * e) 4)) (leNat ((bs.drop (4 * e)).take 4))).1 % 2 ^ 32) ∧
    (q.kind = .f → q.sent = false → c.casOpen = none → q.inWindow (s.ctx q.cmd.task.ctx) = false →
      exec (.copyCommandRun n) s = .next ((s.setCore n { c with copyq := { q with sent := true } :: qs }).copySend n q)))) ∧
    (q.kind = .f → q.sent = true → (∀ b ∈ c.closed, b.copy ≠ some q.cmd.id) →
      exec (.copyCommandRun n) s = .next ((s.setCore n { c with copyq := qs }).copyEnd n q 0)))

/-! ## Encoding, decoding and the step -/

/-- R105–R119: every well-formed encoded instruction decodes from its bytes, whatever bytes follow, to itself with every operand; and what
decodes is well-formed and has the bytes of its encoding; a `NOP` keeps the bits that it ignores (R118). -/
def Obligations.DecodeEncodeAgree : Prop :=
  (∀ i : Instr, i.wf = true → i.hdr? ≠ none → ∃ bs, encode i = some bs ∧ bs.length = i.size ∧ (i.size = 8 ∨ i.size = 12 ∨ i.size = 16) ∧
    ∀ rest, decode (bs ++ rest) = .ok (i, i.size)) ∧
  (∀ (bs : List Byte) (i : Instr) (n : Nat), decode bs = .ok (i, n) → i.wf = true ∧ n = i.size ∧ n ≤ bs.length ∧
    encode i = some (bs.take n))

/-- Words that the spec writes out, one or two of each family, decode to the instructions that it gives them for. -/
def Obligations.DecodesSpecWords : Prop :=
  let h0 : Hdr := { stall := 0, gp := 0, gn := false }
  decodeTableWord 64 0x0000000010460025 = some (.add { h0 with stall := 1 } 3 1 2) ∧
  decodeTableWord 64 0x0000020229020401 = some (.cmp h0 .lt .set 1 2 4 5) ∧
  decodeTableWord 64 0x0000000000014C41 = some (.halt { h0 with gp := 2, gn := true }) ∧
  decodeTableWord 64 0x0000008002400C41 = some (.haltK h0 9) ∧
  decodeTableWord 64 0x00000600000A1C05 = some (.srd { h0 with stall := 1 } 5 6) ∧
  decodeTableWord 64 0x0000090001C01C21 = some (.swr h0 9 7) ∧
  decodeTableWord 64 0x00000002004E0881 = some (.ld h0 .w false 7 1 0) ∧
  decodeTableWord 64 0x00000003328008A1 = some (.st h0 .d 10 6 0) ∧
  decodeTableWord 64 0x0000002110461001 = some (.fadd h0 .bf16 .ru 3 1 2) ∧
  decodeTableWord 64 0x0000000302801841 = some (.mmul h0 .e4m3 false (.inc 2)) ∧
  decodeTableWord 64 0x00000000004C1AA1 = some (.sread h0 6 1) ∧
  decodeTableWord 96 0x0000000500000000_00000C02 = some (.spawn h0 5) ∧
  decodeTableWord 96 0x00000003_0000000001001CA2 = some (.genset h0 3 4)

/-- One step (log 2). The current core, or the core that the agenda names next, acts on its crossed threshold of the lowest class (R202),
else on a full window (R200), else at its boundary (R349); with the boundary behind it, it spends its stall (R111) and executes the
instruction that the bytes of the fetch block at its program counter decode to (R105, R106): those of memory, or, where the host has
written the line while the context was live, old ones by a free choice (R27, log 17). A device step of the agenda is executed as it stands;
while the device is in reset, only those steps are that need no running device (log 73). -/
def Obligations.StepRunsDecodedInstruction : Prop :=
  (∀ (s : State) (i : Instr) (ms : List Move), s.agenda = .dev i :: ms → i.hdr? = none →
    (s.mgmt.inReset = false ∨ aliveInReset i = true → step s = exec i { s with agenda := ms }) ∧
    (s.mgmt.inReset = true → aliveInReset i = false → step s = .next { s with agenda := ms })) ∧
  (∀ (s s0 : State) (n : Nat),
    (s.agenda = [] ∧ n = s.cur ∧ s0 = s ∨ ∃ ms, s.agenda = .core n :: ms ∧ s0 = { s with agenda := ms, cur := n }) →
    let c := s0.core n
    (∀ k, k < 5 → (∃ x ∈ c.crossed, x.cls = k) → (∀ x ∈ c.crossed, k ≤ x.cls) → step s = exec (.exceptionThreshold n k) s0) ∧
    ((∀ x ∈ c.crossed, 5 ≤ x.cls) →
      ((c.eswin ≠ 0 ∧ c.eswin.toNat ≤ c.espos.toNat) → step s = exec (.exceptionWindowEnd n) s0) ∧
      (¬ (c.eswin ≠ 0 ∧ c.eswin.toNat ≤ c.espos.toNat) →
        (c.passed = false → step s = exec (.instructionBoundary n) s0) ∧
        (c.passed = true → c.dbg.halted = false → (∀ q ∈ c.reqs, q.inside = false) →
          ∀ (f : Frame) (fs : List Frame) (key off : Nat) (page : Option Nat) (s2 : State) (i : Instr) (len : Nat),
            let s1 := s0.setCore n (spendStall c)
            let x := s1.ctx f.task.ctx
            let room := 32 - f.pc.toNat % 32
            (s1.core n).frames = f :: fs → f.pc.toNat % 4 = 0 → x.codebase.toNat ≤ f.pc.toNat → f.pc.toNat < x.codebase.toNat + x.codelen →
            s1.resolve n f.task.ctx false f.pc = (.ok (.line key off page), s2) →
            s2.mem.isBad key = false → s2.mem.isBad ((64 * key + off + (31 - f.pc.toNat % 32)) / 64) = false →
            (s2.mem.oldCode f.task.ctx key = [] → decode (s2.mem.physRead (64 * key + off) room) = .ok (i, len) → step s = exec i s2) ∧
            (s2.mem.oldCode f.task.ctx key ≠ [] → ∃ bs,
              (decode bs = .ok (i, len) → step s = exec i { s2 with draws := s2.draws + 1 }) ∧
              (bs = s2.mem.physRead (64 * key + off) room ∨ ∃ old ∈ s2.mem.oldCode f.task.ctx key,
                bs = (old.drop off).take room))))))

/-- Every step keeps the memories in canonical form, the model's own (log 5): main memory and the vaults with their tags, host memory,
every scratchpad. -/
def Obligations.StepsKeepMemoryCanonical : Prop :=
  ∀ s t : State, s.memWf = true → step s = .next t → t.memWf = true

/-- What reset leaves, as far as the spec gives it: no context, no enabled queue with `TICKETS` 1 and `LOG2SIZE` 6 (R50), the event queue
off (R64), `DISPCFG` (R81), dark links (R324), fibres with 16 wavelengths (R327), ports down (R342), no core in a context and no halt
(R364), whole dies (R68, log 7). Memory is in canonical form, and lists nothing (log 5). -/
def Obligations.ResetState : Prop :=
  let s := State.reset
  s.memWf = true ∧ (∀ k, s.mem.newerData k = List.replicate 64 0 ∧ s.mem.lineTags k = LineTags.zero) ∧
  (∀ k, (s.ctx k).state = 0) ∧ (∀ n, (s.core n).ctx = none ∧ (s.core n).frames = [] ∧ (s.core n).dbg.halted = false) ∧
  (∀ q, (s.queue q).state = 0 ∧ (s.queue q).tickets = 1 ∧ (s.queue q).log2 = 6 ∧ (s.queue q).bind = 0 ∧ (s.queue q).qbase = 0 ∧
    (s.queue q).wr = 0 ∧ (s.queue q).rd = 0 ∧ (s.queue q).shadow = 0) ∧
  s.apertureRead 0x300 = 0x040400804000 ∧ s.apertureRead 0x410 = 0 ∧ s.apertureRead 0x1008 = 4 ∧
  (∀ f, f < 128 → (s.fabric.fibre f).wlmask = 0xFFFF ∧ (s.fabric.fibre f).fstate = 0) ∧
  (∀ f, 128 ≤ f → (s.fabric.fibre f).fstate = 5) ∧ (∀ p, (s.fabric.port p).estate = 0) ∧
  (∀ d, (s.die d).cluse = 0xFFFFFFFF ∧ (s.die d).spfree = 2 ∧ (s.die d).clret = 0 ∧ (s.die d).corelost = 0)

/-! ## Control registers, privileged instructions, boundaries -/

/-- R127, R128, R129, R201, R217, R285, R353: `SRD` writes the value of the register to gd with latency 2; `SWR` writes one of the
registers that can be written, those of privileged code in privileged state alone (R11, R391); it leaves the others as they were. Where
this rests on a choice of the model: log 31, log 32. -/
def Obligations.SystemRegisters : Prop :=
  ∀ (s : State) (f : Frame) (fs : List Frame) (h : Hdr) (d a : GReg) (csr : BitVec 12),
    let c := s.core s.cur
    let x := s.ctx f.task.ctx
    let n := csr.toNat
    let v := f.getG a
    let ceil := f.claims.foldl (fun m g => max m (x.guard g.toNat).ceil) 0
    let writes (c1 : Core) (g : Frame) : Prop := completes s (.swr h csr a) h (s.setCore s.cur (c1.setTop g)) Ret.plain
    (Issues s f fs h false [.g d] [] →
      (∀ e ∈ [(0x000, 256 * ceil + 16 * f.prio + max f.prio ceil),
          (0x005, 4 * f.long.toNat + f.lane),
          (0x006, 2 ^ 18 * c.carve + 65536 * f.priv.toNat + 1024 * (f.lim + 8) + 32 * (c.frames.filter (fun g => g.window == .resident)).length
            + c.frames.length),
          (0x007, fget 0 f.pb 0 + 256 * fget 0 f.pb 1 + 65536 * fget 0 f.pb 2),
          (0x009, f.schk.toNat)],
        n = e.1 → results s (.srd h d csr) h [gRes d (BitVec.ofNat 64 e.2) 2]) ∧
      (∀ e ∈ [(0x001, f.task.id), (0x002, c.coreid), (0x003, x.vdmask.setWidth 64), (0x004, x.bandmap.setWidth 64), (0x008, c.ovfl),
          (0x00B, f.geom), (0x040, f.tcause), (0x041, f.tpc), (0x042, f.tval), (0x043, f.tinsn0), (0x044, f.tinsn1),
          (0x080, c.eswin.setWidth 64), (0x081, c.espos.setWidth 64)],
        n = e.1 → results s (.srd h d csr) h [gRes d e.2 2]) ∧
      (n = 0x00A → ∃ w : Word, results s (.srd h d csr) h [gRes d w 2] ∧ (f.claims.length ≤ 8 →
        (w.extractLsb' 48 16).toNat = f.claims.length ∧ ∀ k, k < f.claims.length → w.extractLsb' (6 * k) 6 = f.claims.getD k 0)) ∧
      (∀ k, k < 32 → n = 0x020 + k → results s (.srd h d csr) h [gRes d ((View.regs f.view).getD k 0) 2]) ∧
      (∀ k, k < 8 → n = 0x048 + k → results s (.srd h d csr) h [gRes d (fget 0 f.tsave k) 2]) ∧
      (∀ k, k < 5 → n = 0x088 + k → results s (.srd h d csr) h [gRes d ((fget 0 c.esthr k).setWidth 64) 2]) ∧
      (∀ k, k < 5 → n = 0x090 + k → results s (.srd h d csr) h [gRes d ((fget 0 c.escnt k).setWidth 64) 2])) ∧
    (Issues s f fs h false [.g a] [] →
      let owned : Prop := n = 0x041 ∨ (0x048 ≤ n ∧ n < 0x050) ∨ n = 0x080 ∨ (0x088 ≤ n ∧ n < 0x08D)
      (n = 0x009 → writes c { f with schk := v.getLsbD 0 }) ∧
      (owned → f.priv = false → exec (.swr h csr a) s = .next (s.trapped s.cur (.swr h csr a) 0x05 0)) ∧
      (f.priv = true →
        (n = 0x041 → writes c { f with tpc := v }) ∧
        (∀ k, k < 8 → n = 0x048 + k → writes c { f with tsave := fset 0 f.tsave k v }) ∧
        (n = 0x080 → ∃ es, writes { c with eswin := v.setWidth 32, espos := 0, escnt := [], esthr := es } f ∧
          ∀ k, k < 5 → fget 0 es k = fget 0 c.esthr k &&& 0x3FFFFFFFF) ∧
        (∀ k, k < 5 → n = 0x088 + k →
          writes { c with esthr := fset 0 c.esthr k ((fget 0 c.esthr k &&& 0x400000000) ||| (v.setWidth 35 &&& 0x3FFFFFFFF)) } f)) ∧
      (n ≠ 0x009 → ¬ owned → writes c f))

/-- R171, R174, R183, R184, R197: the instructions that write the tables of the context and act on its translations. `OVLD` takes a table
without reserved bits and without action 3, or traps with cause 0x15; `GENSET` and `KEYSET` stage, `GENSYNC` makes what is staged current;
`HARVEST` cleans the context's entries, and an invalidation removes them, unless an engine command holds a translation that it removes.
Where this rests on a choice of the model: log 27. -/
def Obligations.PrivilegedInstructions : Prop :=
  ∀ (s : State) (f : Frame) (fs : List Frame) (h : Hdr) (k : BitVec 4) (a b : GReg),
    let n := f.task.ctx
    let x := s.ctx n
    let v := f.getG a
    let own (e : Tlb) : Bool := e.ctx == n
    (Issues s f fs h true [.g a] [] →
      (let ok : Prop := v.toNat < 1024 ∧ ∀ j, j < 5 → v.extractLsb' (2 * j) 2 ≠ 3
       (ok → completes s (.ovld h a) h (s.setCtx n { x with ovf := v }) Ret.plain) ∧
       (¬ ok → exec (.ovld h a) s = .next (s.trapped s.cur (.ovld h a) 0x15 0))) ∧
      (let inHeap : Prop := v.toNat % 64 = 0 ∧ x.heapbase.toNat ≤ v.toNat ∧ v.toNat + 64 ≤ x.heaplimit.toNat
       (¬ inHeap → exec (.genset h k a) s = .next (s.trapped s.cur (.genset h k a) 0x13 0)) ∧
       (∀ bs s1, inHeap → s.readParts s.cur [(v.toNat, 64)] = .ok bs s1 →
         let staged (y : Ctx) (w : GenWin) : Ctx := { y with staged := y.staged.filter (fun e => e.1 != k.toNat) ++ [(k.toNat, w)] }
         let stages (s1 : State) (w : GenWin) : Prop := completes s (.genset h k a) h (s1.setCtx n (staged (s1.ctx n) w)) Ret.plain
         (((parseWin bs).valid = true) → (parseWin bs).table = none → stages s1 (parseWin bs)) ∧
         (((parseWin bs).valid = false) → exec (.genset h k a) s = .next (s.trapped s.cur (.genset h k a) 0x13 0)) ∧
         (∀ t fq s2, (parseWin bs).table = some t → x.heapRange t.1 t.2 = true → s1.readParts s.cur (lineParts 40 t.1 t.2) = .ok fq s2 →
           ((parseWin bs).withTable fq).valid = true → stages s2 ((parseWin bs).withTable fq)))) ∧
      (s.pageHeld n (fun p => p == v.toNat / 65536) = false →
        ∃ t, completes s (.tlbinv h a) h t Ret.plain ∧
          ∀ m, (t.core m).tlb = ((s.core m).tlb.map (fun e => if own e && e.page == v.toNat / 65536 then { e with dirty := false } else e)).filter
            (fun e => !(own e && e.page == v.toNat / 65536)))) ∧
    (Issues s f fs h true [.g a, .g b] [] →
      let y : Ctx := { x with stagedKeys := x.stagedKeys.filter (fun e => e.1 != k.toNat) ++ [(k.toNat, f.getG b ++ v)] }
      completes s (.keyset h k a b) h (s.setCtx n y) Ret.plain) ∧
    (Issues s f fs h true [] [] →
      (∃ t, completes s (.harvest h) h t Ret.plain ∧ t.mem.tags = s.mem.tags ∧
        ∀ m, (t.core m).tlb = (s.core m).tlb.map (fun e => if own e then { e with dirty := false } else e)) ∧
      (s.pageHeld n (fun _ => true) = false →
        ∃ t, completes s (.tlbinvAll h) h t Ret.plain ∧ ∀ m, (t.core m).tlb = (s.core m).tlb.filter (fun e => !own e))) ∧
    (Issues s f fs h false [] [] → ∃ y, completes s (.gensync h) h (s.setCtx n y) Ret.plain ∧ y.staged = [] ∧ y.stagedKeys = [] ∧
      (∀ j, fget GenWin.absent y.windows j =
        ((x.staged.reverse.find? (fun e => e.1 == j)).map (fun e => e.2)).getD (fget GenWin.absent x.windows j)) ∧
      (∀ j, fget 0 y.keys j = ((x.stagedKeys.reverse.find? (fun e => e.1 == j)).map (fun e => e.2)).getD (fget 0 x.keys j)))

/-- R200, R202, R280, R349: the events of a core. A crossing of an exception threshold sets `HIT` and acts once, by a trap that is due at
the next boundary, by a record 0x07, or by both, the crossings in increasing class order; a full window begins anew; a kept grant that
expires is gone. At a boundary the frames of an ending context go (R357), then a deferred abort is taken (R350), a due trap is entered with
`AFTER` set, the offered task is admitted if it is eligible and fits (R123): its frame holds what R31 gives, in a grant that is zeroed; and
the frame on top passes, its window filled (R124). R124, R125: a spill takes the lowest resident window whose frame awaits nothing, to the
carve-out or else to `OVFL`, and a fill reads it back. That no boundary falls before crossings have acted, so that the step then does
nothing, is the model's choice (log 2, log 13). Where else this rests on a choice of the model: log 16, log 20, log 32, log 64. -/
def Obligations.CoreEvents : Prop :=
  ∀ (s : State) (n : Nat),
    let c := s.core n
    let due (t : State) : List Crossing := (t.core n).trapDue
    let posted (t : State) (k : Nat) : Prop := fget 0 t.events.sseq n = fget 0 s.events.sseq n + BitVec.ofNat 16 k
    (∀ k x, k < 5 → (∀ y ∈ c.crossed, k ≤ y.cls) → c.crossed.find? (fun x => x.cls == k) = some x →
      let act := (fget 0 c.esthr k).extractLsb' 32 2
      ∃ t, exec (.exceptionThreshold n k) s = .next t ∧ (fget 0 (t.core n).esthr k).getLsbD 34 = true ∧
        (∀ j, j ≠ k → fget 0 (t.core n).esthr j = fget 0 c.esthr j) ∧ (t.core n).crossed = c.crossed.filter (fun y => y.cls != k) ∧
        (t.core n).frames = c.frames ∧ t.mem = s.mem ∧ due t = (if act.getLsbD 0 then c.trapDue ++ [x] else c.trapDue) ∧
        posted t (if act.getLsbD 1 then 1 else 0)) ∧
    (c.crossed = [] → c.eswin ≠ 0 → c.eswin.toNat ≤ c.espos.toNat →
      ∃ es, exec (.exceptionWindowEnd n) s = .next (s.setCore n { c with espos := 0, escnt := [], esthr := es }) ∧
        ∀ k, k < 5 → fget 0 es k = fget 0 c.esthr k &&& 0x3FFFFFFFF) ∧
    let at_ : Prop := c.passed = false ∧ (∀ q ∈ c.reqs, q.inside = false) ∧ c.crossed = []
    let live : Prop := ∀ k, c.ctx = some k → (s.ctx k).tearing = false
    let unhalted : Prop := c.dbg.halted = false ∧ c.dbg.haltReq = false ∧ c.dbg.brken = false ∧ c.dbg.stepping = false ∧
      ∀ k, k < 4 → (fget 0 c.dbg.dba k).getLsbD 0 = false
    (c.crossed ≠ [] → exec (.instructionBoundary n) s = .next s) ∧
    (∀ k, at_ → c.ctx = some k → (s.ctx k).tearing = true → (∀ e ∈ (s.cluster (clusterOf n)).ready, e.offer ≠ some n) →
      ∃ t, exec (.instructionBoundary n) s = .next t ∧ (t.core n).frames = [] ∧ (t.core n).trapDue = [] ∧ (t.core n).passed = false ∧
        ∀ b ∈ (t.core n).closed, b.effects = []) ∧
    (∀ f fs, at_ → live → c.dbg.halted = false → c.frames = f :: fs → f.deferred = true → f.horizon = false → (s.ctx f.task.ctx).state = 2 →
      (∀ g ∈ fs, g.deferred = false) → exec (.instructionBoundary n) s = exec (.instructionBoundary n) (s.viewTooOld n)) ∧
    (∀ (task : Task) (m : Template), at_ → live → unhalted → c.trapDue = [] → (∀ f, c.top? = some f → f.deferred = false) →
      s.offered n = some task → (s.ctx task.ctx).templates[task.tmpl]? = some m →
      (s.eligible task n = true → s.fits n task = true →
        (s.spillFor n (m.regs + 8) 16 = none → exec (.instructionBoundary n) s = .next s) ∧
        (∀ s1, s.spillFor n (m.regs + 8) 16 = some s1 → (s.ctx task.ctx).state = 2 → (s1.ctx task.ctx).state = 2 → task.cont = none →
          (s1.core n).kept = none → (task.args.map (fun e => e.1)).Nodup → m.regs ≤ 32 →
          ∃ t g, exec (.instructionBoundary n) s = .next t ∧ (t.core n).frames = g :: (s1.core n).frames ∧ (t.core n).passed = true ∧
            g.task = task ∧ g.prio = m.prio ∧ g.lim = m.regs ∧ g.pc = (s.ctx task.ctx).codebase + BitVec.ofNat 64 m.entry ∧
            (∀ k : GReg, g.getG k = if k = 0 ∨ m.regs ≤ k.toNat then 0 else ((task.args.find? (fun e => e.1 == k.toNat)).map (fun e => e.2)).getD 0) ∧
            (∀ k, g.getA k = 0) ∧ (∀ k, g.getP k = decide (k = 0)) ∧ g.claims = [] ∧ g.bundle = Bundle.empty ∧ g.view = View.ofSet task.set ∧
            (∀ b o, b < 3 → 1024 * fget 0 g.pb b ≤ o → o < 1024 * (fget 0 g.pb b + fget 0 m.need b) → fget 0 (t.core n).pad (b * 2 ^ 18 + o) = 0) ∧
            (∀ b, b < 3 → ∀ e ∈ (s1.core n).taken b, fget 0 m.need b = 0 ∨ fget 0 g.pb b + fget 0 m.need b ≤ e.1 ∨ e.1 + e.2 ≤ fget 0 g.pb b))) ∧
      (s.eligible task n = false ∨ s.fits n task = false → ∃ t, exec (.instructionBoundary n) s = .next t ∧ (t.core n).offer = none ∧
        (t.core n).frames.map Frame.uid = c.frames.map Frame.uid)) ∧
    (∀ w k, (w ≤ c.windowFree → s.spillFor n w k = some s) ∧
      (c.windowFree < w →
        ((∀ g ∈ c.frames, g.spillable = false) → s.spillFor n w k = none) ∧
        (∀ above f below, c.frames = above ++ f :: below → f.spillable = true → (∀ g ∈ below, g.spillable = false) →
          ((s.spillOne n f).ctx f.task.ctx).state = 2 → s.spillFor n w (k + 1) = (s.spillOne n f).spillFor n w k))) ∧
    (∀ f : Frame, f.spillable = true ↔ f.window = .resident ∧ ∀ r ∈ f.await, (∃ k, r = .v k) ∨ ∃ k, r = .w k) ∧
    (∀ f, f ∈ c.frames →
      let x := s.ctx f.task.ctx
      let len := 8 * (f.lim + 8)
      let t := s.spillOne n f
      let word (k : Nat) : Word := if k < 8 then (f.getA (BitVec.ofNat 3 k)).setWidth 64 else f.getG (BitVec.ofNat 5 (k - 8))
      let out (w : Window) : Prop := (t.core n).frames = c.frames.map (fun g => if g.uid = f.uid then { g with window := w, g := [], a := [] } else g)
      let fits : Prop := (∀ g ∈ c.frames, ∀ p, g.window ≠ .main p) ∧ c.carve + len ≤ 1024 * x.spillkb
      (fits → out (.carve c.carve) ∧ (t.core n).carve = c.carve + len ∧ t.mem = s.mem ∧
        (∀ k, k < f.lim + 8 → (t.core n).padRead (x.carveAt c.carve + 8 * k) 8 = bytesOf 8 (word k)) ∧
        ∀ a, a < x.carveAt c.carve ∨ x.carveAt c.carve + len ≤ a → fget 0 (t.core n).pad a = fget 0 c.pad a) ∧
      (¬ fits → s.spillsOwn f.task.ctx (c.ovfl.toNat, len) = true → out (.main c.ovfl) ∧ (t.core n).ovfl = c.ovfl + BitVec.ofNat 64 len ∧
        (t.core n).pad = c.pad ∧ (∀ k, k < f.lim + 8 → fgetAll 0 t.mem.newer (c.ovfl.toNat + 8 * k) 8 = bytesOf 8 (word k)) ∧
        ∀ a, a < c.ovfl.toNat ∨ c.ovfl.toNat + len ≤ a → fget 0 t.mem.newer a = fget 0 s.mem.newer a)) ∧
    (∀ f fs, c.frames = f :: fs → at_ → live → unhalted → s.offered n = none → f.deferred = false → (s.ctx f.task.ctx).state = 2 →
      s.settleWaits n f = false → c.trapDue = [] → f.lim ≤ 32 →
      let x := s.ctx f.task.ctx
      let len := 8 * (f.lim + 8)
      let filled (word : Nat → Word) (t : State) : Prop := ∃ g, (t.core n).frames = g :: fs ∧ g.window = .resident ∧ g.pc = f.pc ∧ g.p = f.p ∧
        (∀ k : AReg, g.getA k = (word k.toNat).setWidth 32) ∧
        (∀ k : GReg, k.toNat < f.lim → g.getG k = if k = 0 then 0 else word (8 + k.toNat))
      (∀ off, f.window = .carve off → c.carve = off + len → (∀ g ∈ fs, ∀ o, g.window = .carve o → o ≤ off) →
        ∃ t, exec (.instructionBoundary n) s = .next t ∧ filled (fun k => wordOf (c.padRead (x.carveAt off + 8 * k) 8)) t ∧ (t.core n).carve = off) ∧
      (∀ pa, f.window = .main pa → c.ovfl.toNat = pa.toNat + len → (∀ g ∈ fs, ∀ p, g.window = .main p → p.toNat ≤ pa.toNat) →
        ((∀ key, pa.toNat / 64 ≤ key → 64 * key < pa.toNat + len → s.mem.isBad key = false) → ∃ t, exec (.instructionBoundary n) s = .next t ∧
          filled (fun k => wordOf (fgetAll 0 s.mem.newer (pa.toNat + 8 * k) 8)) t ∧ (t.core n).ovfl = pa) ∧
        (s.mem.isBad (pa.toNat / 64) = true → ∃ t, exec (.instructionBoundary n) s = .next t ∧ (t.ctx f.task.ctx).state = 3 ∧
          (t.ctx f.task.ctx).cause = 0x04))) ∧
    (∀ f fs, c.frames = f :: fs → at_ → live → unhalted →
      s.offered n = none → f.deferred = false → f.window = .resident → (s.ctx f.task.ctx).state = 2 → s.settleWaits n f = false →
      (c.trapDue = [] → exec (.instructionBoundary n) s =
        .next (s.setCore n { c with passed := true, frames := { f with arrived := false, settleWait := none } :: fs })) ∧
      (∀ x, c.trapDue = [x] → x.cls < 5 → f.priv = false → ∃ t g, exec (.instructionBoundary n) s = .next t ∧
        (t.core n).frames = g :: fs ∧ (t.core n).passed = true ∧ (t.core n).trapDue = [] ∧ g.priv = true ∧ g.tcause = 0x216 ∧
        g.tval = BitVec.ofNat 64 x.cls ∧ g.tpc = f.pc ∧ g.tinsn0 = x.t0 ∧ g.tinsn1 = x.t1 ∧ g.g = f.g ∧ g.p = f.p ∧
        g.pc = (s.ctx f.task.ctx).codebase + BitVec.ofNat 64 (s.ctx f.task.ctx).trapentry)) ∧
    (∃ t, exec (.keptGrantExpiry n) s = .next t ∧ (t.core n).kept = none ∧ (t.core n).frames = c.frames ∧ t.mem = s.mem)

/-! ## Dispatchers, remote steps, pairs -/

/-- R75–R80, R369: the order of the ready tasks and the steps of a dispatcher. What enters the order keeps its task, its age and its
arrival; offers and marks change no task; a move goes to a neighbour as a release with its age and its skips, and what waits at the input
is taken in as far as there is room (R75). R282: a context ends with cause 0x01 when its last task has retired; what that waits for is
the model's reading (log 67), and that the step does nothing before is the model's choice (log 13). Where else this rests on a choice of
the model: log 19, log 66, log 82. -/
def Obligations.DispatcherSteps : Prop :=
  ∀ (s : State) (c k n : Nat),
    let l := (s.cluster c).ready
    let keeps (t : State) (e : Ready) (r : Ready) : Prop := e ∈ (t.cluster c).ready ∧ e.task = r.task ∧ e.arrival = r.arrival
    ((((s.offers c).cluster c).ready.map (fun e => e.task)).Perm (l.map (fun e => e.task)) ∧
      ((s.offers c).cluster c).ready.Pairwise (fun x y => s.before y x = false)) ∧
    (∀ r, s.releases[k]? = some r → (∀ q ∈ s.releases.take k, ¬ (q.src = r.src ∧ q.cluster = r.cluster)) → s.linksRelease r = true →
      s.releaseBehind r = false →
      ((s.ctx r.task.ctx).state ≠ 2 → exec (.releaseArrival k) s = .next { s with releases := s.releases.eraseIdx k }) ∧
      ((s.ctx r.task.ctx).state = 2 → r.task.set.length ≤ 8 →
        ∃ t, exec (.releaseArrival k) s = .next t ∧ t.releases = s.releases.eraseIdx k ∧ t.mem = s.mem ∧ t.cores = s.cores ∧
          ((s.cluster r.cluster).ready.length < 512 ∧ (s.cluster r.cluster).input = [] → ∃ e ∈ (t.cluster r.cluster).ready,
            e.task = r.task ∧ e.arrival = s.clock ∧ e.aged = r.aged) ∧
          (512 ≤ (s.cluster r.cluster).ready.length → (t.cluster r.cluster).input = (s.cluster r.cluster).input ++ [r]))) ∧
    (∀ r, (s.core n).offer = none → (s.cluster (clusterOf n)).ready.find? (fun r => r.offer == some n) = some r →
      ((s.core n).dbg.halted = false → exec (.offerArrival n) s = .next (s.setCore n { s.core n with offer := some r.task })) ∧
      ((s.core n).dbg.halted = true → ∃ t, exec (.offerArrival n) s = .next t ∧ (t.core n).offer = none ∧
        (∀ e ∈ (t.cluster (clusterOf n)).ready, e.offer ≠ some n) ∧
        ((t.cluster (clusterOf n)).ready.map (fun e => e.task)).Perm ((s.cluster (clusterOf n)).ready.map (fun e => e.task)))) ∧
    (∀ r, l[k]? = some r →
      (∃ t e, exec (.taskAged c k) s = .next t ∧ t.cores = s.cores ∧ t.mem = s.mem ∧ keeps t e r ∧ e.aged = true) ∧
      (max 1 ((s.ctx r.task.ctx).dispcfg.extractLsb' 20 4).toNat ≤ r.skips → r.offer = none →
        ∃ t e, exec (.skipLimitBlock c k) s = .next t ∧ t.cores = s.cores ∧ keeps t e r ∧ (e.blocked = true ∨ e.offer ≠ none)) ∧
      (∃ t e, exec (.entryStoreFetch c k) s = .next t ∧ t.cores = s.cores ∧ keeps t e r ∧ e.fetched = true)) ∧
    (∃ t, exec (.dispatchExchange c) s = .next t ∧ t.cores = s.cores ∧ t.mem = s.mem ∧
      (∀ r ∈ l, (∃ e ∈ (t.cluster c).ready, e.task = r.task) ∨ ∃ q ∈ t.releases, q.task = r.task ∧ q.src = 2000 + c ∧ q.aged = r.aged ∧
        q.skips = r.skips) ∧
      (∀ q ∈ t.releases, q ∈ s.releases ∨ q.src = 2000 + c ∧ q.task.core = none ∧ ∃ r ∈ l, r.task = q.task ∧ r.offer = none) ∧
      (∀ q ∈ (s.cluster c).input, q ∈ (t.cluster c).input ∨ ∃ e ∈ (t.cluster c).ready, e.task = q.task) ∧
      ((t.cluster c).input = [] ∨ 512 ≤ (t.cluster c).ready.length)) ∧
    (s.lastRetired k = true → (s.ctx k).state = 2 ∧ (∀ m ∈ (s.ctx k).cores, (s.core m).frames = [] ∧ (s.core m).reqs = [] ∧ ∀ b ∈ (s.core m).closed, b.settled = true) ∧
      ∃ t, exec (.contextLastTaskRetired k) s = .next t ∧ (t.ctx k).state = 3 ∧ (t.ctx k).cause = 0x01 ∧ (t.ctx k).ord = 0) ∧
    (s.lastRetired k = false → exec (.contextLastTaskRetired k) s = .next s)

/-- R296, R330, R332, R335, R336, R338, R339: the steps of remote accesses. A continuation record leaves once its bundles are
acknowledged, and its task resumes with the reply in its destination; a message to a context of this package, a reply too, is refused unless
the binding of the entry for its sender agrees, and a request unless the context is live; a reply to one that is not is dropped. A line is
written and acknowledged; while another bundle's version of it is pending it stands in the routing die, and a settle passes it; a load is
answered, a reply reaches the record. What goes to a peer of this package is taken when it is its turn (R323). A remote atomic reads
its line and, unless a comparison fails, writes it; its reply is kept, and a request that comes again is answered from the replies kept,
or, older than all of them, ends its context. A refusal ends its context; so does a held link that lasts too long, and one that is not held
does nothing (log 13). Where else this rests on a choice of the model: log 53, log 54, log 57, log 95. -/
def Obligations.RemoteSteps : Prop :=
  ∀ (s : State) (n k : Nat),
    let c := s.core n
    (∀ e set, c.fwd[k]? = some e → e.sent = false →
      (∀ m, ∀ b ∈ (s.core m).closed, b.uid ∈ e.bundles → ∀ l ∈ b.lines, l.prog.ackKnown = true) →
      c.reduceSet (s.writer n) e.task.set = some set →
      exec (.continuationSend n k) s = .next ((s.setCore n { c with fwd := c.fwd.set k { e with sent := true, task := { e.task with set } } }).send
        { srcPkg := s.fabric.pkgnum, srcCtx := BitVec.ofNat 6 e.task.ctx, srcCore := n, dstPkg := e.peer.pkg, dstCtx := e.peer.ctx,
          peer := e.peer.idx, eth := e.peer.eth, bind := e.peer.bind, prio := BitVec.ofNat 4 (s.prioOf e.task), fibre := 0, taskId := e.task.id,
          body := .loadReq e.id e.remote.addr e.remote.size set, sentAt := 2 * s.uid })) ∧
    (∀ e v, c.fwd[k]? = some e → e.reply = some v → (s.ctx e.task.ctx).state ≠ 2 →
      exec (.continuationResume n k) s = .next (s.setCore n { c with fwd := c.fwd.eraseIdx k })) ∧
    (∀ e v, c.fwd[k]? = some e → e.reply = some v → (s.ctx e.task.ctx).state = 2 → ∃ t r u, exec (.continuationResume n k) s = .next t ∧
      (t.core n).fwd = c.fwd.eraseIdx k ∧ t.releases = s.releases ++ [r] ∧ r.task.cont = some u ∧ u.pc = e.cont.pc ∧ u.p = e.cont.p ∧
      (∀ j, fget 0 u.live j = if e.remote.dst ≠ 0 ∧ j = e.remote.dst.toNat then v else fget 0 e.cont.live j) ∧ r.task.id = e.task.id ∧
      (∀ m, (s.ctx e.task.ctx).templates[e.task.tmpl]? = some m → m.place ≠ 2 → r.task.core = some n ∧ r.cluster = clusterOf n)) ∧
    (∀ m : RMsg, m.dstPkg = s.fabric.pkgnum → m.srcPkg ≠ s.fabric.pkgnum → m.eth = false → s.fabric.brings m = true →
      m ∉ s.fabric.outbox →
      (∀ e ∈ s.fabric.queue, e.on = none → s.fabric.way e.msg ≠ .gone) → (∀ x ∈ s.fabric.ethq, s.fabric.way x ≠ .gone) →
      (∀ p, ∀ x ∈ (s.fabric.port p).buf, s.fabric.way x ≠ .gone) →
      let i := m.dstCtx.toNat
      let s0 := s.heard m.fibre.toNat
      let sends (t : State) (body : RBody) : State :=
        (t.send { m with srcPkg := m.dstPkg, srcCtx := m.dstCtx, dstPkg := m.srcPkg, dstCtx := m.srcCtx, fibre := 0, body,
                         eth := (((s.ctx i).entryOf m.srcPkg m.srcCtx).map (fun p => p.eth)).getD m.eth }).pump
      let runs (t : State) : Prop := exec (.remoteMessageReceive m) s = .next t
      (∀ seq idx a, m.body = .settle seq idx a → (s.ctx i).state = 2 → (s.ctx i).bound m = true → ∀ key off leaf,
        s.peerAt i true a 64 = .line key off leaf → s.mem.confirmed = [] → (s.mem.lineTags key).newer.writer = RMsg.writer m →
        (s.mem.lineTags key).newer.cseq = seq → ∃ t s1, runs t ∧ t = sends s1 (.settleAck seq idx) ∧ t.mem = s1.mem ∧
          (t.mem.lineTags key).newer = { (s.mem.lineTags key).newer with st := .settled }) ∧
      ((∀ x ∈ s.fabric.outbox, x.srcPkg ≠ m.srcPkg) →
      (∀ seq idx a bs key off leaf, m.body = .line seq idx a bs → (s.ctx i).state = 2 → (s.ctx i).bound m = true →
        s.peerAt i true a 64 = .line key off leaf → s.mem.isBad key = false → (s.mem.lineTags key).newer.st = .pending →
        ¬ ((s.mem.lineTags key).newer.writer = RMsg.writer m ∧ (s.mem.lineTags key).newer.cseq = seq) →
        ∃ t, runs t ∧ t.mem = s.mem ∧ t.cores = s.cores ∧
          t = (s0.setFabric { s0.fabric with outbox := s0.fabric.outbox ++ [m] }).pump) ∧
      (RBody.isReply m.body = false → (∀ q, m.body ≠ .discard q) → (s.ctx i).state ≠ 2 ∨ (s.ctx i).bound m = false →
        ∃ t, runs t ∧ t.mem = s.mem ∧ t.cores = s.cores ∧
          t = sends s0 (.refuse (if (s.ctx i).state ≠ 2 then 1 else 2) (RBody.isLine m.body) (RBody.addr m.body) m.taskId
            (RBody.request? m.body))) ∧
      (RBody.isReply m.body = true → (s.ctx i).state = 2 → (s.ctx i).bound m = false → ∃ s1, s1.cores = s.cores ∧ s1.mem = s.mem ∧
        runs (sends s1 (.refuse 2 (RBody.isLine m.body) (RBody.addr m.body) m.taskId (RBody.request? m.body)))) ∧
      (RBody.isReply m.body = true → (s.ctx i).state ≠ 2 → ∃ t, runs t ∧ t.cores = s.cores ∧ t.mem = s.mem) ∧
      ((s.ctx i).state = 2 → (s.ctx i).bound m = true →
        (∀ seq idx a bs key off, m.body = .line seq idx a bs → s.peerAt i true a 64 = .line key off none → s.mem.isBad key = false →
          (s.mem.lineTags key).newer.st ≠ .pending → ∃ t s1, runs t ∧ t = sends s1 (.lineAck seq idx a) ∧ t.mem = s1.mem ∧
            t.mem.newerData key = (List.range 64).map (fun j => (fget none (msgBytes bs) j).getD ((s.mem.newerData key).getD j 0)) ∧
            (t.mem.lineTags key).newer.writer = m.srcPkg ++ BitVec.ofNat 11 m.srcCore ∧ (t.mem.lineTags key).newer.st = .pending ∧
            (∀ j, j ≠ key → t.mem.newerData j = s.mem.newerData j)) ∧
        (∀ req a sz set key off, m.body = .loadReq req a sz set → s.peerAt i false a (Size.bytes sz) = .line key off none →
          s.mem.isBad key = false → (s.ctx i).pair.pen = false → (s.mem.lineTags key).newer.st ≠ .pending →
          ∃ t, runs t ∧ t.mem = s.mem ∧ t.cores = s.cores ∧
            t = sends s0 (.loadReply req (BitVec.ofNat 64 (leNat (((s.mem.newerData key).drop off).take (Size.bytes sz))))
              (s.mem.lineTags key).newer.writer (s.mem.lineTags key).newer.cseq ((s.mem.lineTags key).newer.st == .quiet))) ∧
        (∀ tag retry req seq a sz cmp new key off, m.body = .atomReq tag retry req seq a sz cmp new →
          s.peerAt i true a (Size.bytes sz) = .line key off none →
          let w := Size.bytes sz
          let kept := s.mem.cached (homeOf key) (RMsg.cacheSrc m)
          let again : Bool := retry && kept.any (fun e => e.tag == tag && e.ctx == i)
          let lost : Bool := retry && !again && decide (64 ≤ kept.length) && kept.all (fun e => decide ((e.tag - tag).toNat < 2 ^ 15))
          (again = true → ∃ e ∈ kept, e.tag = tag ∧ e.ctx = i ∧ runs (sends s0 (.atomReply req e.old e.wrote))) ∧
          (lost = true → runs (sends s0 (.unknown a m.taskId (some req)))) ∧
          (again = false → lost = false → (s.ctx i).pair.pen = false → s.mem.isBad key = false → s.mem.confirmed = [] →
            (s.mem.lineTags key).newer.st ≠ .pending →
            let old := leNat (((s.mem.newerData key).drop off).take w)
            let wrote : Bool := match cmp with
              | some v => decide (old = v.toNat % 2 ^ (8 * w))
              | none => true
            ∃ t s1, runs t ∧ t = sends s1 (.atomReply req (BitVec.ofNat 64 old) wrote) ∧ t.mem = s1.mem ∧
              t.mem.newerData key = (if wrote then (List.range 64).map (fun j =>
                if off ≤ j ∧ j < off + w then (leBytes w new.toNat).getD (j - off) 0 else (s.mem.newerData key).getD j 0)
                else s.mem.newerData key) ∧
              (∀ j, j ≠ key → t.mem.newerData j = s.mem.newerData j) ∧
              ∃ e ∈ t.mem.cached (homeOf key) (RMsg.cacheSrc m), e.tag = tag ∧ e.ctx = i ∧ e.old = BitVec.ofNat 64 old ∧ e.wrote = wrote)) ∧
        (∀ t x a id set, m.body = .release t x id set → (s.ctx i).templates[t.toNat]? = some a → a.place = 1 → (s.ctx i).placeCores a ≠ [] →
          ∃ u r, runs u ∧ u.releases = s.releases ++ [r] ∧ r.task.tmpl = t.toNat ∧ r.task.id = id ∧
            r.task.set = set ∧ u.mem = s.mem)) ∧
      (∀ req v w q quiet e, m.body = .loadReply req v w q quiet → (s.ctx i).state = 2 → (s.ctx i).bound m = true →
        (s.core m.srcCore).fwd.find? (fun e => e.id == req) = some e →
        let asked : Prop := e.peer.pkg = m.srcPkg ∧ e.peer.ctx = m.srcCtx
        (asked → ∃ t, runs t ∧ t.mem = s.mem ∧ (t.core m.srcCore).frames = (s.core m.srcCore).frames ∧
          (∀ e ∈ (t.core m.srcCore).fwd, e.id = req → e.reply = some (if e.remote.sx then sext (Size.bytes e.remote.size) v.toNat
            else zext (Size.bytes e.remote.size) v.toNat))) ∧
        (¬ asked → ∃ t, runs t ∧ t.cores = s.cores ∧ t.mem = s.mem)) ∧
      (∀ kind line a id req, m.body = .refuse kind line a id req → (s.ctx i).state = 2 → (s.ctx i).bound m = true → ∃ t, runs t ∧
        (t.ctx i).state = 3 ∧ (t.ctx i).cause = (if kind = 6 ∧ line = true then 0x07 else 0x05) ∧ (t.ctx i).ord = id.extractLsb' 32 32))) ∧
    (∀ m ∈ s.fabric.outbox, m.dstPkg = s.fabric.pkgnum →
      let i := m.dstCtx.toNat
      let taken (t : State) : Prop := exec (.remoteMessageReceive m) s = .next t
      let s0 := s.setFabric { s.fabric with outbox := s.fabric.outbox.erase m }
      (s.msgReady m = true → taken (s0.receive m)) ∧ (s.msgReady m = false → taken s) ∧
      (m.srcPkg = s.fabric.pkgnum → (s.ctx i).state = 2 → (s.ctx i).bound m = true →
        (∀ seq idx a bs key off leaf, m.body = .line seq idx a bs → s.peerAt i true a 64 = .line key off leaf → s.mem.isBad key = false →
          (s.mem.lineTags key).newer.st = .pending →
          ¬ ((s.mem.lineTags key).newer.writer = RMsg.writer m ∧ (s.mem.lineTags key).newer.cseq = seq) → taken s) ∧
        (∀ seq idx a key off leaf, m.body = .settle seq idx a → s.peerAt i true a 64 = .line key off leaf →
          s.linksHome m.srcCore key = true → s.behind m.srcCore (some (s.sentMsg m)) = false → ∃ t, taken t ∧
            t.mem = s.mem.mark key (RMsg.writer m) seq .settled) ∧
        (∀ t x a id set, m.body = .release t x id set → s.msgReady m = true → (s.ctx i).templates[t.toNat]? = some a → a.place = 1 →
          (s.ctx i).placeCores a ≠ [] → ∃ xs ys r u, taken u ∧ s.releases = xs ++ ys ∧ u.releases = xs ++ r :: ys ∧ r.task.id = id ∧
            r.src = m.srcCore ∧ (∀ y ∈ xs, y.src = m.srcCore → y.sentAt ≤ m.sentAt) ∧
            (∀ y, ys.head? = some y → y.src = m.srcCore ∧ m.sentAt < y.sentAt)))) ∧
    (let held (p : PeerRef) (ctx : Nat) (id : Word) : Prop :=
       (s.fabric.held p k = true → ∃ t, exec (.holdLimitExpiry n k) s = .next t ∧ (t.ctx ctx).state = 3 ∧ (t.ctx ctx).cause = 0x09 ∧
         (t.ctx ctx).ord = id.extractLsb' 32 32) ∧
       (s.fabric.held p k = false → exec (.holdLimitExpiry n k) s = .next s)
     (∀ q p a seq cas, c.reqs.find? (fun q => q.id == k) = some q → q.kind = .remote p a seq cas → (s.ctx q.ctx).state = 2 → held p q.ctx q.taskId) ∧
     (∀ e, c.reqs.find? (fun q => q.id == k) = none → c.fwd.find? (fun e => e.id == k) = some e → e.sent = true → e.reply = none →
       (s.ctx e.task.ctx).state = 2 → held e.peer e.task.ctx e.task.id))

/-- R361, R362: a paired context seals its epoch when it is quiescent at a digest point; equal digests confirm the epoch, unequal ones
discard it and start its replay, and in a replay they end the context too; so do a digest that does not come and the end of the partner,
whose notice comes after its digests (R323). R332: a digest or a notice of a partner of this package whose binding is not that of the entry
for it is refused. A seal, a digest limit, a digest or a notice whose time has not come does nothing, which is the
model's choice (log 13). Where else this rests on a choice of the model: log 60, log 105. -/
def Obligations.PairedPartitions : Prop :=
  ∀ (s : State) (k : Nat) (e : BitVec 32) (d : BitVec 256),
    let x := s.ctx k
    let p := x.pair
    let ends (i : Instr) (cause : BitVec 8) : Prop := ∃ t, exec i s = .next t ∧ (t.ctx k).state = 3 ∧ (t.ctx k).cause = cause ∧ (t.ctx k).ord = 0
    let turn (b : RBody) (bound : Bool) (m : RMsg) : Prop := s.heldFor k b = some m ∧ s.msgReady m = true ∧ x.bound m = bound
    let came (b : RBody) : Prop := (∃ m, turn b true m) ∨ (s.heldFor k b = none ∧ s.nearPartner k = false)
    let later (b : RBody) : Prop := ¬ came b ∧ ∀ m, ¬ turn b false m
    let refused (i : Instr) (m : RMsg) : Prop := ∃ t, exec i s = .next t ∧ t.mem = s.mem ∧ t.cores = s.cores ∧ t.ctxs = s.ctxs ∧
      (m.srcPkg = s.fabric.pkgnum → ∃ r, t.fabric.outbox = s.fabric.outbox.erase m ++ [r] ∧
        r.dstPkg = m.srcPkg ∧ r.dstCtx = m.srcCtx ∧ r.body = .refuse 2 false (RBody.addr m.body) m.taskId none)
    let discarded (t : State) : Prop := (∀ key, (∀ u ∈ s.mem.unconf, u.1 ≠ key) → t.mem.newerData key = s.mem.newerData key) ∧
      (∀ key, fget 0 t.mem.unconf key ≠ k + 1)
    x.state = 2 → p.pen = true →
    (p.pstate ≠ 1 → p.next ≠ none → s.quiescent k = true → p.partner = none → ∃ t, exec (.seal k) s = .next t ∧
      (t.ctx k).pair.ldigest = p.acc ∧ (t.ctx k).pair.acc = 0 ∧ (t.ctx k).pair.epoch = p.epoch + 1 ∧ (t.ctx k).pair.pstate = 1 ∧ t.mem = s.mem) ∧
    (s.quiescent k = false → exec (.seal k) s = .next s) ∧
    (later (.digest e d) → exec (.digestArrival k e d) s = .next s) ∧
    (∀ m, turn (.digest e d) false m → m.srcPkg = s.fabric.pkgnum → refused (.digestArrival k e d) m) ∧
    (came (.digest e d) → p.pstate = 1 → e + 1 = p.epoch →
      (d = p.ldigest → ∃ t, exec (.digestArrival k e d) s = .next t ∧ (t.ctx k).pair.pstate = 0 ∧ (t.ctx k).pair.replay = false ∧
        (t.ctx k).pair.trans = (if p.replay = true ∧ p.trans ≠ 255 then p.trans + 1 else p.trans) ∧ (t.ctx k).state = 2 ∧
        (∀ key, t.mem.newerData key = s.mem.newerData key ∧ fget 0 t.mem.unconf key ≠ k + 1) ∧
        (t.ctx k).pair.anchor = (p.next.getD []).map (fun g => g.2) ∧
        (∀ g ∈ p.next.getD [], ∀ r ∈ x.startTasks k g.2.1 g.2.2, ∃ q ∈ t.releases, q.task = r.1 ∧ q.cluster = r.2 ∧ q.src = g.1)) ∧
      (d ≠ p.ldigest → p.replay = false → ∃ t, exec (.digestArrival k e d) s = .next t ∧ (t.ctx k).pair.pstate = 2 ∧
        (t.ctx k).pair.replay = true ∧ (t.ctx k).pair.anchor = p.anchor ∧ (t.ctx k).state = 2 ∧
        discarded t) ∧
      (d ≠ p.ldigest → p.replay = true → ends (.digestArrival k e d) 0x08 ∧ ∀ t, exec (.digestArrival k e d) s = .next t → discarded t)) ∧
    (came (.digest e d) → (p.pstate ≠ 1 ∨ e + 1 ≠ p.epoch) → ∃ t, exec (.digestArrival k e d) s = .next t ∧ (t.ctx k).pair.partner = some (e, d) ∧ t.mem = s.mem) ∧
    (p.pstate = 1 → ends (.digestTimeout k) 0x0F) ∧ (p.pstate ≠ 1 → exec (.digestTimeout k) s = .next s) ∧
    (came .endNotice → ends (.endNoticeArrival k) 0x0E) ∧
    (∀ m, turn .endNotice false m → m.srcPkg = s.fabric.pkgnum → refused (.endNoticeArrival k) m) ∧
    (∀ m m' e' d', s.heldFor k .endNotice = some m → m' ∈ (s.fabric.outbox.takeWhile (fun y => y != m)) → m'.body = .digest e' d' →
      RMsg.stream m m' = true → later .endNotice) ∧
    (later .endNotice → exec (.endNoticeArrival k) s = .next s)

/-! ## Work queues, host registers -/

/-- R55–R61: the front end and its entries. Arbitration takes the eligible queue with the smallest pass and reads its head; an entry that
does not hold its own index waits, and is stale after 16 reads; an entry of each kind has its effect or is refused, and is consumed
(`QRDIDX` advances). A refused one starts nothing and posts record 0x02 from its queue with the queue's number, the entry's index and the
first cause that it meets in the order of R58. Where this rests on a choice of the model: log 68, log 69, log 70. -/
def Obligations.FrontEndEntries : Prop :=
  ∀ (s : State) (n : Nat) (bs : List Byte),
    let q := s.queue n
    let size := 2 ^ q.log2.toNat
    let head := 64 * (q.qbase.toNat / 64) + 64 * (q.rd.toNat % size)
    let seq : Word := BitVec.ofNat 64 (leNat ((bs.drop 56).take 8))
    let kind := entryWord bs 0 / 2 ^ 28
    let used (t : State) : Prop := t.entry = none ∧ (seq = q.rd → (t.queue n).rd = q.rd + 1)
    let refused (cause : Nat) (t : State) : Prop := used t ∧ t.releases = s.releases ∧ t.ctxs = s.ctxs ∧ t.mem = s.mem ∧
      fget 0 t.events.sseq (4096 + n) ≠ fget 0 s.events.sseq (4096 + n) ∧
      (n < 4096 → s.events.staging.length < 256 → s.events.held = [] → ∃ r ∈ t.events.staging, r.source = 4096 + n ∧
        leNat (r.bytes.take 2) = (fget 0 s.events.sseq (4096 + n)).toNat ∧ r.bytes[7]? = some 0x02 ∧ leNat ((r.bytes.drop 8).take 2) = n % 2 ^ 16 ∧
        r.bytes[10]? = some (BitVec.ofNat 8 cause) ∧ leNat ((r.bytes.drop 16).take 8) = seq.toNat)
    let b := s.ctx q.bind.toNat
    let word0 := entryWord bs 0
    let none_ (l : List Prop) : Prop := ∀ p ∈ l, ¬ p
    let c1 : Prop := word0 / 4096 % 2 ^ 16 ≠ 0
    let c2 : Prop := 64 ≤ q.bind.toNat
    let c5 : Prop := b.state ≠ 2
    let c7 : Prop := b.pair.pen = true ∧ (b.pair.sealed = true ∨ 8 ≤ b.pair.launches)
    let c3 : Prop := b.templates.length ≤ word0 % 4096
    let c4 : Prop := ∃ m, b.templates[word0 % 4096]? = some m ∧ 6 < m.argCount
    let c6 : Prop := ∃ m, b.templates[word0 % 4096]? = some m ∧ b.placeCores m = []
    (bestQueue s.queues = some n → q.eligible = true ∧
      ∀ m, (s.queue m).eligible = true → q.pass ≤ (s.queue m).pass ∧ (m < n → q.pass < (s.queue m).pass)) ∧
    (s.entry = none → bestQueue s.queues = some n →
      (s.hostRead head 64 = none → ∃ t, exec .queueArbitration s = .next t ∧ t.entry = none ∧ (t.queue n).state = 2 ∧ (t.queue n).err = 0x03) ∧
      (s.hostRead head 64 = some bs →
        (seq = q.rd → ∃ t, exec .queueArbitration s = .next t ∧ t.entry = some (n, bs) ∧ (t.queue n).rd = q.rd ∧
          (t.queue n).pass = (q.pass + 2 ^ 20 / q.tickets.toNat) % 2 ^ 64) ∧
        (seq ≠ q.rd → exec .queueArbitration s = .next (s.setQueue n { q with waiting := true, retries := q.retries + 1 })))) ∧
    (q.state = 1 → q.waiting = true →
      (q.retries < 16 → ∃ t, exec (.seqRetry n) s = .next t ∧ (t.queue n).waiting = false ∧ (t.queue n).retries = q.retries ∧
        (t.queue n).rd = q.rd) ∧
      (16 ≤ q.retries → ∃ t, exec (.staleEntry n) s = .next t ∧ (t.queue n).state = 2 ∧ (t.queue n).err = 0x05)) ∧
    (s.entry = some (n, bs) →
      (kind = 1 →
        let refuses (cause : Nat) : Prop := ∃ t, exec .launchEntry s = .next t ∧ refused cause t
        (c1 → refuses 0x01) ∧ (none_ [c1] → c2 → refuses 0x02) ∧ (none_ [c1, c2] → c5 → refuses 0x05) ∧
        (none_ [c1, c2, c5] → c7 → refuses 0x07) ∧ (none_ [c1, c2, c5, c7] → c3 → refuses 0x03) ∧
        (none_ [c1, c2, c5, c7, c3] → c4 → refuses 0x04) ∧ (none_ [c1, c2, c5, c7, c3, c4] → c6 → refuses 0x06) ∧
        (none_ [c1, c2, c5, c7, c3, c4, c6] → b.pair.pen = false → ∃ t, exec .launchEntry s = .next t ∧ used t ∧
          t.releases = s.releases ++ (b.startTasks q.bind.toNat (b.launchStart bs) []).map
            (fun e => { task := e.1, cluster := e.2, src := 2 ^ 20 + n, aged := false, skips := 0, sentAt := 2 * s.uid }))) ∧
      (let plain (args : Prop) : Prop := entryPlain bs = true ∧ args
       let manages (i : Instr) (args : Prop) : Prop := (¬ plain args → ∃ t, exec i s = .next t ∧ refused 0x01 t) ∧
         (plain args → q.bind.toNat < 64 → ∃ t, exec i s = .next t ∧ refused 0x02 t)
       (kind = 2 → manages .createContextEntry
         ((entryArg bs 0).toNat % 64 = 0 ∧ (entryArg bs 1).toNat % 8 = 0 ∧ (entryArg bs 2).toNat < 64)) ∧
       (kind = 3 → manages .endContextEntry ((entryArg bs 0).toNat < 64 ∧ (entryArg bs 1).toNat % 8 = 0 ∧ entryArg bs 2 = 0))) ∧
      (kind = 2 → entryPlain bs = true → (entryArg bs 0).toNat % 64 = 0 → (entryArg bs 1).toNat % 8 = 0 → (entryArg bs 2).toNat < 64 →
        64 ≤ q.bind.toNat →
        let k := (entryArg bs 2).toNat
        ((s.ctx k).state = 0 → ∃ t, exec .createContextEntry s = .next t ∧ (t.ctx k).state = 1 ∧ (t.queue n).hold = true ∧ used t ∧
          (t.ctx k).creating = some { q := n, header := entryArg bs 0, done := entryArg bs 1 }) ∧
        ((s.ctx k).state ≠ 0 → ∃ t, exec .createContextEntry s = .next t ∧ t.ctxs = s.ctxs ∧ used t ∧
          (q.shadow = 0 → s.host.ok (entryArg bs 1).toNat 8 = true → fgetAll 0 t.host.mem (entryArg bs 1).toNat 8 = leBytes 8 (0x0A + 256 * k)))) ∧
      (kind = 3 → entryPlain bs = true → (entryArg bs 0).toNat < 64 → (entryArg bs 1).toNat % 8 = 0 → entryArg bs 2 = 0 → 64 ≤ q.bind.toNat →
        let k := (entryArg bs 0).toNat
        ((s.ctx k).state = 2 → ∃ t, exec .endContextEntry s = .next t ∧ (t.ctx k).state = 3 ∧ (t.ctx k).cause = 0x02 ∧
          (t.ctx k).endDone = some (entryArg bs 1) ∧ used t) ∧
        ((s.ctx k).state ≠ 2 → ∃ t, exec .endContextEntry s = .next t ∧ t.ctxs = s.ctxs ∧ used t ∧
          (q.shadow = 0 → s.host.ok (entryArg bs 1).toNat 8 = true → fgetAll 0 t.host.mem (entryArg bs 1).toNat 8 = leBytes 8 (0x0B + 256 * k)))) ∧
      (kind = 0 →
        (entryPlain bs = true → ∃ t, exec .noOperationEntry s = .next t ∧ used t ∧ t.ctxs = s.ctxs ∧ t.releases = s.releases) ∧
        (entryPlain bs = false → ∃ t, exec .noOperationEntry s = .next t ∧ refused 0x01 t)) ∧
      (4 ≤ kind → ∃ t, exec .noOperationEntry s = .next t ∧ refused 0x01 t)) ∧
    (∀ c, (s.ctx n).creating = some c →
      (∀ e, s.buildCtx (s.ctx n) c.header = .error e → ∃ t, exec (.contextCreationComplete n) s = .next t ∧ (t.ctx n).state = 0 ∧
        (t.queue c.q).hold = false ∧ (s.host.ok c.done.toNat 8 = true → fgetAll 0 t.host.mem c.done.toNat 8 = leBytes 8 (e + 256 * n))) ∧
      (∀ y, s.buildCtx (s.ctx n) c.header = .ok y → y.cores.length = y.coreids.length → y.cores.Nodup → ∃ t, exec (.contextCreationComplete n) s = .next t ∧
        (t.ctx n).state = 2 ∧ (t.ctx n).templates = y.templates ∧ (t.ctx n).cores = y.cores ∧
        (∀ m ∈ y.cores, (t.core m).ctx = some n ∧ (t.core m).frames = [] ∧ (t.core m).pad = [] ∧ (t.core m).cseq = (s.core m).cseq) ∧
        (s.host.ok c.done.toNat 8 = true → fgetAll 0 t.host.mem c.done.toNat 8 = leBytes 8 (256 * n)))) ∧
    (∀ a, (s.ctx n).endDone = some a → (s.ctx n).tearing = false → ∃ t, exec (.endCompletion n) s = .next t ∧ (t.ctx n).endDone = none ∧
      (s.host.ok a.toNat 8 = true → fgetAll 0 t.host.mem a.toNat 8 = leBytes 8 (256 * n)))

/-- R11, R46, R51, R52, R54, R62, R64, R171, R172: what the host's register writes do. A doorbell beyond the queue's capacity, or behind
its read index, is a queue error; an enable that breaks a rule leaves the queue off; a translation command is taken only while the last
one is complete; a write that is misaligned or beyond the aperture is not performed and posts record 0x04. Where this rests on a choice of
the model: log 72. -/
def Obligations.HostRegisters : Prop :=
  ∀ (s : State) (n k : Nat) (v : Word),
    let q := s.queue n
    let x := s.ctx n
    let ev := s.events
    let size := 2 ^ q.log2.toNat
    let queue (t : State) : WQueue := t.queue n
    (q.state ≠ 1 → exec (.queueDoorbell n v) s = .next (s.setQueue n { q with wr := v })) ∧
    (q.state = 1 → ∃ t, exec (.queueDoorbell n v) s = .next t ∧ (queue t).wr = v ∧ (queue t).rd = q.rd ∧
      (v.toNat < q.rd.toNat → (queue t).state = 2 ∧ (queue t).err = 0x02) ∧
      (q.rd.toNat + size < v.toNat → (queue t).state = 2 ∧ (queue t).err = 0x01) ∧
      (q.rd.toNat ≤ v.toNat → v.toNat ≤ q.rd.toNat + size → (queue t).state = 1 ∧ (queue t).err = q.err)) ∧
    (let ok : Prop := q.state = 0 ∧ q.bind.toNat ≤ 64 ∧ q.tickets ≠ 0 ∧ 6 ≤ q.log2.toNat ∧ q.log2.toNat ≤ 16 ∧ q.rd.toNat ≤ q.wr.toNat ∧
       q.wr.toNat ≤ q.rd.toNat + size
     (ok → ∃ t, exec (.queueEnable n) s = .next t ∧ (queue t).state = 1 ∧ (queue t).err = 0 ∧ (queue t).rd = q.rd ∧ (queue t).wr = q.wr) ∧
     (¬ ok → exec (.queueEnable n) s = .next s)) ∧
    (∃ t, exec (.queueDisable n) s = .next t ∧ (queue t).state = 0 ∧ (queue t).rd = q.rd ∧ (queue t).wr = q.wr) ∧
    (∃ t, exec (.eventConfigWrite v) s = .next t ∧ t.events.evint = v.getLsbD 5 ∧
      (ev.even = false → t.events.log2 = v.extractLsb' 0 4 ∧ t.events.even = (v.getLsbD 4 && decide (4 ≤ (v.extractLsb' 0 4).toNat))) ∧
      (ev.even = true → t.events.log2 = ev.log2 ∧ t.events.even = v.getLsbD 4)) ∧
    (∃ t, exec (.eventReadIndexWrite v) s = .next t ∧
      t.events.rd = (if ev.rd.toNat ≤ v.toNat ∧ v.toNat ≤ ev.wr.toNat then v else ev.rd) ∧ t.events.wr = ev.wr) ∧
    (x.state = 3 → x.tearing = false → ∃ t, exec (.contextFree n) s = .next t ∧ (t.ctx n).state = 0 ∧ (t.ctx n).cause = 0) ∧
    (x.state = 3 → x.tearing = true → ∃ t, exec (.contextFree n) s = .next t ∧ (t.ctx n).state = 3 ∧ (t.ctx n).freeReq = true) ∧
    (x.state ≠ 3 → exec (.contextFree n) s = .next s) ∧
    (∀ r, fget none x.frec k = some r → (∀ w ∈ x.waiters, w.record ≠ none) → ∃ t, exec (.faultRecordRelease n k) s = .next t ∧
      fget none (t.ctx n).frec k = none ∧ (∀ w ∈ (t.ctx n).waiters, w ∈ x.waiters ∧ w.record ≠ some k) ∧
      t.releases.map (fun r => r.task) = s.releases.map (fun r => r.task) ++ (x.waiters.filter (fun w => w.record == some k)).map (fun w => w.task)) ∧
    (let entries (t : State) (m : Nat) := (t.core m).tlb
     (x.xbusy = true → exec (.xcmdInvalidateAll n) s = .next s ∧ exec (.xcmdHarvest n) s = .next s ∧
       exec (.xcmdInvalidatePage n (v.setWidth 48)) s = .next s) ∧
     (x.xbusy = false →
       (∃ t, exec (.xcmdInvalidateAll n) s = .next t ∧ (t.ctx n).xbusy = true ∧ ∀ m, ∀ e ∈ entries t m, e.ctx ≠ n) ∧
       (∃ t, exec (.xcmdHarvest n) s = .next t ∧ (t.ctx n).xbusy = true ∧ (∀ m, ∀ e ∈ entries t m, e.ctx = n → e.dirty = false) ∧
         ∀ m, (entries t m).length = (entries s m).length) ∧
       (∃ t, exec (.xcmdInvalidatePage n (v.setWidth 48)) s = .next t ∧ (t.ctx n).xbusy = true ∧
         ∀ m, ∀ e ∈ entries t m, ¬ (e.ctx = n ∧ e.page = (v.setWidth 48).toNat))) ∧
     (x.xbusy = true → (x.xcmd = 2 ∨ s.pageHeld n (fun p => x.xcmd == 1 || p == x.xpage.toNat) = false) →
       ∃ t, exec (.xcmdComplete n) s = .next t ∧ (t.ctx n).xbusy = false ∧ (x.xcmd = 1 → ∀ m, ∀ e ∈ entries t m, e.ctx ≠ n))) ∧
    (∀ off : Word, s.host.down = false → s.mgmt.inReset = false →
      (off.toNat % 8 ≠ 0 ∨ 0x800000 ≤ off.toNat → ∃ t, exec (.registerWrite off v) s = .next t ∧ t.queues = s.queues ∧ t.ctxs = s.ctxs ∧
        t.cores = s.cores ∧ fget 0 t.events.sseq (5 * 4096) = fget 0 ev.sseq (5 * 4096) + 1) ∧
      (off.toNat < 0x300 → off.toNat % 8 = 0 → exec (.registerWrite off v) s = .next s) ∧
      (off = 0x300 → exec (.registerWrite off v) s = .next { s with dispcfg := v &&& 0xFFFFFFFFFFFF }) ∧
      (n < 1024 → off.toNat = 0x100000 + 64 * n + 0x18 → exec (.registerWrite off v) s = exec (.queueDoorbell n v) s) ∧
      (n < 1024 → off.toNat = 0x100000 + 64 * n + 0x10 →
        exec (.registerWrite off v) s = if v.getLsbD 0 then exec (.queueEnable n) s else exec (.queueDisable n) s)) ∧
    (∃ t, exec (.apertureAccessNotPerformed v false) s = .next t ∧ t.host.read = List.replicate 8 0 ∧
      fget 0 t.events.sseq (5 * 4096) = fget 0 ev.sseq (5 * 4096) + 1)

/-! ## Links, scale-out, debug, package -/

/-- R322–R330: circuits, the connected group, fibres and their keys. A write of `CWAVE` is refused with `CERR` while a change is under
way, above 32 or where a die would have more than 64 circuits; drain, relock and dark move `LWSTATE` from the states in which they are
permitted; a lock brings its fibres up; a staged key is read from host memory; a fibre is held at `CTRLIM` without a staged key, and fails
after 16 failures in a row or with fewer than 8 wavelengths. A message goes between two dies while circuits of theirs stand that are not
being changed. That a step whose condition does not hold does nothing is the model's choice (log 13) for those of a drain, a lock and a
fibre. Where else this rests on a choice of the model: log 62, log 71. -/
def Obligations.FabricLinks : Prop :=
  ∀ (s : State) (i j f : Nat) (v a : Word),
    let x := s.fabric
    let w := x.fibre f
    let fib (t : State) : Fibre := t.fabric.fibre f
    let state (t : State) : BitVec 3 := t.fabric.lwstate
    let idle (i : Instr) : Prop := exec i s = .next s
    let sseq (t : State) (k : Nat) : BitVec 16 := fget 0 t.events.sseq k
    (i < j → j < 8 →
      let m := (v.extractLsb' 0 6).toNat
      let bad : Prop := fget false x.cbusy (8 * i + j) = true ∨ 32 < m ∨ 64 + x.waves i j < x.dieWaves i + m ∨ 64 + x.waves i j < x.dieWaves j + m
      ∃ t, exec (.cwaveWrite i j v) s = .next t ∧
        (bad → fget false t.fabric.cerr (8 * i + j) = true ∧ t.fabric.waves i j = x.waves i j) ∧
        (¬ bad → fget false t.fabric.cerr (8 * i + j) = false ∧ fget false t.fabric.cbusy (8 * i + j) = true ∧ t.fabric.waves i j = m)) ∧
    (i < j → j < 8 → 0 < x.waves i j →
      (fget false x.cbusy (8 * i + j) = false → x.links i j = true ∧ x.links j i = true) ∧
      (fget false x.cbusy (8 * i + j) = true → x.links i j = false ∧ x.links j i = false)) ∧
    (i < j → j < 8 → (∀ a b, a < b → b < 8 → x.waves a b = 0) → x.links i j = false ∧ x.links j i = false) ∧
    (∃ t, exec (.circuitReassignComplete i j) s = .next t ∧ fget false t.fabric.cbusy (8 * i + j) = false ∧ t.fabric.cwave = x.cwave) ∧
    (x.lwstate = 2 → exec .lwDrain s = .next { s with fabric := { x with lwstate := 3 } }) ∧ (x.lwstate ≠ 2 → idle .lwDrain) ∧
    (x.lwstate = 0 ∨ x.lwstate = 4 → ∃ t, exec .lwRelock s = .next t ∧ state t = 1 ∧
      (f < 136 → w.fstate ≠ 4 → w.fstate ≠ 5 → (fib t).fstate = 1 ∧ (fib t).txctr = w.txctr ∧ (fib t).ctrlim = w.ctrlim) ∧
      (w.fstate = 4 → (fib t).fstate = 4)) ∧
    (x.lwstate ≠ 0 → x.lwstate ≠ 4 → idle .lwRelock) ∧
    (x.lwstate = 2 ∨ x.lwstate = 4 → ∃ t, exec .lwGoDark s = .next t ∧ state t = 0 ∧
      (f < 136 → w.fstate ≠ 4 → w.fstate ≠ 5 → (fib t).fstate = 0)) ∧
    (x.lwstate ≠ 2 → x.lwstate ≠ 4 → idle .lwGoDark) ∧
    (x.lwstate = 3 → x.repliesIn = true → exec .drainComplete s = .next { s with fabric := { x with lwstate := 4 } }) ∧
    (x.lwstate ≠ 3 ∨ x.repliesIn = false → idle .drainComplete) ∧
    (x.lwstate = 1 → x.queue = [] → x.ethq = [] → (∀ p, (x.port p).buf = []) → w.fstate = 1 → w.txkey = none → ∃ t, exec (.lockComplete [(f, v.setWidth 5)]) s = .next t ∧ state t = 2 ∧
      (fib t).fstate = 2 ∧ (fib t).fpeer = v.setWidth 5 ∧ sseq t (5 * 4096) = sseq s (5 * 4096) + 1) ∧
    (x.lwstate ≠ 1 → idle (.lockComplete [(f, v.setWidth 5)])) ∧
    (f < 136 →
      let addr := 64 * (a.toNat / 64)
      (s.hostRead addr 32 = none →
        (∃ t, exec (.stageTransmitKey f a) s = .next t ∧ (fib t).kerr = true ∧ (fib t).txkey = w.txkey) ∧
        (∃ t, exec (.stageReceiveKey f a) s = .next t ∧ (fib t).kerr = true ∧ (fib t).rxkey = w.rxkey)) ∧
      (∀ key, s.hostRead addr 32 = some key →
        (x.queue = [] → x.ethq = [] → (∀ p, (x.port p).buf = []) → ∃ t, exec (.stageTransmitKey f a) s = .next t ∧ (fib t).kerr = false ∧
          (w.fstate = 2 ∨ w.fstate = 3 → (fib t).txcur = key ∧ (fib t).txkey = none ∧ (fib t).txctr = 0 ∧ (fib t).fstate = 2) ∧
          (w.fstate ≠ 2 → w.fstate ≠ 3 → (fib t).txcur = w.txcur ∧ (fib t).txkey = some key ∧ (fib t).txctr = w.txctr)) ∧
        (∃ t, exec (.stageReceiveKey f a) s = .next t ∧ (fib t).kerr = false ∧ (fib t).rxkey = some key ∧ (fib t).rxcur = w.rxcur))) ∧
    (∀ key, w.rxkey = some key → ∃ t, exec (.keyChangeFlitArrival f) s = .next t ∧ (fib t).rxcur = key ∧ (fib t).rxkey = none ∧ (fib t).fails = 0) ∧
    (w.fstate = 2 → w.txkey = none → x.waitsFor f = true → ∃ t, exec (.fibreHeld f) s = .next t ∧ (fib t).fstate = 3 ∧
      sseq t (4 * 4096 + f) = sseq s (4 * 4096 + f) + 1) ∧
    (w.fstate ≠ 2 ∨ w.txkey ≠ none ∨ x.waitsFor f = false → idle (.fibreHeld f)) ∧
    (let bad : Prop := 16 ≤ w.fails ∨ ((List.range 18).filter w.wlmask.getLsbD).length < 8
     (f < 136 → 1 ≤ w.fstate.toNat → w.fstate.toNat ≤ 3 → bad → x.queue = [] → x.ethq = [] → (∀ p, (x.port p).buf = []) → ∃ t, exec (.fibreFailed f) s = .next t ∧ (fib t).fstate = 4 ∧
       sseq t (4 * 4096 + f) = sseq s (4 * 4096 + f) + 1) ∧
     (¬ bad → idle (.fibreFailed f))) ∧
    (w.fstate = 2 ∨ w.fstate = 3 → ∃ t, exec (.flitAuthFailure f) s = .next t ∧ (fib t).fails = w.fails + 1 ∧ t.fabric.queue = x.queue)

/-- R341, R342: the scale-out unit. Keys are staged from host memory and restart the packet numbers; a frame in sequence is delivered, any
other is not; a message of it that has to wait at its home stands in the routing die, which keeps no other one waiting; a frame carries its package's addresses and sequence; it is sent again until it is acknowledged, through the ports in turn,
and one that is undeliverable ends the contexts of its messages; a port is held at `EPNLIM`, and posts record 0x11 when its state changes.
That a hold or a retransmission without its condition does nothing is the model's choice (log 13). Where else this rests on a choice of the
model: log 55, log 62. -/
def Obligations.ScaleOutUnit : Prop :=
  ∀ (s : State) (p pkg : Nat) (seq : BitVec 32) (a : Word) (st : BitVec 3),
    let x := s.fabric
    let q := x.port p
    let port (t : State) : Port := t.fabric.port p
    let sseq (t : State) : BitVec 16 := fget 0 t.events.sseq (5 * 4096)
    let addr := 64 * (a.toNat / 64)
    let noneWaits : Prop := x.queue = [] ∧ x.ethq = [] ∧ ∀ k, (x.port k).buf = []
    (p < 4 →
      (s.hostRead addr 32 = none →
        (∃ t, exec (.scaleoutStageTransmitKey p a) s = .next t ∧ (port t).ekerr = true ∧ (port t).txkey = q.txkey) ∧
        (∃ t, exec (.scaleoutStageReceiveKey p a) s = .next t ∧ (port t).ekerr = true ∧ (port t).rxkey = q.rxkey)) ∧
      (∀ key, s.hostRead addr 32 = some key →
        (noneWaits → ∃ t, exec (.scaleoutStageTransmitKey p a) s = .next t ∧ (port t).ekerr = false ∧
          (q.estate = 2 ∨ q.estate = 3 → (port t).txkey = none ∧ (port t).epn = 0 ∧ (port t).estate = 2) ∧
          (q.estate ≠ 2 → q.estate ≠ 3 → (port t).txkey = some key ∧ (port t).epn = q.epn)) ∧
        (∃ t, exec (.scaleoutStageReceiveKey p a) s = .next t ∧ (port t).ekerr = false ∧ (port t).rxkey = some key)) ∧
      (noneWaits → st.toNat ≤ 2 → ¬ (st = 2 ∧ q.estate = 3) → q.txkey = none → ∃ t, exec (.scaleoutPortStateChange p st) s = .next t ∧
        (port t).estate = st ∧ (port t).epn = q.epn ∧ sseq t = sseq s + (if st = q.estate then 0 else 1))) ∧
    (noneWaits → q.estate = 2 → q.epnlim.toNat ≤ q.epn.toNat → q.txkey = none → ∃ t, exec (.scaleoutPortHeld p) s = .next t ∧
      (port t).estate = 3 ∧ sseq t = sseq s + 1) ∧
    (q.estate ≠ 2 ∨ q.epn.toNat < q.epnlim.toNat ∨ q.txkey ≠ none → exec (.scaleoutPortHeld p) s = .next s) ∧
    (∀ m : RMsg, fget 0 x.rxseq pkg = seq → m.eth = true → m.srcPkg.toNat = pkg → m.dstPkg = x.pkgnum → x.outbox.any (RMsg.resent m) = false →
      ∃ t, exec (.scaleoutFrameReceive pkg seq [m]) s = .next t ∧ fget 0 t.fabric.rxseq pkg = seq + 1 ∧
        (s.msgWaits m = false → t.mem = (s.receive m).mem ∧ t.cores = (s.receive m).cores ∧ t.releases = (s.receive m).releases) ∧
        (s.msgWaits m = true → t.mem = s.mem ∧ t.cores = s.cores ∧ t.fabric.outbox = x.outbox ++ [m])) ∧
    (∀ ms, fget 0 x.rxseq pkg ≠ seq → exec (.scaleoutFrameReceive pkg seq ms) s = .next s) ∧
    (∃ t, exec (.scaleoutAcknowledgement pkg seq) s = .next t ∧ t.fabric.frame? pkg seq = none ∧
      (∀ e ∈ x.frames, ¬ (e.pkg = pkg ∧ e.seq = seq) → e ∈ t.fabric.frames) ∧ t.cores = s.cores) ∧
    (∀ m : RMsg, ∃ e, (x.frameOut p m).frames = x.frames ++ [e] ∧ e.pkg = m.dstPkg.toNat ∧ e.seq = fget 0 x.txseq m.dstPkg.toNat ∧
      e.mac = (fget 0 x.evalid m.dstPkg.toNat).extractLsb' 0 48 ∧ e.vlan = fget 0 x.evlan m.dstPkg.toNat ∧ e.pcp.toNat = m.prio.toNat / 2 ∧
      e.etype = x.etype ∧ ((x.frameOut p m).port p).epn = q.epn + 1 ∧ fget 0 (x.frameOut p m).txseq m.dstPkg.toNat = e.seq + 1) ∧
    (∀ e, x.frame? pkg seq = some e →
      let ups := (x.portsTo (BitVec.ofNat 5 pkg)).filter x.portSends
      (ups ≠ [] → ∃ t r, exec (.scaleoutRetransmit pkg seq) s = .next t ∧ r ∈ ups ∧ (t.fabric.port r).epn = (x.port r).epn + 1 ∧
        (∀ k, k ≠ r → t.fabric.port k = x.port k) ∧ t.fabric.frames = x.frames ∧ fget 0 t.fabric.turns pkg = fget 0 x.turns pkg + 1) ∧
      (ups = [] → exec (.scaleoutRetransmit pkg seq) s = .next s) ∧
      (∀ m, e.msgs = [m] → RBody.isReply m.body = false → (s.ctx m.srcCtx.toNat).state = 2 → (s.ctx m.srcCtx.toNat).pair.pen = false →
        ∃ t, exec (.scaleoutUndeliverable pkg seq) s = .next t ∧
        t.fabric.frame? pkg seq = none ∧ (t.ctx m.srcCtx.toNat).state = 3 ∧
        (t.ctx m.srcCtx.toNat).cause = (if RBody.isLine m.body then 0x07 else 0x05)))

/-- R364–R366: the debug commands. At the next boundary a core halts, with record 0x0F, that has been told to, that comes to a `BRK` with
`BRKEN` set, at which a comparator matches whose count is 0, or that has issued the one instruction of a step (R365); a match with a count
counts it down. A resume and a step let a halted core go on; `DRAINING` ends when the engines of the core are empty; `DDATA` is written only
while the core is halted, to the selected register: a `g`, `p`, `a`, `v` or `w` register, a control register, the pc, an `ACC` row; a write
that is refused sets `REFUSED` and writes nothing; that one to a control register number which the spec assigns none is among them is the
model's reading (log 74). That a halt of a halted core, and a resume, a step or a drain of a running one, does nothing is the model's choice
(log 13). -/
def Obligations.DebugSteps : Prop :=
  ∀ (s : State) (n : Nat) (v : Word),
    let c := s.core n
    let d := c.dbg
    let cls := (d.sel.extractLsb' 12 4).toNat
    let num := (d.sel.extractLsb' 0 12).toNat
    let frame := c.frames[(d.sel.extractLsb' 16 4).toNat]?
    let word := (d.sel.extractLsb' 24 6).toNat
    let dbg (t : State) : Debug := (t.core n).dbg
    let refused : Prop := exec (.ddataWrite n v) s = .next (s.setCore n { c with dbg := { d with refused := true } })
    (d.halted = false →
      exec (.debugHaltCommand n) s = .next (s.setCore n { c with dbg := { d with haltReq := true } }) ∧
      exec (.debugResume n) s = .next s ∧ exec (.debugStep n) s = .next s ∧ exec (.debugDrain n) s = .next s ∧ refused) ∧
    (d.halted = true →
      exec (.debugHaltCommand n) s = .next s ∧
      (∃ t, exec (.debugResume n) s = .next t ∧ dbg t = { d with halted := false } ∧ (t.core n).frames = c.frames ∧ t.mem = s.mem) ∧
      (∃ t, exec (.debugStep n) s = .next t ∧ dbg t = { d with halted := false, stepping := true, issued := false } ∧ (t.core n).frames = c.frames) ∧
      exec (.debugDrain n) s = .next (s.setCore n { c with dbg := { d with draining := true } }) ∧
      (∀ f, frame = some f → f.window = .resident → c.frame? f.uid = some f →
        (cls = 0 → num < 32 → Reg.g (BitVec.ofNat 5 num) ∉ f.await → ∃ t g, exec (.ddataWrite n v) s = .next t ∧ (t.core n).frame? f.uid = some g ∧
          g.getG (BitVec.ofNat 5 num) = (if num = 0 then 0 else v) ∧ (∀ k, k ≠ BitVec.ofNat 5 num → g.getG k = f.getG k) ∧ g.pc = f.pc ∧
          (∀ e ∈ g.pend, e.reg ≠ .g (BitVec.ofNat 5 num)) ∧ (dbg t).refused = false) ∧
        (cls = 0 → num < 32 → Reg.g (BitVec.ofNat 5 num) ∈ f.await →
          refused) ∧
        (cls = 1 → num < 8 →
          (Reg.p (BitVec.ofNat 3 num) ∈ f.await → refused) ∧
          (Reg.p (BitVec.ofNat 3 num) ∉ f.await → ∃ t g, exec (.ddataWrite n v) s = .next t ∧ (t.core n).frame? f.uid = some g ∧
            g.getP (BitVec.ofNat 3 num) = (if num = 0 then true else v.getLsbD 0) ∧
            (∀ k, k ≠ BitVec.ofNat 3 num → g.getP k = f.getP k) ∧ g.g = f.g ∧ (dbg t).refused = false)) ∧
        (cls = 2 → num < 8 →
          (Reg.a (BitVec.ofNat 3 num) ∈ f.await → refused) ∧
          (Reg.a (BitVec.ofNat 3 num) ∉ f.await → ∃ t g, exec (.ddataWrite n v) s = .next t ∧ (t.core n).frame? f.uid = some g ∧
            g.getA (BitVec.ofNat 3 num) = v.setWidth 32 ∧ (∀ k, k ≠ BitVec.ofNat 3 num → g.getA k = f.getA k) ∧ g.g = f.g ∧
            (dbg t).refused = false)) ∧
        (cls = 5 → ∀ g, (num = 0x009 ∧ g = { f with schk := v.getLsbD 0 } ∨ num = 0x041 ∧ g = { f with tpc := v } ∨
            (∃ k, k < 8 ∧ num = 0x048 + k ∧ g = { f with tsave := fset 0 f.tsave k v }) →
          ∃ t, exec (.ddataWrite n v) s = .next t ∧ (t.core n).frame? f.uid = some g ∧ (dbg t).refused = false)) ∧
        (cls = 6 → ∃ t g, exec (.ddataWrite n v) s = .next t ∧ (t.core n).frame? f.uid = some g ∧ g.pc = v ∧ g.g = f.g ∧ (dbg t).refused = false)) ∧
      (cls = 4 → num < 16 → word < 32 → (∀ f ∈ c.frames, Reg.w (BitVec.ofNat 4 num) ∉ f.await) → c.wLocked (BitVec.ofNat 4 num) = false →
        ∃ t, exec (.ddataWrite n v) s = .next t ∧ ((t.core n).getW (BitVec.ofNat 4 num)).extractLsb' (64 * word) 64 = v ∧
          (∀ k, k < 32 → k ≠ word → ((t.core n).getW (BitVec.ofNat 4 num)).extractLsb' (64 * k) 64 =
            (c.getW (BitVec.ofNat 4 num)).extractLsb' (64 * k) 64) ∧ (dbg t).refused = false) ∧
      (cls = 3 → num < 64 →
        let l := num / 16
        let r : VReg := BitVec.ofNat 4 num
        ((c.lane l).mq ≠ [] → refused) ∧
        ((c.lane l).mq = [] → word < 4 → (∀ f ∈ c.frames, f.lane = l → Reg.v r ∉ f.await) → ∃ t, exec (.ddataWrite n v) s = .next t ∧
          ((t.core n).getV l r).extractLsb' (64 * word) 64 = v ∧
          (∀ k, k < 4 → k ≠ word → ((t.core n).getV l r).extractLsb' (64 * k) 64 = (c.getV l r).extractLsb' (64 * k) 64) ∧
          (dbg t).refused = false)) ∧
      (cls = 7 → num < 128 →
        let row (c : Core) : BitVec 4096 := fget 0 (c.lane (num / 32)).acc (num % 32)
        ((c.lane (num / 32)).mq ≠ [] → refused) ∧
        ((c.lane (num / 32)).mq = [] → ∃ t, exec (.ddataWrite n v) s = .next t ∧ (row (t.core n)).extractLsb' (64 * word) 64 = v ∧
          (∀ k, k < 64 → k ≠ word → (row (t.core n)).extractLsb' (64 * k) 64 = (row c).extractLsb' (64 * k) 64) ∧
          (dbg t).refused = false)) ∧
      (cls = 5 →
        (num ≠ 0x009 → num ≠ 0x041 → (num < 0x048 ∨ 0x050 ≤ num) → num ≠ 0x080 → (num < 0x088 ∨ 0x08D ≤ num) → refused) ∧
        (num = 0x080 → ∃ t, exec (.ddataWrite n v) s = .next t ∧ (t.core n).eswin = v.setWidth 32 ∧ (t.core n).espos = 0 ∧
          (t.core n).frames = c.frames ∧ (dbg t).refused = false) ∧
        (∀ k, k < 5 → num = 0x088 + k → ∃ t, exec (.ddataWrite n v) s = .next t ∧ (t.core n).frames = c.frames ∧
          fget 0 (t.core n).esthr k = (fget 0 c.esthr k &&& 0x400000000) ||| (v.setWidth 35 &&& 0x3FFFFFFFF) ∧ (dbg t).refused = false))) ∧
    (c.passed = false → (∀ q ∈ c.reqs, q.inside = false) → c.crossed = [] → d.halted = false → (∀ k, c.ctx = some k → (s.ctx k).tearing = false) →
      s.offered n = none →
      let boundary (t : State) : Prop := exec (.instructionBoundary n) s = .next t
      let halts (reason : BitVec 3) (t : State) : Prop := boundary t ∧ (dbg t).halted = true ∧ (dbg t).reason = reason ∧ (dbg t).haltReq = false ∧
        (dbg t).stepping = false ∧ (t.core n).passed = false ∧ t.mem = s.mem ∧
        fget 0 t.events.sseq n = fget 0 s.events.sseq n + 1
      (c.frames = [] → d.haltReq = true → ∃ t, halts 0 t ∧ (t.core n).frames = []) ∧
      (∀ f fs, c.frames = f :: fs → f.deferred = false → c.trapDue = [] →
        let stays (t : State) : Prop := (t.core n).frames = { f with arrived := false, brkHalted := s.brkNext n f } :: fs
        let brk : Prop := d.brken = true ∧ s.brkNext n f = true ∧ f.brkHalted = false
        let hit (k : Nat) : Prop := f.arrived = true ∧ (fget 0 d.dba k).getLsbD 0 = true ∧
          ((fget 0 d.dba k).extractLsb' 2 46).toNat = f.pc.toNat / 4 ∧ ((fget 0 d.dbc k).extractLsb' 32 6).toNat = f.task.ctx
        let zero (k : Nat) : Prop := (fget 0 d.dbc k).extractLsb' 0 16 = 0
        (d.haltReq = true → ∃ t, halts 0 t ∧ stays t) ∧
        (d.haltReq = false → brk → ∃ t, halts 1 t ∧ stays t) ∧
        (∀ k, k < 4 → d.haltReq = false → ¬ brk → hit k → zero k → ∃ t, halts 2 t ∧ stays t) ∧
        (d.haltReq = false → ¬ brk → (∀ k, k < 4 → hit k → ¬ zero k) →
          (d.stepping = true → d.issued = true → ∃ t, halts 3 t ∧ stays t) ∧
          (d.stepping = false ∨ d.issued = false → ∃ t, boundary t ∧ (dbg t).halted = false ∧
            ∀ k, k < 4 → (hit k → fget 0 (dbg t).dbc k = fget 0 d.dbc k - 1) ∧ (¬ hit k → fget 0 (dbg t).dbc k = fget 0 d.dbc k))))) ∧
    (d.draining = true → (∀ l ∈ c.lanes, l.2.mq = [] ∧ l.2.cq = []) → c.copyq = [] → c.sampq = [] → c.long = [] →
      exec (.debugDrainComplete n) s = .next (s.setCore n { c with dbg := { d with draining := false } }))

/-- R49, R64, R66, R360: what the host reads and writes over the link. A write of main memory makes a settled version of tag 0 and
waits while the newer version is pending; a read takes the newer settled version, or the confirmed one of a line that a paired context has
written in its epoch: the older version, or the one that the home keeps beside the two; beyond 1 TiB nothing is performed;
records go from their sources to the staging and from there to the ring, which a failed write turns off. Where this rests on a choice of
the model: log 76. -/
def Obligations.HostLink : Prop :=
  ∀ (s : State) (pa : Word) (bytes : List Byte) (n : Nat) (groups : BitVec 4),
    let key := pa.toNat / 64
    let off := pa.toNat % 64
    let ev := s.events
    (s.host.down = false → 1 ≤ bytes.length → off + bytes.length ≤ 64 → pa.toNat < 2 ^ 40 → (s.mem.lineTags key).newer.st ≠ .pending →
      ∃ t, exec (.hostMemoryWrite pa bytes) s = .next t ∧
        t.mem.newerData key = (List.range 64).map (fun j => if off ≤ j ∧ j < off + bytes.length then bytes.getD (j - off) 0
          else (s.mem.newerData key).getD j 0) ∧
        (t.mem.lineTags key).newer = { writer := 0, cseq := 0, scale := 0, desc := false, fmt := 0, st := .settled } ∧
        (t.mem.lineTags key).older = (s.mem.lineTags key).older ∧
        ∀ k, k ≠ key → t.mem.newerData k = s.mem.newerData k ∧ t.mem.lineTags k = s.mem.lineTags k) ∧
    ((s.mem.lineTags key).newer.st = .pending → pa.toNat < 2 ^ 40 → exec (.hostMemoryWrite pa bytes) s = .next s) ∧
    (s.host.down = false → 1 ≤ n → off + n ≤ 64 →
      (pa.toNat < 2 ^ 40 → fget 0 s.mem.unconf key = 0 → ∃ t, exec (.hostMemoryRead pa n) s = .next t ∧ t.mem = s.mem ∧
        t.host.read = (((if (s.mem.lineTags key).newer.st = .pending then s.mem.olderData key else s.mem.newerData key).drop off).take n)) ∧
      (pa.toNat < 2 ^ 40 → fget 0 s.mem.unconf key ≠ 0 → ∃ t, exec (.hostMemoryRead pa n) s = .next t ∧ t.mem = s.mem ∧
        ((∀ e ∈ s.mem.confirmed, e.key ≠ key) → t.host.read = ((s.mem.olderData key).drop off).take n) ∧
        (∀ e, s.mem.confirmed.find? (fun e => e.key == key) = some e → t.host.read = (e.data.drop off).take n)) ∧
      (2 ^ 40 ≤ pa.toNat → ∃ t, exec (.hostMemoryRead pa n) s = .next t ∧ t.mem = s.mem ∧ t.host.read = List.replicate n 0 ∧
        fget 0 t.events.sseq (5 * 4096) = fget 0 ev.sseq (5 * 4096) + 1)) ∧
    (s.mgmt.powered = true → ∃ t, exec (.linkTraining groups) s = .next t ∧ t.host.mem = s.host.mem ∧ (t.host.down = true ↔ groups = 0) ∧
      t.host.lanes = 8 * ((List.range 4).filter groups.getLsbD).length) ∧
    (ev.staging.length < 256 →
      (∀ r rs, ev.held = r :: rs → (∀ d, d < 8 → (s.die d).buf = []) → ∃ t, exec .eventRecordStage s = .next t ∧
        t.events.staging = ev.staging ++ [r] ∧ t.events.held = rs) ∧
      (∀ d r rs, d < 8 → (s.die d).buf = r :: rs → ev.held = [] → (∀ k, k < 8 → k ≠ d → (s.die k).buf = []) → ∃ t,
        exec .eventRecordStage s = .next t ∧ t.events.staging = ev.staging ++ [r] ∧ (t.die d).buf = rs)) ∧
    (∀ r rs, ev.staging = r :: rs → ev.even = true → ev.wr.toNat < ev.rd.toNat + 2 ^ ev.log2.toNat → ev.shadow = 0 → ev.evint = false →
      let at_ := 32 * (ev.base.toNat / 32) + 32 * (ev.wr.toNat % 2 ^ ev.log2.toNat)
      (s.host.ok at_ r.bytes.length = true → ∃ t, exec .eventRingWrite s = .next t ∧ t.events.staging = rs ∧ t.events.wr = ev.wr + 1 ∧
        fgetAll 0 t.host.mem at_ r.bytes.length = r.bytes) ∧
      (s.host.ok at_ r.bytes.length = false → ∃ t, exec .eventRingWrite s = .next t ∧ t.events.even = false ∧ t.events.staging = r :: rs ∧
        t.events.wr = ev.wr ∧ t.host.mem = s.host.mem)) ∧
    (ev.rd.toNat + 2 ^ ev.log2.toNat ≤ ev.wr.toNat → exec .eventRingWrite s = .next s)

/-- R69, R363, R384, R386, R388–R390: the package. A report or an endorsement is produced and written to the buffer; a cluster is retired
only while no context holds a core of its die; a spare that is brought in posts record 0x0E, while one is left; a reset clears the package
and takes up an installed image, and the device stays in reset where the boot ROM rejects it: the fused key hash, the signature over the
image's SHA-256 and the fused rollback counter decide (R388). The image's own layout, the seeds of the keys and the random values of
signatures are free values (log 15). The
hottest junction that crosses 95 °C posts record 0x10; a shutdown is logged with its cause, stops everything and takes the rails down in
reverse order. That a reading within its limits does nothing is the model's choice (log 13). Where else this rests on a choice of the model:
log 73, log 75, log 89, log 94. -/
def Obligations.PackageSteps : Prop :=
  ∀ (s : State) (d pc k unit idx sensor : Nat) (v : BitVec 32) (image : List Byte),
    let a := s.attest
    let m := s.mgmt
    let die := s.die d
    let sseq (t : State) : BitVec 16 := fget 0 t.events.sseq (5 * 4096)
    let off (i : Instr) (cause sn : Nat) (rd : BitVec 32) : Prop := ∃ t, exec i s = .next t ∧ t.mgmt.rails = [] ∧ t.mgmt.inReset = true ∧
      (m.rails = [.vroute, .vsram, .vmem, .vcore, .vopt] →
        t.mgmt.switched = [(.vopt, false), (.vcore, false), (.vmem, false), (.vsram, false), (.vroute, false)]) ∧
      t.ctxs = [] ∧ t.cores = [] ∧ t.mem = Memory.reset ∧ t.host.down = true ∧ t.host.mem = s.host.mem ∧
      ∃ e, t.mgmt.log.getLast? = some e ∧ e.cause = cause ∧ e.sensor = sn ∧ e.reading = rd
    (a.stat ≠ 1 → m.inReset = false →
      (∃ t, exec .produceReport s = .next t ∧ t.attest.stat = 1 ∧ t.attest.out.length = 30000 ∧ t.attest.nonce = a.nonce ∧
        t.attest.out.take 8 = [0x41, 0x54, 0x45, 0x54, 1, 0, 0, 0] ∧ (t.attest.out.drop 48).take 32 = leBytes 32 a.nonce.toNat ∧
        (t.attest.out.drop 16).take 32 = sha256Bytes (m.running.getD Config.shippedImage) ∧
        (t.attest.out.drop 80).take 32 = sha256Bytes s.harvestBytes ∧ (t.attest.out.drop 112).take 64 = identityKey ∧
        t.attest.out.drop 208 = slhSign Config.identitySeed (t.attest.out.take 208) (Config.slhRandom s.draws)) ∧
      (∃ t, exec .writeEndorsement s = .next t ∧ t.attest.stat = 1 ∧ t.attest.out.length = 29904 ∧
        t.attest.out.take 8 = [0x45, 0x45, 0x4E, 0x44, 1, 0, 0, 0] ∧ (t.attest.out.drop 8).take 8 = leBytes 8 Config.serial.toNat ∧
        (t.attest.out.drop 16).take 64 = identityKey ∧
        t.attest.out.drop 112 = slhSign Config.rootSeed (t.attest.out.take 112) Config.endorseRandom)) ∧
    (a.stat = 1 ∨ m.inReset = true → exec .produceReport s = .next s ∧ exec .writeEndorsement s = .next s) ∧
    (m.inReset = true → exec .attestationComplete s = .next s) ∧
    (a.stat = 1 → m.inReset = false → a.out.length ≤ 30000 →
      let addr := 64 * (a.buf.toNat / 64)
      (s.host.ok addr a.out.length = true → ∃ t, exec .attestationComplete s = .next t ∧ t.attest.stat = 2 ∧
        fgetAll 0 t.host.mem addr a.out.length = a.out) ∧
      (s.host.down = true → a.out ≠ [] → ∃ t, exec .attestationComplete s = .next t ∧ t.attest.stat = 3 ∧ t.host.mem = s.host.mem)) ∧
    (d < 8 → pc < 34 → die.cluse.getLsbD pc = true →
      (s.dieBusy d = true → exec (.harvestBlockChange d pc none) s = .next s ∧ exec (.spareBringIn 1 d pc) s = .next s) ∧
      (s.dieBusy d = false →
        let retired (t : State) : Prop := (t.die d).clret.getLsbD pc = true ∧ (t.die d).cluse.getLsbD pc = false ∧
          (t.die d).corelost = die.corelost ∧ sseq t = sseq s + (if die.spare.isSome then 2 else 1)
        (∃ t, exec (.harvestBlockChange d pc none) s = .next t ∧ retired t) ∧
        (die.spare.isSome = true → ∃ t, exec (.spareBringIn 1 d pc) s = .next t ∧ retired t) ∧
        (die.spare = none → exec (.spareBringIn 1 d pc) s = .next s) ∧
        (k < 4 → ∃ t, exec (.harvestBlockChange d pc (some k)) s = .next t ∧ (t.die d).corelost = die.corelost ||| (1 <<< (4 * pc + k)) ∧
          (t.die d).cluse = die.cluse ∧ sseq t = sseq s + 1))) ∧
    (idx / 18 < 136 → s.fabric.lwstate = 1 → (s.fabric.fibre (idx / 18)).wlmask.getLsbD (idx % 18) = true →
      let q := s.fabric.fibre (idx / 18)
      ∃ t, exec (.spareBringIn 4 unit idx) s = .next t ∧ (t.fabric.fibre (idx / 18)).wlmask.getLsbD (idx % 18) = false ∧
        (t.fabric.fibre (idx / 18)).wlbad.getLsbD (idx % 18) = true ∧
        (∀ w, q.spareWave (idx % 18) = some w → (t.fabric.fibre (idx / 18)).wlmask.getLsbD w = true) ∧
        sseq t = sseq s + (if (q.spareWave (idx % 18)).isSome then 1 else 0)) ∧
    (∀ kind pool size, (kind = 2 ∧ unit < 8 ∧ idx / 65536 < 34 ∧ s.clusterHeld (34 * unit + idx / 65536) = false ∧
          pool = 34 * unit + idx / 65536 ∧ size = 64 ∨
        kind = 3 ∧ unit < 16 ∧ pool = 2048 + unit ∧ size = 256 ∨
        kind = 6 ∧ unit < 8 ∧ idx / 65536 < 8 ∧ unit ≠ idx / 65536 ∧ pool = 3072 + unit ∧ size = 4) →
      (fget 0 m.spares pool < size → ∃ t, exec (.spareBringIn kind unit idx) s = .next t ∧ fget 0 t.mgmt.spares pool = fget 0 m.spares pool + 1 ∧
        sseq t = sseq s + 1 ∧ t.mem = s.mem ∧
        (kind = 6 → fget false t.fabric.cbusy (8 * min unit (idx / 65536) + max unit (idx / 65536)) = true)) ∧
      (size ≤ fget 0 m.spares pool → exec (.spareBringIn kind unit idx) s = .next s)) ∧
    (m.powered = true →
      let run := m.installed.orElse (fun _ => m.running)
      let img := run.getD Config.shippedImage
      let key := sized 64 (Config.imageKey img)
      ∃ t, exec .resetBoot s = .next t ∧ t.mgmt.installed = none ∧
        (t.mgmt.inReset = false ↔ sha256Bytes key = Config.firmwareKeyHash ∧
          slhVerify key (sha256Bytes img) (sized 29792 (Config.imageSig img)) = true ∧
          Config.rollback.toNat ≤ (Config.imageSvn img).toNat) ∧
        t.mgmt.running = run ∧ t.ctxs = [] ∧ t.cores = [] ∧ t.mem = Memory.reset ∧ t.queues = [] ∧
        (t.die d).cluse = die.cluse ∧ (t.die d).lcmap = die.lcmap ∧ t.host = s.host) ∧
    (let temps := fset 0 m.temps sensor v
     let hot : Prop := ∃ j, j < 33 ∧ 16 * 95 < (fget 0 temps j).toInt
     (33 ≤ sensor → exec (.junctionTemperature sensor v) s = .next s) ∧
     (sensor < 33 → ∃ t, exec (.junctionTemperature sensor v) s = .next t ∧ t.mgmt.temps = temps ∧ (t.mgmt.hot = true ↔ hot) ∧
       (hot → m.hot = false → m.powered = true → sseq t = sseq s + 1) ∧
       (¬ hot ∨ m.hot = true ∨ m.powered = false → sseq t = sseq s))) ∧
    (m.rails ≠ [] →
      (Config.form = 1 → v.toNat < 2000 → off (.thermalShutdown true sensor v) 0x02 sensor v) ∧
      (Config.form ≠ 1 ∨ 2000 ≤ v.toNat → exec (.thermalShutdown true sensor v) s = .next s) ∧
      (sensor < 33 → 16 * 110 < v.toInt → off (.thermalShutdown false sensor v) 0x01 sensor v) ∧
      (v.toInt ≤ 16 * 110 → exec (.thermalShutdown false sensor v) s = .next s) ∧
      (∀ e ∈ [(0, 750, 3), (1, 800, 3), (2, 1050, 3), (3, 850, 3), (4, 3300, 5)], sensor = e.1 →
        let out : Prop := 100 * v.toNat < (100 - e.2.2) * e.2.1 ∨ (100 + e.2.2) * e.2.1 < 100 * v.toNat
        (out → off (.supplyOutOfTolerance false sensor v) 0x03 sensor v) ∧
        (¬ out → exec (.supplyOutOfTolerance false sensor v) s = .next s)) ∧
      (v.toNat < 48000 ∨ 54000 < v.toNat → off (.supplyOutOfTolerance true sensor v) 0x04 sensor v) ∧
      (48000 ≤ v.toNat → v.toNat ≤ 54000 → exec (.supplyOutOfTolerance true sensor v) s = .next s) ∧
      off (.managementPowerRequest false) 0x05 0 0) ∧
    (∃ t, exec (.managementPowerRequest true) s = .next t ∧ t.mgmt.powered = true ∧ t.cores = s.cores ∧
      (m.rails = [] → t.mgmt.switched = [(.vroute, true), (.vsram, true), (.vmem, true), (.vcore, true), (.vopt, true)])) ∧
    (∃ t, exec (.managementFirmwareInstall image) s = .next t ∧ t.mgmt.installed = some image ∧ t.mgmt.running = m.running) ∧
    (∃ t, exec .managementRead s = .next t ∧ t.mgmt.report = m.log ∧ t.mgmt.shown = m.temps ∧ t.mgmt.seen = sensed s.draws ∧
      t.cores = s.cores)
end

