-- ==== Sys2Proof/Laws/Encoding.lean ====
section
/-!
SUPPORT. Lemmas about the fields of an encoding: what a field of an assembled word reads as, and that the codes of R115, R145 and
R155 are read back as what they encode.
-/

set_option linter.unusedSimpArgs false

namespace Sys2Proof.Laws

/-! ## Fields of a concatenation -/

theorem take_lo {n m : Nat} (x : BitVec n) (y : BitVec m) (s k : Nat) (h : s + k ≤ m) :
    (x ++ y).extractLsb' s k = y.extractLsb' s k := by
  ext i hi
  have : s + i < m := by omega
  simp [BitVec.getLsbD_append, this]

theorem take_hi {n m : Nat} (x : BitVec n) (y : BitVec m) (s k : Nat) (h : m ≤ s) :
    (x ++ y).extractLsb' s k = x.extractLsb' (s - m) k := by
  ext i hi
  have h1 : ¬ (s + i < m) := by omega
  have h2 : s + i - m = s - m + i := by omega
  simp [BitVec.getLsbD_append, h1, h2]

theorem take_all {n : Nat} (x : BitVec n) : x.extractLsb' 0 n = x := by
  ext i hi; simp

theorem take_take {n : Nat} (x : BitVec n) (s k t l : Nat) (h : t + l ≤ k) :
    (x.extractLsb' s k).extractLsb' t l = x.extractLsb' (s + t) l := by
  ext i hi
  have : t + i < k := by omega
  simp [this, Nat.add_assoc]

/-! ## Codes -/

theorem size_code (z : Size) : Size.ofCode z.code = z := by cases z <;> rfl
theorem fmt_code (f : Fmt) : Fmt.ofCode f.code = f := by cases f <;> rfl
theorem rnd_code (r : Rnd) : Rnd.ofCode r.code = r := by cases r <;> rfl
theorem scope_code (s : Scope) : Scope.ofCode s.code = s := by cases s <;> rfl
theorem cond_code (c : Cond) : Cond.ofCode c.code = c := by cases c <;> rfl
theorem comb_code (c : Comb) : Comb.ofCode c.code = c := by cases c <;> rfl
theorem fcond_code (c : FCond) : FCond.ofCode c.code = c := by cases c <;> rfl
theorem salu_code (o : SaluOp) : SaluOp.ofCode o.code = o := by cases o <;> rfl
theorem sflt_code (o : SfltOp) : SfltOp.ofCode o.code = o := by cases o <;> rfl
theorem fold_code (o : FoldOp) : FoldOp.ofCode o.code = o := by cases o <;> rfl
theorem red_code (o : RedOp) : RedOp.ofCode o.code = o := by cases o <;> rfl
theorem cpy_code (o : CpyOp) : CpyOp.ofCode o.code = o := by cases o <;> rfl
theorem chainOp_code (o : ChainOp) : ChainOp.ofCode o.code = o := by cases o <;> rfl
theorem chainSrc_code (o : ChainSrc) : ChainSrc.ofCode o.code = o := by cases o <;> rfl
theorem wide_code (w : Bool) : (Size.code (if w then .d else .w) == 3#2) = w := by cases w <;> rfl
theorem flag_code (b : Bool) : (flagBit b == 1#1) = b := by cases b <;> rfl
theorem rs_none {r : Rnd} (h : rsOk r none = true) : ¬r = Rnd.rs := by cases r <;> simp_all [rsOk]
theorem rs_some {r : Rnd} {o : RsOp} (h : rsOk r (some o) = true) : r = Rnd.rs := by cases r <;> simp_all [rsOk]
theorem flagBit_true : flagBit true = 1#1 := rfl
theorem flagBit_false : flagBit false = 0#1 := rfl
theorem is96_code (x : Bool) : (lenX x == 2#2) = x := by cases x <;> rfl

/-- A pointer operand is read back from its field and its step slot. -/
theorem ptr_code (p : Ptr) (k : BitVec 10) (h : p.noStep = true ∨ k = p.slot) : Ptr.ofCode p.code k = p := by
  cases p with
  | plain n => simp only [Ptr.ofCode, Ptr.code]; simp -index (disch := omega) only [take_hi, take_lo, take_all]; simp
  | inc n => simp only [Ptr.ofCode, Ptr.code]; simp -index (disch := omega) only [take_hi, take_lo, take_all]; simp
  | step n j =>
    have hk : k = j := by simpa [Ptr.noStep, Ptr.slot] using h
    subst hk
    simp only [Ptr.ofCode, Ptr.code]; simp -index (disch := omega) only [take_hi, take_lo, take_all]; simp

/-- Without a step slot. -/
theorem ptr_zero (p : Ptr) (h : p.noStep = true) : Ptr.ofCode p.code 0#10 = p := ptr_code p _ (.inl h)

theorem ptr_slot (x : Bool) (p : Ptr) (k : BitVec 10) (h : p.ok x = true) (hk : x = true → k = p.slot) :
    Ptr.ofCode p.code k = p := by
  cases x with
  | true => exact ptr_code p _ (.inr (hk rfl))
  | false => exact ptr_code p _ (.inl (by simpa [Ptr.ok] using h))

/-- The step slots of D, A and B. -/
theorem ptr_slotD (x : Bool) (p : Ptr) (k l : BitVec 10) (h : p.ok x = true) :
    Ptr.ofCode p.code ((jSlots x p.slot k l).extractLsb' 0 10) = p :=
  ptr_slot x p _ h (fun hx => by subst hx; simp only [jSlots, jExt, if_true]; simp -index (disch := omega) only [take_lo, take_hi, take_all]; try rfl)
theorem ptr_slotA (x : Bool) (p : Ptr) (k l : BitVec 10) (h : p.ok x = true) :
    Ptr.ofCode p.code ((jSlots x k p.slot l).extractLsb' 10 10) = p :=
  ptr_slot x p _ h (fun hx => by subst hx; simp only [jSlots, jExt, if_true]; simp -index (disch := omega) only [take_lo, take_hi, take_all]; try rfl)
theorem ptr_slotB (x : Bool) (p : Ptr) (k l : BitVec 10) (h : p.ok x = true) :
    Ptr.ofCode p.code ((jSlots x k l p.slot).extractLsb' 20 10) = p :=
  ptr_slot x p _ h (fun hx => by subst hx; simp only [jSlots, jExt, if_true]; simp -index (disch := omega) only [take_lo, take_hi, take_all]; try rfl)

theorem vcond_code (c : VCond) (f : Fmt) (h : (match c with | .int _ => f.isInt | .flt _ => f.isF5) = true) :
    VCond.ofCode f c.code = c := by
  cases c with
  | int c => cases f <;> simp_all [Fmt.isInt, VCond.ofCode, VCond.code, Fmt.isF5, cond_code]
  | flt c =>
    have hf : f.isF5 = true := h
    simp only [VCond.ofCode, VCond.code, hf]; simp -index (disch := omega) only [take_lo, take_all, fcond_code]; simp

theorem pw_code (pw : WordOp) :
    ({ write := (pwBits pw).extractLsb' 5 1 == 1#1, ptr := (pwBits pw).extractLsb' 0 3 } : WordOp) = pw := by
  obtain ⟨w, n⟩ := pw
  simp only [pwBits]
  simp -index (disch := omega) only [take_hi, take_lo, take_all]
  cases w <;> rfl

/-! ## The operations of a chain -/

theorem chainBytes_lt (n : Nat) (os : List (ChainOp × ChainSrc)) : chainBytes n os < 256 ^ n := by
  induction n generalizing os with
  | zero => cases os <;> simp [chainBytes]
  | succ n ih =>
    cases os with
    | nil => simp [chainBytes, Nat.pow_pos]
    | cons o os =>
      have h1 := ih os
      have h2 : (o.1.code ++ o.2.code ++ 0#2 : BitVec 8).toNat < 256 := BitVec.isLt _
      simp only [chainBytes, Nat.pow_succ]
      omega

theorem chain_step (o : ChainOp × ChainSrc) (k : Nat) :
    let w := (o.1.code ++ o.2.code ++ 0#2 : BitVec 8).toNat + 256 * k
    (w / 16) % 16 ≠ 0 ∧ ChainOp.ofCode (BitVec.ofNat 4 (w / 16)) = o.1 ∧ ChainSrc.ofCode (BitVec.ofNat 2 (w / 4)) = o.2 ∧
      w / 256 = k := by
  have e4 : ∀ v : Nat, BitVec.ofNat 4 v = BitVec.ofNat 4 (v % 16) := fun v => by
    apply BitVec.eq_of_toNat_eq; simp
  have e2 : ∀ v : Nat, BitVec.ofNat 2 v = BitVec.ofNat 2 (v % 4) := fun v => by
    apply BitVec.eq_of_toNat_eq; simp
  have hc : (o.1.code ++ o.2.code ++ 0#2 : BitVec 8).toNat < 256 := BitVec.isLt _
  have key : (o.1.code ++ o.2.code ++ 0#2 : BitVec 8).toNat / 16 ≠ 0 ∧
      ChainOp.ofCode (BitVec.ofNat 4 ((o.1.code ++ o.2.code ++ 0#2 : BitVec 8).toNat / 16)) = o.1 ∧
      ChainSrc.ofCode (BitVec.ofNat 2 ((o.1.code ++ o.2.code ++ 0#2 : BitVec 8).toNat / 4 % 4)) = o.2 := by
    obtain ⟨a, b⟩ := o
    cases a <;> cases b <;> decide
  generalize (o.1.code ++ o.2.code ++ 0#2 : BitVec 8).toNat = c at hc key
  have h1 : (c + 256 * k) / 16 % 16 = c / 16 := by omega
  have h2 : (c + 256 * k) / 4 % 4 = c / 4 % 4 := by omega
  have h3 : (c + 256 * k) / 256 = k := by omega
  dsimp only
  rw [e4, e2, h1, h2, h3]
  exact ⟨key.1, key.2.1, key.2.2, rfl⟩

theorem chain_code (n : Nat) (os : List (ChainOp × ChainSrc)) (h : os.length ≤ n) :
    chainOfBytes n (chainBytes n os) = os := by
  induction n generalizing os with
  | zero => cases os with
    | nil => rfl
    | cons o os => simp at h
  | succ n ih =>
    cases os with
    | nil => simp [chainBytes, chainOfBytes]
    | cons o os =>
      obtain ⟨h1, h2, h3, h4⟩ := chain_step o (chainBytes n os)
      have hl : os.length ≤ n := by simpa using h
      have hb : chainBytes (n + 1) (o :: os) = (o.1.code ++ o.2.code ++ 0#2 : BitVec 8).toNat + 256 * chainBytes n os := rfl
      rw [hb]
      unfold chainOfBytes
      rw [if_neg h1, h2, h3, h4, ih os hl]

/-- The eight operation bytes of a chain fill a word. -/
theorem chain_word (os : List (ChainOp × ChainSrc)) (h : os.length ≤ 8) :
    chainOfBytes 8 (chainBytes 8 os % 18446744073709551616) = os := by
  have hb := chainBytes_lt 8 os
  have hp : (256 : Nat) ^ 8 = 18446744073709551616 := by decide
  rw [Nat.mod_eq_of_lt (hp ▸ hb), chain_code 8 os h]

/-- What `wf` says of the operands of an encoded instruction. -/
theorem ops_of {i : Instr} {h : Hdr} (hw : i.wf = true) (hh : i.hdr? = some h) : i.operandsOk = true := by
  simp [Instr.wf, hh] at hw
  exact hw.2

/-- A well-formed encodable instruction is decoded from its fields when its candidate is read back. -/
theorem decode_of {i : Instr} {r : Raw} (hw : i.wf = true) (he : encodeRaw i = some r)
    (hc : candidate r = some i) : decodeRaw r = .ok i := by
  unfold decodeRaw
  simp [hc, he, hw]

end Sys2Proof.Laws
end

