-- ==== Sys2Proof/Laws/Map.lean ====
section
/-!
SUPPORT. The laws of the sparse maps: a read after a write, and that every operation keeps the canonical form.
-/

namespace Sys2Proof.Laws

open Sys2Proof.Machine

variable {α : Type}

/-! ## Reading -/

theorem fget_nil (d : α) (k : Nat) : fget d [] k = d := rfl

theorem fget_fdel_same (d : α) (m : FMap α) (k : Nat) : fget d (fdel m k) k = d := by
  induction m with
  | nil => rfl
  | cons e es ih =>
    by_cases h : e.1 = k
    · simp [fdel, h, ih]
    · simp [fdel, h, fget, ih]

theorem fget_fdel_ne (d : α) (m : FMap α) {k j : Nat} (hj : j ≠ k) : fget d (fdel m k) j = fget d m j := by
  induction m with
  | nil => rfl
  | cons e es ih =>
    by_cases h : e.1 = k
    · have hne : ¬ e.1 = j := fun c => hj (by omega)
      simp [fdel, h, ih, fget, show ¬ k = j from fun c => hj c.symm]
    · simp [fdel, h, fget, ih]

theorem fget_fins_same (d : α) (m : FMap α) (k : Nat) (v : α) (hm : ∀ e ∈ m, e.1 ≠ k) : fget d (fins m k v) k = v := by
  induction m with
  | nil => simp [fins, fget]
  | cons e es ih =>
    have h1 : e.1 ≠ k := hm e (by simp)
    by_cases h : k < e.1
    · simp [fins, h, fget]
    · simp [fins, h, fget, h1, ih (fun x hx => hm x (by simp [hx]))]

theorem fget_fins_ne (d : α) (m : FMap α) {k j : Nat} (v : α) (hj : j ≠ k) : fget d (fins m k v) j = fget d m j := by
  induction m with
  | nil => simp [fins, fget, Ne.symm hj]
  | cons e es ih =>
    by_cases h : k < e.1
    · simp [fins, h, fget, Ne.symm hj]
    · simp [fins, h, fget, ih]

theorem fdel_keys (m : FMap α) (k : Nat) : ∀ e ∈ fdel m k, e.1 ≠ k := by
  induction m with
  | nil => simp [fdel]
  | cons e es ih =>
    by_cases h : e.1 = k
    · simpa [fdel, h] using ih
    · intro x hx
      rcases (by simpa [fdel, h] using hx : x = e ∨ x ∈ fdel es k) with rfl | hx
      · exact h
      · exact ih x hx

theorem fgetAll_length (d : α) (m : FMap α) : ∀ (n k : Nat), (fgetAll d m k n).length = n
  | 0, _ => rfl
  | n + 1, k => by simp [fgetAll, fgetAll_length d m n]

variable [DecidableEq α]

/-- A read after a write to the same key gives the value written. -/
theorem fget_fset_same (d : α) (m : FMap α) (k : Nat) (v : α) : fget d (fset d m k v) k = v := by
  by_cases h : v = d
  · simp [fset, h, fget_fdel_same]
  · simp [fset, h, fget_fins_same d _ _ _ (fdel_keys m k)]

/-- A write leaves every other key alone. -/
theorem fget_fset_ne (d : α) (m : FMap α) {k j : Nat} (v : α) (hj : j ≠ k) : fget d (fset d m k v) j = fget d m j := by
  by_cases h : v = d
  · simp [fset, h, fget_fdel_ne d m hj]
  · simp [fset, h, fget_fins_ne d _ v hj, fget_fdel_ne d m hj]

theorem fget_fset (d : α) (m : FMap α) (k j : Nat) (v : α) : fget d (fset d m k v) j = if j = k then v else fget d m j := by
  by_cases h : j = k
  · subst h; simp [fget_fset_same]
  · simp [h, fget_fset_ne d m v h]

/-- A write of consecutive keys leaves every key outside them alone. -/
theorem fget_fsetAll_out (d : α) (vs : List α) : ∀ (m : FMap α) (k j : Nat), j < k ∨ k + vs.length ≤ j →
    fget d (fsetAll d m k vs) j = fget d m j := by
  induction vs with
  | nil => intros; rfl
  | cons v vs ih =>
    intro m k j h
    simp only [List.length_cons] at h
    rw [fsetAll, ih _ _ _ (by omega), fget_fset_ne d m v (by omega)]

/-- A read of a written key gives the value written. -/
theorem fget_fsetAll_in (d : α) (vs : List α) : ∀ (m : FMap α) (k i : Nat) (hi : i < vs.length),
    fget d (fsetAll d m k vs) (k + i) = vs[i] := by
  induction vs with
  | nil => intro m k i hi; simp at hi
  | cons v vs ih =>
    intro m k i hi
    cases i with
    | zero => rw [fsetAll, fget_fsetAll_out d vs _ _ _ (by omega)]; simp [fget_fset_same]
    | succ i =>
      have := ih (fset d m k v) (k + 1) i (by simpa using hi)
      rw [fsetAll]
      simpa [Nat.add_assoc, Nat.add_comm 1 i] using this

/-- Reading back consecutive keys gives the values written. -/
theorem fgetAll_fsetAll (d : α) (vs : List α) : ∀ (m : FMap α) (k : Nat), fgetAll d (fsetAll d m k vs) k vs.length = vs := by
  induction vs with
  | nil => intros; rfl
  | cons v vs ih =>
    intro m k
    have h0 : fget d (fsetAll d m k (v :: vs)) k = v := fget_fsetAll_in d (v :: vs) m k 0 (by simp)
    have h1 : fgetAll d (fsetAll d m k (v :: vs)) (k + 1) vs.length = vs := ih _ _
    simp only [List.length_cons, fgetAll, h0, h1]

/-- Trimming changes no value. -/
theorem fget_ftrim (d : α) (k : Nat) : ∀ m : FMap α, fget d (ftrim d m) k = fget d m k
  | [] => rfl
  | e :: es => by
    rw [ftrim, fget_fset, fget_ftrim d k es, fget]
    by_cases h : e.1 = k
    · simp [h]
    · simp [h, Ne.symm h]

/-! ## The canonical form -/

theorem mapWfFrom_mono (d : α) (m : FMap α) {lo lo' : Nat} (hl : lo' ≤ lo) (h : mapWfFrom d lo m = true) :
    mapWfFrom d lo' m = true := by
  cases m with
  | nil => rfl
  | cons e es =>
    simp only [mapWfFrom, Bool.and_eq_true, decide_eq_true_eq] at h ⊢
    exact ⟨⟨by omega, h.1.2⟩, h.2⟩

theorem mapWfFrom_fdel (d : α) (k : Nat) : ∀ (m : FMap α) (lo : Nat), mapWfFrom d lo m = true → mapWfFrom d lo (fdel m k) = true
  | [], _, _ => rfl
  | e :: es, lo, h => by
    simp only [mapWfFrom, Bool.and_eq_true, decide_eq_true_eq] at h
    have ih := mapWfFrom_fdel d k es (e.1 + 1) h.2
    by_cases hk : e.1 = k
    · simp only [fdel, hk, if_true]
      exact mapWfFrom_mono d _ (by omega) (hk ▸ ih)
    · simp only [fdel, hk, if_false, mapWfFrom, Bool.and_eq_true, decide_eq_true_eq]
      exact ⟨h.1, ih⟩

theorem mapWfFrom_fins (d : α) (k : Nat) (v : α) (hv : v ≠ d) : ∀ (m : FMap α) (lo : Nat), lo ≤ k →
    (∀ e ∈ m, e.1 ≠ k) → mapWfFrom d lo m = true → mapWfFrom d lo (fins m k v) = true
  | [], lo, hl, _, _ => by simp [fins, mapWfFrom, hl, hv]
  | e :: es, lo, hl, hm, h => by
    simp only [mapWfFrom, Bool.and_eq_true, decide_eq_true_eq] at h
    by_cases hk : k < e.1
    · simp only [fins, hk, if_true, mapWfFrom, Bool.and_eq_true, decide_eq_true_eq]
      exact ⟨⟨hl, hv⟩, ⟨by omega, h.1.2⟩, h.2⟩
    · have hne : e.1 ≠ k := hm e (by simp)
      simp only [fins, hk, if_false, mapWfFrom, Bool.and_eq_true, decide_eq_true_eq]
      exact ⟨h.1, mapWfFrom_fins d k v hv es (e.1 + 1) (by omega) (fun x hx => hm x (by simp [hx])) h.2⟩

theorem mapWf_nil (d : α) : mapWf d ([] : FMap α) = true := rfl

/-- A write keeps the canonical form. -/
theorem mapWf_fset (d : α) (m : FMap α) (k : Nat) (v : α) (h : mapWf d m = true) : mapWf d (fset d m k v) = true := by
  by_cases hv : v = d
  · simpa [fset, hv, mapWf] using mapWfFrom_fdel d k m 0 h
  · simpa [fset, hv, mapWf] using
      mapWfFrom_fins d k v hv _ 0 (Nat.zero_le k) (fdel_keys m k) (mapWfFrom_fdel d k m 0 h)

/-- A write of consecutive keys keeps the canonical form. -/
theorem mapWf_fsetAll (d : α) (vs : List α) : ∀ (m : FMap α) (k : Nat), mapWf d m = true → mapWf d (fsetAll d m k vs) = true := by
  induction vs with
  | nil => intro m k h; exact h
  | cons v vs ih => intro m k h; exact ih _ _ (mapWf_fset d m k v h)

theorem mapWfFrom_filter (d : α) (p : Nat × α → Bool) : ∀ (m : FMap α) (lo : Nat), mapWfFrom d lo m = true →
    mapWfFrom d lo (m.filter p) = true
  | [], _, _ => rfl
  | e :: es, lo, h => by
    simp only [mapWfFrom, Bool.and_eq_true, decide_eq_true_eq] at h
    have ih := mapWfFrom_filter d p es (e.1 + 1) h.2
    by_cases hp : p e = true
    · simp only [List.filter, hp, mapWfFrom, Bool.and_eq_true, decide_eq_true_eq]
      exact ⟨h.1, ih⟩
    · simp only [List.filter, hp]
      exact mapWfFrom_mono d _ (by omega) ih

/-- Dropping entries keeps the canonical form. -/
theorem mapWf_filter (d : α) (p : Nat × α → Bool) (m : FMap α) (h : mapWf d m = true) : mapWf d (m.filter p) = true :=
  mapWfFrom_filter d p m 0 h

theorem fget_of_lt (d : α) : ∀ (m : FMap α) (lo k : Nat), mapWfFrom d lo m = true → k < lo → fget d m k = d
  | [], _, _, _, _ => rfl
  | e :: es, lo, k, h, hk => by
    simp only [mapWfFrom, Bool.and_eq_true, decide_eq_true_eq] at h
    simp [fget, show ¬ e.1 = k by omega, fget_of_lt d es (e.1 + 1) k h.2 (by omega)]

/-- Two maps in canonical form that read alike are equal. -/
theorem mapWf_ext (d : α) : ∀ (m n : FMap α) (lo : Nat), mapWfFrom d lo m = true → mapWfFrom d lo n = true →
    (∀ k, fget d m k = fget d n k) → m = n
  | [], [], _, _, _, _ => rfl
  | [], e :: es, lo, _, h, hk => by
    simp only [mapWfFrom, Bool.and_eq_true, decide_eq_true_eq] at h
    exact absurd (by simpa [fget] using (hk e.1).symm) h.1.2
  | e :: es, [], lo, h, _, hk => by
    simp only [mapWfFrom, Bool.and_eq_true, decide_eq_true_eq] at h
    exact absurd (by simpa [fget] using hk e.1) h.1.2
  | e :: es, f :: fs, lo, h, h', hk => by
    simp only [mapWfFrom, Bool.and_eq_true, decide_eq_true_eq] at h h'
    have key : e.1 = f.1 := by
      rcases Nat.lt_trichotomy e.1 f.1 with hlt | heq | hlt
      · have := hk e.1
        rw [show fget d (f :: fs) e.1 = d from by
          simp [fget, show ¬ f.1 = e.1 by omega, fget_of_lt d fs (f.1 + 1) e.1 h'.2 (by omega)]] at this
        exact absurd (by simpa [fget] using this) h.1.2
      · exact heq
      · have := hk f.1
        rw [show fget d (e :: es) f.1 = d from by
          simp [fget, show ¬ e.1 = f.1 by omega, fget_of_lt d es (e.1 + 1) f.1 h.2 (by omega)]] at this
        exact absurd (by simpa [fget] using this.symm) h'.1.2
    have val : e.2 = f.2 := by simpa [fget, key] using hk e.1
    have tail : es = fs := by
      refine mapWf_ext d es fs (e.1 + 1) h.2 (key ▸ h'.2) (fun k => ?_)
      by_cases hke : e.1 = k
      · rw [fget_of_lt d es (e.1 + 1) k h.2 (by omega), fget_of_lt d fs (f.1 + 1) k h'.2 (by omega)]
      · simpa [fget, hke, show ¬ f.1 = k by omega] using hk k
    rw [tail, Prod.ext key val]

/-- A trimmed map is canonical, whatever it was made from. -/
theorem mapWf_ftrim (d : α) : ∀ m : FMap α, mapWf d (ftrim d m) = true
  | [] => rfl
  | _ :: es => mapWf_fset d _ _ _ (mapWf_ftrim d es)

end Sys2Proof.Laws
end

