-- ==== Sys2Proof/Laws/State.lean ====
section
/-!
SUPPORT. What each named update of the state, of a core and of a frame leaves alone, one lemma per field, and what reading a unit or a
register back gives.
-/

namespace Sys2Proof.Laws

open Sys2Proof.Machine

variable (s : State) (c : Core) (f : Frame) (n : Nat)

/-! ## Updates of the state -/

@[simp] theorem setCore_agenda (x : Core) : (s.setCore n x).agenda = s.agenda := rfl
@[simp] theorem setCore_cur (x : Core) : (s.setCore n x).cur = s.cur := rfl
@[simp] theorem setCore_uid (x : Core) : (s.setCore n x).uid = s.uid := rfl
@[simp] theorem setCore_clock (x : Core) : (s.setCore n x).clock = s.clock := rfl
@[simp] theorem setCore_draws (x : Core) : (s.setCore n x).draws = s.draws := rfl
@[simp] theorem setCore_clusters (x : Core) : (s.setCore n x).clusters = s.clusters := rfl
@[simp] theorem setCore_dies (x : Core) : (s.setCore n x).dies = s.dies := rfl
@[simp] theorem setCore_ctxs (x : Core) : (s.setCore n x).ctxs = s.ctxs := rfl
@[simp] theorem setCore_mem (x : Core) : (s.setCore n x).mem = s.mem := rfl
@[simp] theorem setCore_queues (x : Core) : (s.setCore n x).queues = s.queues := rfl
@[simp] theorem setCore_lastq (x : Core) : (s.setCore n x).lastq = s.lastq := rfl
@[simp] theorem setCore_entry (x : Core) : (s.setCore n x).entry = s.entry := rfl
@[simp] theorem setCore_dispcfg (x : Core) : (s.setCore n x).dispcfg = s.dispcfg := rfl
@[simp] theorem setCore_releases (x : Core) : (s.setCore n x).releases = s.releases := rfl
@[simp] theorem setCore_events (x : Core) : (s.setCore n x).events = s.events := rfl
@[simp] theorem setCore_host (x : Core) : (s.setCore n x).host = s.host := rfl
@[simp] theorem setCore_fabric (x : Core) : (s.setCore n x).fabric = s.fabric := rfl
@[simp] theorem setCore_attest (x : Core) : (s.setCore n x).attest = s.attest := rfl
@[simp] theorem setCore_mgmt (x : Core) : (s.setCore n x).mgmt = s.mgmt := rfl

@[simp] theorem setCtx_agenda (x : Ctx) : (s.setCtx n x).agenda = s.agenda := rfl
@[simp] theorem setCtx_cur (x : Ctx) : (s.setCtx n x).cur = s.cur := rfl
@[simp] theorem setCtx_uid (x : Ctx) : (s.setCtx n x).uid = s.uid := rfl
@[simp] theorem setCtx_clock (x : Ctx) : (s.setCtx n x).clock = s.clock := rfl
@[simp] theorem setCtx_draws (x : Ctx) : (s.setCtx n x).draws = s.draws := rfl
@[simp] theorem setCtx_cores (x : Ctx) : (s.setCtx n x).cores = s.cores := rfl
@[simp] theorem setCtx_clusters (x : Ctx) : (s.setCtx n x).clusters = s.clusters := rfl
@[simp] theorem setCtx_dies (x : Ctx) : (s.setCtx n x).dies = s.dies := rfl
@[simp] theorem setCtx_mem (x : Ctx) : (s.setCtx n x).mem = s.mem := rfl
@[simp] theorem setCtx_queues (x : Ctx) : (s.setCtx n x).queues = s.queues := rfl
@[simp] theorem setCtx_lastq (x : Ctx) : (s.setCtx n x).lastq = s.lastq := rfl
@[simp] theorem setCtx_entry (x : Ctx) : (s.setCtx n x).entry = s.entry := rfl
@[simp] theorem setCtx_dispcfg (x : Ctx) : (s.setCtx n x).dispcfg = s.dispcfg := rfl
@[simp] theorem setCtx_releases (x : Ctx) : (s.setCtx n x).releases = s.releases := rfl
@[simp] theorem setCtx_events (x : Ctx) : (s.setCtx n x).events = s.events := rfl
@[simp] theorem setCtx_host (x : Ctx) : (s.setCtx n x).host = s.host := rfl
@[simp] theorem setCtx_fabric (x : Ctx) : (s.setCtx n x).fabric = s.fabric := rfl
@[simp] theorem setCtx_attest (x : Ctx) : (s.setCtx n x).attest = s.attest := rfl
@[simp] theorem setCtx_mgmt (x : Ctx) : (s.setCtx n x).mgmt = s.mgmt := rfl

@[simp] theorem setCluster_agenda (x : Cluster) : (s.setCluster n x).agenda = s.agenda := rfl
@[simp] theorem setCluster_cur (x : Cluster) : (s.setCluster n x).cur = s.cur := rfl
@[simp] theorem setCluster_uid (x : Cluster) : (s.setCluster n x).uid = s.uid := rfl
@[simp] theorem setCluster_clock (x : Cluster) : (s.setCluster n x).clock = s.clock := rfl
@[simp] theorem setCluster_draws (x : Cluster) : (s.setCluster n x).draws = s.draws := rfl
@[simp] theorem setCluster_cores (x : Cluster) : (s.setCluster n x).cores = s.cores := rfl
@[simp] theorem setCluster_dies (x : Cluster) : (s.setCluster n x).dies = s.dies := rfl
@[simp] theorem setCluster_ctxs (x : Cluster) : (s.setCluster n x).ctxs = s.ctxs := rfl
@[simp] theorem setCluster_mem (x : Cluster) : (s.setCluster n x).mem = s.mem := rfl
@[simp] theorem setCluster_queues (x : Cluster) : (s.setCluster n x).queues = s.queues := rfl
@[simp] theorem setCluster_lastq (x : Cluster) : (s.setCluster n x).lastq = s.lastq := rfl
@[simp] theorem setCluster_entry (x : Cluster) : (s.setCluster n x).entry = s.entry := rfl
@[simp] theorem setCluster_dispcfg (x : Cluster) : (s.setCluster n x).dispcfg = s.dispcfg := rfl
@[simp] theorem setCluster_releases (x : Cluster) : (s.setCluster n x).releases = s.releases := rfl
@[simp] theorem setCluster_events (x : Cluster) : (s.setCluster n x).events = s.events := rfl
@[simp] theorem setCluster_host (x : Cluster) : (s.setCluster n x).host = s.host := rfl
@[simp] theorem setCluster_fabric (x : Cluster) : (s.setCluster n x).fabric = s.fabric := rfl
@[simp] theorem setCluster_attest (x : Cluster) : (s.setCluster n x).attest = s.attest := rfl
@[simp] theorem setCluster_mgmt (x : Cluster) : (s.setCluster n x).mgmt = s.mgmt := rfl

@[simp] theorem setDie_agenda (x : Die) : (s.setDie n x).agenda = s.agenda := rfl
@[simp] theorem setDie_cur (x : Die) : (s.setDie n x).cur = s.cur := rfl
@[simp] theorem setDie_uid (x : Die) : (s.setDie n x).uid = s.uid := rfl
@[simp] theorem setDie_clock (x : Die) : (s.setDie n x).clock = s.clock := rfl
@[simp] theorem setDie_draws (x : Die) : (s.setDie n x).draws = s.draws := rfl
@[simp] theorem setDie_cores (x : Die) : (s.setDie n x).cores = s.cores := rfl
@[simp] theorem setDie_clusters (x : Die) : (s.setDie n x).clusters = s.clusters := rfl
@[simp] theorem setDie_ctxs (x : Die) : (s.setDie n x).ctxs = s.ctxs := rfl
@[simp] theorem setDie_mem (x : Die) : (s.setDie n x).mem = s.mem := rfl
@[simp] theorem setDie_queues (x : Die) : (s.setDie n x).queues = s.queues := rfl
@[simp] theorem setDie_lastq (x : Die) : (s.setDie n x).lastq = s.lastq := rfl
@[simp] theorem setDie_entry (x : Die) : (s.setDie n x).entry = s.entry := rfl
@[simp] theorem setDie_dispcfg (x : Die) : (s.setDie n x).dispcfg = s.dispcfg := rfl
@[simp] theorem setDie_releases (x : Die) : (s.setDie n x).releases = s.releases := rfl
@[simp] theorem setDie_events (x : Die) : (s.setDie n x).events = s.events := rfl
@[simp] theorem setDie_host (x : Die) : (s.setDie n x).host = s.host := rfl
@[simp] theorem setDie_fabric (x : Die) : (s.setDie n x).fabric = s.fabric := rfl
@[simp] theorem setDie_attest (x : Die) : (s.setDie n x).attest = s.attest := rfl
@[simp] theorem setDie_mgmt (x : Die) : (s.setDie n x).mgmt = s.mgmt := rfl

@[simp] theorem setQueue_agenda (x : WQueue) : (s.setQueue n x).agenda = s.agenda := rfl
@[simp] theorem setQueue_cur (x : WQueue) : (s.setQueue n x).cur = s.cur := rfl
@[simp] theorem setQueue_uid (x : WQueue) : (s.setQueue n x).uid = s.uid := rfl
@[simp] theorem setQueue_clock (x : WQueue) : (s.setQueue n x).clock = s.clock := rfl
@[simp] theorem setQueue_draws (x : WQueue) : (s.setQueue n x).draws = s.draws := rfl
@[simp] theorem setQueue_cores (x : WQueue) : (s.setQueue n x).cores = s.cores := rfl
@[simp] theorem setQueue_clusters (x : WQueue) : (s.setQueue n x).clusters = s.clusters := rfl
@[simp] theorem setQueue_dies (x : WQueue) : (s.setQueue n x).dies = s.dies := rfl
@[simp] theorem setQueue_ctxs (x : WQueue) : (s.setQueue n x).ctxs = s.ctxs := rfl
@[simp] theorem setQueue_mem (x : WQueue) : (s.setQueue n x).mem = s.mem := rfl
@[simp] theorem setQueue_lastq (x : WQueue) : (s.setQueue n x).lastq = s.lastq := rfl
@[simp] theorem setQueue_entry (x : WQueue) : (s.setQueue n x).entry = s.entry := rfl
@[simp] theorem setQueue_dispcfg (x : WQueue) : (s.setQueue n x).dispcfg = s.dispcfg := rfl
@[simp] theorem setQueue_releases (x : WQueue) : (s.setQueue n x).releases = s.releases := rfl
@[simp] theorem setQueue_events (x : WQueue) : (s.setQueue n x).events = s.events := rfl
@[simp] theorem setQueue_host (x : WQueue) : (s.setQueue n x).host = s.host := rfl
@[simp] theorem setQueue_fabric (x : WQueue) : (s.setQueue n x).fabric = s.fabric := rfl
@[simp] theorem setQueue_attest (x : WQueue) : (s.setQueue n x).attest = s.attest := rfl
@[simp] theorem setQueue_mgmt (x : WQueue) : (s.setQueue n x).mgmt = s.mgmt := rfl

@[simp] theorem setMem_agenda (m : Memory) : (s.setMem m).agenda = s.agenda := rfl
@[simp] theorem setMem_cur (m : Memory) : (s.setMem m).cur = s.cur := rfl
@[simp] theorem setMem_uid (m : Memory) : (s.setMem m).uid = s.uid := rfl
@[simp] theorem setMem_clock (m : Memory) : (s.setMem m).clock = s.clock := rfl
@[simp] theorem setMem_draws (m : Memory) : (s.setMem m).draws = s.draws := rfl
@[simp] theorem setMem_cores (m : Memory) : (s.setMem m).cores = s.cores := rfl
@[simp] theorem setMem_clusters (m : Memory) : (s.setMem m).clusters = s.clusters := rfl
@[simp] theorem setMem_dies (m : Memory) : (s.setMem m).dies = s.dies := rfl
@[simp] theorem setMem_ctxs (m : Memory) : (s.setMem m).ctxs = s.ctxs := rfl
@[simp] theorem setMem_queues (m : Memory) : (s.setMem m).queues = s.queues := rfl
@[simp] theorem setMem_lastq (m : Memory) : (s.setMem m).lastq = s.lastq := rfl
@[simp] theorem setMem_entry (m : Memory) : (s.setMem m).entry = s.entry := rfl
@[simp] theorem setMem_dispcfg (m : Memory) : (s.setMem m).dispcfg = s.dispcfg := rfl
@[simp] theorem setMem_releases (m : Memory) : (s.setMem m).releases = s.releases := rfl
@[simp] theorem setMem_events (m : Memory) : (s.setMem m).events = s.events := rfl
@[simp] theorem setMem_host (m : Memory) : (s.setMem m).host = s.host := rfl
@[simp] theorem setMem_fabric (m : Memory) : (s.setMem m).fabric = s.fabric := rfl
@[simp] theorem setMem_attest (m : Memory) : (s.setMem m).attest = s.attest := rfl
@[simp] theorem setMem_mgmt (m : Memory) : (s.setMem m).mgmt = s.mgmt := rfl
@[simp] theorem setFabric_agenda (x : Fabric) : (s.setFabric x).agenda = s.agenda := rfl
@[simp] theorem setFabric_cur (x : Fabric) : (s.setFabric x).cur = s.cur := rfl
@[simp] theorem setFabric_uid (x : Fabric) : (s.setFabric x).uid = s.uid := rfl
@[simp] theorem setFabric_clock (x : Fabric) : (s.setFabric x).clock = s.clock := rfl
@[simp] theorem setFabric_draws (x : Fabric) : (s.setFabric x).draws = s.draws := rfl
@[simp] theorem setFabric_cores (x : Fabric) : (s.setFabric x).cores = s.cores := rfl
@[simp] theorem setFabric_clusters (x : Fabric) : (s.setFabric x).clusters = s.clusters := rfl
@[simp] theorem setFabric_dies (x : Fabric) : (s.setFabric x).dies = s.dies := rfl
@[simp] theorem setFabric_ctxs (x : Fabric) : (s.setFabric x).ctxs = s.ctxs := rfl
@[simp] theorem setFabric_mem (x : Fabric) : (s.setFabric x).mem = s.mem := rfl
@[simp] theorem setFabric_queues (x : Fabric) : (s.setFabric x).queues = s.queues := rfl
@[simp] theorem setFabric_lastq (x : Fabric) : (s.setFabric x).lastq = s.lastq := rfl
@[simp] theorem setFabric_entry (x : Fabric) : (s.setFabric x).entry = s.entry := rfl
@[simp] theorem setFabric_dispcfg (x : Fabric) : (s.setFabric x).dispcfg = s.dispcfg := rfl
@[simp] theorem setFabric_releases (x : Fabric) : (s.setFabric x).releases = s.releases := rfl
@[simp] theorem setFabric_events (x : Fabric) : (s.setFabric x).events = s.events := rfl
@[simp] theorem setFabric_host (x : Fabric) : (s.setFabric x).host = s.host := rfl
@[simp] theorem setFabric_attest (x : Fabric) : (s.setFabric x).attest = s.attest := rfl
@[simp] theorem setFabric_mgmt (x : Fabric) : (s.setFabric x).mgmt = s.mgmt := rfl

@[simp] theorem fresh_agenda  : (s.fresh).agenda = s.agenda := rfl
@[simp] theorem fresh_cur  : (s.fresh).cur = s.cur := rfl
@[simp] theorem fresh_clock  : (s.fresh).clock = s.clock := rfl
@[simp] theorem fresh_draws  : (s.fresh).draws = s.draws := rfl
@[simp] theorem fresh_cores  : (s.fresh).cores = s.cores := rfl
@[simp] theorem fresh_clusters  : (s.fresh).clusters = s.clusters := rfl
@[simp] theorem fresh_dies  : (s.fresh).dies = s.dies := rfl
@[simp] theorem fresh_ctxs  : (s.fresh).ctxs = s.ctxs := rfl
@[simp] theorem fresh_mem  : (s.fresh).mem = s.mem := rfl
@[simp] theorem fresh_queues  : (s.fresh).queues = s.queues := rfl
@[simp] theorem fresh_lastq  : (s.fresh).lastq = s.lastq := rfl
@[simp] theorem fresh_entry  : (s.fresh).entry = s.entry := rfl
@[simp] theorem fresh_dispcfg  : (s.fresh).dispcfg = s.dispcfg := rfl
@[simp] theorem fresh_releases  : (s.fresh).releases = s.releases := rfl
@[simp] theorem fresh_events  : (s.fresh).events = s.events := rfl
@[simp] theorem fresh_host  : (s.fresh).host = s.host := rfl
@[simp] theorem fresh_fabric  : (s.fresh).fabric = s.fabric := rfl
@[simp] theorem fresh_attest  : (s.fresh).attest = s.attest := rfl
@[simp] theorem fresh_mgmt  : (s.fresh).mgmt = s.mgmt := rfl

@[simp] theorem setMem_mem (m : Memory) : (s.setMem m).mem = m := rfl
@[simp] theorem setFabric_fabric (x : Fabric) : (s.setFabric x).fabric = x := rfl
@[simp] theorem fresh_uid : s.fresh.uid = s.uid + 1 := rfl

/-! ## Units read back -/

@[simp] theorem core_setCore_same (x : Core) : (s.setCore n x).core n = x := fget_fset_same _ _ _ _
theorem core_setCore_ne (x : Core) {k : Nat} (h : k ≠ n) : (s.setCore n x).core k = s.core k := fget_fset_ne _ _ _ h
@[simp] theorem core_setCtx (k : Nat) (x : Ctx) : (s.setCtx n x).core k = s.core k := rfl
@[simp] theorem core_setCluster (k : Nat) (x : Cluster) : (s.setCluster n x).core k = s.core k := rfl
@[simp] theorem core_setDie (k : Nat) (x : Die) : (s.setDie n x).core k = s.core k := rfl
@[simp] theorem core_setQueue (k : Nat) (x : WQueue) : (s.setQueue n x).core k = s.core k := rfl
@[simp] theorem core_setMem (k : Nat) (m : Memory) : (s.setMem m).core k = s.core k := rfl
@[simp] theorem core_setFabric (k : Nat) (x : Fabric) : (s.setFabric x).core k = s.core k := rfl
@[simp] theorem core_fresh (k : Nat)  : (s.fresh).core k = s.core k := rfl

@[simp] theorem ctx_setCtx_same (x : Ctx) : (s.setCtx n x).ctx n = x := fget_fset_same _ _ _ _
theorem ctx_setCtx_ne (x : Ctx) {k : Nat} (h : k ≠ n) : (s.setCtx n x).ctx k = s.ctx k := fget_fset_ne _ _ _ h
@[simp] theorem ctx_setCore (k : Nat) (x : Core) : (s.setCore n x).ctx k = s.ctx k := rfl
@[simp] theorem ctx_setCluster (k : Nat) (x : Cluster) : (s.setCluster n x).ctx k = s.ctx k := rfl
@[simp] theorem ctx_setDie (k : Nat) (x : Die) : (s.setDie n x).ctx k = s.ctx k := rfl
@[simp] theorem ctx_setQueue (k : Nat) (x : WQueue) : (s.setQueue n x).ctx k = s.ctx k := rfl
@[simp] theorem ctx_setMem (k : Nat) (m : Memory) : (s.setMem m).ctx k = s.ctx k := rfl
@[simp] theorem ctx_setFabric (k : Nat) (x : Fabric) : (s.setFabric x).ctx k = s.ctx k := rfl
@[simp] theorem ctx_fresh (k : Nat)  : (s.fresh).ctx k = s.ctx k := rfl

@[simp] theorem cluster_setCluster_same (x : Cluster) : (s.setCluster n x).cluster n = x := fget_fset_same _ _ _ _
theorem cluster_setCluster_ne (x : Cluster) {k : Nat} (h : k ≠ n) : (s.setCluster n x).cluster k = s.cluster k := fget_fset_ne _ _ _ h
@[simp] theorem cluster_setCore (k : Nat) (x : Core) : (s.setCore n x).cluster k = s.cluster k := rfl
@[simp] theorem cluster_setCtx (k : Nat) (x : Ctx) : (s.setCtx n x).cluster k = s.cluster k := rfl
@[simp] theorem cluster_setDie (k : Nat) (x : Die) : (s.setDie n x).cluster k = s.cluster k := rfl
@[simp] theorem cluster_setQueue (k : Nat) (x : WQueue) : (s.setQueue n x).cluster k = s.cluster k := rfl
@[simp] theorem cluster_setMem (k : Nat) (m : Memory) : (s.setMem m).cluster k = s.cluster k := rfl
@[simp] theorem cluster_setFabric (k : Nat) (x : Fabric) : (s.setFabric x).cluster k = s.cluster k := rfl
@[simp] theorem cluster_fresh (k : Nat)  : (s.fresh).cluster k = s.cluster k := rfl

@[simp] theorem die_setDie_same (x : Die) : (s.setDie n x).die n = x := fget_fset_same _ _ _ _
theorem die_setDie_ne (x : Die) {k : Nat} (h : k ≠ n) : (s.setDie n x).die k = s.die k := fget_fset_ne _ _ _ h
@[simp] theorem die_setCore (k : Nat) (x : Core) : (s.setCore n x).die k = s.die k := rfl
@[simp] theorem die_setCtx (k : Nat) (x : Ctx) : (s.setCtx n x).die k = s.die k := rfl
@[simp] theorem die_setCluster (k : Nat) (x : Cluster) : (s.setCluster n x).die k = s.die k := rfl
@[simp] theorem die_setQueue (k : Nat) (x : WQueue) : (s.setQueue n x).die k = s.die k := rfl
@[simp] theorem die_setMem (k : Nat) (m : Memory) : (s.setMem m).die k = s.die k := rfl
@[simp] theorem die_setFabric (k : Nat) (x : Fabric) : (s.setFabric x).die k = s.die k := rfl
@[simp] theorem die_fresh (k : Nat)  : (s.fresh).die k = s.die k := rfl

@[simp] theorem queue_setQueue_same (x : WQueue) : (s.setQueue n x).queue n = x := fget_fset_same _ _ _ _
theorem queue_setQueue_ne (x : WQueue) {k : Nat} (h : k ≠ n) : (s.setQueue n x).queue k = s.queue k := fget_fset_ne _ _ _ h
@[simp] theorem queue_setCore (k : Nat) (x : Core) : (s.setCore n x).queue k = s.queue k := rfl
@[simp] theorem queue_setCtx (k : Nat) (x : Ctx) : (s.setCtx n x).queue k = s.queue k := rfl
@[simp] theorem queue_setCluster (k : Nat) (x : Cluster) : (s.setCluster n x).queue k = s.queue k := rfl
@[simp] theorem queue_setDie (k : Nat) (x : Die) : (s.setDie n x).queue k = s.queue k := rfl
@[simp] theorem queue_setMem (k : Nat) (m : Memory) : (s.setMem m).queue k = s.queue k := rfl
@[simp] theorem queue_setFabric (k : Nat) (x : Fabric) : (s.setFabric x).queue k = s.queue k := rfl
@[simp] theorem queue_fresh (k : Nat)  : (s.fresh).queue k = s.queue k := rfl

@[simp] theorem writer_setCore (k : Nat) (x : Core) : (s.setCore n x).writer k = s.writer k := rfl
@[simp] theorem writer_setCtx (k : Nat) (x : Ctx) : (s.setCtx n x).writer k = s.writer k := rfl
@[simp] theorem writer_setCluster (k : Nat) (x : Cluster) : (s.setCluster n x).writer k = s.writer k := rfl
@[simp] theorem writer_setDie (k : Nat) (x : Die) : (s.setDie n x).writer k = s.writer k := rfl
@[simp] theorem writer_setQueue (k : Nat) (x : WQueue) : (s.setQueue n x).writer k = s.writer k := rfl
@[simp] theorem writer_setMem (k : Nat) (m : Memory) : (s.setMem m).writer k = s.writer k := rfl
@[simp] theorem writer_fresh (k : Nat)  : (s.fresh).writer k = s.writer k := rfl

/-! ## Updates of a core -/

@[simp] theorem setLane_ctx (l : Nat) (x : Lane) : (c.setLane l x).ctx = c.ctx := rfl
@[simp] theorem setLane_coreid (l : Nat) (x : Lane) : (c.setLane l x).coreid = c.coreid := rfl
@[simp] theorem setLane_frames (l : Nat) (x : Lane) : (c.setLane l x).frames = c.frames := rfl
@[simp] theorem setLane_w (l : Nat) (x : Lane) : (c.setLane l x).w = c.w := rfl
@[simp] theorem setLane_long (l : Nat) (x : Lane) : (c.setLane l x).long = c.long := rfl
@[simp] theorem setLane_queues (l : Nat) (x : Lane) : (c.setLane l x).queues = c.queues := rfl
@[simp] theorem setLane_arrivals (l : Nat) (x : Lane) : (c.setLane l x).arrivals = c.arrivals := rfl
@[simp] theorem setLane_pushes (l : Nat) (x : Lane) : (c.setLane l x).pushes = c.pushes := rfl
@[simp] theorem setLane_watches (l : Nat) (x : Lane) : (c.setLane l x).watches = c.watches := rfl
@[simp] theorem setLane_guards (l : Nat) (x : Lane) : (c.setLane l x).guards = c.guards := rfl
@[simp] theorem setLane_merges (l : Nat) (x : Lane) : (c.setLane l x).merges = c.merges := rfl
@[simp] theorem setLane_pad (l : Nat) (x : Lane) : (c.setLane l x).pad = c.pad := rfl
@[simp] theorem setLane_kept (l : Nat) (x : Lane) : (c.setLane l x).kept = c.kept := rfl
@[simp] theorem setLane_grants (l : Nat) (x : Lane) : (c.setLane l x).grants = c.grants := rfl
@[simp] theorem setLane_cseq (l : Nat) (x : Lane) : (c.setLane l x).cseq = c.cseq := rfl
@[simp] theorem setLane_quietUpTo (l : Nat) (x : Lane) : (c.setLane l x).quietUpTo = c.quietUpTo := rfl
@[simp] theorem setLane_known (l : Nat) (x : Lane) : (c.setLane l x).known = c.known := rfl
@[simp] theorem setLane_closed (l : Nat) (x : Lane) : (c.setLane l x).closed = c.closed := rfl
@[simp] theorem setLane_reqs (l : Nat) (x : Lane) : (c.setLane l x).reqs = c.reqs := rfl
@[simp] theorem setLane_div (l : Nat) (x : Lane) : (c.setLane l x).div = c.div := rfl
@[simp] theorem setLane_fdiv (l : Nat) (x : Lane) : (c.setLane l x).fdiv = c.fdiv := rfl
@[simp] theorem setLane_copyq (l : Nat) (x : Lane) : (c.setLane l x).copyq = c.copyq := rfl
@[simp] theorem setLane_sampq (l : Nat) (x : Lane) : (c.setLane l x).sampq = c.sampq := rfl
@[simp] theorem setLane_fwd (l : Nat) (x : Lane) : (c.setLane l x).fwd = c.fwd := rfl
@[simp] theorem setLane_weaves (l : Nat) (x : Lane) : (c.setLane l x).weaves = c.weaves := rfl
@[simp] theorem setLane_tlb (l : Nat) (x : Lane) : (c.setLane l x).tlb = c.tlb := rfl
@[simp] theorem setLane_carve (l : Nat) (x : Lane) : (c.setLane l x).carve = c.carve := rfl
@[simp] theorem setLane_ovfl (l : Nat) (x : Lane) : (c.setLane l x).ovfl = c.ovfl := rfl
@[simp] theorem setLane_eswin (l : Nat) (x : Lane) : (c.setLane l x).eswin = c.eswin := rfl
@[simp] theorem setLane_espos (l : Nat) (x : Lane) : (c.setLane l x).espos = c.espos := rfl
@[simp] theorem setLane_esthr (l : Nat) (x : Lane) : (c.setLane l x).esthr = c.esthr := rfl
@[simp] theorem setLane_escnt (l : Nat) (x : Lane) : (c.setLane l x).escnt = c.escnt := rfl
@[simp] theorem setLane_crossed (l : Nat) (x : Lane) : (c.setLane l x).crossed = c.crossed := rfl
@[simp] theorem setLane_trapDue (l : Nat) (x : Lane) : (c.setLane l x).trapDue = c.trapDue := rfl
@[simp] theorem setLane_offer (l : Nat) (x : Lane) : (c.setLane l x).offer = c.offer := rfl
@[simp] theorem setLane_passed (l : Nat) (x : Lane) : (c.setLane l x).passed = c.passed := rfl
@[simp] theorem setLane_debug (l : Nat) (x : Lane) : (c.setLane l x).dbg = c.dbg := rfl

@[simp] theorem coreQueue_ctx (q : Nat) (x : Queue) : (c.setQueue q x).ctx = c.ctx := rfl
@[simp] theorem coreQueue_coreid (q : Nat) (x : Queue) : (c.setQueue q x).coreid = c.coreid := rfl
@[simp] theorem coreQueue_frames (q : Nat) (x : Queue) : (c.setQueue q x).frames = c.frames := rfl
@[simp] theorem coreQueue_lanes (q : Nat) (x : Queue) : (c.setQueue q x).lanes = c.lanes := rfl
@[simp] theorem coreQueue_w (q : Nat) (x : Queue) : (c.setQueue q x).w = c.w := rfl
@[simp] theorem coreQueue_long (q : Nat) (x : Queue) : (c.setQueue q x).long = c.long := rfl
@[simp] theorem coreQueue_arrivals (q : Nat) (x : Queue) : (c.setQueue q x).arrivals = c.arrivals := rfl
@[simp] theorem coreQueue_pushes (q : Nat) (x : Queue) : (c.setQueue q x).pushes = c.pushes := rfl
@[simp] theorem coreQueue_watches (q : Nat) (x : Queue) : (c.setQueue q x).watches = c.watches := rfl
@[simp] theorem coreQueue_guards (q : Nat) (x : Queue) : (c.setQueue q x).guards = c.guards := rfl
@[simp] theorem coreQueue_merges (q : Nat) (x : Queue) : (c.setQueue q x).merges = c.merges := rfl
@[simp] theorem coreQueue_pad (q : Nat) (x : Queue) : (c.setQueue q x).pad = c.pad := rfl
@[simp] theorem coreQueue_kept (q : Nat) (x : Queue) : (c.setQueue q x).kept = c.kept := rfl
@[simp] theorem coreQueue_grants (q : Nat) (x : Queue) : (c.setQueue q x).grants = c.grants := rfl
@[simp] theorem coreQueue_cseq (q : Nat) (x : Queue) : (c.setQueue q x).cseq = c.cseq := rfl
@[simp] theorem coreQueue_quietUpTo (q : Nat) (x : Queue) : (c.setQueue q x).quietUpTo = c.quietUpTo := rfl
@[simp] theorem coreQueue_known (q : Nat) (x : Queue) : (c.setQueue q x).known = c.known := rfl
@[simp] theorem coreQueue_closed (q : Nat) (x : Queue) : (c.setQueue q x).closed = c.closed := rfl
@[simp] theorem coreQueue_reqs (q : Nat) (x : Queue) : (c.setQueue q x).reqs = c.reqs := rfl
@[simp] theorem coreQueue_div (q : Nat) (x : Queue) : (c.setQueue q x).div = c.div := rfl
@[simp] theorem coreQueue_fdiv (q : Nat) (x : Queue) : (c.setQueue q x).fdiv = c.fdiv := rfl
@[simp] theorem coreQueue_copyq (q : Nat) (x : Queue) : (c.setQueue q x).copyq = c.copyq := rfl
@[simp] theorem coreQueue_sampq (q : Nat) (x : Queue) : (c.setQueue q x).sampq = c.sampq := rfl
@[simp] theorem coreQueue_fwd (q : Nat) (x : Queue) : (c.setQueue q x).fwd = c.fwd := rfl
@[simp] theorem coreQueue_weaves (q : Nat) (x : Queue) : (c.setQueue q x).weaves = c.weaves := rfl
@[simp] theorem coreQueue_tlb (q : Nat) (x : Queue) : (c.setQueue q x).tlb = c.tlb := rfl
@[simp] theorem coreQueue_carve (q : Nat) (x : Queue) : (c.setQueue q x).carve = c.carve := rfl
@[simp] theorem coreQueue_ovfl (q : Nat) (x : Queue) : (c.setQueue q x).ovfl = c.ovfl := rfl
@[simp] theorem coreQueue_eswin (q : Nat) (x : Queue) : (c.setQueue q x).eswin = c.eswin := rfl
@[simp] theorem coreQueue_espos (q : Nat) (x : Queue) : (c.setQueue q x).espos = c.espos := rfl
@[simp] theorem coreQueue_esthr (q : Nat) (x : Queue) : (c.setQueue q x).esthr = c.esthr := rfl
@[simp] theorem coreQueue_escnt (q : Nat) (x : Queue) : (c.setQueue q x).escnt = c.escnt := rfl
@[simp] theorem coreQueue_crossed (q : Nat) (x : Queue) : (c.setQueue q x).crossed = c.crossed := rfl
@[simp] theorem coreQueue_trapDue (q : Nat) (x : Queue) : (c.setQueue q x).trapDue = c.trapDue := rfl
@[simp] theorem coreQueue_offer (q : Nat) (x : Queue) : (c.setQueue q x).offer = c.offer := rfl
@[simp] theorem coreQueue_passed (q : Nat) (x : Queue) : (c.setQueue q x).passed = c.passed := rfl
@[simp] theorem coreQueue_debug (q : Nat) (x : Queue) : (c.setQueue q x).dbg = c.dbg := rfl

@[simp] theorem setTop_ctx (f : Frame) : (c.setTop f).ctx = c.ctx := rfl
@[simp] theorem setTop_coreid (f : Frame) : (c.setTop f).coreid = c.coreid := rfl
@[simp] theorem setTop_lanes (f : Frame) : (c.setTop f).lanes = c.lanes := rfl
@[simp] theorem setTop_w (f : Frame) : (c.setTop f).w = c.w := rfl
@[simp] theorem setTop_long (f : Frame) : (c.setTop f).long = c.long := rfl
@[simp] theorem setTop_queues (f : Frame) : (c.setTop f).queues = c.queues := rfl
@[simp] theorem setTop_arrivals (f : Frame) : (c.setTop f).arrivals = c.arrivals := rfl
@[simp] theorem setTop_pushes (f : Frame) : (c.setTop f).pushes = c.pushes := rfl
@[simp] theorem setTop_watches (f : Frame) : (c.setTop f).watches = c.watches := rfl
@[simp] theorem setTop_guards (f : Frame) : (c.setTop f).guards = c.guards := rfl
@[simp] theorem setTop_merges (f : Frame) : (c.setTop f).merges = c.merges := rfl
@[simp] theorem setTop_pad (f : Frame) : (c.setTop f).pad = c.pad := rfl
@[simp] theorem setTop_kept (f : Frame) : (c.setTop f).kept = c.kept := rfl
@[simp] theorem setTop_grants (f : Frame) : (c.setTop f).grants = c.grants := rfl
@[simp] theorem setTop_cseq (f : Frame) : (c.setTop f).cseq = c.cseq := rfl
@[simp] theorem setTop_quietUpTo (f : Frame) : (c.setTop f).quietUpTo = c.quietUpTo := rfl
@[simp] theorem setTop_known (f : Frame) : (c.setTop f).known = c.known := rfl
@[simp] theorem setTop_closed (f : Frame) : (c.setTop f).closed = c.closed := rfl
@[simp] theorem setTop_reqs (f : Frame) : (c.setTop f).reqs = c.reqs := rfl
@[simp] theorem setTop_div (f : Frame) : (c.setTop f).div = c.div := rfl
@[simp] theorem setTop_fdiv (f : Frame) : (c.setTop f).fdiv = c.fdiv := rfl
@[simp] theorem setTop_copyq (f : Frame) : (c.setTop f).copyq = c.copyq := rfl
@[simp] theorem setTop_sampq (f : Frame) : (c.setTop f).sampq = c.sampq := rfl
@[simp] theorem setTop_fwd (f : Frame) : (c.setTop f).fwd = c.fwd := rfl
@[simp] theorem setTop_weaves (f : Frame) : (c.setTop f).weaves = c.weaves := rfl
@[simp] theorem setTop_tlb (f : Frame) : (c.setTop f).tlb = c.tlb := rfl
@[simp] theorem setTop_carve (f : Frame) : (c.setTop f).carve = c.carve := rfl
@[simp] theorem setTop_ovfl (f : Frame) : (c.setTop f).ovfl = c.ovfl := rfl
@[simp] theorem setTop_eswin (f : Frame) : (c.setTop f).eswin = c.eswin := rfl
@[simp] theorem setTop_espos (f : Frame) : (c.setTop f).espos = c.espos := rfl
@[simp] theorem setTop_esthr (f : Frame) : (c.setTop f).esthr = c.esthr := rfl
@[simp] theorem setTop_escnt (f : Frame) : (c.setTop f).escnt = c.escnt := rfl
@[simp] theorem setTop_crossed (f : Frame) : (c.setTop f).crossed = c.crossed := rfl
@[simp] theorem setTop_trapDue (f : Frame) : (c.setTop f).trapDue = c.trapDue := rfl
@[simp] theorem setTop_offer (f : Frame) : (c.setTop f).offer = c.offer := rfl
@[simp] theorem setTop_passed (f : Frame) : (c.setTop f).passed = c.passed := rfl
@[simp] theorem setTop_debug (f : Frame) : (c.setTop f).dbg = c.dbg := rfl

@[simp] theorem onFrame_ctx (u : Nat) (g : Frame → Frame) : (c.onFrame u g).ctx = c.ctx := rfl
@[simp] theorem onFrame_coreid (u : Nat) (g : Frame → Frame) : (c.onFrame u g).coreid = c.coreid := rfl
@[simp] theorem onFrame_lanes (u : Nat) (g : Frame → Frame) : (c.onFrame u g).lanes = c.lanes := rfl
@[simp] theorem onFrame_w (u : Nat) (g : Frame → Frame) : (c.onFrame u g).w = c.w := rfl
@[simp] theorem onFrame_long (u : Nat) (g : Frame → Frame) : (c.onFrame u g).long = c.long := rfl
@[simp] theorem onFrame_queues (u : Nat) (g : Frame → Frame) : (c.onFrame u g).queues = c.queues := rfl
@[simp] theorem onFrame_arrivals (u : Nat) (g : Frame → Frame) : (c.onFrame u g).arrivals = c.arrivals := rfl
@[simp] theorem onFrame_pushes (u : Nat) (g : Frame → Frame) : (c.onFrame u g).pushes = c.pushes := rfl
@[simp] theorem onFrame_watches (u : Nat) (g : Frame → Frame) : (c.onFrame u g).watches = c.watches := rfl
@[simp] theorem onFrame_guards (u : Nat) (g : Frame → Frame) : (c.onFrame u g).guards = c.guards := rfl
@[simp] theorem onFrame_merges (u : Nat) (g : Frame → Frame) : (c.onFrame u g).merges = c.merges := rfl
@[simp] theorem onFrame_pad (u : Nat) (g : Frame → Frame) : (c.onFrame u g).pad = c.pad := rfl
@[simp] theorem onFrame_kept (u : Nat) (g : Frame → Frame) : (c.onFrame u g).kept = c.kept := rfl
@[simp] theorem onFrame_grants (u : Nat) (g : Frame → Frame) : (c.onFrame u g).grants = c.grants := rfl
@[simp] theorem onFrame_cseq (u : Nat) (g : Frame → Frame) : (c.onFrame u g).cseq = c.cseq := rfl
@[simp] theorem onFrame_quietUpTo (u : Nat) (g : Frame → Frame) : (c.onFrame u g).quietUpTo = c.quietUpTo := rfl
@[simp] theorem onFrame_known (u : Nat) (g : Frame → Frame) : (c.onFrame u g).known = c.known := rfl
@[simp] theorem onFrame_closed (u : Nat) (g : Frame → Frame) : (c.onFrame u g).closed = c.closed := rfl
@[simp] theorem onFrame_reqs (u : Nat) (g : Frame → Frame) : (c.onFrame u g).reqs = c.reqs := rfl
@[simp] theorem onFrame_div (u : Nat) (g : Frame → Frame) : (c.onFrame u g).div = c.div := rfl
@[simp] theorem onFrame_fdiv (u : Nat) (g : Frame → Frame) : (c.onFrame u g).fdiv = c.fdiv := rfl
@[simp] theorem onFrame_copyq (u : Nat) (g : Frame → Frame) : (c.onFrame u g).copyq = c.copyq := rfl
@[simp] theorem onFrame_sampq (u : Nat) (g : Frame → Frame) : (c.onFrame u g).sampq = c.sampq := rfl
@[simp] theorem onFrame_fwd (u : Nat) (g : Frame → Frame) : (c.onFrame u g).fwd = c.fwd := rfl
@[simp] theorem onFrame_weaves (u : Nat) (g : Frame → Frame) : (c.onFrame u g).weaves = c.weaves := rfl
@[simp] theorem onFrame_tlb (u : Nat) (g : Frame → Frame) : (c.onFrame u g).tlb = c.tlb := rfl
@[simp] theorem onFrame_carve (u : Nat) (g : Frame → Frame) : (c.onFrame u g).carve = c.carve := rfl
@[simp] theorem onFrame_ovfl (u : Nat) (g : Frame → Frame) : (c.onFrame u g).ovfl = c.ovfl := rfl
@[simp] theorem onFrame_eswin (u : Nat) (g : Frame → Frame) : (c.onFrame u g).eswin = c.eswin := rfl
@[simp] theorem onFrame_espos (u : Nat) (g : Frame → Frame) : (c.onFrame u g).espos = c.espos := rfl
@[simp] theorem onFrame_esthr (u : Nat) (g : Frame → Frame) : (c.onFrame u g).esthr = c.esthr := rfl
@[simp] theorem onFrame_escnt (u : Nat) (g : Frame → Frame) : (c.onFrame u g).escnt = c.escnt := rfl
@[simp] theorem onFrame_crossed (u : Nat) (g : Frame → Frame) : (c.onFrame u g).crossed = c.crossed := rfl
@[simp] theorem onFrame_trapDue (u : Nat) (g : Frame → Frame) : (c.onFrame u g).trapDue = c.trapDue := rfl
@[simp] theorem onFrame_offer (u : Nat) (g : Frame → Frame) : (c.onFrame u g).offer = c.offer := rfl
@[simp] theorem onFrame_passed (u : Nat) (g : Frame → Frame) : (c.onFrame u g).passed = c.passed := rfl
@[simp] theorem onFrame_debug (u : Nat) (g : Frame → Frame) : (c.onFrame u g).dbg = c.dbg := rfl

@[simp] theorem setV_ctx (l : Nat) (r : VReg) (v : BitVec 256) : (c.setV l r v).ctx = c.ctx := rfl
@[simp] theorem setV_coreid (l : Nat) (r : VReg) (v : BitVec 256) : (c.setV l r v).coreid = c.coreid := rfl
@[simp] theorem setV_frames (l : Nat) (r : VReg) (v : BitVec 256) : (c.setV l r v).frames = c.frames := rfl
@[simp] theorem setV_w (l : Nat) (r : VReg) (v : BitVec 256) : (c.setV l r v).w = c.w := rfl
@[simp] theorem setV_long (l : Nat) (r : VReg) (v : BitVec 256) : (c.setV l r v).long = c.long := rfl
@[simp] theorem setV_queues (l : Nat) (r : VReg) (v : BitVec 256) : (c.setV l r v).queues = c.queues := rfl
@[simp] theorem setV_arrivals (l : Nat) (r : VReg) (v : BitVec 256) : (c.setV l r v).arrivals = c.arrivals := rfl
@[simp] theorem setV_pushes (l : Nat) (r : VReg) (v : BitVec 256) : (c.setV l r v).pushes = c.pushes := rfl
@[simp] theorem setV_watches (l : Nat) (r : VReg) (v : BitVec 256) : (c.setV l r v).watches = c.watches := rfl
@[simp] theorem setV_guards (l : Nat) (r : VReg) (v : BitVec 256) : (c.setV l r v).guards = c.guards := rfl
@[simp] theorem setV_merges (l : Nat) (r : VReg) (v : BitVec 256) : (c.setV l r v).merges = c.merges := rfl
@[simp] theorem setV_pad (l : Nat) (r : VReg) (v : BitVec 256) : (c.setV l r v).pad = c.pad := rfl
@[simp] theorem setV_kept (l : Nat) (r : VReg) (v : BitVec 256) : (c.setV l r v).kept = c.kept := rfl
@[simp] theorem setV_grants (l : Nat) (r : VReg) (v : BitVec 256) : (c.setV l r v).grants = c.grants := rfl
@[simp] theorem setV_cseq (l : Nat) (r : VReg) (v : BitVec 256) : (c.setV l r v).cseq = c.cseq := rfl
@[simp] theorem setV_quietUpTo (l : Nat) (r : VReg) (v : BitVec 256) : (c.setV l r v).quietUpTo = c.quietUpTo := rfl
@[simp] theorem setV_known (l : Nat) (r : VReg) (v : BitVec 256) : (c.setV l r v).known = c.known := rfl
@[simp] theorem setV_closed (l : Nat) (r : VReg) (v : BitVec 256) : (c.setV l r v).closed = c.closed := rfl
@[simp] theorem setV_reqs (l : Nat) (r : VReg) (v : BitVec 256) : (c.setV l r v).reqs = c.reqs := rfl
@[simp] theorem setV_div (l : Nat) (r : VReg) (v : BitVec 256) : (c.setV l r v).div = c.div := rfl
@[simp] theorem setV_fdiv (l : Nat) (r : VReg) (v : BitVec 256) : (c.setV l r v).fdiv = c.fdiv := rfl
@[simp] theorem setV_copyq (l : Nat) (r : VReg) (v : BitVec 256) : (c.setV l r v).copyq = c.copyq := rfl
@[simp] theorem setV_sampq (l : Nat) (r : VReg) (v : BitVec 256) : (c.setV l r v).sampq = c.sampq := rfl
@[simp] theorem setV_fwd (l : Nat) (r : VReg) (v : BitVec 256) : (c.setV l r v).fwd = c.fwd := rfl
@[simp] theorem setV_weaves (l : Nat) (r : VReg) (v : BitVec 256) : (c.setV l r v).weaves = c.weaves := rfl
@[simp] theorem setV_tlb (l : Nat) (r : VReg) (v : BitVec 256) : (c.setV l r v).tlb = c.tlb := rfl
@[simp] theorem setV_carve (l : Nat) (r : VReg) (v : BitVec 256) : (c.setV l r v).carve = c.carve := rfl
@[simp] theorem setV_ovfl (l : Nat) (r : VReg) (v : BitVec 256) : (c.setV l r v).ovfl = c.ovfl := rfl
@[simp] theorem setV_eswin (l : Nat) (r : VReg) (v : BitVec 256) : (c.setV l r v).eswin = c.eswin := rfl
@[simp] theorem setV_espos (l : Nat) (r : VReg) (v : BitVec 256) : (c.setV l r v).espos = c.espos := rfl
@[simp] theorem setV_esthr (l : Nat) (r : VReg) (v : BitVec 256) : (c.setV l r v).esthr = c.esthr := rfl
@[simp] theorem setV_escnt (l : Nat) (r : VReg) (v : BitVec 256) : (c.setV l r v).escnt = c.escnt := rfl
@[simp] theorem setV_crossed (l : Nat) (r : VReg) (v : BitVec 256) : (c.setV l r v).crossed = c.crossed := rfl
@[simp] theorem setV_trapDue (l : Nat) (r : VReg) (v : BitVec 256) : (c.setV l r v).trapDue = c.trapDue := rfl
@[simp] theorem setV_offer (l : Nat) (r : VReg) (v : BitVec 256) : (c.setV l r v).offer = c.offer := rfl
@[simp] theorem setV_passed (l : Nat) (r : VReg) (v : BitVec 256) : (c.setV l r v).passed = c.passed := rfl
@[simp] theorem setV_debug (l : Nat) (r : VReg) (v : BitVec 256) : (c.setV l r v).dbg = c.dbg := rfl

@[simp] theorem setW_ctx (r : VReg) (v : BitVec 2048) : (c.setW r v).ctx = c.ctx := rfl
@[simp] theorem setW_coreid (r : VReg) (v : BitVec 2048) : (c.setW r v).coreid = c.coreid := rfl
@[simp] theorem setW_frames (r : VReg) (v : BitVec 2048) : (c.setW r v).frames = c.frames := rfl
@[simp] theorem setW_lanes (r : VReg) (v : BitVec 2048) : (c.setW r v).lanes = c.lanes := rfl
@[simp] theorem setW_long (r : VReg) (v : BitVec 2048) : (c.setW r v).long = c.long := rfl
@[simp] theorem setW_queues (r : VReg) (v : BitVec 2048) : (c.setW r v).queues = c.queues := rfl
@[simp] theorem setW_arrivals (r : VReg) (v : BitVec 2048) : (c.setW r v).arrivals = c.arrivals := rfl
@[simp] theorem setW_pushes (r : VReg) (v : BitVec 2048) : (c.setW r v).pushes = c.pushes := rfl
@[simp] theorem setW_watches (r : VReg) (v : BitVec 2048) : (c.setW r v).watches = c.watches := rfl
@[simp] theorem setW_guards (r : VReg) (v : BitVec 2048) : (c.setW r v).guards = c.guards := rfl
@[simp] theorem setW_merges (r : VReg) (v : BitVec 2048) : (c.setW r v).merges = c.merges := rfl
@[simp] theorem setW_pad (r : VReg) (v : BitVec 2048) : (c.setW r v).pad = c.pad := rfl
@[simp] theorem setW_kept (r : VReg) (v : BitVec 2048) : (c.setW r v).kept = c.kept := rfl
@[simp] theorem setW_grants (r : VReg) (v : BitVec 2048) : (c.setW r v).grants = c.grants := rfl
@[simp] theorem setW_cseq (r : VReg) (v : BitVec 2048) : (c.setW r v).cseq = c.cseq := rfl
@[simp] theorem setW_quietUpTo (r : VReg) (v : BitVec 2048) : (c.setW r v).quietUpTo = c.quietUpTo := rfl
@[simp] theorem setW_known (r : VReg) (v : BitVec 2048) : (c.setW r v).known = c.known := rfl
@[simp] theorem setW_closed (r : VReg) (v : BitVec 2048) : (c.setW r v).closed = c.closed := rfl
@[simp] theorem setW_reqs (r : VReg) (v : BitVec 2048) : (c.setW r v).reqs = c.reqs := rfl
@[simp] theorem setW_div (r : VReg) (v : BitVec 2048) : (c.setW r v).div = c.div := rfl
@[simp] theorem setW_fdiv (r : VReg) (v : BitVec 2048) : (c.setW r v).fdiv = c.fdiv := rfl
@[simp] theorem setW_copyq (r : VReg) (v : BitVec 2048) : (c.setW r v).copyq = c.copyq := rfl
@[simp] theorem setW_sampq (r : VReg) (v : BitVec 2048) : (c.setW r v).sampq = c.sampq := rfl
@[simp] theorem setW_fwd (r : VReg) (v : BitVec 2048) : (c.setW r v).fwd = c.fwd := rfl
@[simp] theorem setW_weaves (r : VReg) (v : BitVec 2048) : (c.setW r v).weaves = c.weaves := rfl
@[simp] theorem setW_tlb (r : VReg) (v : BitVec 2048) : (c.setW r v).tlb = c.tlb := rfl
@[simp] theorem setW_carve (r : VReg) (v : BitVec 2048) : (c.setW r v).carve = c.carve := rfl
@[simp] theorem setW_ovfl (r : VReg) (v : BitVec 2048) : (c.setW r v).ovfl = c.ovfl := rfl
@[simp] theorem setW_eswin (r : VReg) (v : BitVec 2048) : (c.setW r v).eswin = c.eswin := rfl
@[simp] theorem setW_espos (r : VReg) (v : BitVec 2048) : (c.setW r v).espos = c.espos := rfl
@[simp] theorem setW_esthr (r : VReg) (v : BitVec 2048) : (c.setW r v).esthr = c.esthr := rfl
@[simp] theorem setW_escnt (r : VReg) (v : BitVec 2048) : (c.setW r v).escnt = c.escnt := rfl
@[simp] theorem setW_crossed (r : VReg) (v : BitVec 2048) : (c.setW r v).crossed = c.crossed := rfl
@[simp] theorem setW_trapDue (r : VReg) (v : BitVec 2048) : (c.setW r v).trapDue = c.trapDue := rfl
@[simp] theorem setW_offer (r : VReg) (v : BitVec 2048) : (c.setW r v).offer = c.offer := rfl
@[simp] theorem setW_passed (r : VReg) (v : BitVec 2048) : (c.setW r v).passed = c.passed := rfl
@[simp] theorem setW_debug (r : VReg) (v : BitVec 2048) : (c.setW r v).dbg = c.dbg := rfl

@[simp] theorem padWrite_ctx (a : Nat) (bs : List Byte) : (c.padWrite a bs).ctx = c.ctx := rfl
@[simp] theorem padWrite_coreid (a : Nat) (bs : List Byte) : (c.padWrite a bs).coreid = c.coreid := rfl
@[simp] theorem padWrite_frames (a : Nat) (bs : List Byte) : (c.padWrite a bs).frames = c.frames := rfl
@[simp] theorem padWrite_lanes (a : Nat) (bs : List Byte) : (c.padWrite a bs).lanes = c.lanes := rfl
@[simp] theorem padWrite_w (a : Nat) (bs : List Byte) : (c.padWrite a bs).w = c.w := rfl
@[simp] theorem padWrite_long (a : Nat) (bs : List Byte) : (c.padWrite a bs).long = c.long := rfl
@[simp] theorem padWrite_queues (a : Nat) (bs : List Byte) : (c.padWrite a bs).queues = c.queues := rfl
@[simp] theorem padWrite_arrivals (a : Nat) (bs : List Byte) : (c.padWrite a bs).arrivals = c.arrivals := rfl
@[simp] theorem padWrite_pushes (a : Nat) (bs : List Byte) : (c.padWrite a bs).pushes = c.pushes := rfl
@[simp] theorem padWrite_watches (a : Nat) (bs : List Byte) : (c.padWrite a bs).watches = c.watches := rfl
@[simp] theorem padWrite_guards (a : Nat) (bs : List Byte) : (c.padWrite a bs).guards = c.guards := rfl
@[simp] theorem padWrite_merges (a : Nat) (bs : List Byte) : (c.padWrite a bs).merges = c.merges := rfl
@[simp] theorem padWrite_kept (a : Nat) (bs : List Byte) : (c.padWrite a bs).kept = c.kept := rfl
@[simp] theorem padWrite_grants (a : Nat) (bs : List Byte) : (c.padWrite a bs).grants = c.grants := rfl
@[simp] theorem padWrite_cseq (a : Nat) (bs : List Byte) : (c.padWrite a bs).cseq = c.cseq := rfl
@[simp] theorem padWrite_quietUpTo (a : Nat) (bs : List Byte) : (c.padWrite a bs).quietUpTo = c.quietUpTo := rfl
@[simp] theorem padWrite_known (a : Nat) (bs : List Byte) : (c.padWrite a bs).known = c.known := rfl
@[simp] theorem padWrite_closed (a : Nat) (bs : List Byte) : (c.padWrite a bs).closed = c.closed := rfl
@[simp] theorem padWrite_reqs (a : Nat) (bs : List Byte) : (c.padWrite a bs).reqs = c.reqs := rfl
@[simp] theorem padWrite_div (a : Nat) (bs : List Byte) : (c.padWrite a bs).div = c.div := rfl
@[simp] theorem padWrite_fdiv (a : Nat) (bs : List Byte) : (c.padWrite a bs).fdiv = c.fdiv := rfl
@[simp] theorem padWrite_copyq (a : Nat) (bs : List Byte) : (c.padWrite a bs).copyq = c.copyq := rfl
@[simp] theorem padWrite_sampq (a : Nat) (bs : List Byte) : (c.padWrite a bs).sampq = c.sampq := rfl
@[simp] theorem padWrite_fwd (a : Nat) (bs : List Byte) : (c.padWrite a bs).fwd = c.fwd := rfl
@[simp] theorem padWrite_weaves (a : Nat) (bs : List Byte) : (c.padWrite a bs).weaves = c.weaves := rfl
@[simp] theorem padWrite_tlb (a : Nat) (bs : List Byte) : (c.padWrite a bs).tlb = c.tlb := rfl
@[simp] theorem padWrite_carve (a : Nat) (bs : List Byte) : (c.padWrite a bs).carve = c.carve := rfl
@[simp] theorem padWrite_ovfl (a : Nat) (bs : List Byte) : (c.padWrite a bs).ovfl = c.ovfl := rfl
@[simp] theorem padWrite_eswin (a : Nat) (bs : List Byte) : (c.padWrite a bs).eswin = c.eswin := rfl
@[simp] theorem padWrite_espos (a : Nat) (bs : List Byte) : (c.padWrite a bs).espos = c.espos := rfl
@[simp] theorem padWrite_esthr (a : Nat) (bs : List Byte) : (c.padWrite a bs).esthr = c.esthr := rfl
@[simp] theorem padWrite_escnt (a : Nat) (bs : List Byte) : (c.padWrite a bs).escnt = c.escnt := rfl
@[simp] theorem padWrite_crossed (a : Nat) (bs : List Byte) : (c.padWrite a bs).crossed = c.crossed := rfl
@[simp] theorem padWrite_trapDue (a : Nat) (bs : List Byte) : (c.padWrite a bs).trapDue = c.trapDue := rfl
@[simp] theorem padWrite_offer (a : Nat) (bs : List Byte) : (c.padWrite a bs).offer = c.offer := rfl
@[simp] theorem padWrite_passed (a : Nat) (bs : List Byte) : (c.padWrite a bs).passed = c.passed := rfl
@[simp] theorem padWrite_debug (a : Nat) (bs : List Byte) : (c.padWrite a bs).dbg = c.dbg := rfl

@[simp] theorem setTop_frames (f : Frame) : (c.setTop f).frames = f :: c.frames.tail := rfl
@[simp] theorem lane_setLane_same (l : Nat) (x : Lane) : (c.setLane l x).lane l = x := fget_fset_same _ _ _ _
theorem lane_setLane_ne (l : Nat) (x : Lane) {k : Nat} (h : k ≠ l) : (c.setLane l x).lane k = c.lane k := fget_fset_ne _ _ _ h
@[simp] theorem coreQueue_same (q : Nat) (x : Queue) : (c.setQueue q x).queue q = x := fget_fset_same _ _ _ _
theorem coreQueue_ne (q : Nat) (x : Queue) {k : Nat} (h : k ≠ q) : (c.setQueue q x).queue k = c.queue k := fget_fset_ne _ _ _ h

/-! ## The scratchpad -/

/-- Reading back bytes of the scratchpad gives what was written. -/
theorem padRead_padWrite (a : Nat) (bs : List Byte) : (c.padWrite a bs).padRead a bs.length = bs := fgetAll_fsetAll 0 bs _ _
/-- A scratchpad write leaves every byte outside it alone. -/
theorem padWrite_out (a : Nat) (bs : List Byte) {k : Nat} (h : k < a ∨ a + bs.length ≤ k) :
    fget 0 (c.padWrite a bs).pad k = fget 0 c.pad k := fget_fsetAll_out 0 bs _ _ _ h
theorem padWrite_wf (a : Nat) (bs : List Byte) (h : mapWf 0 c.pad = true) : mapWf 0 (c.padWrite a bs).pad = true :=
  mapWf_fsetAll 0 bs _ _ h

/-! ## Registers -/

/-- `g0` reads as zero whatever is written (R112). -/
@[simp] theorem getG_zero : f.getG 0#5 = 0#64 := rfl
@[simp] theorem setG_zero (v : Word) : f.setG 0#5 v = f := rfl
@[simp] theorem getP_zero : f.getP 0#3 = true := rfl
@[simp] theorem setP_zero (v : Bool) : f.setP 0#3 v = f := rfl

theorem toNat_ne {w : Nat} {r q : BitVec w} (h : q ≠ r) : q.toNat ≠ r.toNat := fun e => h (BitVec.eq_of_toNat_eq e)

theorem getG_setG_same {r : GReg} (v : Word) (h : r ≠ 0) : (f.setG r v).getG r = v := by
  unfold Frame.setG Frame.getG
  rw [if_neg h, if_neg h]
  exact fget_fset_same _ _ _ _
theorem getG_setG_ne {r q : GReg} (v : Word) (h : q ≠ r) : (f.setG r v).getG q = f.getG q := by
  by_cases hr : r = 0
  · rw [hr]; rfl
  · unfold Frame.setG Frame.getG
    rw [if_neg hr]
    split
    · rfl
    · exact fget_fset_ne _ _ _ (toNat_ne h)
theorem getA_setA_same (r : AReg) (v : BitVec 32) : (f.setA r v).getA r = v := fget_fset_same _ _ _ _
theorem getA_setA_ne {r q : AReg} (v : BitVec 32) (h : q ≠ r) : (f.setA r v).getA q = f.getA q := fget_fset_ne _ _ _ (toNat_ne h)

theorem putBit_same (p : BitVec 8) (r : PReg) (v : Bool) : (putBit p r.toNat v).getLsbD r.toNat = v := by
  have h : r.toNat < 8 := r.isLt
  cases v <;> simp [putBit, h]
theorem putBit_ne (p : BitVec 8) {r q : PReg} (v : Bool) (h : q ≠ r) : (putBit p r.toNat v).getLsbD q.toNat = p.getLsbD q.toNat := by
  have hq : q.toNat < 8 := q.isLt
  have hn : q.toNat ≠ r.toNat := toNat_ne h
  rcases Nat.lt_or_gt_of_ne hn with hl | hl
  · cases v <;> simp [putBit, hq, hl]
  · have h0 : ¬ q.toNat < r.toNat := by omega
    have h1 : q.toNat - r.toNat ≠ 0 := by omega
    cases v <;> simp [putBit, hq, h0, h1]
theorem getP_setP_same {r : PReg} (v : Bool) (h : r ≠ 0) : (f.setP r v).getP r = v := by
  have h0 : (r == 0) = false := by simpa using h
  unfold Frame.setP Frame.getP
  rw [if_neg h, h0]
  exact putBit_same _ _ _
theorem getP_setP_ne {r q : PReg} (v : Bool) (h : q ≠ r) : (f.setP r v).getP q = f.getP q := by
  by_cases hr : r = 0
  · rw [hr]; rfl
  · unfold Frame.setP Frame.getP
    rw [if_neg hr]
    exact congrArg _ (putBit_ne _ v h)

@[simp] theorem setG_uid (r : GReg) (v : Word) : (f.setG r v).uid = f.uid := by unfold Frame.setG; split <;> rfl
@[simp] theorem setG_task (r : GReg) (v : Word) : (f.setG r v).task = f.task := by unfold Frame.setG; split <;> rfl
@[simp] theorem setG_prio (r : GReg) (v : Word) : (f.setG r v).prio = f.prio := by unfold Frame.setG; split <;> rfl
@[simp] theorem setG_lane (r : GReg) (v : Word) : (f.setG r v).lane = f.lane := by unfold Frame.setG; split <;> rfl
@[simp] theorem setG_lim (r : GReg) (v : Word) : (f.setG r v).lim = f.lim := by unfold Frame.setG; split <;> rfl
@[simp] theorem setG_pc (r : GReg) (v : Word) : (f.setG r v).pc = f.pc := by unfold Frame.setG; split <;> rfl
@[simp] theorem setG_a (r : GReg) (v : Word) : (f.setG r v).a = f.a := by unfold Frame.setG; split <;> rfl
@[simp] theorem setG_p (r : GReg) (v : Word) : (f.setG r v).p = f.p := by unfold Frame.setG; split <;> rfl
@[simp] theorem setG_stall (r : GReg) (v : Word) : (f.setG r v).stall = f.stall := by unfold Frame.setG; split <;> rfl
@[simp] theorem setG_pend (r : GReg) (v : Word) : (f.setG r v).pend = f.pend := by unfold Frame.setG; split <;> rfl
@[simp] theorem setG_await (r : GReg) (v : Word) : (f.setG r v).await = f.await := by unfold Frame.setG; split <;> rfl
@[simp] theorem setG_claims (r : GReg) (v : Word) : (f.setG r v).claims = f.claims := by unfold Frame.setG; split <;> rfl
@[simp] theorem setG_pb (r : GReg) (v : Word) : (f.setG r v).pb = f.pb := by unfold Frame.setG; split <;> rfl
@[simp] theorem setG_need (r : GReg) (v : Word) : (f.setG r v).need = f.need := by unfold Frame.setG; split <;> rfl
@[simp] theorem setG_schk (r : GReg) (v : Word) : (f.setG r v).schk = f.schk := by unfold Frame.setG; split <;> rfl
@[simp] theorem setG_geom (r : GReg) (v : Word) : (f.setG r v).geom = f.geom := by unfold Frame.setG; split <;> rfl
@[simp] theorem setG_priv (r : GReg) (v : Word) : (f.setG r v).priv = f.priv := by unfold Frame.setG; split <;> rfl
@[simp] theorem setG_tcause (r : GReg) (v : Word) : (f.setG r v).tcause = f.tcause := by unfold Frame.setG; split <;> rfl
@[simp] theorem setG_tpc (r : GReg) (v : Word) : (f.setG r v).tpc = f.tpc := by unfold Frame.setG; split <;> rfl
@[simp] theorem setG_tval (r : GReg) (v : Word) : (f.setG r v).tval = f.tval := by unfold Frame.setG; split <;> rfl
@[simp] theorem setG_tinsn0 (r : GReg) (v : Word) : (f.setG r v).tinsn0 = f.tinsn0 := by unfold Frame.setG; split <;> rfl
@[simp] theorem setG_tinsn1 (r : GReg) (v : Word) : (f.setG r v).tinsn1 = f.tinsn1 := by unfold Frame.setG; split <;> rfl
@[simp] theorem setG_tsave (r : GReg) (v : Word) : (f.setG r v).tsave = f.tsave := by unfold Frame.setG; split <;> rfl
@[simp] theorem setG_view (r : GReg) (v : Word) : (f.setG r v).view = f.view := by unfold Frame.setG; split <;> rfl
@[simp] theorem setG_asked (r : GReg) (v : Word) : (f.setG r v).asked = f.asked := by unfold Frame.setG; split <;> rfl
@[simp] theorem setG_bundle (r : GReg) (v : Word) : (f.setG r v).bundle = f.bundle := by unfold Frame.setG; split <;> rfl
@[simp] theorem setG_spawnK (r : GReg) (v : Word) : (f.setG r v).spawnK = f.spawnK := by unfold Frame.setG; split <;> rfl
@[simp] theorem setG_horizon (r : GReg) (v : Word) : (f.setG r v).horizon = f.horizon := by unfold Frame.setG; split <;> rfl
@[simp] theorem setG_long (r : GReg) (v : Word) : (f.setG r v).long = f.long := by unfold Frame.setG; split <;> rfl
@[simp] theorem setG_deferred (r : GReg) (v : Word) : (f.setG r v).deferred = f.deferred := by unfold Frame.setG; split <;> rfl
@[simp] theorem setG_settleWait (r : GReg) (v : Word) : (f.setG r v).settleWait = f.settleWait := by unfold Frame.setG; split <;> rfl
@[simp] theorem setG_bundles (r : GReg) (v : Word) : (f.setG r v).bundles = f.bundles := by unfold Frame.setG; split <;> rfl
@[simp] theorem setG_samp (r : GReg) (v : Word) : (f.setG r v).samp = f.samp := by unfold Frame.setG; split <;> rfl
@[simp] theorem setG_seen (r : GReg) (v : Word) : (f.setG r v).seen = f.seen := by unfold Frame.setG; split <;> rfl
@[simp] theorem setG_window (r : GReg) (v : Word) : (f.setG r v).window = f.window := by unfold Frame.setG; split <;> rfl
@[simp] theorem setG_arrived (r : GReg) (v : Word) : (f.setG r v).arrived = f.arrived := by unfold Frame.setG; split <;> rfl
@[simp] theorem setG_brkHalted (r : GReg) (v : Word) : (f.setG r v).brkHalted = f.brkHalted := by unfold Frame.setG; split <;> rfl

@[simp] theorem setP_uid (r : PReg) (v : Bool) : (f.setP r v).uid = f.uid := by unfold Frame.setP; split <;> rfl
@[simp] theorem setP_task (r : PReg) (v : Bool) : (f.setP r v).task = f.task := by unfold Frame.setP; split <;> rfl
@[simp] theorem setP_prio (r : PReg) (v : Bool) : (f.setP r v).prio = f.prio := by unfold Frame.setP; split <;> rfl
@[simp] theorem setP_lane (r : PReg) (v : Bool) : (f.setP r v).lane = f.lane := by unfold Frame.setP; split <;> rfl
@[simp] theorem setP_lim (r : PReg) (v : Bool) : (f.setP r v).lim = f.lim := by unfold Frame.setP; split <;> rfl
@[simp] theorem setP_pc (r : PReg) (v : Bool) : (f.setP r v).pc = f.pc := by unfold Frame.setP; split <;> rfl
@[simp] theorem setP_g (r : PReg) (v : Bool) : (f.setP r v).g = f.g := by unfold Frame.setP; split <;> rfl
@[simp] theorem setP_a (r : PReg) (v : Bool) : (f.setP r v).a = f.a := by unfold Frame.setP; split <;> rfl
@[simp] theorem setP_stall (r : PReg) (v : Bool) : (f.setP r v).stall = f.stall := by unfold Frame.setP; split <;> rfl
@[simp] theorem setP_pend (r : PReg) (v : Bool) : (f.setP r v).pend = f.pend := by unfold Frame.setP; split <;> rfl
@[simp] theorem setP_await (r : PReg) (v : Bool) : (f.setP r v).await = f.await := by unfold Frame.setP; split <;> rfl
@[simp] theorem setP_claims (r : PReg) (v : Bool) : (f.setP r v).claims = f.claims := by unfold Frame.setP; split <;> rfl
@[simp] theorem setP_pb (r : PReg) (v : Bool) : (f.setP r v).pb = f.pb := by unfold Frame.setP; split <;> rfl
@[simp] theorem setP_need (r : PReg) (v : Bool) : (f.setP r v).need = f.need := by unfold Frame.setP; split <;> rfl
@[simp] theorem setP_schk (r : PReg) (v : Bool) : (f.setP r v).schk = f.schk := by unfold Frame.setP; split <;> rfl
@[simp] theorem setP_geom (r : PReg) (v : Bool) : (f.setP r v).geom = f.geom := by unfold Frame.setP; split <;> rfl
@[simp] theorem setP_priv (r : PReg) (v : Bool) : (f.setP r v).priv = f.priv := by unfold Frame.setP; split <;> rfl
@[simp] theorem setP_tcause (r : PReg) (v : Bool) : (f.setP r v).tcause = f.tcause := by unfold Frame.setP; split <;> rfl
@[simp] theorem setP_tpc (r : PReg) (v : Bool) : (f.setP r v).tpc = f.tpc := by unfold Frame.setP; split <;> rfl
@[simp] theorem setP_tval (r : PReg) (v : Bool) : (f.setP r v).tval = f.tval := by unfold Frame.setP; split <;> rfl
@[simp] theorem setP_tinsn0 (r : PReg) (v : Bool) : (f.setP r v).tinsn0 = f.tinsn0 := by unfold Frame.setP; split <;> rfl
@[simp] theorem setP_tinsn1 (r : PReg) (v : Bool) : (f.setP r v).tinsn1 = f.tinsn1 := by unfold Frame.setP; split <;> rfl
@[simp] theorem setP_tsave (r : PReg) (v : Bool) : (f.setP r v).tsave = f.tsave := by unfold Frame.setP; split <;> rfl
@[simp] theorem setP_view (r : PReg) (v : Bool) : (f.setP r v).view = f.view := by unfold Frame.setP; split <;> rfl
@[simp] theorem setP_asked (r : PReg) (v : Bool) : (f.setP r v).asked = f.asked := by unfold Frame.setP; split <;> rfl
@[simp] theorem setP_bundle (r : PReg) (v : Bool) : (f.setP r v).bundle = f.bundle := by unfold Frame.setP; split <;> rfl
@[simp] theorem setP_spawnK (r : PReg) (v : Bool) : (f.setP r v).spawnK = f.spawnK := by unfold Frame.setP; split <;> rfl
@[simp] theorem setP_horizon (r : PReg) (v : Bool) : (f.setP r v).horizon = f.horizon := by unfold Frame.setP; split <;> rfl
@[simp] theorem setP_long (r : PReg) (v : Bool) : (f.setP r v).long = f.long := by unfold Frame.setP; split <;> rfl
@[simp] theorem setP_deferred (r : PReg) (v : Bool) : (f.setP r v).deferred = f.deferred := by unfold Frame.setP; split <;> rfl
@[simp] theorem setP_settleWait (r : PReg) (v : Bool) : (f.setP r v).settleWait = f.settleWait := by unfold Frame.setP; split <;> rfl
@[simp] theorem setP_bundles (r : PReg) (v : Bool) : (f.setP r v).bundles = f.bundles := by unfold Frame.setP; split <;> rfl
@[simp] theorem setP_samp (r : PReg) (v : Bool) : (f.setP r v).samp = f.samp := by unfold Frame.setP; split <;> rfl
@[simp] theorem setP_seen (r : PReg) (v : Bool) : (f.setP r v).seen = f.seen := by unfold Frame.setP; split <;> rfl
@[simp] theorem setP_window (r : PReg) (v : Bool) : (f.setP r v).window = f.window := by unfold Frame.setP; split <;> rfl
@[simp] theorem setP_arrived (r : PReg) (v : Bool) : (f.setP r v).arrived = f.arrived := by unfold Frame.setP; split <;> rfl
@[simp] theorem setP_brkHalted (r : PReg) (v : Bool) : (f.setP r v).brkHalted = f.brkHalted := by unfold Frame.setP; split <;> rfl

@[simp] theorem setA_uid (r : AReg) (v : BitVec 32) : (f.setA r v).uid = f.uid := rfl
@[simp] theorem setA_task (r : AReg) (v : BitVec 32) : (f.setA r v).task = f.task := rfl
@[simp] theorem setA_prio (r : AReg) (v : BitVec 32) : (f.setA r v).prio = f.prio := rfl
@[simp] theorem setA_lane (r : AReg) (v : BitVec 32) : (f.setA r v).lane = f.lane := rfl
@[simp] theorem setA_lim (r : AReg) (v : BitVec 32) : (f.setA r v).lim = f.lim := rfl
@[simp] theorem setA_pc (r : AReg) (v : BitVec 32) : (f.setA r v).pc = f.pc := rfl
@[simp] theorem setA_g (r : AReg) (v : BitVec 32) : (f.setA r v).g = f.g := rfl
@[simp] theorem setA_p (r : AReg) (v : BitVec 32) : (f.setA r v).p = f.p := rfl
@[simp] theorem setA_stall (r : AReg) (v : BitVec 32) : (f.setA r v).stall = f.stall := rfl
@[simp] theorem setA_pend (r : AReg) (v : BitVec 32) : (f.setA r v).pend = f.pend := rfl
@[simp] theorem setA_await (r : AReg) (v : BitVec 32) : (f.setA r v).await = f.await := rfl
@[simp] theorem setA_claims (r : AReg) (v : BitVec 32) : (f.setA r v).claims = f.claims := rfl
@[simp] theorem setA_pb (r : AReg) (v : BitVec 32) : (f.setA r v).pb = f.pb := rfl
@[simp] theorem setA_need (r : AReg) (v : BitVec 32) : (f.setA r v).need = f.need := rfl
@[simp] theorem setA_schk (r : AReg) (v : BitVec 32) : (f.setA r v).schk = f.schk := rfl
@[simp] theorem setA_geom (r : AReg) (v : BitVec 32) : (f.setA r v).geom = f.geom := rfl
@[simp] theorem setA_priv (r : AReg) (v : BitVec 32) : (f.setA r v).priv = f.priv := rfl
@[simp] theorem setA_tcause (r : AReg) (v : BitVec 32) : (f.setA r v).tcause = f.tcause := rfl
@[simp] theorem setA_tpc (r : AReg) (v : BitVec 32) : (f.setA r v).tpc = f.tpc := rfl
@[simp] theorem setA_tval (r : AReg) (v : BitVec 32) : (f.setA r v).tval = f.tval := rfl
@[simp] theorem setA_tinsn0 (r : AReg) (v : BitVec 32) : (f.setA r v).tinsn0 = f.tinsn0 := rfl
@[simp] theorem setA_tinsn1 (r : AReg) (v : BitVec 32) : (f.setA r v).tinsn1 = f.tinsn1 := rfl
@[simp] theorem setA_tsave (r : AReg) (v : BitVec 32) : (f.setA r v).tsave = f.tsave := rfl
@[simp] theorem setA_view (r : AReg) (v : BitVec 32) : (f.setA r v).view = f.view := rfl
@[simp] theorem setA_asked (r : AReg) (v : BitVec 32) : (f.setA r v).asked = f.asked := rfl
@[simp] theorem setA_bundle (r : AReg) (v : BitVec 32) : (f.setA r v).bundle = f.bundle := rfl
@[simp] theorem setA_spawnK (r : AReg) (v : BitVec 32) : (f.setA r v).spawnK = f.spawnK := rfl
@[simp] theorem setA_horizon (r : AReg) (v : BitVec 32) : (f.setA r v).horizon = f.horizon := rfl
@[simp] theorem setA_long (r : AReg) (v : BitVec 32) : (f.setA r v).long = f.long := rfl
@[simp] theorem setA_deferred (r : AReg) (v : BitVec 32) : (f.setA r v).deferred = f.deferred := rfl
@[simp] theorem setA_settleWait (r : AReg) (v : BitVec 32) : (f.setA r v).settleWait = f.settleWait := rfl
@[simp] theorem setA_bundles (r : AReg) (v : BitVec 32) : (f.setA r v).bundles = f.bundles := rfl
@[simp] theorem setA_samp (r : AReg) (v : BitVec 32) : (f.setA r v).samp = f.samp := rfl
@[simp] theorem setA_seen (r : AReg) (v : BitVec 32) : (f.setA r v).seen = f.seen := rfl
@[simp] theorem setA_window (r : AReg) (v : BitVec 32) : (f.setA r v).window = f.window := rfl
@[simp] theorem setA_arrived (r : AReg) (v : BitVec 32) : (f.setA r v).arrived = f.arrived := rfl
@[simp] theorem setA_brkHalted (r : AReg) (v : BitVec 32) : (f.setA r v).brkHalted = f.brkHalted := rfl

@[simp] theorem getG_setP (r : PReg) (v : Bool) (q : GReg) : (f.setP r v).getG q = f.getG q := by simp [Frame.getG]
@[simp] theorem getA_setP (r : PReg) (v : Bool) (q : AReg) : (f.setP r v).getA q = f.getA q := by simp [Frame.getA]
@[simp] theorem getP_setG (r : GReg) (v : Word) (q : PReg) : (f.setG r v).getP q = f.getP q := by simp [Frame.getP]
@[simp] theorem getA_setG (r : GReg) (v : Word) (q : AReg) : (f.setG r v).getA q = f.getA q := by simp [Frame.getA]
@[simp] theorem getG_setA (r : AReg) (v : BitVec 32) (q : GReg) : (f.setA r v).getG q = f.getG q := rfl
@[simp] theorem getP_setA (r : AReg) (v : BitVec 32) (q : PReg) : (f.setA r v).getP q = f.getP q := rfl

end Sys2Proof.Laws
end

