-- ==== Sys2Proof/Laws/Issue.lean ====
section
/-!
SUPPORT. What `issue` answers in each of its cases (R110, R119, R121, R131–R137), once for every instruction.
-/

namespace Sys2Proof.Laws

open Sys2Proof.Machine

variable {s : State} {f : Frame} {fs : List Frame} {h : Hdr} {i : Instr} {priv : Bool} {regs wr : List Reg}
  {body : Nat → Core → Frame → Act}

theorem issue_ready (hr : AtInstr s f fs) (hi : i.hdr? = some h) :
    issue i regs wr priv s body = issueOn s.cur i regs wr priv s (s.core s.cur) f h (body s.cur (s.core s.cur) f) := by
  unfold issue
  simp only [hr.top, hi, hr.running, hr.outside, Bool.false_or, Bool.false_eq_true, if_false]

theorem outOfRange_none {rs : List Reg} (hr : ∀ k, Reg.g k ∈ rs → k.toNat < f.lim) : f.outOfRange rs = none := by
  unfold Frame.outOfRange
  rw [Option.map_eq_none_iff, List.find?_eq_none]
  intro r hm
  cases r with
  | g k => have := hr k hm; simp; omega
  | p k => simp
  | a k => simp
  | v k => simp
  | w k => simp

theorem pending_none {rs : List Reg} (hr : ∀ r ∈ rs, ∀ x ∈ f.pend, x.reg ≠ r) : f.pending rs = none := by
  unfold Frame.pending
  rw [Option.map_eq_none_iff, List.find?_eq_none]
  intro r hm
  simpa using fun x hx => hr r hm x hx

theorem awaits_false {rs : List Reg} (hr : ∀ r ∈ rs, r ∉ f.await) : f.awaits rs = false := by
  unfold Frame.awaits
  simpa [List.any_eq_false] using hr

/-- An instruction that comes to its own checks does what its body says. -/
theorem issue_runs (q : Issues s f fs h priv regs wr) (hi : i.hdr? = some h) :
    issue i regs wr priv s body = (body s.cur (s.core s.cur) f).next s s.cur i h := by
  rw [issue_ready q.toAtInstr hi]
  unfold issueOn
  have hg : ∀ r ∈ guardRegs h, r ∉ f.await := fun r hr => q.arrived r (by simp [hr])
  have h1 : (priv && !f.priv) = false := by
    cases hp : priv
    · rfl
    · simp [q.mode hp]
  have h2 : (if f.schk = true then f.pending ((if h.gp = 0 then [] else [Reg.p h.gp]) ++ regs) else none) = none := by
    by_cases hs : f.schk = true
    · rw [if_pos hs]; exact pending_none (q.counted hs)
    · rw [if_neg hs]
  have h3 : f.awaits (if h.gp = 0 then [] else [Reg.p h.gp]) = false := awaits_false hg
  have h4 : (f.getP h.gp == h.gn) = false := by simpa using q.passes
  have h5 : f.awaits regs = false := awaits_false fun r hr => q.arrived r (by simp [hr])
  have h6 : (wr.any ((s.core s.cur).locked f)) = false := by simpa [List.any_eq_false] using q.unlocked
  simp only [q.settled, h1, outOfRange_none q.range, h2, h3, h4, h5, h6, Bool.or_self, Bool.false_eq_true, if_false]

/-- Such an instruction that issues retires. -/
theorem issue_go (q : Issues s f fs h priv regs wr) (hi : i.hdr? = some h) {t : State} {r : Ret}
    (hb : body s.cur (s.core s.cur) f = .go t r) : issue i regs wr priv s body = t.retire s.cur i h r := by
  rw [issue_runs q hi, hb]; rfl

/-- Such an instruction that traps takes its trap. -/
theorem issue_trap (q : Issues s f fs h priv regs wr) (hi : i.hdr? = some h) {cause : Nat} {tval : Word}
    (hb : body s.cur (s.core s.cur) f = .trap cause tval) : issue i regs wr priv s body = s.trapped s.cur i cause tval := by
  rw [issue_runs q hi, hb]; rfl

/-- Such an instruction that waits leaves the core at the boundary before it. -/
theorem issue_wait (q : Issues s f fs h priv regs wr) (hi : i.hdr? = some h)
    (hb : body s.cur (s.core s.cur) f = .wait) : issue i regs wr priv s body = s.stopped s.cur := by
  rw [issue_runs q hi, hb]; rfl

/-- A P-marked instruction traps without privilege (R131). -/
theorem issue_unprivileged (hr : AtInstr s f fs) (hi : i.hdr? = some h) (hp : f.priv = false) :
    issue i regs wr true s body = s.trapped s.cur i 0x05 0 := by
  rw [issue_ready hr hi]
  unfold issueOn
  simp [hr.settled, hp]

/-- A register outside the range traps (R121). -/
theorem issue_out_of_range (hr : AtInstr s f fs) (hi : i.hdr? = some h) (hm : priv = true → f.priv = true) {k : Nat}
    (ho : f.outOfRange regs = some k) : issue i regs wr priv s body = s.trapped s.cur i 0x06 (BitVec.ofNat 64 k) := by
  rw [issue_ready hr hi]
  unfold issueOn
  have h1 : (priv && !f.priv) = false := by
    cases hp : priv
    · rfl
    · simp [hm hp]
  simp [hr.settled, h1, ho]

/-- An instruction whose guard fails retires with no effect of its own (R110). -/
theorem issue_guard_fails (hr : AtInstr s f fs) (hi : i.hdr? = some h) (hm : priv = true → f.priv = true)
    (ho : ∀ k, Reg.g k ∈ regs → k.toNat < f.lim)
    (hc : f.schk = true → ∀ r ∈ guardRegs h ++ regs, ∀ x ∈ f.pend, x.reg ≠ r)
    (ha : ∀ r ∈ guardRegs h, r ∉ f.await) (hg : f.getP h.gp = h.gn) :
    issue i regs wr priv s body = s.retire s.cur i h Ret.plain := by
  rw [issue_ready hr hi]
  unfold issueOn
  have h1 : (priv && !f.priv) = false := by
    cases hp : priv
    · rfl
    · simp [hm hp]
  have h2 : (if f.schk = true then f.pending ((if h.gp = 0 then [] else [Reg.p h.gp]) ++ regs) else none) = none := by
    by_cases hs : f.schk = true
    · rw [if_pos hs]; exact pending_none (hc hs)
    · rw [if_neg hs]
  have h3 : f.awaits (if h.gp = 0 then [] else [Reg.p h.gp]) = false := awaits_false ha
  have h4 : (f.getP h.gp == h.gn) = true := by simpa using hg
  simp only [hr.settled, h1, outOfRange_none ho, h2, h3, h4, Bool.false_eq_true, if_false, if_true]

/-- A core without a frame, a halted one and one that waits inside an instruction issue nothing (R348, R365). -/
theorem issue_idle (hr : (s.core s.cur).frames = []) : issue i regs wr priv s body = s := by
  unfold issue; simp [hr]

/-- A register with a pending write traps while `SCHK.EN` is 1 (R133). -/
theorem issue_pending (hr : AtInstr s f fs) (hi : i.hdr? = some h) (hm : priv = true → f.priv = true)
    (ho : ∀ k, Reg.g k ∈ regs → k.toNat < f.lim) (hs : f.schk = true) {k : Nat}
    (hp : f.pending (guardRegs h ++ regs) = some k) :
    issue i regs wr priv s body = s.trapped s.cur i 0x07 (BitVec.ofNat 64 k) := by
  rw [issue_ready hr hi]
  unfold issueOn
  have h1 : (priv && !f.priv) = false := by
    cases hp : priv
    · rfl
    · simp [hm hp]
  have h2 : (if f.schk = true then f.pending ((if h.gp = 0 then [] else [Reg.p h.gp]) ++ regs) else none) = some k := by
    rw [if_pos hs]; exact hp
  simp only [hr.settled, h1, outOfRange_none ho, h2, Bool.false_eq_true, if_false]

/-- A register that awaits a result stops the instruction at the boundary before it (R134). -/
theorem issue_awaits (hr : AtInstr s f fs) (hi : i.hdr? = some h) (hm : priv = true → f.priv = true)
    (ho : ∀ k, Reg.g k ∈ regs → k.toNat < f.lim) (hs : f.schk = false) (ha : ∀ r ∈ guardRegs h, r ∉ f.await)
    (hg : f.getP h.gp ≠ h.gn) {r : Reg} (hr1 : r ∈ regs) (hr2 : r ∈ f.await) :
    issue i regs wr priv s body = s.stopped s.cur := by
  rw [issue_ready hr hi]
  unfold issueOn
  have h1 : (priv && !f.priv) = false := by
    cases hp : priv
    · rfl
    · simp [hm hp]
  have h3 : f.awaits (if h.gp = 0 then [] else [Reg.p h.gp]) = false := awaits_false ha
  have h4 : (f.getP h.gp == h.gn) = false := by simpa using hg
  have h5 : f.awaits regs = true := by simpa [Frame.awaits] using ⟨r, hr1, hr2⟩
  simp only [hr.settled, h1, outOfRange_none ho, hs, h3, h4, h5, Bool.true_or, Bool.false_eq_true, if_false, if_true]

/-! ## Every encoded instruction -/

set_option maxRecDepth 20000 in
/-- Every encoded instruction issues (R110), as a P-marked one or not (R119). -/
theorem exec_issues {i : Instr} {h : Hdr} (hi : i.hdr? = some h) (s : State) :
    ∃ priv regs wr body, exec i s = .next (issue i regs wr priv s body) ∧ (priv = true ↔ pMarked i h) := by
  cases i
  all_goals first
    | (cases hi; done)
    | (cases hi; refine ⟨false, _, _, _, rfl, ?_⟩; simp [pMarked])
    | (cases hi; refine ⟨true, _, _, _, rfl, ?_⟩; simp [pMarked])

end Sys2Proof.Laws
end

