-- ==== Sys2Proof/Laws/Ops.lean ====
section
/-!
SUPPORT. What the shared operations do and leave alone: records (R66), messages (R326), the end of a context (R357), traps (R352), and
that the operations over lines keep the canonical form of the memories.
-/

namespace Sys2Proof.Laws

open Sys2Proof.Machine

/-! ## What sending and the end of a context leave alone -/

/-- `t` differs from `s` outside the cores and the memories at most: in the contexts, the dispatchers and the releases on their way, the
dies and the event queue, the fabric, and the counters of the model. -/
def Beside (s t : State) : Prop :=
  t = { s with clock := t.clock, draws := t.draws, clusters := t.clusters, dies := t.dies, ctxs := t.ctxs, releases := t.releases,
               events := t.events, fabric := t.fabric }

theorem Beside.refl (s : State) : Beside s s := rfl

theorem Beside.trans {s t u : State} (h : Beside s t) (k : Beside t u) : Beside s u := by
  cases s; cases t; cases u
  simp only [Beside, State.mk.injEq] at *
  simp_all

section
variable {s t : State} (h : Beside s t)
include h
theorem Beside.cores : t.cores = s.cores := by unfold Beside at h; rw [h]
theorem Beside.core (n : Nat) : t.core n = s.core n := by unfold State.core; rw [h.cores]
theorem Beside.mem : t.mem = s.mem := by unfold Beside at h; rw [h]
theorem Beside.host : t.host = s.host := by unfold Beside at h; rw [h]
theorem Beside.cur : t.cur = s.cur := by unfold Beside at h; rw [h]
end

theorem Beside.foldl {β : Type} {g : State → β → State} (hg : ∀ s b, Beside s (g s b)) (l : List β) : ∀ s, Beside s (l.foldl g s) := by
  induction l with
  | nil => exact Beside.refl
  | cons b l ih => exact fun s => (hg s b).trans (ih _)

/-- A record changes the event queue and the buffers of the dies alone. -/
theorem post_frame (s : State) (src : Nat) (ctx : Option Nat) (code : Nat) (pay : List Byte) :
    s.post src ctx code pay = { s with dies := (s.post src ctx code pay).dies, events := (s.post src ctx code pay).events } := by
  unfold State.post; dsimp only
  split
  · split <;> rfl
  · split
    · rfl
    · split <;> rfl

theorem post_beside (s : State) (src : Nat) (ctx : Option Nat) (code : Nat) (pay : List Byte) : Beside s (s.post src ctx code pay) := by
  have e := post_frame s src ctx code pay
  unfold Beside
  rw [e]

/-- The links change the fabric alone. -/
theorem transmit_frame (s : State) : ∃ d x, s.transmit = { s with draws := d, fabric := x } := by
  unfold State.transmit; dsimp only; split
  · exact ⟨_, _, rfl⟩
  · exact ⟨_, _, rfl⟩

/-- A message that goes its way changes the fabric alone. -/
theorem enqueue_frame (s : State) (m : RMsg) : ∃ d x, s.enqueue m = { s with draws := d, fabric := x } := by
  unfold State.enqueue
  obtain ⟨d, x, e⟩ := transmit_frame { s with fabric := s.fabric.carry m }
  split
  · exact ⟨s.draws, _, rfl⟩
  all_goals exact ⟨d, x, e⟩

theorem enqueue_beside (s : State) (m : RMsg) : Beside s (s.enqueue m) := by
  obtain ⟨d, x, e⟩ := enqueue_frame s m
  unfold Beside; rw [e]

/-- An end notice changes the fabric alone. -/
theorem endNotice_frame (s : State) (n : Nat) : ∃ d x, s.endNotice n = { s with draws := d, fabric := x } := by
  unfold State.endNotice; dsimp only; split
  · split
    · exact enqueue_frame _ _
    · exact ⟨s.draws, s.fabric, rfl⟩
  · exact ⟨s.draws, s.fabric, rfl⟩

theorem endNotice_beside (s : State) (n : Nat) : Beside s (s.endNotice n) := by
  obtain ⟨d, x, e⟩ := endNotice_frame s n
  unfold Beside; rw [e]

/-- A dispatcher that takes in releases changes itself alone (R75). -/
theorem takeIn_frame (k : Nat) : ∀ (n : Nat) (s : State),
    State.takeIn k n s = { s with clock := (State.takeIn k n s).clock, clusters := (State.takeIn k n s).clusters }
  | 0, _ => rfl
  | n + 1, s => by
    unfold State.takeIn; dsimp only
    split
    · split
      · rw [takeIn_frame k n]; rfl
      · rfl
    · rfl

theorem refill_beside (s : State) (k : Nat) : Beside s (s.refill k) := by
  unfold State.refill
  have e := takeIn_frame k (s.cluster k).input.length s
  unfold Beside
  rw [e]

/-- The end of a context leaves cores, memory, host memory and queues alone (R357, steps 1 and 2). -/
theorem endCtx_beside (s : State) (n cause : Nat) (ord : BitVec 32) : Beside s (s.endCtx n cause ord) := by
  unfold State.endCtx; dsimp only; split
  · exact Beside.refl s
  · refine Beside.trans ?_ (Beside.foldl refill_beside _ _)
    exact ((Beside.trans (t := s.setCtx n _) rfl (post_beside ..)).trans (endNotice_beside ..)).trans rfl

@[simp] theorem endCtx_cores (s : State) (n cause : Nat) (ord : BitVec 32) : (s.endCtx n cause ord).cores = s.cores :=
  (endCtx_beside s n cause ord).cores
@[simp] theorem endCtx_mem (s : State) (n cause : Nat) (ord : BitVec 32) : (s.endCtx n cause ord).mem = s.mem :=
  (endCtx_beside s n cause ord).mem
@[simp] theorem endCtx_host (s : State) (n cause : Nat) (ord : BitVec 32) : (s.endCtx n cause ord).host = s.host :=
  (endCtx_beside s n cause ord).host
@[simp] theorem endCtx_cur (s : State) (n cause : Nat) (ord : BitVec 32) : (s.endCtx n cause ord).cur = s.cur :=
  (endCtx_beside s n cause ord).cur
@[simp] theorem endCtx_core (s : State) (n cause : Nat) (ord : BitVec 32) (k : Nat) : (s.endCtx n cause ord).core k = s.core k :=
  (endCtx_beside s n cause ord).core k

/-- Taking in releases leaves the contexts alone. -/
theorem foldl_refill_ctxs (l : List Nat) : ∀ s : State, (l.foldl State.refill s).ctxs = s.ctxs := by
  induction l with
  | nil => exact fun _ => rfl
  | cons k l ih => exact fun s => (ih _).trans (by unfold State.refill; rw [takeIn_frame])

/-- A live context that ends shows state 3, the cause and the ordinal (R62). -/
theorem endCtx_ctx (s : State) (n cause : Nat) (ord : BitVec 32) (h : (s.ctx n).state = 2) :
    (s.endCtx n cause ord).ctx n =
      { s.ctx n with state := 3, cause := BitVec.ofNat 8 cause, ord, tearing := true, frec := [], waiters := [] } := by
  unfold State.endCtx
  rw [if_neg (by simp [h])]
  have e : ∀ t : State, (t.endNotice n).ctxs = t.ctxs := fun t => by
    obtain ⟨d, x, e⟩ := endNotice_frame t n
    rw [e]
  have p : ∀ (t : State) a b c d, (t.post a b c d).ctxs = t.ctxs := fun t a b c d => by rw [post_frame]
  unfold State.ctx
  dsimp only
  rw [foldl_refill_ctxs]
  dsimp only
  rw [e, p]
  exact ctx_setCtx_same s n _

/-! ## Messages -/

theorem remoteError_beside (s : State) (ctx core peer kind cause : Nat) (addr id : Word) :
    Beside s (s.remoteError ctx core peer kind cause addr id) := by
  unfold State.remoteError
  split
  · exact (post_beside ..).trans (endCtx_beside ..)
  · exact Beside.refl s

/-- A message that is sent changes no core and no memory of the package. -/
theorem send_beside (s : State) (m : RMsg) : Beside s (s.send m) := by
  unfold State.send
  split
  · unfold State.unreachable; dsimp only; split <;> exact remoteError_beside ..
  · exact enqueue_beside s m

/-! ## Traps -/

/-- A trap outside the trap frame (R352). -/
theorem takeTrap_eq {s : State} {n : Nat} {f : Frame} {fs : List Frame} (hf : (s.core n).frames = f :: fs) (hp : f.priv = false)
    (cause : Nat) (after : Bool) (tval t0 t1 : Word) :
    s.takeTrap n cause after tval t0 t1 = s.setCore n { s.core n with frames := { f with
      priv := true, tcause := causeWord cause after, tpc := f.pc, tval, tinsn0 := t0, tinsn1 := t1,
      pc := (s.ctx f.task.ctx).codebase + BitVec.ofNat 64 (s.ctx f.task.ctx).trapentry, arrived := true, brkHalted := false } :: fs } := by
  unfold State.takeTrap; dsimp only; rw [hf]; dsimp only; rw [if_neg (by simp [hp])]

/-- A trap in the trap frame (R352). -/
theorem takeTrap_again {s : State} {n : Nat} {f : Frame} {fs : List Frame} (hf : (s.core n).frames = f :: fs) (hp : f.priv = true)
    (cause : Nat) (after : Bool) (tval t0 t1 : Word) :
    s.takeTrap n cause after tval t0 t1 = s.endCtx f.task.ctx 0x0A (ordOf f.task.id) := by
  unfold State.takeTrap; dsimp only; rw [hf]; dsimp only; rw [if_pos hp]

/-- A trap leaves the memories alone. -/
theorem takeTrap_mem (s : State) (n cause : Nat) (after : Bool) (tval t0 t1 : Word) :
    (s.takeTrap n cause after tval t0 t1).mem = s.mem := by
  unfold State.takeTrap; dsimp only
  split
  · rfl
  · split
    · simp
    · rfl

/-! ## Lines -/

theorem wf_iff (m : Memory) : m.wf = true ↔ mapWf 0 m.newer = true ∧ mapWf 0 m.older = true ∧ mapWf LineTags.zero m.tags = true := by
  simp [Memory.wf, and_assoc]

theorem setNewer_wf (m : Memory) (key : Nat) (bs : List Byte) (h : m.wf = true) : (m.setNewer key bs).wf = true := by
  rw [wf_iff] at h ⊢; exact ⟨mapWf_fsetAll 0 bs _ _ h.1, h.2⟩
theorem setOlder_wf (m : Memory) (key : Nat) (bs : List Byte) (h : m.wf = true) : (m.setOlder key bs).wf = true := by
  rw [wf_iff] at h ⊢; exact ⟨h.1, mapWf_fsetAll 0 bs _ _ h.2.1, h.2.2⟩
theorem setTags_wf (m : Memory) (key : Nat) (t : LineTags) (h : m.wf = true) : (m.setTags key t).wf = true := by
  rw [wf_iff] at h ⊢; exact ⟨h.1, h.2.1, mapWf_fset _ _ _ _ h.2.2⟩
theorem physWrite_wf (m : Memory) (pa : Nat) (bs : List Byte) (h : m.wf = true) : (m.physWrite pa bs).wf = true := by
  rw [wf_iff] at h ⊢; exact ⟨mapWf_fsetAll 0 bs _ _ h.1, h.2⟩
/-- The memories after reset are in canonical form. -/
theorem reset_memWf : State.reset.memWf = true := rfl

/-- A line reads back as it was written. -/
theorem newerData_setNewer (m : Memory) (key : Nat) (bs : List Byte) (h : bs.length = 64) :
    (m.setNewer key bs).newerData key = bs := by
  unfold Memory.newerData Memory.setNewer
  rw [← h]; exact fgetAll_fsetAll 0 bs _ _
@[simp] theorem lineTags_setTags (m : Memory) (key : Nat) (t : LineTags) : (m.setTags key t).lineTags key = t := fget_fset_same _ _ _ _
theorem lineTags_setTags_ne (m : Memory) (key : Nat) (t : LineTags) {k : Nat} (h : k ≠ key) :
    (m.setTags key t).lineTags k = m.lineTags k := fget_fset_ne _ _ _ h

end Sys2Proof.Laws
end

