-- ==== Sys2Proof/Laws/Memory.lean ====
section
/-!
SUPPORT. Every operation over the memories keeps their canonical form: the lines of main memory and the vaults with their tags, a
scratchpad, host memory.
-/

namespace Sys2Proof.Laws

open Sys2Proof.Machine

/-! ## Main memory and the vaults -/

theorem setDirty_wf (m : Memory) (leaf : Nat) (h : m.wf = true) : (m.setDirty leaf).wf = true := physWrite_wf _ _ _ h

theorem foldl_wf {β : Type} (g : Memory → β → Memory) (hg : ∀ m b, m.wf = true → (g m b).wf = true) (l : List β) :
    ∀ m : Memory, m.wf = true → (l.foldl g m).wf = true := by
  induction l with
  | nil => exact fun m h => h
  | cons b l ih => exact fun m h => ih _ (hg m b h)

theorem dirtyEntry_wf (m : Memory) (root : Nat) (e : Tlb) (h : m.wf = true) : (m.dirtyEntry root e).wf = true := by
  unfold Memory.dirtyEntry
  split
  · split
    · exact setDirty_wf m _ h
    · exact h
  · exact h
  · exact h

theorem writeBack_wf (m : Memory) (root : Nat → Nat) (l : List Tlb) (p : Tlb → Bool) (h : m.wf = true) :
    (m.writeBack root l p).wf = true :=
  foldl_wf _ (fun m e hm => by
    split
    · exact dirtyEntry_wf m _ e hm
    · exact hm) l m h

theorem zeroVault_wf (m : Memory) (k : Nat) (h : m.wf = true) : (m.zeroVault k).wf = true := by
  rw [wf_iff] at h ⊢
  exact ⟨mapWf_filter _ _ _ h.1, mapWf_filter _ _ _ h.2.1, mapWf_filter _ _ _ h.2.2⟩

theorem restore_wf (m : Memory) (key : Nat) (h : m.wf = true) : (m.restore key).wf = true := by
  unfold Memory.restore
  split
  · exact setTags_wf _ _ _ (setOlder_wf _ _ _ h)
  · exact h

theorem foldLose_wf (m : Memory) (key : Nat) (gone : Writer × CSeq → Bool) (h : m.wf = true) : (m.foldLose key gone).wf = true := h

theorem discard_wf (m : Memory) (key : Nat) (h : m.wf = true) : (m.discard key).wf = true := by
  unfold Memory.discard; dsimp only
  split
  · exact foldLose_wf _ _ _ (restore_wf _ _ (setTags_wf _ _ _ (setNewer_wf _ _ _ h)))
  · exact h

theorem discardOf_wf (m : Memory) (w : Writer) (p : CSeq → Bool) (h : m.wf = true) : (m.discardOf w p).wf = true :=
  foldl_wf _ discard_wf _ m h

theorem noteOld_wf (m old : Memory) (key : Nat) (live : List Nat) (h : m.wf = true) : (m.noteOld old key live).wf = true := by
  unfold Memory.noteOld
  split
  · exact h
  · exact foldl_wf (fun m k => m.keepOld old live k) (fun _ _ h => h) _ m h

theorem mark_wf (m : Memory) (key : Nat) (w : Writer) (q : CSeq) (st : VState) (h : m.wf = true) : (m.mark key w q st).wf = true := by
  unfold Memory.mark; dsimp only
  split
  · exact restore_wf _ _ (setTags_wf _ _ _ h)
  · split
    · exact setTags_wf _ _ _ h
    · exact h

theorem revert_wf (m : Memory) (key : Nat) (h : m.wf = true) : (m.revert key).wf = true :=
  foldLose_wf _ _ _ (setTags_wf _ _ _ (setOlder_wf _ _ _ (setNewer_wf _ _ _ h)))

theorem confirm_wf (m : Memory) (k : Nat) (h : m.wf = true) : (m.confirm k).wf = true := h

theorem discardEpoch_wf (m : Memory) (k : Nat) (h : m.wf = true) : (m.discardEpoch k).wf = true :=
  confirm_wf _ _ (foldl_wf _ (fun m e hm => revert_wf m e.1 hm) _ m h)

theorem setFold_wf (m : Memory) (key : Nat) (g : FoldObj → FoldObj) (h : m.wf = true) : (m.setFold key g).wf = true := h
theorem dropFold_wf (m : Memory) (key : Nat) (h : m.wf = true) : (m.dropFold key).wf = true := h
theorem fcloseDone_wf (m : Memory) (qs : List Req) (h : m.wf = true) : (m.fcloseDone qs).wf = true := h
theorem unprotect_wf (m : Memory) (uid : Nat) (h : m.wf = true) : (m.unprotect uid).wf = true := h
theorem cachePut_wf (m : Memory) (e : Cached) (h : m.wf = true) : (m.cachePut e).wf = true := h
theorem protectOld_wf (s : State) (key : Nat) (old : Kept218) (h : s.mem.wf = true) : (s.protectOld key old).wf = true := h

/-! ## The whole package -/

theorem memWf_iff (s : State) :
    s.memWf = true ↔ s.mem.wf = true ∧ mapWf 0 s.host.mem = true ∧ ∀ e ∈ s.cores, mapWf 0 e.2.pad = true := by
  simp [State.memWf, and_assoc]

/-- What keeps the three memories keeps their form. -/
theorem memWf_of_eq {s t : State} (hm : t.mem = s.mem) (hh : t.host.mem = s.host.mem) (hc : t.cores = s.cores) (h : s.memWf = true) :
    t.memWf = true := by
  unfold State.memWf at h ⊢; rw [hm, hh, hc]; exact h

theorem setMem_memWf (s : State) (m : Memory) (hm : m.wf = true) (h : s.memWf = true) : (s.setMem m).memWf = true := by
  rw [memWf_iff] at h ⊢; exact ⟨hm, h.2⟩

theorem fset_mem {α : Type} [DecidableEq α] (d : α) (m : FMap α) (k : Nat) (v : α) : ∀ e ∈ fset d m k v, e = (k, v) ∨ e ∈ m := by
  have hdel : ∀ (m : FMap α), ∀ e ∈ fdel m k, e ∈ m := by
    intro m
    induction m with
    | nil => simp [fdel]
    | cons x m ih =>
      intro e he
      unfold fdel at he
      split at he
      · exact List.mem_cons_of_mem _ (ih e he)
      · rcases List.mem_cons.1 he with rfl | h
        · exact List.mem_cons_self
        · exact List.mem_cons_of_mem _ (ih e h)
  have hins : ∀ (m : FMap α), ∀ e ∈ fins m k v, e = (k, v) ∨ e ∈ m := by
    intro m
    induction m with
    | nil => simp [fins]
    | cons x m ih =>
      intro e he
      unfold fins at he
      split at he
      · rcases List.mem_cons.1 he with rfl | h
        · exact .inl rfl
        · exact .inr h
      · rcases List.mem_cons.1 he with rfl | h
        · exact .inr List.mem_cons_self
        · rcases ih e h with h | h
          · exact .inl h
          · exact .inr (List.mem_cons_of_mem _ h)
  intro e he
  unfold fset at he
  split at he
  · exact .inr (hdel m e he)
  · rcases hins _ e he with h | h
    · exact .inl h
    · exact .inr (hdel m e h)

/-- A core whose scratchpad is in canonical form may stand in any core's place. -/
theorem setCore_memWf (s : State) (n : Nat) (c : Core) (hc : mapWf 0 c.pad = true) (h : s.memWf = true) :
    (s.setCore n c).memWf = true := by
  rw [memWf_iff] at h ⊢
  refine ⟨h.1, h.2.1, fun e he => ?_⟩
  rcases fset_mem _ _ _ _ e he with rfl | he
  · exact hc
  · exact h.2.2 e he

theorem fget_mem {α : Type} (d : α) : ∀ (m : FMap α) (k : Nat), fget d m k = d ∨ ∃ e ∈ m, e.2 = fget d m k := by
  intro m k
  induction m with
  | nil => exact .inl rfl
  | cons x m ih =>
    unfold fget
    split
    · exact .inr ⟨x, List.mem_cons_self, rfl⟩
    · rcases ih with h | ⟨e, he, h⟩
      · exact .inl h
      · exact .inr ⟨e, List.mem_cons_of_mem _ he, h⟩

/-- The scratchpad of every core is in canonical form. -/
theorem core_pad_wf (s : State) (n : Nat) (h : s.memWf = true) : mapWf 0 (s.core n).pad = true := by
  rw [memWf_iff] at h
  rcases fget_mem Core.reset s.cores n with e | ⟨e, he, hv⟩
  · unfold State.core; rw [e]; rfl
  · unfold State.core; rw [← hv]; exact h.2.2 e he

theorem zeroRange_wf (c : Core) (b pb need : Nat) (h : mapWf 0 c.pad = true) : mapWf 0 (zeroRange c b pb need).pad = true :=
  mapWf_filter _ _ _ h
theorem wiped_wf (c : Core) (x : Ctx) (h : mapWf 0 c.pad = true) : mapWf 0 (c.wiped x).pad = true := mapWf_filter _ _ _ h
theorem freed_wf (c : Core) : mapWf 0 c.freed.pad = true := rfl

theorem hostWrite_memWf {s t : State} {a : Nat} {bs : List Byte} (e : s.hostWrite a bs = some t) (h : s.memWf = true) :
    t.memWf = true := by
  unfold State.hostWrite at e
  split at e
  · cases e
    rw [memWf_iff] at h ⊢; exact ⟨h.1, mapWf_fsetAll _ _ _ _ h.2.1, h.2.2⟩
  · exact absurd e (by simp)

theorem hostPut_memWf (s : State) (a : Nat) (bs : List Byte) (h : s.memWf = true) : (s.hostPut a bs).memWf = true := by
  unfold State.hostPut
  cases e : s.hostWrite a bs with
  | none => exact h
  | some t => exact hostWrite_memWf e h

/-- What stands beside the lines and their tags does not touch their form. -/
theorem pairedMem_wf (m : Memory) (a b : Bool) (c : List Kept218) (u : FMap Nat) (h : m.wf = true) :
    (if a then { (if b then { m with confirmed := c } else m) with unconf := u } else (if b then { m with confirmed := c } else m)).wf
      = true := by
  cases a <;> cases b <;> exact h

theorem arriveLine_memWf (s : State) (ctx key : Nat) (w : Writer) (q : CSeq) (bytes : FMap (Option Byte)) (std : Option (BitVec 4 × Byte))
    (st : VState) (h : s.memWf = true) : (s.arriveLine ctx key w q bytes std st).memWf = true := by
  refine setMem_memWf _ _ (pairedMem_wf _ _ _ _ _ (setTags_wf _ _ _ (setNewer_wf _ _ _ ?_))) h
  split
  · exact ((memWf_iff s).1 h).1
  · exact setOlder_wf _ _ _ ((memWf_iff s).1 h).1

end Sys2Proof.Laws
end

