-- ==== Sys2Proof/Laws/PerInstr.lean ====
section
/-!
SUPPORT. The round trip per instruction: a well-formed instruction is decoded from the fields of its encoding (R105–R119). A device
step has no encoding.
-/

set_option linter.unusedSimpArgs false
set_option Elab.async false

namespace Sys2Proof.Laws

/-- Decoding the fields of the encoding of `i` gives `i`. -/
def RoundTrip.Statement (i : Instr) : Prop := i.wf = true → ∀ r, encodeRaw i = some r → decodeRaw r = .ok i

theorem RoundTrip.nop (h : Hdr) (x : NopBits) : RoundTrip.Statement (.nop h x) := by
  intro hw r hr
  obtain ⟨len, rest, j⟩ := x
  have hj : rest.extractLsb' 23 24 ++ rest.extractLsb' 15 8 ++ rest.extractLsb' 10 5 ++ rest.extractLsb' 5 5 ++
      rest.extractLsb' 0 5 = rest := by
    rw [BitVec.extractLsb'_append_extractLsb'_eq_extractLsb' (by rfl), BitVec.extractLsb'_append_extractLsb'_eq_extractLsb' (by rfl),
      BitVec.extractLsb'_append_extractLsb'_eq_extractLsb' (by rfl), BitVec.extractLsb'_append_extractLsb'_eq_extractLsb' (by rfl)]
    exact take_all rest
  cases len
  all_goals
    cases h
    cases hr
    refine decode_of hw rfl ?_
    simp only [candidate, candInt, rawOf, Raw.hdr, flag_code, hj]
    rfl

theorem RoundTrip.add (h : Hdr) (d a b : GReg) : RoundTrip.Statement (.add h d a b) := by
  intro hw r hr
  cases h
  cases hr
  refine decode_of hw rfl ?_
  simp [candidate, candInt, rawR, rawOf, Raw.hdr, xc, flag_code]

theorem RoundTrip.addi (h : Hdr) (d a : GReg) (imm : BitVec 24) : RoundTrip.Statement (.addi h d a imm) := by
  intro hw r hr
  cases h
  cases hr
  refine decode_of hw rfl ?_
  simp [candidate, candInt, rawI, rawOf, Raw.hdr, flag_code]

theorem RoundTrip.sub (h : Hdr) (d a b : GReg) : RoundTrip.Statement (.sub h d a b) := by
  intro hw r hr
  cases h
  cases hr
  refine decode_of hw rfl ?_
  simp [candidate, candInt, rawR, rawOf, Raw.hdr, xc, flag_code]

theorem RoundTrip.mul (h : Hdr) (d a b : GReg) : RoundTrip.Statement (.mul h d a b) := by
  intro hw r hr
  cases h
  cases hr
  refine decode_of hw rfl ?_
  simp [candidate, candInt, rawR, rawOf, Raw.hdr, xc, flag_code]

theorem RoundTrip.mulh (h : Hdr) (u : Bool) (d a b : GReg) : RoundTrip.Statement (.mulh h u d a b) := by
  intro hw r hr
  cases h
  cases hr
  refine decode_of hw rfl ?_
  simp [candidate, candInt, rawR, rawOf, Raw.hdr, Raw.flag, mFlag, xc, flag_code]
  simp -index (disch := omega) only [take_hi, take_all]
  simp [flag_code]

theorem RoundTrip.div (h : Hdr) (u : Bool) (d a b : GReg) : RoundTrip.Statement (.div h u d a b) := by
  intro hw r hr
  cases h
  cases hr
  refine decode_of hw rfl ?_
  simp [candidate, candInt, rawR, rawOf, Raw.hdr, Raw.flag, mFlag, xc, flag_code]
  simp -index (disch := omega) only [take_hi, take_all]
  simp [flag_code]

theorem RoundTrip.rem (h : Hdr) (u : Bool) (d a b : GReg) : RoundTrip.Statement (.rem h u d a b) := by
  intro hw r hr
  cases h
  cases hr
  refine decode_of hw rfl ?_
  simp [candidate, candInt, rawR, rawOf, Raw.hdr, Raw.flag, mFlag, xc, flag_code]
  simp -index (disch := omega) only [take_hi, take_all]
  simp [flag_code]

theorem RoundTrip.and (h : Hdr) (d a b : GReg) : RoundTrip.Statement (.and h d a b) := by
  intro hw r hr
  cases h
  cases hr
  refine decode_of hw rfl ?_
  simp [candidate, candInt, rawR, rawOf, Raw.hdr, xc, flag_code]

theorem RoundTrip.or (h : Hdr) (d a b : GReg) : RoundTrip.Statement (.or h d a b) := by
  intro hw r hr
  cases h
  cases hr
  refine decode_of hw rfl ?_
  simp [candidate, candInt, rawR, rawOf, Raw.hdr, xc, flag_code]

theorem RoundTrip.xor (h : Hdr) (d a b : GReg) : RoundTrip.Statement (.xor h d a b) := by
  intro hw r hr
  cases h
  cases hr
  refine decode_of hw rfl ?_
  simp [candidate, candInt, rawR, rawOf, Raw.hdr, xc, flag_code]

theorem RoundTrip.andn (h : Hdr) (d a b : GReg) : RoundTrip.Statement (.andn h d a b) := by
  intro hw r hr
  cases h
  cases hr
  refine decode_of hw rfl ?_
  simp [candidate, candInt, rawR, rawOf, Raw.hdr, xc, flag_code]

theorem RoundTrip.shl (h : Hdr) (d a b : GReg) : RoundTrip.Statement (.shl h d a b) := by
  intro hw r hr
  cases h
  cases hr
  refine decode_of hw rfl ?_
  simp [candidate, candInt, rawR, rawOf, Raw.hdr, xc, flag_code]

theorem RoundTrip.shr (h : Hdr) (d a b : GReg) : RoundTrip.Statement (.shr h d a b) := by
  intro hw r hr
  cases h
  cases hr
  refine decode_of hw rfl ?_
  simp [candidate, candInt, rawR, rawOf, Raw.hdr, xc, flag_code]

theorem RoundTrip.sar (h : Hdr) (d a b : GReg) : RoundTrip.Statement (.sar h d a b) := by
  intro hw r hr
  cases h
  cases hr
  refine decode_of hw rfl ?_
  simp [candidate, candInt, rawR, rawOf, Raw.hdr, xc, flag_code]

theorem RoundTrip.rot (h : Hdr) (d a b : GReg) : RoundTrip.Statement (.rot h d a b) := by
  intro hw r hr
  cases h
  cases hr
  refine decode_of hw rfl ?_
  simp [candidate, candInt, rawR, rawOf, Raw.hdr, xc, flag_code]

theorem RoundTrip.shli (h : Hdr) (d a : GReg) (n : BitVec 6) : RoundTrip.Statement (.shli h d a n) := by
  intro hw r hr
  cases h
  cases hr
  refine decode_of hw rfl ?_
  simp [candidate, candInt, rawI, rawOf, Raw.hdr, Raw.immf, flag_code]
  simp -index (disch := omega) only [take_lo, take_all]

theorem RoundTrip.shri (h : Hdr) (d a : GReg) (n : BitVec 6) : RoundTrip.Statement (.shri h d a n) := by
  intro hw r hr
  cases h
  cases hr
  refine decode_of hw rfl ?_
  simp [candidate, candInt, rawI, rawOf, Raw.hdr, Raw.immf, flag_code]
  simp -index (disch := omega) only [take_lo, take_all]

theorem RoundTrip.sari (h : Hdr) (d a : GReg) (n : BitVec 6) : RoundTrip.Statement (.sari h d a n) := by
  intro hw r hr
  cases h
  cases hr
  refine decode_of hw rfl ?_
  simp [candidate, candInt, rawI, rawOf, Raw.hdr, Raw.immf, flag_code]
  simp -index (disch := omega) only [take_lo, take_all]

theorem RoundTrip.movi (h : Hdr) (d : GReg) (imm : BitVec 32) : RoundTrip.Statement (.movi h d imm) := by
  intro hw r hr
  cases h
  cases hr
  refine decode_of hw rfl ?_
  simp [candidate, candInt, rawOf, Raw.hdr, Raw.j, Raw.is96, jExt, flag_code]
  simp -index (disch := omega) only [take_lo, take_all]

theorem RoundTrip.moviD (h : Hdr) (d : GReg) (imm : BitVec 64) : RoundTrip.Statement (.moviD h d imm) := by
  intro hw r hr
  cases h
  cases hr
  refine decode_of hw rfl ?_
  simp [candidate, candInt, rawOf, Raw.hdr, Raw.is96, flag_code]

theorem RoundTrip.min (h : Hdr) (u : Bool) (d a b : GReg) : RoundTrip.Statement (.min h u d a b) := by
  intro hw r hr
  cases h
  cases hr
  refine decode_of hw rfl ?_
  simp [candidate, candInt, rawR, rawOf, Raw.hdr, Raw.flag, mFlag, xc, flag_code]
  simp -index (disch := omega) only [take_hi, take_all]
  simp [flag_code]

theorem RoundTrip.max (h : Hdr) (u : Bool) (d a b : GReg) : RoundTrip.Statement (.max h u d a b) := by
  intro hw r hr
  cases h
  cases hr
  refine decode_of hw rfl ?_
  simp [candidate, candInt, rawR, rawOf, Raw.hdr, Raw.flag, mFlag, xc, flag_code]
  simp -index (disch := omega) only [take_hi, take_all]
  simp [flag_code]

theorem RoundTrip.abs (h : Hdr) (d a : GReg) : RoundTrip.Statement (.abs h d a) := by
  intro hw r hr
  cases h
  cases hr
  refine decode_of hw rfl ?_
  simp [candidate, candInt, rawR, rawOf, Raw.hdr, xc, flag_code]

theorem RoundTrip.clz (h : Hdr) (d a : GReg) : RoundTrip.Statement (.clz h d a) := by
  intro hw r hr
  cases h
  cases hr
  refine decode_of hw rfl ?_
  simp [candidate, candInt, rawR, rawOf, Raw.hdr, xc, flag_code]

theorem RoundTrip.popc (h : Hdr) (d a : GReg) : RoundTrip.Statement (.popc h d a) := by
  intro hw r hr
  cases h
  cases hr
  refine decode_of hw rfl ?_
  simp [candidate, candInt, rawR, rawOf, Raw.hdr, xc, flag_code]

theorem RoundTrip.ext (h : Hdr) (sx : Bool) (d a : GReg) (lo wm1 : BitVec 6) : RoundTrip.Statement (.ext h sx d a lo wm1) := by
  intro hw r hr
  cases h
  cases hr
  refine decode_of hw rfl ?_
  simp [candidate, candInt, rawI, rawOf, Raw.hdr, Raw.immf, Raw.flag, mFlag, flag_code]
  simp -index (disch := omega) only [take_lo, take_hi, take_all]
  simp [flag_code]

theorem RoundTrip.ins (h : Hdr) (d a : GReg) (lo wm1 : BitVec 6) : RoundTrip.Statement (.ins h d a lo wm1) := by
  intro hw r hr
  cases h
  cases hr
  refine decode_of hw rfl ?_
  simp [candidate, candInt, rawI, rawOf, Raw.hdr, Raw.immf, flag_code]
  simp -index (disch := omega) only [take_lo, take_hi, take_all]
  simp []

theorem RoundTrip.sel (h : Hdr) (d : GReg) (c : PReg) (a b : GReg) : RoundTrip.Statement (.sel h d c a b) := by
  intro hw r hr
  cases h
  cases hr
  refine decode_of hw rfl ?_
  simp [candidate, candInt, rawR, rawOf, Raw.hdr, Raw.c, low3, rBit, xc, flag_code]
  simp -index (disch := omega) only [take_lo, take_all]

theorem RoundTrip.lea (h : Hdr) (d a b : GReg) (s : BitVec 3) (disp : BitVec 19) : RoundTrip.Statement (.lea h d a b s disp) := by
  intro hw r hr
  cases h
  cases hr
  refine decode_of hw rfl ?_
  simp [candidate, candInt, rawOf, Raw.hdr, Raw.x, xc, flag_code]
  simp -index (disch := omega) only [take_lo, take_hi, take_all]
  simp []

theorem RoundTrip.adds (h : Hdr) (u : Bool) (d a b : GReg) : RoundTrip.Statement (.adds h u d a b) := by
  intro hw r hr
  cases h
  cases hr
  refine decode_of hw rfl ?_
  simp [candidate, candInt, rawR, rawOf, Raw.hdr, Raw.flag, mFlag, xc, flag_code]
  simp -index (disch := omega) only [take_hi, take_all]
  simp [flag_code]

theorem RoundTrip.hops (h : Hdr) (d a b : GReg) : RoundTrip.Statement (.hops h d a b) := by
  intro hw r hr
  cases h
  cases hr
  refine decode_of hw rfl ?_
  simp [candidate, candInt, rawR, rawOf, Raw.hdr, xc, flag_code]

theorem RoundTrip.mad (h : Hdr) (d a b c : GReg) : RoundTrip.Statement (.mad h d a b c) := by
  intro hw r hr
  cases h
  cases hr
  refine decode_of hw rfl ?_
  simp [candidate, candInt, rawR, rawOf, Raw.hdr, Raw.c, xc, flag_code]
  simp -index (disch := omega) only [take_lo, take_all]

theorem RoundTrip.cmp (h : Hdr) (cond : Cond) (comb : Comb) (d c : PReg) (a b : GReg) : RoundTrip.Statement (.cmp h cond comb d c a b) := by
  intro hw r hr
  cases h
  cases hr
  refine decode_of hw rfl ?_
  simp [candidate, candCtl, rawR, rawOf, Raw.hdr, Raw.c, low3, Raw.cond, Raw.comb, rBit, xc, mCmp, flag_code]
  simp -index (disch := omega) only [take_lo, take_hi, take_all]
  simp [cond_code, comb_code]

theorem RoundTrip.cmpi (h : Hdr) (cond : Cond) (comb : Comb) (d : PReg) (a : GReg) (imm : BitVec 24) : RoundTrip.Statement (.cmpi h cond comb d a imm) := by
  intro hw r hr
  cases h
  cases hr
  refine decode_of hw rfl ?_
  simp [candidate, candCtl, rawI, rawOf, Raw.hdr, low3, Raw.cond, Raw.comb, rBit, mCmp, flag_code]
  simp -index (disch := omega) only [take_lo, take_hi, take_all]
  simp [cond_code, comb_code]

theorem RoundTrip.pand (h : Hdr) (n : Bool) (d a b : PReg) : RoundTrip.Statement (.pand h n d a b) := by
  intro hw r hr
  cases h
  cases hr
  refine decode_of hw rfl ?_
  simp [candidate, candCtl, rawR, rawOf, Raw.hdr, low3, Raw.flag, rBit, mFlag, xc, flag_code]
  simp -index (disch := omega) only [take_lo, take_hi, take_all]
  simp [flag_code]

theorem RoundTrip.por (h : Hdr) (n : Bool) (d a b : PReg) : RoundTrip.Statement (.por h n d a b) := by
  intro hw r hr
  cases h
  cases hr
  refine decode_of hw rfl ?_
  simp [candidate, candCtl, rawR, rawOf, Raw.hdr, low3, Raw.flag, rBit, mFlag, xc, flag_code]
  simp -index (disch := omega) only [take_lo, take_hi, take_all]
  simp [flag_code]

theorem RoundTrip.pxor (h : Hdr) (n : Bool) (d a b : PReg) : RoundTrip.Statement (.pxor h n d a b) := by
  intro hw r hr
  cases h
  cases hr
  refine decode_of hw rfl ?_
  simp [candidate, candCtl, rawR, rawOf, Raw.hdr, low3, Raw.flag, rBit, mFlag, xc, flag_code]
  simp -index (disch := omega) only [take_lo, take_hi, take_all]
  simp [flag_code]

theorem RoundTrip.pnot (h : Hdr) (d a : PReg) : RoundTrip.Statement (.pnot h d a) := by
  intro hw r hr
  cases h
  cases hr
  refine decode_of hw rfl ?_
  simp [candidate, candCtl, rawR, rawOf, Raw.hdr, low3, rBit, xc, flag_code]
  simp -index (disch := omega) only [take_lo, take_all]
  simp []

theorem RoundTrip.pset (h : Hdr) (d : PReg) (v : Bool) : RoundTrip.Statement (.pset h d v) := by
  intro hw r hr
  cases h
  cases hr
  refine decode_of hw rfl ?_
  simp [candidate, candCtl, rawI, rawOf, Raw.hdr, Raw.immf, low3, rBit, flag_code]
  simp -index (disch := omega) only [take_lo, take_all]
  simp [flag_code]

theorem RoundTrip.ptest (h : Hdr) (d : PReg) (a : GReg) (bit : BitVec 6) : RoundTrip.Statement (.ptest h d a bit) := by
  intro hw r hr
  cases h
  cases hr
  refine decode_of hw rfl ?_
  simp [candidate, candCtl, rawI, rawOf, Raw.hdr, Raw.immf, low3, rBit, flag_code]
  simp -index (disch := omega) only [take_lo, take_all]
  simp []

theorem RoundTrip.pget (h : Hdr) (d : GReg) : RoundTrip.Statement (.pget h d) := by
  intro hw r hr
  cases h
  cases hr
  refine decode_of hw rfl ?_
  simp [candidate, candCtl, rawR, rawOf, Raw.hdr, xc, flag_code]

theorem RoundTrip.pput (h : Hdr) (a : GReg) (mask : BitVec 7) : RoundTrip.Statement (.pput h a mask) := by
  intro hw r hr
  cases h
  cases hr
  refine decode_of hw rfl ?_
  simp [candidate, candCtl, rawI, rawOf, Raw.hdr, Raw.immf, flag_code]
  simp -index (disch := omega) only [take_lo, take_hi, take_all]

theorem RoundTrip.br (h : Hdr) (off : BitVec 24) : RoundTrip.Statement (.br h off) := by
  intro hw r hr
  cases h
  cases hr
  refine decode_of hw rfl ?_
  simp [candidate, candCtl, rawI, rawOf, Raw.hdr, Raw.is96, flag_code]

theorem RoundTrip.brFar (h : Hdr) (off : BitVec 32) : RoundTrip.Statement (.brFar h off) := by
  intro hw r hr
  cases h
  cases hr
  refine decode_of hw rfl ?_
  simp [candidate, candCtl, rawOf, Raw.hdr, Raw.j, Raw.is96, jExt, flag_code]
  simp -index (disch := omega) only [take_lo, take_all]

theorem RoundTrip.jmp (h : Hdr) (a : GReg) : RoundTrip.Statement (.jmp h a) := by
  intro hw r hr
  cases h
  cases hr
  refine decode_of hw rfl ?_
  simp [candidate, candCtl, rawR, rawOf, Raw.hdr, xc, flag_code]

theorem RoundTrip.call (h : Hdr) (d : GReg) (off : BitVec 24) : RoundTrip.Statement (.call h d off) := by
  intro hw r hr
  cases h
  cases hr
  refine decode_of hw rfl ?_
  simp [candidate, candCtl, rawI, rawOf, Raw.hdr, Raw.is96, flag_code]

theorem RoundTrip.callFar (h : Hdr) (d : GReg) (off : BitVec 32) : RoundTrip.Statement (.callFar h d off) := by
  intro hw r hr
  cases h
  cases hr
  refine decode_of hw rfl ?_
  simp [candidate, candCtl, rawOf, Raw.hdr, Raw.j, Raw.is96, jExt, flag_code]
  simp -index (disch := omega) only [take_lo, take_all]

theorem RoundTrip.callr (h : Hdr) (d a : GReg) : RoundTrip.Statement (.callr h d a) := by
  intro hw r hr
  cases h
  cases hr
  refine decode_of hw rfl ?_
  simp [candidate, candCtl, rawR, rawOf, Raw.hdr, xc, flag_code]

theorem RoundTrip.ret (h : Hdr) (a : GReg) : RoundTrip.Statement (.ret h a) := by
  intro hw r hr
  cases h
  cases hr
  refine decode_of hw rfl ?_
  simp [candidate, candCtl, rawR, rawOf, Raw.hdr, xc, flag_code]

theorem RoundTrip.loop (h : Hdr) (d : GReg) (off : BitVec 24) : RoundTrip.Statement (.loop h d off) := by
  intro hw r hr
  cases h
  cases hr
  refine decode_of hw rfl ?_
  simp [candidate, candCtl, rawI, rawOf, Raw.hdr, flag_code]

theorem RoundTrip.lds (h : Hdr) (x : Bool) (sz : Size) (sx : Bool) (d : GReg) (p : Ptr) : RoundTrip.Statement (.lds h x sz sx d p) := by
  intro hw r hr
  have ho := ops_of hw rfl
  simp only [Instr.operandsOk, Bool.and_eq_true] at ho
  cases h
  cases hr
  refine decode_of hw rfl ?_
  simp [candidate, candMem, rawOf, Raw.hdr, Raw.ef, Raw.ptrA, Raw.flag, Raw.size, Raw.is96, mSize, flag_code]
  simp -index (disch := omega) only [take_lo, take_hi, take_all]
  simp [size_code, flag_code, is96_code, ptr_slotA, ho]

theorem RoundTrip.sts (h : Hdr) (x : Bool) (sz : Size) (p : Ptr) (a : GReg) : RoundTrip.Statement (.sts h x sz p a) := by
  intro hw r hr
  have ho := ops_of hw rfl
  simp only [Instr.operandsOk] at ho
  cases h
  cases hr
  refine decode_of hw rfl ?_
  simp [candidate, candMem, rawOf, Raw.hdr, Raw.ef, Raw.ptrD, Raw.size, Raw.is96, mSize, flag_code]
  simp -index (disch := omega) only [take_lo, take_all]
  simp [size_code, is96_code, ptr_slotD, ho]

theorem RoundTrip.ldv (h : Hdr) (p : Ptr) (a : GReg) (disp : BitVec 24) : RoundTrip.Statement (.ldv h p a disp) := by
  intro hw r hr
  have ho := ops_of hw rfl
  simp only [Instr.operandsOk] at ho
  cases h
  cases hr
  refine decode_of hw rfl ?_
  simp [candidate, candMem, rawI, rawOf, Raw.hdr, Raw.ef, Raw.ptrD, flag_code]
  simp [ptr_zero, ho]

theorem RoundTrip.stv (h : Hdr) (p : Ptr) (a : GReg) (disp : BitVec 24) : RoundTrip.Statement (.stv h p a disp) := by
  intro hw r hr
  have ho := ops_of hw rfl
  simp only [Instr.operandsOk] at ho
  cases h
  cases hr
  refine decode_of hw rfl ?_
  simp [candidate, candMem, rawI, rawOf, Raw.hdr, Raw.ef, Raw.ptrD, flag_code]
  simp [ptr_zero, ho]

theorem RoundTrip.ld (h : Hdr) (sz : Size) (sx : Bool) (d a : GReg) (disp : BitVec 24) : RoundTrip.Statement (.ld h sz sx d a disp) := by
  intro hw r hr
  cases h
  cases hr
  refine decode_of hw rfl ?_
  simp [candidate, candMem, rawI, rawOf, Raw.hdr, Raw.flag, Raw.size, mSize, flag_code]
  simp -index (disch := omega) only [take_lo, take_hi, take_all]
  simp [size_code, flag_code]

theorem RoundTrip.st (h : Hdr) (sz : Size) (a b : GReg) (disp : BitVec 24) : RoundTrip.Statement (.st h sz a b disp) := by
  intro hw r hr
  cases h
  cases hr
  refine decode_of hw rfl ?_
  simp [candidate, candMem, rawI, rawOf, Raw.hdr, Raw.size, mSize, flag_code]
  simp -index (disch := omega) only [take_lo, take_all]
  simp [size_code]

theorem RoundTrip.ldd (h : Hdr) (f : Fmt) (r : Rnd) (d a b : GReg) : RoundTrip.Statement (.ldd h f r d a b) := by
  intro hw r hr
  cases h
  cases hr
  refine decode_of hw rfl ?_
  simp [candidate, candMem, rawR, rawOf, Raw.hdr, Raw.fmt, Raw.rnd, mFmt, xc, flag_code]
  simp -index (disch := omega) only [take_lo, take_hi, take_all]
  simp [fmt_code, rnd_code]

theorem RoundTrip.std (h : Hdr) (f : Fmt) (p : Ptr) (a b : GReg) : RoundTrip.Statement (.std h f p a b) := by
  intro hw r hr
  have ho := ops_of hw rfl
  simp only [Instr.operandsOk, Bool.and_eq_true] at ho
  cases h
  cases hr
  refine decode_of hw rfl ?_
  simp [candidate, candMem, rawR, rawOf, Raw.hdr, Raw.ef, Raw.ptrD, Raw.fmt, mFmt, xc, flag_code]
  simp -index (disch := omega) only [take_lo, take_all]
  simp [fmt_code, ptr_zero, ho]

theorem RoundTrip.smov (h : Hdr) (x : Bool) (sz : Size) (p q : Ptr) : RoundTrip.Statement (.smov h x sz p q) := by
  intro hw r hr
  have ho := ops_of hw rfl
  simp only [Instr.operandsOk, Bool.and_eq_true] at ho
  cases h
  cases hr
  refine decode_of hw rfl ?_
  simp [candidate, candMem, rawOf, Raw.hdr, Raw.ef, Raw.ptrD, Raw.ptrA, Raw.size, Raw.is96, mSize, flag_code]
  simp -index (disch := omega) only [take_lo, take_all]
  simp [size_code, is96_code, ptr_slotD, ptr_slotA, ho]

theorem RoundTrip.salu (h : Hdr) (x : Bool) (op : SaluOp) (sz : Size) (p q r : Ptr) : RoundTrip.Statement (.salu h x op sz p q r) := by
  intro hw r hr
  have ho := ops_of hw rfl
  simp only [Instr.operandsOk, Bool.and_eq_true] at ho
  cases h
  cases hr
  refine decode_of hw rfl ?_
  simp [candidate, candMem, rawOf, Raw.hdr, Raw.xf, Raw.ef, Raw.ptrD, Raw.ptrA, Raw.ptrB, Raw.size, Raw.is96, mSize, xc, flag_code]
  simp -index (disch := omega) only [take_lo, take_hi, take_all]
  simp [size_code, salu_code, is96_code, ptr_slotD, ptr_slotA, ptr_slotB, ho]

theorem RoundTrip.sflt (h : Hdr) (x : Bool) (op : SfltOp) (f : Fmt) (rnd : Rnd) (p q r : Ptr) : RoundTrip.Statement (.sflt h x op f rnd p q r) := by
  intro hw r hr
  have ho := ops_of hw rfl
  simp only [Instr.operandsOk, Bool.and_eq_true] at ho
  cases h
  cases hr
  refine decode_of hw rfl ?_
  simp [candidate, candMem, rawOf, Raw.hdr, Raw.xf, Raw.ef, Raw.ptrD, Raw.ptrA, Raw.ptrB, Raw.fmt, Raw.rnd, Raw.is96, mFmt, xc, flag_code]
  simp -index (disch := omega) only [take_lo, take_hi, take_all]
  simp [fmt_code, rnd_code, sflt_code, is96_code, ptr_slotD, ptr_slotA, ptr_slotB, ho]

theorem RoundTrip.sfma (h : Hdr) (x : Bool) (f : Fmt) (rnd : Rnd) (p q r : Ptr) : RoundTrip.Statement (.sfma h x f rnd p q r) := by
  intro hw r hr
  have ho := ops_of hw rfl
  simp only [Instr.operandsOk, Bool.and_eq_true] at ho
  cases h
  cases hr
  refine decode_of hw rfl ?_
  simp [candidate, candMem, rawOf, Raw.hdr, Raw.ef, Raw.ptrD, Raw.ptrA, Raw.ptrB, Raw.fmt, Raw.rnd, Raw.is96, mFmt, flag_code]
  simp -index (disch := omega) only [take_lo, take_hi, take_all]
  simp [fmt_code, rnd_code, is96_code, ptr_slotD, ptr_slotA, ptr_slotB, ho]

theorem RoundTrip.bclose (h : Hdr) (sc : Scope) : RoundTrip.Statement (.bclose h sc) := by
  intro hw r hr
  cases h
  cases hr
  refine decode_of hw rfl ?_
  simp [candidate, candMem, rawR, rawOf, Raw.hdr, Raw.c, xc, flag_code]
  simp -index (disch := omega) only [take_lo, take_all]
  simp [scope_code]

theorem RoundTrip.fence (h : Hdr) (sc : Scope) : RoundTrip.Statement (.fence h sc) := by
  intro hw r hr
  cases h
  cases hr
  refine decode_of hw rfl ?_
  simp [candidate, candMem, rawR, rawOf, Raw.hdr, Raw.c, Raw.flag, xc, flag_code]
  simp -index (disch := omega) only [take_lo, take_all]
  simp [scope_code]

theorem RoundTrip.fenceFresh (h : Hdr) : RoundTrip.Statement (.fenceFresh h) := by
  intro hw r hr
  cases h
  cases hr
  refine decode_of hw rfl ?_
  simp [candidate, candMem, rawR, rawOf, Raw.hdr, Raw.c, Raw.flag, mFlag, xc, flag_code]
  simp [flagBit_true]

theorem RoundTrip.probe (h : Hdr) (w : Bool) (a : GReg) : RoundTrip.Statement (.probe h w a) := by
  intro hw r hr
  cases h
  cases hr
  refine decode_of hw rfl ?_
  simp [candidate, candMem, rawR, rawOf, Raw.hdr, Raw.flag, mFlag, xc, flag_code]
  simp -index (disch := omega) only [take_hi, take_all]
  simp [flag_code]

theorem RoundTrip.pref (h : Hdr) (a : GReg) : RoundTrip.Statement (.pref h a) := by
  intro hw r hr
  cases h
  cases hr
  refine decode_of hw rfl ?_
  simp [candidate, candMem, rawR, rawOf, Raw.hdr, xc, flag_code]

theorem RoundTrip.fopen (h : Hdr) (op : FoldOp) (f : Fmt) (r : Rnd) (d a b c : GReg) : RoundTrip.Statement (.fopen h op f r d a b c) := by
  intro hw r hr
  cases h
  cases hr
  refine decode_of hw rfl ?_
  simp [candidate, candMem, rawR, rawOf, Raw.hdr, Raw.c, Raw.xf, Raw.fmt, Raw.rnd, mFmt, xc, flag_code]
  simp -index (disch := omega) only [take_lo, take_hi, take_all]
  simp [fmt_code, rnd_code, fold_code]

theorem RoundTrip.fold (h : Hdr) (p : Ptr) (a b : GReg) (lm1 : BitVec 4) : RoundTrip.Statement (.fold h p a b lm1) := by
  intro hw r hr
  have ho := ops_of hw rfl
  simp only [Instr.operandsOk] at ho
  cases h
  cases hr
  refine decode_of hw rfl ?_
  simp [candidate, candMem, rawR, rawOf, Raw.hdr, Raw.ef, Raw.ptrD, xc, flag_code]
  simp -index (disch := omega) only [take_lo, take_all]
  simp [ptr_zero, ho]

theorem RoundTrip.fclose (h : Hdr) (d a : GReg) : RoundTrip.Statement (.fclose h d a) := by
  intro hw r hr
  cases h
  cases hr
  refine decode_of hw rfl ?_
  simp [candidate, candMem, rawR, rawOf, Raw.hdr, xc, flag_code]

theorem RoundTrip.xchg (h : Hdr) (wide : Bool) (d a b : GReg) : RoundTrip.Statement (.xchg h wide d a b) := by
  intro hw r hr
  cases h
  cases hr
  refine decode_of hw rfl ?_
  simp [candidate, candMem, rawR, rawOf, Raw.hdr, Raw.wide, mSize, mWide, xc, flag_code]
  simp -index (disch := omega) only [take_lo, take_all]
  simp [wide_code]

theorem RoundTrip.cas (h : Hdr) (wide : Bool) (d a b c : GReg) : RoundTrip.Statement (.cas h wide d a b c) := by
  intro hw r hr
  cases h
  cases hr
  refine decode_of hw rfl ?_
  simp [candidate, candMem, rawR, rawOf, Raw.hdr, Raw.c, Raw.wide, mSize, mWide, xc, flag_code]
  simp -index (disch := omega) only [take_lo, take_all]
  simp [wide_code]

theorem RoundTrip.xchgs (h : Hdr) (wide : Bool) (d : GReg) (p : Ptr) (b : GReg) : RoundTrip.Statement (.xchgs h wide d p b) := by
  intro hw r hr
  have ho := ops_of hw rfl
  simp only [Instr.operandsOk] at ho
  cases h
  cases hr
  refine decode_of hw rfl ?_
  simp [candidate, candMem, rawR, rawOf, Raw.hdr, Raw.ef, Raw.ptrA, Raw.wide, mSize, mWide, xc, flag_code]
  simp -index (disch := omega) only [take_lo, take_all]
  simp [wide_code, ptr_zero, ho]

theorem RoundTrip.cass (h : Hdr) (wide : Bool) (d : GReg) (p : Ptr) (b c : GReg) : RoundTrip.Statement (.cass h wide d p b c) := by
  intro hw r hr
  have ho := ops_of hw rfl
  simp only [Instr.operandsOk] at ho
  cases h
  cases hr
  refine decode_of hw rfl ?_
  simp [candidate, candMem, rawR, rawOf, Raw.hdr, Raw.c, Raw.ef, Raw.ptrA, Raw.wide, mSize, mWide, xc, flag_code]
  simp -index (disch := omega) only [take_lo, take_all]
  simp [wide_code, ptr_zero, ho]

theorem RoundTrip.xadd (h : Hdr) (wide : Bool) (d a b : GReg) : RoundTrip.Statement (.xadd h wide d a b) := by
  intro hw r hr
  cases h
  cases hr
  refine decode_of hw rfl ?_
  simp [candidate, candMem, rawR, rawOf, Raw.hdr, Raw.wide, mSize, mWide, xc, flag_code]
  simp -index (disch := omega) only [take_lo, take_all]
  simp [wide_code]

theorem RoundTrip.xadds (h : Hdr) (wide : Bool) (d : GReg) (p : Ptr) (b : GReg) : RoundTrip.Statement (.xadds h wide d p b) := by
  intro hw r hr
  have ho := ops_of hw rfl
  simp only [Instr.operandsOk] at ho
  cases h
  cases hr
  refine decode_of hw rfl ?_
  simp [candidate, candMem, rawR, rawOf, Raw.hdr, Raw.ef, Raw.ptrA, Raw.wide, mSize, mWide, xc, flag_code]
  simp -index (disch := omega) only [take_lo, take_all]
  simp [wide_code, ptr_zero, ho]

theorem RoundTrip.ldtag (h : Hdr) (d a : GReg) : RoundTrip.Statement (.ldtag h d a) := by
  intro hw r hr
  cases h
  cases hr
  refine decode_of hw rfl ?_
  simp [candidate, candMem, rawR, rawOf, Raw.hdr, xc, flag_code]

theorem RoundTrip.spawn (h : Hdr) (t : BitVec 12) : RoundTrip.Statement (.spawn h t) := by
  intro hw r hr
  cases h
  cases hr
  refine decode_of hw rfl ?_
  simp [candidate, candTask, rawOf, Raw.hdr, Raw.ef, jExt, flag_code]
  simp -index (disch := omega) only [take_lo, take_all]

theorem RoundTrip.post (h : Hdr) (t : BitVec 12) (a : GReg) : RoundTrip.Statement (.post h t a) := by
  intro hw r hr
  cases h
  cases hr
  refine decode_of hw rfl ?_
  simp [candidate, candTask, rawOf, Raw.hdr, Raw.ef, Raw.flag, jExt, flag_code]
  simp -index (disch := omega) only [take_lo, take_all]

theorem RoundTrip.postGrp (h : Hdr) (grp : BitVec 12) (a : GReg) : RoundTrip.Statement (.postGrp h grp a) := by
  intro hw r hr
  cases h
  cases hr
  refine decode_of hw rfl ?_
  simp [candidate, candTask, rawOf, Raw.hdr, Raw.ef, Raw.flag, mFlag, jExt, flag_code]
  simp -index (disch := omega) only [take_lo, take_hi, take_all]
  simp [flagBit_true]

theorem RoundTrip.halt (h : Hdr) : RoundTrip.Statement (.halt h) := by
  intro hw r hr
  cases h
  cases hr
  refine decode_of hw rfl ?_
  simp [candidate, candTask, rawR, rawOf, Raw.hdr, Raw.flag, xc, flag_code]

theorem RoundTrip.haltK (h : Hdr) (a : GReg) : RoundTrip.Statement (.haltK h a) := by
  intro hw r hr
  cases h
  cases hr
  refine decode_of hw rfl ?_
  simp [candidate, candTask, rawR, rawOf, Raw.hdr, Raw.flag, mFlag, xc, flag_code]
  simp [flagBit_true]

theorem RoundTrip.commit (h : Hdr) : RoundTrip.Statement (.commit h) := by
  intro hw r hr
  cases h
  cases hr
  refine decode_of hw rfl ?_
  simp [candidate, candTask, rawR, rawOf, Raw.hdr, xc, flag_code]

theorem RoundTrip.claim (h : Hdr) (g : BitVec 6) : RoundTrip.Statement (.claim h g) := by
  intro hw r hr
  cases h
  cases hr
  refine decode_of hw rfl ?_
  simp [candidate, candTask, rawI, rawOf, Raw.hdr, Raw.immf, flag_code]
  simp -index (disch := omega) only [take_lo, take_all]

theorem RoundTrip.unclaim (h : Hdr) (g : BitVec 6) : RoundTrip.Statement (.unclaim h g) := by
  intro hw r hr
  cases h
  cases hr
  refine decode_of hw rfl ?_
  simp [candidate, candTask, rawI, rawOf, Raw.hdr, Raw.immf, flag_code]
  simp -index (disch := omega) only [take_lo, take_all]

theorem RoundTrip.arrive (h : Hdr) (a : GReg) (phase : BitVec 4) (cm1 : BitVec 8) : RoundTrip.Statement (.arrive h a phase cm1) := by
  intro hw r hr
  cases h
  cases hr
  refine decode_of hw rfl ?_
  simp [candidate, candTask, rawI, rawOf, Raw.hdr, Raw.immf, flag_code]
  simp -index (disch := omega) only [take_lo, take_hi, take_all]
  simp []

theorem RoundTrip.binit (h : Hdr) (p : AReg) (b : GReg) (target : BitVec 16) (succ : BitVec 8) (phase : BitVec 4) : RoundTrip.Statement (.binit h p b target succ phase) := by
  intro hw r hr
  cases h
  cases hr
  refine decode_of hw rfl ?_
  simp [candidate, candTask, rawOf, Raw.hdr, Raw.ef, low3, rBit, jExt, flag_code]
  simp -index (disch := omega) only [take_lo, take_hi, take_all]
  simp []

theorem RoundTrip.watch (h : Hdr) (wide : Bool) (p : AReg) (b : GReg) (t : BitVec 12) : RoundTrip.Statement (.watch h wide p b t) := by
  intro hw r hr
  cases h
  cases hr
  refine decode_of hw rfl ?_
  simp [candidate, candTask, rawOf, Raw.hdr, Raw.ef, low3, Raw.wide, rBit, mSize, mWide, jExt, flag_code]
  simp -index (disch := omega) only [take_lo, take_all]
  simp [wide_code]

theorem RoundTrip.unwatch (h : Hdr) (d : GReg) (p : AReg) : RoundTrip.Statement (.unwatch h d p) := by
  intro hw r hr
  cases h
  cases hr
  refine decode_of hw rfl ?_
  simp [candidate, candTask, rawR, rawOf, Raw.hdr, low3, rBit, xc, flag_code]
  simp -index (disch := omega) only [take_lo, take_all]

theorem RoundTrip.qpush (h : Hdr) (q : QReg) (a b : GReg) : RoundTrip.Statement (.qpush h q a b) := by
  intro hw r hr
  cases h
  cases hr
  refine decode_of hw rfl ?_
  simp [candidate, candTask, rawR, rawOf, Raw.hdr, low3, rBit, xc, flag_code]
  simp -index (disch := omega) only [take_lo, take_all]

theorem RoundTrip.qpop (h : Hdr) (d : GReg) (q : QReg) : RoundTrip.Statement (.qpop h d q) := by
  intro hw r hr
  cases h
  cases hr
  refine decode_of hw rfl ?_
  simp [candidate, candTask, rawR, rawOf, Raw.hdr, low3, rBit, xc, flag_code]
  simp -index (disch := omega) only [take_lo, take_all]

theorem RoundTrip.qcfg (h : Hdr) (q : QReg) (a : GReg) : RoundTrip.Statement (.qcfg h q a) := by
  intro hw r hr
  cases h
  cases hr
  refine decode_of hw rfl ?_
  simp [candidate, candTask, rawR, rawOf, Raw.hdr, low3, rBit, xc, flag_code]
  simp -index (disch := omega) only [take_lo, take_all]

theorem RoundTrip.qlen (h : Hdr) (d : GReg) (q : QReg) : RoundTrip.Statement (.qlen h d q) := by
  intro hw r hr
  cases h
  cases hr
  refine decode_of hw rfl ?_
  simp [candidate, candTask, rawR, rawOf, Raw.hdr, low3, rBit, xc, flag_code]
  simp -index (disch := omega) only [take_lo, take_all]

theorem RoundTrip.rld (h : Hdr) (sz : Size) (sx : Bool) (d a : GReg) (peer : BitVec 5) (live : BitVec 32) : RoundTrip.Statement (.rld h sz sx d a peer live) := by
  intro hw r hr
  cases h
  cases hr
  refine decode_of hw rfl ?_
  simp [candidate, candTask, rawOf, Raw.hdr, Raw.xf, Raw.j, Raw.flag, Raw.size, mSize, xc, jExt, flag_code]
  simp -index (disch := omega) only [take_lo, take_hi, take_all]
  simp [size_code, flag_code]

theorem RoundTrip.rst (h : Hdr) (sz : Size) (a b : GReg) (peer : BitVec 5) : RoundTrip.Statement (.rst h sz a b peer) := by
  intro hw r hr
  cases h
  cases hr
  refine decode_of hw rfl ?_
  simp [candidate, candTask, rawR, rawOf, Raw.hdr, Raw.xf, Raw.flag, Raw.size, mSize, xc, flag_code]
  simp -index (disch := omega) only [take_lo, take_hi, take_all]
  simp [size_code, flagBit_false]

theorem RoundTrip.rstRel (h : Hdr) (sz : Size) (a b : GReg) (peer : BitVec 5) (t : BitVec 12) : RoundTrip.Statement (.rstRel h sz a b peer t) := by
  intro hw r hr
  cases h
  cases hr
  refine decode_of hw rfl ?_
  simp [candidate, candTask, rawR, rawOf, Raw.hdr, Raw.xf, Raw.flag, Raw.size, mSize, xc, flag_code]
  simp -index (disch := omega) only [take_lo, take_hi, take_all]
  simp [size_code, flagBit_true]

theorem RoundTrip.rcas (h : Hdr) (wide : Bool) (d a b c : GReg) (peer : BitVec 5) : RoundTrip.Statement (.rcas h wide d a b c peer) := by
  intro hw r hr
  cases h
  cases hr
  refine decode_of hw rfl ?_
  simp [candidate, candTask, rawR, rawOf, Raw.hdr, Raw.c, Raw.xf, Raw.wide, mSize, mWide, xc, flag_code]
  simp -index (disch := omega) only [take_lo, take_hi, take_all]
  simp [wide_code]

theorem RoundTrip.rfold (h : Hdr) (p : Ptr) (a b : GReg) (lm1 : BitVec 4) (peer : BitVec 5) : RoundTrip.Statement (.rfold h p a b lm1 peer) := by
  intro hw r hr
  have ho := ops_of hw rfl
  simp only [Instr.operandsOk] at ho
  cases h
  cases hr
  refine decode_of hw rfl ?_
  simp [candidate, candTask, rawR, rawOf, Raw.hdr, Raw.xf, Raw.ef, Raw.ptrD, xc, flag_code]
  simp -index (disch := omega) only [take_lo, take_hi, take_all]
  simp [ptr_zero, ho]

theorem RoundTrip.rxchg (h : Hdr) (wide : Bool) (d a b : GReg) (peer : BitVec 5) : RoundTrip.Statement (.rxchg h wide d a b peer) := by
  intro hw r hr
  cases h
  cases hr
  refine decode_of hw rfl ?_
  simp [candidate, candTask, rawR, rawOf, Raw.hdr, Raw.xf, Raw.wide, mSize, mWide, xc, flag_code]
  simp -index (disch := omega) only [take_lo, take_hi, take_all]
  simp [wide_code]

theorem RoundTrip.fadd (h : Hdr) (f : Fmt) (r : Rnd) (d a b : GReg) : RoundTrip.Statement (.fadd h f r d a b) := by
  intro hw r hr
  cases h
  cases hr
  refine decode_of hw rfl ?_
  simp [candidate, candFlt, rawR, rawOf, Raw.hdr, Raw.fmt, Raw.rnd, mFmt, xc, flag_code]
  simp -index (disch := omega) only [take_lo, take_hi, take_all]
  simp [fmt_code, rnd_code]

theorem RoundTrip.fsub (h : Hdr) (f : Fmt) (r : Rnd) (d a b : GReg) : RoundTrip.Statement (.fsub h f r d a b) := by
  intro hw r hr
  cases h
  cases hr
  refine decode_of hw rfl ?_
  simp [candidate, candFlt, rawR, rawOf, Raw.hdr, Raw.fmt, Raw.rnd, mFmt, xc, flag_code]
  simp -index (disch := omega) only [take_lo, take_hi, take_all]
  simp [fmt_code, rnd_code]

theorem RoundTrip.fmul (h : Hdr) (f : Fmt) (r : Rnd) (d a b : GReg) : RoundTrip.Statement (.fmul h f r d a b) := by
  intro hw r hr
  cases h
  cases hr
  refine decode_of hw rfl ?_
  simp [candidate, candFlt, rawR, rawOf, Raw.hdr, Raw.fmt, Raw.rnd, mFmt, xc, flag_code]
  simp -index (disch := omega) only [take_lo, take_hi, take_all]
  simp [fmt_code, rnd_code]

theorem RoundTrip.fdiv (h : Hdr) (f : Fmt) (r : Rnd) (d a b : GReg) : RoundTrip.Statement (.fdiv h f r d a b) := by
  intro hw r hr
  cases h
  cases hr
  refine decode_of hw rfl ?_
  simp [candidate, candFlt, rawR, rawOf, Raw.hdr, Raw.fmt, Raw.rnd, mFmt, xc, flag_code]
  simp -index (disch := omega) only [take_lo, take_hi, take_all]
  simp [fmt_code, rnd_code]

theorem RoundTrip.fsqrt (h : Hdr) (f : Fmt) (r : Rnd) (d a : GReg) : RoundTrip.Statement (.fsqrt h f r d a) := by
  intro hw r hr
  cases h
  cases hr
  refine decode_of hw rfl ?_
  simp [candidate, candFlt, rawR, rawOf, Raw.hdr, Raw.fmt, Raw.rnd, mFmt, xc, flag_code]
  simp -index (disch := omega) only [take_lo, take_hi, take_all]
  simp [fmt_code, rnd_code]

theorem RoundTrip.ffma (h : Hdr) (f : Fmt) (r : Rnd) (d a b c : GReg) : RoundTrip.Statement (.ffma h f r d a b c) := by
  intro hw r hr
  cases h
  cases hr
  refine decode_of hw rfl ?_
  simp [candidate, candFlt, rawR, rawOf, Raw.hdr, Raw.c, Raw.fmt, Raw.rnd, mFmt, xc, flag_code]
  simp -index (disch := omega) only [take_lo, take_hi, take_all]
  simp [fmt_code, rnd_code]

theorem RoundTrip.fmin (h : Hdr) (f : Fmt) (d a b : GReg) : RoundTrip.Statement (.fmin h f d a b) := by
  intro hw r hr
  cases h
  cases hr
  refine decode_of hw rfl ?_
  simp [candidate, candFlt, rawR, rawOf, Raw.hdr, Raw.fmt, mFmt, xc, flag_code]
  simp -index (disch := omega) only [take_lo, take_all]
  simp [fmt_code]

theorem RoundTrip.fmax (h : Hdr) (f : Fmt) (d a b : GReg) : RoundTrip.Statement (.fmax h f d a b) := by
  intro hw r hr
  cases h
  cases hr
  refine decode_of hw rfl ?_
  simp [candidate, candFlt, rawR, rawOf, Raw.hdr, Raw.fmt, mFmt, xc, flag_code]
  simp -index (disch := omega) only [take_lo, take_all]
  simp [fmt_code]

theorem RoundTrip.fminp (h : Hdr) (f : Fmt) (d a b : GReg) : RoundTrip.Statement (.fminp h f d a b) := by
  intro hw r hr
  cases h
  cases hr
  refine decode_of hw rfl ?_
  simp [candidate, candFlt, rawR, rawOf, Raw.hdr, Raw.fmt, mFmt, xc, flag_code]
  simp -index (disch := omega) only [take_lo, take_all]
  simp [fmt_code]

theorem RoundTrip.fmaxp (h : Hdr) (f : Fmt) (d a b : GReg) : RoundTrip.Statement (.fmaxp h f d a b) := by
  intro hw r hr
  cases h
  cases hr
  refine decode_of hw rfl ?_
  simp [candidate, candFlt, rawR, rawOf, Raw.hdr, Raw.fmt, mFmt, xc, flag_code]
  simp -index (disch := omega) only [take_lo, take_all]
  simp [fmt_code]

theorem RoundTrip.fabs (h : Hdr) (f : Fmt) (d a : GReg) : RoundTrip.Statement (.fabs h f d a) := by
  intro hw r hr
  cases h
  cases hr
  refine decode_of hw rfl ?_
  simp [candidate, candFlt, rawR, rawOf, Raw.hdr, Raw.fmt, mFmt, xc, flag_code]
  simp -index (disch := omega) only [take_lo, take_all]
  simp [fmt_code]

theorem RoundTrip.fneg (h : Hdr) (f : Fmt) (d a : GReg) : RoundTrip.Statement (.fneg h f d a) := by
  intro hw r hr
  cases h
  cases hr
  refine decode_of hw rfl ?_
  simp [candidate, candFlt, rawR, rawOf, Raw.hdr, Raw.fmt, mFmt, xc, flag_code]
  simp -index (disch := omega) only [take_lo, take_all]
  simp [fmt_code]

theorem RoundTrip.fcmp (h : Hdr) (cond : FCond) (f : Fmt) (d : PReg) (a b : GReg) : RoundTrip.Statement (.fcmp h cond f d a b) := by
  intro hw r hr
  cases h
  cases hr
  refine decode_of hw rfl ?_
  simp [candidate, candFlt, rawR, rawOf, Raw.hdr, Raw.xf, low3, Raw.fmt, rBit, mFmt, xc, flag_code]
  simp -index (disch := omega) only [take_lo, take_hi, take_all]
  simp [fmt_code, fcond_code]

theorem RoundTrip.fclass (h : Hdr) (f : Fmt) (d a : GReg) : RoundTrip.Statement (.fclass h f d a) := by
  intro hw r hr
  cases h
  cases hr
  refine decode_of hw rfl ?_
  simp [candidate, candFlt, rawR, rawOf, Raw.hdr, Raw.fmt, mFmt, xc, flag_code]
  simp -index (disch := omega) only [take_lo, take_all]
  simp [fmt_code]

theorem RoundTrip.fcvt (h : Hdr) (dst src : Fmt) (r : Rnd) (d a : GReg) : RoundTrip.Statement (.fcvt h dst src r d a) := by
  intro hw r hr
  cases h
  cases hr
  refine decode_of hw rfl ?_
  simp [candidate, candFlt, rawR, rawOf, Raw.hdr, Raw.c, Raw.fmt, Raw.rnd, Raw.cfmt, mFmt, xc, flag_code]
  simp -index (disch := omega) only [take_lo, take_hi, take_all]
  simp [fmt_code, rnd_code]

theorem RoundTrip.icvtf (h : Hdr) (dst src : Fmt) (r : Rnd) (d a : GReg) : RoundTrip.Statement (.icvtf h dst src r d a) := by
  intro hw r hr
  cases h
  cases hr
  refine decode_of hw rfl ?_
  simp [candidate, candFlt, rawR, rawOf, Raw.hdr, Raw.c, Raw.fmt, Raw.rnd, Raw.cfmt, mFmt, xc, flag_code]
  simp -index (disch := omega) only [take_lo, take_hi, take_all]
  simp [fmt_code, rnd_code]

theorem RoundTrip.fcvti (h : Hdr) (dst src : Fmt) (r : Rnd) (d a : GReg) : RoundTrip.Statement (.fcvti h dst src r d a) := by
  intro hw r hr
  cases h
  cases hr
  refine decode_of hw rfl ?_
  simp [candidate, candFlt, rawR, rawOf, Raw.hdr, Raw.c, Raw.fmt, Raw.rnd, Raw.cfmt, mFmt, xc, flag_code]
  simp -index (disch := omega) only [take_lo, take_hi, take_all]
  simp [fmt_code, rnd_code]

theorem RoundTrip.fmovi (h : Hdr) (f : Fmt) (d : GReg) (imm : BitVec 32) : RoundTrip.Statement (.fmovi h f d imm) := by
  intro hw r hr
  cases h
  cases hr
  refine decode_of hw rfl ?_
  simp [candidate, candFlt, rawOf, Raw.hdr, Raw.j, Raw.fmt, mFmt, jExt, flag_code]
  simp -index (disch := omega) only [take_lo, take_all]
  simp [fmt_code]

theorem RoundTrip.frnd (h : Hdr) (f : Fmt) (r : Rnd) (d a : GReg) : RoundTrip.Statement (.frnd h f r d a) := by
  intro hw r hr
  cases h
  cases hr
  refine decode_of hw rfl ?_
  simp [candidate, candFlt, rawR, rawOf, Raw.hdr, Raw.fmt, Raw.rnd, mFmt, xc, flag_code]
  simp -index (disch := omega) only [take_lo, take_hi, take_all]
  simp [fmt_code, rnd_code]

theorem RoundTrip.fscale (h : Hdr) (f : Fmt) (r : Rnd) (d a b : GReg) : RoundTrip.Statement (.fscale h f r d a b) := by
  intro hw r hr
  cases h
  cases hr
  refine decode_of hw rfl ?_
  simp [candidate, candFlt, rawR, rawOf, Raw.hdr, Raw.fmt, Raw.rnd, mFmt, xc, flag_code]
  simp -index (disch := omega) only [take_lo, take_hi, take_all]
  simp [fmt_code, rnd_code]

theorem RoundTrip.vmodeLong (h : Hdr) : RoundTrip.Statement (.vmodeLong h) := by
  intro hw r hr
  cases h
  cases hr
  refine decode_of hw rfl ?_
  simp [candidate, candVec, rawR, rawOf, Raw.hdr, Raw.flag, mFlag, xc, flag_code]
  simp [flagBit_true]

theorem RoundTrip.vmodeShort (h : Hdr) : RoundTrip.Statement (.vmodeShort h) := by
  intro hw r hr
  cases h
  cases hr
  refine decode_of hw rfl ?_
  simp [candidate, candVec, rawR, rawOf, Raw.hdr, Raw.flag, xc, flag_code]

theorem RoundTrip.vld (h : Hdr) (x w : Bool) (d : VReg) (p : Ptr) : RoundTrip.Statement (.vld h x w d p) := by
  intro hw r hr
  have ho := ops_of hw rfl
  simp only [Instr.operandsOk] at ho
  cases h
  cases hr
  refine decode_of hw rfl ?_
  simp [candidate, candVec, rawOf, Raw.hdr, Raw.ef, Raw.ptrA, low4, Raw.is96, Raw.wf, vBit, xc, xw, flag_code]
  simp -index (disch := omega) only [take_lo, take_hi, take_all]
  simp [flag_code, is96_code, ptr_slotA, ho]

theorem RoundTrip.vst (h : Hdr) (x w : Bool) (p : Ptr) (a : VReg) : RoundTrip.Statement (.vst h x w p a) := by
  intro hw r hr
  have ho := ops_of hw rfl
  simp only [Instr.operandsOk] at ho
  cases h
  cases hr
  refine decode_of hw rfl ?_
  simp [candidate, candVec, rawOf, Raw.hdr, Raw.ef, Raw.ptrD, low4, Raw.is96, Raw.wf, vBit, xc, xw, flag_code]
  simp -index (disch := omega) only [take_lo, take_hi, take_all]
  simp [flag_code, is96_code, ptr_slotD, ho]

theorem RoundTrip.vldv (h : Hdr) (w : Bool) (d : VReg) (a : GReg) : RoundTrip.Statement (.vldv h w d a) := by
  intro hw r hr
  cases h
  cases hr
  refine decode_of hw rfl ?_
  simp [candidate, candVec, rawR, rawOf, Raw.hdr, low4, Raw.wf, vBit, xc, xw, flag_code]
  simp -index (disch := omega) only [take_lo, take_hi, take_all]
  simp [flag_code]

theorem RoundTrip.vstv (h : Hdr) (w : Bool) (a : GReg) (b : VReg) : RoundTrip.Statement (.vstv h w a b) := by
  intro hw r hr
  cases h
  cases hr
  refine decode_of hw rfl ?_
  simp [candidate, candVec, rawR, rawOf, Raw.hdr, low4, Raw.wf, vBit, xc, xw, flag_code]
  simp -index (disch := omega) only [take_lo, take_hi, take_all]
  simp [flag_code]

theorem RoundTrip.vadd (h : Hdr) (w sat : Bool) (f : Fmt) (r : Rnd) (d a b : VReg) : RoundTrip.Statement (.vadd h w sat f r d a b) := by
  intro hw r hr
  cases h
  cases hr
  refine decode_of hw rfl ?_
  simp [candidate, candVec, rawR, rawOf, Raw.hdr, low4, Raw.fmt, Raw.rnd, Raw.flag, Raw.wf, vBit, mFmt, xc, xw, flag_code]
  simp -index (disch := omega) only [take_lo, take_hi, take_all]
  simp [fmt_code, rnd_code, flag_code]

theorem RoundTrip.vsub (h : Hdr) (w sat : Bool) (f : Fmt) (r : Rnd) (d a b : VReg) : RoundTrip.Statement (.vsub h w sat f r d a b) := by
  intro hw r hr
  cases h
  cases hr
  refine decode_of hw rfl ?_
  simp [candidate, candVec, rawR, rawOf, Raw.hdr, low4, Raw.fmt, Raw.rnd, Raw.flag, Raw.wf, vBit, mFmt, xc, xw, flag_code]
  simp -index (disch := omega) only [take_lo, take_hi, take_all]
  simp [fmt_code, rnd_code, flag_code]

theorem RoundTrip.vmul (h : Hdr) (w : Bool) (f : Fmt) (r : Rnd) (d a b : VReg) : RoundTrip.Statement (.vmul h w f r d a b) := by
  intro hw r hr
  cases h
  cases hr
  refine decode_of hw rfl ?_
  simp [candidate, candVec, rawR, rawOf, Raw.hdr, low4, Raw.fmt, Raw.rnd, Raw.wf, vBit, mFmt, xc, xw, flag_code]
  simp -index (disch := omega) only [take_lo, take_hi, take_all]
  simp [fmt_code, rnd_code, flag_code]

theorem RoundTrip.vfma (h : Hdr) (w : Bool) (f : Fmt) (r : Rnd) (d a b c : VReg) : RoundTrip.Statement (.vfma h w f r d a b c) := by
  intro hw r hr
  cases h
  cases hr
  refine decode_of hw rfl ?_
  simp [candidate, candVec, rawR, rawOf, Raw.hdr, Raw.c, low4, Raw.fmt, Raw.rnd, Raw.wf, vBit, mFmt, xc, xw, flag_code]
  simp -index (disch := omega) only [take_lo, take_hi, take_all]
  simp [fmt_code, rnd_code, flag_code]

theorem RoundTrip.vmin (h : Hdr) (w u : Bool) (f : Fmt) (d a b : VReg) : RoundTrip.Statement (.vmin h w u f d a b) := by
  intro hw r hr
  cases h
  cases hr
  refine decode_of hw rfl ?_
  simp [candidate, candVec, rawR, rawOf, Raw.hdr, low4, Raw.fmt, Raw.flag, Raw.wf, vBit, mFmt, xc, xw, flag_code]
  simp -index (disch := omega) only [take_lo, take_hi, take_all]
  simp [fmt_code, flag_code]

theorem RoundTrip.vmax (h : Hdr) (w u : Bool) (f : Fmt) (d a b : VReg) : RoundTrip.Statement (.vmax h w u f d a b) := by
  intro hw r hr
  cases h
  cases hr
  refine decode_of hw rfl ?_
  simp [candidate, candVec, rawR, rawOf, Raw.hdr, low4, Raw.fmt, Raw.flag, Raw.wf, vBit, mFmt, xc, xw, flag_code]
  simp -index (disch := omega) only [take_lo, take_hi, take_all]
  simp [fmt_code, flag_code]

theorem RoundTrip.vminp (h : Hdr) (w : Bool) (f : Fmt) (d a b : VReg) : RoundTrip.Statement (.vminp h w f d a b) := by
  intro hw r hr
  cases h
  cases hr
  refine decode_of hw rfl ?_
  simp [candidate, candVec, rawR, rawOf, Raw.hdr, low4, Raw.fmt, Raw.wf, vBit, mFmt, xc, xw, flag_code]
  simp -index (disch := omega) only [take_lo, take_hi, take_all]
  simp [fmt_code, flag_code]

theorem RoundTrip.vmaxp (h : Hdr) (w : Bool) (f : Fmt) (d a b : VReg) : RoundTrip.Statement (.vmaxp h w f d a b) := by
  intro hw r hr
  cases h
  cases hr
  refine decode_of hw rfl ?_
  simp [candidate, candVec, rawR, rawOf, Raw.hdr, low4, Raw.fmt, Raw.wf, vBit, mFmt, xc, xw, flag_code]
  simp -index (disch := omega) only [take_lo, take_hi, take_all]
  simp [fmt_code, flag_code]

theorem RoundTrip.vneg (h : Hdr) (w : Bool) (f : Fmt) (d a : VReg) : RoundTrip.Statement (.vneg h w f d a) := by
  intro hw r hr
  cases h
  cases hr
  refine decode_of hw rfl ?_
  simp [candidate, candVec, rawR, rawOf, Raw.hdr, low4, Raw.fmt, Raw.wf, vBit, mFmt, xc, xw, flag_code]
  simp -index (disch := omega) only [take_lo, take_hi, take_all]
  simp [fmt_code, flag_code]

theorem RoundTrip.vabs (h : Hdr) (w : Bool) (f : Fmt) (d a : VReg) : RoundTrip.Statement (.vabs h w f d a) := by
  intro hw r hr
  cases h
  cases hr
  refine decode_of hw rfl ?_
  simp [candidate, candVec, rawR, rawOf, Raw.hdr, low4, Raw.fmt, Raw.wf, vBit, mFmt, xc, xw, flag_code]
  simp -index (disch := omega) only [take_lo, take_hi, take_all]
  simp [fmt_code, flag_code]

theorem RoundTrip.vand (h : Hdr) (w : Bool) (d a b : VReg) : RoundTrip.Statement (.vand h w d a b) := by
  intro hw r hr
  cases h
  cases hr
  refine decode_of hw rfl ?_
  simp [candidate, candVec, rawR, rawOf, Raw.hdr, low4, Raw.wf, vBit, xc, xw, flag_code]
  simp -index (disch := omega) only [take_lo, take_hi, take_all]
  simp [flag_code]

theorem RoundTrip.vor (h : Hdr) (w : Bool) (d a b : VReg) : RoundTrip.Statement (.vor h w d a b) := by
  intro hw r hr
  cases h
  cases hr
  refine decode_of hw rfl ?_
  simp [candidate, candVec, rawR, rawOf, Raw.hdr, low4, Raw.wf, vBit, xc, xw, flag_code]
  simp -index (disch := omega) only [take_lo, take_hi, take_all]
  simp [flag_code]

theorem RoundTrip.vxor (h : Hdr) (w : Bool) (d a b : VReg) : RoundTrip.Statement (.vxor h w d a b) := by
  intro hw r hr
  cases h
  cases hr
  refine decode_of hw rfl ?_
  simp [candidate, candVec, rawR, rawOf, Raw.hdr, low4, Raw.wf, vBit, xc, xw, flag_code]
  simp -index (disch := omega) only [take_lo, take_hi, take_all]
  simp [flag_code]

theorem RoundTrip.vshl (h : Hdr) (w : Bool) (f : Fmt) (d a b : VReg) : RoundTrip.Statement (.vshl h w f d a b) := by
  intro hw r hr
  cases h
  cases hr
  refine decode_of hw rfl ?_
  simp [candidate, candVec, rawR, rawOf, Raw.hdr, low4, Raw.fmt, Raw.wf, vBit, mFmt, xc, xw, flag_code]
  simp -index (disch := omega) only [take_lo, take_hi, take_all]
  simp [fmt_code, flag_code]

theorem RoundTrip.vshr (h : Hdr) (w sx : Bool) (f : Fmt) (d a b : VReg) : RoundTrip.Statement (.vshr h w sx f d a b) := by
  intro hw r hr
  cases h
  cases hr
  refine decode_of hw rfl ?_
  simp [candidate, candVec, rawR, rawOf, Raw.hdr, low4, Raw.fmt, Raw.flag, Raw.wf, vBit, mFmt, xc, xw, flag_code]
  simp -index (disch := omega) only [take_lo, take_hi, take_all]
  simp [fmt_code, flag_code]

theorem RoundTrip.vcmp (h : Hdr) (w : Bool) (cond : VCond) (f : Fmt) (d a b : VReg) : RoundTrip.Statement (.vcmp h w cond f d a b) := by
  intro hw r hr
  have ho := ops_of hw rfl
  simp only [Instr.operandsOk] at ho
  cases h
  cases hr
  refine decode_of hw rfl ?_
  simp [candidate, candVec, rawR, rawOf, Raw.hdr, Raw.xf, low4, Raw.fmt, Raw.wf, vBit, mFmt, xc, xw, flag_code]
  simp -index (disch := omega) only [take_lo, take_hi, take_all]
  simp [fmt_code, flag_code, vcond_code _ _ ho]

theorem RoundTrip.vsel (h : Hdr) (w : Bool) (f : Fmt) (d m a b : VReg) : RoundTrip.Statement (.vsel h w f d m a b) := by
  intro hw r hr
  cases h
  cases hr
  refine decode_of hw rfl ?_
  simp [candidate, candVec, rawR, rawOf, Raw.hdr, Raw.c, low4, Raw.fmt, Raw.wf, vBit, mFmt, xc, xw, flag_code]
  simp -index (disch := omega) only [take_lo, take_hi, take_all]
  simp [fmt_code, flag_code]

theorem RoundTrip.vred (h : Hdr) (w : Bool) (op : RedOp) (f : Fmt) (r : Rnd) (d : GReg) (a : VReg) : RoundTrip.Statement (.vred h w op f r d a) := by
  intro hw r hr
  cases h
  cases hr
  refine decode_of hw rfl ?_
  simp [candidate, candVec, rawR, rawOf, Raw.hdr, Raw.xf, low4, Raw.fmt, Raw.rnd, Raw.wf, vBit, mFmt, xc, xw, flag_code]
  simp -index (disch := omega) only [take_lo, take_hi, take_all]
  simp [fmt_code, rnd_code, red_code, flag_code]

theorem RoundTrip.vdot (h : Hdr) (w : Bool) (dst src : Fmt) (r : Rnd) (d a b : VReg) : RoundTrip.Statement (.vdot h w dst src r d a b) := by
  intro hw r hr
  cases h
  cases hr
  refine decode_of hw rfl ?_
  simp [candidate, candVec, rawR, rawOf, Raw.hdr, Raw.c, low4, Raw.fmt, Raw.rnd, Raw.cfmt, Raw.wf, vBit, mFmt, xc, xw, flag_code]
  simp -index (disch := omega) only [take_lo, take_hi, take_all]
  simp [fmt_code, rnd_code, flag_code]

theorem RoundTrip.vperm (h : Hdr) (w : Bool) (f : Fmt) (d a b c : VReg) : RoundTrip.Statement (.vperm h w f d a b c) := by
  intro hw r hr
  cases h
  cases hr
  refine decode_of hw rfl ?_
  simp [candidate, candVec, rawR, rawOf, Raw.hdr, Raw.c, low4, Raw.fmt, Raw.wf, vBit, mFmt, xc, xw, flag_code]
  simp -index (disch := omega) only [take_lo, take_hi, take_all]
  simp [fmt_code, flag_code]

theorem RoundTrip.vbcast (h : Hdr) (w : Bool) (f : Fmt) (d : VReg) (a : GReg) : RoundTrip.Statement (.vbcast h w f d a) := by
  intro hw r hr
  cases h
  cases hr
  refine decode_of hw rfl ?_
  simp [candidate, candVec, rawR, rawOf, Raw.hdr, low4, Raw.fmt, Raw.wf, vBit, mFmt, xc, xw, flag_code]
  simp -index (disch := omega) only [take_lo, take_hi, take_all]
  simp [fmt_code, flag_code]

theorem RoundTrip.vcvt (h : Hdr) (w : Bool) (dst src : Fmt) (r : Rnd) (d a : VReg) (part : BitVec 3) (rs : Option RsOp) : RoundTrip.Statement (.vcvt h w dst src r d a part rs) := by
  intro hw r hr
  have ho := ops_of hw rfl
  simp only [Instr.operandsOk, Bool.and_eq_true] at ho
  cases rs with
  | none =>
    cases h
    cases hr
    refine decode_of hw rfl ?_
    simp [candidate, candVec, rawR, rawOf, Raw.hdr, Raw.c, Raw.xf, low4, Raw.fmt, Raw.rnd, Raw.cfmt, Raw.wf, vBit, mFmt, xc, xw, flag_code]
    simp -index (disch := omega) only [take_lo, take_hi, take_all]
    simp [fmt_code, rnd_code, flag_code, rs_none ho.1.2]
  | some o =>
    cases h
    cases hr
    refine decode_of hw rfl ?_
    simp [candidate, candVec, rawR, rawOf, Raw.hdr, Raw.c, Raw.xf, low4, Raw.fmt, Raw.rnd, Raw.cfmt, Raw.wf, vBit, mFmt, xc, xw, flag_code]
    simp -index (disch := omega) only [take_lo, take_hi, take_all]
    simp [fmt_code, rnd_code, flag_code, rs_some ho.1.2]

theorem RoundTrip.vmovg (h : Hdr) (w : Bool) (f : Fmt) (d : GReg) (a : VReg) (idx : BitVec 8) : RoundTrip.Statement (.vmovg h w f d a idx) := by
  intro hw r hr
  cases h
  cases hr
  refine decode_of hw rfl ?_
  simp [candidate, candVec, rawI, rawOf, Raw.hdr, Raw.immf, low4, Raw.fmt, Raw.wf, vBit, mFmt, flag_code]
  simp -index (disch := omega) only [take_lo, take_hi, take_all]
  simp [fmt_code, flag_code]

theorem RoundTrip.vins (h : Hdr) (w : Bool) (f : Fmt) (d : VReg) (a : GReg) (idx : BitVec 8) : RoundTrip.Statement (.vins h w f d a idx) := by
  intro hw r hr
  cases h
  cases hr
  refine decode_of hw rfl ?_
  simp [candidate, candVec, rawI, rawOf, Raw.hdr, Raw.immf, low4, Raw.fmt, Raw.wf, vBit, mFmt, flag_code]
  simp -index (disch := omega) only [take_lo, take_hi, take_all]
  simp [fmt_code, flag_code]

theorem RoundTrip.vchain (h : Hdr) (dst src : Fmt) (r : Rnd) (pd ps0 ps1 : Ptr) (gk gn gs : GReg) (ops : List (ChainOp × ChainSrc)) : RoundTrip.Statement (.vchain h dst src r pd ps0 ps1 gk gn gs ops) := by
  intro hw r hr
  have ho := ops_of hw rfl
  simp only [Instr.operandsOk, Bool.and_eq_true] at ho
  cases h
  cases hr
  refine decode_of hw rfl ?_
  simp [candidate, candVec, rawOf, Raw.hdr, Raw.c, Raw.xf, Raw.fmt, Raw.rnd, Raw.cfmt, mFmt, xc, flag_code]
  simp -index (disch := omega) only [take_lo, take_hi, take_all]
  simp [fmt_code, rnd_code, ptr_zero, chain_word, ho, of_decide_eq_true ho.1.2]

theorem RoundTrip.vclamp (h : Hdr) (w u : Bool) (f : Fmt) (d a b c : VReg) : RoundTrip.Statement (.vclamp h w u f d a b c) := by
  intro hw r hr
  cases h
  cases hr
  refine decode_of hw rfl ?_
  simp [candidate, candVec, rawR, rawOf, Raw.hdr, Raw.c, low4, Raw.fmt, Raw.flag, Raw.wf, vBit, mFmt, xc, xw, flag_code]
  simp -index (disch := omega) only [take_lo, take_hi, take_all]
  simp [fmt_code, flag_code]

theorem RoundTrip.mwl (h : Hdr) (wf : Fmt) (p : Ptr) (c0 cm1 : BitVec 7) : RoundTrip.Statement (.mwl h wf p c0 cm1) := by
  intro hw r hr
  have ho := ops_of hw rfl
  simp only [Instr.operandsOk, Bool.and_eq_true] at ho
  cases h
  cases hr
  refine decode_of hw rfl ?_
  simp [candidate, candEng, rawOf, Raw.hdr, Raw.ef, Raw.fmt, mFmt, jExt, flag_code]
  simp -index (disch := omega) only [take_lo, take_hi, take_all]
  simp [fmt_code, ptr_zero, ho]

theorem RoundTrip.mswap (h : Hdr) : RoundTrip.Statement (.mswap h) := by
  intro hw r hr
  cases h
  cases hr
  refine decode_of hw rfl ?_
  simp [candidate, candEng, rawR, rawOf, Raw.hdr, xc, flag_code]

theorem RoundTrip.mmul (h : Hdr) (af : Fmt) (z : Bool) (p : Ptr) : RoundTrip.Statement (.mmul h af z p) := by
  intro hw r hr
  have ho := ops_of hw rfl
  simp only [Instr.operandsOk, Bool.and_eq_true] at ho
  cases h
  cases hr
  refine decode_of hw rfl ?_
  simp [candidate, candEng, rawR, rawOf, Raw.hdr, Raw.fmt, Raw.flag, mFmt, xc, flag_code]
  simp -index (disch := omega) only [take_lo, take_hi, take_all]
  simp [fmt_code, flag_code, ptr_zero, ho]

theorem RoundTrip.mpass (h : Hdr) (af wf : Fmt) (z : Bool) (p : Ptr) (b gs : GReg) (sm1 : BitVec 8) (stride : BitVec 32) : RoundTrip.Statement (.mpass h af wf z p b gs sm1 stride) := by
  intro hw r hr
  have ho := ops_of hw rfl
  simp only [Instr.operandsOk, Bool.and_eq_true] at ho
  cases h
  cases hr
  refine decode_of hw rfl ?_
  simp [candidate, candEng, rawOf, Raw.hdr, Raw.c, Raw.xf, Raw.ef, Raw.fmt, Raw.flag, Raw.cfmt, mFmt, xc, flag_code]
  try simp -index (disch := omega) only [take_lo, take_hi, take_all]
  try simp [fmt_code, flag_code, ptr_zero, ho]

theorem RoundTrip.mweave (h : Hdr) (af : Fmt) (z : Bool) (p q : AReg) (gs : GReg) : RoundTrip.Statement (.mweave h af z p q gs) := by
  intro hw r hr
  cases h
  cases hr
  refine decode_of hw rfl ?_
  simp [candidate, candEng, rawR, rawOf, Raw.hdr, Raw.xf, low3, Raw.fmt, Raw.flag, rBit, mFmt, xc, flag_code]
  try simp -index (disch := omega) only [take_lo, take_hi, take_all]
  try simp [fmt_code, flag_code]

theorem RoundTrip.macz (h : Hdr) : RoundTrip.Statement (.macz h) := by
  intro hw r hr
  cases h
  cases hr
  refine decode_of hw rfl ?_
  simp [candidate, candEng, rawR, rawOf, Raw.hdr, xc, flag_code]

theorem RoundTrip.macld (h : Hdr) (p : Ptr) (row rm1 : BitVec 5) : RoundTrip.Statement (.macld h p row rm1) := by
  intro hw r hr
  have ho := ops_of hw rfl
  simp only [Instr.operandsOk] at ho
  cases h
  cases hr
  refine decode_of hw rfl ?_
  simp [candidate, candEng, rawR, rawOf, Raw.hdr, Raw.xf, xc, flag_code]
  try simp -index (disch := omega) only [take_lo, take_hi, take_all]
  try simp [ptr_zero, ho]

theorem RoundTrip.macst (h : Hdr) (f : Fmt) (r : Rnd) (p : Ptr) (row rm1 : BitVec 5) (rs : Option RsOp) : RoundTrip.Statement (.macst h f r p row rm1 rs) := by
  intro hw r hr
  have ho := ops_of hw rfl
  simp only [Instr.operandsOk, Bool.and_eq_true] at ho
  cases rs with
  | none =>
    cases h
    cases hr
    refine decode_of hw rfl ?_
    simp [candidate, candEng, rawR, rawOf, Raw.hdr, Raw.c, Raw.xf, Raw.fmt, Raw.rnd, mFmt, xc, flag_code]
    try simp -index (disch := omega) only [take_lo, take_hi, take_all]
    try simp [fmt_code, rnd_code, ptr_zero, ho, rs_none ho.2]
  | some o =>
    cases h
    cases hr
    refine decode_of hw rfl ?_
    simp [candidate, candEng, rawR, rawOf, Raw.hdr, Raw.c, Raw.xf, Raw.fmt, Raw.rnd, mFmt, xc, flag_code]
    try simp -index (disch := omega) only [take_lo, take_hi, take_all]
    try simp [fmt_code, rnd_code, ptr_zero, ho, rs_some ho.2]

theorem RoundTrip.macmv (h : Hdr) (d : VReg) (row : BitVec 5) (seg : BitVec 4) : RoundTrip.Statement (.macmv h d row seg) := by
  intro hw r hr
  cases h
  cases hr
  refine decode_of hw rfl ?_
  simp [candidate, candEng, rawR, rawOf, Raw.hdr, Raw.xf, low4, Raw.flag, vBit, xc, flag_code]
  try simp -index (disch := omega) only [take_lo, take_hi, take_all]
  try simp []

theorem RoundTrip.macmvTo (h : Hdr) (row : BitVec 5) (seg : BitVec 4) (a : VReg) : RoundTrip.Statement (.macmvTo h row seg a) := by
  intro hw r hr
  cases h
  cases hr
  refine decode_of hw rfl ?_
  simp [candidate, candEng, rawR, rawOf, Raw.hdr, Raw.xf, low4, Raw.flag, vBit, mFlag, xc, flag_code]
  try simp -index (disch := omega) only [take_lo, take_hi, take_all]
  try simp [flagBit_true]

theorem RoundTrip.mskew (h : Hdr) (af : Fmt) (p q : AReg) : RoundTrip.Statement (.mskew h af p q) := by
  intro hw r hr
  cases h
  cases hr
  refine decode_of hw rfl ?_
  simp [candidate, candEng, rawR, rawOf, Raw.hdr, low3, Raw.fmt, rBit, mFmt, xc, flag_code]
  try simp -index (disch := omega) only [take_lo, take_all]
  try simp [fmt_code]

theorem RoundTrip.macrd (h : Hdr) (d : GReg) (row : BitVec 5) (col : BitVec 7) : RoundTrip.Statement (.macrd h d row col) := by
  intro hw r hr
  cases h
  cases hr
  refine decode_of hw rfl ?_
  simp [candidate, candEng, rawR, rawOf, Raw.hdr, Raw.xf, xc, flag_code]
  try simp -index (disch := omega) only [take_lo, take_hi, take_all]
  try simp []

theorem RoundTrip.mwlv (h : Hdr) (wf : Fmt) (a : GReg) (c0 cm1 : BitVec 7) : RoundTrip.Statement (.mwlv h wf a c0 cm1) := by
  intro hw r hr
  cases h
  cases hr
  refine decode_of hw rfl ?_
  simp [candidate, candEng, rawOf, Raw.hdr, Raw.ef, Raw.fmt, mFmt, jExt, flag_code]
  try simp -index (disch := omega) only [take_lo, take_hi, take_all]
  try simp [fmt_code]

theorem RoundTrip.scouple (h : Hdr) (a b : GReg) (slot : BitVec 4) : RoundTrip.Statement (.scouple h a b slot) := by
  intro hw r hr
  cases h
  cases hr
  refine decode_of hw rfl ?_
  simp [candidate, candEng, rawR, rawOf, Raw.hdr, Raw.xf, xc, flag_code]
  try simp -index (disch := omega) only [take_lo, take_hi, take_all]
  try simp [size_code, fmt_code, rnd_code, scope_code, cond_code, comb_code, fcond_code, salu_code, sflt_code, fold_code, red_code, cpy_code, wide_code, flag_code, is96_code, flagBit_true, flagBit_false, Raw.modeIs]

theorem RoundTrip.sbias (h : Hdr) (a b : GReg) : RoundTrip.Statement (.sbias h a b) := by
  intro hw r hr
  cases h
  cases hr
  refine decode_of hw rfl ?_
  simp [candidate, candEng, rawR, rawOf, Raw.hdr, xc, flag_code]

theorem RoundTrip.sclamp (h : Hdr) (a : GReg) (v : Bool) : RoundTrip.Statement (.sclamp h a v) := by
  intro hw r hr
  cases h
  cases hr
  refine decode_of hw rfl ?_
  simp [candidate, candEng, rawR, rawOf, Raw.hdr, Raw.xf, Raw.flag, xc, flag_code]
  try simp -index (disch := omega) only [take_lo, take_hi, take_all]
  try simp [flag_code]

theorem RoundTrip.sclampOff (h : Hdr) (a : GReg) : RoundTrip.Statement (.sclampOff h a) := by
  intro hw r hr
  cases h
  cases hr
  refine decode_of hw rfl ?_
  simp [candidate, candEng, rawR, rawOf, Raw.hdr, Raw.xf, Raw.flag, mFlag, xc, flag_code]
  try simp -index (disch := omega) only [take_hi, take_all]
  try simp [flagBit_true]

theorem RoundTrip.scolour (h : Hdr) (a : GReg) (col : BitVec 3) : RoundTrip.Statement (.scolour h a col) := by
  intro hw r hr
  cases h
  cases hr
  refine decode_of hw rfl ?_
  simp [candidate, candEng, rawI, rawOf, Raw.hdr, Raw.immf, flag_code]
  try simp -index (disch := omega) only [take_lo, take_all]
  try simp [size_code, fmt_code, rnd_code, scope_code, cond_code, comb_code, fcond_code, salu_code, sflt_code, fold_code, red_code, cpy_code, wide_code, flag_code, is96_code, flagBit_true, flagBit_false, Raw.modeIs]

theorem RoundTrip.sweep (h : Hdr) (a gs : GReg) (sm1 : BitVec 8) (ncm1 : BitVec 3) (b : BitVec 4) : RoundTrip.Statement (.sweep h a gs sm1 ncm1 b) := by
  intro hw r hr
  cases h
  cases hr
  refine decode_of hw rfl ?_
  simp [candidate, candEng, rawOf, Raw.hdr, Raw.xf, Raw.ef, xc, jExt, flag_code]
  try simp -index (disch := omega) only [take_lo, take_hi, take_all]
  try simp []

theorem RoundTrip.sread (h : Hdr) (d a : GReg) : RoundTrip.Statement (.sread h d a) := by
  intro hw r hr
  cases h
  cases hr
  refine decode_of hw rfl ?_
  simp [candidate, candEng, rawR, rawOf, Raw.hdr, xc, flag_code]

theorem RoundTrip.swrite (h : Hdr) (a b : GReg) : RoundTrip.Statement (.swrite h a b) := by
  intro hw r hr
  cases h
  cases hr
  refine decode_of hw rfl ?_
  simp [candidate, candEng, rawR, rawOf, Raw.hdr, xc, flag_code]

theorem RoundTrip.skey (h : Hdr) (n : BitVec 4) (a b : GReg) : RoundTrip.Statement (.skey h n a b) := by
  intro hw r hr
  cases h
  cases hr
  refine decode_of hw rfl ?_
  simp [candidate, candEng, rawR, rawOf, Raw.hdr, Raw.xf, xc, flag_code]
  try simp -index (disch := omega) only [take_lo, take_hi, take_all]
  try simp [size_code, fmt_code, rnd_code, scope_code, cond_code, comb_code, fcond_code, salu_code, sflt_code, fold_code, red_code, cpy_code, wide_code, flag_code, is96_code, flagBit_true, flagBit_false, Raw.modeIs]

theorem RoundTrip.cpys (h : Hdr) (p : Ptr) (a gn gv gs : GReg) (pw : WordOp) : RoundTrip.Statement (.cpys h p a gn gv gs pw) := by
  intro hw r hr
  have ho := ops_of hw rfl
  simp only [Instr.operandsOk] at ho
  cases h
  cases hr
  refine decode_of hw rfl ?_
  simp [candidate, candEng, rawOf, rawCpy, Raw.hdr, Raw.c, Raw.xf, Raw.pw, xc, flag_code]
  try simp -index (disch := omega) only [take_lo, take_hi, take_all]
  try simp [ptr_zero, pw_code, ho]

theorem RoundTrip.cpyc (h : Hdr) (op : CpyOp) (f : Fmt) (r : Rnd) (p : Ptr) (a gn gv gs : GReg) (pw : WordOp) : RoundTrip.Statement (.cpyc h op f r p a gn gv gs pw) := by
  intro hw r hr
  have ho := ops_of hw rfl
  simp only [Instr.operandsOk, Bool.and_eq_true] at ho
  cases h
  cases hr
  refine decode_of hw rfl ?_
  simp [candidate, candEng, rawOf, rawCpy, Raw.hdr, Raw.c, Raw.xf, Raw.ef, Raw.pw, xc, flag_code]
  try simp -index (disch := omega) only [take_lo, take_hi, take_all]
  try simp [fmt_code, rnd_code, cpy_code, ptr_zero, pw_code, ho]

theorem RoundTrip.cpyg (h : Hdr) (p : Ptr) (a gn gv gs : GReg) (pw : WordOp) (stride : BitVec 32) (rowlen : BitVec 16) : RoundTrip.Statement (.cpyg h p a gn gv gs pw stride rowlen) := by
  intro hw r hr
  have ho := ops_of hw rfl
  simp only [Instr.operandsOk, Bool.and_eq_true] at ho
  cases h
  cases hr
  refine decode_of hw rfl ?_
  simp [candidate, candEng, rawOf, rawCpy, Raw.hdr, Raw.c, Raw.xf, Raw.ef, Raw.pw, xc, flag_code]
  try simp -index (disch := omega) only [take_lo, take_hi, take_all]
  try simp [ptr_zero, pw_code, ho]

theorem RoundTrip.cpyf (h : Hdr) (p : Ptr) (a gn gv gs : GReg) (pw : WordOp) : RoundTrip.Statement (.cpyf h p a gn gv gs pw) := by
  intro hw r hr
  have ho := ops_of hw rfl
  simp only [Instr.operandsOk] at ho
  cases h
  cases hr
  refine decode_of hw rfl ?_
  simp [candidate, candEng, rawOf, rawCpy, Raw.hdr, Raw.c, Raw.xf, Raw.pw, xc, flag_code]
  try simp -index (disch := omega) only [take_lo, take_hi, take_all]
  try simp [ptr_zero, pw_code, ho]

theorem RoundTrip.srd (h : Hdr) (d : GReg) (csr : BitVec 12) : RoundTrip.Statement (.srd h d csr) := by
  intro hw r hr
  cases h
  cases hr
  refine decode_of hw rfl ?_
  simp [candidate, candSys, rawI, rawOf, Raw.hdr, Raw.immf, flag_code]
  try simp -index (disch := omega) only [take_lo, take_all]
  try simp [size_code, fmt_code, rnd_code, scope_code, cond_code, comb_code, fcond_code, salu_code, sflt_code, fold_code, red_code, cpy_code, wide_code, flag_code, is96_code, flagBit_true, flagBit_false, Raw.modeIs]

theorem RoundTrip.swr (h : Hdr) (csr : BitVec 12) (a : GReg) : RoundTrip.Statement (.swr h csr a) := by
  intro hw r hr
  cases h
  cases hr
  refine decode_of hw rfl ?_
  simp [candidate, candSys, rawI, rawOf, Raw.hdr, Raw.immf, flag_code]
  try simp -index (disch := omega) only [take_lo, take_all]
  try simp [size_code, fmt_code, rnd_code, scope_code, cond_code, comb_code, fcond_code, salu_code, sflt_code, fold_code, red_code, cpy_code, wide_code, flag_code, is96_code, flagBit_true, flagBit_false, Raw.modeIs]

theorem RoundTrip.trap (h : Hdr) (imm : BitVec 24) : RoundTrip.Statement (.trap h imm) := by
  intro hw r hr
  cases h
  cases hr
  refine decode_of hw rfl ?_
  simp [candidate, candSys, rawI, rawOf, Raw.hdr, flag_code]

theorem RoundTrip.brk (h : Hdr) (imm : BitVec 24) : RoundTrip.Statement (.brk h imm) := by
  intro hw r hr
  cases h
  cases hr
  refine decode_of hw rfl ?_
  simp [candidate, candSys, rawI, rawOf, Raw.hdr, flag_code]

theorem RoundTrip.ovld (h : Hdr) (a : GReg) : RoundTrip.Statement (.ovld h a) := by
  intro hw r hr
  cases h
  cases hr
  refine decode_of hw rfl ?_
  simp [candidate, candSys, rawR, rawOf, Raw.hdr, xc, flag_code]

theorem RoundTrip.genset (h : Hdr) (n : BitVec 4) (a : GReg) : RoundTrip.Statement (.genset h n a) := by
  intro hw r hr
  cases h
  cases hr
  refine decode_of hw rfl ?_
  simp [candidate, candSys, rawOf, Raw.hdr, Raw.ef, jExt, flag_code]
  try simp -index (disch := omega) only [take_lo, take_all]
  try simp [size_code, fmt_code, rnd_code, scope_code, cond_code, comb_code, fcond_code, salu_code, sflt_code, fold_code, red_code, cpy_code, wide_code, flag_code, is96_code, flagBit_true, flagBit_false, Raw.modeIs]

theorem RoundTrip.gensync (h : Hdr) : RoundTrip.Statement (.gensync h) := by
  intro hw r hr
  cases h
  cases hr
  refine decode_of hw rfl ?_
  simp [candidate, candSys, rawR, rawOf, Raw.hdr, xc, flag_code]

theorem RoundTrip.harvest (h : Hdr) : RoundTrip.Statement (.harvest h) := by
  intro hw r hr
  cases h
  cases hr
  refine decode_of hw rfl ?_
  simp [candidate, candSys, rawR, rawOf, Raw.hdr, xc, flag_code]

theorem RoundTrip.tret (h : Hdr) : RoundTrip.Statement (.tret h) := by
  intro hw r hr
  cases h
  cases hr
  refine decode_of hw rfl ?_
  simp [candidate, candSys, rawR, rawOf, Raw.hdr, xc, flag_code]
  try simp -index (disch := omega) only [take_lo, take_hi, take_all, take_take]
  try simp [Raw.modeIs]

theorem RoundTrip.tretNext (h : Hdr) : RoundTrip.Statement (.tretNext h) := by
  intro hw r hr
  cases h
  cases hr
  refine decode_of hw rfl ?_
  simp [candidate, candSys, rawR, rawOf, Raw.hdr, xc, flag_code]
  try simp -index (disch := omega) only [take_lo, take_hi, take_all, take_take]
  try simp [Raw.modeIs]

theorem RoundTrip.tretKill (h : Hdr) : RoundTrip.Statement (.tretKill h) := by
  intro hw r hr
  cases h
  cases hr
  refine decode_of hw rfl ?_
  simp [candidate, candSys, rawR, rawOf, Raw.hdr, xc, flag_code]
  try simp -index (disch := omega) only [take_lo, take_hi, take_all, take_take]
  try simp [Raw.modeIs]

theorem RoundTrip.tretEnd (h : Hdr) : RoundTrip.Statement (.tretEnd h) := by
  intro hw r hr
  cases h
  cases hr
  refine decode_of hw rfl ?_
  simp [candidate, candSys, rawR, rawOf, Raw.hdr, xc, flag_code]
  try simp -index (disch := omega) only [take_lo, take_hi, take_all, take_take]
  try simp [Raw.modeIs]

theorem RoundTrip.keyset (h : Hdr) (n : BitVec 4) (a b : GReg) : RoundTrip.Statement (.keyset h n a b) := by
  intro hw r hr
  cases h
  cases hr
  refine decode_of hw rfl ?_
  simp [candidate, candSys, rawOf, Raw.hdr, Raw.ef, flag_code]
  try simp -index (disch := omega) only [take_lo, take_all]
  try simp [size_code, fmt_code, rnd_code, scope_code, cond_code, comb_code, fcond_code, salu_code, sflt_code, fold_code, red_code, cpy_code, wide_code, flag_code, is96_code, flagBit_true, flagBit_false, Raw.modeIs]

theorem RoundTrip.tlbinv (h : Hdr) (a : GReg) : RoundTrip.Statement (.tlbinv h a) := by
  intro hw r hr
  cases h
  cases hr
  refine decode_of hw rfl ?_
  simp [candidate, candSys, rawR, rawOf, Raw.hdr, Raw.flag, xc, flag_code]

theorem RoundTrip.tlbinvAll (h : Hdr) : RoundTrip.Statement (.tlbinvAll h) := by
  intro hw r hr
  cases h
  cases hr
  refine decode_of hw rfl ?_
  simp [candidate, candSys, rawR, rawOf, Raw.hdr, Raw.flag, mFlag, xc, flag_code]
  try simp -index (disch := omega) only [take_hi, take_all]
  try simp [flagBit_true]

theorem RoundTrip.instructionBoundary (core : Nat) : RoundTrip.Statement (.instructionBoundary core) :=
  fun _ _ h => nomatch h

theorem RoundTrip.loadReply (core req : Nat) : RoundTrip.Statement (.loadReply core req) :=
  fun _ _ h => nomatch h

theorem RoundTrip.divideComplete (core : Nat) : RoundTrip.Statement (.divideComplete core) :=
  fun _ _ h => nomatch h

theorem RoundTrip.fpDivideUnitComplete (core : Nat) : RoundTrip.Statement (.fpDivideUnitComplete core) :=
  fun _ _ h => nomatch h

theorem RoundTrip.longVectorComplete (core : Nat) : RoundTrip.Statement (.longVectorComplete core) :=
  fun _ _ h => nomatch h

theorem RoundTrip.chainRun (core lane : Nat) : RoundTrip.Statement (.chainRun core lane) :=
  fun _ _ h => nomatch h

theorem RoundTrip.matrixCommandRun (core lane : Nat) : RoundTrip.Statement (.matrixCommandRun core lane) :=
  fun _ _ h => nomatch h

theorem RoundTrip.weaveSend (core lane : Nat) (slot : Bool) : RoundTrip.Statement (.weaveSend core lane slot) :=
  fun _ _ h => nomatch h

theorem RoundTrip.weaveTimeout (core lane : Nat) : RoundTrip.Statement (.weaveTimeout core lane) :=
  fun _ _ h => nomatch h

theorem RoundTrip.copyCommandRun (core : Nat) : RoundTrip.Statement (.copyCommandRun core) :=
  fun _ _ h => nomatch h

theorem RoundTrip.samplerCommandRun (die : Nat) : RoundTrip.Statement (.samplerCommandRun die) :=
  fun _ _ h => nomatch h

theorem RoundTrip.bundleLineArrival (core : Nat) (seq : CSeq) (line : Nat) : RoundTrip.Statement (.bundleLineArrival core seq line) :=
  fun _ _ h => nomatch h

theorem RoundTrip.lineAcknowledgement (core : Nat) (seq : CSeq) (line : Nat) : RoundTrip.Statement (.lineAcknowledgement core seq line) :=
  fun _ _ h => nomatch h

theorem RoundTrip.settleAtHome (core : Nat) (seq : CSeq) (line : Nat) : RoundTrip.Statement (.settleAtHome core seq line) :=
  fun _ _ h => nomatch h

theorem RoundTrip.settleAcknowledgement (core : Nat) (seq : CSeq) (line : Nat) : RoundTrip.Statement (.settleAcknowledgement core seq line) :=
  fun _ _ h => nomatch h

theorem RoundTrip.quietAtHome (core : Nat) (seq : CSeq) (line : Nat) : RoundTrip.Statement (.quietAtHome core seq line) :=
  fun _ _ h => nomatch h

theorem RoundTrip.quietQueryReply (core : Nat) (writer : Writer) (upTo : CSeq) : RoundTrip.Statement (.quietQueryReply core writer upTo) :=
  fun _ _ h => nomatch h

theorem RoundTrip.atomicAtHome (core req : Nat) : RoundTrip.Statement (.atomicAtHome core req) :=
  fun _ _ h => nomatch h

theorem RoundTrip.foldHomeOpen (core req : Nat) : RoundTrip.Statement (.foldHomeOpen core req) :=
  fun _ _ h => nomatch h

theorem RoundTrip.foldContributionArrival (core : Nat) (seq : CSeq) (line : Nat) : RoundTrip.Statement (.foldContributionArrival core seq line) :=
  fun _ _ h => nomatch h

theorem RoundTrip.foldHomeClose (core req : Nat) : RoundTrip.Statement (.foldHomeClose core req) :=
  fun _ _ h => nomatch h

theorem RoundTrip.releaseArrival (k : Nat) : RoundTrip.Statement (.releaseArrival k) :=
  fun _ _ h => nomatch h

theorem RoundTrip.offerArrival (core : Nat) : RoundTrip.Statement (.offerArrival core) :=
  fun _ _ h => nomatch h

theorem RoundTrip.taskAged (cluster k : Nat) : RoundTrip.Statement (.taskAged cluster k) :=
  fun _ _ h => nomatch h

theorem RoundTrip.skipLimitBlock (cluster k : Nat) : RoundTrip.Statement (.skipLimitBlock cluster k) :=
  fun _ _ h => nomatch h

theorem RoundTrip.dispatchExchange (cluster : Nat) : RoundTrip.Statement (.dispatchExchange cluster) :=
  fun _ _ h => nomatch h

theorem RoundTrip.entryStoreFetch (cluster k : Nat) : RoundTrip.Statement (.entryStoreFetch cluster k) :=
  fun _ _ h => nomatch h

theorem RoundTrip.arrivalApply (e : InputRef) : RoundTrip.Statement (.arrivalApply e) :=
  fun _ _ h => nomatch h

theorem RoundTrip.queuePushApply (e : InputRef) (q : Nat) : RoundTrip.Statement (.queuePushApply e q) :=
  fun _ _ h => nomatch h

theorem RoundTrip.continuationSend (core k : Nat) : RoundTrip.Statement (.continuationSend core k) :=
  fun _ _ h => nomatch h

theorem RoundTrip.continuationResume (core k : Nat) : RoundTrip.Statement (.continuationResume core k) :=
  fun _ _ h => nomatch h

theorem RoundTrip.remoteMessageReceive (m : RMsg) : RoundTrip.Statement (.remoteMessageReceive m) :=
  fun _ _ h => nomatch h

theorem RoundTrip.keptGrantExpiry (core : Nat) : RoundTrip.Statement (.keptGrantExpiry core) :=
  fun _ _ h => nomatch h

theorem RoundTrip.contextLastTaskRetired (ctx : Nat) : RoundTrip.Statement (.contextLastTaskRetired ctx) :=
  fun _ _ h => nomatch h

theorem RoundTrip.exceptionWindowEnd (core : Nat) : RoundTrip.Statement (.exceptionWindowEnd core) :=
  fun _ _ h => nomatch h

theorem RoundTrip.exceptionThreshold (core c : Nat) : RoundTrip.Statement (.exceptionThreshold core c) :=
  fun _ _ h => nomatch h

theorem RoundTrip.seal (ctx : Nat) : RoundTrip.Statement (.seal ctx) :=
  fun _ _ h => nomatch h

theorem RoundTrip.digestArrival (ctx : Nat) (epoch : BitVec 32) (d : BitVec 256) : RoundTrip.Statement (.digestArrival ctx epoch d) :=
  fun _ _ h => nomatch h

theorem RoundTrip.digestTimeout (ctx : Nat) : RoundTrip.Statement (.digestTimeout ctx) :=
  fun _ _ h => nomatch h

theorem RoundTrip.endNoticeArrival (ctx : Nat) : RoundTrip.Statement (.endNoticeArrival ctx) :=
  fun _ _ h => nomatch h

theorem RoundTrip.queueArbitration : RoundTrip.Statement (.queueArbitration) :=
  fun _ _ h => nomatch h

theorem RoundTrip.launchEntry : RoundTrip.Statement (.launchEntry) :=
  fun _ _ h => nomatch h

theorem RoundTrip.createContextEntry : RoundTrip.Statement (.createContextEntry) :=
  fun _ _ h => nomatch h

theorem RoundTrip.endContextEntry : RoundTrip.Statement (.endContextEntry) :=
  fun _ _ h => nomatch h

theorem RoundTrip.noOperationEntry : RoundTrip.Statement (.noOperationEntry) :=
  fun _ _ h => nomatch h

theorem RoundTrip.seqRetry (q : Nat) : RoundTrip.Statement (.seqRetry q) :=
  fun _ _ h => nomatch h

theorem RoundTrip.staleEntry (q : Nat) : RoundTrip.Statement (.staleEntry q) :=
  fun _ _ h => nomatch h

theorem RoundTrip.contextCreationComplete (ctx : Nat) : RoundTrip.Statement (.contextCreationComplete ctx) :=
  fun _ _ h => nomatch h

theorem RoundTrip.endCompletion (ctx : Nat) : RoundTrip.Statement (.endCompletion ctx) :=
  fun _ _ h => nomatch h

theorem RoundTrip.queueDoorbell (q : Nat) (v : Word) : RoundTrip.Statement (.queueDoorbell q v) :=
  fun _ _ h => nomatch h

theorem RoundTrip.queueEnable (q : Nat) : RoundTrip.Statement (.queueEnable q) :=
  fun _ _ h => nomatch h

theorem RoundTrip.queueDisable (q : Nat) : RoundTrip.Statement (.queueDisable q) :=
  fun _ _ h => nomatch h

theorem RoundTrip.eventConfigWrite (v : Word) : RoundTrip.Statement (.eventConfigWrite v) :=
  fun _ _ h => nomatch h

theorem RoundTrip.eventReadIndexWrite (v : Word) : RoundTrip.Statement (.eventReadIndexWrite v) :=
  fun _ _ h => nomatch h

theorem RoundTrip.contextFree (ctx : Nat) : RoundTrip.Statement (.contextFree ctx) :=
  fun _ _ h => nomatch h

theorem RoundTrip.faultRecordRelease (ctx rec : Nat) : RoundTrip.Statement (.faultRecordRelease ctx rec) :=
  fun _ _ h => nomatch h

theorem RoundTrip.xcmdInvalidateAll (ctx : Nat) : RoundTrip.Statement (.xcmdInvalidateAll ctx) :=
  fun _ _ h => nomatch h

theorem RoundTrip.xcmdHarvest (ctx : Nat) : RoundTrip.Statement (.xcmdHarvest ctx) :=
  fun _ _ h => nomatch h

theorem RoundTrip.xcmdInvalidatePage (ctx : Nat) (page : BitVec 48) : RoundTrip.Statement (.xcmdInvalidatePage ctx page) :=
  fun _ _ h => nomatch h

theorem RoundTrip.xcmdComplete (ctx : Nat) : RoundTrip.Statement (.xcmdComplete ctx) :=
  fun _ _ h => nomatch h

theorem RoundTrip.cwaveWrite (i j : Nat) (v : Word) : RoundTrip.Statement (.cwaveWrite i j v) :=
  fun _ _ h => nomatch h

theorem RoundTrip.circuitReassignComplete (i j : Nat) : RoundTrip.Statement (.circuitReassignComplete i j) :=
  fun _ _ h => nomatch h

theorem RoundTrip.lwDrain : RoundTrip.Statement (.lwDrain) :=
  fun _ _ h => nomatch h

theorem RoundTrip.lwRelock : RoundTrip.Statement (.lwRelock) :=
  fun _ _ h => nomatch h

theorem RoundTrip.lwGoDark : RoundTrip.Statement (.lwGoDark) :=
  fun _ _ h => nomatch h

theorem RoundTrip.drainComplete : RoundTrip.Statement (.drainComplete) :=
  fun _ _ h => nomatch h

theorem RoundTrip.lockComplete (up : List (Nat × BitVec 5)) : RoundTrip.Statement (.lockComplete up) :=
  fun _ _ h => nomatch h

theorem RoundTrip.stageTransmitKey (f : Nat) (addr : Word) : RoundTrip.Statement (.stageTransmitKey f addr) :=
  fun _ _ h => nomatch h

theorem RoundTrip.stageReceiveKey (f : Nat) (addr : Word) : RoundTrip.Statement (.stageReceiveKey f addr) :=
  fun _ _ h => nomatch h

theorem RoundTrip.fibreHeld (f : Nat) : RoundTrip.Statement (.fibreHeld f) :=
  fun _ _ h => nomatch h

theorem RoundTrip.fibreFailed (f : Nat) : RoundTrip.Statement (.fibreFailed f) :=
  fun _ _ h => nomatch h

theorem RoundTrip.flitAuthFailure (f : Nat) : RoundTrip.Statement (.flitAuthFailure f) :=
  fun _ _ h => nomatch h

theorem RoundTrip.holdLimitExpiry (core req : Nat) : RoundTrip.Statement (.holdLimitExpiry core req) :=
  fun _ _ h => nomatch h

theorem RoundTrip.scaleoutStageTransmitKey (p : Nat) (addr : Word) : RoundTrip.Statement (.scaleoutStageTransmitKey p addr) :=
  fun _ _ h => nomatch h

theorem RoundTrip.scaleoutStageReceiveKey (p : Nat) (addr : Word) : RoundTrip.Statement (.scaleoutStageReceiveKey p addr) :=
  fun _ _ h => nomatch h

theorem RoundTrip.scaleoutFrameReceive (pkg : Nat) (seq : BitVec 32) (msgs : List RMsg) : RoundTrip.Statement (.scaleoutFrameReceive pkg seq msgs) :=
  fun _ _ h => nomatch h

theorem RoundTrip.scaleoutRetransmit (pkg : Nat) (seq : BitVec 32) : RoundTrip.Statement (.scaleoutRetransmit pkg seq) :=
  fun _ _ h => nomatch h

theorem RoundTrip.scaleoutUndeliverable (pkg : Nat) (seq : BitVec 32) : RoundTrip.Statement (.scaleoutUndeliverable pkg seq) :=
  fun _ _ h => nomatch h

theorem RoundTrip.scaleoutPortHeld (p : Nat) : RoundTrip.Statement (.scaleoutPortHeld p) :=
  fun _ _ h => nomatch h

theorem RoundTrip.scaleoutPortStateChange (p : Nat) (st : BitVec 3) : RoundTrip.Statement (.scaleoutPortStateChange p st) :=
  fun _ _ h => nomatch h

theorem RoundTrip.produceReport : RoundTrip.Statement (.produceReport) :=
  fun _ _ h => nomatch h

theorem RoundTrip.writeEndorsement : RoundTrip.Statement (.writeEndorsement) :=
  fun _ _ h => nomatch h

theorem RoundTrip.attestationComplete : RoundTrip.Statement (.attestationComplete) :=
  fun _ _ h => nomatch h

theorem RoundTrip.debugHaltCommand (core : Nat) : RoundTrip.Statement (.debugHaltCommand core) :=
  fun _ _ h => nomatch h

theorem RoundTrip.debugResume (core : Nat) : RoundTrip.Statement (.debugResume core) :=
  fun _ _ h => nomatch h

theorem RoundTrip.debugStep (core : Nat) : RoundTrip.Statement (.debugStep core) :=
  fun _ _ h => nomatch h

theorem RoundTrip.debugDrain (core : Nat) : RoundTrip.Statement (.debugDrain core) :=
  fun _ _ h => nomatch h

theorem RoundTrip.debugDrainComplete (core : Nat) : RoundTrip.Statement (.debugDrainComplete core) :=
  fun _ _ h => nomatch h

theorem RoundTrip.ddataWrite (core : Nat) (v : Word) : RoundTrip.Statement (.ddataWrite core v) :=
  fun _ _ h => nomatch h

theorem RoundTrip.registerWrite (off v : Word) : RoundTrip.Statement (.registerWrite off v) :=
  fun _ _ h => nomatch h

theorem RoundTrip.apertureAccessNotPerformed (off : Word) (wr : Bool) : RoundTrip.Statement (.apertureAccessNotPerformed off wr) :=
  fun _ _ h => nomatch h

theorem RoundTrip.hostMemoryWrite (pa : Word) (bytes : List Byte) : RoundTrip.Statement (.hostMemoryWrite pa bytes) :=
  fun _ _ h => nomatch h

theorem RoundTrip.hostMemoryRead (pa : Word) (n : Nat) : RoundTrip.Statement (.hostMemoryRead pa n) :=
  fun _ _ h => nomatch h

theorem RoundTrip.linkTraining (groups : BitVec 4) : RoundTrip.Statement (.linkTraining groups) :=
  fun _ _ h => nomatch h

theorem RoundTrip.eventRecordStage : RoundTrip.Statement (.eventRecordStage) :=
  fun _ _ h => nomatch h

theorem RoundTrip.eventRingWrite : RoundTrip.Statement (.eventRingWrite) :=
  fun _ _ h => nomatch h

theorem RoundTrip.harvestBlockChange (die pc : Nat) (core : Option Nat) : RoundTrip.Statement (.harvestBlockChange die pc core) :=
  fun _ _ h => nomatch h

theorem RoundTrip.spareBringIn (kind unit idx : Nat) : RoundTrip.Statement (.spareBringIn kind unit idx) :=
  fun _ _ h => nomatch h

theorem RoundTrip.resetBoot : RoundTrip.Statement (.resetBoot) :=
  fun _ _ h => nomatch h

theorem RoundTrip.junctionTemperature (sensor : Nat) (temp : BitVec 32) : RoundTrip.Statement (.junctionTemperature sensor temp) :=
  fun _ _ h => nomatch h

theorem RoundTrip.thermalShutdown (flow : Bool) (sensor : Nat) (reading : BitVec 32) : RoundTrip.Statement (.thermalShutdown flow sensor reading) :=
  fun _ _ h => nomatch h

theorem RoundTrip.managementPowerRequest (up : Bool) : RoundTrip.Statement (.managementPowerRequest up) :=
  fun _ _ h => nomatch h

theorem RoundTrip.managementFirmwareInstall (image : List Byte) : RoundTrip.Statement (.managementFirmwareInstall image) :=
  fun _ _ h => nomatch h

theorem RoundTrip.managementRead : RoundTrip.Statement .managementRead :=
  fun _ _ h => nomatch h

theorem RoundTrip.supplyOutOfTolerance (input : Bool) (rail : Nat) (reading : BitVec 32) : RoundTrip.Statement (.supplyOutOfTolerance input rail reading) :=
  fun _ _ h => nomatch h

theorem RoundTrip.keyChangeFlitArrival (f : Nat) : RoundTrip.Statement (.keyChangeFlitArrival f) :=
  fun _ _ h => nomatch h

theorem RoundTrip.scaleoutAcknowledgement (pkg : Nat) (seq : BitVec 32) : RoundTrip.Statement (.scaleoutAcknowledgement pkg seq) :=
  fun _ _ h => nomatch h

end Sys2Proof.Laws
end

