-- ==== Sys2Proof/Laws/Retire.lean ====
section
/-!
SUPPORT. Pending writes, own cycles and retirement (R111, R132, R200): what they change and what they leave alone.
-/

namespace Sys2Proof.Laws

open Sys2Proof.Machine

/-- `(c', f')` differs from `(c, f)` in the registers of `S` of the frame, and in its pending writes, at most. -/
structure Touches (S : Reg → Prop) (c : Core) (f : Frame) (c' : Core) (f' : Frame) : Prop where
  core : c' = { c with lanes := c'.lanes }
  lanes : ∀ l, { c'.lane l with v := [] } = { c.lane l with v := [] }
  vecs : ∀ l q, l ≠ f.lane ∨ ¬ S (.v q) → c'.getV l q = c.getV l q
  frame : f' = { f with g := f'.g, p := f'.p, a := f'.a, pend := f'.pend }
  gens : ∀ q, ¬ S (.g q) → f'.getG q = f.getG q
  preds : ∀ q, ¬ S (.p q) → f'.getP q = f.getP q
  ptrs : ∀ q, ¬ S (.a q) → f'.getA q = f.getA q

variable {S T : Reg → Prop} {c c' c'' : Core} {f f' f'' : Frame}

theorem Touches.refl : Touches S c f c f :=
  ⟨rfl, fun _ => rfl, fun _ _ _ => rfl, rfl, fun _ _ => rfl, fun _ _ => rfl, fun _ _ => rfl⟩

theorem Touches.mono (h : Touches S c f c' f') (hs : ∀ r, S r → T r) : Touches T c f c' f' :=
  ⟨h.core, h.lanes, fun l q hq => h.vecs l q (hq.imp_right fun k s => k (hs _ s)), h.frame, fun q k => h.gens q fun s => k (hs _ s),
    fun q k => h.preds q fun s => k (hs _ s), fun q k => h.ptrs q fun s => k (hs _ s)⟩

theorem Touches.lane (h : Touches S c f c' f') : f'.lane = f.lane := by
  have e := congrArg Frame.lane h.frame
  exact e

theorem Touches.trans (h : Touches S c f c' f') (k : Touches S c' f' c'' f'') : Touches S c f c'' f'' := by
  refine ⟨?_, fun l => (k.lanes l).trans (h.lanes l), fun l q hq => ?_, ?_, fun q n => (k.gens q n).trans (h.gens q n),
    fun q n => (k.preds q n).trans (h.preds q n), fun q n => (k.ptrs q n).trans (h.ptrs q n)⟩
  · rw [k.core, h.core]
  · rw [k.vecs l q (by rwa [h.lane]), h.vecs l q hq]
  · rw [k.frame, h.frame]

theorem Touches.pend (h : Touches S c f c' f') (p : List Pend) : Touches S c f c' { f' with pend := p } :=
  ⟨h.core, h.lanes, h.vecs, by rw [h.frame], h.gens, h.preds, h.ptrs⟩

theorem putReg_touches (c : Core) (f : Frame) (r : Reg) (v : BitVec 256) :
    Touches (fun q => q = r) c f (c.putReg f r v).1 (c.putReg f r v).2 := by
  cases r with
  | g n =>
    refine ⟨rfl, fun _ => rfl, fun _ _ _ => rfl, ?_, fun q h => ?_, fun q _ => ?_, fun q _ => ?_⟩
    · simp only [Core.putReg, Frame.setG]; split <;> rfl
    · exact getG_setG_ne _ _ (by simpa using h)
    · simp [Core.putReg]
    · simp [Core.putReg]
  | p n =>
    refine ⟨rfl, fun _ => rfl, fun _ _ _ => rfl, ?_, fun q _ => ?_, fun q h => ?_, fun q _ => ?_⟩
    · simp only [Core.putReg, Frame.setP]; split <;> rfl
    · simp [Core.putReg]
    · exact getP_setP_ne _ _ (by simpa using h)
    · simp [Core.putReg]
  | a n =>
    exact ⟨rfl, fun _ => rfl, fun _ _ _ => rfl, rfl, fun q _ => rfl, fun q _ => rfl, fun q h => getA_setA_ne _ _ (by simpa using h)⟩
  | v n =>
    refine ⟨rfl, fun l => ?_, fun l q h => ?_, rfl, fun _ _ => rfl, fun _ _ => rfl, fun _ _ => rfl⟩
    · by_cases hl : l = f.lane
      · subst hl; simp [Core.putReg, Core.setV]
      · simp [Core.putReg, Core.setV, lane_setLane_ne _ _ _ hl]
    · by_cases hl : l = f.lane
      · subst hl
        have hq : q ≠ n := by simpa using h
        simp [Core.putReg, Core.setV, Core.getV, Lane.getV, fget_fset_ne _ _ _ (toNat_ne hq)]
      · simp [Core.putReg, Core.setV, Core.getV, lane_setLane_ne _ _ _ hl]
  | w n => exact Touches.refl

/-- One own cycle changes only registers with pending writes. -/
theorem commitPend_touches (S : Reg → Prop) : ∀ (xs : List Pend) (c : Core) (f : Frame) (kept : List Pend), (∀ x ∈ xs, S x.reg) →
    (∀ x ∈ kept, S x.reg) → Touches S c f (commitPend xs c f kept).1 (commitPend xs c f kept).2 ∧
      ∀ x ∈ (commitPend xs c f kept).2.pend, S x.reg
  | [], c, f, kept, _, hk => ⟨Touches.refl.pend _, fun x hx => hk x (by simpa [commitPend] using hx)⟩
  | x :: xs, c, f, kept, h, hk => by
    unfold commitPend
    have h1 : ∀ x ∈ xs, S x.reg := fun y hy => h y (by simp [hy])
    split
    · have t := (putReg_touches c f x.reg x.val).mono (T := S) (fun r hr => hr ▸ h x (by simp))
      have ih := commitPend_touches S xs (c.putReg f x.reg x.val).1 (c.putReg f x.reg x.val).2 kept h1 hk
      exact ⟨t.trans ih.1, ih.2⟩
    · exact commitPend_touches S xs c f _ h1 (fun y hy => by
        rcases List.mem_cons.1 hy with rfl | hy
        · exact h x (by simp)
        · exact hk y hy)

/-- Own cycles change only registers with pending writes. -/
theorem tick_touches (S : Reg → Prop) : ∀ (k : Nat) (c : Core) (f : Frame), (∀ x ∈ f.pend, S x.reg) →
    Touches S c f (tick k c f).1 (tick k c f).2 ∧ ∀ x ∈ (tick k c f).2.pend, S x.reg
  | 0, _, _, h => ⟨Touches.refl, h⟩
  | k + 1, c, f, h => by
    have t := commitPend_touches S f.pend c f [] h (by simp)
    have ih := tick_touches S k (commitPend f.pend c f []).1 (commitPend f.pend c f []).2 t.2
    exact ⟨t.1.trans ih.1, ih.2⟩

/-! ## Counting and retirement -/

theorem countOne_frame (c : Core) (t0 t1 : Word) (k : Nat) :
    c.countOne t0 t1 k = { c with escnt := (c.countOne t0 t1 k).escnt, crossed := (c.countOne t0 t1 k).crossed } := by
  unfold Core.countOne
  generalize (if c.cnt k = 0xFFFFFFFF then (0xFFFFFFFF : BitVec 32) else c.cnt k + 1) = m
  dsimp only
  split <;> rfl
theorem countFrom_frame (e : Exc) (t0 t1 : Word) : ∀ (ks : List Nat) (c : Core),
    countFrom e t0 t1 ks c = { c with escnt := (countFrom e t0 t1 ks c).escnt, crossed := (countFrom e t0 t1 ks c).crossed }
  | [], _ => rfl
  | k :: ks, c => by
    unfold countFrom
    rw [countFrom_frame e t0 t1 ks]
    split
    · rw [countOne_frame]
    · rfl
/-- Counting exceptions changes only the counts and the crossings. -/
theorem count_frame (c : Core) (e : Exc) (t0 t1 : Word) :
    c.count e t0 t1 = { c with escnt := (c.count e t0 t1).escnt, crossed := (c.count e t0 t1).crossed } := by
  unfold Core.count; split
  · rfl
  · exact countFrom_frame ..
theorem countFrom_none (t0 t1 : Word) : ∀ (ks : List Nat) (c : Core), countFrom 0 t0 t1 ks c = c
  | [], _ => rfl
  | k :: ks, c => by
    have ih := countFrom_none t0 t1 ks c
    unfold countFrom
    simpa using ih
/-- Without exceptions nothing is counted. -/
theorem count_none (c : Core) (t0 t1 : Word) : c.count 0 t0 t1 = c := by
  unfold Core.count; split
  · rfl
  · exact countFrom_none ..

variable {s : State} {n : Nat} {fs : List Frame}

/-- A retirement changes its core alone. -/
theorem retire_eq (i : Instr) (h : Hdr) (r : Ret) (ht : (s.core n).frames = f :: fs) :
    s.retire n i h r = s.setCore n ((s.core n).retire f fs i h r) := by
  unfold State.retire; rw [ht]

/-- The core and its top frame after a retirement. -/
theorem retire_core (c : Core) (f : Frame) (fs : List Frame) (i : Instr) (h : Hdr) (r : Ret) :
    ∃ c1 f1, Touches (fun q => ∃ x ∈ f.pend ++ records r.writes, x.reg = q) c (f.retired i.size h r) c1 f1 ∧
      c1 = (tick r.cycles c (f.retired i.size h r)).1 ∧ f1 = (tick r.cycles c (f.retired i.size h r)).2 ∧
      c.retire f fs i h r = { c1 with
        frames := f1 :: fs, escnt := (c.retire f fs i h r).escnt, crossed := (c.retire f fs i h r).crossed,
        espos := if c.eswin = 0 then c.espos else c.espos + 1, passed := false, dbg := { c.dbg with issued := true } } ∧
      (r.exc = 0 → (c.retire f fs i h r).escnt = c.escnt ∧ (c.retire f fs i h r).crossed = c.crossed) := by
  have t := (tick_touches (fun q => ∃ x ∈ f.pend ++ records r.writes, x.reg = q) r.cycles c (f.retired i.size h r)
    (fun x hx => ⟨x, hx, rfl⟩)).1
  refine ⟨_, _, t, rfl, rfl, ?_, fun h0 => ?_⟩
  · unfold Core.retire
    simp only
    rw [count_frame]
    unfold Core.issued Core.advancePos
    generalize htk : tick r.cycles c (f.retired i.size h r) = tk at t ⊢
    have he : tk.1.eswin = c.eswin := by have e := congrArg Core.eswin t.core; exact e
    have hp : tk.1.espos = c.espos := by have e := congrArg Core.espos t.core; exact e
    have hd : tk.1.dbg = c.dbg := by have e := congrArg Core.dbg t.core; exact e
    simp only [he]
    split <;> simp [hp, hd]
  · unfold Core.retire
    simp only [h0, count_none]
    unfold Core.issued Core.advancePos
    have h1 : (tick r.cycles c (f.retired i.size h r)).1.escnt = c.escnt := by have e := congrArg Core.escnt t.core; exact e
    have h2 : (tick r.cycles c (f.retired i.size h r)).1.crossed = c.crossed := by have e := congrArg Core.crossed t.core; exact e
    split <;> exact ⟨h1, h2⟩

end Sys2Proof.Laws
end

