-- ==== Sys2Proof/Laws/SlhDsa.lean ====
section
/-!
SUPPORT. The lengths of hashes, keys and signatures (R389; FIPS 180-4, FIPS 205).
-/

namespace Sys2Proof.Machine

theorem sha256Bytes_length (m : List Byte) : (sha256Bytes m).length = 32 := by simp [sha256Bytes]

theorem beBytes_length (n x : Nat) : (beBytes n x).length = n := by simp [beBytes]

theorem sized_length (n : Nat) (bs : List Byte) : (sized n bs).length = n := by
  simp only [sized, List.length_take, List.length_append, List.length_replicate]
  omega

/-! ## SHA-512 -/

theorem sha512Round_length (s : List (BitVec 64)) (kw : BitVec 64) : (sha512Round s kw).length = s.length := by
  unfold sha512Round
  split <;> rfl

theorem sha512Rounds_length (l : List (BitVec 64 × BitVec 64)) : ∀ s : List (BitVec 64),
    (l.foldl (fun s e => sha512Round s (e.1 + e.2)) s).length = s.length := by
  induction l with
  | nil => exact fun _ => rfl
  | cons e l ih => exact fun s => (ih _).trans (sha512Round_length s _)

theorem sha512Block_length (s : List (BitVec 64)) (b : List Byte) : (sha512Block s b).length = s.length := by
  simp only [sha512Block, List.length_map, List.length_zip, sha512Rounds_length, Nat.min_self]

theorem sha512Blocks_length : ∀ (n : Nat) (s : List (BitVec 64)) (bs : List Byte), (sha512Blocks n s bs).length = s.length
  | 0, _, _ => rfl
  | n + 1, s, _ => (sha512Blocks_length n _ _).trans (sha512Block_length s _)

theorem sha512Init_length : sha512Init.length = 8 := by
  rw [sha512Init, List.length_map]
  decide

theorem sha512_length (m : List Byte) : (sha512 m).length = 64 := by
  simp only [sha512, List.length_flatMap, beBytes_length, List.map_const', List.sum_replicate_nat, sha512Blocks_length, sha512Init_length]

theorem slhF_length (pk : List Byte) (a : Adrs) (m : List Byte) : (slhF pk a m).length = 32 := sha256Bytes_length _

theorem slhT_length (pk : List Byte) (a : Adrs) (m : List Byte) : (slhT pk a m).length = 32 := by
  simp [slhT, sha512_length]

/-! ## Keys and signatures -/

/-- A list of values of 32 bytes each. -/
theorem flatten_length32 (l : List (List Byte)) (h : ∀ x ∈ l, x.length = 32) : l.flatten.length = 32 * l.length := by
  induction l with
  | nil => rfl
  | cons x l ih =>
    rw [List.flatten_cons, List.length_append, ih (fun y hy => h y (List.mem_cons_of_mem x hy)), h x List.mem_cons_self, List.length_cons]
    omega

theorem wotsChain_length (pk : List Byte) (a : Adrs) (x : List Byte) (i : Nat) (hx : x.length = 32) : ∀ k, (wotsChain pk a x i k).length = 32
  | 0 => hx
  | _ + 1 => slhF_length _ _ _

theorem wotsFrom_length (sd : SlhSeeds) (layer tree p i k : Nat) : (wotsFrom sd layer tree p i k).length = 32 :=
  wotsChain_length _ _ _ _ (slhF_length _ _ _) _

theorem wotsDigits_length (m : List Byte) (hm : m.length = 32) : (wotsDigits m).length = 67 := by
  simp [wotsDigits, List.length_flatMap, List.map_const', hm]

theorem wotsSign_length (sd : SlhSeeds) (layer tree p : Nat) (m : List Byte) (hm : m.length = 32) :
    (wotsSign sd layer tree p m).length = 67 := by rw [wotsSign, List.length_mapIdx, wotsDigits_length m hm]

theorem wotsSign_each (sd : SlhSeeds) (layer tree p : Nat) (m : List Byte) : ∀ x ∈ wotsSign sd layer tree p m, x.length = 32 := by
  intro x hx
  obtain ⟨i, _, rfl⟩ := List.mem_mapIdx.1 hx
  exact wotsFrom_length ..

theorem xmssNode_length (sd : SlhSeeds) (layer tree z i : Nat) : (xmssNode sd layer tree z i).length = 32 := by
  cases z <;> exact slhT_length _ _ _

theorem forsNode_length (sd : SlhSeeds) (p : SlhPlace) (z i : Nat) : (forsNode sd p z i).length = 32 := by
  cases z
  · exact slhF_length _ _ _
  · exact slhT_length _ _ _

theorem pathOfLeaf_length (node : Nat → Nat → List Byte) (h i : Nat) : (pathOfLeaf node h i).length = h := by simp [pathOfLeaf]

theorem pathOfLeaf_each (node : Nat → Nat → List Byte) (hn : ∀ z i, (node z i).length = 32) (h i : Nat) :
    ∀ x ∈ pathOfLeaf node h i, x.length = 32 := by
  intro x hx
  obtain ⟨j, _, rfl⟩ := List.mem_map.1 hx
  exact hn _ _

/-- `n` layers of signatures: 75 values of 32 bytes in each. -/
theorem hyperSign_length (sd : SlhSeeds) : ∀ (n layer tree leaf : Nat) (m : List Byte), m.length = 32 →
    (hyperSign sd layer tree leaf m n).length = 75 * n ∧ ∀ x ∈ hyperSign sd layer tree leaf m n, x.length = 32
  | 0, _, _, _, _, _ => ⟨rfl, fun _ hx => absurd hx List.not_mem_nil⟩
  | n + 1, layer, tree, leaf, m, hm => by
    obtain ⟨hl, he⟩ := hyperSign_length sd n (layer + 1) (tree / 256) (tree % 256) _ (xmssNode_length sd layer tree 8 0)
    constructor
    · rw [hyperSign, List.length_append, List.length_append, wotsSign_length _ _ _ _ _ hm, pathOfLeaf_length, hl]
      omega
    · intro x hx
      rw [hyperSign, List.mem_append, List.mem_append] at hx
      rcases hx with (hx | hx) | hx
      · exact wotsSign_each _ _ _ _ _ x hx
      · exact pathOfLeaf_each _ (xmssNode_length sd layer tree) _ _ x hx
      · exact he x hx

theorem forsSign_each (sd : SlhSeeds) (p : SlhPlace) : ∀ x ∈ forsSign sd p, x.length = 32 := by
  intro x hx
  obtain ⟨l, hl, hx⟩ := List.mem_flatten.1 hx
  obtain ⟨t, _, rfl⟩ := List.mem_mapIdx.1 hl
  rcases List.mem_cons.1 hx with rfl | hx
  · exact slhF_length _ _ _
  · exact pathOfLeaf_each _ (forsNode_length sd p) _ _ x hx

/-- The lists of equal lengths that `mapIdx` makes. -/
theorem flatten_mapIdx_length {α β : Type} (k : Nat) : ∀ (l : List α) (g : Nat → α → List β), (∀ i a, (g i a).length = k) →
    (l.mapIdx g).flatten.length = k * l.length
  | [], _, _ => rfl
  | a :: l, g, hg => by
    rw [List.mapIdx_cons, List.flatten_cons, List.length_append, flatten_mapIdx_length k l _ (fun i b => hg (i + 1) b), hg 0 a, List.length_cons]
    rw [Nat.mul_add]
    omega

theorem forsSign_length (sd : SlhSeeds) (p : SlhPlace) : (forsSign sd p).length = 15 * p.leaves.length := by
  rw [forsSign, flatten_mapIdx_length 15]
  exact fun i a => by rw [List.length_cons, pathOfLeaf_length]

/-- A public key has 64 bytes. -/
theorem slhPublic_length (seed : List Byte) : (slhPublic seed).length = 64 := by
  have h := sized_length 96 seed
  rw [slhPublic, List.length_append, xmssNode_length]
  simp [slhSeeds, h]

/-- A signature has 29,792 bytes: a random value, 22 trees of 15 values, and 8 layers of 75. -/
theorem slhSign_length (seed m rnd : List Byte) : (slhSign seed m rnd).length = 29792 := by
  have hr : ∀ sd : SlhSeeds, ((hmac512 sd.prf (sized 32 rnd ++ slhPure m)).take 32).length = 32 := by
    intro sd
    simp [hmac512, sha512_length]
  have hl : ∀ pk root r : List Byte, (slhPlace pk root r (slhPure m)).leaves.length = 22 := fun _ _ _ => by simp [slhPlace]
  have ht : ∀ (pk : List Byte) (p : SlhPlace) (f : List (List Byte)), (forsRoot pk p f).length = 32 := fun _ _ _ => slhT_length _ _ _
  simp only [slhSign, List.length_append, hr]
  rw [flatten_length32 _ (forsSign_each _ _), forsSign_length, hl, flatten_length32 _ (hyperSign_length _ 8 _ _ _ _ (ht _ _ _)).2,
    (hyperSign_length _ 8 _ _ _ _ (ht _ _ _)).1]

end Sys2Proof.Machine
end

