-- ==== Sys2Proof/Laws/Ways.lean ====
section
/-!
SUPPORT. What the operations on lines and messages can do (R208, R211, R213, R323, R332): adding a line to a bundle, the arrival of a
message, a digest or a notice of a partner.
-/

namespace Sys2Proof.Laws

open Sys2Proof.Machine

variable {s : State} {b c : Bundle} {l : BLine} {m : RMsg}

@[simp] theorem waitAct_full (a : Act) : waitAct true a = .wait := rfl
@[simp] theorem waitAct_room (a : Act) : waitAct false a = a := rfl

/-! ## Adding a line to a bundle -/

/-- A line is refused exactly where it would be the 129th. -/
theorem put_none : b.put l = none ↔ 128 ≤ b.lines.length ∧ ∀ x ∈ b.lines, x.same l = false := by
  unfold Bundle.put
  by_cases h : b.lines.any (fun x => x.same l) = true
  · rw [if_pos h]
    obtain ⟨x, hx, e⟩ := List.any_eq_true.1 h
    simp only [reduceCtorEq, false_iff, not_and]
    intro _ q
    exact absurd e (by simp [q x hx])
  · rw [if_neg h]
    have : ∀ x ∈ b.lines, x.same l = false := by simpa using h
    by_cases k : b.lines.length < 128
    · rw [if_pos k]
      simp only [reduceCtorEq, false_iff]
      omega
    · rw [if_neg k]
      simp only [true_iff]
      exact ⟨by omega, this⟩

theorem putLine_none : s.putLine b l = none ↔ 128 ≤ b.lines.length ∧ ∀ x ∈ b.lines, x.same l = false := by
  rw [State.putLine, Option.map_eq_none_iff, put_none]

/-- What a line's addition leaves: the effects, and one line more at most, at most 128 in all. -/
theorem putLine_some (h : s.putLine b l = some c) :
    c.effects = b.effects ∧ c.lines.length ≤ b.lines.length + 1 ∧ (b.lines.length ≤ 128 → c.lines.length ≤ 128) := by
  obtain ⟨d, hd, rfl⟩ := Option.map_eq_some_iff.1 h
  unfold Bundle.put at hd
  split at hd
  · obtain rfl := Option.some.inj hd
    simp
  · split at hd
    · obtain rfl := Option.some.inj hd
      simp only [List.length_map, List.length_append, List.length_singleton, true_and]
      omega
    · exact absurd hd (by simp)

/-! ## Messages -/

/-- An answer does not wait at a home. -/
theorem msgWaits_reply (h : RBody.isReply m.body = true) : s.msgWaits m = false := by simp [State.msgWaits, h]

/-- Nor does a message that its context refuses. -/
theorem msgWaits_refused (h : (s.ctx m.dstCtx.toNat).state ≠ 2 ∨ (s.ctx m.dstCtx.toNat).bound m = false) : s.msgWaits m = false := by
  have : ((s.ctx m.dstCtx.toNat).state == 2 && (s.ctx m.dstCtx.toNat).bound m) = false := by
    rcases h with h | h
    · rw [beq_false_of_ne h, Bool.false_and]
    · rw [h, Bool.and_false]
  unfold State.msgWaits
  dsimp only
  rw [Bool.and_assoc (!RBody.isReply m.body), this, Bool.and_false, Bool.false_and]

/-- A message of another package is one that already waits, waits from now on, or takes its effect. -/
theorem arrive_cases : s.arrive m = s ∨ (s.msgWaits m = true ∧ s.arrive m = s.setFabric { s.fabric with outbox := s.fabric.outbox ++ [m] }) ∨
    (s.msgWaits m = false ∧ s.arrive m = s.receive m) := by
  unfold State.arrive
  split
  · exact .inl rfl
  · cases h : s.msgWaits m <;> simp

/-- A message of the partner is not there or not yet its turn, is delivered, or is an event of the links. -/
theorem fromPartner_cases {k : Nat} {body : RBody} {g : State → State} :
    (s.fromPartner k body g = s) ∨ (∃ m, s.heldFor k body = some m ∧ s.msgReady m = true ∧ s.fromPartner k body g = s.deliverMsg m) ∨
    (s.heldFor k body = none ∧ s.nearPartner k = false ∧ s.fromPartner k body g = g s) := by
  unfold State.fromPartner
  cases h : s.heldFor k body with
  | some m => by_cases r : s.msgReady m = true <;> simp [r]
  | none => cases r : s.nearPartner k <;> simp

end Sys2Proof.Laws
end

