-- ==== Sys2Proof/Tests/Slice0.lean ====
section
/-!
SUPPORT. Own tests: the words of the spec's encodings and what they decode to; an ill-formed term for each check of WellFormed; single
steps whose results are worked out from the spec's rules; and, for each statement of Certificates/Slice0/Obligations.lean, states and
operands that meet its hypotheses, one for each of its clauses.
-/

set_option Elab.async false

namespace Sys2Proof.Tests

open Sys2Proof.Machine

/-! ## When an instruction can issue, as a check on a state -/

/-- Nothing holds an instruction of the header back but its own operands: no halt, no wait, all registers in range, none with a count or
a result on its way, no locked vector register, and a guard that passes. -/
def free (s : State) (f : Frame) (h : Hdr) : Bool :=
  let c := s.core s.cur
  !c.dbg.halted && !(c.reqs.any fun q => q.inside) && !s.settleWaits s.cur f && f.lim == 32 && !f.schk && f.await.isEmpty &&
    f.getP h.gp != h.gn && c.long.isEmpty &&
    (c.lane f.lane).mq.all (fun q => match q.op with | .mvTo .. => false | _ => true)

/-- An instruction of the header comes to its own checks, whatever registers it names. -/
abbrev Open (s : State) (f : Frame) (fs : List Frame) (h : Hdr) : Prop :=
  ∀ (priv : Bool) (regs wr : List Reg), (priv = true → f.priv = true) → Issues s f fs h priv regs wr

theorem open_of {s : State} {f : Frame} {fs : List Frame} {h : Hdr} (top : (s.core s.cur).frames = f :: fs)
    (e : free s f h = true) : Open s f fs h := by
  intro priv regs wr hp
  simp only [free, Bool.and_eq_true, Bool.not_eq_true', beq_iff_eq, bne_iff_ne, List.isEmpty_iff] at e
  obtain ⟨⟨⟨⟨⟨⟨⟨⟨h1, h2⟩, h3⟩, h4⟩, h5⟩, h6⟩, h7⟩, h8⟩, h9⟩ := e
  refine ⟨⟨top, h1, h2, h3⟩, hp, fun k _ => by omega, fun c => absurd c (by simp [h5]), fun r _ => by simp [h6], h7, fun r _ => ?_⟩
  cases r with
  | g k => rfl
  | p k => rfl
  | a k => rfl
  | w k => simp [Core.locked, Core.wLocked, h8]
  | v k =>
    simp only [Core.locked, Core.vLocked, List.any_eq_false]
    intro q hq
    have := List.all_eq_true.1 h9 q hq
    cases hop : q.op <;> simp_all

/-- An instruction of a frame that stands at it, before any check. -/
theorem at_of {s : State} {f : Frame} {fs : List Frame} (top : (s.core s.cur).frames = f :: fs)
    (e : (!(s.core s.cur).dbg.halted && !((s.core s.cur).reqs.any fun q => q.inside) && !s.settleWaits s.cur f) = true) :
    AtInstr s f fs := by
  simp only [Bool.and_eq_true, Bool.not_eq_true'] at e
  exact ⟨top, e.1.1, e.1.2, e.2⟩

theorem ok_of {α : Type} (x : Chk α) (e : (match x with | .ok _ => true | .trap .. => false) = true) : ∃ a, x = .ok a := by
  cases x with
  | ok a => exact ⟨a, rfl⟩
  | trap c t => exact absurd e (by simp)

theorem placed_of {ε α : Type} (x : Except ε α × State) (e : x.1.isOk = true) : ∃ a s, x = (.ok a, s) := by
  obtain ⟨r, s⟩ := x
  cases r with
  | ok a => exact ⟨a, s, rfl⟩
  | error c => exact absurd e (by simp [Except.isOk, Except.toBool])

/-- An access reaches a place, as a check. -/
def reach (s : State) (f : Frame) (wr : Bool) (a : Word) (al : Nat) (pl : Place) : Bool :=
  match s.addrChk (s.ctx f.task.ctx) wr a al al with
  | .ok k => (s.place s.cur f.task.ctx wr a k).1 == .ok pl
  | .trap .. => false

theorem reaches_of {s : State} {f : Frame} {wr : Bool} {a : Word} {al : Nat} {pl : Place} (e : reach s f wr a al pl = true) :
    ∃ s1, reaches s f wr a al pl s1 := by
  unfold reach at e
  cases h : s.addrChk (s.ctx f.task.ctx) wr a al al with
  | ok k =>
    rw [h] at e
    exact ⟨_, k, h, Prod.ext (by simpa using e) rfl⟩
  | trap c t => rw [h] at e; exact absurd e (by simp)

/-! ## States for the tests: one task on core 0 of context 0 -/

def noGuard : Hdr := ⟨0, false, 0⟩
/-- A guard `p2` that the frames below (p = 1) do not pass, and its negation, which they pass. -/
def fails : Hdr := ⟨2, false, 3⟩
def passesN : Hdr := ⟨2, true, 3⟩

def regsOf (l : List (Nat × Word)) : FMap Word := l.foldl (fun m e => fset 0 m e.1 e.2) []
def bytesAt (m : FMap Byte) (a : Nat) (l : List Nat) : FMap Byte := fsetAll 0 m a (l.map (BitVec.ofNat 8))
def le (n v : Nat) : List Nat := (List.range n).map (fun i => v / 256 ^ i % 256)

def theTask : Machine.Task :=
  { ctx := 0, tmpl := 0, id := 0x100000000, args := [], set := [], geom := 0, core := none, vto := 0, cont := none }
def frame : Frame :=
  { uid := 1, task := theTask, prio := 3, lane := 0, lim := 32, pc := 0x100008, g := [], a := [], p := 1, stall := 0, pend := [],
    await := [], claims := [], pb := [], need := [], schk := false, geom := 0, priv := false, tcause := 0, tpc := 0, tval := 0,
    tinsn0 := 0, tinsn1 := 0, tsave := [], view := [], acq := 0, past := [], asked := [], bundle := Bundle.empty, spawnK := 0, horizon := false,
    long := false, owner := false, halting := false, deferred := false, settleWait := none, bundles := [], samp := [], seen := [], window := .resident, arrived := true,
    brkHalted := false }
/-- The integer registers: -16, 7, 9, an aligned heap address, the heap base, 1, 2. -/
def fA : Frame :=
  { frame with
    g := regsOf [(1, 0xFFFFFFFFFFFFFFF0), (2, 7), (4, 9), (6, 0x100040), (7, 0x100000), (8, 1), (9, 2)]
    a := fset 0 (fset 0 (fset 0 (fset 0 [] 1 64) 2 128) 3 0x400) 4 0x800 }
/-- The same with the lane claimed for vectors, in the trap frame, and in the long vector mode. -/
def fV : Frame := { fA with claims := [laneGuard 0] }
def fP : Frame := { fA with priv := true }
def fW : Frame := { fA with long := true }

def template (place placeVal first count : Nat) (groups : List Nat) : Template :=
  { Template.blank with place, placeVal, argFirst := first, argCount := count, groups }
def ctxA : Ctx :=
  { Ctx.free with
    state := 2, codebase := 0x100000, codelen := 0x1000, cores := [0, 1], coreids := [0, 0x40001], vdmask := 1,
    vdies := fset VDie.none [] 0 ⟨true, 0, 1⟩, stat := fset 0 (fset 0 (fset 0 [] 0 64) 1 64) 2 64, heapbase := 0x100000,
    heaplimit := 0x200000, trapentry := 0x40,
    templates := [template 1 0 1 2 [3], template 0 1 4 1 [], template 2 2 1 0 [3], template 1 9 0 0 []],
    groups := fset Group.none (fset Group.none (fset Group.none [] 1 ⟨2, 1, 2, 0, 0, 0, 0, 3⟩) 2 ⟨3, 0, 0, 0, 0, 0, 0, 3⟩) 3
      ⟨1, 0, 0, 0, 0, 0, 0, 0⟩,
    guards := fset Guard.unused (fset Guard.unused (fset Guard.unused [] 1 ⟨5, 1, 0, 0, 0⟩) 2 ⟨4, 2, 0, 0x400, 64⟩) 4 ⟨2, 1, 0, 0, 0⟩ }
def coreA : Core :=
  { Core.reset with pad := bytesAt (bytesAt (bytesAt [] 64 [0xFF, 0x80, 1]) 128 [0x85, 0x3F]) 0x400 [9] }

/-- Context `x`, with frame `f` alone on core 0, at an instruction. -/
def with_ (x : Ctx) (c : Core) (f : Frame) : State :=
  { State.reset with
    ctxs := fset Ctx.free [] 0 x, cores := fset Core.reset [] 0 { c with ctx := some 0, frames := [f], passed := true } }
def sA : State := with_ ctxA coreA fA
def sP : State := with_ ctxA coreA fP
def sV : State := with_ ctxA coreA fV
def sW : State := with_ ctxA coreA fW

theorem open_sA : Open sA fA [] noGuard := open_of rfl (by decide +kernel)
theorem open_sA' : Open sA fA [] passesN := open_of rfl (by decide +kernel)
theorem open_sP : Open sP fP [] noGuard := open_of rfl (by decide +kernel)
theorem open_sV : Open sV fV [] noGuard := open_of rfl (by decide +kernel)
theorem open_sW : Open sW fW [] noGuard := open_of rfl (by decide +kernel)

/-! ## The hypotheses of the statements are met

`Open s f fs h` gives every `Issues s f fs h …` of a statement, for whatever registers its clause names. -/

theorem witness_IntegerResults : Open sA fA [] noGuard ∧ Open sA fA [] passesN := ⟨open_sA, open_sA'⟩

/-- A quotient, a division by zero, the one quotient that does not fit; and a busy divider. -/
def fDiv : Frame := { frame with g := regsOf [(1, 0x8000000000000000), (2, 0xFFFFFFFFFFFFFFFF)] }
def sDiv : State := with_ ctxA coreA fDiv
def sDivBusy : State := with_ ctxA { coreA with div := some ⟨1, 2, 3, 0⟩ } fDiv
theorem witness_DivideAndRemainder :
    (Open sDiv fDiv [] noGuard ∧ (sDiv.core 0).div = none ∧ (fDiv.getG 1).toInt = -2 ^ 63 ∧ (fDiv.getG 2).toInt = -1 ∧
      (fDiv.getG 3) = 0) ∧
    (Open sDivBusy fDiv [] noGuard ∧ (sDivBusy.core 0).div ≠ none) :=
  ⟨⟨open_of rfl (by decide +kernel), by decide +kernel, by decide +kernel, by decide +kernel, by decide +kernel⟩,
    open_of rfl (by decide +kernel), by decide +kernel⟩

/-- Fields up to the top bit; virtual dies that exist and that do not. -/
def ctxHops : Ctx := { ctxA with vdmask := 5, vdies := fset VDie.none (fset VDie.none [] 0 ⟨true, 1, 3⟩) 2 ⟨true, 6, 3⟩ }
def sHops : State := with_ ctxHops coreA fA
theorem witness_FieldSelectAndAddress :
    Open sHops fA [] noGuard ∧ (63#6).toNat + (0#6).toNat + 1 ≤ 64 ∧ (0#6).toNat + (63#6).toNat + 1 ≤ 64 ∧
    ((fA.getG 9).toNat < 8 ∧ (sHops.ctx 0).vdmask.getLsbD (fA.getG 9).toNat = true) ∧
    ((fA.getG 3).toNat < 8 ∧ (sHops.ctx 0).vdmask.getLsbD (fA.getG 3).toNat = true) ∧
    ¬ ((fA.getG 2).toNat < 8 ∧ (sHops.ctx 0).vdmask.getLsbD (fA.getG 2).toNat = true) ∧
    ¬ ((fA.getG 4).toNat < 8 ∧ (sHops.ctx 0).vdmask.getLsbD (fA.getG 4).toNat = true) := by
  refine ⟨open_of rfl ?_, ?_⟩ <;> decide +kernel

theorem witness_ComparesAndPredicates : Open sA fA [] noGuard := open_sA
/-- `LOOP` of a register that is 1 is not taken; of one that is 2 it is. -/
theorem witness_ControlTransfers :
    Open sA fA [] noGuard ∧ BitVec.ofInt 64 ((fA.getG 9).toNat - 1) ≠ 0 ∧ BitVec.ofInt 64 ((fA.getG 8).toNat - 1) = 0 :=
  ⟨open_sA, by decide +kernel, by decide +kernel⟩

/-- An instruction that needs no privilege in an ordinary frame, and one that needs it in the trap frame, whose guards fail. -/
theorem witness_FailedGuardOnlyRetires :
    (AtInstr sA fA [] ∧ fA.lim = 32 ∧ fA.schk = false ∧ ¬ pMarked (.add fails 3 1 2) fails ∧ (∀ r ∈ guardRegs fails, r ∉ fA.await) ∧
      fA.getP fails.gp = fails.gn) ∧
    (AtInstr sP fP [] ∧ fP.priv = true ∧ pMarked (.ovld fails 3) fails ∧ (∀ r ∈ guardRegs fails, r ∉ fP.await) ∧
      fP.getP fails.gp = fails.gn) :=
  ⟨⟨at_of rfl (by decide +kernel), by decide, by decide, by simp [pMarked], by decide, by decide⟩,
    at_of rfl (by decide +kernel), by decide, Or.inl ⟨3, rfl⟩, by decide, by decide⟩

/-- A frame of 16 registers; one whose results are counted; one with a result on its way. -/
def fLim : Frame := { fA with lim := 16 }
def fCount : Frame := { fA with schk := true, pend := [⟨.g 3, 0, 2⟩, ⟨.p 2, 0, 2⟩] }
def fAwait : Frame := { fA with await := [.g 3] }
theorem witness_ChecksBeforeIssue :
    (pMarked (.tretKill noGuard) noGuard ∧ AtInstr sA fA [] ∧ fA.priv = false) ∧
    (AtInstr (with_ ctxA coreA fLim) fLim [] ∧ fLim.lim ≤ (16#5).toNat ∧ ¬ fLim.lim ≤ (15#5).toNat) ∧
    (AtInstr (with_ ctxA coreA fCount) fCount [] ∧ fCount.lim = 32 ∧ fCount.schk = true ∧
      fCount.pend.any (fun x => x.reg == .p passesN.gp) = true ∧ passesN.gp ≠ 0 ∧ noGuard.gp = 0 ∧
      fCount.pend.any (fun x => x.reg == .g 3) = true ∧ fCount.pend.any (fun x => x.reg == .g 1) = false ∧
      ¬ pMarked (.add passesN 3 1 2) passesN) ∧
    (AtInstr (with_ ctxA coreA fAwait) fAwait [] ∧ fAwait.lim = 32 ∧ fAwait.schk = false ∧ (∀ r ∈ guardRegs noGuard, r ∉ fAwait.await) ∧
      fAwait.getP noGuard.gp ≠ noGuard.gn ∧ Reg.g 3 ∈ fAwait.await) :=
  ⟨⟨by simp [pMarked], at_of rfl (by decide +kernel), rfl⟩, ⟨at_of rfl (by decide +kernel), by decide, by decide⟩,
    ⟨at_of rfl (by decide +kernel), by decide, by decide, by decide, by decide, by decide, by decide, by decide, by simp [pMarked]⟩,
    at_of rfl (by decide +kernel), by decide, by decide, by decide, by decide, by decide⟩

/-- A frame with a pending result of each kind, on a core that counts its window and on one that does not. -/
def fPend : Frame := { fA with pend := [⟨.g 3, 5, 2⟩, ⟨.p 2, 0, 1⟩, ⟨.v 3, 0, 1⟩, ⟨.a 2, 7, 1⟩] }
def sPend : State := with_ ctxA { coreA with eswin := 5 } fPend
theorem witness_RetirementFrame :
    (sPend.core 0).frames = fPend :: [] ∧ (sPend.core 0).eswin ≠ 0 ∧ (sA.core 0).frames = fA :: [] ∧ (sA.core 0).eswin = 0 ∧
    Ret.plain.exc = 0 ∧ (∀ x ∈ fPend.pend ++ records [gRes 5 7 1], x.reg ≠ .g 1 ∧ x.reg ≠ .p 1 ∧ x.reg ≠ .a 1 ∧ x.reg ≠ .v 1) :=
  ⟨rfl, by decide, rfl, by decide, rfl, by decide⟩
theorem witness_ResultsBecomeVisible :
    (1#5 ≠ 0 ∧ 0 < 1 ∧ ∀ x ∈ fPend.pend, x.reg ≠ .g 1) ∧ (sPend.core 0).frames = fPend :: [] := ⟨by decide, rfl⟩

theorem witness_TrapEntry :
    ((sPend.core 0).frames = fPend :: [] ∧ fPend.priv = false ∧ 255 < 256) ∧
    ((sP.core 0).frames = fP :: [] ∧ fP.priv = true ∧ (sP.ctx fP.task.ctx).state = 2) := ⟨⟨rfl, rfl, by decide⟩, rfl, rfl, by decide⟩

def fBrk : Frame := { fA with brkHalted := true }
def sBrken : State := with_ ctxA { coreA with dbg := { Debug.reset with brken := true } } fA
theorem witness_TrapInstructions :
    (Open (with_ ctxA coreA fBrk) fBrk [] noGuard ∧ fBrk.brkHalted = true) ∧
    (Open sBrken fA [] noGuard ∧ fA.brkHalted = false ∧ (sBrken.core sBrken.cur).dbg.brken = true) ∧
    (Open sA fA [] noGuard ∧ (sA.core sA.cur).dbg.brken = false) ∧
    (Open sP fP [] noGuard ∧ fP.priv = true ∧ (sP.ctx fP.task.ctx).state = 2) :=
  ⟨⟨open_of rfl (by decide +kernel), rfl⟩, ⟨open_of rfl (by decide +kernel), rfl, by decide⟩, ⟨open_sA, by decide⟩, open_sP, rfl,
    by decide⟩

/-! ### Scratchpad and memory -/

/-- Pointers 1, 2, 3 at 64, 128 and 0x400, for 8 bytes; the last bytes of the static area; a frame of no rights. -/
def fEdge : Frame := { fA with a := fset 0 (fset 0 fA.a 5 65528) 6 65535 }
theorem witness_ScratchpadInstructions :
    Open sA fA [] noGuard ∧ PadFree sA fA 8 [.inc 1, .plain 2, .step 3 8] [.plain 2, .step 3 8] [.inc 1] ∧
    PadFree sA fA 4 [.plain 1, .plain 1, .plain 1] [.plain 1, .plain 1] [.plain 1] ∧
    (Open (with_ ctxA coreA fEdge) fEdge [] noGuard ∧ PadFree (with_ ctxA coreA fEdge) fEdge 8 [.plain 5] [.plain 5] [.plain 5] ∧
      PadFree (with_ ctxA coreA fEdge) fEdge 1 [.inc 6] [] [.inc 6]) ∧
    leNat ((sA.core sA.cur).padRead (fA.ptr (.plain 3)) 4) = (fA.getG 4).toNat % 2 ^ 32 ∧
    leNat ((sA.core sA.cur).padRead (fA.ptr (.plain 3)) 4) ≠ (fA.getG 2).toNat % 2 ^ 32 :=
  ⟨open_sA, ⟨by decide +kernel, by decide +kernel⟩, ⟨by decide +kernel, by decide +kernel⟩,
    ⟨open_of rfl (by decide +kernel), ⟨by decide +kernel, by decide +kernel⟩, ⟨by decide +kernel, by decide +kernel⟩⟩,
    by decide +kernel, by decide +kernel⟩
theorem witness_ScratchpadWriteFrame : (sA.core 0).watches = [] ∧ (1 ≠ 0) := ⟨rfl, by decide⟩

/-- A window over the pages of 0x1400000. -/
def ctxWin : Ctx := { ctxA with windows := fset GenWin.absent [] 2 { GenWin.absent with base := 0x1400000, npages := 1, func := 1 } }
def fWin : Frame := { fA with g := fset 0 fA.g 10 0x1400040 }
def sWin : State := with_ ctxWin coreA fWin
/-- A page with an entry in the TLB, which permits stores. -/
def fPage : Frame := { fA with g := fset 0 (fset 0 fA.g 10 0x400040) 11 0x4000000000000000 }
def sPage : State := with_ ctxA { coreA with tlb := [{ ctx := 0, page := 0x40, frame := 0x33, wr := true, dirty := false, leaf := 0 }] } fPage
def at0 (f : Frame) (a : GReg) (disp : BitVec 24) : Word := BitVec.ofInt 64 ((f.getG a).toNat + disp.toInt)

def request (k : ReqKind) (dst : Option Reg) : Req :=
  { id := 7, frame := 1, acq := 0, ctx := 0, taskId := 0, prio := 3, dst, inside := false, kind := k }
/-- A paged address without a leaf. -/
def fHole : Frame := { fA with g := fset 0 fA.g 10 0x800040 }
def sHole : State := with_ ctxA coreA fHole
theorem fault_of {x : Res × State} (e : (match x.1 with | .fault p => p == 0x80 | _ => false) = true) : ∃ s1, x = (.fault 0x80, s1) := by
  obtain ⟨r, s⟩ := x
  cases r <;> simp_all
/-- `k` loads of line 0x4001 under way. -/
def sBusy (k : Nat) : State := with_ ctxA { coreA with reqs := List.replicate k (request (.load (.line 0x4001) ⟨[], none⟩ 0 8 false) none) } fA
theorem got_of {x : Got} (e : (match x with | .ok .. => true | _ => false) = true) : ∃ v s, x = .ok v s := by
  cases x <;> simp_all
theorem witness_LoadsAtIssue :
    Open sA fA [] noGuard ∧ Open sWin fWin [] noGuard ∧ Open sPage fPage [] noGuard ∧
    (∃ s1, reaches sA fA false (at0 fA 7 64) 64 (.line 0x4001 0 none) s1) ∧ (∃ s1, reaches sA fA false (fA.getG 6) 8 (.line 0x4001 0 none) s1) ∧
    (∃ s1, reaches sWin fWin false (at0 fWin 10 0) 64 (.window 2) s1) ∧
    (∃ s1, reaches sPage fPage false (at0 fPage 10 0) 64 (.line 0xCC01 0 (some 0x40)) s1) ∧
    (fA.padCheck (sA.ctx fA.task.ctx) (fA.ptr (.inc 1)) 64 = .ok () ∧ (sA.core sA.cur).rangeWaits [] [(fA.ptr (.inc 1), 64)] = false) ∧
    (∀ k ∈ [15, 16], Open (sBusy k) fA [] noGuard ∧ ((sBusy k).core 0).outstanding = k ∧ (sBusy k).readWaits 0 fA 0x4001 = true ∧
      ∃ s1, reaches (sBusy k) fA false (fA.getG 6) 8 (.line 0x4001 0 none) s1) ∧
    (sA.readWaits 0 fA 0x4001 = false ∧ ∃ v t, sA.readLine 0 fA fA.acq 0x4001 = .ok v t) ∧
    (Open sHole fHole [] noGuard ∧ sHole.addrChk (sHole.ctx 0) false (at0 fHole 10 0) 8 8 = .ok (.paged 0x80) ∧
      ∃ s1, sHole.place 0 0 false (at0 fHole 10 0) (.paged 0x80) = (.fault 0x80, s1)) ∧
    (let s := { sBusy 16 with ctxs := fset Ctx.free [] 0 ctxWin }
     Open s fA [] noGuard ∧ (s.core 0).outstanding ≤ 16 ∧ ∃ s1, reaches s fA false 0x1400040 64 (.window 2) s1) :=
  ⟨open_sA, open_of rfl (by decide +kernel), open_of rfl (by decide +kernel), reaches_of (by decide +kernel),
    reaches_of (by decide +kernel), reaches_of (by decide +kernel), reaches_of (by decide +kernel), by decide +kernel,
    fun k h => ⟨open_of rfl (by revert k; decide +kernel), by revert k; decide +kernel, by revert k; decide +kernel,
      reaches_of (by revert k; decide +kernel)⟩, ⟨by decide +kernel, got_of (by decide +kernel)⟩,
    ⟨open_of rfl (by decide +kernel), by decide +kernel, fault_of (by decide +kernel)⟩,
    ⟨open_of rfl (by decide +kernel), by decide +kernel, reaches_of (by decide +kernel)⟩⟩

/-- Line 0x4001: a settled newer version by writer 3, and an older one. -/
def memA : Memory :=
  { Memory.reset with
    newer := fset 0 (fset 0 [] (64 * 0x4001 + 8) 0x91) (64 * 0x4001 + 9) 0xF2, older := fset 0 [] (64 * 0x4001 + 8) 0x33,
    tags := fset LineTags.zero [] 0x4001 { newer := { Tag.zero with st := .settled, writer := 3, cseq := 5 }, older := Tag.zero } }
def newTag (m : Memory) (w : Writer) (q : CSeq) (st : VState) : Memory :=
  { m with tags := fset LineTags.zero m.tags 0x4001 { newer := { Tag.zero with st, writer := w, cseq := q }, older := Tag.zero } }
def asked (k : ReqKind) (dst : Option Reg) (m : Memory) : State :=
  { with_ ctxA { coreA with reqs := [request k dst] } { fA with await := [.g 5] } with mem := m }
def laid : Overlay := { bytes := fset none [] 10 (some 0x77), std := none }

theorem read_of {s : State} {n : Nat} {f : Frame} {key : Nat} (e : (match s.readLine n f 0 key with | .ok v _ => v.data.length == 64 | _ => false) = true) :
    ∃ v s1, s.readLine n f 0 key = .ok v s1 ∧ v.data.length = 64 := by
  cases h : s.readLine n f 0 key <;> simp_all

/-- A view that excludes both versions of the line. -/
def fOld : Frame := { fA with await := [.g 5], view := [⟨3, none, some 2⟩, ⟨4, none, some 1⟩] }
def tagsOld : LineTags :=
  { newer := { Tag.zero with st := .settled, writer := 3, cseq := 5 }, older := { Tag.zero with st := .settled, writer := 4, cseq := 2 } }
def sOld : State :=
  let s := with_ ctxA { coreA with reqs := [request (.load (.line 0x4001) laid 8 2 true) (some (.g 5))] } fOld
  { s with mem := { memA with tags := fset LineTags.zero [] 0x4001 tagsOld } }
theorem old_got {x : Got} (e : (match x with | .tooOld => true | _ => false) = true) : x = .tooOld := by cases x <;> simp_all
theorem old_choice {x : Choice} (e : (match x with | .tooOld => true | _ => false) = true) : x = .tooOld := by cases x <;> simp_all
def sLoad : State := asked (.load (.line 0x4001) laid 8 2 true) (some (.g 5)) memA
theorem witness_LoadReplyDeliversItsBytes :
    (sLoad.core 0).reqs.find? (fun q => q.id == 7) = some (request (.load (.line 0x4001) laid 8 2 true) (some (.g 5))) ∧
    (sLoad.ctx 0).tearing = false ∧ sLoad.reqWaits 0 (request (.load (.line 0x4001) laid 8 2 true) (some (.g 5))) = false ∧
    sLoad.behind 0 (request (.load (.line 0x4001) laid 8 2 true) (some (.g 5))).place = false ∧
    (sLoad.core 0).frame? 1 = some { fA with await := [.g 5] } ∧
    (∃ v s1, sLoad.readLine 0 { fA with await := [.g 5] } 0 0x4001 = .ok v s1 ∧ v.data.length = 64) ∧
    ((sOld.core 0).frame? 1 = some fOld ∧ sOld.readLine 0 fOld 0 0x4001 = .tooOld) :=
  ⟨rfl, rfl, by decide +kernel, by decide +kernel, rfl, read_of (by decide +kernel), rfl, old_got (by decide +kernel)⟩

/-- Context 1 of this package as a peer, and a state in which it is live. -/
def herePeer : PeerRef := { idx := 2, pkg := 0, ctx := 1, eth := false, bind := 5 }
def sHere : State := { sA with ctxs := fset Ctx.free sA.ctxs 1 ctxA }
def lineA : BLine := homeLine 0x4001 none 0x100040 2 [9, 8, 7, 6] none
def lineB : BLine := homeLine 0x4002 none 0x100080 0 [9] (some (3, 9))
/-- An open bundle of 128 lines takes no other line; one that holds a line takes more bytes of it. -/
def bundleFull : Bundle := ⟨(List.range 128).map (fun k => homeLine (0x4100 + k) none 0x104000 0 [1] none), []⟩
def fFull : Frame := { fA with bundle := bundleFull }
theorem witness_StoresEnterTheOpenBundle :
    (Open sA fA [] noGuard ∧ (∃ s1, reaches sA fA true (at0 fA 7 64) 8 (.line 0x4001 0 none) s1) ∧
      (∃ s1, reaches sA fA true (fA.getG 6) 64 (.line 0x4001 0 none) s1) ∧
      fA.padCheck (sA.ctx fA.task.ctx) (fA.ptr (.plain 2)) 64 = .ok () ∧ (sA.core sA.cur).rangeWaits [(fA.ptr (.plain 2), 64)] [] = false) ∧
    (Open sPage fPage [] noGuard ∧ ∃ s1, reaches sPage fPage true (fPage.getG 10) 64 (.line 0xCC01 0 (some 0x40)) s1) ∧
    (Open (with_ ctxA coreA fFull) fFull [] noGuard ∧ fFull.bundle.put lineA = none) ∧
    (∃ c, sA.putLine ⟨[lineA, lineB], []⟩ (homeLine 0x4001 none 0x100040 3 [1, 2, 3, 4] (some (3, 7))) = some c) ∧
    (∃ c, sA.putLine Bundle.empty lineA = some c) ∧
    (let l : BLine := { lineA with dest := .peer herePeer }
     (∃ c, sHere.putLine ⟨[lineA, lineB], []⟩ l = some c) ∧ sHere.lineKey l = some 0x4001 ∧ l.fold = none ∧ mapWf none l.bytes = true ∧
      (∀ x ∈ [lineA, lineB], mapWf none x.bytes = true ∧ sHere.peerKey x ≠ some 0x4001) ∧ sHere.lineKey l ≠ some 0x4002) :=
  ⟨⟨open_sA, reaches_of (by decide +kernel), reaches_of (by decide +kernel), by decide +kernel, by decide +kernel⟩,
    ⟨open_of rfl (by decide +kernel), reaches_of (by decide +kernel)⟩, ⟨open_of rfl (by decide +kernel), by decide +kernel⟩,
    ⟨_, rfl⟩, ⟨_, rfl⟩, ⟨_, rfl⟩, by decide +kernel⟩

/-- R208, R211, R332: of two stores to a line under two names the later one counts, whichever name comes first. -/
theorem test_later_name_counts :
    (let l : BLine := { lineA with dest := .peer herePeer, bytes := lineBytes 2 [1] }
     (sHere.putLine ⟨[l], []⟩ lineA).map (fun c => fget none (sHere.overlay c 0x4001).bytes 2) = some (some 9)) ∧
    (let l : BLine := { lineA with dest := .peer herePeer, bytes := lineBytes 2 [1] }
     (sHere.putLine ⟨[lineA], []⟩ l).map (fun c => fget none (sHere.overlay c 0x4001).bytes 2) = some (some 1)) := by decide +kernel

/-! ### Bundles, views, homes -/

/-- A compare-and-swap of the core under way. -/
def sCas (f : Frame) : State :=
  with_ ctxA { coreA with reqs := [request (.atom 0x4001 8 8 (.cas 1 2) 0x100040 none 1) none] } f
def fClose : Frame := { fA with bundle := ⟨[lineA, lineB], []⟩ }
def sClose : State := with_ ctxA { coreA with cseq := 0xFFFFFFFF } fClose
theorem witness_ClosingABundle :
    Open sClose fClose [] noGuard ∧ (∀ l ∈ fClose.bundle.lines, l.prog = .flight) ∧ fClose.bundle.lines ≠ [] ∧
    (sClose.core sClose.cur).cseq = 0xFFFFFFFF ∧ (sClose.core sClose.cur).casOpen = none ∧
    (Open (sCas fClose) fClose [] noGuard ∧ ((sCas fClose).core 0).casOpen ≠ none) :=
  ⟨open_of rfl (by decide +kernel), by decide, by decide, rfl, rfl, open_of rfl (by decide +kernel), by decide +kernel⟩

def closed (seq : CSeq) (ls : List BLine) : Closed :=
  { uid := 3, seq, ctx := 0, scope := .system, lines := ls, effects := [], set := [], id := 0x100000000, prio := 3, samp := [],
    fclose := none, copy := none, declared := false, atHome := false, settleAt := 0, quietAt := 0 }
def fWait : Frame := { fA with bundles := [3], settleWait := some .package }
def sWait : State := with_ ctxA { coreA with closed := [closed 5 [lineA]] } fWait
theorem witness_FencesAndProbes :
    (Open sA fA [] noGuard ∧ (sA.core sA.cur).casOpen = none) ∧
    ((sWait.core sWait.cur).frames = fWait :: [] ∧ (sWait.core sWait.cur).dbg.halted = false ∧
      ((sWait.core sWait.cur).reqs.any fun q => q.inside) = false ∧ fWait.settleWait = some .package ∧
      ∃ k, ∃ b ∈ (sWait.core k).closed, b.uid ∈ fWait.bundles ∧ ∃ l ∈ b.lines, inReach sWait.cur .package l.dest ∧
        l.prog ∈ [Prog.flight, .arrived, .acked, .settling, .settled]) ∧
    sA.kind (sA.ctx 0) false (fA.getG 6) = .line 0x4001 0 ∧
    (Open sWin fWin [] noGuard ∧ sWin.kind (sWin.ctx 0) false (fWin.getG 10) = .window 2) ∧
    (Open sPage fPage [] noGuard ∧ sPage.kind (sPage.ctx 0) false (fPage.getG 10) = .paged 0x40 ∧
      (sPage.place 0 0 true (fPage.getG 10) (.paged 0x40)).1 = .ok (.line 0xCC01 0 (some 0x40)) ∧
      sPage.kind (sPage.ctx 0) false (fPage.getG 11) = .bad 0x11) :=
  ⟨⟨open_sA, rfl⟩, ⟨rfl, rfl, rfl, rfl, 0, _, List.mem_cons_self, List.mem_cons_self, _, List.mem_cons_self, by decide +kernel, by decide⟩,
    by decide +kernel, ⟨open_of rfl (by decide +kernel), by decide +kernel⟩, open_of rfl (by decide +kernel), by decide +kernel,
    by decide +kernel, by decide +kernel⟩

/-- The bundle 5 of core 0, its first line at the point `p`, over memory `m`. -/
def onItsWay (p : Prog) (m : Memory) : State :=
  { with_ ctxA { coreA with closed := [closed 5 [{ lineA with prog := p }, { lineB with prog := p }]] } fA with mem := m }
theorem witness_LineArrivesAtItsHome :
    let s := onItsWay .flight memA
    (s.core 0).line? 5 0 = some (closed 5 [lineA, lineB], lineA) ∧ lineA.dest = .home 0x4001 ∧ lineA.fold = none ∧
    (s.core 0).line? 5 1 = some (closed 5 [lineA, lineB], lineB) ∧ lineB.dest = .home 0x4002 ∧ lineB.std = some (3, 9) ∧
    s.mem.isBad 0x4001 = false ∧ (s.mem.lineTags 0x4001).newer.st ≠ .pending ∧ (s.mem.lineTags 0x4002).newer.st ≠ .pending ∧
    (∀ e ∈ [(0, 0x4001), (1, 0x4002)], (s.core 0).readsBefore 3 e.2 = false ∧ s.lineFirst 0 (closed 5 [lineA, lineB]) e.1 e.2 = false ∧
      s.behind 0 ((closed 5 [lineA, lineB]).place e.1) = false ∧ s.linksHome 0 e.2 = true) ∧
    (closed 5 [lineA, lineB]).atHome = false ∧ (newTag memA 9 1 .pending).lineTags 0x4001 ≠ LineTags.zero ∧
    (let t := onItsWay .flight { memA with bad := fset false [] 0x4001 true }
     t.mem.isBad 0x4001 = true ∧ t.lineWaits 0 (closed 5 [lineA, lineB]) 0 lineA 0x4001 = false ∧
      t.behind 0 ((closed 5 [lineA, lineB]).place 0) = false ∧ lineA.page = none ∧ (t.ctx 0).state = 2) ∧
    (((newTag memA 9 1 .pending).lineTags 0x4001).newer.st = .pending) ∧
    (let t := onItsWay .flight (newTag memA 0 5 .pending)
     (t.mem.lineTags 0x4001).newer.st = .pending ∧ (t.mem.lineTags 0x4001).newer.writer = t.writer 0 ∧ (t.mem.lineTags 0x4001).newer.cseq = 5 ∧
      t.mem.isBad 0x4001 = false ∧ (t.core 0).readsBefore 3 0x4001 = false ∧ t.lineFirst 0 (closed 5 [lineA, lineB]) 0 0x4001 = false ∧
      t.behind 0 ((closed 5 [lineA, lineB]).place 0) = false ∧ t.linksHome 0 0x4001 = true) := by
  refine ⟨rfl, rfl, rfl, rfl, rfl, rfl, ?_⟩; decide +kernel
theorem witness_LinesSettleAndBecomeQuiet :
    (∀ p ∈ [Prog.arrived, .settling, .settled, .quieting],
      let s := onItsWay p (newTag memA 0 5 .pending)
      (∃ b, (s.core 0).line? 5 0 = some (b, { lineA with prog := p }) ∧ b.seq = 5 ∧ b.atHome = false ∧ (s.ctx b.ctx).pair.pen = false) ∧
      (s.mem.lineTags 0x4001).newer.writer = s.writer 0 ∧ (s.mem.lineTags 0x4001).newer.cseq = 5 ∧ s.mem.confirmed = [] ∧
      s.linksHome 0 0x4001 = true ∧ (s.core 0).quietBehind 5 = false ∧
      s.behind 0 ((closed 5 [{ lineA with prog := p }, { lineB with prog := p }]).place 0) = false) ∧
    (2048#16).extractLsb' 11 5 ≠ sA.fabric.pkgnum ∧ fget none (sA.core 0).known 2048 = none := by
  refine ⟨fun p hp => ⟨⟨_, rfl, rfl, rfl, rfl⟩, ?_⟩, ?_⟩
  · revert p; decide +kernel
  · decide +kernel

theorem choice_of {c : Choice} (e : (match c with | .take .. => true | _ => false) = true) : ∃ x w, c = .take x w := by
  cases c <;> simp_all
def sPend3 : State := onItsWay .settling (newTag memA 3 5 .pending)
def someChoice (s : State) (v : View) : Bool := match s.choose 0 1 v 0x4001 with | .take .. => true | _ => false
theorem choices : [[], [⟨3, some 7, none⟩], [⟨3, none, some 9⟩]].all (someChoice (onItsWay .flight memA)) = true := by decide +kernel
theorem choices_pending : [[], [⟨0, some 5, none⟩]].all (someChoice (onItsWay .settling (newTag memA 0 5 .pending))) = true := by decide +kernel
/-- Views that say nothing, include, exclude, over a settled and over a pending version. -/
theorem witness_ChosenVersionsObeyTheView :
    (∀ v ∈ [([] : View), [⟨3, some 7, none⟩], [⟨3, none, some 9⟩]], ∃ x w, (onItsWay .flight memA).choose 0 1 v 0x4001 = .take x w) ∧
    (∀ v ∈ [([] : View), [⟨0, some 5, none⟩]],
      ∃ x w, (onItsWay .settling (newTag memA 0 5 .pending)).choose 0 1 v 0x4001 = .take x w) ∧
    (onItsWay .flight memA).mem.pool = [] ∧ (7 - 5 : CSeq).toNat ≠ 2 ^ 31 ∧
    ((sPend3.mem.lineTags 0x4001).newer.st = .pending ∧ View.included [] (sPend3.writer 0) 3 5 = false ∧
      ∃ x w, sPend3.choose 0 1 [] 0x4001 = .take x w) ∧
    (let v : View := [⟨3, some 1, some 9⟩, ⟨4, none, some 1⟩]
     (v.map VEntry.writer).Nodup ∧ ∀ e ∈ v, ∀ b, e.inc = some b → (b - 5 : CSeq).toNat ≠ 2 ^ 31) ∧
    sOld.choose 0 1 fOld.view 0x4001 = .tooOld :=
  ⟨fun v hv => choice_of (List.all_eq_true.1 choices v hv), fun v hv => choice_of (List.all_eq_true.1 choices_pending v hv), rfl,
    by decide +kernel, ⟨by decide +kernel, by decide +kernel, choice_of (by decide +kernel)⟩, by simp, old_choice (by decide +kernel)⟩

/-! ### Atomics and folds -/

def atomic (op : AtomOp) (k : Nat) : ReqKind := .atom 0x4001 8 k op 0x100040 none 1
theorem witness_MemoryAtomics :
    (Open (sCas fA) fA [] noGuard ∧ ((sCas fA).core 0).casOpen ≠ none ∧ ((sCas fA).core 0).outstanding < 16 ∧
      ∃ s1, reaches (sCas fA) fA true (fA.getG 6) 8 (.line 0x4001 0 none) s1) ∧
    (Open sA fA [] noGuard ∧ (sA.core 0).casOpen = none ∧ (sA.core 0).outstanding < 16 ∧ (∃ s1, reaches sA fA true (fA.getG 6) 8 (.line 0x4001 0 none) s1) ∧
      ∃ s1, reaches sA fA true (fA.getG 6) 4 (.line 0x4001 0 none) s1) ∧
    (∀ op ∈ [AtomOp.xchg 5, .add 0xFFFFFFFFFFFFFFFF, .cas 0xF291 77, .cas 0xF292 77],
      let s := asked (atomic op 8) (some (.g 5)) memA
      (s.core 0).reqs.find? (fun q => q.id == 7) = some (request (atomic op 8) (some (.g 5))) ∧ 8 + 8 ≤ 64 ∧
      s.reqWaits 0 (request (atomic op 8) (some (.g 5))) = false ∧ s.behind 0 (request (atomic op 8) (some (.g 5))).place = false ∧
      (s.core 0).fclosed = [] ∧ (s.mem.lineTags 0x4001).newer.st ≠ .pending ∧
      s.mem.isBad 0x4001 = false ∧ s.mem.confirmed = [] ∧ (s.ctx 0).pair.pen = false ∧
      leNat (((s.mem.newerData 0x4001).drop 8).take 8) = 0xF291) ∧
    60 + 4 ≤ 64 := by
  refine ⟨⟨open_of rfl ?_, ?_, ?_, reaches_of ?_⟩, ⟨open_sA, ?_, ?_, reaches_of ?_, reaches_of ?_⟩, fun op h => ⟨rfl, ?_⟩, ?_⟩
  all_goals first | (revert op; decide +kernel) | decide +kernel

/-- A target of two lines, staging for two contributions; and a word that asks for reserved bits. -/
def fFold : Frame := { fA with g := fset 0 (fset 0 (fset 0 fA.g 10 0x101000) 11 0x101) 12 0x40 }
def sFold : State := with_ ctxA coreA fFold
theorem witness_FoldObjectsOpen :
    (Open sFold fFold [] noGuard ∧ (∃ s1, reaches sFold fFold true (fFold.getG 6) 1 (.line 0x4001 0 none) s1) ∧
      fFold.rangeCheck (sFold.ctx 0) (fFold.ptr (.inc 4)) (64 * 16) 64 = .ok () ∧
      (sFold.core 0).rangeWaits [(fFold.ptr (.inc 4), 64 * 16)] [] = false ∧
      (∃ bd, sFold.putLines fFold.bundle ((List.range 16).map fun l => { homeLine 0x4001 none (fFold.getG 6) 0
        ((sFold.core 0).padRead (fFold.ptr (.inc 4) + 64 * l) 64) none with
          fold := some { obj := fFold.getG 6, key := 0x4001, k := fFold.getG 2, l, lines := 16 } }) = some bd) ∧
      ∃ set, (sFold.core 0).reduceSet (sFold.writer 0) ((sFold.core 0).includedSet (sFold.writer 0) fFold.view) = some set) ∧
    ((fFold.getG 12).toNat &&& 0x10F3F ≠ (fFold.getG 12).toNat) ∧
    ((fFold.getG 11).toNat &&& 0x10F3F = (fFold.getG 11).toNat ∧ (fFold.getG 6).toNat % 64 = 0 ∧ (fFold.getG 10).toNat % 64 = 0 ∧
      sameVault (fFold.getG 6) (fFold.getG 10) = true ∧
      (∃ ks, sFold.kindAll (sFold.ctx 0) true (linePieces (lineAddrs (fFold.getG 6) 2)) = .ok ks) ∧
      (∃ kt, sFold.kindAll (sFold.ctx 0) true (linePieces (lineAddrs (fFold.getG 10) (2 * 2))) = .ok kt) ∧
      ∃ ps s1, sFold.placeTwo 0 0 true [(0x100040, .line 0x4001 0), (0x100080, .line 0x4002 0)] [(0x101000, .line 0x4040 0)] = (.ok ps, s1)) :=
  ⟨⟨open_of rfl (by decide +kernel), reaches_of (by decide +kernel), by decide +kernel, by decide +kernel,
      Option.isSome_iff_exists.1 (by decide +kernel), Option.isSome_iff_exists.1 (by decide +kernel)⟩,
    by decide +kernel, by decide +kernel, by decide +kernel, by decide +kernel, by decide +kernel, ok_of _ (by decide +kernel),
    ok_of _ (by decide +kernel), placed_of _ (by decide +kernel)⟩

def opening : ReqKind := .fopen 0 [0x4001] [none] [0x5000, 0x5001] [none, none] 0x140000 2 .add .i32 .rn false
def object : FoldObj :=
  { ctx := 0, home := 0, keys := [0x4001], pages := [none], stage := [0x5000, 0x5001], stagePages := [none, none], stageAddr := 0x140000, n := 2, op := .add, f := .i32, r := .rn,
    ident := false, present := [], broken := false, closing := false }
/-- The home has the target open; it has 64 other objects; it has room. -/
theorem witness_FoldObjectsOpen_home :
    ((asked opening (some (.g 5)) memA).core 0).reqs.find? (fun q => q.id == 7) = some (request opening (some (.g 5))) ∧
    (∃ o ∈ ({ memA with folds := [object] } : Memory).folds, o.keys.head? = some 0x4001) ∧
    (let m := { memA with folds := List.replicate 64 { object with keys := [0x4009] } }
     (¬ ∃ o ∈ m.folds, o.keys.head? = some 0x4001) ∧
      (if vaultKey0 ≤ 0x4001 then 16 else 64) ≤ (m.folds.filter (fun o => o.home == 0)).length) ∧
    (¬ ∃ o ∈ memA.folds, o.keys.head? = some 0x4001) ∧
      ¬ (if vaultKey0 ≤ 0x4001 then 16 else 64) ≤ (memA.folds.filter (fun o => o.home == 0)).length := by
  refine ⟨rfl, ⟨_, List.mem_cons_self, rfl⟩, ?_, ?_⟩ <;> decide +kernel

def part (k : Word) (l lines : Nat) : FoldPart := { obj := 0x100040, key := 0x4001, k, l, lines }
def contributes (p : FoldPart) : BLine := { lineA with fold := some p }
def sPart (p : FoldPart) (present : FMap (Option (Writer × CSeq))) : State :=
  { with_ ctxA { coreA with closed := [closed 5 [contributes p]] } fA with mem := { memA with folds := [{ object with present }] } }
def closing : ReqKind := .fclose (.fclose noGuard 5 6) 0x4001 0x100040 [(3, 9)]
def closes (o : List FoldObj) : State := asked closing (some (.g 5)) { memA with folds := o }
theorem run_of {r : FoldRun} (e : (match r with | .ok .. => true | _ => false) = true) : ∃ ls x s, r = .ok ls x s := by
  cases r <;> simp_all
theorem witness_FoldContributionsAndClose :
    (let s := sPart (part 1 0 1) []
     (∃ b, (s.core 0).line? 5 0 = some (b, contributes (part 1 0 1)) ∧ b.seq = 5) ∧ s.mem.foldAt 0x4001 0x100040 = some object ∧
      (1 : Word).toNat < object.n ∧ 1 = object.keys.length ∧ fget none object.present 1 = none ∧
      object.stage[1 * 1 + 0]? = some 0x5001 ∧ (s.mem.lineTags 0x5001).newer.st ≠ .pending ∧ s.mem.isBad 0x5001 = false ∧
      (s.core 0).readsBefore 3 0x5001 = false ∧ s.linksHome 0 0x4001 = true ∧ s.linksHome 0 0x5001 = true ∧
      (object.stagePages[1]?).join = none ∧ s.behind 0 ((closed 5 [contributes (part 1 0 1)]).place 0) = false) ∧
    (object.n ≤ (2 : Word).toNat ∧ 2 ≠ object.keys.length ∧ fget (none : Option (Writer × CSeq)) [(1, some (0, 5))] 1 ≠ none) ∧
    ((∀ b ∈ ((closes []).core 0).closed, b.fclose ≠ some 7 ∧ (b.uid < 7 → ∀ l ∈ b.lines, l.prog = .flight → l.dest ≠ .home 0x4001)) ∧
      ((closes []).core 0).reduceSet ((closes []).writer 0) [(3, 9)] = some [(3, 9)] ∧ (closes []).reqWaits 0 (request closing (some (.g 5))) = false) ∧
    (closes []).mem.foldAt 0x4001 0x100040 = none ∧
    (closes [{ object with broken := true }]).mem.foldAt 0x4001 0x100040 = some { object with broken := true } ∧
    ((closes [object]).mem.foldAt 0x4001 0x100040 = some object ∧ ∃ k, k < object.n ∧ (closes [object]).mem.foldPresent object [(3, 9)] k = false) ∧
    (let o := { object with present := [(0, some (0, 5)), (1, some (0, 5))] }
     let s := closes [o]
     (∀ k, k < 2 → s.mem.foldPresent o [(3, 9)] k = true) ∧ ∃ ls x s1, s.foldRun 0 1 0 o 0x100040 0 o.keys = .ok ls x s1) ∧
    ((List.replicate 16 0xFFFFFFFF).length = 512 / Fmt.i32.width ∧ ∀ x ∈ List.replicate 16 0xFFFFFFFF, x < 2 ^ Fmt.i32.width) := by
  refine ⟨⟨⟨_, rfl, rfl⟩, ?_⟩, ?_, ?_, ?_, ?_, ⟨?_, 0, ?_⟩, ⟨?_, run_of ?_⟩, ?_⟩ <;> decide +kernel

/-- A pending contribution that is present in an object, whose version is discarded; messages that nothing is before. -/
theorem witness_FoldContributionsAndClose_discard :
    (let m : Memory := { newTag memA 0 5 .pending with folds := [{ object with stage := [0x5000, 0x4001], present := [(1, some (0, 5))] }] }
     ∃ o, m.folds[0]? = some o ∧ o.stage[1]? = some 0x4001 ∧ mapWf none o.present = true ∧ (m.lineTags 0x4001).newer.st = .pending ∧
      fget none o.present 1 = some ((m.lineTags 0x4001).newer.writer, (m.lineTags 0x4001).newer.cseq)) ∧
    ((closes []).core 0).casOpen = none ∧ (closes []).behind 0 (request closing (some (.g 5))).place = false ∧
    (asked opening (some (.g 5)) memA).behind 0 (request opening (some (.g 5))).place = false ∧
    (asked opening (some (.g 5)) memA).linksHome 0 0x4001 = true := by
  refine ⟨⟨_, rfl, ?_⟩, ?_⟩ <;> decide +kernel

/-! ### Tasks, claims, barriers, watches, queues -/

theorem witness_StartsByATask :
    Open sA fA [] noGuard ∧ (∃ m, (sA.ctx 0).templates[(0 : BitVec 12).toNat]? = some m ∧ (sA.ctx 0).placeCores m ≠ []) ∧
    (∃ m, (sA.ctx 0).templates[(1 : BitVec 12).toNat]? = some m ∧ (sA.ctx 0).placeCores m ≠ [] ∧ m.place = 0) ∧
    (∃ m, (sA.ctx 0).templates[(3 : BitVec 12).toNat]? = some m ∧ (sA.ctx 0).placeCores m = []) ∧
    ((3 : BitVec 12).toNat < 255 ∧ ((sA.ctx 0).group 3).kind = 1 ∧
      ∀ t ∈ (List.range (sA.ctx 0).templates.length).filter
        (fun t => (((sA.ctx 0).templates[t]?).map (fun m => m.groups.contains 3)).getD false), (sA.ctx 0).startable t = true) ∧
    255 ≤ (255 : BitVec 12).toNat ∧ ((sA.ctx 0).group 2).kind ≠ 1 := by
  refine ⟨open_sA, ⟨_, rfl, ?_⟩, ⟨_, rfl, ?_, rfl⟩, ⟨_, rfl, ?_⟩, ?_⟩ <;> decide +kernel

/-- A view of nine writers of another package, with the claims that make its set count. -/
def fMany : Frame := { fV with view := (List.range 9).map fun k => ⟨BitVec.ofNat 16 (2048 + k), some 5, none⟩ }
theorem witness_TasksEnd :
    (Open (with_ ctxA coreA fMany) fMany [] noGuard ∧ (with_ ctxA coreA fMany).haltSet 0 fMany = none) ∧
    Open sA fA [] noGuard ∧ Open sV fV [] noGuard ∧ (∃ set, sA.haltSet 0 fA = some set) ∧ (∃ set, sV.haltSet 0 fV = some set) ∧
    (fA.getG 8).toNat < 4096 ∧ (fA.getG 8).toNat < (sA.ctx 0).templates.length :=
  ⟨⟨open_of rfl (by decide +kernel), by decide +kernel⟩, open_sA, open_sV, Option.isSome_iff_exists.1 (by decide +kernel),
    Option.isSome_iff_exists.1 (by decide +kernel), by decide +kernel, by decide +kernel⟩

def fHorizon : Frame := { fA with horizon := true }
def fHalting : Frame := { fMany with halting := true }
def closedMany : State :=
  let s := (with_ ctxA coreA fMany).closeTop 0 .system
  s.setCore 0 ((s.core 0).onFrame fMany.uid (fun g => { g with halting := true }))
/-- Tasks before and past the horizon, with fault records free and used; an end that waits, at first and again; a compare-and-swap. -/
theorem witness_TasksEnd_aborts :
    (((with_ ctxA coreA fHorizon).core 0).frames = fHorizon :: [] ∧ fHorizon.window = .resident ∧ fHorizon.horizon = true) ∧
    ((sA.core 0).frames = fA :: [] ∧ fA.window = .resident ∧ fA.horizon = false ∧ (sA.ctx 0).state = 2 ∧ fget none (sA.ctx 0).frec 0 = none) ∧
    (let x := { ctxA with frec := (List.range 8).foldl (fun m k => fset none m k (some ⟨k + 9, 1⟩)) [] }
     ((with_ x coreA fA).ctx 0).state = 2 ∧ ∀ r, r < 8 → fget none ((with_ x coreA fA).ctx 0).frec r ≠ none) ∧ 2 ≠ fA.uid ∧
    (((with_ ctxA coreA fMany).core 0).casOpen = none ∧ fMany.halting = false ∧ closedMany.haltSet 0 fMany = none) ∧
    (Open (with_ ctxA coreA fHalting) fHalting [] noGuard ∧ fHalting.halting = true ∧ (with_ ctxA coreA fHalting).haltSet 0 fHalting = none) ∧
    (let f := { fA with halting := true }
     Open (with_ ctxA coreA f) f [] noGuard ∧ ((with_ ctxA coreA f).core 0).casOpen = none ∧ ∃ set, (with_ ctxA coreA f).haltSet 0 f = some set) ∧
    (Open (sCas fA) fA [] noGuard ∧ ((sCas fA).core 0).casOpen ≠ none) :=
  ⟨⟨rfl, rfl, rfl⟩, ⟨rfl, rfl, rfl, by decide +kernel, by decide +kernel⟩, ⟨by decide +kernel, by decide +kernel⟩, by decide,
    ⟨rfl, rfl, by decide +kernel⟩, ⟨open_of rfl (by decide +kernel), rfl, by decide +kernel⟩,
    ⟨open_of rfl (by decide +kernel), rfl, Option.isSome_iff_exists.1 (by decide +kernel)⟩, open_of rfl (by decide +kernel), by decide +kernel⟩

/-- Guard 3 is unused; guard 4 has ceiling 1, below the task's 3; guard 1 has ceiling 1 too; guard 5 ceiling 3; eight claims. -/
def ctxClaim : Ctx := { ctxA with guards := fset Guard.unused ctxA.guards 5 ⟨3, 1, 0, 0, 0⟩ }
def fClaim : Frame := { fA with claims := [6, 5] }
def fEight : Frame := { fA with claims := [6, 7, 8, 9, 10, 11, 12, 13] }
def sClaim (f : Frame) : State := with_ ctxClaim coreA f
theorem witness_ClaimsNest :
    (Open (sClaim fA) fA [] noGuard ∧ (ctxClaim.guard 3).kind = 0 ∧ ((ctxClaim.guard 4).kind ≠ 0 ∧ (ctxClaim.guard 4).ceil < 3) ∧
      ((ctxClaim.guard 5).kind ≠ 0 ∧ 3 ≤ (ctxClaim.guard 5).ceil ∧ 5 ∉ fA.claims ∧ fA.claims.length < 8) ∧
      (∃ v, coreA.acquire (sA.writer 0) fA.view (fget [] coreA.guards 5) = some v) ∧ fA.claims.getLast? ≠ some 5) ∧
    (Open (sClaim fClaim) fClaim [] noGuard ∧ 5 ∈ fClaim.claims ∧ fClaim.claims = [6] ++ [5] ∧
      ∃ set, coreA.reduceSet (sA.writer 0) (coreA.includedSet (sA.writer 0) fClaim.view) = some set) ∧
    (Open (sClaim fEight) fEight [] noGuard ∧ fEight.claims.length = 8) :=
  ⟨⟨open_of rfl (by decide +kernel), by decide +kernel, by decide +kernel, by decide +kernel,
      Option.isSome_iff_exists.1 (by decide +kernel), by decide⟩,
    ⟨open_of rfl (by decide +kernel), by decide, rfl, Option.isSome_iff_exists.1 (by decide +kernel)⟩, open_of rfl (by decide +kernel),
    by decide⟩

/-- Every clause of `apply` at a boundary: the last arrival, one too many, the last early place, one phase on (also from phase 15). -/
theorem witness_Barriers :
    (let f := { fA with g := fset 0 fA.g 10 0x100000400 }
     Open (with_ ctxA coreA f) f [] noGuard ∧ (f.getG 10).toNat < 2 ^ 42 ∧ ctxA.barrierAt ((f.getG 10).toNat % 2 ^ 32) = true ∧
      ctxA.cores[(f.getG 10).toNat / 2 ^ 32]? = some 1) ∧
    (Open sA fA [] noGuard ∧ ctxA.barrierAt (fA.getA 3).toNat = true ∧ (1 : BitVec 16) ≠ 0 ∧ (fA.getG 2).toNat < 65536 ∧
      ((ctxA.group 3).kind = 1 ∧ ∀ t ∈ ctxA.groupMembers 3, ctxA.startable t = true) ∧ coreA.rangeWaits [] [((fA.getA 3).toNat, 16)] = false) ∧
    (let o : Barrier := { count := 3, early := 1, target := 5, done := 65535, phase := 15, dpmask := 0, succ := 255, err := 0, errph := 0 }
     o.err = 0 ∧ o.phase < 16 ∧ o.early < o.target ∧ { o with early := 5 }.early = o.target ∧ 2 < o.count ∧ 3 = o.count ∧ o.count < 4 ∧ 0 = (o.phase + 1) % 16 ∧
      o.early + 4 ≤ o.target ∧ o.target < o.early + 5 ∧ 1 ≠ o.phase ∧ 1 ≠ (o.phase + 1) % 16) := by
  refine ⟨⟨open_of rfl ?_, ?_⟩, ⟨open_sA, ?_⟩, ?_⟩ <;> decide +kernel

/-- Queue 2 holds two elements, queue 3 none. -/
def coreQ : Core := { coreA with queues := fset Queue.empty [] 2 { elems := [⟨77, [(3, 9)]⟩, ⟨78, []⟩], n := 2, t := 0, r := 1, m := 5 } }
def sQ : State := with_ ctxA coreQ { fA with g := fset 0 (fset 0 (fset 0 fA.g 10 32) 11 33) 12 (1 + 64 * 3) }
def fQ : Frame := { fA with g := fset 0 (fset 0 (fset 0 fA.g 10 32) 11 33) 12 (1 + 64 * 3) }
theorem witness_WatchesAndQueues :
    Open sQ fQ [] noGuard ∧
    (∃ m, ctxA.templates[(0 : BitVec 12).toNat]? = some m ∧ ctxA.placeCores m ≠ []) ∧ coreQ.watches.length < 16 ∧
    fQ.padCheck ctxA (fQ.getA 3).toNat 8 = .ok () ∧ fQ.padCheck ctxA (fQ.getA 3).toNat 4 = .ok () ∧
    ((fQ.getG 8).toNat < 1024 ∧ ctxA.cores[(fQ.getG 8).toNat]? = some 1) ∧ (coreQ.queue 3).elems = [] ∧
    ((coreQ.queue 2).elems = ⟨77, [(3, 9)]⟩ :: [⟨78, []⟩] ∧ ∃ v, coreQ.acquire (sQ.writer 0) fQ.view [(3, 9)] = some v) ∧
    ((fQ.getG 10).toNat % 64 ≤ 32 ∧ (fQ.getG 10).toNat / 64 < 4096 ∧ ctxA.startable ((fQ.getG 10).toNat / 64) = true) ∧
    32 < (fQ.getG 11).toNat % 64 ∧ 4096 ≤ (fQ.getG 7).toNat / 64 ∧ (fQ.getG 12).toNat % 64 ≠ 0 ∧
    ctxA.startable ((fQ.getG 12).toNat / 64) = false := by
  refine ⟨open_of rfl ?_, ⟨_, rfl, ?_⟩, ?_, ?_, ?_, ?_, rfl, ⟨rfl, Option.isSome_iff_exists.1 ?_⟩, ?_⟩ <;> decide +kernel

def barrierA : Barrier := { count := 3, early := 1, target := 5, done := 65535, phase := 1, dpmask := 0, succ := 255, err := 0, errph := 0 }
def arrivalA : Arrival := { src := 4, ctx := 0, addr := 0x400, phase := 1, n := 2, set := [(3, 9)], id := 5 }
def coreAr : Core :=
  { coreQ with arrivals := [arrivalA, arrivalA, { arrivalA with src := 9 }], pad := fsetAll 0 [] 0x400 barrierA.bytes, pushes := [⟨3, 0, 1, 4, []⟩, ⟨3, 0, 2, 99, [(7, 7)]⟩, ⟨3, 0, 2, 98, []⟩] }
theorem witness_ArrivalsAndPushesAreApplied :
    let c := (with_ ctxA coreAr fA).core 0
    (c.arrivals[0]? = some arrivalA ∧ c.arrivals[2]? = some { arrivalA with src := 9 } ∧ (∀ x ∈ c.arrivals.take 2, x.src ≠ 9) ∧
      ∃ x ∈ c.arrivals.take 1, x.src = arrivalA.src) ∧ c.watches = [] ∧ Fabric.reset.links (dieOf 4) (dieOf 0) = true ∧
    (let o := Barrier.parse (leNat (c.padRead arrivalA.addr 16))
     o.err = 0 ∧ arrivalA.phase = o.phase ∧ arrivalA.n < o.count ∧ o.early < o.target) ∧
    (∃ cur, c.reduceSet 0 (mergeSets (fget { cur := [], next := [] } c.merges 0x400).cur arrivalA.set) = some cur) ∧
    (∃ next, c.reduceSet 0 (fget { cur := [], next := [] } c.merges 0x400).next = some next) ∧
    (c.pushes[1]? = some ⟨3, 0, 2, 99, [(7, 7)]⟩ ∧ (∀ x ∈ c.pushes.take 1, ¬(x.src = 3 ∧ x.q = 2)) ∧
      ∃ x ∈ c.pushes.take 2, x.src = 3 ∧ x.q = 2) ∧ (c.queue 2).elems.length < 32 ∧
    ((with_ ctxA coreAr fA).ctx arrivalA.ctx).state = 2 ∧ ((with_ { ctxA with state := 3 } coreAr fA).ctx arrivalA.ctx).state ≠ 2 := by
  refine ⟨⟨rfl, rfl, by decide, _, List.mem_cons_self, rfl⟩, rfl, ?_, ?_, Option.isSome_iff_exists.1 ?_, Option.isSome_iff_exists.1 ?_, ?_⟩ <;> decide +kernel

/-! ### Remote instructions, floating point, slow units -/

def theCont : Cont := ⟨0x1040, fset 0 (fset 0 [] 5 9) 7 11, 0x3, false, 2, true, 0, [3], []⟩
def thePeer : PeerRef := ⟨1, 3, 5, false, 77⟩
def forward (reply : Option Word) : Fwd :=
  ⟨31, { theTask with tmpl := 1, set := [(7, 3)] }, theCont, ⟨5, .w, true, 0x100040, 1⟩, thePeer, [3], false, reply⟩

/-- Peer 1 is valid, peer 5 is not. -/
def ctxR (pen : Bool) : Ctx :=
  { ctxA with
    peerA := fset 0 (fset 0 [] 1 0x8000000500000003) 2 0x8000000500000000, peerB := fset 0 [] 1 77, pair := { Pair.reset with pen } }
theorem witness_RemoteInstructions :
    let s := with_ (ctxR false) coreA fA
    (Open s fA [] noGuard ∧ fA.claims = [] ∧ fA.long = false ∧ fA.priv = false ∧ (s.core 0).fwd.length < 16 ∧ (s.ctx 0).pair.pen = false ∧
      (∀ j, j < 32 → (0x80000016 : BitVec 32).getLsbD j = true → j < fA.lim ∧ Reg.g (BitVec.ofNat 5 j) ∉ fA.await) ∧
      ((ctxR false).peer 5 = none) ∧ (ctxR true).pair.pen = true ∧ Open (with_ (ctxR true) coreA fA) fA [] noGuard) ∧
    (∃ p, (s.ctx 0).peer 1 = some p ∧
      (∃ bd, s.putLine fA.bundle (peerLine p (fA.getG 6) (bytesOf 8 (fA.getG 2)) none) = some bd) ∧
      fA.rangeCheck (s.ctx 0) (fA.ptr (.inc 4)) (64 * 16) 64 = .ok () ∧ (s.core 0).rangeWaits [(fA.ptr (.inc 4), 64 * 16)] [] = false ∧
      (∃ bd, s.putLines fA.bundle ((List.range 16).map (fun l =>
        { dest := .peer p, addr := fA.getG 6, bytes := lineBytes 0 ((s.core 0).padRead (fA.ptr (.inc 4) + 64 * l) 64), std := none,
          fold := some { obj := fA.getG 6, key := 0, k := fA.getG 2, l, lines := 16 }, page := none, prog := .flight, image := [] })) = some bd) ∧
      s.fabric.way (s.msgTo 0 0 3 fA.task.id p (.atomReq 0 false s.uid 1 (fA.getG 6) .w none 5)) = .fibre ∧ s.fabric.lwstate = 0) ∧
    (∃ p, (s.ctx 0).peer 2 = some p ∧ s.fabric.way (s.msgTo 0 0 3 fA.task.id p (.atomReq 0 false s.uid 1 (fA.getG 6) .w none 5)) = .here) := by
  refine ⟨⟨open_of rfl ?_, rfl, rfl, rfl, ?_, rfl, ?_, ?_, rfl, open_of rfl ?_⟩, ⟨_, rfl, Option.isSome_iff_exists.1 ?_, ?_, ?_,
    Option.isSome_iff_exists.1 ?_, ?_⟩, _, rfl, ?_⟩ <;> decide +kernel

/-- A bundle of two lines is open; a compare-and-swap is under way; the link is dark; the context is paired, or the entry is not valid. -/
theorem witness_RemoteInstructions_bundle :
    (let s := with_ (ctxR false) coreA fClose
     Open s fClose [] noGuard ∧ (s.core 0).casOpen = none ∧ (s.ctx 0).peer 1 ≠ none ∧ fClose.bundle.lines ≠ [] ∧
      (∀ l ∈ fClose.bundle.lines, l.prog = .flight) ∧ s.fabric.lwstate ≠ 2 ∧ s.fabric.lwstate ≠ 3) ∧
    (let s := with_ (ctxR false) { coreA with reqs := [request (.atom 0x4001 8 8 (.cas 1 2) 0x100040 none 1) none] } fA
     Open s fA [] noGuard ∧ (s.core 0).casOpen ≠ none ∧ (s.ctx 0).pair.pen = false ∧ (s.ctx 0).peer 1 ≠ none) ∧
    (let s := with_ (ctxR false) coreA fA
     Open s fA [] noGuard ∧ (s.ctx 0).pair.pen = false ∧ (s.ctx 0).peer 5 = none ∧ (s.core 0).fwd.length < 16) ∧
    (let s := with_ (ctxR true) coreA fA
     Open s fA [] noGuard ∧ (s.ctx 0).pair.pen = true) ∧
    (let s := with_ (ctxR false) { coreA with fwd := List.replicate 16 (forward none) } fA
     Open s fA [] noGuard ∧ 16 ≤ (s.core 0).fwd.length) := by
  refine ⟨⟨open_of rfl ?_, ?_⟩, ⟨open_of rfl ?_, ?_⟩, ⟨open_of rfl ?_, ?_⟩, ⟨open_of rfl ?_, ?_⟩, open_of rfl ?_, ?_⟩ <;> decide +kernel

theorem witness_FloatResults : Open sA fA [] noGuard ∧ Fmt.f32 ∈ [Fmt.f32, .bf16, .f16, .e4m3, .e5m2] := ⟨open_sA, by decide⟩
/-- The smallest subnormal, a normal, the largest finite value, zero. -/
theorem witness_RepresentableValuesRoundToThemselves :
    unpack .f16 1 = .fin false 1 (-24) ∧ (∃ m e, unpack .f32 0x3F800001 = .fin false m e) ∧ (∃ m e, unpack .bf16 0xFF7F = .fin true m e) ∧
    ∃ m e, unpack .e4m3 0 = .fin false m e := by
  refine ⟨?_, ⟨_, _, rfl⟩, ⟨_, _, rfl⟩, ⟨_, _, rfl⟩⟩; decide +kernel

def fSlow : Frame := { fA with await := [.g 9, .g 10] }
def coreSlow : Core := { coreA with div := some ⟨1, 9, 77, 0⟩, fdiv := some ⟨1, 10, 78, 0⟩ }
theorem witness_SlowUnitsDeliver :
    (Open sA fA [] noGuard ∧ (sA.core 0).fdiv = none) ∧ (Open (with_ ctxA coreSlow fA) fA [] noGuard ∧ coreSlow.fdiv ≠ none) ∧
    (let c := (with_ ctxA coreSlow fSlow).core 0
     c.frame? 1 = some fSlow ∧ c.div = some ⟨1, 9, 77, 0⟩ ∧ c.fdiv = some ⟨1, 10, 78, 0⟩) :=
  ⟨⟨open_sA, rfl⟩, ⟨open_of rfl (by decide +kernel), by decide⟩, rfl, rfl, rfl⟩

/-! ### Vectors and engines -/

theorem witness_VectorElementwise :
    (Open sV fV [] noGuard ∧ fV.long = false ∧ laneGuard fV.lane ∈ fV.claims) ∧ (Open sW fW [] noGuard ∧ fW.long = true) :=
  ⟨⟨open_sV, rfl, by decide⟩, open_sW, rfl⟩
theorem witness_VectorAcrossElements :
    (Open sV fV [] noGuard ∧ fV.long = false ∧ laneGuard fV.lane ∈ fV.claims ∧ (31#8).toNat < 256 / 8 ∧ 256 / 8 ≤ (32#8).toNat) ∧
    (Open sW fW [] noGuard ∧ fW.long = true ∧ (255#8).toNat < 2048 / 8 ∧ 2048 / 16 ≤ (128#8).toNat) :=
  ⟨⟨open_sV, rfl, by decide, by decide, by decide⟩, open_sW, rfl, by decide, by decide⟩

/-- A core whose frame below is in the long mode. -/
def sBelow : State := let s := with_ ctxA coreA fA; s.setCore 0 { s.core 0 with frames := [fA, { fW with uid := 2 }] }
def longOp : LongOp := { id := 8, frame := 1, prio := 3, gdst := some (5, 7), wdst := none, exc := 0, lock := [] }
def fLine (w : Bool) : Frame := { (if w then fW else fV) with a := fset 0 fA.a 4 0x800, g := fset 0 fA.g 10 0x100020 }
def sLine (w : Bool) : State := with_ ctxA coreA (fLine w)
theorem witness_VectorModesAndMemory :
    (Open sW fW [] noGuard ∧ fW.long = true) ∧
    (Open sBelow fA [{ fW with uid := 2 }] noGuard ∧ fA.long = false ∧ ∃ g ∈ (sBelow.core 0).frames, g.long = true) ∧
    (Open sA fA [] noGuard ∧ (∀ g ∈ (sA.core 0).frames, g.long = false) ∧ (∀ o ∈ (sA.core 0).long, o.lock = []) ∧
      ∀ y, Reg.w y ∉ fA.await) ∧
    (∀ w, Open (sLine w) (fLine w) [] noGuard ∧ (fLine w).long = w ∧ (w = false → laneGuard (fLine w).lane ∈ (fLine w).claims) ∧
      (fLine w).rangeCheck ctxA ((fLine w).ptr (.inc 4)) (if w then 256 else 32) (if w then 64 else 32) = .ok () ∧
      ((sLine w).core 0).rangeWaits [(0x800, 256)] [(0x800, 256)] = false) ∧
    (((fLine false).getG 10).toNat % 32 = 0 ∧ ((fLine true).getG 7).toNat % 256 = 0 ∧
      (∀ wr, ∃ ks, (sLine false).kindAll ctxA wr (piecesOf ((fLine false).getG 10) 32) = .ok ks) ∧
      (∀ wr, ∃ ks, (sLine true).kindAll ctxA wr (piecesOf ((fLine true).getG 7) 256) = .ok ks) ∧
      ∀ wr, ∃ ps s1, (sLine true).placeAll 0 0 wr [(0x100000, .line 0x4000 0), (0x100040, .line 0x4001 0)] = (.ok ps, s1)) ∧
    (let s := with_ ctxA { coreA with long := [longOp, { longOp with gdst := none, wdst := some (2, 9) }] } fA
     (s.core 0).long = longOp :: [{ longOp with gdst := none, wdst := some (2, 9) }] ∧ (s.core 0).frame? 1 = some fA ∧
      longOp.gdst = some (5, 7) ∧ longOp.wdst = none ∧ s.longWaits 0 longOp = false ∧
      (s.setCore 1 { Core.reset with long := [{ longOp with prio := 4 }] }).longWaits 0 longOp = true) := by
  refine ⟨⟨open_sW, rfl⟩, ⟨open_of rfl ?_, rfl, ?_⟩, ⟨open_sA, ?_, ?_, ?_⟩, fun w => ⟨open_of rfl ?_, ?_⟩,
    ⟨?_, ?_, fun wr => ok_of _ ?_, fun wr => ok_of _ ?_, fun wr => placed_of _ ?_⟩, rfl, rfl, rfl, rfl, ?_, ?_⟩
  all_goals first | (revert w; decide +kernel) | (revert wr; decide +kernel) | decide +kernel

/-- A frame below that owns the long registers; none that does, with lock bits set; a long instruction that raises two classes. -/
theorem witness_VectorModesAndMemory_owner :
    (let g := { fW with uid := 2, owner := true }
     let s := (with_ ctxA coreA fA).setCore 0 { (with_ ctxA coreA fA).core 0 with frames := [fA, g] }
     Open s fA [g] noGuard ∧ fA.long = false ∧ ∃ g' ∈ [g], g'.owner = true) ∧
    (Open sA fA [] noGuard ∧ fA.long = false ∧ (∀ g ∈ ([] : List Frame), g.owner = false) ∧ (∀ o ∈ (sA.core 0).long, o.lock = []) ∧
      ∀ y, Reg.w y ∉ fA.await) ∧
    (let s := with_ ctxA { coreA with long := [{ longOp with lock := [3] }] } fA
     AtInstr s fA [] ∧ ¬ ∀ o ∈ (s.core 0).long, o.lock = []) ∧
    (let o := { longOp with exc := 5 }
     let s := with_ ctxA { coreA with eswin := 7, escnt := fset 0 [] 2 0xFFFFFFFF, long := [o] } fA
     (s.core 0).long = o :: [] ∧ s.longWaits 0 o = false ∧ (s.core 0).eswin ≠ 0 ∧ o.exc.getLsbD 0 = true ∧
      fget 0 (s.core 0).escnt 0 ≠ 0xFFFFFFFF ∧ fget 0 (s.core 0).escnt 2 = 0xFFFFFFFF) := by
  refine ⟨⟨open_of rfl ?_, ?_⟩, ⟨open_sA, ?_, ?_, ?_, ?_⟩, ⟨at_of rfl ?_, ?_⟩, ?_⟩ <;> decide +kernel

def ops : List (ChainOp × ChainSrc) := [(.add, .s1), (.mul, .c0), (.max, .c1), (.neg, .s1)]
def cmd : Cmd := { id := 9, frame := 1, task := theTask, prio := 3, ovf := 0, view := [], set := [], pages := [] }
def chain : ChainCmd :=
  { cmd, dst := .f32, src := .f32, rnd := .rn, pd := 0x400, ps0 := 64, ps1 := 128, n := 16, c0 := 0, c1 := 0, ops }
def fChain : Frame := { fA with g := fset 0 fA.g 10 16 }
def sChain : State := with_ ctxA (coreA.setLane 0 { Lane.reset with cq := [chain, chain] }) fChain
theorem succ_of {x : Succ} (e : (match x with | .some .. => true | _ => false) = true) : ∃ st g, x = .some st g := by
  cases x <;> simp_all
theorem bad_of {x : Succ} (e : (match x with | .bad _ => true | _ => false) = true) : ∃ k, x = .bad k := by cases x <;> simp_all
theorem witness_Chains :
    (let s := with_ ctxA coreA fChain
     Open s fChain [] noGuard ∧ (fChain.getG 10).toNat = 16 ∧ ctxA.successor fChain 0 0x23 = .none ∧
      (∃ st g, ctxA.successor fChain 8 0x23 = .some st g) ∧ fChain.rangeCheck ctxA (fChain.ptr (.inc 3)) 64 4 = .ok () ∧
      fChain.rangeCheck ctxA (fChain.ptr (.plain 1)) 64 4 = .ok () ∧ fChain.rangeCheck ctxA (fChain.ptr (.inc 2)) 64 4 = .ok () ∧
      ((s.core 0).lane 0).cq.length < 4 ∧ (s.core 0).rangeWaits [(64, 64), (128, 64)] [(0x400, 64)] = false) ∧
    (((sChain.core 0).lane 0).cq = chain :: [chain] ∧ (sChain.ctx 0).tearing = false ∧ (sChain.core 0).watches = [] ∧
      ∀ p ∈ [chain.ps0, chain.ps1], p + 4 * 16 ≤ chain.pd ∨ chain.pd + 4 * 16 ≤ p) ∧
    (let s := with_ ctxA (coreA.setLane 0 { Lane.reset with cq := List.replicate 4 chain }) fChain
     Open s fChain [] noGuard ∧ 4 ≤ ((s.core 0).lane 0).cq.length) := by
  refine ⟨⟨open_of rfl ?_, ?_, rfl, succ_of ?_, ?_⟩, ⟨rfl, rfl, rfl, ?_⟩, open_of rfl ?_, ?_⟩ <;> decide +kernel

/-- A tile task of grid 1, whose core holds no other tile, with the lane claimed. -/
def fM : Frame :=
  { fV with
    a := fset 0 (fset 0 (fset 0 [] 1 64) 2 16384) 3 0x8000, g := fset 0 fV.g 9 0, geom := ctxA.geomOf 1 0,
    task := { theTask with geom := ctxA.geomOf 1 0 } }
def sM : State := with_ ctxA coreA fM
def meeting (sent got : Bool) (k : Nat) : Weave :=
  { grid := 1, count := 0, buf := 16384, tileTo := k, slotTo := k, tileFrom := k, slotFrom := k, started := true, tileSent := sent,
    slotSent := sent, tileGot := got, slotGot := got, exc := 0 }
def weave (w : Weave) : MatCmd := ⟨cmd, .weave .bf16 (some true) 0 w⟩
/-- Core 0 weaves with core 1, whose partner stands in lane 2. -/
def sWeave (q : MatCmd) (partner : Bool) : State :=
  let s := with_ ctxA (coreA.setLane 0 { Lane.reset with mq := [q] }) fV
  if partner then s.setCore 1 (Core.reset.setLane 2 { Lane.reset with mq := [weave (meeting false false 0)] }) else s
theorem aligned_of {l : List Word} (e : l.all (fun w => w.toNat % 64 == 0) = true) : ∀ w ∈ l, w.toNat % 64 = 0 := by simpa using e
theorem witness_MatrixIssue :
    Open sM fM [] noGuard ∧ laneGuard fM.lane ∈ fM.claims ∧ fM.long = false ∧
    (let l := (sM.core 0).lane 0
     l.full = false ∧ (sM.core 0).rangeWaits [(64, imageBytes .w4 2), (0x8000, tileBytes .bf16)] [(16384, tileBytes .bf16)] = false ∧
      (sM.core 0).rangeWaits [] [] = false ∧
      (∀ n ∈ [imageBytes .w4 2, 512, 128], fM.bankCheck ctxA (fM.ptr (.plain 1)) n 64 0x19 0x24 = .ok ()) ∧
      fM.bankCheck ctxA (fM.ptr (.inc 3)) (tileBytes .bf16) 64 0x19 0x24 = .ok () ∧
      (126#7).toNat + ((1#7).toNat + 1) ≤ 128 ∧ 128 < (126#7).toNat + ((2#7).toNat + 1) ∧ (31#5).toNat + ((0#5).toNat + 1) ≤ 32) ∧
    ((126#7).toNat + ((1#7).toNat + 1) ≤ 128 ∧ (fM.getG 7).toNat % 64 = 0 ∧
      (∃ ks, sM.kindAll ctxA false ([fM.getG 7].flatMap (fun a => piecesOf a (imageBytes .w4 2))) = .ok ks) ∧
      (∃ ps s1, sM.placeSorted 0 0 false [(0x100000, .line 0x4000 0), (0x100040, .line 0x4001 0)] = (.ok ps, s1)) ∧
      ctxA.tileSuccessor fM 0 0 = .none ∧ (∃ st g, ctxA.tileSuccessor fM 0 8 = .some st g) ∧
      ∀ w ∈ (List.range 2).map (fun j => fM.getG 7 + (0x8000 : BitVec 32).signExtend 64 * BitVec.ofNat 64 j), w.toNat % 64 = 0) ∧
    (fM.bankCheck ctxA 0x8000 (tileBytes .bf16) 64 0x19 0x24 = .ok () ∧ fM.bankCheck ctxA 16384 (tileBytes .e4m3) 64 0x19 0x24 = .ok () ∧
      16384 + tileBytes .e4m3 ≤ 0x8000 ∧ fM.geom.getLsbD 49 = true ∧ fM.geom.getLsbD 48 = true ∧
      (∃ w, ctxA.partners fM.geom false = some w) ∧ ∃ w, ctxA.partners fM.geom true = some w) ∧
    (∀ w ∈ [meeting false false 1, meeting true true 1],
      (((sWeave (weave w) true).core 0).lane 0).weave? = some (weave w, .bf16, 0, w)) ∧
    (let s := sWeave (weave (meeting false false 1)) true
     (s.core 1).weaveLane 1 0 = some 2 ∧ (s.core 1).watches = [] ∧ s.fabric.links (dieOf 0) (dieOf 1) = true ∧
      ((s.core 1).lane 2).weave? = some (weave (meeting false false 0), .bf16, 0, meeting false false 0)) ∧
    ((sWeave (weave (meeting false false 1)) false).core 1).weaveLane 1 0 = none ∧
    (let s := with_ ctxA (coreA.setLane 0 { Lane.reset with mq := List.replicate 4 ⟨cmd, .swap⟩ }) fM
     Open s fM [] noGuard ∧ ((s.core 0).lane fM.lane).full = true) := by
  refine ⟨open_of rfl ?_, ?_, rfl, ?_, ⟨?_, ?_, ok_of _ ?_, placed_of _ ?_, rfl, succ_of ?_,
      aligned_of ?_⟩, ⟨?_, ?_, ?_, ?_, ?_,
    Option.isSome_iff_exists.1 ?_, Option.isSome_iff_exists.1 ?_⟩, fun w _ => ?_, ?_, ?_, open_of rfl ?_, ?_⟩
  all_goals first | (revert w; decide +kernel) | decide +kernel

/-- Each matrix command at the head of lane 0's queue. -/
def sMat (op : MatOp) : State := with_ ctxA (coreA.setLane 0 { Lane.reset with mq := [⟨cmd, op⟩, ⟨cmd, .swap⟩] }) { fV with await := [.g 5, .v 2] }
theorem witness_MatrixCommandsRun :
    (∀ op : MatOp, (((sMat op).core 0).lane 0).mq = ⟨cmd, op⟩ :: [⟨cmd, .swap⟩] ∧ ((sMat op).ctx cmd.task.ctx).tearing = false ∧
      ((sMat op).core 0).watches = [] ∧ ((sMat op).core 0).frame? 1 = some { fV with await := [.g 5, .v 2] }) ∧ 15 < 16 ∧ (5#5) ≠ 0 :=
  ⟨fun _ => ⟨rfl, rfl, rfl, rfl⟩, by decide, by decide⟩

theorem bytes64_of {x : Line} (e : (match x with | .ok _ => true | _ => false) = true) : ∃ bs, x = .ok bs := by cases x <;> simp_all
/-- Images from memory; a weave that has not started, that waits, and that is done; two cores of nothing closed. -/
theorem witness_MatrixCommandsRun_images :
    (let s := { sMat (.mwlv .w4 [.line 0x4001] 3 1) with mem := memA }
     ∃ bs, s.engineLines 0 cmd [.line 0x4001] = .ok bs) ∧
    (let s := { sMat (.pass .bf16 .w4 true 64 [[.line 0x4001], [.line 0x4002]]) with mem := memA }
     ∃ bs, s.engineLines 0 cmd ([[Src.line 0x4001], [.line 0x4002]].flatMap fun i => i) = .ok bs) ∧
    ({ meeting false false 1 with started := false }.started = false ∧ (meeting true true 1).started = true ∧
      (meeting true true 1).tileSent = true ∧ (meeting false false 1).tileSent = false) ∧
    ((sMat .swap).core 0).fclosed = [] ∧ ((sMat .swap).core 0).watches = [] ∧
    (((sMat .swap).core 0).frame? 1 = some { fV with await := [.g 5, .v 2] }) :=
  ⟨bytes64_of (by decide +kernel), bytes64_of (by decide +kernel), by decide, rfl, rfl, rfl⟩

def cell64 : Cell := { s := true, clamp := false, bias := 0x801, col := 1, nbr := fset (0, 0) [] 0 (66, 0x7F) }
def arrayA : Sampler :=
  { Sampler.reset with owner := some 0, cells := fset Cell.zero (fset Cell.zero [] 64 cell64) 65 { cell64 with clamp := true } }
/-- Cell 64 in g6, the last cell in g7, beyond it in g8; a coupling word, the limits of a bias, a sweep of the last cell. -/
def fS : Frame :=
  { fA with await := [.g 5], g := regsOf [(1, 0xFFFFFFFFFFFFF800), (2, 0x7FF), (6, 64), (7, 65535), (8, 65536), (9, 0xFFFFFF), (10, 0x1000000),
      (11, 0xFFFFFFFF), (12, 0x100000000), (13, 0x1FFFF), (14, 1)] }
def sS (q : List SampOp) : State :=
  (with_ ctxA { coreA with sampq := q.map (fun o => ⟨cmd, o⟩) } fS).setDie 0 { Die.reset with samp := arrayA }
def fS' : Frame := { fS with await := [] }
def sS' : State := (with_ ctxA coreA fS').setDie 0 { Die.reset with samp := arrayA }
theorem witness_SamplingArray :
    Open sS' fS' [] noGuard ∧ ((sS'.die (0 / 136)).samp.owner = some fS'.task.ctx) ∧ (sA.die 0).samp.owner = none ∧
    (sS'.core 0).sampq.length < 4 ∧
    ((fS'.getG 7).toNat < 65536 ∧ 65536 ≤ (fS'.getG 8).toNat ∧ (fS'.getG 9).toNat < 2 ^ 24 ∧ 2 ^ 24 ≤ (fS'.getG 10).toNat ∧
      (fS'.getG 11).toNat < 2 ^ 32 ∧ 2 ^ 32 ≤ (fS'.getG 12).toNat ∧ -2048 ≤ (fS'.getG 1).toInt ∧ (fS'.getG 1).toInt ≤ 2047 ∧
      (fS'.getG 2).toInt ≤ 2047 ∧ (fS'.getG 6).toNat % 64 = 0 ∧ (fS'.getG 7).toNat % 64 ≠ 0 ∧
      (fS'.getG 7).toNat % 65536 + ((fS'.getG 7).toNat / 65536 + 1) ≤ 65536 ∧
      65536 < (fS'.getG 13).toNat % 65536 + ((fS'.getG 13).toNat / 65536 + 1)) ∧
    (ctxA.successor fS' 0 0x2F = .none ∧ ∃ st g, ctxA.successor fS' 14 0x2F = .some st g) ∧
    (∀ op ∈ [SampOp.couple 64 3 7 0x80, .bias 64 7, .clamp 64 false, .clampOff 65, .colour 64 5, .key 3 7 8, .sweep 64 3 4 2 1 [],
      .read 1 5 64], bestSamp ((sS [op]).sampHeads 0) = some (0, ⟨cmd, op⟩)) ∧
    ((sS []).ctx cmd.task.ctx).tearing = false ∧ ((sS []).core 0).frame? 1 = some fS ∧ ((sS []).core 0).fclosed = [] := by
  refine ⟨open_of rfl ?_, ?_, ?_, ?_, ?_, ⟨rfl, succ_of ?_⟩, fun op _ => ?_, rfl, rfl, rfl⟩
  all_goals first | (revert op; decide +kernel) | decide +kernel

/-- The array of another context; a full queue; limits of `SBIAS` and `SWRITE`; a successor that cannot start; an ending context. -/
theorem witness_SamplingArray_limits :
    (let s := sS'.setDie 0 { Die.reset with samp := { arrayA with owner := some 7 } }
     Open s fS' [] noGuard ∧ (s.die 0).samp.owner = some 7 ∧ 7 ≠ fS'.task.ctx) ∧
    (let c := { coreA with sampq := List.replicate 4 ⟨cmd, .key 1 2 3⟩ }
     Open (with_ ctxA c fS') fS' [] noGuard ∧ 4 ≤ ((with_ ctxA c fS').core 0).sampq.length) ∧
    (-2048 ≤ (fS'.getG 1).toInt ∧ (fS'.getG 2).toInt ≤ 2047 ∧ 2047 < (fS'.getG 6 <<< 6).toInt ∧ (fS'.getG 1 - 1).toInt < -2048) ∧
    (∃ k, ctxA.successor fS' 8 0x2F = .bad k) ∧
    (bestSamp ((sS [.write 64 0xF0]).sampHeads 0) = some (0, ⟨cmd, .write 64 0xF0⟩)) ∧
    (let s := (sS [.write 64 0xF0]).setCtx 0 { ctxA with state := 3, tearing := true }
     (s.ctx cmd.task.ctx).tearing = true ∧ bestSamp (s.sampHeads 0) = some (0, ⟨cmd, .write 64 0xF0⟩)) ∧
    ∀ m, ((sS [.write 64 0xF0]).core m).fclosed = [] := by
  refine ⟨⟨open_of rfl ?_, ?_⟩, ⟨open_of rfl ?_, ?_⟩, ?_, bad_of ?_, ?_, ?_, fun m => ?_⟩
  all_goals first | (show (fget Core.reset [(0, _)] m).fclosed = []; unfold fget; split <;> rfl) | decide +kernel

/-- A copy of 64 bytes from line 0x4001 at the head of the core's queue. -/
def copyA (kind : CpyKind) (word : Option (Nat × Word)) (sent : Bool) : CpyCmd :=
  { cmd, kind, pad := 64, n := 64, lines := [.line 0x4001], addrs := [(0x100040, none)], word, sent }
def sCopy (q : CpyCmd) : State := { with_ ctxA { coreA with copyq := [q] } fV with mem := memA }
def fCopy : Frame := { fA with g := fset 0 (fset 0 fA.g 10 64) 11 196608 }
theorem engine_of {x : Line} (e : (match x with | .ok bs => bs.length == 64 | _ => false) = true) : ∃ bs, x = .ok bs ∧ bs.length = 64 := by
  cases x <;> simp_all
theorem witness_Copies :
    (let s := with_ ctxA coreA fCopy
     Open s fCopy [] noGuard ∧ (ctxA.successor fCopy 0 0x2C = .none ∧ ∃ st g, ctxA.successor fCopy 8 0x2C = .some st g) ∧
      (0 < (fCopy.getG 10).toNat ∧ (fCopy.getG 10).toNat % 64 = 0 ∧ (fCopy.getG 11).toNat ≤ 196608 ∧ (fCopy.getG 11).toNat % 64 = 0) ∧
      fCopy.bankCheck ctxA (fCopy.ptr (.inc 1)) 64 64 0x2C 0x2C = .ok () ∧ fCopy.wordOk ctxA (some 3) 64 64 = true ∧
      (∀ wr, ∃ ks, s.copyKinds ctxA wr (fCopy.getG 6) (copyAddrs (fCopy.getG 6) 64 0 64) = .ok ks) ∧
      (∀ wr, ∃ ps s1, s.placeSorted 0 0 wr [(0x100040, .line 0x4001 0)] = (.ok ps, s1)) ∧ (s.core 0).copyq.length < 8 ∧
      (s.core 0).rangeWaits [(64, 64)] [(64, 64), (0x400, 8)] = false) ∧
    (∀ q : CpyCmd, ((sCopy q).core 0).copyq = q :: [] ∧ ((sCopy q).core 0).watches = [] ∧
      ((sCopy (copyA .s none false)).ctx cmd.task.ctx).tearing = false ∧ ∀ b ∈ ((sCopy q).core 0).closed, b.copy ≠ some cmd.id) ∧
    (∃ bs, (sCopy (copyA .s (some (128, 77)) false)).engineLines 0 cmd [.line 0x4001] = .ok bs ∧ bs.length = 64) ∧ 64 + 64 ≤ 128 ∧
    ((copyA .f none false).inWindow ctxA = false ∧ Fmt.i32.width = 32) ∧ (sCopy (copyA .s none false)).copyWaits 0 (copyA .s none false) = false ∧
    ((sCopy (copyA .s none false)).setCore 1 { Core.reset with copyq := [{ copyA .s none false with cmd := { cmd with prio := 4 } }] }).copyWaits 0
      (copyA .s none false) = true ∧
    (let s := with_ ctxA { coreA with copyq := List.replicate 8 (copyA .s none false) } fCopy
     Open s fCopy [] noGuard ∧ 8 ≤ (s.core 0).copyq.length) := by
  refine ⟨⟨open_of rfl ?_, ⟨rfl, succ_of ?_⟩, ?_, ?_, ?_, fun wr => ok_of _ ?_, fun wr => placed_of _ ?_, ?_, ?_⟩,
    fun q => ⟨rfl, rfl, rfl, ?_⟩, engine_of ?_, ?_, ?_, ?_, ?_, open_of rfl ?_, ?_⟩
  all_goals first | (revert wr; decide +kernel) | (intro b hb; exact absurd hb List.not_mem_nil) | decide +kernel

/-! ### Encoding, the step, control registers -/

theorem decoded_of {x : Except DecodeError (Instr × Nat)} {r : Instr × Nat}
    (e : (match x with | .ok y => decide (y = r) | .error _ => false) = true) : x = .ok r := by
  cases x <;> simp_all
theorem witness_DecodeEncodeAgree :
    (Instr.add passesN 3 1 2).wf = true ∧ (Instr.add passesN 3 1 2).hdr? ≠ none ∧ (Instr.cpyg noGuard (.plain 1) 2 3 4 5 ⟨false, 0⟩ 0x40 64).wf = true ∧
    decode ((le 8 0x10460025).map (BitVec.ofNat 8)) = .ok (.add ⟨0, false, 1⟩ 3 1 2, 8) := by
  refine ⟨?_, ?_, ?_, decoded_of ?_⟩ <;> decide +kernel

/-- Bytes of an ADD at the program counter of the task. -/
def memCode : Memory := { Memory.reset with newer := bytesAt [] 0x100008 (le 8 0x10460025) }
def crossA : Crossing := { cls := 1, cnt := 5, thr := 6, pos := 7, t0 := 8, t1 := 9 }
def coreEv (act : Nat) (pos : BitVec 32) : Core :=
  { coreA with
    eswin := 100, espos := pos, esthr := fset 0 (fset 0 [] 1 (BitVec.ofNat 35 (act * 2 ^ 32 + 9))) 2 0x7FFFFFFFF,
    escnt := fset 0 [] 3 8, crossed := [crossA, { crossA with cls := 2 }], trapDue := [{ crossA with cls := 3 }] }
def stepping (c : Core) (ms : List Move) : State :=
  { with_ ctxA c { fA with stall := 5 } with mem := memCode, agenda := ms, cur := if ms.isEmpty then 0 else 3 }
theorem fetched_of {x : Res × State} {l : Place} (e : (x.1 == .ok l) = true) : ∃ s, x = (.ok l, s) :=
  ⟨x.2, Prod.ext (by simpa using e) rfl⟩
theorem witness_StepRunsDecodedInstruction :
    ((stepping coreA [.dev (.divideComplete 0)]).agenda = .dev (.divideComplete 0) :: [] ∧ (Instr.divideComplete 0).hdr? = none ∧
      aliveInReset (.divideComplete 0) = false ∧ aliveInReset .resetBoot = true ∧ (stepping coreA []).mgmt.inReset = false) ∧
    ((stepping coreA []).agenda = [] ∧ (stepping coreA [.core 0]).agenda = .core 0 :: []) ∧
    (let c := (stepping (coreEv 1 5) []).core 0
     (∃ x ∈ c.crossed, x.cls = 1) ∧ ∀ x ∈ c.crossed, 1 ≤ x.cls) ∧
    (let c := (stepping { coreEv 1 100 with crossed := [] } []).core 0
     c.crossed = [] ∧ c.eswin ≠ 0 ∧ c.eswin.toNat ≤ c.espos.toNat) ∧
    (let c := (stepping { coreEv 1 99 with crossed := [] } []).core 0
     c.crossed = [] ∧ ¬ (c.eswin ≠ 0 ∧ c.eswin.toNat ≤ c.espos.toNat) ∧ c.passed = true) ∧
    (let s1 := (stepping coreA []).setCore 0 (spendStall ((stepping coreA []).core 0))
     (s1.core 0).dbg.halted = false ∧ (∀ q ∈ (s1.core 0).reqs, q.inside = false) ∧ (∃ f fs, (s1.core 0).frames = f :: fs ∧ f.pc = 0x100008) ∧
      fA.pc.toNat % 4 = 0 ∧ ctxA.codebase.toNat ≤ fA.pc.toNat ∧ fA.pc.toNat < ctxA.codebase.toNat + ctxA.codelen ∧
      ∃ s2, s1.resolve 0 0 false 0x100008 = (.ok (.line 0x4000 8 none), s2)) ∧
    (memCode.isBad 0x4000 = false ∧ (64 * 0x4000 + 8 + (31 - fA.pc.toNat % 32)) / 64 = 0x4000 ∧ memCode.oldCode 0 0x4000 = [] ∧
      ({ memCode with hostOld := fset [] [] 0x4000 [(List.replicate 128 0, [0, 5])] } : Memory).oldCode 0 0x4000 ≠ []) ∧
    decode (memCode.physRead (64 * 0x4000 + 8) (32 - 8)) = .ok (.add ⟨0, false, 1⟩ 3 1 2, 8) := by
  refine ⟨⟨rfl, rfl, rfl, rfl, rfl⟩, ⟨rfl, rfl⟩, ⟨⟨_, List.mem_cons_self, rfl⟩, ?_⟩, ?_, ?_, ⟨rfl, ?_, ⟨_, _, rfl, rfl⟩, ?_, ?_, ?_, fetched_of ?_⟩, ?_, decoded_of ?_⟩ <;> decide +kernel

/-- At reset the memories are in canonical form, and a step from there goes on. -/
theorem witness_StepsKeepMemoryCanonical : State.reset.memWf = true ∧ ∃ t, step State.reset = .next t := ⟨by decide +kernel, _, rfl⟩

def fCsr : Frame := { fP with claims := [3, 60], tsave := fset 0 [] 3 33 }
def sCsr : State := with_ ctxA (coreEv 1 5) fCsr
theorem witness_SystemRegisters :
    (Open sCsr fCsr [] noGuard ∧ fCsr.priv = true ∧ fCsr.claims.length ≤ 8) ∧ (Open sA fA [] noGuard ∧ fA.priv = false) ∧
    ((0x041#12).toNat = 0x041 ∧ (0x04F#12).toNat = 0x048 + 7 ∧ (0x08C#12).toNat = 0x088 + 4 ∧ (0x03F#12).toNat = 0x020 + 31 ∧
      (0x094#12).toNat = 0x090 + 4) :=
  ⟨⟨open_of rfl (by decide +kernel), rfl, by decide⟩, ⟨open_sA, rfl⟩, by decide⟩

def descriptor (base np func efmt cols p0 p1 : Nat) : List Nat :=
  le 8 base ++ le 4 np ++ [func, efmt, 0, 0] ++ le 4 cols ++ le 4 0 ++ le 8 p0 ++ le 8 p1
/-- Line 0x4000 describes a window without a table, 0x4001 none (its base is not a page's), 0x4002 one with a table at 0x1000C0. -/
def memWin : Memory :=
  { Memory.reset with
    newer := bytesAt (bytesAt (bytesAt (bytesAt [] 0x100000 (descriptor 0x1400000 1 1 0 0 0 0)) 0x100040 (descriptor 0x1400001 1 1 0 0 0 0))
      0x100080 (descriptor 0x1500000 2 4 0 4 9 (2 ^ 48 + 0x1000C0))) 0x1000C0 (le 4 0x3F800000 ++ le 4 0x40000000) }
def bytesOr (x : Bytes) : List Byte := match x with | .ok bs _ => bs | .wait | .stop _ | .bad .. => []
theorem bytes_of {x : Bytes} {p : List Byte → Prop} [DecidablePred p]
    (e : (match x with | .ok bs _ => decide (p bs) | _ => false) = true) : ∃ bs s, x = .ok bs s ∧ p bs := by
  cases x <;> simp_all
def fPr : Frame := { fP with g := regsOf [(6, 0x100000), (7, 0x3FF), (8, 0x2AA), (9, 0x100080), (10, 0x100040), (11, 0x1FFFC0), (12, 0x200000)] }
def sPr : State :=
  { with_ { ctxA with staged := [(3, GenWin.absent)], stagedKeys := [(2, 99), (5, 88)] }
      { coreA with tlb := [⟨0, 0x10, 7, true, true, 3⟩, ⟨1, 0x10, 9, true, true, 3⟩] } fPr with mem := memWin }
theorem witness_PrivilegedInstructions :
    Open sPr fPr [] noGuard ∧ fPr.priv = true ∧
    ((fPr.getG 8).toNat < 1024 ∧ ∀ j, j < 5 → (fPr.getG 8).extractLsb' (2 * j) 2 ≠ 3) ∧
    ¬ ((fPr.getG 7).toNat < 1024 ∧ ∀ j, j < 5 → (fPr.getG 7).extractLsb' (2 * j) 2 ≠ 3) ∧
    ((fPr.getG 11).toNat % 64 = 0 ∧ 0x100000 ≤ (fPr.getG 11).toNat ∧ (fPr.getG 11).toNat + 64 ≤ 0x200000) ∧
    ¬ (fPr.getG 12).toNat + 64 ≤ 0x200000 ∧
    (∃ bs s1, sPr.readParts 0 [(0x100000, 64)] = .ok bs s1 ∧ ((parseWin bs).valid = true ∧ (parseWin bs).table = none)) ∧
    (∃ bs s1, sPr.readParts 0 [(0x100040, 64)] = .ok bs s1 ∧ (parseWin bs).valid = false) ∧
    (∃ bs s1, sPr.readParts 0 [(0x100080, 64)] = .ok bs s1 ∧ (parseWin bs).table = some (0x1000C0, 8) ∧
      (sPr.ctx 0).heapRange 0x1000C0 8 = true) ∧
    (∃ fq s2, sPr.readParts 0 (lineParts 40 0x1000C0 8) = .ok fq s2 ∧
      ((parseWin (bytesOr (sPr.readParts 0 [(0x100080, 64)]))).withTable fq).valid = true) ∧
    sPr.pageHeld 0 (fun _ => true) = false ∧ sPr.pageHeld 0 (fun p => p == 0x100000 / 65536) = false := by
  refine ⟨open_of rfl ?_, rfl, ?_, ?_, ?_, ?_, bytes_of ?_, bytes_of ?_, bytes_of ?_, bytes_of ?_, ?_⟩ <;> decide +kernel

def waiting (s : State) : State := s.setCore 0 { s.core 0 with passed := false }
def due (c : Core) (f : Frame) : Prop :=
  let s := waiting (with_ ctxA c f)
  (s.core 0).frames = f :: [] ∧ (s.core 0).passed = false ∧ (∀ q ∈ (s.core 0).reqs, q.inside = false) ∧
    ((s.core 0).dbg.halted = false ∧ (s.core 0).dbg.haltReq = false ∧ (s.core 0).dbg.brken = false ∧ (s.core 0).dbg.stepping = false) ∧
    (∀ k, k < 4 → (fget 0 (s.core 0).dbg.dba k).getLsbD 0 = false) ∧ ((s.core 0).ctx = some 0 ∧ (s.ctx 0).tearing = false) ∧
    (s.core 0).crossed = [] ∧ s.offered 0 = none ∧ f.deferred = false ∧ f.window = .resident ∧ (s.ctx 0).state = 2 ∧ s.settleWaits 0 f = false
theorem witness_CoreEvents :
    (∀ act ∈ [0, 1, 2, 3], (((with_ ctxA (coreEv act 5) fA).core 0).crossed.find? (fun x => x.cls == 1) = some crossA) ∧
      ∀ y ∈ ((with_ ctxA (coreEv act 5) fA).core 0).crossed, 1 ≤ y.cls) ∧
    (let c := (with_ ctxA { coreEv 0 100 with crossed := [] } fA).core 0
     c.crossed = [] ∧ c.eswin ≠ 0 ∧ c.eswin.toNat ≤ c.espos.toNat) ∧
    (due coreA fA ∧ ((waiting (with_ ctxA coreA fA)).core 0).trapDue = []) ∧
    (let c := { coreEv 0 5 with crossed := [] }
     due c fA ∧ ((waiting (with_ ctxA c fA)).core 0).trapDue = [{ crossA with cls := 3 }] ∧ 3 < 5 ∧ fA.priv = false) := by
  refine ⟨?_, ?_, ⟨⟨rfl, rfl, ?_, ?_, ?_, ⟨rfl, rfl⟩, rfl, rfl, rfl, rfl, ?_⟩, rfl⟩, ⟨rfl, rfl, ?_, ?_, ?_, ⟨rfl, rfl⟩, rfl, rfl, rfl, rfl, ?_⟩, ?_⟩
  all_goals decide +kernel

/-- Core 0 of context 0 before a boundary, with frames `fs`. -/
def edge (x : Ctx) (c : Core) (fs : List Frame) : State :=
  let s := waiting (with_ x c fA)
  s.setCore 0 { s.core 0 with frames := fs }
def quiet0 (s : State) : Bool :=
  let c := s.core 0
  !c.passed && !(c.reqs.any fun q => q.inside) && c.crossed.isEmpty && !c.dbg.halted && !c.dbg.haltReq && !c.dbg.brken && !c.dbg.stepping &&
    c.trapDue.isEmpty && !(s.ctx 0).tearing && (List.range 4).all fun k => !(fget 0 c.dbg.dba k).getLsbD 0
def task2 : Machine.Task := { theTask with id := 0x100000099, tmpl := 0, args := [(1, 77), (2, 88), (0, 5)], set := [(2049, 3)] }
def ctxO : Ctx :=
  { ctxA with templates := [{ template 1 0 1 2 [3] with regs := 20, prio := 7, entry := 0x80, need := fset 0 (fset 0 [] 0 3) 2 5 }], spillkb := 1 }
def coreO (t : Machine.Task) : Core := { coreA with offer := some t, ovfl := 0x3000040 }
/-- Thirteen frames of 31 registers, whose windows leave room for five; they wait for results, or do not. -/
def manyFrames (await : List Reg) : List Frame := (List.range 13).map fun k => { fA with lim := 31, uid := k + 1, await }
theorem witness_CoreEvents_boundary :
    (let s := edge { ctxA with state := 3, tearing := true } { coreA with trapDue := [crossA], closed := [closed 5 [lineA]] } [fA]
     (s.core 0).passed = false ∧ (s.core 0).reqs = [] ∧ (s.core 0).crossed = [] ∧ (s.core 0).ctx = some 0 ∧ (s.ctx 0).tearing = true ∧
      (s.cluster 0).ready = []) ∧
    (let f := { fA with deferred := true }
     let s := edge ctxA coreA [f, { fA with uid := 2 }]
     quiet0 s = true ∧ (s.core 0).frames = f :: [{ fA with uid := 2 }] ∧ f.horizon = false ∧ (s.ctx 0).state = 2 ∧ fA.deferred = false) ∧
    (∀ fs ∈ [[fA], manyFrames [], manyFrames [.g 3]], let s := edge ctxO (coreO task2) fs
      quiet0 s = true ∧ (∀ f ∈ fs, f.deferred = false) ∧ s.offered 0 = some task2 ∧ (∃ m ∈ (s.ctx 0).templates[0]?, m.regs = 20) ∧
      s.eligible task2 0 = true ∧ s.fits 0 task2 = true ∧ task2.cont = none ∧ (s.core 0).kept = none ∧ (task2.args.map (fun e => e.1)).Nodup ∧
      ((s.spillFor 0 (20 + 8) 16).isSome = (fs != manyFrames [.g 3])) ∧
      (∀ s1, s.spillFor 0 28 16 = some s1 → (s1.ctx 0).state = 2 ∧ (s1.core 0).kept = none)) ∧
    (let s := edge ctxO (coreO { task2 with ctx := 1 }) [fA]
     s.eligible { task2 with ctx := 1 } 0 = false ∧ quiet0 s = true) := by
  refine ⟨?_, ?_, fun fs h => ⟨?_, ?_, ?_, ?_, ?_, ?_, ?_, ?_, ?_, ?_, fun s1 e => ?_⟩, ?_⟩
  all_goals first | (revert fs; decide +kernel) | decide +kernel | skip
  have : ∀ fs ∈ [[fA], manyFrames [], manyFrames [.g 3]], (match (edge ctxO (coreO task2) fs).spillFor 0 28 16 with
    | some s1 => decide ((s1.ctx 0).state = 2) && (s1.core 0).kept.isNone | none => true) = true := by decide +kernel
  have := this fs h
  rw [e] at this
  simpa using this
theorem witness_CoreEvents_windows :
    (let s := edge ctxO (coreO task2) (manyFrames [])
     (s.core 0).windowFree < 28 ∧ 5 ≤ (s.core 0).windowFree ∧ ((manyFrames []).take 12 ++ { fA with lim := 31, uid := 13 } :: []) = (s.core 0).frames ∧
      ({ fA with lim := 31, uid := 13 } : Frame).spillable = true ∧ ((s.spillOne 0 { fA with lim := 31, uid := 13 }).ctx 0).state = 2 ∧
      (∀ g ∈ (s.core 0).frames, ∀ p, g.window ≠ .main p) ∧ (s.core 0).carve + 8 * 39 ≤ 1024 * (s.ctx 0).spillkb) ∧
    (∀ g ∈ manyFrames [.g 3], g.spillable = false) ∧
    (let s := edge { ctxO with spillkb := 0 } (coreO task2) (manyFrames [])
     ¬ (s.core 0).carve + 8 * 39 ≤ 1024 * (s.ctx 0).spillkb ∧ s.spillsOwn 0 ((s.core 0).ovfl.toNat, 8 * 39) = true) ∧
    (let f := { fA with window := .carve 320, g := [], a := [] }
     let s := edge { ctxA with spillkb := 2 } { coreA with carve := 640 } [f]
     quiet0 s = true ∧ (s.core 0).frames = f :: [] ∧ s.offered 0 = none ∧ f.deferred = false ∧ (s.ctx 0).state = 2 ∧ s.settleWaits 0 f = false ∧
      (s.core 0).carve = 320 + 8 * (f.lim + 8) ∧ f.lim ≤ 32) ∧
    (∀ bad : Bool, let f := { fA with window := .main 0x3000040, g := [], a := [] }
      let s := { edge ctxA { coreA with ovfl := 0x3000180 } [f] with mem := { Memory.reset with bad := if bad then fset false [] 0xC0001 true else [] } }
      quiet0 s = true ∧ (s.core 0).frames = f :: [] ∧ s.offered 0 = none ∧ s.settleWaits 0 f = false ∧
      (s.core 0).ovfl.toNat = (0x3000040 : Word).toNat + 8 * (f.lim + 8) ∧
      (if bad then s.mem.isBad ((0x3000040 : Word).toNat / 64) = true else s.mem.bad = [])) := by
  refine ⟨⟨?_, ?_, ?_, ?_, ?_, fun g h p => ?_, ?_⟩, ?_, ?_, ?_, fun bad => ?_⟩
  all_goals first | (revert bad; decide +kernel) | decide +kernel | skip
  have : ∀ g ∈ ((edge ctxO (coreO task2) (manyFrames [])).core 0).frames, g.window = .resident := by decide +kernel
  simp [this g h]

/-! ### Dispatchers, remote steps, pairs -/

def ready (id : Word) (skips : Nat) (offer : Option Nat) : Ready :=
  { task := { theTask with id }, arrival := 3, aged := false, skips, blocked := false, offer, fetched := false }
def release (src : Nat) (id : Word) (cluster : Nat) (set : IncSet) : Release :=
  { task := { theTask with id, set }, cluster, src, aged := true, skips := 2 }
def ctxD : Ctx := { ctxA with dispcfg := 0x040400204000 }
def sD (x : Ctx) (l : List Ready) (r : List Release) (halted : Bool) : State :=
  let s := with_ x { coreA with dbg := { Debug.reset with halted } } fA
  { ((s.setCore 0 { s.core 0 with frames := [] }).setCluster 0 { Cluster.reset with ready := l }) with releases := r, clock := 50 }
theorem witness_DispatcherSteps :
    (let s := sD ctxD [] [release 5 77 0 [(3, 9)], release 5 78 0 [], release 6 79 3 []] false
     s.releases[0]? = some (release 5 77 0 [(3, 9)]) ∧ (∀ q ∈ s.releases.take 2, ¬ (q.src = 6 ∧ q.cluster = 3)) ∧ (s.ctx 0).state = 2 ∧
      s.linksRelease (release 5 77 0 [(3, 9)]) = true ∧ s.releaseBehind (release 5 77 0 [(3, 9)]) = false ∧
      [(3, 9)].length ≤ 8 ∧ (s.cluster 0).ready.length < 512 ∧ (s.cluster 0).input = []) ∧
    ((sD { ctxD with state := 3 } [] [] false).ctx 0).state ≠ 2 ∧
    512 ≤ ((sD ctxD (List.replicate 512 (ready 1 0 none)) [] false).cluster 0).ready.length ∧
    (∀ halted, let s := sD ctxD [ready 1 0 none, ready 2 3 (some 0)] [] halted
      (s.core 0).offer = none ∧ (s.cluster 0).ready.find? (fun r => r.offer == some 0) = some (ready 2 3 (some 0)) ∧
      (s.core 0).dbg.halted = halted) ∧
    (let s := sD ctxD [ready 1 2 none] [] false
     (s.cluster 0).ready[0]? = some (ready 1 2 none) ∧ max 1 ((s.ctx 0).dispcfg.extractLsb' 20 4).toNat ≤ 2 ∧ clusterOf 0 = 0) ∧
    (sD { ctxD with admitted := true } [] [] false).lastRetired 0 = true ∧ (sD ctxD [ready 1 0 none] [] false).lastRetired 0 = false := by
  refine ⟨⟨rfl, ?_⟩, ?_, ?_, fun halted => ⟨rfl, ?_, rfl⟩, ?_⟩
  all_goals first | (revert halted; decide +kernel) | decide +kernel

def fibreA : Fibre := { Fibre.reset with fstate := 2, fpeer := 3, txctr := 5 }
def fabricA (lwstate : BitVec 3) (f : Fibre) : Fabric := { Fabric.reset with lwstate, fibres := fset none [] 3 (some f), groupmask := 0xFFFF }
def message (b : RBody) : RMsg := ⟨3, 5, 9, 0, 0, 1, false, 77, 3, 3, 0x500000003, b, 0⟩
def sMsg (state : BitVec 2) (m : Memory) : State := { with_ { ctxR false with state } coreA fA with mem := m, fabric := fabricA 2 fibreA }
/-- Replies kept at the home of line 0x4001 for requests over fibre 3. -/
def kept (tags : List (BitVec 16)) : Memory := { memA with cache := tags.map fun tag => ⟨homeOf 0x4001, 3, 0, tag, 9, true⟩ }
def sFwd (reply : Option Word) : State :=
  with_ (ctxR false) { coreA with fwd := [forward reply], closed := [closed 5 [{ lineA with prog := .acked }]] } fA
def remoteReq : Req :=
  { id := 0, frame := 1, acq := 0, ctx := 0, taskId := 0x700000001, prio := 3, dst := some (.g 5), inside := false,
    kind := .remote thePeer 0x100040 5 false }
def sReq (held : Bool) : State :=
  let s := with_ (ctxR false) { coreA with reqs := [remoteReq] } fA
  if held then { s with fabric := { fabricA 2 { fibreA with fstate := 3 } with via := fset none (fset none [] 0 (some 3)) 31 (some 3) } } else s
theorem witness_RemoteSteps :
    (let c := (sFwd none).core 0
     c.fwd[0]? = some (forward none) ∧ (∀ b ∈ c.closed, b.uid ∈ (forward none).bundles → ∀ l ∈ b.lines, l.prog.ackKnown = true) ∧ (∃ b ∈ c.closed, b.uid ∈ (forward none).bundles) ∧
      ∃ set, c.reduceSet ((sFwd none).writer 0) (forward none).task.set = some set) ∧
    ((sFwd (some 0x80)).core 0).fwd[0]? = some (forward (some 0x80)) ∧
    (∃ m, (ctxR false).templates[1]? = some m ∧ m.place ≠ 2) ∧
    (∀ b ∈ [RBody.line 5 2 0x100040 [(3, 0xAA)], .loadReq 31 0x100048 .h [(0, 4)], .atomReq 5 true 31 6 0x100048 .w none 7, .release 0 9 0x500000077 [(3, 4)],
        .loadReply 31 0x80 3 4 true, .refuse 3 true 0x100040 0x600000001 none],
      (message b).dstPkg = (sMsg 2 memA).fabric.pkgnum ∧ (message b).srcPkg ≠ (sMsg 2 memA).fabric.pkgnum ∧
      (message b).eth = false ∧ message b ∉ (sMsg 2 memA).fabric.outbox ∧ (∀ x ∈ (sMsg 2 memA).fabric.outbox, x.srcPkg ≠ (message b).srcPkg) ∧ (sMsg 2 memA).fabric.brings (message b) = true) ∧
    ((sMsg 2 memA).fabric.queue = [] ∧ (sMsg 2 memA).fabric.ethq = []) ∧
    (RBody.isReply (.loadReq 31 0x100048 .h [(0, 4)]) = false ∧ ((sMsg 3 memA).ctx 0).state ≠ 2 ∧
      ((sMsg 2 memA).ctx 0).bound { message (.line 5 2 0x100040 []) with bind := 4 } = false ∧
      ((sMsg 2 memA).ctx 0).state = 2 ∧ ((sMsg 2 memA).ctx 0).bound (message (.line 5 2 0x100040 [])) = true) ∧
    ((sMsg 2 memA).peerAt 0 true 0x100040 64 = .line 0x4001 0 none ∧ (sMsg 2 memA).peerAt 0 false 0x100048 2 = .line 0x4001 8 none ∧
      (sMsg 2 memA).peerAt 0 true 0x100048 4 = .line 0x4001 8 none ∧ (sMsg 2 memA).mem.isBad 0x4001 = false ∧ (sMsg 2 memA).mem.confirmed = [] ∧
      ((sMsg 2 memA).mem.lineTags 0x4001).newer.st ≠ .pending ∧ ((sMsg 2 memA).ctx 0).pair.pen = false) ∧
    ((kept [4, 5]).cached (homeOf 0x4001) 3).any (fun e => e.tag == 5 && e.ctx == 0) = true ∧
    (let l := (kept ((List.range 64).map fun k => BitVec.ofNat 16 (k + 6))).cached (homeOf 0x4001) 3
     l.any (fun e => e.tag == 5 && e.ctx == 0) = false ∧ 64 ≤ l.length ∧ l.all (fun e => decide ((e.tag - 5).toNat < 2 ^ 15)) = true) ∧
    (let s := (sMsg 2 memA).setCore 9 { Core.reset with fwd := [forward none, { forward none with id := 32, peer := { thePeer with ctx := 6 } }] }
     ∀ e ∈ [(31, forward none), (32, { forward none with id := 32, peer := { thePeer with ctx := 6 } })],
      (s.core 9).fwd.find? (fun x => x.id == e.1) = some e.2 ∧ e.2.peer.pkg = 3 ∧ e.2.peer.bind = 77 ∧ (e.2.peer.ctx = 5 ↔ e.1 = 31)) ∧
    (∃ a, (ctxR false).templates[(0 : BitVec 12).toNat]? = some a ∧ a.place = 1 ∧ (ctxR false).placeCores a ≠ []) ∧
    (∀ held, ((sReq held).core 0).reqs.find? (fun q => q.id == 0) = some remoteReq ∧ ((sReq held).ctx 0).state = 2 ∧
      (sReq held).fabric.held thePeer 0 = held ∧ (sReq held).fabric.held thePeer 31 = held) ∧
    (let c := { coreA with fwd := [{ forward none with sent := true }] }
     c.reqs.find? (fun q => q.id == 31) = none ∧ c.fwd.find? (fun e => e.id == 31) = some { forward none with sent := true } ∧
      (forward none).reply = none) := by
  refine ⟨⟨rfl, ?_, ⟨_, List.mem_cons_self, List.mem_cons_self⟩, Option.isSome_iff_exists.1 ?_⟩, rfl, ⟨_, rfl, ?_⟩, fun b _ => ?_, ⟨rfl, rfl⟩, ?_, ?_, ?_, ?_, ?_,
    ⟨_, rfl, rfl, ?_⟩, fun held => ?_, rfl, rfl, rfl⟩
  all_goals first | (revert held; decide +kernel) | (revert b; decide +kernel) | decide +kernel

/-- Requests and replies of a wrong binding or for a context that is not live; answers of error; a record whose context has ended. -/
theorem witness_RemoteSteps_refused :
    (let m := message (.loadReply 31 0x80 3 4 true)
     RBody.isReply m.body = true ∧ ((sMsg 2 memA).ctx m.dstCtx.toNat).state = 2 ∧ ((sMsg 2 memA).ctx 0).bound { m with bind := 4 } = false ∧
      ((sMsg 3 memA).ctx 0).state ≠ 2 ∧ ((sMsg 2 memA).ctx 0).bound m = true) ∧
    (let m := message (.refuse 6 true 0x100040 0x600000001 (some 5))
     ((sMsg 2 memA).ctx 0).state = 2 ∧ ((sMsg 2 memA).ctx 0).bound m = true) ∧
    (sMsg 2 memA).fabric.queue = [] ∧ (sMsg 2 memA).fabric.ethq = [] ∧ (sMsg 2 memA).fabric.ports = [] ∧
    (let s := (sFwd (some 0x80)).setCtx 0 { ctxR false with state := 3 }
     (s.core 0).fwd[0]? = some (forward (some 0x80)) ∧ (s.ctx (forward none).task.ctx).state ≠ 2) := by decide +kernel

/-- A message of core 9 for context 0 from its peer in this package; a state with the message in its routing die. -/
def hereMsg (b : RBody) : RMsg := { message b with srcPkg := 0, bind := 0, sentAt := 3 }
def ctxHere (state : BitVec 2) : Ctx := { ctxR false with state, peerA := fset 0 (ctxR false).peerA 1 0x8000000500000000, peerB := [] }
def sOut (m : Memory) (b : RBody) : State :=
  let s := { with_ (ctxHere 2) coreA fA with mem := m, releases := [{ release 9 5 0 [] with sentAt := 7 }] }
  { s with fabric := { s.fabric with outbox := [hereMsg b] } }
/-- A line that waits for another bundle's version, and its settle; what the routing die holds of this package, ready and not. -/
theorem witness_RemoteSteps_turns :
    (let m := newTag memA 9 1 .pending
     let s := sMsg 2 m
     (s.ctx 0).state = 2 ∧ (s.ctx 0).bound (message (.line 5 2 0x100040 [(3, 0xAA)])) = true ∧ s.peerAt 0 true 0x100040 64 = .line 0x4001 0 none ∧
      s.mem.isBad 0x4001 = false ∧ (s.mem.lineTags 0x4001).newer.st = .pending ∧
      (s.mem.lineTags 0x4001).newer.writer ≠ RMsg.writer (message (.line 5 2 0x100040 [(3, 0xAA)]))) ∧
    (let m := message (.settle 5 2 0x100040)
     let s := sMsg 2 (newTag memA (RMsg.writer m) 5 .pending)
     m ∉ s.fabric.outbox ∧ s.mem.confirmed = [] ∧ (s.ctx 0).bound m = true ∧ (s.mem.lineTags 0x4001).newer.writer = RMsg.writer m ∧
      (s.mem.lineTags 0x4001).newer.cseq = 5) ∧
    (∀ b ∈ [RBody.line 5 2 0x100040 [(3, 0xAA)], .settle 5 2 0x100040, .release 0 9 0x500000077 [(3, 4)]],
      let s := sOut memA b
      hereMsg b ∈ s.fabric.outbox ∧ (hereMsg b).dstPkg = s.fabric.pkgnum ∧ (hereMsg b).srcPkg = s.fabric.pkgnum ∧ s.msgReady (hereMsg b) = true ∧
        (s.ctx 0).state = 2 ∧ (s.ctx 0).bound (hereMsg b) = true ∧ s.linksHome 9 0x4001 = true ∧
        s.behind 9 (some (s.sentMsg (hereMsg b))) = false ∧ s.peerAt 0 true 0x100040 64 = .line 0x4001 0 none ∧
        ((ctxHere 2).templates[(0 : BitVec 12).toNat]?.map (fun a => a.place == 1 && !(s.ctx 0 |>.placeCores a).isEmpty)) = some true) ∧
    (let s := sOut (newTag memA 3 1 .pending) (.line 5 2 0x100040 [(3, 0xAA)])
     s.msgReady (hereMsg (.line 5 2 0x100040 [(3, 0xAA)])) = false ∧ (s.mem.lineTags 0x4001).newer.st = .pending ∧
      (s.mem.lineTags 0x4001).newer.writer ≠ RMsg.writer (hereMsg (.line 5 2 0x100040 [])) ∧ s.mem.isBad 0x4001 = false) := by decide +kernel

def start : Start := ⟨0, [7], [], none⟩
def paired (pstate : BitVec 2) (replay : Bool) (next : Bool) : Pair :=
  { Pair.reset with
    pen := true, ppeer := 1, epoch := if pstate = 1 then 5 else 4, ldigest := 77, pstate, replay,
    next := if next then some [(1, start, []), (0, start, [(3, 4)])] else none }
/-- A context without tasks, of the pair state given. -/
def sPair (p : Pair) (rel : List Release) : State :=
  let s := with_ { ctxR true with pair := p } Core.reset fA
  { s.setCore 0 { s.core 0 with frames := [] } with mem := { memA with unconf := fset 0 [] 0x4001 1 }, releases := rel }
theorem witness_PairedPartitions :
    (let s := sPair (paired 0 false true) []
     (s.ctx 0).state = 2 ∧ (s.ctx 0).pair.pen = true ∧ (s.ctx 0).pair.pstate ≠ 1 ∧ (s.ctx 0).pair.next ≠ none ∧ s.quiescent 0 = true ∧
      (s.ctx 0).pair.partner = none) ∧
    (let s := sPair (paired 0 false true) [release 5 77 0 []]
     (s.ctx 0).pair.pen = true ∧ s.quiescent 0 = false) ∧
    (∀ replay next, let s := sPair (paired 1 replay next) []
      (s.ctx 0).state = 2 ∧ (s.ctx 0).pair.pen = true ∧ (s.ctx 0).pair.pstate = 1 ∧ (4 : BitVec 32) + 1 = (s.ctx 0).pair.epoch ∧
      (9 : BitVec 32) + 1 ≠ (s.ctx 0).pair.epoch ∧ (77 : BitVec 256) = (s.ctx 0).pair.ldigest ∧ (78 : BitVec 256) ≠ (s.ctx 0).pair.ldigest ∧
      (s.ctx 0).pair.replay = replay ∧ ((s.ctx 0).pair.next = none ↔ next = false)) ∧
    (let s := sPair (paired 1 false false) []
     s.nearPartner 0 = false ∧ s.heldFor 0 (.digest 4 77) = none ∧ s.heldFor 0 .endNotice = none) := by
  decide +kernel

/-- A partner of this package, whose messages are not there, are there with its binding or with another, and in their order. -/
def sNear (bind : Word) (bs : List RBody) : State :=
  let x := { ctxR true with peerA := fset 0 [] 1 0x8000000500000000, peerB := [], pair := paired 1 true false }
  let s := { sPair (paired 1 true false) [] with ctxs := fset Ctx.free [] 0 x }
  { s with fabric := { s.fabric with outbox := bs.map (fun b => { hereMsg b with bind }) } }
theorem witness_PairedPartitions_partner :
    (let s := sNear 0 []
     (s.ctx 0).state = 2 ∧ (s.ctx 0).pair.pen = true ∧ s.nearPartner 0 = true ∧ s.heldFor 0 (.digest 4 78) = none ∧ s.heldFor 0 .endNotice = none ∧
      (s.ctx 0).pair.pstate = 1 ∧ (4 : BitVec 32) + 1 = (s.ctx 0).pair.epoch ∧
      (s.ctx 0).pair.replay = true ∧ (78 : BitVec 256) ≠ (s.ctx 0).pair.ldigest) ∧
    (∀ bound : Bool, ∀ b ∈ [RBody.digest 4 78, .endNotice],
      let s := sNear (if bound then 0 else 4) [b]
      let m := { hereMsg b with bind := if bound then 0 else 4 }
      s.heldFor 0 b = some m ∧ s.msgReady m = true ∧ (s.ctx 0).bound m = bound ∧ m.srcPkg = s.fabric.pkgnum) ∧
    (let s := sNear 0 [.digest 4 78, .endNotice]
     s.heldFor 0 .endNotice = some (hereMsg .endNotice) ∧ RMsg.stream (hereMsg .endNotice) (hereMsg (.digest 4 78)) = true ∧
      hereMsg (.digest 4 78) ∈ s.fabric.outbox.takeWhile (fun y => y != hereMsg .endNotice)) := by decide +kernel

/-! ### Work queues, host registers -/

/-- A context image: its header at 0x10000, tables after it. -/
def image : FMap Byte :=
  let header : FMap Byte := [(0x00, 4, 0x43394E54), (4, 2, 1), (8, 8, 0x1000), (0x10, 4, 0x1000), (0x14, 2, 1), (0x16, 2, 2), (0x18, 8, 0x11000),
    (0x20, 8, 0x12000), (0x28, 8, 0x14000), (0x38, 8, 0x15000), (0x40, 8, 0x16000), (0x48, 8, 0x17000), (0x50, 8, 0x18000),
    (0x60, 8, 0x100000), (0x68, 8, 0x200000)].foldl (fun m (e : Nat × Nat × Nat) => bytesAt m (0x10000 + e.1) (le e.2.1 e.2.2)) []
  bytesAt (bytesAt (bytesAt header 0x11004 (le 4 0x01000000)) 0x1100C (le 4 0xFFFFFFFF)) 0x15000 (le 8 (0x80000000 + 2 ^ 32))
def entry (kind tmpl : Nat) (args : List Nat) (seq : Nat) : List Nat :=
  le 4 (kind * 2 ^ 28 + tmpl) ++ le 4 0 ++ (args ++ List.replicate (6 - args.length) 0).flatMap (le 8) ++ le 8 seq
def bytes (e : List Nat) : List Byte := e.map (BitVec.ofNat 8)
def queueA : WQueue := { WQueue.reset with qbase := 0x40000, bind := 64, state := 1, wr := 5, rd := 3, tickets := 3, pass := 7 }
def sEntry (q : WQueue) (e : List Nat) (taken : Bool) : State :=
  { sA with
    queues := fset WQueue.reset (fset WQueue.reset [] 2 q) 5 { q with pass := 9 },
    host := { HostSide.reset with mem := bytesAt image (0x40000 + 64 * 3) e, unmapped := [(0x90000, 0x91000)] },
    entry := if taken then some (2, bytes e) else none }
def sMade (header : Word) : State := (sEntry queueA [] false).setCtx 3 { Ctx.free with state := 1, creating := some ⟨2, header, 0x50000⟩ }
/-! Tables of zeros pass the checks of a creation; so does the image above. -/
theorem fgetAll_zero {m : FMap Byte} (n : Nat) :
    ∀ {a : Nat}, m.all (fun e => decide (e.1 < a) || decide (a + n ≤ e.1)) = true → fgetAll 0#8 m a n = List.replicate n 0#8 := by
  have get : ∀ k, (∀ e ∈ m, e.1 ≠ k) → fget 0#8 m k = 0#8 := by
    intro k h
    induction m with
    | nil => rfl
    | cons x m ih =>
      unfold fget
      rw [if_neg (fun e => h x List.mem_cons_self e)]
      exact ih fun e he => h e (List.mem_cons_of_mem _ he)
  induction n with
  | zero => exact fun _ => rfl
  | succ n ih =>
    intro a h
    rw [List.all_eq_true] at h
    unfold fgetAll
    rw [ih (a := a + 1), List.replicate_succ, get a]
    · intro e he c
      have := h e he
      simp only [Bool.or_eq_true, decide_eq_true_eq] at this
      omega
    · rw [List.all_eq_true]
      intro e he
      have := h e he
      simp only [Bool.or_eq_true, decide_eq_true_eq] at this ⊢
      omega
theorem numAt_zero (n w k o j : Nat) : numAt (tableEntry (List.replicate n 0#8) w k) o j = 0 := by
  have z : ∀ n, leNat (List.replicate n 0#8) = 0 := by
    intro n
    induction n with
    | zero => rfl
    | succ n ih => simp [List.replicate_succ, leNat, ih]
  simp [numAt, tableEntry, z]
theorem groups_zero (x : Ctx) (n k : Nat) : x.groupOk (List.replicate n 0#8) k = true := by
  simp [Ctx.groupOk, parseGroup, numAt_zero, bitsOf]
theorem guards_zero (x : Ctx) (n k : Nat) : x.guardOk (List.replicate n 0#8) k = true := by
  simp [Ctx.guardOk, parseGuard, numAt_zero, bitsOf]
theorem apart_zero (n : Nat) : guardsApart (List.replicate n 0#8) = true := by
  simp [guardsApart, parseGuard, Guard.overlaps, numAt_zero, bitsOf]

def headerA : List Byte := fgetAll 0#8 image 0x10000 160
def imageA : Image :=
  { templates := fgetAll 0#8 image 0x11000 32, groups := List.replicate 4096 0#8, guards := List.replicate 960 0#8,
    vd := fgetAll 0#8 image 0x15000 64, windows := List.replicate 1024 0#8, ovf := List.replicate 8 0#8, keys := List.replicate 256 0#8 }
theorem bytesAt_nil (m : FMap Byte) (a : Nat) : bytesAt m a [] = m := rfl
theorem read_made (a n : Nat) (h : (sMade 0x10000).host.ok a n = true) : (sMade 0x10000).hostRead a n = some (fgetAll 0#8 image a n) := by
  unfold State.hostRead
  rw [if_pos h, show (sMade 0x10000).host.mem = image from by unfold sMade State.setCtx sEntry; dsimp only; exact bytesAt_nil _ _,
    show (0 : Byte) = 0#8 from rfl]
theorem zeros_made (a n : Nat) (h : (sMade 0x10000).host.ok a n = true)
    (z : image.all (fun e => decide (e.1 < a) || decide (a + n ≤ e.1)) = true) :
    (sMade 0x10000).hostRead a n = some (List.replicate n 0#8) := by rw [read_made a n h, fgetAll_zero n z]
theorem image_read : (sMade 0x10000).readImage headerA = some imageA := by
  have o : ∀ p ∈ [(0x18, 0x11000), (0x20, 0x12000), (0x28, 0x14000), (0x38, 0x15000), (0x40, 0x16000), (0x48, 0x17000), (0x50, 0x18000)],
      numAt headerA p.1 8 = p.2 := by decide +kernel
  have o1 : numAt headerA 0x14 2 = 1 := by decide +kernel
  simp only [List.forall_mem_cons] at o
  unfold State.readImage
  rw [o.1, o.2.1, o.2.2.1, o.2.2.2.1, o.2.2.2.2.1, o.2.2.2.2.2.1, o.2.2.2.2.2.2.1, o1, read_made 0x11000 (32 * 1) (by decide +kernel),
    zeros_made 0x12000 4096 (by decide +kernel) (by decide +kernel), zeros_made 0x14000 960 (by decide +kernel) (by decide +kernel),
    read_made 0x15000 64 (by decide +kernel), zeros_made 0x16000 1024 (by decide +kernel) (by decide +kernel),
    zeros_made 0x17000 8 (by decide +kernel) (by decide +kernel), zeros_made 0x18000 256 (by decide +kernel) (by decide +kernel)]
  rfl
/-- The context that a creation makes, before the tables of its image. -/
def base (s : State) (x : Ctx) (h : List Byte) (t : Image) : Ctx :=
  x.base h ((List.range 8).map (parseVd t.vd)) ((s.namedCores ((List.range 8).map (parseVd t.vd))).take (numAt h 0x16 2)) s.dispcfg
def based (s : State) (x : Ctx) (h : List Byte) (t : Image) : Ctx :=
  { base s x h t with groups := (List.range 256).foldl (fun m k => fset Group.none m k (parseGroup t.groups k)) [] }
theorem build_ok {s : State} {x : Ctx} {header : Word} {h : List Byte} {t : Image} (e1 : s.hostRead header.toNat 160 = some h)
    (e2 : headerForm h = true) (e3 : headerAddrs h = true) (e4 : s.readImage h = some t)
    (e5 : ¬ (s.namedCores ((List.range 8).map (parseVd t.vd))).length < numAt h 0x16 2) (e6 : bandmapOk (numAt h 0x30 4) = true)
    (e7 : (List.range (numAt h 0x14 2)).all ((based s x h t).templateOk (numAt h 0x16 2) t.templates) = true)
    (e8 : (List.range 256).all ((base s x h t).groupOk t.groups) = true) (e9 : (List.range 60).all ((base s x h t).guardOk t.guards) = true)
    (e10 : guardsApart t.guards = true) (e11 : (s.fullCtx (based s x h t) h t).banksOk = true) :
    s.buildCtx x header = .ok (s.fullCtx (based s x h t) h t) := by
  unfold base at e8 e9
  unfold based base at e7 e11
  unfold State.buildCtx
  simp only [e1, e2, e3, e4, e6, e10, Bool.not_true, Bool.false_eq_true, if_false, if_neg e5, e7, e8, e9, e11, Bool.or_self]
  rfl
theorem image_built :
    ∃ y, (sMade 0x10000).buildCtx ((sMade 0x10000).ctx 3) 0x10000 = .ok y ∧ y.cores.length = y.coreids.length ∧ y.cores.Nodup := by
  refine ⟨_, build_ok (h := headerA) (t := imageA) (read_made 0x10000 160 ?_) ?_ ?_ image_read ?_ ?_ ?_
    (List.all_eq_true.2 fun _ _ => groups_zero _ _ _) (List.all_eq_true.2 fun _ _ => guards_zero _ _ _) (apart_zero _) ?_, ?_⟩
  all_goals decide +kernel
theorem failed_of {x : Except Nat Ctx} (e : (match x with | .ok _ => false | .error _ => true) = true) : ∃ c, x = .error c := by
  cases x <;> simp_all
theorem witness_FrontEndEntries :
    (let s := sEntry queueA (entry 1 1 [5] 3) false
     bestQueue s.queues = some 2 ∧ s.entry = none ∧ (s.queue 5).eligible = true ∧
      s.hostRead (64 * (0x40000 / 64) + 64 * (3 % 2 ^ 6)) 64 = some (bytes (entry 1 1 [5] 3)) ∧
      BitVec.ofNat 64 (leNat (((bytes (entry 1 1 [5] 3)).drop 56).take 8)) = (3 : Word) ∧
      BitVec.ofNat 64 (leNat (((bytes (entry 1 1 [5] 4)).drop 56).take 8)) ≠ (3 : Word)) ∧
    (sEntry { queueA with qbase := 0x90000 } [] false).hostRead (0x90000 + 64 * 3) 64 = none ∧
    (∀ retries ∈ [15, 16], let q := (sEntry { queueA with waiting := true, retries } [] false).queue 2
      q.state = 1 ∧ q.waiting = true ∧ q.retries = retries) ∧
    (let s := sEntry { queueA with bind := 0 } (entry 1 1 [5] 3) true
     s.entry = some (2, bytes (entry 1 1 [5] 3)) ∧ entryWord (bytes (entry 1 1 [5] 3)) 0 / 2 ^ 28 = 1 ∧
      s.launchCause (s.queue 2) (bytes (entry 1 1 [5] 3)) = none ∧ (s.ctx (s.queue 2).bind.toNat).pair.pen = false ∧
      ∃ c, s.launchCause (s.queue 2) (bytes (entry 1 77 [5] 3)) = some c) ∧
    (let bs := bytes (entry 2 0 [0x10000, 0x50000, 3] 3)
     entryWord bs 0 / 2 ^ 28 = 2 ∧ entryPlain bs = true ∧ (entryArg bs 0).toNat % 64 = 0 ∧ (entryArg bs 1).toNat % 8 = 0 ∧
      (entryArg bs 2).toNat < 64 ∧ 64 ≤ queueA.bind.toNat ∧ (sA.ctx 3).state = 0 ∧ (sA.ctx 0).state ≠ 0 ∧ queueA.shadow = 0 ∧
      (sEntry queueA [] false).host.ok 0x50000 8 = true) ∧
    (let bs := bytes (entry 3 0 [0, 0x50000, 0] 3)
     entryWord bs 0 / 2 ^ 28 = 3 ∧ entryPlain bs = true ∧ (entryArg bs 0).toNat < 64 ∧ (entryArg bs 1).toNat % 8 = 0 ∧ entryArg bs 2 = 0 ∧
      (sA.ctx 0).state = 2 ∧ (sA.ctx 1).state ≠ 2) ∧
    (entryWord (bytes (entry 0 0 [] 3)) 0 / 2 ^ 28 = 0 ∧ entryPlain (bytes (entry 0 0 [] 3)) = true ∧
      entryPlain (bytes (entry 0 1 [] 3)) = false ∧ 4 ≤ entryWord (bytes (entry 4 0 [] 3)) 0 / 2 ^ 28) := by
  refine ⟨?_, ?_, ?_, ⟨?_, ?_, ?_, ?_, Option.isSome_iff_exists.1 ?_⟩, ?_, ?_, ?_⟩ <;> decide +kernel
theorem witness_FrontEndEntries_creation :
    ((sMade 0x10000).ctx 3).creating = some ⟨2, 0x10000, 0x50000⟩ ∧ (∃ e, (sMade 0x20000).buildCtx ((sMade 0x20000).ctx 3) 0x20000 = .error e) ∧
    (∃ y, (sMade 0x10000).buildCtx ((sMade 0x10000).ctx 3) 0x10000 = .ok y ∧ y.cores.length = y.coreids.length ∧ y.cores.Nodup) :=
  ⟨by decide +kernel, failed_of (by decide +kernel), image_built⟩
theorem witness_FrontEndEntries_end :
    let s := sA.setCtx 3 { ctxA with state := 3, endDone := some 0x50008 }
    (s.ctx 3).endDone = some 0x50008 ∧ (s.ctx 3).tearing = false ∧ s.host.ok 0x50008 8 = true := by decide +kernel

def ctxL : Ctx := { ctxA with templates := ctxA.templates ++ [template 1 0 1 7 [], template 1 9 0 0 []] }
/-- One entry for each cause of R58, in its order; entries to create and to end a context that are refused. -/
theorem witness_FrontEndEntries_refused :
    (∀ e ∈ [(0, 2, 0x1001), (64, 2, 1), (0, 3, 1), (0, 2, 77), (0, 2, 4), (0, 2, 5)],
      let q := { queueA with bind := BitVec.ofNat 7 e.1 }
      let s := { sEntry q (entry 1 e.2.2 [5] 3) true with ctxs := fset Ctx.free [] 0 { ctxL with state := BitVec.ofNat 2 e.2.1 } }
      s.entry = some (2, bytes (entry 1 e.2.2 [5] 3)) ∧ (s.queue 2).bind.toNat = e.1 ∧ entryWord (bytes (entry 1 e.2.2 [5] 3)) 0 % 2 ^ 28 = e.2.2 ∧
        s.events.staging.length < 256 ∧ s.events.held = []) ∧
    (ctxL.templates.length = 6 ∧ (∃ m ∈ ctxL.templates[4]?, 6 < m.argCount) ∧ ∃ m ∈ ctxL.templates[5]?, ctxL.placeCores m = []) ∧
    ({ Pair.reset with pen := true, launches := 8 }.pen = true ∧ 8 ≤ { Pair.reset with launches := 8 }.launches) ∧
    (entryPlain (bytes (entry 2 0 [0x10000, 0x50000, 3] 3)) = true ∧ ((0 : BitVec 7).toNat < 64) ∧
      (entryArg (bytes (entry 2 0 [0x10001, 0x50000, 3] 3)) 0).toNat % 64 ≠ 0 ∧ entryPlain (bytes (entry 2 5 [] 3)) = false ∧
      entryArg (bytes (entry 3 0 [0, 0x50000, 1] 3)) 2 ≠ 0) := by decide +kernel

def recA : FRec := ⟨3, 5⟩
def waiter (record : Option Nat) (id : Word) : Waiter := ⟨{ theTask with id }, 0, record, 7⟩
def sHost (q : WQueue) (x : Ctx) : State :=
  let s := with_ x { coreA with tlb := [⟨0, 0x10, 7, true, true, 3⟩, ⟨1, 0x10, 9, true, true, 3⟩] } fA
  { s with queues := fset WQueue.reset [] 0 q }
theorem witness_HostRegisters :
    (let q := (sHost queueA ctxA).queue 0
     q.state = 1 ∧ (2 : Word).toNat < q.rd.toNat ∧ q.rd.toNat + 2 ^ q.log2.toNat < (68 : Word).toNat ∧ q.rd.toNat ≤ (3 : Word).toNat ∧
      (67 : Word).toNat ≤ q.rd.toNat + 2 ^ q.log2.toNat) ∧
    (let q := (sHost { queueA with state := 0 } ctxA).queue 0
     q.state ≠ 1 ∧ (q.state = 0 ∧ q.bind.toNat ≤ 64 ∧ q.tickets ≠ 0 ∧ 6 ≤ q.log2.toNat ∧ q.log2.toNat ≤ 16 ∧ q.rd.toNat ≤ q.wr.toNat ∧
      q.wr.toNat ≤ q.rd.toNat + 2 ^ q.log2.toNat)) ∧
    (let q := (sHost { queueA with state := 0, bind := 65 } ctxA).queue 0
     ¬ q.bind.toNat ≤ 64) ∧
    ((sHost queueA ctxA).events.even = false ∧ ({ Events.reset with even := true }).even = true) ∧
    (∀ tearing, let x := (sHost queueA { ctxA with state := 3, tearing }).ctx 0
      x.state = 3 ∧ x.tearing = tearing) ∧ ((sHost queueA ctxA).ctx 0).state ≠ 3 ∧
    (let x := (sHost queueA { ctxA with frec := fset none [] 1 (some recA), waiters := [waiter (some 1) 5, waiter (some 0) 6] }).ctx 0
     fget none x.frec 1 = some recA ∧ ∀ w ∈ x.waiters, w.record ≠ none) ∧
    ((sHost queueA ctxA).ctx 0).xbusy = false ∧
    (∀ xcmd ∈ [1, 2], let s := sHost queueA { ctxA with xbusy := true, xcmd }
      (s.ctx 0).xbusy = true ∧ ((s.ctx 0).xcmd = 2 ∨ s.pageHeld 0 (fun p => (s.ctx 0).xcmd == 1 || p == (s.ctx 0).xpage.toNat) = false)) ∧
    ((sHost queueA ctxA).host.down = false ∧ (sHost queueA ctxA).mgmt.inReset = false) ∧
    ((0x301 : Word).toNat % 8 ≠ 0 ∧ 0x800000 ≤ (0x800000 : Word).toNat ∧ (0x2F8 : Word).toNat < 0x300 ∧ (0x2F8 : Word).toNat % 8 = 0 ∧
      (0x10FFD8 : Word).toNat = 0x100000 + 64 * 1023 + 0x18 ∧ (0x10FFD0 : Word).toNat = 0x100000 + 64 * 1023 + 0x10) := by
  decide +kernel

/-! ### Links, scale-out, debug, package -/

def sFab (x : Fabric) : State :=
  { State.reset with
    fabric := x, host := { HostSide.reset with mem := bytesAt image 0x5000 (le 8 0x1122334455667788), unmapped := [(0x90000, 0x91000)] } }
def ack : RMsg := ⟨0, 0, 9, 3, 0, 1, false, 77, 3, 0, 0x500000003, .lineAck 5 2 0x100040, 0⟩
def fabricHeld : Fabric := { fabricA 2 { fibreA with ctrlim := 5 } with queue := [⟨ack, 4, none⟩] }
/-- Dies without any circuit. -/
def noWaves : Fabric := { Fabric.reset with cwave := (List.range 64).foldl (fun m k => fset none m k (some 0)) [] }
theorem witness_FabricLinks :
    (let x := (sFab (fabricA 2 fibreA)).fabric
     fget false x.cbusy 1 = false ∧ ((32 : Word).extractLsb' 0 6).toNat = 32 ∧ ¬ 64 + x.waves 0 1 < x.dieWaves 0 + 32 ∧
      ¬ 64 + x.waves 0 1 < x.dieWaves 1 + 32 ∧ 32 < ((33 : Word).extractLsb' 0 6).toNat) ∧
    fget false ({ fabricA 2 fibreA with cbusy := fset false [] 1 true }).cbusy 1 = true ∧
    (∀ l : BitVec 3, (sFab (fabricA l fibreA)).fabric.lwstate = l) ∧
    (∀ st : BitVec 3, ((sFab (fabricA 0 { fibreA with fstate := st })).fabric.fibre 3).fstate = st) ∧
    ((fabricA 3 fibreA).repliesIn = true ∧ { fabricA 3 fibreA with queue := [⟨ack, 4, some 3⟩] }.repliesIn = false ∧
      (fabricA 1 { fibreA with fstate := 1 }).queue = [] ∧ (fabricA 1 fibreA).ethq = [] ∧ fibreA.txkey = none) ∧
    ((∀ p, ((fabricA 2 fibreA).port p).buf = []) ∧ 0 < (fabricA 2 fibreA).waves 0 1 ∧ ∀ a, a < 8 → ∀ b, b < 8 → noWaves.waves a b = 0) ∧
    ((sFab (fabricA 2 fibreA)).hostRead (64 * ((0x90000 : Word).toNat / 64)) 32 = none ∧
      ∃ key, (sFab (fabricA 2 fibreA)).hostRead (64 * ((0x5005 : Word).toNat / 64)) 32 = some key) ∧
    ((fabricA 2 { fibreA with rxkey := some [1, 2] }).fibre 3).rxkey = some [1, 2] ∧
    ((fabricHeld.fibre 3).fstate = 2 ∧ (fabricHeld.fibre 3).txkey = none ∧ fabricHeld.waitsFor 3 = true) ∧
    (fabricA 2 fibreA).waitsFor 3 = false ∧
    (16 ≤ ({ fibreA with fails := 16 }).fails ∧ ((List.range 18).filter (0x7F : BitVec 18).getLsbD).length < 8 ∧
      ¬ (16 ≤ fibreA.fails ∨ ((List.range 18).filter fibreA.wlmask.getLsbD).length < 8)) := by
  refine ⟨?_, ?_, fun _ => rfl, fun _ => rfl, ?_, ⟨fun _ => rfl, ?_⟩, ⟨?_, Option.isSome_iff_exists.1 ?_⟩, ?_, ?_, ?_⟩ <;> decide +kernel

def portA : Port := { Port.reset with estate := 2, epn := 5 }
def refusal : RMsg := ⟨3, 0, 9, 0, 0, 1, true, 77, 3, 0, 0x500000003, .refuse 1 false 5 0x600000001 none, 0⟩
def frameMsg (b : RBody) : RMsg := ⟨0, 0, 9, 3, 0, 1, true, 77, 3, 0, 0x500000003, b, 0⟩
def ethFrame (b : RBody) : EthFrame := ⟨3, 7, 9, 5, 1, 0x88B5, [frameMsg b]⟩
def sPort (q : Port) (frames : List EthFrame) : State :=
  { sA with
    fabric := { Fabric.reset with etype := 0x88B5, evalid := fset 0 [] 3 0x8002000000000000, ports := fset Port.reset [] 1 q, frames, rxseq := fset 0 [] 3 7 },
    host := (sFab Fabric.reset).host }
theorem witness_ScaleOutUnit :
    ((sPort portA []).hostRead (64 * ((0x90000 : Word).toNat / 64)) 32 = none ∧
      (∃ key, (sPort portA []).hostRead (64 * ((0x5005 : Word).toNat / 64)) 32 = some key) ∧ (sPort portA []).fabric.queue = [] ∧
      (sPort portA []).fabric.ethq = [] ∧ ∀ k, ((sPort portA []).fabric.port k).buf = []) ∧
    (∀ st : BitVec 3, ((sPort { portA with estate := st } []).fabric.port 1).estate = st) ∧ portA.txkey = none ∧
    (({ portA with epnlim := 5 }).epnlim.toNat ≤ portA.epn.toNat ∧ portA.epn.toNat < ({ portA with epnlim := 6 }).epnlim.toNat) ∧
    (fget 0 (sPort portA []).fabric.rxseq 3 = 7 ∧ refusal.eth = true ∧ refusal.srcPkg.toNat = 3 ∧ refusal.dstPkg = (sPort portA []).fabric.pkgnum ∧
      (sPort portA []).fabric.outbox.any (RMsg.resent refusal) = false ∧ (sPort portA []).msgWaits refusal = false) ∧ (8 : BitVec 32) ≠ fget 0 (sPort portA []).fabric.rxseq 3 ∧
    (∀ b ∈ [RBody.loadReq 31 0x100048 .h [(0, 4)], .line 5 2 0x100040 [(3, 0xAA)]],
      let s := sPort portA [ethFrame b]
      s.fabric.frame? 3 7 = some (ethFrame b) ∧ (s.fabric.portsTo 3).filter s.fabric.portSends = [1] ∧ RBody.isReply b = false ∧
      (s.ctx (frameMsg b).srcCtx.toNat).state = 2 ∧ (s.ctx (frameMsg b).srcCtx.toNat).pair.pen = false) ∧
    (let x := (sPort { portA with estate := 1 } []).fabric
     (x.portsTo 3).filter x.portSends = []) ∧
    (let m := { message (.line 5 2 0x100040 [(3, 0xAA)]) with eth := true }
     let s := { sMsg 2 (newTag memA 9 1 .pending) with fabric := { Fabric.reset with rxseq := fset 0 [] 3 7 } }
     s.msgWaits m = true ∧ fget 0 s.fabric.rxseq 3 = 7 ∧ m.srcPkg.toNat = 3 ∧ m.dstPkg = s.fabric.pkgnum ∧ s.fabric.outbox = []) := by
  have none_waits : ∀ k, ((sPort portA []).fabric.port k).buf = [] := by
    intro k
    show (fget Port.reset [(1, portA)] k).buf = []
    unfold fget
    split <;> rfl
  refine ⟨⟨?_, Option.isSome_iff_exists.1 ?_, rfl, rfl, none_waits⟩, ?_, ?_, ?_, ?_, ?_, ?_, ?_⟩ <;> decide +kernel

def sDebug (c : Core) (f : Frame) (d : Debug) : State := with_ ctxA { c with dbg := d } f
def halted (sel : Word) : Debug := { Debug.reset with halted := true, sel }
theorem witness_DebugSteps :
    ((sA.core 0).dbg.halted = false) ∧
    (let c := (sDebug coreA fA (halted 5)).core 0
     c.dbg.halted = true ∧ (c.dbg.sel.extractLsb' 12 4).toNat = 0 ∧ (c.dbg.sel.extractLsb' 0 12).toNat = 5 ∧
      c.frames[(c.dbg.sel.extractLsb' 16 4).toNat]? = some fA ∧ fA.window = .resident ∧ c.frame? fA.uid = some fA ∧ Reg.g 5 ∉ fA.await) ∧
    (Reg.g 5 ∈ ({ fA with await := [.g 5] } : Frame).await) ∧
    (((halted 31).sel.extractLsb' 0 12).toNat < 32) ∧ (((halted 0x6000).sel.extractLsb' 12 4).toNat = 6) ∧
    (let c := (sDebug coreA fA (halted 0x1F00400F)).core 0
     (c.dbg.sel.extractLsb' 12 4).toNat = 4 ∧ (c.dbg.sel.extractLsb' 0 12).toNat = 15 ∧ (c.dbg.sel.extractLsb' 24 6).toNat = 31 ∧
      (∀ f ∈ c.frames, Reg.w (BitVec.ofNat 4 15) ∉ f.await) ∧ c.wLocked (BitVec.ofNat 4 15) = false) ∧
    (∀ e ∈ [(0x1003, 1, 3), (0x2007, 2, 7), (0x302F, 3, 47), (0x5009, 5, 0x009), (0x5041, 5, 0x041), (0x504F, 5, 0x048 + 7), (0x5080, 5, 0x080),
        (0x508C, 5, 0x088 + 4), (0x5000, 5, 0), (0x707F, 7, 127)],
      ((halted (BitVec.ofNat 64 e.1)).sel.extractLsb' 12 4).toNat = e.2.1 ∧ ((halted (BitVec.ofNat 64 e.1)).sel.extractLsb' 0 12).toNat = e.2.2) ∧
    (Reg.p 3 ∉ fA.await ∧ Reg.p 3 ∈ { fA with await := [.p 3, .a 7] }.await ∧ Reg.a 7 ∉ fA.await ∧ Reg.a 7 ∈ { fA with await := [.p 3, .a 7] }.await) ∧
    (((halted 0x100302F).sel.extractLsb' 24 6).toNat = 1 ∧ (coreA.lane (47 / 16)).mq = [] ∧
      (∀ f ∈ (sDebug coreA fA (halted 0x100302F)).core 0 |>.frames, f.lane = 47 / 16 → Reg.v 15 ∉ f.await) ∧
      ((coreA.setLane 2 { Lane.reset with mq := [weave (meeting false false 0)] }).lane (47 / 16)).mq ≠ []) ∧
    ((coreA.lane (127 / 32)).mq = [] ∧ ((coreA.setLane 3 { Lane.reset with mq := [weave (meeting false false 0)] }).lane (127 / 32)).mq ≠ []) ∧
    (let c := (sDebug coreA fA { halted 0 with draining := true }).core 0
     c.dbg.draining = true ∧ (∀ l ∈ c.lanes, l.2.mq = [] ∧ l.2.cq = []) ∧ c.copyq = [] ∧ c.sampq = [] ∧ c.long = []) := by
  decide +kernel

def codeBrk : Memory := { Memory.reset with newer := bytesAt [] 0x100008 (le 8 0x1C61) }
def sHalt (d : Debug) (fs : List Frame) : State := { edge ctxA { coreA with dbg := d } fs with mem := codeBrk }
/-- A comparator at the program counter of the frame. -/
def dbaHere : Word := 0x100009
theorem witness_DebugSteps_halts :
    (∀ d ∈ [{ Debug.reset with haltReq := true }, { Debug.reset with brken := true }, { Debug.reset with dba := fset 0 [] 1 dbaHere },
        { Debug.reset with dba := fset 0 [] 1 dbaHere, dbc := fset 0 [] 1 3 }, { Debug.reset with stepping := true, issued := true }, Debug.reset],
      ∀ fs ∈ [[], [fA]], let s := sHalt d fs
      (s.core 0).passed = false ∧ (s.core 0).reqs = [] ∧ (s.core 0).crossed = [] ∧ (s.core 0).dbg = d ∧ d.halted = false ∧ (s.core 0).ctx = some 0 ∧
        (s.ctx 0).tearing = false ∧ s.offered 0 = none ∧ (s.core 0).frames = fs ∧ (s.core 0).trapDue = []) ∧
    (fA.deferred = false ∧ fA.arrived = true ∧ fA.brkHalted = false ∧ (sHalt Debug.reset [fA]).brkNext 0 fA = true) ∧
    (dbaHere.getLsbD 0 = true ∧ (dbaHere.extractLsb' 2 46).toNat = fA.pc.toNat / 4 ∧
      ((fget 0 (fset 0 [] 1 (3 : Word)) 1).extractLsb' 32 6).toNat = fA.task.ctx ∧ (fget 0 (fset 0 [] 1 (3 : Word)) 1).extractLsb' 0 16 ≠ 0 ∧
      (fget (0 : Word) [] 1).extractLsb' 0 16 = 0 ∧ (fget (0 : Word) [] 1).getLsbD 0 = false) := by decide +kernel

def recordA : EvRec := ⟨5, List.replicate 32 7⟩
def ringA : Events := { Events.reset with staging := [recordA, recordA], even := true, log2 := 5, wr := 3, rd := 2, base := 0x60010 }
def hostA (m : Memory) : State := { sA with mem := m }
theorem witness_HostLink :
    ((hostA memA).host.down = false ∧ 1 ≤ [(1 : Byte)].length ∧ (0x10007F : Word).toNat % 64 + [(1 : Byte)].length ≤ 64 ∧
      (0xFFFFFFFFFF : Word).toNat < 2 ^ 40 ∧ 2 ^ 40 ≤ (0x10000000000 : Word).toNat ∧ ((hostA memA).mem.lineTags (0x10007F / 64)).newer.st ≠ .pending ∧
      fget 0 (hostA memA).mem.unconf (0x10007F / 64) = 0) ∧
    ((hostA (newTag memA 0 5 .pending)).mem.lineTags 0x4001).newer.st = .pending ∧
    (hostA memA).mgmt.powered = true ∧
    (({ ringA with held := [recordA] }).held = recordA :: [] ∧ ringA.staging.length < 256 ∧ ∀ d, d < 8 → (sA.die d).buf = []) ∧
    (let s := sA.setDie 3 { sA.die 3 with buf := [recordA] }
     (s.die 3).buf = recordA :: [] ∧ s.events.held = [] ∧ (∀ k, k < 8 → k ≠ 3 → (s.die k).buf = []) ∧ s.events.staging.length < 256) ∧
    (ringA.staging = recordA :: [recordA] ∧ ringA.even = true ∧ ({ ringA with wr := 33 }).wr.toNat < ringA.rd.toNat + 2 ^ ringA.log2.toNat ∧
      ringA.shadow = 0 ∧ ringA.evint = false ∧ sA.host.ok (32 * (ringA.base.toNat / 32) + 32 * 3) recordA.bytes.length = true ∧
      ({ HostSide.reset with unmapped := [(0x60000, 0x70000)] }).ok (32 * (ringA.base.toNat / 32) + 32 * 3) recordA.bytes.length = false) ∧
    ringA.rd.toNat + 2 ^ ringA.log2.toNat ≤ ({ ringA with wr := 34 }).wr.toNat := by
  decide +kernel

/-- A line that a paired context has written in its epoch, with and without a confirmed version beside the two. -/
theorem witness_HostLink_confirmed :
    let m := { newTag memA 0 5 .settled with unconf := fset 0 [] 0x4001 1 }
    let k : Kept218 := { frame := 0, key := 0x4001, data := List.replicate 64 5, tag := Tag.zero }
    fget 0 (hostA m).mem.unconf 0x4001 ≠ 0 ∧ (hostA m).mem.confirmed = [] ∧
    (hostA { m with confirmed := [k] }).mem.confirmed.find? (fun e => e.key == 0x4001) = some k ∧ (0x100040 : Word).toNat / 64 = 0x4001 := by
  decide +kernel

def sPack (a : Attest) (m : Mgmt) (lwstate : BitVec 3) : State :=
  { sFab (fabricA lwstate Fibre.reset) with attest := a, mgmt := m, dies := fset Die.reset [] 0 { Die.reset with spfree := 1, clret := 4 } }
theorem witness_PackageSteps :
    (Attest.reset.stat ≠ 1 ∧ ({ Attest.reset with stat := 1, out := [1, 2, 3] }).stat = 1 ∧ [(1 : Byte), 2, 3].length ≤ 30000) ∧
    (let s := sPack { Attest.reset with stat := 1, out := [1, 2, 3], buf := 0x5007 } Mgmt.reset 1
     s.host.ok (64 * (s.attest.buf.toNat / 64)) s.attest.out.length = true ∧ s.attest.out ≠ [] ∧ ({ s.host with down := true }).down = true ∧
      (s.die 0).cluse.getLsbD 3 = true ∧ s.dieBusy 0 = false ∧ s.fabric.lwstate = 1 ∧
      (s.fabric.fibre (55 / 18)).wlmask.getLsbD (55 % 18) = true ∧ s.mgmt.powered = true ∧ s.mgmt.inReset = false ∧ s.mgmt.hot = false ∧
      s.mgmt.rails = [.vroute, .vsram, .vmem, .vcore, .vopt] ∧ (s.die 0).spare.isSome = true) ∧
    (sA.dieBusy 0 = true ∧ (sA.die 0).cluse.getLsbD 31 = true) ∧ 16 * 110 < (1761 : BitVec 32).toInt ∧ (1760 : BitVec 32).toInt ≤ 16 * 110 ∧
    ({ Mgmt.reset with inReset := true }.inReset = true ∧ { Mgmt.reset with rails := [] }.powered = false) ∧
    { Die.reset with spfree := 0 }.spare = none ∧ State.reset.clusterHeld (34 * 7 + 2228224 / 65536) = false ∧
    (∀ e ∈ [(34 * 7 + 33, 64), (2048 + 15, 256), (3072 + 7, 4)], fget 0 (fset 0 [] e.1 (e.2 - 1)) e.1 < e.2 ∧ e.2 ≤ fget 0 (fset 0 [] e.1 e.2) e.1) ∧
    (16 * 95 < (fget (0 : BitVec 32) (fset 0 [] 32 1521) 32).toInt ∧ ¬ ∃ j, j < 33 ∧ 16 * 95 < (fget (0 : BitVec 32) (fset 0 [] 32 1520) j).toInt) ∧
    (∀ e ∈ [(0, 750, 3, 727, 772), (1, 800, 3, 775, 824), (2, 1050, 3, 1018, 1081), (3, 850, 3, 824, 875), (4, 3300, 5, 3134, 3465)],
      100 * e.2.2.2.1 < (100 - e.2.2.1) * e.2.1 ∧ ¬ 100 * (e.2.2.2.1 + 1) < (100 - e.2.2.1) * e.2.1 ∧
      (100 + e.2.2.1) * e.2.1 < 100 * (e.2.2.2.2 + 1) ∧ ¬ (100 + e.2.2.1) * e.2.1 < 100 * e.2.2.2.2) := by
  decide +kernel

/-! ## Words of the spec's encodings, written from the field places of R108–R115 and the encoding tables -/

def decodes (l : List (Nat × Nat × Instr)) : Bool := l.all (fun e => decodeTableWord e.1 e.2.1 == some e.2.2)
theorem test_words_integer : decodes [
    (64, 0x1, .nop noGuard ⟨.l64, 0, 0⟩),
    (96, 0x2, .nop noGuard ⟨.l96, 0, 0⟩),
    (128, 0x3, .nop noGuard ⟨.l128, 0, 0⟩),
    (64, 0x10460025, .add ⟨0, false, 1⟩ 3 1 2),
    (64, 0xFFFFFB0000460041, .addi noGuard 3 1 0xFFFFFB),
    (64, 0x10474061, .sub ⟨2, true, 0⟩ 3 1 2),
    (64, 0x1046E081, .mul ⟨7, false, 0⟩ 3 1 2),
    (64, 0x80104600A1, .mulh noGuard true 3 1 2),
    (64, 0xEFBE00C1, .div noGuard false 31 30 29),
    (64, 0x80104600E1, .rem noGuard true 3 1 2),
    (64, 0x10460101, .and noGuard 3 1 2),
    (64, 0x10460121, .or noGuard 3 1 2),
    (64, 0x10460141, .xor noGuard 3 1 2),
    (64, 0x10460161, .andn noGuard 3 1 2),
    (64, 0x10460181, .shl noGuard 3 1 2),
    (64, 0x104601A1, .shr noGuard 3 1 2),
    (64, 0x104601C1, .sar noGuard 3 1 2),
    (64, 0x104601E1, .rot noGuard 3 1 2)] = true := by decide +kernel

theorem test_words_integer_immediate : decodes [
    (64, 0x3F0000460201, .shli noGuard 3 1 63),
    (64, 0x70000460221, .shri noGuard 3 1 7),
    (64, 0x10000460241, .sari noGuard 3 1 1),
    (96, 0xFFFFFFFE0000000000060262, .movi noGuard 3 0xFFFFFFFE),
    (128, 0x123456789ABCDEF0000000000060263, .moviD noGuard 3 0x0123456789ABCDEF),
    (64, 0x8010460281, .min noGuard true 3 1 2),
    (64, 0x104602A1, .max noGuard false 3 1 2),
    (64, 0x4602C1, .abs noGuard 3 1),
    (64, 0x4602E1, .clz noGuard 3 1),
    (64, 0x460301, .popc noGuard 3 1),
    (64, 0x1C58000460321, .ext noGuard true 3 1 5 7),
    (64, 0x1F80000460341, .ins noGuard 3 1 56 7),
    (64, 0x60010460361, .sel noGuard 3 6 1 2),
    (64, 0xFFFFE00310460381, .lea noGuard 3 1 2 3 0x7FFFF),
    (64, 0x80104603A1, .adds noGuard true 3 1 2),
    (64, 0x104603C1, .hops noGuard 3 1 2),
    (64, 0x400104603E1, .mad noGuard 3 1 2 4)] = true := by decide +kernel

theorem test_words_control : decodes [
    (64, 0x20229020401, .cmp noGuard .lt .set 1 2 4 5),
    (64, 0x22B29020401, .cmp noGuard .ntst .or 1 2 4 5),
    (64, 0xFFFFFF1901020421, .cmpi noGuard .geu .and 1 4 0xFFFFFF),
    (64, 0x8018820441, .pand noGuard true 1 2 3),
    (64, 0x18820461, .por noGuard false 1 2 3),
    (64, 0x18820481, .pxor noGuard false 1 2 3),
    (64, 0x8204A1, .pnot noGuard 1 2),
    (64, 0x100000804C1, .pset noGuard 4 true),
    (64, 0x30001C804E1, .ptest noGuard 4 7 3),
    (64, 0x120501, .pget noGuard 9),
    (64, 0x820002400521, .pput noGuard 9 0b1000001),
    (64, 0xFFFFFE0000000541, .br noGuard 0xFFFFFE),
    (96, 0x10000000000000000000542, .brFar noGuard 0x01000000),
    (64, 0x2400561, .jmp noGuard 9),
    (64, 0x400003E0581, .call noGuard 31 4),
    (96, 0xFFFFFFFC00000000003E0582, .callFar noGuard 31 0xFFFFFFFC),
    (64, 0x27E05A1, .callr noGuard 31 9),
    (64, 0x7C005C1, .ret noGuard 31),
    (64, 0xFFFFFE00000605E1, .loop noGuard 3 0xFFFFFE)] = true := by decide +kernel

theorem test_words_scratchpad_and_memory : decodes [
    (96, 0xFC0000000000204480802, .lds noGuard true .w false 4 (.step 1 0x3F0)),
    (64, 0x8102480801, .lds noGuard false .h true 4 (.inc 1)),
    (96, 0x400000000002A20822, .sts noGuard true .b (.step 1 64) 10),
    (64, 0xFFFFC00001520841, .ldv noGuard (.inc 1) 5 0xFFFFC0),
    (64, 0x400001440861, .stv noGuard (.plain 2) 5 64),
    (64, 0x882004E0881, .ld noGuard .w true 7 1 8),
    (64, 0x3328008A1, .st noGuard .d 10 6 0),
    (64, 0x21104608C1, .ldd noGuard .bf16 .ru 3 1 2),
    (64, 0x9105408E1, .std noGuard .w4 (.inc 2) 1 2),
    (64, 0x300500901, .smov noGuard false .d (.inc 0) (.plain 1)),
    (64, 0x252500921, .salu noGuard false .add .w (.inc 0) (.inc 1) (.inc 2)),
    (96, 0x3FE000020001600190600922, .salu noGuard true .mul .h (.step 0 2) (.plain 1) (.step 2 0x3FE)),
    (64, 0x401210400941, .sflt noGuard false .mul .f16 .rz (.plain 0) (.plain 1) (.plain 2)),
    (64, 0x3050400961, .sfma noGuard false .f32 .rd (.plain 0) (.plain 1) (.inc 2))] = true := by decide +kernel

theorem test_words_bundles_and_atomics : decodes [
    (64, 0x20000000981, .bclose noGuard .package),
    (64, 0x100000009A1, .fence noGuard .die),
    (64, 0x80000009A1, .fenceFresh noGuard),
    (64, 0x80024009C1, .probe noGuard true 9),
    (64, 0x24009E1, .pref noGuard 9),
    (64, 0xA30710480A01, .fopen noGuard .xor .i32 .rn 4 1 2 3),
    (64, 0xF10560A21, .fold noGuard (.inc 3) 1 2 15),
    (64, 0x480A41, .fclose noGuard 4 1),
    (64, 0x210480A61, .xchg noGuard false 4 1 2),
    (64, 0x50310480A81, .cas noGuard true 4 1 2 5),
    (64, 0x312480AA1, .xchgs noGuard true 4 (.inc 1) 2),
    (64, 0x50210480AC1, .cass noGuard false 4 (.plain 1) 2 5),
    (64, 0x310480AE1, .xadd noGuard true 4 1 2),
    (64, 0x210480B01, .xadds noGuard false 4 (.plain 1) 2),
    (64, 0x480B21, .ldtag noGuard 4 1)] = true := by decide +kernel

theorem test_words_tasks_and_remote : decodes [
    (96, 0x50000000000000C02, .spawn noGuard 5),
    (96, 0x20000000002400C22, .post noGuard 2 9),
    (96, 0xFFF0000008002400C22, .postGrp noGuard 4095 9),
    (64, 0x14C41, .halt ⟨2, true, 0⟩),
    (64, 0x8002400C41, .haltK noGuard 9),
    (64, 0xC61, .commit noGuard),
    (64, 0x3D0000000C81, .claim noGuard 61),
    (64, 0x3D0000000CA1, .unclaim noGuard 61),
    (64, 0x220001000CC1, .arrive noGuard 4 2 2),
    (96, 0x70100600000000048C00CE2, .binit noGuard 3 9 0x60 1 7),
    (96, 0x110000000348C00D02, .watch noGuard true 3 9 17),
    (64, 0xC80D21, .unwatch noGuard 4 3),
    (64, 0x29040D41, .qpush noGuard 2 4 5),
    (64, 0x880D61, .qpop noGuard 4 2),
    (64, 0x1040D81, .qcfg noGuard 2 4),
    (64, 0x880DA1, .qlen noGuard 4 2),
    (128, 0xA0002208200460E03, .rld noGuard .w true 3 1 17 10),
    (64, 0x2200310400E21, .rst noGuard .d 1 2 17),
    (64, 0x26208310400E21, .rstRel noGuard .d 1 2 17 9),
    (64, 0x2240210460E41, .rcas noGuard false 3 1 2 4 17),
    (64, 0x2200110560E61, .rfold noGuard (.inc 3) 1 2 1 17),
    (64, 0x2200310460E81, .rxchg noGuard true 3 1 2 17)] = true := by decide +kernel

theorem test_words_float : decodes [
    (64, 0x2110461001, .fadd noGuard .bf16 .ru 3 1 2),
    (64, 0x10461021, .fsub noGuard .f32 .rn 3 1 2),
    (64, 0x1210461041, .fmul noGuard .f16 .rz 3 1 2),
    (64, 0x3010461061, .fdiv noGuard .f32 .rd 3 1 2),
    (64, 0x461081, .fsqrt noGuard .f32 .rn 3 1),
    (64, 0x400104610A1, .ffma noGuard .f32 .rn 3 1 2 4),
    (64, 0x104610C1, .fmin noGuard .f32 3 1 2),
    (64, 0x1104610E1, .fmax noGuard .bf16 3 1 2),
    (64, 0x10461101, .fminp noGuard .f32 3 1 2),
    (64, 0x10461121, .fmaxp noGuard .f32 3 1 2),
    (64, 0x300461141, .fabs noGuard .e4m3 3 1),
    (64, 0x400461161, .fneg noGuard .e5m2 3 1),
    (64, 0xE000104A1181, .fcmp noGuard .ord .f32 5 1 2),
    (64, 0x2004611A1, .fclass noGuard .f16 3 1),
    (64, 0x13004611C1, .fcvt noGuard .e4m3 .f32 .rz 3 1),
    (64, 0x800004611E1, .icvtf noGuard .f32 .i64 .rn 3 1),
    (64, 0x12500461201, .fcvti noGuard .i8 .bf16 .ru 3 1),
    (96, 0x3F800000000100061222, .fmovi noGuard .bf16 3 0x3F80),
    (64, 0x1000461241, .frnd noGuard .f32 .rz 3 1),
    (64, 0x10461261, .fscale noGuard .f32 .rn 3 1 2)] = true := by decide +kernel

theorem test_words_vector : decodes [
    (64, 0x8000001401, .vmodeLong noGuard),
    (64, 0x1401, .vmodeShort noGuard),
    (96, 0x4000080000000044A1422, .vld noGuard true true 5 (.step 1 0x100)),
    (64, 0x1521441, .vst noGuard false false (.inc 1) 5),
    (64, 0x24A1461, .vldv noGuard false 5 9),
    (64, 0x800000002A401481, .vstv noGuard true 9 5),
    (64, 0x85104614A1, .vadd noGuard false true .i8 .rn 3 1 2),
    (64, 0x11104614C1, .vsub noGuard false false .bf16 .rz 3 1 2),
    (64, 0x8104614E1, .vmul noGuard false .i64 .rn 3 1 2),
    (64, 0x8000043210461501, .vfma noGuard true .f16 .rd 3 1 2 4),
    (64, 0x8610461521, .vmin noGuard false true .i16 3 1 2),
    (64, 0x310461541, .vmax noGuard false false .e4m3 3 1 2),
    (64, 0x10461561, .vminp noGuard false .f32 3 1 2),
    (64, 0x410461581, .vmaxp noGuard false .e5m2 3 1 2),
    (64, 0x5004615A1, .vneg noGuard false .i8 3 1),
    (64, 0x5004615C1, .vabs noGuard false .i8 3 1),
    (64, 0x104615E1, .vand noGuard false 3 1 2),
    (64, 0x10461601, .vor noGuard false 3 1 2),
    (64, 0x10461621, .vxor noGuard false 3 1 2)] = true := by decide +kernel

theorem test_words_vector_more : decodes [
    (64, 0x710461641, .vshl noGuard false .i32 3 1 2),
    (64, 0x8710461661, .vshr noGuard false true .i32 3 1 2),
    (64, 0x1600710461681, .vcmp noGuard false (.int .ntst) .i32 3 1 2),
    (64, 0xC00010461681, .vcmp noGuard false (.flt .un) .f32 3 1 2),
    (64, 0x405104616A1, .vsel noGuard false .i8 3 4 1 2),
    (64, 0xE005005216C1, .vred noGuard false .xor .i8 .rn 9 1),
    (64, 0x80000300188216E1, .vdot noGuard true .f32 .e4m3 .rn 1 2 3),
    (64, 0x40510461701, .vperm noGuard false .i8 3 1 2 4),
    (64, 0x2461721, .vbcast noGuard false .f32 3 9),
    (64, 0x400301481741, .vcvt noGuard false .e4m3 .f32 .rn 4 5 2 none),
    (64, 0xEA404349481741, .vcvt noGuard false .e4m3 .f32 .rs 4 5 2 (some ⟨9, 10, 7⟩)),
    (64, 0x80001F0500521761, .vmovg noGuard true .i8 9 1 31),
    (64, 0x1F0502421781, .vins noGuard false .i8 1 9 31),
    (128, 0x581034031481014A1417A3, .vchain noGuard .bf16 .bf16 .rn (.inc 2) (.inc 0) (.inc 1) 4 5 6 [(.mul, .c0), (.add, .s1), (.max, .c1)]),
    (64, 0x486104617C1, .vclamp noGuard false true .i16 3 1 2 4)] = true := by decide +kernel

theorem test_words_matrix : decodes [
    (96, 0x7F000000000902001802, .mwl noGuard .w4 (.inc 0) 0 127),
    (64, 0x1821, .mswap noGuard),
    (64, 0x302801841, .mmul noGuard .e4m3 false (.inc 2)),
    (128, 0x4000030000EA814A801863, .mpass noGuard .bf16 .w3 true (.inc 2) 9 7 3 0x4000),
    (64, 0xE00308001881, .mweave noGuard .e4m3 false 0 1 7),
    (64, 0x18A1, .macz noGuard),
    (64, 0xCA000028018C1, .macld noGuard (.inc 2) 5 3),
    (64, 0xCA011001418E1, .macst noGuard .bf16 .rz (.inc 2) 5 3 none),
    (64, 0x38CAA43480418E1, .macst noGuard .e4m3 .rs (.plain 2) 5 3 (some ⟨9, 10, 7⟩)),
    (64, 0x3FE000000A1901, .macmv noGuard 5 31 15),
    (64, 0x3FE08001401901, .macmvTo noGuard 31 15 5),
    (64, 0x308001921, .mskew noGuard .e4m3 0 1),
    (64, 0x1FFE00000121941, .macrd noGuard 9 31 127),
    (96, 0x3F400000000A02401962, .mwlv noGuard .w3 9 64 63)] = true := by decide +kernel

theorem test_words_sampler_and_copy : decodes [
    (64, 0x200029001A01, .scouple noGuard 4 5 1),
    (64, 0x29001A21, .sbias noGuard 4 5),
    (64, 0x200000401A41, .sclamp noGuard 1 true),
    (64, 0x8000401A41, .sclampOff noGuard 1),
    (64, 0x10000401A61, .scolour noGuard 1 1),
    (96, 0x1030000600000801A82, .sweep noGuard 2 3 3 1 0),
    (64, 0x4C1AA1, .sread noGuard 6 1),
    (64, 0x30401AC1, .swrite noGuard 1 6),
    (64, 0x1E00030401AE1, .skey noGuard 15 1 6),
    (128, 0xA40018921B03, .cpys noGuard (.inc 1) 2 3 4 5 ⟨false, 0⟩),
    (128, 0x18A40018921B03, .cpys noGuard (.inc 1) 2 3 4 5 ⟨false, 6⟩),
    (128, 0x18A40018921B03, .cpys noGuard (.inc 1) 2 3 4 5 ⟨false, 6⟩),
    (128, 0x880098A40018821B23, .cpyc noGuard .add .bf16 .rz (.plain 1) 2 3 4 5 ⟨true, 6⟩),
    (128, 0x80FFFFFFC00000A40018821B43, .cpyg noGuard (.plain 1) 2 3 4 5 ⟨false, 0⟩ 0xFFFFFFC0 128),
    (128, 0x98A40018921B63, .cpyf noGuard (.inc 1) 2 3 4 5 ⟨true, 6⟩)] = true := by decide +kernel

theorem test_words_system : decodes [
    (64, 0x600000A1C05, .srd ⟨0, false, 1⟩ 5 6),
    (64, 0x90001C01C21, .swr noGuard 9 7),
    (64, 0x50000001C41, .trap noGuard 5),
    (64, 0x1C61, .brk noGuard 0),
    (64, 0x1401C81, .ovld noGuard 5),
    (96, 0x30000000001001CA2, .genset noGuard 3 4),
    (64, 0x1CC1, .gensync noGuard),
    (64, 0x1CE1, .harvest noGuard),
    (64, 0x1D01, .tret noGuard),
    (64, 0x100001D01, .tretNext noGuard),
    (64, 0x200001D01, .tretKill noGuard),
    (64, 0x300001D01, .tretEnd noGuard),
    (128, 0x30000000029001D23, .keyset noGuard 3 4 5),
    (64, 0x1001D41, .tlbinv noGuard 4),
    (64, 0x8000001D41, .tlbinvAll noGuard)] = true := by decide +kernel

/-- Words that are no instruction, in this order: LEN 0 (R105); GP 0 with GN 1 (R110); a reserved field of ADD (R117); LOOP of g0 (R149); PMODE 3 (R113); PMODE 2 in 64 bits (R113); a format that FADD does not take (R151); a reserved rounding (R115); an unassigned opcode (R116); an unassigned register (R128); a predicate above 7 (R112); a vector register above 15 (R112); a length that ADD does not have (R105). -/
theorem test_words_refused : [
    decodeTableWord 64 0x10460100,
    decodeTableWord 64 0x10470021,
    decodeTableWord 64 0x10010460021,
    decodeTableWord 64 0xFFFFFE00000005E1,
    decodeTableWord 64 0x206480801,
    decodeTableWord 64 0x204480801,
    decodeTableWord 64 0x310461001,
    decodeTableWord 64 0x5010461001,
    decodeTableWord 64 0xB41,
    decodeTableWord 64 0xC00000A1C01,
    decodeTableWord 64 0x10500441,
    decodeTableWord 64 0x106014A1,
    decodeTableWord 96 0x10460022].all (fun o => o == none) = true := by decide +kernel


/-! ## Single steps, worked out from the spec -/

def after (o : Host.Outcome State Fault Refusal) : State := match o with
  | .next t => t
  | .fault _ | .refused _ => State.reset
def topG (s : State) (k : GReg) : Word := match (s.core 0).frames with
  | f :: _ => f.getG k
  | [] => 0
def run (f : Frame) (i : Instr) : State := after (exec i (with_ ctxA coreA f))

/-- R140: addition wraps at 64 bits. -/
theorem test_add_wraps : topG (run fA (.add noGuard 1 1 1)) 1 = 0xFFFFFFFFFFFFFFE0 := by decide +kernel
/-- R112: `g0` reads as zero after a write to it. -/
theorem test_add_g0 : topG (run fA (.add noGuard 0 1 2)) 0 = 0 := by decide +kernel
/-- The expression language's examples (R85), which R142 follows: −7 / 2 is −3, −7 % 2 is −1. -/
theorem test_div_truncates :
    (((run { frame with g := regsOf [(1, 0xFFFFFFFFFFFFFFF9), (2, 2)] } (.div noGuard false 3 1 2)).core 0).div.map UnitOp.val,
      ((run { frame with g := regsOf [(1, 0xFFFFFFFFFFFFFFF9), (2, 2)] } (.rem noGuard false 3 1 2)).core 0).div.map UnitOp.val) =
    (some 0xFFFFFFFFFFFFFFFD, some 0xFFFFFFFFFFFFFFFF) := by decide +kernel
/-- The loop of R149: with g3 = 1 it is not taken, and the next instruction is 8 bytes on. -/
theorem test_loop_ends :
    ((run { frame with g := regsOf [(3, 1)] } (.loop noGuard 3 0xFFFFFE)).core 0).frames.map Frame.pc = [0x100010] := by decide +kernel
/-- With g3 = 3 it goes back 8 bytes, and g3 is 2. -/
theorem test_loop_goes_back :
    ((run { frame with g := regsOf [(3, 3)] } (.loop noGuard 3 0xFFFFFE)).core 0).frames.map (fun f => (f.pc, f.getG 3)) = [(0x100000, 2)] := by
  decide +kernel
/-- R5: a 32-bit store of 0x0A0B0C0D at 0x100. -/
theorem test_sts_byte_order :
    ((run { frame with g := regsOf [(2, 0x0A0B0C0D)], a := fset 0 [] 1 0x100 } (.sts noGuard false .w (.plain 1) 2)).core 0).padRead 0x100 4 =
      [0x0D, 0x0C, 0x0B, 0x0A] := by decide +kernel
/-- The example of R73: `vd0` on CD1 and `vd1` on CD6 are two hops apart. -/
theorem test_hops :
    ((after (exec (.hops ⟨0, false, 1⟩ 3 0 8)
      (with_ { ctxA with vdmask := 3, vdies := fset VDie.none (fset VDie.none [] 0 ⟨true, 1, 1⟩) 1 ⟨true, 6, 1⟩ } coreA fA))).core 0).frames.map
        (fun f => f.pend.map (fun x => (x.reg, x.val.setWidth 64))) = [[(.g 3, (2 : Word))]] := by decide +kernel
/-- The example of R166: 0x01000040 is line 1 of the heap, at 0x2001000040. -/
theorem test_heap_address :
    State.reset.kind { ctxA with heapbase := 0x1000000, heaplimit := 0x2000000, heapoff := 0x2000000000 } false 0x1000040 =
      .line (0x2001000040 / 64) 0 := by decide +kernel
/-- The example of R190: 1, −1, 7, −8 in W4. -/
theorem test_w4_elements : ((expandCol .w4 ([0xF1, 0x87] ++ List.replicate 62 0) (List.replicate 4 0)).q.take 4) = [1, -1, 7, -8] := by
  decide +kernel
/-- The examples of R196: under 0x190, 470.0 becomes E4M3 0x7F, 70,000.0 becomes FP16 0x7C00. -/
theorem test_overflow_table :
    ((fConv .e4m3 .f32 .rn 0x190 0 0x43EB0000).1, (fConv .f16 .f32 .rn 0x190 0 0x4788B800).1) = (0x7F, 0x7C00) := by decide +kernel
/-- The example of R242: 300.0 as E4M3 under round-to-nearest. -/
theorem test_e4m3_of_300 : (fConv .e4m3 .f32 .rn 0 0 0x43960000).1 = 0x79 := by decide +kernel
/-- R158: 1.0 + 1.0 in BF16. -/
theorem test_bf16_add : (fAdd .bf16 .rn 0x3F80 0x3F80) = (0x4000, 0) := by decide +kernel
/-- The example of R53: a 64-entry ring with QRDIDX 1,000 takes a doorbell of 1,064, and not of 1,065. -/
theorem test_doorbell :
    (let s := sHost { queueA with rd := 1000, wr := 1000 } ctxA
     (((after (exec (.queueDoorbell 0 1064) s)).queue 0).state, ((after (exec (.queueDoorbell 0 1065) s)).queue 0).state,
      ((after (exec (.queueDoorbell 0 1065) s)).queue 0).err)) = (1, 2, 0x01) := by decide +kernel
/-- The example of R38: the first task that `TASKID` 0x0000002A00000003 spawns is 0x0000002A00000064. -/
theorem test_child_identifier : childIds 0x0000002A00000003 0 1 = [0x0000002A00000064] := by decide +kernel
/-- R354, R352: `TRAP 5` enters the trap frame at CODEBASE + TRAPENTRY, with cause 0x08 and the number in TVAL. -/
theorem test_trap :
    ((run fA (.trap noGuard 5)).core 0).frames.map (fun f => (f.pc, f.priv, f.tcause, f.tpc, f.tval)) =
      [(0x100040, true, 0x08, 0x100008, 5)] := by decide +kernel
/-- R355: `TRET` goes back to `TPC` with the privilege gone. -/
theorem test_tret :
    ((run { fP with tpc := 0x100020 } (.tret noGuard)).core 0).frames.map (fun f => (f.pc, f.priv)) = [(0x100020, false)] := by decide +kernel
/-- R131: outside the trap frame it traps with cause 0x05. -/
theorem test_tret_user : ((run fA (.tret noGuard)).core 0).frames.map (fun f => (f.priv, f.tcause)) = [(true, 0x05)] := by decide +kernel

/-- R133, R296: `RLD` reads the predicates; a compare's result that is on its way traps while `SCHK.EN` is set. -/
theorem test_rld_reads_predicates :
    ((after (exec (.rld noGuard .d false 5 6 1 0) (with_ (ctxR false) coreA { fA with schk := true, pend := [⟨.p 2, 1, 9⟩] }))).core 0).frames.map
      (fun f => f.tcause) = [0x07] := by decide +kernel
/-- R257: a matrix command whose queue is full waits, though it names columns beyond the last. -/
theorem test_full_queue_first :
    let c := coreA.setLane 0 { Lane.reset with mq := List.replicate 4 ⟨cmd, .swap⟩ }
    ((after (exec (.mwl noGuard .w4 (.plain 1) 126 2) (with_ ctxA c fM))).core 0).frames.map (fun f => (f.pc, f.tcause)) = [(0x100008, 0)] := by
  decide +kernel
/-- R245: a chain of no element claims no byte, wherever its pointers stand. -/
theorem test_empty_range_overlaps_nothing : overlap (0x404, 0) (0x400, 8) = false ∧ overlap (0x400, 8) (0x404, 1) = true := by decide
/-- R361: the successors of two digest points that are reached before one seal both wait for it. -/
theorem test_digest_points_add :
    let o : Barrier := { count := 1, early := 0, target := 1, done := 0, phase := 0, dpmask := 3, succ := 3, err := 0, errph := 0 }
    let s := with_ { ctxA with pair := { Pair.reset with pen := true } } coreA fA
    (((s.phaseDone 0 0 0x400 o (0, [])).phaseDone 1 0 0x500 o (1, [(3, 9)])).ctx 0).pair.next.map (fun l => l.map (fun e => (e.1, e.2.2))) =
      some [(0, []), (0, []), (1, [(3, 9)]), (1, [(3, 9)])] := by decide +kernel
/-- R27: a host write to a line may show old bytes to a fetch block that begins in the line before. -/
theorem test_old_code_before :
    let m := memCode.noteOld memCode 0x4001 [0]
    ((m.oldCode 0 0x4000).map List.length, (m.oldCode 0 0x4001).map List.length, m.oldCode 0 0x4002) = ([128], [128], []) := by decide +kernel

/-! ## Ill-formed terms, one for each check of WellFormed -/

theorem test_wellformed : [
    Instr.add noGuard 3 1 2, .ext noGuard true 3 1 0 63, .cmp noGuard .lt .set 0 0 1 2, .loop noGuard 1 0, .lds noGuard true .d false 3 (.step 1 5),
    .fopen noGuard .and .i32 .rn 1 2 3 4, .rld noGuard .w true 1 2 3 0xFFFF0000, .vcvt noGuard false .e4m3 .f32 .rs 1 2 3 (some ⟨1, 2, 3⟩),
    .srd noGuard 3 0x094, .divideComplete 5].all Instr.wf = true := by decide +kernel
theorem test_illformed : [
    Instr.add ⟨0, true, 0⟩ 3 1 2, .ext noGuard true 3 1 1 63, .ins noGuard 3 1 63 1, .cmp noGuard .lt .set 1 1 1 2, .loop noGuard 0 0,
    .lds noGuard false .d false 3 (.step 1 5), .lds noGuard true .d true 3 (.plain 1), .sts noGuard false .w (.step 1 5) 2,
    .ldv noGuard (.step 1 5) 2 0, .stv noGuard (.step 1 5) 2 0, .ld noGuard .d true 3 1 0, .ldd noGuard .e4m3 .rn 1 2 3, .ldd noGuard .f32 .rs 1 2 3,
    .std noGuard .i64 (.plain 1) 2 3, .std noGuard .f32 (.step 1 5) 2 3, .smov noGuard false .w (.plain 1) (.step 2 5),
    .salu noGuard false .add .w (.step 1 5) (.plain 1) (.plain 1), .sflt noGuard true .add .i32 .rn (.plain 1) (.plain 1) (.plain 1),
    .sflt noGuard true .add .f32 .rs (.plain 1) (.plain 1) (.plain 1), .sflt noGuard true .min .f32 .rz (.plain 1) (.plain 1) (.plain 1),
    .sfma noGuard true .e4m3 .rn (.plain 1) (.plain 1) (.plain 1), .fopen noGuard .xor .f32 .rn 1 2 3 4, .fopen noGuard .add .i16 .rn 1 2 3 4,
    .fopen noGuard .max .f32 .rz 1 2 3 4, .fold noGuard (.step 1 5) 1 2 0, .xchgs noGuard false 1 (.step 1 5) 2, .xadds noGuard false 1 (.step 1 5) 2,
    .cass noGuard false 1 (.step 1 5) 2 3, .rld noGuard .d true 1 2 3 2, .rld noGuard .w true 1 2 3 1, .rld noGuard .w true 1 2 3 0x3FFFE,
    .rfold noGuard (.step 1 5) 1 2 0 3].all (fun i => !i.wf) = true := by decide +kernel
theorem test_illformed_numbers : [
    Instr.fadd noGuard .e4m3 .rn 1 2 3, .fadd noGuard .f32 .rs 1 2 3, .fmin noGuard .e5m2 1 2 3, .fabs noGuard .i8 1 2, .fcvt noGuard .f32 .f32 .rn 1 2,
    .fcvt noGuard .f32 .i32 .rn 1 2, .icvtf noGuard .f32 .f16 .rn 1 2, .fcvti noGuard .f32 .f16 .rn 1 2, .fmovi noGuard .f16 1 0x10000,
    .fmovi noGuard .i32 1 0, .vld noGuard false false 1 (.step 1 5), .vst noGuard false false (.step 1 5) 1, .vadd noGuard false true .f32 .rn 1 2 3,
    .vadd noGuard false false .i8 .rz 1 2 3, .vmul noGuard false .e4m3 .rn 1 2 3, .vfma noGuard false .i8 .rn 1 2 3 4,
    .vmin noGuard false true .f32 1 2 3, .vclamp noGuard false true .f32 1 2 3 4, .vminp noGuard false .i8 1 2 3, .vneg noGuard false .w4 1 2,
    .vshl noGuard false .f32 1 2 3, .vcmp noGuard false (.int .lt) .f32 1 2 3, .vcmp noGuard false (.flt .lt) .i8 1 2 3, .vsel noGuard false .w3 1 2 3 4,
    .vred noGuard false .xor .f32 .rn 1 2, .vred noGuard false .minp .i8 .rn 1 2, .vred noGuard false .add .e4m3 .rn 1 2,
    .vdot noGuard false .f32 .i8 .rn 1 2 3, .vdot noGuard false .i32 .i8 .rz 1 2 3, .vcvt noGuard false .e4m3 .f32 .rs 1 2 3 none,
    .vcvt noGuard false .e4m3 .f32 .rn 1 2 4 none, .vcvt noGuard false .f32 .f32 .rn 1 2 0 none].all (fun i => !i.wf) = true := by decide +kernel
theorem test_illformed_units : [
    Instr.vchain noGuard .i8 .f32 .rn (.plain 1) (.plain 1) (.plain 1) 1 2 3 [], .vchain noGuard .f32 .f32 .rn (.plain 1) (.plain 1) (.plain 1) 1 2 3
      (List.replicate 9 (.add, .s1)), .vchain noGuard .f32 .f32 .rn (.plain 1) (.plain 1) (.plain 1) 1 2 3 [(.abs, .c0)],
    .mwl noGuard .bf16 (.plain 1) 0 0, .mmul noGuard .f32 false (.plain 1), .mpass noGuard .bf16 .bf16 false (.plain 1) 1 2 0 0,
    .mweave noGuard .f32 false 1 2 3, .macld noGuard (.step 1 5) 0 0, .macst noGuard .f32 .rs (.plain 1) 0 0 none,
    .macst noGuard .i32 .rn (.plain 1) 0 0 none, .mskew noGuard .w4 1 2, .mwlv noGuard .f32 1 0 0, .cpys noGuard (.step 1 5) 1 2 3 4 ⟨false, 0⟩,
    .cpyc noGuard .max .f32 .rz (.plain 1) 1 2 3 4 ⟨false, 0⟩, .cpyc noGuard .add .i16 .rn (.plain 1) 1 2 3 4 ⟨false, 0⟩,
    .cpyg noGuard (.plain 1) 1 2 3 4 ⟨false, 0⟩ 63 64, .cpyg noGuard (.plain 1) 1 2 3 4 ⟨false, 0⟩ 64 0, .cpyf noGuard (.step 1 5) 1 2 3 4 ⟨false, 0⟩,
    .srd noGuard 3 0x00C, .srd noGuard 3 0x040, .swr noGuard 0x095 3].map Instr.wf = List.replicate 19 false ++ [true, false] := by decide +kernel

end Sys2Proof.Tests
end

section
/-!
SUPPORT. Every step keeps the memories in canonical form: one lemma per operation of the model that changes main memory, host memory or a
scratchpad or hands a state on. `f_padWf` speaks of an operation on a core, `f_memWf` of one on the package, `f_actWf` of an instruction's
body, `execI_keeps` of an instruction as a whole. An operation that keeps the three maps in place needs no unfolding: `State.memWf` of its
result is `State.memWf` of its argument by computation.
-/
namespace Sys2Proof.Laws
open Sys2Proof.Machine

set_option Elab.async false

theorem mem_wf {s : State} (h : s.memWf = true) : s.mem.wf = true := ((memWf_iff s).1 h).1
theorem host_wf {s : State} (h : s.memWf = true) : mapWf 0 s.host.mem = true := ((memWf_iff s).1 h).2.1
theorem pads_wf {s : State} (h : s.memWf = true) : ∀ e ∈ s.cores, mapWf 0 e.2.pad = true := ((memWf_iff s).1 h).2.2

theorem memWf_of_parts {s : State} (hm : s.mem.wf = true) (hh : mapWf 0 s.host.mem = true) (hp : ∀ e ∈ s.cores, mapWf 0 e.2.pad = true) :
    s.memWf = true := (memWf_iff s).2 ⟨hm, hh, hp⟩

theorem Beside.memWf {s t : State} (b : Beside s t) (h : s.memWf = true) : t.memWf = true :=
  memWf_of_eq b.mem (congrArg HostSide.mem b.host) b.cores h

/-- The body of an instruction leaves a state in canonical form, where it leaves one. -/
def Act.Wf : Act → Prop
  | .wait | .trap _ _ => True
  | .pause s | .hold s | .abort s | .go s _ | .leave s => s.memWf = true

/-- A read that goes on or stops leaves a state in canonical form. -/
def Bytes.Wf : Bytes → Prop
  | .ok _ s | .stop s => s.memWf = true
  | .wait | .bad _ _ => True

theorem Bytes.wf_of_eq {r q : Bytes} (e : r = q) (h : Bytes.Wf r) : Bytes.Wf q := e ▸ h

/-- The state an instruction or a step goes on with, where it goes on, is in canonical form. -/
def Keeps (o : Host.Outcome State Fault Refusal) : Prop := ∀ t, o = .next t → t.memWf = true

theorem foldl_memWf {β : Type} {g : State → β → State} (hg : ∀ s b, s.memWf = true → (g s b).memWf = true) (l : List β) :
    ∀ {s : State}, s.memWf = true → (l.foldl g s).memWf = true := by
  induction l with
  | nil => exact id
  | cons b l ih => exact fun h => ih (hg _ b h)

theorem padWf_of_eq {c d : Core} (e : d.pad = c.pad) (h : mapWf 0 c.pad = true) : mapWf 0 d.pad = true := e ▸ h

theorem foldl_padWf {β : Type} {g : Core → β → Core} (hg : ∀ c b, mapWf 0 c.pad = true → mapWf 0 (g c b).pad = true) (l : List β) :
    ∀ {c : Core}, mapWf 0 c.pad = true → mapWf 0 (l.foldl g c).pad = true := by
  induction l with
  | nil => exact id
  | cons b l ih => exact fun h => ih (hg _ b h)

section
variable {p : Prop} [Decidable p]
theorem ite_memWf {s t : State} (h : s.memWf = true) (k : t.memWf = true) : (if p then s else t).memWf = true := by split <;> assumption
theorem ite_padWf {c d : Core} (h : mapWf 0 c.pad = true) (k : mapWf 0 d.pad = true) : mapWf 0 (if p then c else d).pad = true := by
  split <;> assumption
theorem ite_actWf {a b : Act} (h : Act.Wf a) (k : Act.Wf b) : Act.Wf (if p then a else b) := by split <;> assumption
theorem ite_keeps {a b : Host.Outcome State Fault Refusal} (h : Keeps a) (k : Keeps b) : Keeps (if p then a else b) := by
  split <;> assumption
end

section
variable {s : State}

theorem next_keeps (h : s.memWf = true) : Keeps (.next s) := by rintro _ ⟨⟩; exact h

/-- A core may change all but its scratchpad. -/
theorem setCore_same {n : Nat} {c : Core} (h : s.memWf = true) (hc : c.pad = (s.core n).pad) : (s.setCore n c).memWf = true :=
  setCore_memWf s n c (hc ▸ core_pad_wf s n h) h

/-- An operation on a core that keeps the form of its scratchpad. -/
theorem setCore_of {n : Nat} {c : Core} (h : s.memWf = true) (hc : mapWf 0 (s.core n).pad = true → mapWf 0 c.pad = true) :
    (s.setCore n c).memWf = true :=
  setCore_memWf s n c (hc (core_pad_wf s n h)) h

/-- An operation on the lines that keeps their form. -/
theorem setMem_of {m : Memory} (h : s.memWf = true) (hm : s.mem.wf = true → m.wf = true) : (s.setMem m).memWf = true :=
  setMem_memWf s m (hm (mem_wf h)) h

theorem setCtx_memWf {n x} (h : s.memWf = true) : (s.setCtx n x).memWf = true := h
theorem setCluster_memWf {n x} (h : s.memWf = true) : (s.setCluster n x).memWf = true := h
theorem setDie_memWf {n x} (h : s.memWf = true) : (s.setDie n x).memWf = true := h
theorem setQueue_memWf {n x} (h : s.memWf = true) : (s.setQueue n x).memWf = true := h
theorem setFabric_memWf {x} (h : s.memWf = true) : (s.setFabric x).memWf = true := h
theorem fresh_memWf (h : s.memWf = true) : s.fresh.memWf = true := h

theorem post_memWf {src ctx code pay} (h : s.memWf = true) : (s.post src ctx code pay).memWf = true := (post_beside ..).memWf h
theorem refill_memWf {k} (h : s.memWf = true) : (s.refill k).memWf = true := (refill_beside ..).memWf h
theorem endCtx_memWf {n cause ord} (h : s.memWf = true) : (s.endCtx n cause ord).memWf = true := (endCtx_beside ..).memWf h
theorem remoteError_memWf {ctx core peer kind cause addr id} (h : s.memWf = true) :
    (s.remoteError ctx core peer kind cause addr id).memWf = true := (remoteError_beside ..).memWf h
theorem send_memWf {m} (h : s.memWf = true) : (s.send m).memWf = true := (send_beside ..).memWf h

end

/-! ## Operations on a core -/

variable {c : Core}

theorem setLane_padWf {l x} (h : mapWf 0 c.pad = true) : mapWf 0 (c.setLane l x).pad = true := h
theorem setTop_padWf {f} (h : mapWf 0 c.pad = true) : mapWf 0 (c.setTop f).pad = true := h
theorem onFrame_padWf {c : Core} {uid : Nat} {g : Frame → Frame} (h : mapWf 0 c.pad = true) : mapWf 0 (c.onFrame uid g).pad = true := h
theorem setV_padWf {lane n v} (h : mapWf 0 c.pad = true) : mapWf 0 (c.setV lane n v).pad = true := h
theorem setW_padWf {n v} (h : mapWf 0 c.pad = true) : mapWf 0 (c.setW n v).pad = true := h

theorem putReg_padWf {c : Core} {f : Frame} {r : Reg} {v : BitVec 256} (h : mapWf 0 c.pad = true) :
    mapWf 0 (c.putReg f r v).1.pad = true := by
  cases r <;> exact h

theorem commitPend_padWf : ∀ {xs : List Pend} {c : Core} {f : Frame} {kept : List Pend}, mapWf 0 c.pad = true →
    mapWf 0 (commitPend xs c f kept).1.pad = true
  | [], _, _, _, h => h
  | x :: xs, _, _, _, h => by
    unfold commitPend
    split
    · exact commitPend_padWf (putReg_padWf h)
    · exact commitPend_padWf h

theorem tick_padWf : ∀ {k : Nat} {c : Core} {f : Frame}, mapWf 0 c.pad = true → mapWf 0 (tick k c f).1.pad = true
  | 0, _, _, h => h
  | k + 1, _, _, h => by
    unfold tick
    exact tick_padWf (commitPend_padWf h)

theorem spendStall_padWf (h : mapWf 0 c.pad = true) : mapWf 0 (spendStall c).pad = true := by
  unfold spendStall
  split
  · exact h
  · exact padWf_of_eq rfl (tick_padWf h)

theorem flushPend_padWf {f} (h : mapWf 0 c.pad = true) : mapWf 0 (flushPend c f).pad = true := tick_padWf h

theorem padWrite_padWf {a bs} (h : mapWf 0 c.pad = true) : mapWf 0 (c.padWrite a bs).pad = true :=
  padWf_of_eq rfl (mapWf_fsetAll _ _ _ _ h)

theorem countOne_padWf {t0 t1 k} (h : mapWf 0 c.pad = true) : mapWf 0 (c.countOne t0 t1 k).pad = true := ite_padWf h h

theorem countFrom_padWf {e : Exc} {t0 t1 : Word} : ∀ {ks : List Nat} {c : Core}, mapWf 0 c.pad = true →
    mapWf 0 (countFrom e t0 t1 ks c).pad = true
  | [], _, h => h
  | k :: ks, _, h => by
    unfold countFrom
    exact countFrom_padWf (ite_padWf (countOne_padWf h) h)

theorem count_padWf {e t0 t1} (h : mapWf 0 c.pad = true) : mapWf 0 (c.count e t0 t1).pad = true := ite_padWf h (countFrom_padWf h)
theorem advancePos_padWf (h : mapWf 0 c.pad = true) : mapWf 0 c.advancePos.pad = true := ite_padWf h h
theorem issued_padWf (h : mapWf 0 c.pad = true) : mapWf 0 c.issued.pad = true := padWf_of_eq rfl (advancePos_padWf h)

theorem retire_padWf {f fs i hd r} (h : mapWf 0 c.pad = true) : mapWf 0 (c.retire f fs i hd r).pad = true :=
  issued_padWf (count_padWf (padWf_of_eq rfl (tick_padWf h)))

theorem deliver_padWf {uid r v} (h : mapWf 0 c.pad = true) : mapWf 0 (c.deliver uid r v).pad = true := by
  unfold Core.deliver
  split
  · exact h
  · exact onFrame_padWf (putReg_padWf h)

theorem finish_padWf {q v} (h : mapWf 0 c.pad = true) : mapWf 0 (c.finish q v).pad = true := by
  unfold Core.finish
  split
  · exact deliver_padWf h
  · exact h

theorem fcloseDone_padWf (h : mapWf 0 c.pad = true) : mapWf 0 c.fcloseDone.pad = true := foldl_padWf (fun _ _ h1 => finish_padWf h1) _ h
theorem dropAtom_padWf {seq} (h : mapWf 0 c.pad = true) : mapWf 0 (c.dropAtom seq).pad = true := h
theorem returnGrants_padWf (h : mapWf 0 c.pad = true) : mapWf 0 c.returnGrants.pad = true := h

theorem returnKept_padWf (h : mapWf 0 c.pad = true) : mapWf 0 c.returnKept.pad = true := by
  unfold Core.returnKept
  split
  · exact h
  · exact ite_padWf h h

theorem pop_padWf {f fs keep} (h : mapWf 0 c.pad = true) : mapWf 0 (c.pop f fs keep).pad = true := by
  unfold Core.pop
  split
  · exact padWf_of_eq rfl (returnKept_padWf (padWf_of_eq rfl (flushPend_padWf h)))
  · exact ite_padWf (padWf_of_eq rfl (padWf_of_eq rfl (flushPend_padWf h))) (padWf_of_eq rfl (flushPend_padWf h))

theorem csrWrite_padWf {csr v} (h : mapWf 0 c.pad = true) : mapWf 0 (c.csrWrite csr v).pad = true := ite_padWf h (ite_padWf h h)

theorem vldPut_padWf {f q bs} (h : mapWf 0 c.pad = true) : mapWf 0 (c.vldPut f q bs).pad = true := by
  unfold Core.vldPut
  split
  · exact padWf_of_eq rfl (deliver_padWf h)
  all_goals exact h

theorem joined_padWf {ctx id ovfl} : mapWf 0 (c.joined ctx id ovfl).pad = true := by
  unfold Core.joined
  dsimp only
  exact padWf_of_eq rfl (freed_wf _)

theorem longDone_padWf {o} (h : mapWf 0 c.pad = true) : mapWf 0 (c.longDone o).pad = true := by
  unfold Core.longDone
  split
  · split
    · exact onFrame_padWf (setW_padWf (deliver_padWf h))
    · exact deliver_padWf h
  · split <;> exact h

/-! ## Operations on the package, in the order of the model's files -/

variable {s : State}

/-! ### Machine/Ops.lean -/

theorem transmit_memWf {s : State} (h : s.memWf = true) : s.transmit.memWf = true := by
  obtain ⟨d, x, e⟩ := transmit_frame s
  rw [e]
  exact memWf_of_eq rfl rfl rfl h

theorem unreachable_memWf {m} (h : s.memWf = true) : (s.unreachable m).memWf = true :=
  ite_memWf (remoteError_memWf h) (remoteError_memWf h)

theorem pump_memWf {s : State} (h : s.memWf = true) : s.pump.memWf = true := by
  have ht : ∀ x, ({ s with fabric := x }.transmit).memWf = true := fun _ => transmit_memWf (memWf_of_eq rfl rfl rfl h)
  unfold State.pump
  exact foldl_memWf (fun _ _ => unreachable_memWf) _ (ht _)

theorem takeTrap_memWf {n cause after tval t0 t1} (h : s.memWf = true) : (s.takeTrap n cause after tval t0 t1).memWf = true := by
  unfold State.takeTrap
  dsimp only
  split
  · exact h
  · exact ite_memWf (endCtx_memWf h) (setCore_same h rfl)

/-! ### Machine/Issue.lean -/

theorem retire_memWf {n i hd r} (h : s.memWf = true) : (s.retire n i hd r).memWf = true := by
  unfold State.retire
  split
  · exact h
  · exact setCore_of h retire_padWf

theorem trapped_memWf {n i cause tval} (h : s.memWf = true) : (s.trapped n i cause tval).memWf = true :=
  setCore_same (takeTrap_memWf h) rfl

theorem stopped_memWf {n} (h : s.memWf = true) : (s.stopped n).memWf = true := setCore_same h rfl
theorem waitAct_actWf {full g} (ha : Act.Wf g) : Act.Wf (waitAct full g) := ite_actWf trivial ha

theorem next_memWf {a : Act} {s : State} {n : Nat} {i : Instr} {hd : Hdr} (h : s.memWf = true) (ha : Act.Wf a) :
    (a.next s n i hd).memWf = true := by
  cases a with
  | wait => exact stopped_memWf h
  | pause t => exact stopped_memWf ha
  | hold t => exact ha
  | trap cause tval => exact trapped_memWf h
  | abort t => exact stopped_memWf ha
  | go t r => exact retire_memWf ha
  | leave t => exact setCore_memWf _ _ _ (issued_padWf (core_pad_wf _ _ ha)) ha

theorem issueOn_memWf {n : Nat} {i : Instr} {regs wr : List Reg} {priv : Bool} {s : State} {c : Core} {f : Frame} {hd : Hdr} {body : Act}
    (h : s.memWf = true) (hb : Act.Wf body) : (issueOn n i regs wr priv s c f hd body).memWf = true := by
  unfold issueOn
  refine ite_memWf (stopped_memWf h) (ite_memWf (trapped_memWf h) ?_)
  split
  · exact trapped_memWf h
  · split
    · exact trapped_memWf h
    · exact ite_memWf (stopped_memWf h) (ite_memWf (retire_memWf h) (ite_memWf (stopped_memWf h) (next_memWf h hb)))

theorem issue_memWf {i : Instr} {regs wr : List Reg} {priv : Bool} {s : State} {body : Nat → Core → Frame → Act} (h : s.memWf = true)
    (hb : ∀ f, Act.Wf (body s.cur (s.core s.cur) f)) : (issue i regs wr priv s body).memWf = true := by
  unfold issue
  dsimp only
  split
  · exact ite_memWf h (issueOn_memWf h (hb _))
  · exact h

theorem issueRes_memWf {i : Instr} {regs : List Reg} {s : State} {res : Frame → List Write} (h : s.memWf = true) :
    (issueRes i regs s res).memWf = true := issue_memWf h fun _ => h

/-! ### Machine/Starts.lean -/

theorem release_memWf {src ctx st set} (h : s.memWf = true) : (s.release src ctx st set).memWf = true :=
  ite_memWf h (memWf_of_eq rfl rfl rfl h)

/-! ### Machine/Operands.lean -/

theorem dieTlbPut_memWf {d e} (h : s.memWf = true) : (s.dieTlbPut d e).memWf = true := by
  unfold State.dieTlbPut
  dsimp only
  refine ite_memWf (setDie_memWf h) ?_
  split
  · exact ite_memWf (setMem_of (memWf_of_eq rfl rfl rfl h) (dirtyEntry_wf _ _ _)) (memWf_of_eq rfl rfl rfl h)
  · exact memWf_of_eq rfl rfl rfl h

theorem dirtyToDie_memWf {d e} (h : s.memWf = true) : (s.dirtyToDie d e).memWf = true := ite_memWf (dieTlbPut_memWf h) h

theorem coreTlbPut_memWf {n e} (h : s.memWf = true) : (s.coreTlbPut n e).memWf = true := by
  unfold State.coreTlbPut
  dsimp only
  refine ite_memWf (setCore_same h rfl) ?_
  split
  · exact dirtyToDie_memWf (memWf_of_eq rfl rfl rfl (setCore_same h rfl))
  · exact memWf_of_eq rfl rfl rfl (setCore_same h rfl)

theorem translate_memWf {s : State} {n ctx page : Nat} (h : s.memWf = true) : (s.translate n ctx page).2.memWf = true := by
  unfold State.translate
  split
  · exact h
  · split
    · exact coreTlbPut_memWf h
    · split
      · exact h
      · exact h
      · exact coreTlbPut_memWf (dieTlbPut_memWf h)

theorem markDirty_memWf {n ctx page} (h : s.memWf = true) : (s.markDirty n ctx page).memWf = true := setCore_same (translate_memWf h) rfl
theorem endFor_memWf {cause t} (h : s.memWf = true) : (s.endFor cause t).memWf = true := endCtx_memWf h

theorem place_memWf {s : State} {n ctx : Nat} {wr : Bool} {a : Word} {k : Kind} (h : s.memWf = true) :
    (s.place n ctx wr a k).2.memWf = true := by
  unfold State.place
  dsimp only
  split
  · exact h
  · exact h
  · exact h
  · split
    · split
      · exact translate_memWf h
      · split <;> exact translate_memWf h
    · exact translate_memWf h
    · exact translate_memWf h

theorem resolve_memWf {s : State} {n ctx : Nat} {wr : Bool} {a : Word} (h : s.memWf = true) :
    (s.resolve n ctx wr a).2.memWf = true :=
  place_memWf h

theorem placeAll_memWf {n ctx : Nat} {wr : Bool} : ∀ {l : List (Word × Kind)} {s : State}, s.memWf = true →
    (s.placeAll n ctx wr l).2.memWf = true
  | [], _, h => h
  | _ :: _, _, h => by
    unfold State.placeAll
    dsimp only
    split
    · exact placeAll_memWf (place_memWf h)
    · exact place_memWf h
    · exact place_memWf h
    · exact place_memWf h

/-! ### Machine/Bundles.lean -/

theorem trigger_memWf {n r set} (h : s.memWf = true) : (s.trigger n r set).memWf = true :=
  ite_memWf (foldl_memWf (fun _ _ h1 => release_memWf h1) _ (setCore_same h rfl)) h

theorem padStore_memWf {n a bs set} (h : s.memWf = true) : (s.padStore n a bs set).memWf = true :=
  trigger_memWf (setCore_of h padWrite_padWf)

theorem leaveOne_memWf {n b set e} (h : s.memWf = true) : (s.leaveOne n b set e).memWf = true := by
  unfold State.leaveOne
  dsimp only
  split
  · exact release_memWf h
  · exact ite_memWf (setCore_same h rfl) h
  · exact ite_memWf (setCore_same h rfl) h
  · split
    · exact trigger_memWf (setCore_same h rfl)
    · exact setCore_same h rfl
  · exact fresh_memWf (send_memWf h)

theorem leaveOf_memWf {n b} (h : s.memWf = true) : (s.leaveOf n b).memWf = true := by
  unfold State.leaveOf
  refine ite_memWf ?_ h
  split
  · exact h
  · exact foldl_memWf (fun _ _ h1 => leaveOne_memWf h1) _ (setCore_same h rfl)

theorem progress_memWf {n} (h : s.memWf = true) : (s.progress n).memWf = true :=
  setCore_same (foldl_memWf (fun _ _ h1 => leaveOf_memWf h1) _ (foldl_memWf (fun _ _ h1 => send_memWf h1) _ (setMem_of (setCore_of h (fun
    h1 => padWf_of_eq rfl (fcloseDone_padWf h1))) (fun _ => fcloseDone_wf _ _ (mem_wf h))))) rfl

theorem sendLines_memWf {n b} (h : s.memWf = true) : (s.sendLines n b).memWf = true := by
  unfold State.sendLines
  refine foldl_memWf (fun _ _ h1 => ?_) _ h
  split
  · exact send_memWf h1
  · exact h1

theorem seqAct_actWf {c : Core} {g} (ha : Act.Wf g) : Act.Wf (c.seqAct g) := ite_actWf trivial ha

theorem atomBundle_memWf {n f cas line} (h : s.memWf = true) : (s.atomBundle n f cas line).memWf = true :=
  fresh_memWf (setCore_same h rfl)

theorem addClosed_memWf {n b} (h : s.memWf = true) : (s.addClosed n b).memWf = true :=
  sendLines_memWf (foldl_memWf (fun _ _ h1 => markDirty_memWf h1) _ (fresh_memWf (setCore_same h rfl)))

theorem closeTop_memWf {n sc} (h : s.memWf = true) : (s.closeTop n sc).memWf = true := by
  unfold State.closeTop
  dsimp only
  split
  · exact h
  · exact progress_memWf (addClosed_memWf (setCore_same h rfl))

theorem commandDone_memWf {n id} (h : s.memWf = true) : (s.commandDone n id).memWf = true := progress_memWf (setCore_same h rfl)
theorem reqAct_actWf {c : Core} {k g} (ha : Act.Wf g) : Act.Wf (c.reqAct k g) := ite_actWf trivial ha

/-! ### Machine/Frames.lean -/

theorem spillOne_memWf {n f} (h : s.memWf = true) : (s.spillOne n f).memWf = true :=
  ite_memWf (setCore_of h (fun h1 => onFrame_padWf (padWf_of_eq rfl (padWrite_padWf h1)))) (ite_memWf (setCore_same (setMem_of h
    (physWrite_wf _ _ _)) rfl) (endCtx_memWf h))

theorem freeWindow_memWf {n f} (h : s.memWf = true) : (s.freeWindow n f).memWf = true := by
  unfold State.freeWindow
  split
  · exact h
  · exact setCore_of h fun h1 => padWf_of_eq rfl (padWrite_padWf h1)
  · exact ite_memWf (endCtx_memWf h) (setCore_same (setMem_of h (physWrite_wf _ _ _)) rfl)

theorem spillFor_memWf {n w : Nat} : ∀ {k : Nat} {s t : State}, s.spillFor n w k = some t → s.memWf = true → t.memWf = true
  | 0, s, t, e, h => by
    unfold State.spillFor at e
    split at e
    · cases e; exact h
    · cases e
  | k + 1, s, t, e, h => by
    unfold State.spillFor at e
    dsimp only at e
    split at e
    · cases e; exact h
    · split at e
      · split at e
        · exact spillFor_memWf e (spillOne_memWf h)
        · cases e; exact spillOne_memWf h
      · cases e

theorem fillTop_memWf {n} (h : s.memWf = true) : (s.fillTop n).memWf = true := by
  unfold State.fillTop
  dsimp only
  split
  · exact h
  · split
    · exact h
    · exact freeWindow_memWf (setCore_same h rfl)
    · exact ite_memWf (endCtx_memWf h) (freeWindow_memWf (setCore_same h rfl))

theorem takeTask_memWf {s t : State} {n : Nat} {k : Task} (e : s.takeTask n k = some t) (h : s.memWf = true) : t.memWf = true := by
  unfold State.takeTask at e
  dsimp only at e
  split at e
  · cases e
  · split at e
    · cases e
    · have h1 := spillFor_memWf ‹_› h
      split at e
      · cases e; exact h1
      · split at e
        · cases e
          exact setCtx_memWf (fresh_memWf (setCore_same h1 rfl))
        · split at e
          · cases e
          · cases e
            exact setCtx_memWf (fresh_memWf (setCore_memWf _ _ _
              (foldl_padWf (fun c b => zeroRange_wf c b _ _) _ (core_pad_wf _ _ h1)) h1))

theorem popTop_memWf {n keep} (h : s.memWf = true) : (s.popTop n keep).memWf = true := by
  unfold State.popTop
  split
  · exact h
  · exact setMem_of (setCore_of (freeWindow_memWf h) pop_padWf) fun h1 => unprotect_wf _ _ (mem_wf (freeWindow_memWf h))

theorem dropTop_memWf {n} (h : s.memWf = true) : (s.dropTop n).memWf = true := by
  unfold State.dropTop
  dsimp only
  split
  · exact h
  · exact popTop_memWf (setCore_same h rfl)

theorem recordFault_memWf {w} (h : s.memWf = true) : (s.recordFault w).memWf = true := by
  unfold State.recordFault
  dsimp only
  split
  · exact setCtx_memWf h
  · split
    · exact post_memWf (setCtx_memWf h)
    · exact setCtx_memWf h

/-! ### Machine/Offers.lean -/

theorem offers_memWf {k} (h : s.memWf = true) : (s.offers k).memWf = true := setCluster_memWf h

theorem enter_memWf {k r} (h : s.memWf = true) : (s.enter k r).memWf = true :=
  ite_memWf (offers_memWf (memWf_of_eq rfl rfl rfl h)) (setCluster_memWf h)

theorem returnOffer_memWf {n} (h : s.memWf = true) : (s.returnOffer n).memWf = true := setCluster_memWf (setCore_same h rfl)
theorem takeOffer_memWf {n} (h : s.memWf = true) : (s.takeOffer n).memWf = true := refill_memWf (setCluster_memWf (setCore_same h rfl))

theorem admitStep_memWf {s : State} {n : Nat} (h : s.memWf = true) : (s.admitStep n).1.memWf = true := by
  unfold State.admitStep
  split
  · exact h
  · split
    · split
      · exact offers_memWf (takeOffer_memWf (takeTask_memWf ‹_› h))
      · exact h
    · exact offers_memWf (returnOffer_memWf h)

theorem pageFault_memWf {n page} (h : s.memWf = true) : (s.pageFault n page).memWf = true := by
  unfold State.pageFault
  split
  · exact h
  · exact ite_memWf (endCtx_memWf h) (offers_memWf (ite_memWf (recordFault_memWf (dropTop_memWf h)) (dropTop_memWf h)))

theorem viewTooOld_memWf {n} (h : s.memWf = true) : (s.viewTooOld n).memWf = true := by
  unfold State.viewTooOld
  split
  · exact h
  · exact ite_memWf (endCtx_memWf h) (offers_memWf (ite_memWf (enter_memWf (dropTop_memWf h)) (dropTop_memWf h)))

theorem viewTooOldOf_memWf {n uid} (h : s.memWf = true) : (s.viewTooOldOf n uid).memWf = true := by
  unfold State.viewTooOldOf
  dsimp only
  split
  · exact ite_memWf (viewTooOld_memWf h) (setCore_same h rfl)
  · exact h

theorem resAct_actWf {n f r a} (h : s.memWf = true) : Act.Wf (resAct s n f r a) := by
  unfold resAct
  split
  · exact trivial
  · exact trivial
  · exact pageFault_memWf h
  · exact endFor_memWf h

/-! ### Machine/Teardown.lean -/

theorem discardPending_memWf {n} (h : s.memWf = true) : (s.discardPending n).memWf = true :=
  foldl_memWf (fun _ _ h1 => foldl_memWf (fun _ _ h2 => send_memWf h2) _ h1) _ (setMem_of h (discardOf_wf _ _ _))

theorem harvest_memWf {s : State} {p : Tlb → Bool} (h : s.memWf = true) : (s.harvest p).memWf = true := by
  have back : ∀ (root : Nat → Nat) (m : Memory) (l : List Tlb), m.wf = true → (m.writeBack root l p).wf = true :=
    fun root m l => writeBack_wf m root l p
  unfold State.harvest
  refine memWf_of_parts (foldl_wf _ (fun m e => back _ m _) _ _ (foldl_wf _ (fun m e => back _ m _) _ _ (mem_wf h))) (host_wf h :)
    fun e he => ?_
  obtain ⟨x, hx, rfl⟩ := List.mem_map.1 he
  exact pads_wf h x hx

theorem trimCores_padWf : ∀ {m : FMap Core}, (∀ e ∈ m, mapWf 0 e.2.pad = true) → ∀ e ∈ trimCores m, mapWf 0 e.2.pad = true
  | [], h => h
  | x :: m, h => by
    intro e he
    rcases fset_mem _ _ _ _ e he with rfl | he
    · exact h x List.mem_cons_self
    · exact trimCores_padWf (fun e he => h e (List.mem_cons_of_mem _ he)) e he

theorem invalidate_memWf {s : State} {p : Tlb → Bool} (h : s.memWf = true) : (s.invalidate p).memWf = true := by
  have h1 : (s.harvest p).memWf = true := harvest_memWf h
  unfold State.invalidate
  refine memWf_of_parts (mem_wf h1 :) (host_wf h1 :) (trimCores_padWf fun e he => ?_)
  obtain ⟨x, hx, rfl⟩ := List.mem_map.1 he
  exact pads_wf h1 x hx

theorem finishTeardown_memWf {s : State} {k : Nat} (h : s.memWf = true) : (s.finishTeardown k).memWf = true := by
  have h1 : ((s.ctx k).cores.foldl State.discardPending s).memWf = true := foldl_memWf (fun _ _ hs => discardPending_memWf hs) _ h
  have h3 := foldl_memWf (fun s n hs => setCore_memWf s n _ (freed_wf (s.core n)) hs) (s.ctx k).cores
    (invalidate_memWf (p := fun e => e.ctx == k) h1)
  have hm := foldl_wf _ (fun m v => zeroVault_wf m v) (s.ctx k).vaults _ (discardEpoch_wf _ k (mem_wf h3))
  unfold State.finishTeardown
  exact ite_memWf h (foldl_memWf (fun _ _ hs => offers_memWf hs) _ (setCtx_memWf (memWf_of_parts hm (host_wf h3 :) (pads_wf h3 :))))

theorem tearCore_memWf {n} (h : s.memWf = true) : (s.tearCore n).memWf = true := by
  unfold State.tearCore
  split
  · exact h
  · exact ite_memWf (finishTeardown_memWf (setCore_same h rfl)) h

/-! ### Machine/Window.lean -/

/-- Reading a line changes the reader's frame alone. -/
theorem readLine_memWf {s t : State} {n : Nat} {f : Frame} {k key : Nat} {v : Version} (e : s.readLine n f k key = .ok v t)
    (h : s.memWf = true) : t.memWf = true := by
  have lacking : ∀ w, f.lacking w ≠ .ok v t := fun w => by unfold Frame.lacking; split <;> simp
  unfold State.readLine at e
  split at e
  · cases e
  · split at e
    · split at e
      · exact absurd e (lacking _)
      · cases e; exact setCore_same h rfl
    · exact absurd e (lacking _)
    · cases e

theorem readCut_wf {n : Nat} : ∀ {ps : List (Nat × Nat)} {s : State}, s.memWf = true → Bytes.Wf (s.readCut n ps)
  | [], _, h => h
  | p :: ps, s, h => by
    unfold State.readCut
    split
    · trivial
    · dsimp only
      split
      · trivial
      · exact pageFault_memWf (resolve_memWf h)
      · exact endFor_memWf (resolve_memWf h)
      · split
        · next e => exact (Bytes.wf_of_eq e (readCut_wf (resolve_memWf h)) :)
        · exact readCut_wf (resolve_memWf h)
      · split
        · trivial
        · split
          · trivial
          · exact viewTooOld_memWf (resolve_memWf h)
          · exact endCtx_memWf (resolve_memWf h)
          · next e =>
            split
            · next e1 => exact (Bytes.wf_of_eq e1 (readCut_wf (readLine_memWf e (resolve_memWf h))) :)
            · exact readCut_wf (readLine_memWf e (resolve_memWf h))

theorem readParts_wf {s : State} {n : Nat} {ps : List (Nat × Nat)} (h : s.memWf = true) : Bytes.Wf (s.readParts n ps) := by
  unfold State.readParts
  split
  · trivial
  · exact readCut_wf h

/-! ### Machine/Fetch.lean -/

theorem blockBytes_memWf {s : State} {k : Nat} {p : Place} {a : Word} (h : s.memWf = true) : (s.blockBytes k p a).2.memWf = true := by
  unfold State.blockBytes
  dsimp only
  split
  · split
    · exact h
    · exact memWf_of_eq rfl rfl rfl h
  · exact h

theorem fetch_memWf {s : State} {n : Nat} {f : Frame} (h : s.memWf = true) : (s.fetch n f).2.memWf = true := by
  unfold State.fetch
  dsimp only
  split
  · exact h
  · split
    · exact h
    · split
      · split
        · exact resolve_memWf h
        · exact blockBytes_memWf (resolve_memWf h)
      all_goals exact resolve_memWf h

/-! ### Machine/Boundary.lean -/

theorem enterDue_memWf {n} (h : s.memWf = true) : (s.enterDue n).memWf = true :=
  ite_memWf h (foldl_memWf (fun _ _ h1 => takeTrap_memWf h1) _ (setCore_same h rfl))

@[simp] theorem execExceptionThreshold_keeps {core k} (h : s.memWf = true) : Keeps (execExceptionThreshold core k s) := by
  unfold execExceptionThreshold
  dsimp only
  split
  · exact next_keeps h
  · exact next_keeps (ite_memWf (post_memWf (setCore_of h (fun h1 => ite_padWf h1 h1))) (setCore_of h (fun h1 => ite_padWf h1 h1)))

@[simp] theorem execExceptionWindowEnd_keeps {core} (h : s.memWf = true) : Keeps (execExceptionWindowEnd core s) :=
  next_keeps (ite_memWf (setCore_same h rfl) h)

theorem haltCore_memWf {n reason} (h : s.memWf = true) : (s.haltCore n reason).memWf = true :=
  offers_memWf (returnOffer_memWf (post_memWf (setCore_same h rfl)))

theorem haltStep_memWf {n} (h : s.memWf = true) : (s.haltStep n).memWf = true := by
  unfold State.haltStep
  dsimp only
  split
  · split
    · exact haltCore_memWf h
    · exact h
  · split
    · exact haltCore_memWf (setCore_same h rfl)
    · exact setCore_same h rfl

theorem pass_memWf {n} (h : s.memWf = true) : (s.pass n).memWf = true :=
  ite_memWf (setCore_same (ite_memWf h (fillTop_memWf h)) rfl) (ite_memWf h (fillTop_memWf h))

theorem takeDeferred_memWf {n} (h : s.memWf = true) : (s.takeDeferred n).memWf = true := by
  unfold State.takeDeferred
  split
  · exact ite_memWf (viewTooOld_memWf h) h
  · exact h

@[simp] theorem execInstructionBoundary_keeps {core} (h : s.memWf = true) : Keeps (execInstructionBoundary core s) :=
  ite_keeps (next_keeps h) (ite_keeps (next_keeps (tearCore_memWf h)) (ite_keeps (next_keeps (pass_memWf (haltStep_memWf (admitStep_memWf
    (enterDue_memWf (takeDeferred_memWf (tearCore_memWf h))))))) (next_keeps (admitStep_memWf (enterDue_memWf (takeDeferred_memWf
    (tearCore_memWf h)))))))

/-! ### Machine/Int.lean -/

theorem intRes_keeps {i regs d lat v} (h : s.memWf = true) : Keeps (intRes i regs d lat v s) := next_keeps (issueRes_memWf h)
@[simp] theorem execNop_keeps {hd x} (h : s.memWf = true) : Keeps (execNop hd x s) := next_keeps (issueRes_memWf h)
@[simp] theorem execAdd_keeps {hd d a b} (h : s.memWf = true) : Keeps (execAdd hd d a b s) := intRes_keeps h
@[simp] theorem execAddi_keeps {hd d a imm} (h : s.memWf = true) : Keeps (execAddi hd d a imm s) := intRes_keeps h
@[simp] theorem execSub_keeps {hd d a b} (h : s.memWf = true) : Keeps (execSub hd d a b s) := intRes_keeps h
@[simp] theorem execMul_keeps {hd d a b} (h : s.memWf = true) : Keeps (execMul hd d a b s) := intRes_keeps h
@[simp] theorem execMulh_keeps {hd u d a b} (h : s.memWf = true) : Keeps (execMulh hd u d a b s) := intRes_keeps h

theorem divIssue_keeps {i d a b v} (h : s.memWf = true) : Keeps (divIssue i d a b v s) :=
  next_keeps (issue_memWf h (fun _ => ite_actWf trivial (setCore_same h rfl)))

@[simp] theorem execDiv_keeps {hd u d a b} (h : s.memWf = true) : Keeps (execDiv hd u d a b s) := divIssue_keeps h
@[simp] theorem execRem_keeps {hd u d a b} (h : s.memWf = true) : Keeps (execRem hd u d a b s) := divIssue_keeps h

@[simp] theorem execDivideComplete_keeps {core} (h : s.memWf = true) : Keeps (execDivideComplete core s) := by
  unfold execDivideComplete
  dsimp only
  split
  · exact next_keeps h
  · exact next_keeps (setCore_of h (fun h1 => deliver_padWf h1))

@[simp] theorem execAnd_keeps {hd d a b} (h : s.memWf = true) : Keeps (execAnd hd d a b s) := intRes_keeps h
@[simp] theorem execOr_keeps {hd d a b} (h : s.memWf = true) : Keeps (execOr hd d a b s) := intRes_keeps h
@[simp] theorem execXor_keeps {hd d a b} (h : s.memWf = true) : Keeps (execXor hd d a b s) := intRes_keeps h
@[simp] theorem execAndn_keeps {hd d a b} (h : s.memWf = true) : Keeps (execAndn hd d a b s) := intRes_keeps h
@[simp] theorem execShl_keeps {hd d a b} (h : s.memWf = true) : Keeps (execShl hd d a b s) := intRes_keeps h
@[simp] theorem execShr_keeps {hd d a b} (h : s.memWf = true) : Keeps (execShr hd d a b s) := intRes_keeps h
@[simp] theorem execSar_keeps {hd d a b} (h : s.memWf = true) : Keeps (execSar hd d a b s) := intRes_keeps h
@[simp] theorem execRot_keeps {hd d a b} (h : s.memWf = true) : Keeps (execRot hd d a b s) := intRes_keeps h
@[simp] theorem execShli_keeps {hd d a n} (h : s.memWf = true) : Keeps (execShli hd d a n s) := intRes_keeps h
@[simp] theorem execShri_keeps {hd d a n} (h : s.memWf = true) : Keeps (execShri hd d a n s) := intRes_keeps h
@[simp] theorem execSari_keeps {hd d a n} (h : s.memWf = true) : Keeps (execSari hd d a n s) := intRes_keeps h
@[simp] theorem execMovi_keeps {hd d imm} (h : s.memWf = true) : Keeps (execMovi hd d imm s) := intRes_keeps h
@[simp] theorem execMoviD_keeps {hd d imm} (h : s.memWf = true) : Keeps (execMoviD hd d imm s) := intRes_keeps h
@[simp] theorem execMin_keeps {hd u d a b} (h : s.memWf = true) : Keeps (execMin hd u d a b s) := intRes_keeps h
@[simp] theorem execMax_keeps {hd u d a b} (h : s.memWf = true) : Keeps (execMax hd u d a b s) := intRes_keeps h
@[simp] theorem execAbs_keeps {hd d a} (h : s.memWf = true) : Keeps (execAbs hd d a s) := intRes_keeps h
@[simp] theorem execClz_keeps {hd d a} (h : s.memWf = true) : Keeps (execClz hd d a s) := intRes_keeps h
@[simp] theorem execPopc_keeps {hd d a} (h : s.memWf = true) : Keeps (execPopc hd d a s) := intRes_keeps h
@[simp] theorem execExt_keeps {hd sx d a lo wm1} (h : s.memWf = true) : Keeps (execExt hd sx d a lo wm1 s) := intRes_keeps h
@[simp] theorem execIns_keeps {hd d a lo wm1} (h : s.memWf = true) : Keeps (execIns hd d a lo wm1 s) := intRes_keeps h
@[simp] theorem execSel_keeps {hd d c a b} (h : s.memWf = true) : Keeps (execSel hd d c a b s) := intRes_keeps h
@[simp] theorem execLea_keeps {hd d a b k disp} (h : s.memWf = true) : Keeps (execLea hd d a b k disp s) := intRes_keeps h
@[simp] theorem execAdds_keeps {hd u d a b} (h : s.memWf = true) : Keeps (execAdds hd u d a b s) := intRes_keeps h
@[simp] theorem execMad_keeps {hd d a b c} (h : s.memWf = true) : Keeps (execMad hd d a b c s) := intRes_keeps h

@[simp] theorem execHops_keeps {hd d a b} (h : s.memWf = true) : Keeps (execHops hd d a b s) :=
  next_keeps (issue_memWf h (fun _ => ite_actWf trivial h))

@[simp] theorem execCmp_keeps {hd cond comb d c a b} (h : s.memWf = true) : Keeps (execCmp hd cond comb d c a b s) :=
  next_keeps (issueRes_memWf h)

@[simp] theorem execCmpi_keeps {hd cond comb d a imm} (h : s.memWf = true) : Keeps (execCmpi hd cond comb d a imm s) :=
  next_keeps (issueRes_memWf h)

theorem predRes_keeps {i regs d v} (h : s.memWf = true) : Keeps (predRes i regs d v s) := next_keeps (issueRes_memWf h)
@[simp] theorem execPand_keeps {hd n d a b} (h : s.memWf = true) : Keeps (execPand hd n d a b s) := predRes_keeps h
@[simp] theorem execPor_keeps {hd n d a b} (h : s.memWf = true) : Keeps (execPor hd n d a b s) := predRes_keeps h
@[simp] theorem execPxor_keeps {hd n d a b} (h : s.memWf = true) : Keeps (execPxor hd n d a b s) := predRes_keeps h
@[simp] theorem execPnot_keeps {hd d a} (h : s.memWf = true) : Keeps (execPnot hd d a s) := predRes_keeps h
@[simp] theorem execPset_keeps {hd d v} (h : s.memWf = true) : Keeps (execPset hd d v s) := predRes_keeps h
@[simp] theorem execPtest_keeps {hd d a bit} (h : s.memWf = true) : Keeps (execPtest hd d a bit s) := predRes_keeps h
@[simp] theorem execPget_keeps {hd d} (h : s.memWf = true) : Keeps (execPget hd d s) := intRes_keeps h
@[simp] theorem execPput_keeps {hd a mask} (h : s.memWf = true) : Keeps (execPput hd a mask s) := next_keeps (issueRes_memWf h)

/-! ### Machine/Float.lean -/

theorem fltRes_keeps {i regs d lat v} (h : s.memWf = true) : Keeps (fltRes i regs d lat v s) := next_keeps (issue_memWf h (fun _ => h))

theorem fdivIssue_keeps {i regs d v} (h : s.memWf = true) : Keeps (fdivIssue i regs d v s) :=
  next_keeps (issue_memWf h (fun _ => ite_actWf trivial (setCore_same h rfl)))

@[simp] theorem execFadd_keeps {hd f r d a b} (h : s.memWf = true) : Keeps (execFadd hd f r d a b s) := fltRes_keeps h
@[simp] theorem execFsub_keeps {hd f r d a b} (h : s.memWf = true) : Keeps (execFsub hd f r d a b s) := fltRes_keeps h
@[simp] theorem execFmul_keeps {hd f r d a b} (h : s.memWf = true) : Keeps (execFmul hd f r d a b s) := fltRes_keeps h
@[simp] theorem execFdiv_keeps {hd f r d a b} (h : s.memWf = true) : Keeps (execFdiv hd f r d a b s) := fdivIssue_keeps h
@[simp] theorem execFsqrt_keeps {hd f r d a} (h : s.memWf = true) : Keeps (execFsqrt hd f r d a s) := fdivIssue_keeps h
@[simp] theorem execFfma_keeps {hd f r d a b c} (h : s.memWf = true) : Keeps (execFfma hd f r d a b c s) := fltRes_keeps h
@[simp] theorem execFmin_keeps {hd f d a b} (h : s.memWf = true) : Keeps (execFmin hd f d a b s) := fltRes_keeps h
@[simp] theorem execFmax_keeps {hd f d a b} (h : s.memWf = true) : Keeps (execFmax hd f d a b s) := fltRes_keeps h
@[simp] theorem execFminp_keeps {hd f d a b} (h : s.memWf = true) : Keeps (execFminp hd f d a b s) := fltRes_keeps h
@[simp] theorem execFmaxp_keeps {hd f d a b} (h : s.memWf = true) : Keeps (execFmaxp hd f d a b s) := fltRes_keeps h
@[simp] theorem execFabs_keeps {hd f d a} (h : s.memWf = true) : Keeps (execFabs hd f d a s) := fltRes_keeps h
@[simp] theorem execFneg_keeps {hd f d a} (h : s.memWf = true) : Keeps (execFneg hd f d a s) := fltRes_keeps h

@[simp] theorem execFcmp_keeps {hd cond f d a b} (h : s.memWf = true) : Keeps (execFcmp hd cond f d a b s) :=
  next_keeps (issue_memWf h (fun _ => h))

@[simp] theorem execFclass_keeps {hd f d a} (h : s.memWf = true) : Keeps (execFclass hd f d a s) := fltRes_keeps h
@[simp] theorem execFcvt_keeps {hd dst src r d a} (h : s.memWf = true) : Keeps (execFcvt hd dst src r d a s) := fltRes_keeps h
@[simp] theorem execIcvtf_keeps {hd dst src r d a} (h : s.memWf = true) : Keeps (execIcvtf hd dst src r d a s) := fltRes_keeps h
@[simp] theorem execFcvti_keeps {hd dst src r d a} (h : s.memWf = true) : Keeps (execFcvti hd dst src r d a s) := fltRes_keeps h
@[simp] theorem execFmovi_keeps {hd f d imm} (h : s.memWf = true) : Keeps (execFmovi hd f d imm s) := fltRes_keeps h
@[simp] theorem execFrnd_keeps {hd f r d a} (h : s.memWf = true) : Keeps (execFrnd hd f r d a s) := fltRes_keeps h
@[simp] theorem execFscale_keeps {hd f r d a b} (h : s.memWf = true) : Keeps (execFscale hd f r d a b s) := fltRes_keeps h

@[simp] theorem execFpDivideUnitComplete_keeps {core} (h : s.memWf = true) : Keeps (execFpDivideUnitComplete core s) := by
  unfold execFpDivideUnitComplete
  dsimp only
  split
  · exact next_keeps h
  · exact next_keeps (setCore_of h (fun h1 => deliver_padWf h1))

/-! ### Machine/Mem.lean -/

theorem act_actWf {α : Type} {x : Chk α} {g : α → Act} (hg : ∀ a, Act.Wf (g a)) : Act.Wf (x.act g) := by
  cases x with
  | ok v => exact hg v
  | trap c t => trivial

theorem withAddr_actWf {s : State} {n : Nat} {f : Frame} {wr : Bool} {a : Word} {al : Nat} {g : Place → State → Act} (h : s.memWf = true)
    (hg : ∀ p t, t.memWf = true → Act.Wf (g p t)) : Act.Wf (s.withAddr n f wr a al g) := by
  unfold State.withAddr
  dsimp only
  refine act_actWf fun _ => ?_
  split
  · exact hg _ _ (place_memWf h)
  all_goals exact resAct_actWf (place_memWf h)

theorem onLine_actWf {p : Place} {g : Nat → Nat → Option Nat → Act} (hg : ∀ key off page, Act.Wf (g key off page)) :
    Act.Wf (p.onLine g) := by
  unfold Place.onLine
  split
  · exact hg _ _ _
  · exact trivial

theorem padAct_actWf {c reads writes g} (ha : Act.Wf g) : Act.Wf (padAct c reads writes g) := ite_actWf trivial ha
theorem guardedWrite_memWf {n f a len} (h : s.memWf = true) : (s.guardedWrite n f a len).memWf = true := setCore_same h rfl
theorem instrStore_memWf {n f a bs} (h : s.memWf = true) : (s.instrStore n f a bs).memWf = true := padStore_memWf (guardedWrite_memWf h)

@[simp] theorem execLds_keeps {hd x sz sx d p} (h : s.memWf = true) : Keeps (execLds hd x sz sx d p s) :=
  next_keeps (issue_memWf h (fun _ => act_actWf (fun _ => padAct_actWf h)))

@[simp] theorem execSts_keeps {hd x sz p a} (h : s.memWf = true) : Keeps (execSts hd x sz p a s) :=
  next_keeps (issue_memWf h (fun _ => act_actWf (fun _ => padAct_actWf (instrStore_memWf h))))

theorem padOp_keeps {i n p qs rmw v} (h : s.memWf = true) : Keeps (padOp i n p qs rmw v s) :=
  next_keeps (issue_memWf h (fun _ => act_actWf (fun _ => padAct_actWf (instrStore_memWf h))))

@[simp] theorem execSmov_keeps {hd x sz p q} (h : s.memWf = true) : Keeps (execSmov hd x sz p q s) := padOp_keeps h
@[simp] theorem execSalu_keeps {hd x op sz p q r} (h : s.memWf = true) : Keeps (execSalu hd x op sz p q r s) := padOp_keeps h
@[simp] theorem execSflt_keeps {hd x op f rnd p q r} (h : s.memWf = true) : Keeps (execSflt hd x op f rnd p q r s) := padOp_keeps h
@[simp] theorem execSfma_keeps {hd x f rnd p q r} (h : s.memWf = true) : Keeps (execSfma hd x f rnd p q r s) := padOp_keeps h

theorem padAtomic_keeps {i regs wide d p new} (h : s.memWf = true) : Keeps (padAtomic i regs wide d p new s) := by
  unfold padAtomic
  dsimp only
  refine next_keeps (issue_memWf h (fun _ => act_actWf (fun _ => padAct_actWf ?_)))
  split
  · exact instrStore_memWf h
  · exact h

@[simp] theorem execXchgs_keeps {hd wide d p b} (h : s.memWf = true) : Keeps (execXchgs hd wide d p b s) := padAtomic_keeps h
@[simp] theorem execCass_keeps {hd wide d p b c} (h : s.memWf = true) : Keeps (execCass hd wide d p b c s) := padAtomic_keeps h
@[simp] theorem execXadds_keeps {hd wide d p b} (h : s.memWf = true) : Keeps (execXadds hd wide d p b s) := padAtomic_keeps h

theorem request_memWf {n f dst inside k} (h : s.memWf = true) : (s.request n f dst inside k).memWf = true :=
  fresh_memWf (setCore_same h rfl)

theorem ask_memWf {n f d k} (h : s.memWf = true) : (s.ask n f d k).memWf = true := request_memWf (setCore_same h rfl)
theorem askAct_actWf {n f d k} (h : s.memWf = true) : Act.Wf (s.askAct n f d k) := reqAct_actWf (ask_memWf h)

@[simp] theorem execLd_keeps {hd sz sx d a disp} (h : s.memWf = true) : Keeps (execLd hd sz sx d a disp s) :=
  next_keeps (issue_memWf h (fun _ => withAddr_actWf h (fun _ _ h1 => askAct_actWf h1)))

@[simp] theorem execLdtag_keeps {hd d a} (h : s.memWf = true) : Keeps (execLdtag hd d a s) := by
  unfold execLdtag
  refine next_keeps (issue_memWf h (fun _ => withAddr_actWf h (fun _ _ h1 => ?_)))
  split <;> exact askAct_actWf h1

@[simp] theorem execLdv_keeps {hd p a disp} (h : s.memWf = true) : Keeps (execLdv hd p a disp s) :=
  next_keeps (issue_memWf h (fun _ => act_actWf (fun _ => withAddr_actWf h (fun _ _ h1 => padAct_actWf (reqAct_actWf (request_memWf
    h1))))))

@[simp] theorem execLdd_keeps {hd f r d a b} (h : s.memWf = true) : Keeps (execLdd hd f r d a b s) := by
  unfold execLdd
  refine next_keeps (issue_memWf h (fun _ => withAddr_actWf h (fun _ _ h1 => ?_)))
  split
  · exact act_actWf fun _ => reqAct_actWf (ask_memWf h1)
  · refine ite_actWf trivial ?_
    split
    · exact trivial
    · exact viewTooOld_memWf h1
    · exact endCtx_memWf h1
    · exact act_actWf fun _ => reqAct_actWf (ask_memWf (readLine_memWf ‹_› h1))

theorem bundlePut_actWf {n f ls r} (h : s.memWf = true) : Act.Wf (s.bundlePut n f ls r) := by
  unfold State.bundlePut
  split
  · exact trivial
  · exact setCore_same h rfl

@[simp] theorem execSt_keeps {hd sz a b disp} (h : s.memWf = true) : Keeps (execSt hd sz a b disp s) :=
  next_keeps (issue_memWf h (fun _ => withAddr_actWf h (fun _ _ h1 => onLine_actWf (fun _ _ _ => bundlePut_actWf h1))))

theorem lineStore_keeps {i regs p ad std} (h : s.memWf = true) : Keeps (lineStore i regs p ad std s) :=
  next_keeps (issue_memWf h (fun _ => act_actWf (fun _ => withAddr_actWf h (fun _ _ h1 => padAct_actWf (onLine_actWf (fun _ _ _ =>
    bundlePut_actWf h1))))))

@[simp] theorem execStv_keeps {hd p a disp} (h : s.memWf = true) : Keeps (execStv hd p a disp s) := lineStore_keeps h
@[simp] theorem execStd_keeps {hd f p a b} (h : s.memWf = true) : Keeps (execStd hd f p a b s) := lineStore_keeps h

@[simp] theorem execBclose_keeps {hd sc} (h : s.memWf = true) : Keeps (execBclose hd sc s) :=
  next_keeps (issue_memWf h (fun _ => seqAct_actWf (closeTop_memWf h)))

@[simp] theorem execFence_keeps {hd sc} (h : s.memWf = true) : Keeps (execFence hd sc s) :=
  next_keeps (issue_memWf h (fun _ => setCore_same h rfl))

@[simp] theorem execFenceFresh_keeps {hd} (h : s.memWf = true) : Keeps (execFenceFresh hd s) :=
  next_keeps (issue_memWf h (fun _ => setCore_same h rfl))

@[simp] theorem execProbe_keeps {hd w a} (h : s.memWf = true) : Keeps (execProbe hd w a s) := by
  unfold execProbe
  dsimp only
  refine next_keeps (issue_memWf h (fun _ => ?_))
  split
  · exact ite_actWf h trivial
  · exact h
  · exact h
  · split
    · exact place_memWf h
    all_goals exact resAct_actWf (place_memWf h)

@[simp] theorem execPref_keeps {hd a} (h : s.memWf = true) : Keeps (execPref hd a s) := by
  unfold execPref
  dsimp only
  refine next_keeps (issue_memWf h (fun _ => ?_))
  split
  · exact ite_actWf h trivial
  · exact h
  · exact h
  · exact place_memWf h

theorem placeTwo_memWf {s : State} {n ctx : Nat} {wr : Bool} {xs ys : List (Word × Kind)} (h : s.memWf = true) :
    (s.placeTwo n ctx wr xs ys).2.memWf = true := placeAll_memWf h

@[simp] theorem execFopen_keeps {hd op f r d a b c} (h : s.memWf = true) : Keeps (execFopen hd op f r d a b c s) := by
  unfold execFopen
  dsimp only
  refine next_keeps (issue_memWf h (fun _ => ite_actWf trivial (act_actWf (fun _ => ite_actWf trivial (act_actWf (fun _ => ite_actWf
    trivial ?_))))))
  split
  · exact resAct_actWf (placeTwo_memWf h)
  · exact reqAct_actWf (setCore_of (ask_memWf (placeTwo_memWf h)) onFrame_padWf)

@[simp] theorem execFold_keeps {hd p a b lm1} (h : s.memWf = true) : Keeps (execFold hd p a b lm1 s) :=
  next_keeps (issue_memWf h (fun _ => act_actWf (fun _ => withAddr_actWf h (fun _ _ h1 => padAct_actWf (onLine_actWf (fun _ _ _ =>
    bundlePut_actWf h1))))))

@[simp] theorem execFclose_keeps {hd d a} (h : s.memWf = true) : Keeps (execFclose hd d a s) :=
  next_keeps (issue_memWf h (fun _ => withAddr_actWf h (fun _ _ h1 => onLine_actWf (fun _ _ _ => askAct_actWf h1))))

theorem memAtomic_keeps {i regs wide d a op} (h : s.memWf = true) : Keeps (memAtomic i regs wide d a op s) :=
  next_keeps (issue_memWf h (fun _ => withAddr_actWf h (fun _ _ h1 => onLine_actWf (fun _ _ _ => seqAct_actWf (reqAct_actWf
    (atomBundle_memWf (ask_memWf h1)))))))

@[simp] theorem execXchg_keeps {hd wide d a b} (h : s.memWf = true) : Keeps (execXchg hd wide d a b s) := memAtomic_keeps h
@[simp] theorem execCas_keeps {hd wide d a b c} (h : s.memWf = true) : Keeps (execCas hd wide d a b c s) := memAtomic_keeps h
@[simp] theorem execXadd_keeps {hd wide d a b} (h : s.memWf = true) : Keeps (execXadd hd wide d a b s) := memAtomic_keeps h

/-! ### Machine/Sys.lean -/

@[simp] theorem execSrd_keeps {hd d csr} (h : s.memWf = true) : Keeps (execSrd hd d csr s) := next_keeps (issue_memWf h (fun _ => h))

@[simp] theorem execSwr_keeps {hd csr a} (h : s.memWf = true) : Keeps (execSwr hd csr a s) :=
  next_keeps (issue_memWf h (fun _ => ite_actWf trivial (setCore_of h (fun h1 => setTop_padWf (csrWrite_padWf h1)))))

@[simp] theorem execTrap_keeps {hd imm} (h : s.memWf = true) : Keeps (execTrap hd imm s) := next_keeps (issue_memWf h (fun _ => trivial))

@[simp] theorem execBrk_keeps {hd imm} (h : s.memWf = true) : Keeps (execBrk hd imm s) :=
  next_keeps (issue_memWf h (fun _ => ite_actWf h (ite_actWf trivial trivial)))

theorem trapReturn_keeps {i next} (h : s.memWf = true) : Keeps (trapReturn i next s) :=
  next_keeps (issue_memWf h (fun _ => setCore_same h rfl))

@[simp] theorem execTret_keeps {hd} (h : s.memWf = true) : Keeps (execTret hd s) := trapReturn_keeps h
@[simp] theorem execTretNext_keeps {hd} (h : s.memWf = true) : Keeps (execTretNext hd s) := trapReturn_keeps h

@[simp] theorem execTretKill_keeps {hd} (h : s.memWf = true) : Keeps (execTretKill hd s) :=
  next_keeps (issue_memWf h (fun _ => offers_memWf (dropTop_memWf h)))

@[simp] theorem execTretEnd_keeps {hd} (h : s.memWf = true) : Keeps (execTretEnd hd s) :=
  next_keeps (issue_memWf h (fun _ => endCtx_memWf h))

@[simp] theorem execOvld_keeps {hd a} (h : s.memWf = true) : Keeps (execOvld hd a s) :=
  next_keeps (issue_memWf h (fun _ => ite_actWf (setCtx_memWf h) trivial))

theorem bytesAct_actWf {r : Bytes} {g : List Byte → State → Act} (h : Bytes.Wf r) (hg : ∀ bs t, t.memWf = true → Act.Wf (g bs t)) :
    Act.Wf (r.act g) := by
  cases r with
  | ok bs t => exact hg bs t h
  | wait => trivial
  | stop t => exact h
  | bad c a => trivial

@[simp] theorem execGenset_keeps {hd k a} (h : s.memWf = true) : Keeps (execGenset hd k a s) := by
  unfold execGenset
  dsimp only
  refine next_keeps (issue_memWf h (fun _ => ite_actWf trivial (bytesAct_actWf (readParts_wf h) (fun _ _ h1 => ?_))))
  split
  · exact ite_actWf (setCtx_memWf h1) trivial
  · exact ite_actWf trivial (bytesAct_actWf (readParts_wf h1) (fun _ _ h2 => ite_actWf (setCtx_memWf h2) trivial))

@[simp] theorem execKeyset_keeps {hd k a b} (h : s.memWf = true) : Keeps (execKeyset hd k a b s) :=
  next_keeps (issue_memWf h (fun _ => setCtx_memWf h))

@[simp] theorem execGensync_keeps {hd} (h : s.memWf = true) : Keeps (execGensync hd s) :=
  next_keeps (issue_memWf h (fun _ => setCtx_memWf h))

@[simp] theorem execHarvest_keeps {hd} (h : s.memWf = true) : Keeps (execHarvest hd s) :=
  next_keeps (issue_memWf h (fun _ => harvest_memWf h))

theorem tlbInvalidate_keeps {i regs page} (h : s.memWf = true) : Keeps (tlbInvalidate i regs page s) :=
  next_keeps (issue_memWf h (fun _ => ite_actWf h (invalidate_memWf h)))

@[simp] theorem execTlbinv_keeps {hd a} (h : s.memWf = true) : Keeps (execTlbinv hd a s) := tlbInvalidate_keeps h
@[simp] theorem execTlbinvAll_keeps {hd} (h : s.memWf = true) : Keeps (execTlbinvAll hd s) := tlbInvalidate_keeps h

/-! ### Machine/Debugging.lean -/

theorem setDebug_memWf {n d} (h : s.memWf = true) : (s.setDebug n d).memWf = true := setCore_same h rfl

@[simp] theorem execDebugHaltCommand_keeps {core} (h : s.memWf = true) : Keeps (execDebugHaltCommand core s) :=
  next_keeps (ite_memWf h (setDebug_memWf h))

@[simp] theorem execDebugResume_keeps {core} (h : s.memWf = true) : Keeps (execDebugResume core s) :=
  next_keeps (ite_memWf (offers_memWf (setDebug_memWf h)) h)

@[simp] theorem execDebugStep_keeps {core} (h : s.memWf = true) : Keeps (execDebugStep core s) :=
  next_keeps (ite_memWf (offers_memWf (setDebug_memWf h)) h)

@[simp] theorem execDebugDrain_keeps {core} (h : s.memWf = true) : Keeps (execDebugDrain core s) :=
  next_keeps (ite_memWf (setDebug_memWf h) h)

@[simp] theorem execDebugDrainComplete_keeps {core} (h : s.memWf = true) : Keeps (execDebugDrainComplete core s) :=
  next_keeps (ite_memWf (setDebug_memWf h) h)

theorem onWindow_memWf {s : State} {n : Nat} {f : Frame} {g : Frame → Frame} (h : s.memWf = true) : (s.onWindow n f g).memWf = true := by
  unfold State.onWindow
  split
  · exact setCore_same h rfl
  · exact setCore_of h fun h1 => onFrame_padWf (padWrite_padWf h1)
  · exact ite_memWf (setCore_same (setMem_of h (physWrite_wf _ _ _)) rfl) (endCtx_memWf h)

theorem ddataFrame_memWf {s t : State} {n : Nat} {f : Frame} {cl k : Nat} {v : Word} (e : s.ddataFrame n f cl k v = some t)
    (h : s.memWf = true) : t.memWf = true := by
  unfold State.ddataFrame at e
  dsimp only at e
  have hf : ∀ g, (s.setCore n ((s.core n).onFrame f.uid g)).memWf = true := fun g => setCore_same h rfl
  split at e <;> grind [onWindow_memWf]

theorem ddataCore_memWf {s t : State} {n cl k word : Nat} {v : Word} (e : s.ddataCore n cl k word v = some t) (h : s.memWf = true) :
    t.memWf = true := by
  unfold State.ddataCore at e
  dsimp only at e
  have hc : ∀ c : Core, mapWf 0 c.pad = true → (s.setCore n c).memWf = true := fun c hp => setCore_memWf _ _ _ hp h
  split at e <;> grind [ddataFrame_memWf, setV_padWf, setW_padWf, setLane_padWf, csrWrite_padWf, onFrame_padWf, core_pad_wf]

@[simp] theorem execDdataWrite_keeps {core v} (h : s.memWf = true) : Keeps (execDdataWrite core v s) := by
  unfold execDdataWrite
  refine ite_keeps (next_keeps (setDebug_memWf h)) (next_keeps ?_)
  split
  · exact setDebug_memWf (ddataCore_memWf ‹_› h)
  · exact setDebug_memWf h

/-! ### Machine/Home.lean -/

theorem reqTooOld_memWf {n uid} (h : s.memWf = true) : (s.reqTooOld n uid).memWf = true :=
  stopped_memWf (viewTooOldOf_memWf (setCore_same h rfl))

theorem reqDead_memWf {n f} (h : s.memWf = true) : (s.reqDead n f).memWf = true := stopped_memWf (endCtx_memWf (setCore_same h rfl))

theorem withSrc_memWf {s : State} {n : Nat} {f : Frame} {k : Nat} {x : Src} {g : Version → State → State} (h : s.memWf = true)
    (hg : ∀ v t, t.memWf = true → (g v t).memWf = true) : (s.withSrc n f k x g).memWf = true := by
  unfold State.withSrc
  split
  · exact hg _ _ h
  · split
    · exact hg _ _ (readLine_memWf ‹_› h)
    · exact h
    · exact reqTooOld_memWf h
    · exact reqDead_memWf h

theorem withSrcs_memWf {n uid k : Nat} {g : List Byte → State → State} (hg : ∀ bs t, t.memWf = true → (g bs t).memWf = true) :
    ∀ {xs : List (Src × Overlay)} {acc : List Byte} {s : State}, s.memWf = true → (s.withSrcs n uid k acc g xs).memWf = true
  | [], _, _, h => hg _ _ h
  | _ :: _, _, _, h => by
    unfold State.withSrcs
    split
    · exact h
    · exact withSrc_memWf h fun _ _ => withSrcs_memWf hg

theorem finishReq_memWf {n q v} (h : s.memWf = true) : (s.finishReq n q v).memWf = true := setCore_of h finish_padWf

theorem reply_memWf {n f q} (h : s.memWf = true) : (s.reply n f q).memWf = true := by
  unfold State.reply
  split
  · exact withSrc_memWf h fun _ _ h1 => finishReq_memWf h1
  · exact withSrc_memWf h fun _ _ h1 => finishReq_memWf h1
  · exact withSrc_memWf h fun _ _ h1 => padStore_memWf (guardedWrite_memWf (finishReq_memWf h1))
  · exact withSrcs_memWf (fun _ _ h1 => setCore_of h1 vldPut_padWf) h
  · exact finishReq_memWf h
  all_goals exact h

@[simp] theorem execLoadReply_keeps {core req} (h : s.memWf = true) : Keeps (execLoadReply core req s) := by
  unfold execLoadReply
  dsimp only
  split
  · exact next_keeps h
  · refine ite_keeps (next_keeps (setCore_same h rfl)) (ite_keeps (next_keeps h) ?_)
    split
    · exact next_keeps (reply_memWf h)
    · exact next_keeps (setCore_same h rfl)
    · exact next_keeps h
    · exact next_keeps h
    · exact next_keeps h
    · exact next_keeps h
    all_goals exact next_keeps (setCore_same h rfl)

@[simp] theorem execQuietQueryReply_keeps {core writer upTo} (h : s.memWf = true) : Keeps (execQuietQueryReply core writer upTo s) :=
  next_keeps (ite_memWf h (progress_memWf (setCore_same h rfl)))

theorem setLine_memWf {s : State} {n : Nat} {seq : CSeq} {i : Nat} {g : BLine → BLine} (h : s.memWf = true) :
    (s.setLine n seq i g).memWf = true := setCore_same h rfl

theorem loseLine_memWf {ctx cause id} (h : s.memWf = true) : (s.loseLine ctx cause id).memWf = true := endCtx_memWf h

theorem lineArrives_memWf {s : State} {n : Nat} {b : Closed} {i : Nat} {l : BLine} {key : Nat} {g : BLine → BLine} (h : s.memWf = true) :
    (s.lineArrives n b i l key g).memWf = true := by
  unfold State.lineArrives
  split
  · exact loseLine_memWf h
  · exact setLine_memWf (arriveLine_memWf _ _ _ _ _ _ _ _ h)

@[simp] theorem execBundleLineArrival_keeps {core seq line} (h : s.memWf = true) : Keeps (execBundleLineArrival core seq line s) := by
  unfold execBundleLineArrival
  split
  · exact next_keeps h
  · split
    · exact next_keeps (ite_memWf h (lineArrives_memWf h))
    · exact next_keeps h

theorem digest_memWf {b} (h : s.memWf = true) : (s.digest b).memWf = true := ite_memWf (setCtx_memWf h) h

theorem ackLine_memWf {n b i} (h : s.memWf = true) : (s.ackLine n b i).memWf = true := by
  unfold State.ackLine
  refine progress_memWf ?_
  split
  · exact ite_memWf (digest_memWf (setLine_memWf h)) (setLine_memWf h)
  · exact setLine_memWf h

@[simp] theorem execLineAcknowledgement_keeps {core seq line} (h : s.memWf = true) : Keeps (execLineAcknowledgement core seq line s) := by
  unfold execLineAcknowledgement
  split
  · exact next_keeps h
  · exact ite_keeps (next_keeps (ackLine_memWf h)) (next_keeps h)

theorem lineMarks_memWf {n seq i a b st} (h : s.memWf = true) : (s.lineMarks n seq i a b st).memWf = true := by
  unfold State.lineMarks
  split
  · exact h
  · split
    · exact h
    · exact ite_memWf (setLine_memWf (setMem_of h (mark_wf _ _ _ _ _))) h

@[simp] theorem execSettleAtHome_keeps {core seq line} (h : s.memWf = true) : Keeps (execSettleAtHome core seq line s) :=
  next_keeps (lineMarks_memWf h)

@[simp] theorem execSettleAcknowledgement_keeps {core seq line} (h : s.memWf = true) : Keeps (execSettleAcknowledgement core seq line s)
  := by
  unfold execSettleAcknowledgement
  split
  · exact next_keeps h
  · exact ite_keeps (next_keeps (progress_memWf (setLine_memWf h))) (next_keeps h)

@[simp] theorem execQuietAtHome_keeps {core seq line} (h : s.memWf = true) : Keeps (execQuietAtHome core seq line s) :=
  ite_keeps (next_keeps h) (next_keeps (progress_memWf (lineMarks_memWf h)))

theorem noteClosed_memWf {n uid} (h : s.memWf = true) : (s.noteClosed n uid).memWf = true := setCore_same h rfl

@[simp] theorem execAtomicAtHome_keeps {core req} (h : s.memWf = true) : Keeps (execAtomicAtHome core req s) := by
  unfold execAtomicAtHome
  dsimp only
  split
  · exact next_keeps h
  · split
    · refine ite_keeps (next_keeps h) ?_
      split
      · exact next_keeps (loseLine_memWf (setCore_same h rfl))
      · split
        · exact next_keeps (progress_memWf (setCore_same h rfl))
        · refine next_keeps ?_
          split
          · exact markDirty_memWf (setLine_memWf (setMem_of (arriveLine_memWf _ _ _ _ _ _ _ _ (setCore_same h rfl)) (restore_wf _ _)))
          · exact setLine_memWf (setMem_of (arriveLine_memWf _ _ _ _ _ _ _ _ (setCore_same h rfl)) (restore_wf _ _))
    · exact next_keeps h

@[simp] theorem execFoldHomeOpen_keeps {core req} (h : s.memWf = true) : Keeps (execFoldHomeOpen core req s) := by
  unfold execFoldHomeOpen
  dsimp only
  split
  · exact next_keeps h
  · split
    · exact ite_keeps (next_keeps h) (ite_keeps (next_keeps (setCore_same h rfl)) (ite_keeps (next_keeps (setCore_same h rfl)) (next_keeps
        (setMem_of (setCore_same h rfl) (fun h1 => mem_wf h)))))
    · exact next_keeps h

@[simp] theorem execFoldContributionArrival_keeps {core seq line} (h : s.memWf = true) : Keeps (execFoldContributionArrival core seq line
  s) := by
  unfold execFoldContributionArrival
  split
  · exact next_keeps h
  · split
    · refine ite_keeps (next_keeps h) ?_
      split
      · exact next_keeps (setLine_memWf h)
      · split
        · exact next_keeps (setMem_of (setLine_memWf h) (fun h1 => setFold_wf _ _ _ (mem_wf h)))
        · refine ite_keeps (next_keeps h) (ite_keeps (next_keeps (lineArrives_memWf h)) (next_keeps ?_))
          split
          · exact markDirty_memWf (setMem_of (lineArrives_memWf h) (setFold_wf _ _ _))
          · exact setMem_of (lineArrives_memWf h) (setFold_wf _ _ _)
    · exact next_keeps h

theorem foldRun_memWf {n uid acq : Nat} {o : FoldObj} {a : Word} : ∀ {ks : List Nat} {l : Nat} {s t : State} {ls : List BLine} {x : Exc},
    s.foldRun n uid acq o a l ks = .ok ls x t → s.memWf = true → t.memWf = true
  | [], _, _, _, _, _, e, h => by cases e; exact h
  | key :: ks, l, s, t, ls, x, e, h => by
    unfold State.foldRun at e
    dsimp only at e
    split at e
    · cases e
    · split at e
      · cases e
      · split at e
        · cases e
        · cases e
        · cases e
        · next e1 =>
          split at e
          · next e2 => cases e; exact foldRun_memWf e2 (readLine_memWf e1 h)
          · next q => exact foldRun_memWf e (readLine_memWf e1 h)
      · split at e
        · next e2 => cases e; exact foldRun_memWf e2 h
        · exact foldRun_memWf e h

@[simp] theorem execFoldHomeClose_keeps {core req} (h : s.memWf = true) : Keeps (execFoldHomeClose core req s) := by
  unfold execFoldHomeClose
  dsimp only
  split
  · exact next_keeps h
  · split
    · refine ite_keeps (next_keeps h) ?_
      split
      · exact next_keeps h
      · exact next_keeps (setCore_same h rfl)
      · refine ite_keeps (next_keeps (setMem_of (setCore_same (setCore_same h rfl) rfl) (fun h1 => dropFold_wf _ _ (mem_wf h))))
          (ite_keeps (next_keeps (setCore_same h rfl)) ?_)
        split
        · exact next_keeps h
        · exact next_keeps (reqTooOld_memWf h)
        · exact next_keeps (endCtx_memWf (setCore_same h rfl))
        · exact next_keeps (progress_memWf (addClosed_memWf (noteClosed_memWf (setCore_of (setCore_same (setMem_of (foldRun_memWf ‹_› h)
            (setFold_wf _ _ _)) rfl) count_padWf))))
    · exact next_keeps h

/-! ### Machine/Task.lean -/

theorem startAll_actWf {s : State} {n : Nat} {c : Core} {f : Frame} {ts : List Nat} {args : Template → FMap Word} (h : s.memWf = true)
    (hc : mapWf 0 c.pad = true) : Act.Wf (startAll s n c f ts args) :=
  ite_actWf (setCore_of h fun _ => hc) trivial

@[simp] theorem execSpawn_keeps {hd t} (h : s.memWf = true) : Keeps (execSpawn hd t s) :=
  next_keeps (issue_memWf h (fun _ => startAll_actWf h (core_pad_wf _ _ h)))

@[simp] theorem execPost_keeps {hd t a} (h : s.memWf = true) : Keeps (execPost hd t a s) :=
  next_keeps (issue_memWf h (fun _ => startAll_actWf h (core_pad_wf _ _ h)))

@[simp] theorem execPostGrp_keeps {hd grp a} (h : s.memWf = true) : Keeps (execPostGrp hd grp a s) :=
  next_keeps (issue_memWf h (fun _ => ite_actWf trivial (startAll_actWf h (core_pad_wf _ _ h))))

theorem haltClose_memWf {n f} (h : s.memWf = true) : (s.haltClose n f).memWf = true := ite_memWf h (setCore_same (closeTop_memWf h) rfl)

theorem haltTask_actWf {n c f keep} (h : s.memWf = true) : Act.Wf (haltTask s n c f keep) := by
  unfold haltTask
  dsimp only
  refine seqAct_actWf ?_
  split
  · exact haltClose_memWf h
  · exact offers_memWf (popTop_memWf (setCore_same (haltClose_memWf h) rfl))

@[simp] theorem execHalt_keeps {hd} (h : s.memWf = true) : Keeps (execHalt hd s) := next_keeps (issue_memWf h (fun _ => haltTask_actWf h))

@[simp] theorem execHaltK_keeps {hd a} (h : s.memWf = true) : Keeps (execHaltK hd a s) :=
  next_keeps (issue_memWf h (fun _ => ite_actWf trivial (haltTask_actWf h)))

@[simp] theorem execCommit_keeps {hd} (h : s.memWf = true) : Keeps (execCommit hd s) :=
  next_keeps (issue_memWf h (fun _ => seqAct_actWf (setCore_same (closeTop_memWf h) rfl)))

theorem acquireAct_actWf {s : State} {n : Nat} {c : Core} {f : Frame} {set : IncSet} {g : View → Act} (h : s.memWf = true)
    (hg : ∀ v, Act.Wf (g v)) : Act.Wf (acquireAct s n c f set g) := by
  unfold acquireAct
  split
  · exact hg _
  · exact ite_actWf (viewTooOld_memWf h) h

@[simp] theorem execClaim_keeps {hd g} (h : s.memWf = true) : Keeps (execClaim hd g s) :=
  next_keeps (issue_memWf h (fun _ => ite_actWf trivial (ite_actWf trivial (ite_actWf trivial (ite_actWf trivial (acquireAct_actWf h (fun
    _ => setCore_same h rfl)))))))

@[simp] theorem execUnclaim_keeps {hd g} (h : s.memWf = true) : Keeps (execUnclaim hd g s) := by
  unfold execUnclaim
  refine next_keeps (issue_memWf h (fun _ => ite_actWf trivial ?_))
  split
  · exact h
  · exact offers_memWf (setCore_same h rfl)

@[simp] theorem execArrive_keeps {hd a phase cm1} (h : s.memWf = true) : Keeps (execArrive hd a phase cm1 s) := by
  unfold execArrive
  dsimp only
  refine next_keeps (issue_memWf h (fun _ => ?_))
  split
  · exact trivial
  · exact setCore_same h rfl

@[simp] theorem execBinit_keeps {hd p b target succ phase} (h : s.memWf = true) : Keeps (execBinit hd p b target succ phase s) :=
  next_keeps (issue_memWf h (fun _ => ite_actWf trivial (padAct_actWf (instrStore_memWf (setCore_same h rfl)))))

theorem phaseDone_memWf {n k a o p} (h : s.memWf = true) : (s.phaseDone n k a o p).memWf = true :=
  ite_memWf (setCtx_memWf h) (foldl_memWf (fun _ _ h1 => release_memWf h1) _ h)

@[simp] theorem execArrivalApply_keeps {e} (h : s.memWf = true) : Keeps (execArrivalApply e s) := by
  unfold execArrivalApply
  dsimp only
  split
  · exact next_keeps h
  · refine ite_keeps (next_keeps h) (ite_keeps (next_keeps (setCore_same h rfl)) ?_)
    split
    · exact next_keeps (ite_memWf (foldl_memWf (fun _ _ h1 => phaseDone_memWf h1) _ (ite_memWf (padStore_memWf (setCore_same h rfl))
        (setCore_same h rfl))) (post_memWf (foldl_memWf (fun _ _ h1 => phaseDone_memWf h1) _ (ite_memWf (padStore_memWf (setCore_same h
        rfl)) (setCore_same h rfl)))))
    · exact next_keeps h

@[simp] theorem execWatch_keeps {hd wide p b t} (h : s.memWf = true) : Keeps (execWatch hd wide p b t s) :=
  next_keeps (issue_memWf h (fun _ => ite_actWf trivial (ite_actWf trivial (act_actWf (fun _ => fresh_memWf (setCore_same h rfl))))))

@[simp] theorem execUnwatch_keeps {hd d p} (h : s.memWf = true) : Keeps (execUnwatch hd d p s) :=
  next_keeps (issue_memWf h (fun _ => act_actWf (fun _ => setCore_same h rfl)))

@[simp] theorem execQpush_keeps {hd q a b} (h : s.memWf = true) : Keeps (execQpush hd q a b s) := by
  unfold execQpush
  dsimp only
  refine next_keeps (issue_memWf h (fun _ => ?_))
  split
  · exact trivial
  · exact setCore_same h rfl

theorem queueTrigger_memWf {core k q : Nat} : ∀ {fuel : Nat} {s : State}, s.memWf = true → (s.queueTrigger core k q fuel).memWf = true
  | 0, _, h => h
  | _ + 1, _, h => by
    unfold State.queueTrigger
    exact ite_memWf h (queueTrigger_memWf (release_memWf (setCore_same h rfl)))

@[simp] theorem execQueuePushApply_keeps {e q} (h : s.memWf = true) : Keeps (execQueuePushApply e q s) := by
  unfold execQueuePushApply
  dsimp only
  split
  · exact next_keeps h
  · exact ite_keeps (next_keeps h) (ite_keeps (next_keeps (setCore_same h rfl)) (ite_keeps (next_keeps h) (next_keeps (queueTrigger_memWf
      (setCore_same h rfl)))))

@[simp] theorem execQpop_keeps {hd d q} (h : s.memWf = true) : Keeps (execQpop hd d q s) := by
  unfold execQpop
  dsimp only
  refine next_keeps (issue_memWf h (fun _ => ?_))
  split
  · exact trivial
  · exact acquireAct_actWf h fun _ => setCore_same h rfl

@[simp] theorem execQcfg_keeps {hd q a} (h : s.memWf = true) : Keeps (execQcfg hd q a s) :=
  next_keeps (issue_memWf h (fun _ => ite_actWf trivial (queueTrigger_memWf (setCore_same h rfl))))

@[simp] theorem execQlen_keeps {hd d q} (h : s.memWf = true) : Keeps (execQlen hd d q s) := next_keeps (issue_memWf h (fun _ => h))

@[simp] theorem execKeptGrantExpiry_keeps {core} (h : s.memWf = true) : Keeps (execKeptGrantExpiry core s) :=
  next_keeps (offers_memWf (setCore_of h returnKept_padWf))

/-! ### Machine/Pair.lean -/

theorem setPair_memWf {k p} (h : s.memWf = true) : (s.setPair k p).memWf = true := setCtx_memWf h
theorem anchorOut_memWf {k l} (h : s.memWf = true) : (s.anchorOut k l).memWf = true := foldl_memWf (fun _ _ h1 => release_memWf h1) _ h

theorem compareDigests_memWf {k d} (h : s.memWf = true) : (s.compareDigests k d).memWf = true :=
  ite_memWf (anchorOut_memWf (setPair_memWf (setMem_of h (confirm_wf _ _)))) (ite_memWf (endCtx_memWf (setMem_of (post_memWf h)
    (discardEpoch_wf _ _))) (anchorOut_memWf (setPair_memWf (foldl_memWf (fun _ _ h1 => setCore_of h1 (wiped_wf _ _)) _ (setMem_of
    (post_memWf h) (discardEpoch_wf _ _))))))

@[simp] theorem execSeal_keeps {ctx} (h : s.memWf = true) : Keeps (execSeal ctx s) := by
  unfold execSeal
  refine ite_keeps (next_keeps ?_) (next_keeps h)
  split
  · refine ite_memWf (compareDigests_memWf ?_) ?_
    · split
      · exact send_memWf (setPair_memWf h)
      · exact remoteError_memWf (setPair_memWf h)
    · split
      · exact send_memWf (setPair_memWf h)
      · exact remoteError_memWf (setPair_memWf h)
  · split
    · exact send_memWf (setPair_memWf h)
    · exact remoteError_memWf (setPair_memWf h)

theorem digestArrives_memWf {k epoch d} (h : s.memWf = true) : (s.digestArrives k epoch d).memWf = true :=
  ite_memWf h (ite_memWf (compareDigests_memWf h) (setPair_memWf h))

theorem noticeArrives_memWf {k} (h : s.memWf = true) : (s.noticeArrives k).memWf = true := ite_memWf (endCtx_memWf h) h

@[simp] theorem execDigestTimeout_keeps {ctx} (h : s.memWf = true) : Keeps (execDigestTimeout ctx s) :=
  next_keeps (ite_memWf (endCtx_memWf h) h)

/-! ### Machine/Events.lean -/

theorem setEvents_memWf {e} (h : s.memWf = true) : (s.setEvents e).memWf = true := memWf_of_eq rfl rfl rfl h
@[simp] theorem execEventConfigWrite_keeps {v} (h : s.memWf = true) : Keeps (execEventConfigWrite v s) := next_keeps (setEvents_memWf h)

@[simp] theorem execEventReadIndexWrite_keeps {v} (h : s.memWf = true) : Keeps (execEventReadIndexWrite v s) :=
  next_keeps (setEvents_memWf h)

@[simp] theorem execEventRecordStage_keeps (h : s.memWf = true) : Keeps (execEventRecordStage s) := by
  unfold execEventRecordStage
  refine ite_keeps (next_keeps h) ?_
  split
  · exact next_keeps h
  · exact next_keeps (setEvents_memWf h)
  · exact next_keeps (setEvents_memWf (setDie_memWf h))

theorem afterRecord_memWf {wasEmpty} (h : s.memWf = true) : (s.afterRecord wasEmpty).memWf = true := by
  unfold State.afterRecord
  refine ite_memWf ?_ (ite_memWf h ?_)
  · split
    · refine hostWrite_memWf ‹_› (ite_memWf h ?_)
      split
      · exact hostWrite_memWf ‹_› h
      · exact setEvents_memWf h
    · refine setEvents_memWf (ite_memWf h ?_)
      split
      · exact hostWrite_memWf ‹_› h
      · exact setEvents_memWf h
  · split
    · exact hostWrite_memWf ‹_› h
    · exact setEvents_memWf h

@[simp] theorem execEventRingWrite_keeps (h : s.memWf = true) : Keeps (execEventRingWrite s) := by
  unfold execEventRingWrite
  dsimp only
  split
  · exact next_keeps h
  · refine ite_keeps (next_keeps h) ?_
    split
    · exact next_keeps (setEvents_memWf h)
    · exact next_keeps (afterRecord_memWf (setEvents_memWf (hostWrite_memWf ‹_› h)))

theorem notPerformed_memWf {addr wr mem} (h : s.memWf = true) : (s.notPerformed addr wr mem).memWf = true := post_memWf h

@[simp] theorem execApertureAccessNotPerformed_keeps {off wr} (h : s.memWf = true) : Keeps (execApertureAccessNotPerformed off wr s) :=
  next_keeps (ite_memWf (notPerformed_memWf h) (memWf_of_eq rfl rfl rfl (notPerformed_memWf h)))

@[simp] theorem execHostMemoryWrite_keeps {pa bytes} (h : s.memWf = true) : Keeps (execHostMemoryWrite pa bytes s) :=
  ite_keeps (next_keeps h) (ite_keeps (next_keeps (notPerformed_memWf h)) (ite_keeps (next_keeps h) (next_keeps (setMem_of h (fun h1 =>
    noteOld_wf _ _ _ _ (setTags_wf _ _ _ (physWrite_wf _ _ _ h1)))))))

@[simp] theorem execHostMemoryRead_keeps {pa n} (h : s.memWf = true) : Keeps (execHostMemoryRead pa n s) :=
  ite_keeps (next_keeps h) (ite_keeps (next_keeps (memWf_of_eq rfl rfl rfl (notPerformed_memWf h))) (next_keeps (memWf_of_eq rfl rfl rfl
    h)))

@[simp] theorem execLinkTraining_keeps {groups} (h : s.memWf = true) : Keeps (execLinkTraining groups s) :=
  next_keeps (ite_memWf (memWf_of_eq rfl rfl rfl h) h)

/-! ### Machine/Faults.lean -/

theorem freeRecord_memWf {k r} (h : s.memWf = true) : (s.freeRecord k r).memWf = true := by
  unfold State.freeRecord
  dsimp only
  exact ite_memWf h (foldl_memWf (fun _ _ h1 => recordFault_memWf h1) _ (memWf_of_eq rfl rfl rfl h))

@[simp] theorem execFaultRecordRelease_keeps {ctx r} (h : s.memWf = true) : Keeps (execFaultRecordRelease ctx r s) :=
  next_keeps (freeRecord_memWf h)

theorem xcmd_memWf {k cmd page} (h : s.memWf = true) : (s.xcmd k cmd page).memWf = true :=
  ite_memWf h (ite_memWf (harvest_memWf (setCtx_memWf h)) (invalidate_memWf (setCtx_memWf h)))

@[simp] theorem execXcmdInvalidateAll_keeps {ctx} (h : s.memWf = true) : Keeps (execXcmdInvalidateAll ctx s) := next_keeps (xcmd_memWf h)
@[simp] theorem execXcmdHarvest_keeps {ctx} (h : s.memWf = true) : Keeps (execXcmdHarvest ctx s) := next_keeps (xcmd_memWf h)

@[simp] theorem execXcmdInvalidatePage_keeps {ctx page} (h : s.memWf = true) : Keeps (execXcmdInvalidatePage ctx page s) :=
  next_keeps (xcmd_memWf h)

@[simp] theorem execXcmdComplete_keeps {ctx} (h : s.memWf = true) : Keeps (execXcmdComplete ctx s) :=
  ite_keeps (next_keeps h) (next_keeps (setCtx_memWf (ite_memWf h (invalidate_memWf h))))

/-! ### Machine/Dispatcher.lean -/

@[simp] theorem execReleaseArrival_keeps {k} (h : s.memWf = true) : Keeps (execReleaseArrival k s) := by
  unfold execReleaseArrival
  split
  · exact next_keeps h
  · refine ite_keeps (next_keeps h) (ite_keeps (next_keeps (memWf_of_eq rfl rfl rfl h)) ?_)
    split
    · exact next_keeps h
    · exact next_keeps (enter_memWf (memWf_of_eq rfl rfl rfl h))

@[simp] theorem execOfferArrival_keeps {core} (h : s.memWf = true) : Keeps (execOfferArrival core s) := by
  unfold execOfferArrival
  dsimp only
  split
  · exact next_keeps (ite_memWf (offers_memWf (returnOffer_memWf h)) (setCore_same h rfl))
  · exact next_keeps h
  · exact next_keeps h

theorem onReady_memWf {s : State} {cluster k : Nat} {g : Ready → Ready} (h : s.memWf = true) : (s.onReady cluster k g).memWf = true :=
  offers_memWf (setCluster_memWf h)

@[simp] theorem execTaskAged_keeps {cluster k} (h : s.memWf = true) : Keeps (execTaskAged cluster k s) := next_keeps (onReady_memWf h)

@[simp] theorem execSkipLimitBlock_keeps {cluster k} (h : s.memWf = true) : Keeps (execSkipLimitBlock cluster k s) :=
  next_keeps (onReady_memWf h)

@[simp] theorem execEntryStoreFetch_keeps {cluster k} (h : s.memWf = true) : Keeps (execEntryStoreFetch cluster k s) :=
  next_keeps (onReady_memWf h)

theorem exchange_memWf {k ctx d b} (h : s.memWf = true) : (s.exchange k ctx d b).memWf = true := by
  unfold State.exchange
  dsimp only
  exact ite_memWf (setCluster_memWf h) (memWf_of_eq rfl rfl rfl h)

@[simp] theorem execDispatchExchange_keeps {cluster} (h : s.memWf = true) : Keeps (execDispatchExchange cluster s) :=
  next_keeps (offers_memWf (refill_memWf (foldl_memWf (fun _ _ h1 => foldl_memWf (fun _ _ h2 => exchange_memWf h2) _ h1) _ h)))

@[simp] theorem execContextLastTaskRetired_keeps {ctx} (h : s.memWf = true) : Keeps (execContextLastTaskRetired ctx s) :=
  next_keeps (ite_memWf (endCtx_memWf h) h)

/-! ### Machine/Queues.lean -/

theorem queueError_memWf {n err} (h : s.memWf = true) : (s.queueError n err).memWf = true := post_memWf (setQueue_memWf h)
theorem changeQueue_memWf {n q} (h : s.memWf = true) : (s.changeQueue n q).memWf = true := ite_memWf (setQueue_memWf h) (setQueue_memWf h)

theorem doorbell_memWf {n v} (h : s.memWf = true) : (s.doorbell n v).memWf = true :=
  ite_memWf (setQueue_memWf h) (ite_memWf (queueError_memWf (setQueue_memWf h)) (ite_memWf (queueError_memWf (setQueue_memWf h))
    (changeQueue_memWf h)))

theorem enableQueue_memWf {n} (h : s.memWf = true) : (s.enableQueue n).memWf = true := ite_memWf (changeQueue_memWf h) h
theorem disableQueue_memWf {n} (h : s.memWf = true) : (s.disableQueue n).memWf = true := setQueue_memWf h
@[simp] theorem execQueueDoorbell_keeps {q v} (h : s.memWf = true) : Keeps (execQueueDoorbell q v s) := next_keeps (doorbell_memWf h)
@[simp] theorem execQueueEnable_keeps {q} (h : s.memWf = true) : Keeps (execQueueEnable q s) := next_keeps (enableQueue_memWf h)
@[simp] theorem execQueueDisable_keeps {q} (h : s.memWf = true) : Keeps (execQueueDisable q s) := next_keeps (disableQueue_memWf h)

@[simp] theorem execQueueArbitration_keeps (h : s.memWf = true) : Keeps (execQueueArbitration s) := by
  unfold execQueueArbitration
  dsimp only
  split
  · split
    · exact next_keeps (queueError_memWf (memWf_of_eq rfl rfl rfl h))
    · exact ite_keeps (next_keeps (memWf_of_eq rfl rfl rfl h)) (next_keeps (memWf_of_eq rfl rfl rfl h))
  · exact next_keeps h
  · exact next_keeps h

@[simp] theorem execSeqRetry_keeps {n} (h : s.memWf = true) : Keeps (execSeqRetry n s) := next_keeps (ite_memWf (changeQueue_memWf h) h)

@[simp] theorem execStaleEntry_keeps {n} (h : s.memWf = true) : Keeps (execStaleEntry n s) :=
  next_keeps (ite_memWf (queueError_memWf h) h)

theorem consume_memWf {s : State} {n : Nat} {bs : List Byte} (h : s.memWf = true) : (s.consume n bs).memWf = true := by
  have h1 : ∀ q, { s.setQueue n q with entry := none }.memWf = true := fun _ => memWf_of_eq rfl rfl rfl h
  unfold State.consume
  refine ite_memWf (h1 _) ?_
  split
  · exact hostWrite_memWf ‹_› (h1 _)
  · exact ite_memWf (queueError_memWf (h1 _)) (h1 _)

theorem refuse_memWf {n bs cause} (h : s.memWf = true) : (s.refuse n bs cause).memWf = true := consume_memWf (post_memWf h)

theorem onEntry_keeps {s : State} {p : Nat → Bool} {g : Nat → List Byte → State} (h : s.memWf = true)
    (hg : ∀ n bs, (g n bs).memWf = true) : Keeps (s.onEntry p g) := by
  unfold State.onEntry
  split
  · exact next_keeps h
  · exact ite_keeps (next_keeps (hg _ _)) (next_keeps h)

@[simp] theorem execLaunchEntry_keeps (h : s.memWf = true) : Keeps (execLaunchEntry s) := by
  unfold execLaunchEntry
  dsimp only
  refine onEntry_keeps h fun _ _ => ?_
  split
  · exact refuse_memWf h
  · exact consume_memWf (release_memWf (ite_memWf (setCtx_memWf h) h))

theorem completion_memWf {addr status ctx} (h : s.memWf = true) : (s.completion addr status ctx).memWf = true := hostPut_memWf _ _ _ h

@[simp] theorem execCreateContextEntry_keeps (h : s.memWf = true) : Keeps (execCreateContextEntry s) := by
  unfold execCreateContextEntry
  dsimp only
  refine onEntry_keeps h fun _ _ => ?_
  split
  · exact refuse_memWf h
  · exact ite_memWf (completion_memWf (consume_memWf h)) (consume_memWf (memWf_of_eq rfl rfl rfl h))

@[simp] theorem execEndContextEntry_keeps (h : s.memWf = true) : Keeps (execEndContextEntry s) := by
  unfold execEndContextEntry
  dsimp only
  refine onEntry_keeps h fun _ _ => ?_
  split
  · exact refuse_memWf h
  · exact ite_memWf (completion_memWf (consume_memWf h)) (consume_memWf (endCtx_memWf (setCtx_memWf h)))

@[simp] theorem execNoOperationEntry_keeps (h : s.memWf = true) : Keeps (execNoOperationEntry s) :=
  onEntry_keeps h fun _ _ => ite_memWf (consume_memWf h) (refuse_memWf h)

@[simp] theorem execEndCompletion_keeps {ctx} (h : s.memWf = true) : Keeps (execEndCompletion ctx s) := by
  unfold execEndCompletion
  dsimp only
  split
  · exact next_keeps h
  · exact next_keeps (ite_memWf h (completion_memWf (setCtx_memWf h)))

theorem freeCtx_memWf {k} (h : s.memWf = true) : (s.freeCtx k).memWf = true := ite_memWf h (setCtx_memWf h)
@[simp] theorem execContextFree_keeps {ctx} (h : s.memWf = true) : Keeps (execContextFree ctx s) := next_keeps (freeCtx_memWf h)

/-! ### Machine/Creation.lean -/

theorem storeEntries_memWf {k x} (h : s.memWf = true) : (s.storeEntries k x).memWf = true :=
  foldl_memWf (fun _ _ h1 => foldl_memWf (fun _ _ h2 => ite_memWf (setCluster_memWf h2) h2) _ h1) _ h

theorem goLive_memWf {k x} (h : s.memWf = true) : (s.goLive k x).memWf = true :=
  storeEntries_memWf (setCtx_memWf (foldl_memWf (fun _ _ h1 => setCore_of h1 fun _ => joined_padWf) _ h))

@[simp] theorem execContextCreationComplete_keeps {ctx} (h : s.memWf = true) : Keeps (execContextCreationComplete ctx s) := by
  unfold execContextCreationComplete
  dsimp only
  split
  · exact next_keeps h
  · refine next_keeps (changeQueue_memWf (completion_memWf ?_))
    split
    · exact goLive_memWf h
    · exact setCtx_memWf h

/-! ### Machine/Remote.lean -/

theorem peerAct_actWf {x : Ctx} {write : Bool} {peer : BitVec 5} {g : PeerRef → Act} (hg : ∀ p, Act.Wf (g p)) :
    Act.Wf (peerAct x write peer g) := by
  unfold peerAct
  refine ite_actWf trivial ?_
  split
  · exact trivial
  · exact hg _

@[simp] theorem execRld_keeps {hd sz sx d a peer live} (h : s.memWf = true) : Keeps (execRld hd sz sx d a peer live s) := by
  unfold execRld
  dsimp only
  refine next_keeps (issue_memWf h (fun _ => waitAct_actWf (peerAct_actWf (fun _ => ite_actWf trivial (ite_actWf trivial (ite_actWf
    trivial ?_))))))
  split
  · exact trivial
  · exact offers_memWf (popTop_memWf (fresh_memWf (setCore_same (closeTop_memWf h) rfl)))

theorem rstOp_keeps {i sz a b peer rel} (h : s.memWf = true) : Keeps (rstOp i sz a b peer rel s) := by
  unfold rstOp
  refine next_keeps (issue_memWf h (fun _ => peerAct_actWf (fun _ => ?_)))
  split
  · exact trivial
  · exact setCore_same h rfl

@[simp] theorem execRst_keeps {hd sz a b peer} (h : s.memWf = true) : Keeps (execRst hd sz a b peer s) := rstOp_keeps h
@[simp] theorem execRstRel_keeps {hd sz a b peer t} (h : s.memWf = true) : Keeps (execRstRel hd sz a b peer t s) := rstOp_keeps h

@[simp] theorem execRfold_keeps {hd p a b lm1 peer} (h : s.memWf = true) : Keeps (execRfold hd p a b lm1 peer s) :=
  next_keeps (issue_memWf h (fun _ => peerAct_actWf (fun _ => act_actWf (fun _ => padAct_actWf (bundlePut_actWf h)))))

theorem remoteAtomic_keeps {i regs wide d a peer cmp new} (h : s.memWf = true) : Keeps (remoteAtomic i regs wide d a peer cmp new s) :=
  next_keeps (issue_memWf h (fun _ => peerAct_actWf (fun _ => seqAct_actWf (send_memWf (atomBundle_memWf (ask_memWf h))))))

@[simp] theorem execRcas_keeps {hd wide d a b c peer} (h : s.memWf = true) : Keeps (execRcas hd wide d a b c peer s) :=
  remoteAtomic_keeps h

@[simp] theorem execRxchg_keeps {hd wide d a b peer} (h : s.memWf = true) : Keeps (execRxchg hd wide d a b peer s) := remoteAtomic_keeps h

@[simp] theorem execContinuationSend_keeps {core k} (h : s.memWf = true) : Keeps (execContinuationSend core k s) := by
  unfold execContinuationSend
  dsimp only
  split
  · exact next_keeps h
  · refine ite_keeps (next_keeps h) ?_
    split
    · exact next_keeps h
    · exact next_keeps (send_memWf (setCore_same h rfl))

@[simp] theorem execContinuationResume_keeps {core k} (h : s.memWf = true) : Keeps (execContinuationResume core k s) := by
  unfold execContinuationResume
  dsimp only
  split
  · exact next_keeps h
  · split
    · exact next_keeps h
    · exact next_keeps (ite_memWf (memWf_of_eq rfl rfl rfl (setCore_same h rfl)) (setCore_same h rfl))

theorem reject_memWf {m kind} (h : s.memWf = true) : (s.reject m kind).memWf = true := send_memWf h
theorem answerDead_memWf {m} (h : s.memWf = true) : (s.answerDead m).memWf = true := send_memWf h

theorem atPeer_memWf {s : State} {m : RMsg} {wr : Bool} {a : Word} {n : Nat} {g : Nat → Nat → Option Nat → State} (h : s.memWf = true)
    (hg : ∀ key off leaf, (g key off leaf).memWf = true) : (s.atPeer m wr a n g).memWf = true := by
  unfold State.atPeer
  split
  · exact hg _ _ _
  · exact h
  · exact reject_memWf h
  · exact answerDead_memWf h

theorem sound_memWf {s : State} {m : RMsg} {key : Nat} {g : State} (h : s.memWf = true) (hg : g.memWf = true) :
    (s.sound m key g).memWf = true :=
  ite_memWf (answerDead_memWf h) hg

theorem leafDirty_memWf {leaf} (h : s.memWf = true) : (s.leafDirty leaf).memWf = true := by
  unfold State.leafDirty
  split
  · exact setMem_of h (setDirty_wf _ _)
  · exact h

theorem peerWrites_memWf {m seq idx a key leaf bs} (h : s.memWf = true) : (s.peerWrites m seq idx a key leaf bs).memWf = true :=
  sound_memWf h (send_memWf (leafDirty_memWf (arriveLine_memWf _ _ _ _ _ _ _ _ h)))

theorem peerFold_memWf {m seq idx p bs} (h : s.memWf = true) : (s.peerFold m seq idx p bs).memWf = true := by
  unfold State.peerFold
  split
  · exact send_memWf h
  · split
    · exact send_memWf (setMem_of h (setFold_wf _ _ _))
    · exact ite_memWf (peerWrites_memWf h) (setMem_of (peerWrites_memWf h) (setFold_wf _ _ _))

theorem peerLoad_memWf {m req a sz set} (h : s.memWf = true) : (s.peerLoad m req a sz set).memWf = true := by
  unfold State.peerLoad
  dsimp only
  split
  · exact send_memWf h
  all_goals exact atPeer_memWf h (fun _ _ _ => sound_memWf h (send_memWf h))

theorem peerAtomic_memWf {m tag retry req seq a sz cmp new} (h : s.memWf = true) : (s.peerAtomic m tag retry req seq a sz cmp new).memWf =
  true := by
  unfold State.peerAtomic
  refine atPeer_memWf h fun _ _ _ => ?_
  split
  · exact send_memWf h
  · exact send_memWf h
  · refine sound_memWf h (send_memWf (ite_memWf ?_ (setMem_of ?_ (cachePut_wf _ _))))
    · split
      · exact leafDirty_memWf (setMem_of (arriveLine_memWf _ _ _ _ _ _ _ _ h) (restore_wf _ _))
      · exact h
    · split
      · exact leafDirty_memWf (setMem_of (arriveLine_memWf _ _ _ _ _ _ _ _ h) (restore_wf _ _))
      · exact h

theorem peerRelease_memWf {m t arg id set} (h : s.memWf = true) : (s.peerRelease m t arg id set).memWf = true :=
  ite_memWf (reject_memWf h) (ite_memWf (memWf_of_eq rfl rfl rfl h) (release_memWf h))

theorem peerMark_memWf {s : State} {m : RMsg} {seq : CSeq} {a : Word} {st : VState} {g : State → State} (h : s.memWf = true)
    (hg : ∀ t, t.memWf = true → (g t).memWf = true) : (s.peerMark m seq a st g).memWf = true := by
  unfold State.peerMark
  split
  · exact hg _ (setMem_of h (mark_wf _ _ _ _ _))
  all_goals exact hg _ h

theorem quietHere_memWf {m seq idx} (h : s.memWf = true) : (s.quietHere m seq idx).memWf = true :=
  ite_memWf (progress_memWf (setLine_memWf h)) h

theorem discards_memWf {m seq} (h : s.memWf = true) : (s.discards m seq).memWf = true :=
  setFabric_memWf (setMem_of h (discardOf_wf _ _ _))

theorem receiveRequest_memWf {m} (h : s.memWf = true) : (s.receiveRequest m).memWf = true := by
  unfold State.receiveRequest
  split
  · exact discards_memWf h
  · refine ite_memWf (reject_memWf h) (ite_memWf (reject_memWf h) ?_)
    split
    · exact atPeer_memWf h fun _ _ _ => peerWrites_memWf h
    · exact atPeer_memWf h fun _ _ _ => peerFold_memWf h
    · exact peerMark_memWf h fun _ h1 => send_memWf h1
    · exact peerMark_memWf h fun _ h1 => quietHere_memWf h1
    · exact peerRelease_memWf h
    · exact peerLoad_memWf h
    · exact peerAtomic_memWf h
    · exact digestArrives_memWf h
    · exact noticeArrives_memWf h
    all_goals exact h

theorem atomicReplied_memWf {n req old wrote} (h : s.memWf = true) : (s.atomicReplied n req old wrote).memWf = true := by
  unfold State.atomicReplied
  dsimp only
  split
  · exact h
  · split
    · exact progress_memWf (setCore_of h (fun h1 => ite_padWf (padWf_of_eq rfl (finish_padWf h1)) (dropAtom_padWf (finish_padWf h1))))
    · exact h

theorem answered_memWf {body} (h : s.memWf = true) : (s.answered body).memWf = true := by
  unfold State.answered
  split
  · exact memWf_of_eq rfl rfl rfl h
  · exact h

theorem takeReply_memWf {n body} (h : s.memWf = true) : (s.takeReply n body).memWf = true := by
  unfold State.takeReply
  dsimp only
  split
  · split
    · exact ite_memWf (ackLine_memWf (setLine_memWf h)) h
    · exact h
  · exact progress_memWf (setLine_memWf h)
  · exact setCore_same h rfl
  · exact atomicReplied_memWf h
  all_goals exact h

theorem receiveReply_memWf {m} (h : s.memWf = true) : (s.receiveReply m).memWf = true := by
  unfold State.receiveReply
  refine ite_memWf (answered_memWf h) (ite_memWf (reject_memWf (answered_memWf h)) ?_)
  split
  · exact remoteError_memWf (answered_memWf h)
  · exact remoteError_memWf (answered_memWf h)
  · exact endCtx_memWf (answered_memWf h)
  · split
    · exact answered_memWf h
    · exact ite_memWf (takeReply_memWf (answered_memWf h)) (answered_memWf h)

theorem receive_memWf {m} (h : s.memWf = true) : (s.receive m).memWf = true := ite_memWf (receiveReply_memWf h) (receiveRequest_memWf h)
theorem deliverMsg_memWf {m} (h : s.memWf = true) : (s.deliverMsg m).memWf = true := receive_memWf (setFabric_memWf h)
theorem arrive_memWf {m} (h : s.memWf = true) : (s.arrive m).memWf = true := ite_memWf h (ite_memWf (setFabric_memWf h) (receive_memWf h))
theorem heard_memWf {f} (h : s.memWf = true) : (s.heard f).memWf = true := memWf_of_eq rfl rfl rfl h

@[simp] theorem execRemoteMessageReceive_keeps {m} (h : s.memWf = true) : Keeps (execRemoteMessageReceive m s) :=
  ite_keeps (next_keeps h) (ite_keeps (next_keeps (ite_memWf (deliverMsg_memWf h) h)) (ite_keeps (next_keeps h) (next_keeps (pump_memWf
    (arrive_memWf (heard_memWf h))))))

theorem fromPartner_memWf {s : State} {k : Nat} {body : RBody} {g : State → State} (h : s.memWf = true)
    (hg : (g s).memWf = true) : (s.fromPartner k body g).memWf = true := by
  unfold State.fromPartner
  split
  · exact ite_memWf (deliverMsg_memWf h) h
  · exact ite_memWf h hg

@[simp] theorem execDigestArrival_keeps {ctx epoch d} (h : s.memWf = true) : Keeps (execDigestArrival ctx epoch d s) :=
  next_keeps (fromPartner_memWf h (digestArrives_memWf h))

@[simp] theorem execEndNoticeArrival_keeps {ctx} (h : s.memWf = true) : Keeps (execEndNoticeArrival ctx s) :=
  next_keeps (fromPartner_memWf h (noticeArrives_memWf h))

@[simp] theorem execHoldLimitExpiry_keeps {core req} (h : s.memWf = true) : Keeps (execHoldLimitExpiry core req s) := by
  unfold execHoldLimitExpiry
  dsimp only
  split
  · split
    · exact next_keeps (ite_memWf (remoteError_memWf h) h)
    · exact next_keeps h
  · exact next_keeps (ite_memWf (remoteError_memWf h) h)
  · exact next_keeps h

/-! ### Machine/Links.lean -/

theorem setFibre_memWf {f q} (h : s.memWf = true) : (s.setFibre f q).memWf = true := setFabric_memWf h

theorem writeWaves_memWf {i j v} (h : s.memWf = true) : (s.writeWaves i j v).memWf = true :=
  ite_memWf h (ite_memWf (setFabric_memWf h) (setFabric_memWf h))

@[simp] theorem execCwaveWrite_keeps {i j v} (h : s.memWf = true) : Keeps (execCwaveWrite i j v s) := next_keeps (writeWaves_memWf h)

@[simp] theorem execCircuitReassignComplete_keeps {i j} (h : s.memWf = true) : Keeps (execCircuitReassignComplete i j s) :=
  next_keeps (setFabric_memWf h)

theorem lwDrain_memWf (h : s.memWf = true) : s.lwDrain.memWf = true := ite_memWf (setFabric_memWf h) h
@[simp] theorem execLwDrain_keeps (h : s.memWf = true) : Keeps (execLwDrain s) := next_keeps (lwDrain_memWf h)
theorem spareEvent_memWf {kind unit idx} (h : s.memWf = true) : (s.spareEvent kind unit idx).memWf = true := post_memWf h

theorem lwRelock_memWf (h : s.memWf = true) : s.lwRelock.memWf = true :=
  ite_memWf (foldl_memWf (fun _ _ h1 => spareEvent_memWf h1) _ (setFabric_memWf h)) h

@[simp] theorem execLwRelock_keeps (h : s.memWf = true) : Keeps (execLwRelock s) := next_keeps (lwRelock_memWf h)
theorem lwGoDark_memWf (h : s.memWf = true) : s.lwGoDark.memWf = true := ite_memWf (setFabric_memWf h) h
@[simp] theorem execLwGoDark_keeps (h : s.memWf = true) : Keeps (execLwGoDark s) := next_keeps (lwGoDark_memWf h)
@[simp] theorem execDrainComplete_keeps (h : s.memWf = true) : Keeps (execDrainComplete s) := next_keeps (ite_memWf (setFabric_memWf h) h)

@[simp] theorem execLockComplete_keeps {up} (h : s.memWf = true) : Keeps (execLockComplete up s) :=
  ite_keeps (next_keeps h) (next_keeps (pump_memWf (post_memWf (setFabric_memWf h))))

theorem stageKey_memWf {f addr tx} (h : s.memWf = true) : (s.stageKey f addr tx).memWf = true := by
  unfold State.stageKey
  split
  · exact setFibre_memWf h
  · exact ite_memWf (pump_memWf (setFibre_memWf h)) (setFibre_memWf h)

@[simp] theorem execStageTransmitKey_keeps {f addr} (h : s.memWf = true) : Keeps (execStageTransmitKey f addr s) :=
  next_keeps (ite_memWf (stageKey_memWf h) h)

@[simp] theorem execStageReceiveKey_keeps {f addr} (h : s.memWf = true) : Keeps (execStageReceiveKey f addr s) :=
  next_keeps (ite_memWf (stageKey_memWf h) h)

@[simp] theorem execKeyChangeFlitArrival_keeps {f} (h : s.memWf = true) : Keeps (execKeyChangeFlitArrival f s) := by
  unfold execKeyChangeFlitArrival
  dsimp only
  split
  · exact next_keeps (setFibre_memWf h)
  · exact next_keeps h

@[simp] theorem execFibreHeld_keeps {f} (h : s.memWf = true) : Keeps (execFibreHeld f s) :=
  ite_keeps (next_keeps (post_memWf (setFibre_memWf h))) (next_keeps h)

@[simp] theorem execFibreFailed_keeps {f} (h : s.memWf = true) : Keeps (execFibreFailed f s) :=
  ite_keeps (next_keeps (pump_memWf (post_memWf (setFabric_memWf h)))) (next_keeps h)

@[simp] theorem execFlitAuthFailure_keeps {f} (h : s.memWf = true) : Keeps (execFlitAuthFailure f s) :=
  next_keeps (ite_memWf (setFibre_memWf h) h)

/-! ### Machine/ScaleOut.lean -/

theorem setPort_memWf {p q} (h : s.memWf = true) : (s.setPort p q).memWf = true := setFabric_memWf h
theorem portEvent_memWf {p} (h : s.memWf = true) : (s.portEvent p).memWf = true := post_memWf h

@[simp] theorem execScaleoutRetransmit_keeps {pkg seq} (h : s.memWf = true) : Keeps (execScaleoutRetransmit pkg seq s) := by
  unfold execScaleoutRetransmit
  split
  · exact next_keeps (setFabric_memWf h)
  · exact next_keeps h

@[simp] theorem execScaleoutAcknowledgement_keeps {pkg seq} (h : s.memWf = true) : Keeps (execScaleoutAcknowledgement pkg seq s) :=
  next_keeps (setFabric_memWf h)

@[simp] theorem execScaleoutUndeliverable_keeps {pkg seq} (h : s.memWf = true) : Keeps (execScaleoutUndeliverable pkg seq s) := by
  unfold execScaleoutUndeliverable
  split
  · exact next_keeps h
  · exact next_keeps (foldl_memWf (fun _ _ h1 => unreachable_memWf h1) _ (setFabric_memWf h))

@[simp] theorem execScaleoutFrameReceive_keeps {pkg seq msgs} (h : s.memWf = true) : Keeps (execScaleoutFrameReceive pkg seq msgs s) :=
  ite_keeps (next_keeps h) (next_keeps (setFabric_memWf (foldl_memWf (fun _ _ h1 => arrive_memWf h1) _ h)))

theorem changePort_memWf {p q} (h : s.memWf = true) : (s.changePort p q).memWf = true :=
  pump_memWf (ite_memWf (setFabric_memWf h) (portEvent_memWf (setFabric_memWf h)))

theorem stagePortKey_memWf {p addr tx} (h : s.memWf = true) : (s.stagePortKey p addr tx).memWf = true := by
  unfold State.stagePortKey
  split
  · exact setPort_memWf h
  · exact ite_memWf (changePort_memWf h) (setPort_memWf h)

@[simp] theorem execScaleoutStageTransmitKey_keeps {p addr} (h : s.memWf = true) : Keeps (execScaleoutStageTransmitKey p addr s) :=
  next_keeps (ite_memWf (stagePortKey_memWf h) h)

@[simp] theorem execScaleoutStageReceiveKey_keeps {p addr} (h : s.memWf = true) : Keeps (execScaleoutStageReceiveKey p addr s) :=
  next_keeps (ite_memWf (stagePortKey_memWf h) h)

@[simp] theorem execScaleoutPortHeld_keeps {p} (h : s.memWf = true) : Keeps (execScaleoutPortHeld p s) :=
  next_keeps (ite_memWf (changePort_memWf h) h)

@[simp] theorem execScaleoutPortStateChange_keeps {p st} (h : s.memWf = true) : Keeps (execScaleoutPortStateChange p st s) :=
  next_keeps (ite_memWf (changePort_memWf h) h)

/-! ### Machine/Package.lean -/

theorem harvestEvent_memWf {d} (h : s.memWf = true) : (s.harvestEvent d).memWf = true := post_memWf h

theorem retireCluster_memWf {die pc} (h : s.memWf = true) : (s.retireCluster die pc).memWf = true :=
  ite_memWf (spareEvent_memWf (harvestEvent_memWf (setDie_memWf h))) (harvestEvent_memWf (setDie_memWf h))

@[simp] theorem execHarvestBlockChange_keeps {die pc core} (h : s.memWf = true) : Keeps (execHarvestBlockChange die pc core s) := by
  unfold execHarvestBlockChange
  refine ite_keeps (next_keeps h) ?_
  split
  · exact next_keeps (retireCluster_memWf h)
  · exact next_keeps (ite_memWf (harvestEvent_memWf (setDie_memWf h)) h)

theorem waveFails_memWf {f w} (h : s.memWf = true) : (s.waveFails f w).memWf = true :=
  ite_memWf h (ite_memWf (spareEvent_memWf (setFibre_memWf h)) (setFibre_memWf h))

theorem fromPool_memWf {s t : State} {pool size kind unit idx : Nat} (e : s.fromPool pool size kind unit idx = some t)
    (h : s.memWf = true) : t.memWf = true := by
  unfold State.fromPool at e
  dsimp only at e
  split at e
  · cases e; exact spareEvent_memWf h
  · cases e

theorem getD_memWf {o : Option State} {s : State} (ho : ∀ t, o = some t → t.memWf = true) (h : s.memWf = true) :
    (o.getD s).memWf = true := by
  cases o with
  | none => exact h
  | some t => exact ho t rfl

theorem circuitFails_memWf {i j idx} (h : s.memWf = true) : (s.circuitFails i j idx).memWf = true := by
  unfold State.circuitFails
  refine ite_memWf h ?_
  split
  · exact setFabric_memWf (fromPool_memWf ‹_› h)
  · exact h

@[simp] theorem execSpareBringIn_keeps {kind unit idx} (h : s.memWf = true) : Keeps (execSpareBringIn kind unit idx s) := by
  unfold execSpareBringIn
  refine next_keeps ?_
  split
  · exact ite_memWf h (retireCluster_memWf h)
  · exact ite_memWf h (getD_memWf (fun _ e => fromPool_memWf e h) h)
  · exact ite_memWf h (getD_memWf (fun _ e => fromPool_memWf e h) h)
  · exact waveFails_memWf h
  · exact circuitFails_memWf h
  · exact h

theorem cleared_memWf {s : State} {m : Mgmt} (h : s.memWf = true) : (s.cleared m).memWf = true := by
  unfold State.cleared
  exact memWf_of_parts (mem_wf reset_memWf :) (host_wf h :) (pads_wf reset_memWf :)

theorem shutdown_memWf {cause sensor reading} (h : s.memWf = true) : (s.shutdown cause sensor reading).memWf = true :=
  memWf_of_eq rfl rfl rfl h

theorem powerOff_memWf {cause sensor reading} (h : s.memWf = true) : (s.powerOff cause sensor reading).memWf = true :=
  memWf_of_eq rfl rfl rfl (cleared_memWf (shutdown_memWf h))

@[simp] theorem execResetBoot_keeps (h : s.memWf = true) : Keeps (execResetBoot s) :=
  ite_keeps (next_keeps h) (next_keeps (cleared_memWf (ite_memWf (shutdown_memWf h) h)))

@[simp] theorem execManagementPowerRequest_keeps {up} (h : s.memWf = true) : Keeps (execManagementPowerRequest up s) :=
  next_keeps (ite_memWf (memWf_of_eq rfl rfl rfl h) (ite_memWf h (powerOff_memWf h)))

@[simp] theorem execManagementFirmwareInstall_keeps {image} (h : s.memWf = true) : Keeps (execManagementFirmwareInstall image s) :=
  next_keeps (memWf_of_eq rfl rfl rfl h)

@[simp] theorem execManagementRead_keeps (h : s.memWf = true) : Keeps (execManagementRead s) := next_keeps (memWf_of_eq rfl rfl rfl h)

@[simp] theorem execJunctionTemperature_keeps {sensor temp} (h : s.memWf = true) : Keeps (execJunctionTemperature sensor temp s) :=
  next_keeps (ite_memWf h (ite_memWf (post_memWf (memWf_of_eq rfl rfl rfl h)) (memWf_of_eq rfl rfl rfl h)))

@[simp] theorem execThermalShutdown_keeps {flow sensor reading} (h : s.memWf = true) : Keeps (execThermalShutdown flow sensor reading s)
  :=
  next_keeps (ite_memWf h (ite_memWf (ite_memWf (powerOff_memWf (memWf_of_eq rfl rfl rfl h)) h) (ite_memWf (powerOff_memWf (memWf_of_eq
    rfl rfl rfl h)) h)))

@[simp] theorem execSupplyOutOfTolerance_keeps {input rail reading} (h : s.memWf = true) : Keeps (execSupplyOutOfTolerance input rail
  reading s) := by
  unfold execSupplyOutOfTolerance
  refine next_keeps (ite_memWf h (ite_memWf (ite_memWf (powerOff_memWf (memWf_of_eq rfl rfl rfl h)) h) ?_))
  split
  · exact ite_memWf (powerOff_memWf (memWf_of_eq rfl rfl rfl h)) h
  · exact h

theorem attestStart_memWf {out} (h : s.memWf = true) : (s.attestStart out).memWf = true := ite_memWf h (memWf_of_eq rfl rfl rfl h)
@[simp] theorem execProduceReport_keeps (h : s.memWf = true) : Keeps (execProduceReport s) := next_keeps (attestStart_memWf h)
@[simp] theorem execWriteEndorsement_keeps (h : s.memWf = true) : Keeps (execWriteEndorsement s) := next_keeps (attestStart_memWf h)

theorem writeBlocks_memWf : ∀ {k a : Nat} {bs : List Byte} {s : State}, s.memWf = true → (s.writeBlocks k a bs).1.memWf = true
  | 0, _, _, _, h => h
  | _ + 1, _, _, _, h => by
    unfold State.writeBlocks
    split
    · exact h
    · split
      · exact h
      · exact writeBlocks_memWf (hostWrite_memWf ‹_› h)

@[simp] theorem execAttestationComplete_keeps (h : s.memWf = true) : Keeps (execAttestationComplete s) :=
  ite_keeps (next_keeps h) (next_keeps (memWf_of_eq rfl rfl rfl (writeBlocks_memWf h)))

/-! ### Machine/Aperture.lean -/

theorem writeLow_memWf {o v} (h : s.memWf = true) : (s.writeLow o v).memWf = true := by
  unfold State.writeLow
  refine ite_memWf (writeWaves_memWf h) ?_
  split
  · exact memWf_of_eq rfl rfl rfl h
  · exact ite_memWf (setFabric_memWf h) h
  · exact ite_memWf (setFabric_memWf h) h
  · split
    · exact lwDrain_memWf h
    · exact lwRelock_memWf h
    · exact lwGoDark_memWf h
    · exact h
  · exact ite_memWf h (memWf_of_eq rfl rfl rfl h)
  · exact ite_memWf h (memWf_of_eq rfl rfl rfl h)
  · exact ite_memWf h (memWf_of_eq rfl rfl rfl h)
  · exact ite_memWf h (memWf_of_eq rfl rfl rfl h)
  · exact ite_memWf h (memWf_of_eq rfl rfl rfl h)
  · split
    · exact attestStart_memWf h
    · exact attestStart_memWf h
    · exact h
  · exact h

theorem writeQueue_memWf {n o v} (h : s.memWf = true) : (s.writeQueue n o v).memWf = true := by
  unfold State.writeQueue
  split
  · exact ite_memWf (setQueue_memWf h) h
  · exact ite_memWf (setQueue_memWf h) h
  · exact ite_memWf (enableQueue_memWf h) (disableQueue_memWf h)
  · exact doorbell_memWf h
  · exact ite_memWf (setQueue_memWf h) h
  · exact setQueue_memWf h
  · exact h

theorem writeFault_memWf {k o v} (h : s.memWf = true) : (s.writeFault k o v).memWf = true := by
  unfold State.writeFault
  split
  · exact freeRecord_memWf h
  · exact ite_memWf h (xcmd_memWf h)
  · exact h

theorem writePeer_memWf {k o v} (h : s.memWf = true) : (s.writePeer k o v).memWf = true := setCtx_memWf h

theorem writeFibre_memWf {f o v} (h : s.memWf = true) : (s.writeFibre f o v).memWf = true := by
  unfold State.writeFibre
  split
  · exact pump_memWf (setFibre_memWf h)
  · exact setFibre_memWf h
  · split
    · exact stageKey_memWf h
    · exact stageKey_memWf h
    · exact setFibre_memWf h
  · exact h

theorem writePair_memWf {k o v} (h : s.memWf = true) : (s.writePair k o v).memWf = true := ite_memWf h (setCtx_memWf h)

theorem writeScale_memWf {o v} (h : s.memWf = true) : (s.writeScale o v).memWf = true := by
  unfold State.writeScale
  refine ite_memWf (pump_memWf (setFabric_memWf h)) (ite_memWf ?_ ?_)
  · split
    · exact changePort_memWf h
    · split
      · exact stagePortKey_memWf h
      · exact stagePortKey_memWf h
      · exact setPort_memWf h
    · exact h
  · split
    · exact pump_memWf (setFabric_memWf h)
    · exact setFabric_memWf h
    · exact setFabric_memWf h
    · exact h

theorem stateOf_memWf {s : State} {o : Host.Outcome State Fault Refusal} (h : s.memWf = true) (ho : Keeps o) :
    (stateOf s o).memWf = true := by
  cases o with
  | next t => exact ho t rfl
  | fault r => exact h
  | refused r => exact h

theorem writeDebug_memWf {n o v} (h : s.memWf = true) : (s.writeDebug n o v).memWf = true := by
  unfold State.writeDebug
  refine ite_memWf (setDebug_memWf h) ?_
  split
  · split
    · exact stateOf_memWf h (execDebugHaltCommand_keeps h)
    · exact stateOf_memWf h (execDebugResume_keeps h)
    · exact stateOf_memWf h (execDebugStep_keeps h)
    · exact stateOf_memWf h (execDebugDrain_keeps h)
    · exact h
  · exact setDebug_memWf h
  · exact setDebug_memWf h
  · exact stateOf_memWf h (execDdataWrite_keeps h)
  · exact h

theorem apertureWrite_memWf {o v} (h : s.memWf = true) : (s.apertureWrite o v).memWf = true :=
  ite_memWf h (ite_memWf (writeLow_memWf h) (ite_memWf (setEvents_memWf h) (ite_memWf (writeQueue_memWf h) (ite_memWf (ite_memWf
    (freeCtx_memWf h) h) (ite_memWf (writeFault_memWf h) (ite_memWf (writePeer_memWf h) (ite_memWf (writeFibre_memWf h) (ite_memWf
    (writePair_memWf h) (ite_memWf (writeScale_memWf h) (ite_memWf (writeDebug_memWf h) h))))))))))

@[simp] theorem execRegisterWrite_keeps {off v} (h : s.memWf = true) : Keeps (execRegisterWrite off v s) :=
  next_keeps (ite_memWf h (ite_memWf (notPerformed_memWf h) (apertureWrite_memWf h)))

/-! ### Machine/Control.lean -/

theorem jump_keeps {i regs target ws} (h : s.memWf = true) : Keeps (jump i regs target ws s) := next_keeps (issue_memWf h (fun _ => h))
@[simp] theorem execBr_keeps {hd off} (h : s.memWf = true) : Keeps (execBr hd off s) := jump_keeps h
@[simp] theorem execBrFar_keeps {hd off} (h : s.memWf = true) : Keeps (execBrFar hd off s) := jump_keeps h
@[simp] theorem execJmp_keeps {hd a} (h : s.memWf = true) : Keeps (execJmp hd a s) := jump_keeps h
@[simp] theorem execCall_keeps {hd d off} (h : s.memWf = true) : Keeps (execCall hd d off s) := jump_keeps h
@[simp] theorem execCallFar_keeps {hd d off} (h : s.memWf = true) : Keeps (execCallFar hd d off s) := jump_keeps h
@[simp] theorem execCallr_keeps {hd d a} (h : s.memWf = true) : Keeps (execCallr hd d a s) := jump_keeps h
@[simp] theorem execRet_keeps {hd a} (h : s.memWf = true) : Keeps (execRet hd a s) := jump_keeps h

@[simp] theorem execLoop_keeps {hd d off} (h : s.memWf = true) : Keeps (execLoop hd d off s) :=
  next_keeps (issue_memWf h (fun _ => ite_actWf h h))

/-! ### Machine/Vector.lean -/

theorem vecMode_actWf {f : Frame} {w g} (ha : Act.Wf g) : Act.Wf (f.vecMode w g) := ite_actWf trivial (ite_actWf trivial ha)

theorem vecOp_keeps {i w lat regs dst srcs val} (h : s.memWf = true) : Keeps (vecOp i w lat regs dst srcs val s) :=
  next_keeps (issue_memWf h (fun _ => vecMode_actWf (act_actWf (fun _ => ite_actWf (fresh_memWf (setCore_same h rfl)) h))))

@[simp] theorem execLongVectorComplete_keeps {core} (h : s.memWf = true) : Keeps (execLongVectorComplete core s) := by
  unfold execLongVectorComplete
  dsimp only
  split
  · exact next_keeps h
  · exact ite_keeps (next_keeps h) (next_keeps (setCore_of h (fun h1 => count_padWf (longDone_padWf h1))))

@[simp] theorem execVmodeLong_keeps {hd} (h : s.memWf = true) : Keeps (execVmodeLong hd s) :=
  next_keeps (issue_memWf h (fun _ => ite_actWf h (ite_actWf trivial (ite_actWf (setCore_same h rfl) (setCore_same h rfl)))))

@[simp] theorem execVmodeShort_keeps {hd} (h : s.memWf = true) : Keeps (execVmodeShort hd s) :=
  next_keeps (issue_memWf h (fun _ => ite_memWf (setCore_same h rfl) h))

@[simp] theorem execVld_keeps {hd x w d p} (h : s.memWf = true) : Keeps (execVld hd x w d p s) :=
  next_keeps (issue_memWf h (fun _ => vecMode_actWf (act_actWf (fun _ => padAct_actWf (ite_actWf (fresh_memWf (setCore_same h rfl)) h)))))

@[simp] theorem execVst_keeps {hd x w p a} (h : s.memWf = true) : Keeps (execVst hd x w p a s) :=
  next_keeps (issue_memWf h (fun _ => vecMode_actWf (act_actWf (fun _ => padAct_actWf (instrStore_memWf (ite_memWf (fresh_memWf
    (setCore_same h rfl)) h))))))

theorem withLines_actWf {s : State} {n : Nat} {f : Frame} {wr : Bool} {a : Word} {al : Nat} {g : List Place → State → Act}
    (h : s.memWf = true) (hg : ∀ ps t, t.memWf = true → Act.Wf (g ps t)) : Act.Wf (s.withLines n f wr a al g) := by
  unfold State.withLines
  dsimp only
  refine act_actWf fun _ => ite_actWf trivial ?_
  split
  · exact hg _ _ (placeAll_memWf h)
  · exact resAct_actWf (placeAll_memWf h)

@[simp] theorem execVldv_keeps {hd w d a} (h : s.memWf = true) : Keeps (execVldv hd w d a s) :=
  next_keeps (issue_memWf h (fun _ => vecMode_actWf (withLines_actWf h (fun _ _ h1 => reqAct_actWf (request_memWf (setCore_same h1
    rfl))))))

@[simp] theorem execVstv_keeps {hd w a b} (h : s.memWf = true) : Keeps (execVstv hd w a b s) :=
  next_keeps (issue_memWf h (fun _ => vecMode_actWf (withLines_actWf h (fun _ _ h1 => bundlePut_actWf (ite_memWf (fresh_memWf
    (setCore_same h1 rfl)) h1)))))

theorem vec1_keeps {i w lat f d a op} (h : s.memWf = true) : Keeps (vec1 i w lat f d a op s) := vecOp_keeps h
theorem vec2_keeps {i w lat f d a b op} (h : s.memWf = true) : Keeps (vec2 i w lat f d a b op s) := vecOp_keeps h
theorem vec3_keeps {i w lat f d a b c op} (h : s.memWf = true) : Keeps (vec3 i w lat f d a b c op s) := vecOp_keeps h
@[simp] theorem execVadd_keeps {hd w sat f r d a b} (h : s.memWf = true) : Keeps (execVadd hd w sat f r d a b s) := vec2_keeps h
@[simp] theorem execVsub_keeps {hd w sat f r d a b} (h : s.memWf = true) : Keeps (execVsub hd w sat f r d a b s) := vec2_keeps h
@[simp] theorem execVmul_keeps {hd w f r d a b} (h : s.memWf = true) : Keeps (execVmul hd w f r d a b s) := vec2_keeps h
@[simp] theorem execVfma_keeps {hd w f r d a b c} (h : s.memWf = true) : Keeps (execVfma hd w f r d a b c s) := vec3_keeps h
@[simp] theorem execVmin_keeps {hd w u f d a b} (h : s.memWf = true) : Keeps (execVmin hd w u f d a b s) := vec2_keeps h
@[simp] theorem execVmax_keeps {hd w u f d a b} (h : s.memWf = true) : Keeps (execVmax hd w u f d a b s) := vec2_keeps h
@[simp] theorem execVminp_keeps {hd w f d a b} (h : s.memWf = true) : Keeps (execVminp hd w f d a b s) := vec2_keeps h
@[simp] theorem execVmaxp_keeps {hd w f d a b} (h : s.memWf = true) : Keeps (execVmaxp hd w f d a b s) := vec2_keeps h
@[simp] theorem execVclamp_keeps {hd w u f d a b c} (h : s.memWf = true) : Keeps (execVclamp hd w u f d a b c s) := vec3_keeps h
@[simp] theorem execVneg_keeps {hd w f d a} (h : s.memWf = true) : Keeps (execVneg hd w f d a s) := vec1_keeps h
@[simp] theorem execVabs_keeps {hd w f d a} (h : s.memWf = true) : Keeps (execVabs hd w f d a s) := vec1_keeps h
@[simp] theorem execVand_keeps {hd w d a b} (h : s.memWf = true) : Keeps (execVand hd w d a b s) := vec2_keeps h
@[simp] theorem execVor_keeps {hd w d a b} (h : s.memWf = true) : Keeps (execVor hd w d a b s) := vec2_keeps h
@[simp] theorem execVxor_keeps {hd w d a b} (h : s.memWf = true) : Keeps (execVxor hd w d a b s) := vec2_keeps h
@[simp] theorem execVshl_keeps {hd w f d a b} (h : s.memWf = true) : Keeps (execVshl hd w f d a b s) := vec2_keeps h
@[simp] theorem execVshr_keeps {hd w sx f d a b} (h : s.memWf = true) : Keeps (execVshr hd w sx f d a b s) := vec2_keeps h
@[simp] theorem execVcmp_keeps {hd w cond f d a b} (h : s.memWf = true) : Keeps (execVcmp hd w cond f d a b s) := vec2_keeps h
@[simp] theorem execVsel_keeps {hd w f d m a b} (h : s.memWf = true) : Keeps (execVsel hd w f d m a b s) := vecOp_keeps h
@[simp] theorem execVred_keeps {hd w op f r d a} (h : s.memWf = true) : Keeps (execVred hd w op f r d a s) := vecOp_keeps h
@[simp] theorem execVdot_keeps {hd w dst src r d a b} (h : s.memWf = true) : Keeps (execVdot hd w dst src r d a b s) := vecOp_keeps h
@[simp] theorem execVperm_keeps {hd w f d a b c} (h : s.memWf = true) : Keeps (execVperm hd w f d a b c s) := vecOp_keeps h
@[simp] theorem execVbcast_keeps {hd w f d a} (h : s.memWf = true) : Keeps (execVbcast hd w f d a s) := vecOp_keeps h
@[simp] theorem execVmovg_keeps {hd w f d a idx} (h : s.memWf = true) : Keeps (execVmovg hd w f d a idx s) := vecOp_keeps h
@[simp] theorem execVins_keeps {hd w f d a idx} (h : s.memWf = true) : Keeps (execVins hd w f d a idx s) := vecOp_keeps h

@[simp] theorem execVcvt_keeps {hd w dst src r d a part rs} (h : s.memWf = true) : Keeps (execVcvt hd w dst src r d a part rs s) := by
  unfold execVcvt
  exact vecOp_keeps h

theorem attach_actWf {q : Succ} {f : Frame} {id : Nat} {g : Frame → Act} (hg : ∀ f, Act.Wf (g f)) : Act.Wf (q.attach f id g) := by
  unfold Succ.attach
  split
  · exact hg _
  · exact hg _
  · exact trivial

@[simp] theorem execVchain_keeps {hd dst src r pd ps0 ps1 gk gn gs ops} (h : s.memWf = true) : Keeps (execVchain hd dst src r pd ps0 ps1
  gk gn gs ops s) :=
  next_keeps (issue_memWf h (fun _ => waitAct_actWf (ite_actWf trivial (attach_actWf (fun _ => act_actWf (fun _ => padAct_actWf
    (fresh_memWf (setCore_same h rfl))))))))

theorem chainRun_memWf {q : ChainCmd} {n : Nat} : ∀ {k e : Nat} {s : State} {x : Exc}, s.memWf = true → (q.run n k e s x).1.memWf = true
  | 0, _, _, _, h => h
  | _ + 1, _, _, _, h => by
    unfold ChainCmd.run
    exact chainRun_memWf (padStore_memWf h)

theorem cmdComplete_memWf {n id x} (h : s.memWf = true) : (s.cmdComplete n id x).memWf = true :=
  offers_memWf (commandDone_memWf (setCore_of h (fun h1 => returnGrants_padWf (count_padWf h1))))

@[simp] theorem execChainRun_keeps {core lane} (h : s.memWf = true) : Keeps (execChainRun core lane s) := by
  unfold execChainRun
  dsimp only
  split
  · exact next_keeps h
  · exact ite_keeps (next_keeps (setCore_same h rfl)) (next_keeps (cmdComplete_memWf (chainRun_memWf (setCore_same h rfl))))

/-! ### Machine/Copy.lean -/

theorem engineTooOld_memWf {n q} (h : s.memWf = true) : (s.engineTooOld n q).memWf = true := by
  unfold State.engineTooOld
  dsimp only
  split
  · exact stopped_memWf (setCore_same h rfl)
  · exact endCtx_memWf h

theorem withEngine_memWf {s drop : State} {n : Nat} {q : Cmd} {xs : List Src} {g : List Byte → State} (hg : ∀ bs, (g bs).memWf = true)
    (h : drop.memWf = true) (hs : s.memWf = true) : (s.withEngine drop n q xs g).memWf = true := by
  unfold State.withEngine
  split
  · exact hg _
  · exact hs
  · exact engineTooOld_memWf h
  · exact endCtx_memWf h

theorem placeSorted_memWf {s : State} {n ctx : Nat} {wr : Bool} {ks : List (Word × Kind)} (h : s.memWf = true) :
    (s.placeSorted n ctx wr ks).2.memWf = true := by
  unfold State.placeSorted
  dsimp only
  split <;> exact placeAll_memWf h

theorem copyOp_keeps {i kind p a gn gv gs pw stride rowlen} (h : s.memWf = true) : Keeps (copyOp i kind p a gn gv gs pw stride rowlen s)
  := by
  unfold copyOp
  dsimp only
  refine next_keeps (issue_memWf h (fun _ => waitAct_actWf (ite_actWf trivial (attach_actWf (fun _ => ite_actWf trivial (act_actWf (fun _
    => ?_)))))))
  split
  · exact resAct_actWf (placeSorted_memWf h)
  · exact padAct_actWf (fresh_memWf (setCore_same (placeSorted_memWf h) rfl))

@[simp] theorem execCpys_keeps {hd p a gn gv gs pw} (h : s.memWf = true) : Keeps (execCpys hd p a gn gv gs pw s) := copyOp_keeps h

@[simp] theorem execCpyc_keeps {hd op f r p a gn gv gs pw} (h : s.memWf = true) : Keeps (execCpyc hd op f r p a gn gv gs pw s) :=
  copyOp_keeps h

@[simp] theorem execCpyg_keeps {hd p a gn gv gs pw stride rowlen} (h : s.memWf = true) : Keeps (execCpyg hd p a gn gv gs pw stride rowlen
  s) :=
  copyOp_keeps h

@[simp] theorem execCpyf_keeps {hd p a gn gv gs pw} (h : s.memWf = true) : Keeps (execCpyf hd p a gn gv gs pw s) := copyOp_keeps h

theorem copyEnd_memWf {n q x} (h : s.memWf = true) : (s.copyEnd n q x).memWf = true := by
  unfold State.copyEnd
  refine cmdComplete_memWf ?_
  split
  · exact padStore_memWf h
  · exact h

theorem copySend_memWf {n q} (h : s.memWf = true) : (s.copySend n q).memWf = true :=
  progress_memWf (foldl_memWf (fun _ _ h1 => addClosed_memWf h1) _ h)

@[simp] theorem execCopyCommandRun_keeps {core} (h : s.memWf = true) : Keeps (execCopyCommandRun core s) := by
  unfold execCopyCommandRun
  dsimp only
  split
  · exact next_keeps h
  · exact ite_keeps (next_keeps (setCore_same h rfl)) (ite_keeps (next_keeps h) (ite_keeps (ite_keeps (next_keeps (ite_memWf h
      (copyEnd_memWf (setCore_same h rfl)))) (ite_keeps (next_keeps h) (ite_keeps (next_keeps (endCtx_memWf (setCore_same h rfl)))
      (next_keeps (copySend_memWf (setCore_same h rfl)))))) (next_keeps (withEngine_memWf (fun _ => copyEnd_memWf (padStore_memWf
      (setCore_same h rfl))) (setCore_same h rfl) h))))

/-! ### Machine/Matrix.lean -/

theorem matIssue_keeps {i : Instr} {regs : List Reg} {s : State} {body : Nat → Core → Frame → Act} (h : s.memWf = true)
    (hb : ∀ f, Act.Wf (body s.cur (s.core s.cur) f)) : Keeps (matIssue i regs s body) :=
  next_keeps (issue_memWf h fun f => ite_actWf trivial (hb f))

theorem matCmd_keeps {i : Instr} {regs : List Reg} {s : State} {body : Nat → Core → Frame → Act} (h : s.memWf = true)
    (hb : ∀ f, Act.Wf (body s.cur (s.core s.cur) f)) : Keeps (matCmd i regs s body) :=
  next_keeps (issue_memWf h fun f => waitAct_actWf (ite_actWf trivial (hb f)))

theorem matPush_actWf {n f f1 op pages ws} (h : s.memWf = true) : Act.Wf (matPush s n f f1 op pages ws) :=
  padAct_actWf (fresh_memWf (setCore_same h rfl))

theorem matRead_actWf {n f dst op} (h : s.memWf = true) : Act.Wf (matRead s n f dst op) := fresh_memWf (setCore_same h rfl)

@[simp] theorem execMwl_keeps {hd wf p c0 cm1} (h : s.memWf = true) : Keeps (execMwl hd wf p c0 cm1 s) :=
  matCmd_keeps h fun _ => ite_actWf trivial (act_actWf (fun _ => matPush_actWf h))

@[simp] theorem execMswap_keeps {hd} (h : s.memWf = true) : Keeps (execMswap hd s) := matCmd_keeps h fun _ => matPush_actWf h

@[simp] theorem execMmul_keeps {hd af z p} (h : s.memWf = true) : Keeps (execMmul hd af z p s) :=
  matCmd_keeps h fun _ => act_actWf fun _ => matPush_actWf h

theorem images_actWf {s : State} {n : Nat} {f : Frame} {starts : List Word} {bytes : Nat} {g : List (List Src) → List Nat → State → Act}
    (h : s.memWf = true) (hg : ∀ xs ps t, t.memWf = true → Act.Wf (g xs ps t)) : Act.Wf (s.images n f starts bytes g) := by
  unfold State.images
  dsimp only
  refine act_actWf fun _ => ?_
  split
  · exact trivial
  · split
    · exact resAct_actWf (placeSorted_memWf h)
    · exact hg _ _ _ (placeSorted_memWf h)

@[simp] theorem execMwlv_keeps {hd wf a c0 cm1} (h : s.memWf = true) : Keeps (execMwlv hd wf a c0 cm1 s) :=
  matCmd_keeps h fun _ => ite_actWf trivial (images_actWf h (fun _ _ _ h1 => matPush_actWf h1))

theorem matSucc_actWf {s : State} {n : Nat} {f : Frame} {gs : GReg} {g : Frame → Act} (hg : ∀ f, Act.Wf (g f)) :
    Act.Wf (matSucc s n f gs g) :=
  attach_actWf fun _ => hg _

@[simp] theorem execMpass_keeps {hd af wf z p b gs sm1 stride} (h : s.memWf = true) : Keeps (execMpass hd af wf z p b gs sm1 stride s) :=
  matCmd_keeps h fun _ => matSucc_actWf fun _ => act_actWf fun _ => images_actWf h fun _ _ _ h1 => matPush_actWf h1

theorem weaveOp_keeps {i regs af z p q gs} (h : s.memWf = true) : Keeps (weaveOp i regs af z p q gs s) := by
  unfold weaveOp
  refine matCmd_keeps h fun _ => ite_actWf trivial (matSucc_actWf (fun _ => act_actWf (fun _ => ite_actWf trivial ?_)))
  split
  · exact trivial
  · exact matPush_actWf (setCore_same h rfl)

@[simp] theorem execMweave_keeps {hd af z p q gs} (h : s.memWf = true) : Keeps (execMweave hd af z p q gs s) := weaveOp_keeps h
@[simp] theorem execMskew_keeps {hd af p q} (h : s.memWf = true) : Keeps (execMskew hd af p q s) := weaveOp_keeps h
@[simp] theorem execMacz_keeps {hd} (h : s.memWf = true) : Keeps (execMacz hd s) := matCmd_keeps h fun _ => matPush_actWf h

@[simp] theorem execMacld_keeps {hd p row rm1} (h : s.memWf = true) : Keeps (execMacld hd p row rm1 s) :=
  matCmd_keeps h fun _ => ite_actWf trivial (act_actWf (fun _ => matPush_actWf h))

@[simp] theorem execMacst_keeps {hd fm r p row rm1 rs} (h : s.memWf = true) : Keeps (execMacst hd fm r p row rm1 rs s) :=
  matCmd_keeps h fun _ => ite_actWf trivial (act_actWf (fun _ => matPush_actWf h))

@[simp] theorem execMacmv_keeps {hd d row seg} (h : s.memWf = true) : Keeps (execMacmv hd d row seg s) :=
  next_keeps (issue_memWf h (fun _ => vecMode_actWf (matRead_actWf h)))

@[simp] theorem execMacmvTo_keeps {hd row seg a} (h : s.memWf = true) : Keeps (execMacmvTo hd row seg a s) :=
  next_keeps (issue_memWf h (fun _ => waitAct_actWf (vecMode_actWf (matPush_actWf h))))

@[simp] theorem execMacrd_keeps {hd d row col} (h : s.memWf = true) : Keeps (execMacrd hd d row col s) :=
  matIssue_keeps h fun _ => matRead_actWf h

theorem matEnd_memWf {n lane l id x} (h : s.memWf = true) : (s.matEnd n lane l id x).memWf = true :=
  cmdComplete_memWf (setCore_same h rfl)

theorem matRun_memWf {n lane l q} (h : s.memWf = true) : (s.matRun n lane l q).memWf = true := by
  unfold State.matRun
  dsimp only
  split
  · exact matEnd_memWf h
  · exact withEngine_memWf (fun _ => matEnd_memWf h) (setCore_same h rfl) h
  · exact matEnd_memWf h
  · exact matEnd_memWf h
  · exact withEngine_memWf (fun _ => matEnd_memWf h) (setCore_same h rfl) h
  · exact ite_memWf (ite_memWf (matEnd_memWf h) h) (setCore_same h rfl)
  · exact matEnd_memWf h
  · exact matEnd_memWf h
  · exact matEnd_memWf (padStore_memWf h)
  · exact matEnd_memWf h
  · refine setCore_of h fun h1 => ?_
    split
    · exact deliver_padWf h1
    · exact h1
  · exact setCore_of h fun h1 => deliver_padWf h1

@[simp] theorem execMatrixCommandRun_keeps {core lane} (h : s.memWf = true) : Keeps (execMatrixCommandRun core lane s) := by
  unfold execMatrixCommandRun
  dsimp only
  split
  · exact next_keeps h
  · exact ite_keeps (next_keeps (setCore_same h rfl)) (next_keeps (matRun_memWf h))

@[simp] theorem execWeaveSend_keeps {core lane slot} (h : s.memWf = true) : Keeps (execWeaveSend core lane slot s) := by
  unfold execWeaveSend
  dsimp only
  split
  · exact next_keeps h
  · refine ite_keeps (next_keeps h) ?_
    split
    · exact next_keeps h
    · refine ite_keeps (next_keeps (setCore_same (setCore_same h rfl) rfl)) ?_
      split
      · exact next_keeps h
      · exact next_keeps (padStore_memWf (setCore_same (setCore_same h rfl) rfl))

@[simp] theorem execWeaveTimeout_keeps {core lane} (h : s.memWf = true) : Keeps (execWeaveTimeout core lane s) := by
  unfold execWeaveTimeout
  split
  · exact next_keeps h
  · exact ite_keeps (next_keeps (endCtx_memWf h)) (next_keeps h)

/-! ### Machine/Sampler.lean -/

theorem sampIssue_keeps {i : Instr} {regs : List Reg} {read : Bool} {s : State} {op : Nat → Frame → (SampOp → Frame → Act) → Act}
    (h : s.memWf = true) (ho : ∀ f k, (∀ o g, Act.Wf (k o g)) → Act.Wf (op s.cur f k)) : Keeps (sampIssue i regs read s op) :=
  next_keeps (issue_memWf h fun f => waitAct_actWf (ite_actWf trivial
    (ho f _ fun _ _ => fresh_memWf (setDie_memWf (setCore_same h rfl)))))

theorem sampSet_keeps {i regs ok op} (h : s.memWf = true) : Keeps (sampSet i regs s ok op) :=
  sampIssue_keeps h fun _ _ a => ite_actWf (a _ _) trivial

@[simp] theorem execScouple_keeps {hd a b slot} (h : s.memWf = true) : Keeps (execScouple hd a b slot s) := sampSet_keeps h
@[simp] theorem execSbias_keeps {hd a b} (h : s.memWf = true) : Keeps (execSbias hd a b s) := sampSet_keeps h
@[simp] theorem execSclamp_keeps {hd a v} (h : s.memWf = true) : Keeps (execSclamp hd a v s) := sampSet_keeps h
@[simp] theorem execSclampOff_keeps {hd a} (h : s.memWf = true) : Keeps (execSclampOff hd a s) := sampSet_keeps h
@[simp] theorem execScolour_keeps {hd a col} (h : s.memWf = true) : Keeps (execScolour hd a col s) := sampSet_keeps h
@[simp] theorem execSkey_keeps {hd n a b} (h : s.memWf = true) : Keeps (execSkey hd n a b s) := sampSet_keeps h

@[simp] theorem execSweep_keeps {hd a gs sm1 ncm1 b} (h : s.memWf = true) : Keeps (execSweep hd a gs sm1 ncm1 b s) :=
  sampIssue_keeps h fun _ _ a1 => ite_actWf trivial (attach_actWf (fun _ => a1 _ _))

@[simp] theorem execSread_keeps {hd d a} (h : s.memWf = true) : Keeps (execSread hd d a s) :=
  sampIssue_keeps h fun _ _ a1 => ite_actWf (a1 _ _) trivial

@[simp] theorem execSwrite_keeps {hd a b} (h : s.memWf = true) : Keeps (execSwrite hd a b s) := sampSet_keeps h
theorem sampDone_memWf {id} (h : s.memWf = true) : (s.sampDone id).memWf = true := foldl_memWf (fun _ _ h1 => progress_memWf h1) _ h

@[simp] theorem execSamplerCommandRun_keeps {die} (h : s.memWf = true) : Keeps (execSamplerCommandRun die s) := by
  unfold execSamplerCommandRun
  split
  · exact next_keeps h
  · refine ite_keeps (next_keeps (setCore_same h rfl)) (next_keeps (sampDone_memWf (cmdComplete_memWf ?_)))
    split
    · exact setCore_of (setDie_memWf (setCore_same h rfl)) deliver_padWf
    all_goals exact setDie_memWf (setCore_same h rfl)

/-- The dispatch: each instruction by its own lemma, tagged for `simp` above. -/
theorem exec_keeps (h : s.memWf = true) (i : Instr) : Keeps (exec i s) := by
  cases i <;> simp [exec, h]

/-! ### One step -/

theorem issueStep_keeps {n : Nat} (h : s.memWf = true) : Keeps (issueStep s n) := by
  unfold issueStep
  dsimp only
  split
  · exact next_keeps h
  · have hf {f : Frame} : (State.fetch (s.setCore n (spendStall (s.core n))) n f).2.memWf = true :=
      fetch_memWf (setCore_of h spendStall_padWf)
    split
    · exact exec_keeps hf _
    · exact next_keeps (stopped_memWf (takeTrap_memWf hf))
    · exact next_keeps (stopped_memWf (pageFault_memWf hf))
    · exact next_keeps (stopped_memWf (endFor_memWf hf))

theorem coreStep_keeps {n : Nat} (h : s.memWf = true) : Keeps (coreStep s n) := by
  unfold coreStep
  dsimp only
  split
  · exact exec_keeps h _
  · exact ite_keeps (exec_keeps h _) (ite_keeps (exec_keeps h _) (ite_keeps (next_keeps h) (issueStep_keeps h)))

theorem step_keeps (h : s.memWf = true) : Keeps (step s) := by
  have hm {ms : List Move} : State.memWf { s with agenda := ms } = true := memWf_of_eq rfl rfl rfl h
  unfold step
  split
  · exact coreStep_keeps h
  · exact coreStep_keeps (memWf_of_eq rfl rfl rfl h)
  · split
    · exact ite_keeps (next_keeps hm) (exec_keeps hm _)
    · exact next_keeps hm

end Sys2Proof.Laws

namespace Sys2Proof.Laws

/-- Settles O46: `step_keeps`, one lemma per operation of the model up to one per instruction (`exec_keeps`). -/
theorem stepsKeepMemoryCanonical : Obligations.StepsKeepMemoryCanonical := fun _ t h e => step_keeps h t e

end Sys2Proof.Laws
end

section
/-!
SUPPORT. What the host's register writes do (O55): the work queues, the event queue, the contexts and their fault records, the translation
commands, the registers of the aperture.
-/
namespace Sys2Proof.Laws
open Sys2Proof.Machine

variable {s : State} {n : Nat} {v : Word}

/-! ### Records -/

theorem post_queue (s : State) (src : Nat) (ctx : Option Nat) (code : Nat) (pay : List Byte) (n : Nat) :
    (s.post src ctx code pay).queue n = s.queue n := by
  unfold State.queue
  rw [post_frame]

/-- A record takes the next number of its source, whether it is kept or lost (R66). -/
theorem post_sseq (s : State) (src : Nat) (ctx : Option Nat) (code : Nat) (pay : List Byte) :
    fget 0 (s.post src ctx code pay).events.sseq src = fget 0 s.events.sseq src + 1 := by
  have h := fget_fset_same 0 s.events.sseq src (fget 0 s.events.sseq src + 1)
  unfold State.post
  dsimp only
  split
  · split <;> exact h
  · split
    · exact h
    · split <;> exact h

/-! ### Work queues (R46, R51, R52, R54) -/

theorem queueError_queue (s : State) (n err : Nat) : (s.queueError n err).queue n =
    { s.queue n with state := 2, err := BitVec.ofNat 8 err, waiting := false, retries := 0 } := by
  unfold State.queueError
  dsimp only
  rw [post_queue, queue_setQueue_same]

/-- A queue that becomes eligible may move its pass; the rest of the new value stands. -/
theorem changeQueue_queue (s : State) (n : Nat) (q : WQueue) : ∃ pass, (s.changeQueue n q).queue n = { q with pass } := by
  unfold State.changeQueue
  split
  · exact ⟨_, queue_setQueue_same ..⟩
  · exact ⟨q.pass, queue_setQueue_same ..⟩

theorem doorbell_of_not_enabled (h : (s.queue n).state ≠ 1) : s.doorbell n v = s.setQueue n { s.queue n with wr := v } := if_pos h

theorem doorbell_of_behind (h : (s.queue n).state = 1) (hv : v.toNat < (s.queue n).rd.toNat) :
    (s.doorbell n v).queue n = { s.queue n with wr := v, state := 2, err := 0x02, waiting := false, retries := 0 } := by
  unfold State.doorbell
  dsimp only
  rw [if_neg (not_not_intro h), if_pos hv, queueError_queue, queue_setQueue_same]
  rfl

theorem doorbell_of_beyond (h : (s.queue n).state = 1) (hv : (s.queue n).rd.toNat + 2 ^ (s.queue n).log2.toNat < v.toNat) :
    (s.doorbell n v).queue n = { s.queue n with wr := v, state := 2, err := 0x01, waiting := false, retries := 0 } := by
  have hb : ¬ v.toNat < (s.queue n).rd.toNat := Nat.not_lt.2 (Nat.le_trans (Nat.le_add_right ..) (Nat.le_of_lt hv))
  unfold State.doorbell WQueue.size
  dsimp only
  rw [if_neg (not_not_intro h), if_neg hb, if_pos hv, queueError_queue, queue_setQueue_same]
  rfl

theorem doorbell_of_within (h : (s.queue n).state = 1) (hb : (s.queue n).rd.toNat ≤ v.toNat)
    (hv : v.toNat ≤ (s.queue n).rd.toNat + 2 ^ (s.queue n).log2.toNat) :
    ∃ pass, (s.doorbell n v).queue n = { s.queue n with wr := v, pass } := by
  unfold State.doorbell WQueue.size
  dsimp only
  rw [if_neg (not_not_intro h), if_neg (Nat.not_lt.2 hb), if_neg (Nat.not_lt.2 hv)]
  exact changeQueue_queue ..

theorem doorbell_of_enabled (h : (s.queue n).state = 1) :
    ((s.doorbell n v).queue n).wr = v ∧ ((s.doorbell n v).queue n).rd = (s.queue n).rd ∧
      (v.toNat < (s.queue n).rd.toNat → ((s.doorbell n v).queue n).state = 2 ∧ ((s.doorbell n v).queue n).err = 0x02) ∧
      ((s.queue n).rd.toNat + 2 ^ (s.queue n).log2.toNat < v.toNat →
        ((s.doorbell n v).queue n).state = 2 ∧ ((s.doorbell n v).queue n).err = 0x01) ∧
      ((s.queue n).rd.toNat ≤ v.toNat → v.toNat ≤ (s.queue n).rd.toNat + 2 ^ (s.queue n).log2.toNat →
        ((s.doorbell n v).queue n).state = 1 ∧ ((s.doorbell n v).queue n).err = (s.queue n).err) := by
  by_cases hb : v.toNat < (s.queue n).rd.toNat
  · rw [doorbell_of_behind h hb]
    exact ⟨rfl, rfl, fun _ => ⟨rfl, rfl⟩,
      fun hv => absurd (Nat.lt_of_le_of_lt (Nat.le_add_right ..) hv) (Nat.lt_asymm hb), fun hv => absurd hv (Nat.not_le.2 hb)⟩
  · by_cases hv : (s.queue n).rd.toNat + 2 ^ (s.queue n).log2.toNat < v.toNat
    · rw [doorbell_of_beyond h hv]
      exact ⟨rfl, rfl, fun h1 => absurd h1 hb, fun _ => ⟨rfl, rfl⟩, fun _ h1 => absurd h1 (Nat.not_le.2 hv)⟩
    · obtain ⟨pass, e⟩ := doorbell_of_within h (Nat.not_lt.1 hb) (Nat.not_lt.1 hv)
      rw [e]
      exact ⟨rfl, rfl, fun h1 => absurd h1 hb, fun h1 => absurd h1 hv, fun _ _ => ⟨h, rfl⟩⟩

/-- The rules an enable keeps (R51). -/
def MayEnable (q : WQueue) : Prop :=
  q.state = 0 ∧ q.bind.toNat ≤ 64 ∧ q.tickets ≠ 0 ∧ 6 ≤ q.log2.toNat ∧ q.log2.toNat ≤ 16 ∧ q.rd.toNat ≤ q.wr.toNat ∧
    q.wr.toNat ≤ q.rd.toNat + 2 ^ q.log2.toNat

theorem enableQueue_of_mayEnable (h : MayEnable (s.queue n)) : ∃ pass, (s.enableQueue n).queue n =
    { s.queue n with state := 1, err := 0, waiting := false, retries := 0, pass } := by
  have e : s.enableQueue n = s.changeQueue n { s.queue n with state := 1, err := 0, waiting := false, retries := 0 } := if_pos h
  rw [e]
  exact changeQueue_queue ..

theorem enableQueue_of_not_mayEnable (h : ¬ MayEnable (s.queue n)) : s.enableQueue n = s := if_neg h

theorem disableQueue_queue (s : State) (n : Nat) :
    (s.disableQueue n).queue n = { s.queue n with state := 0, waiting := false, retries := 0 } := queue_setQueue_same ..

/-! ### Event queue (R62, R64) -/

theorem config_evint (e : Events) (v : Word) : (e.config v).evint = v.getLsbD 5 := by
  unfold Events.config
  dsimp only
  split <;> rfl

theorem config_of_disabled {e : Events} (h : e.even = false) : (e.config v).log2 = v.extractLsb' 0 4 ∧
    (e.config v).even = (v.getLsbD 4 && decide (4 ≤ (v.extractLsb' 0 4).toNat)) := by
  unfold Events.config
  dsimp only
  rw [if_neg (by simp [h])]
  exact ⟨rfl, rfl⟩

theorem config_of_enabled {e : Events} (h : e.even = true) : (e.config v).log2 = e.log2 ∧ (e.config v).even = v.getLsbD 4 := by
  unfold Events.config
  dsimp only
  rw [if_pos h]
  exact ⟨rfl, rfl⟩

theorem readIndex_rd (e : Events) (v : Word) :
    (e.readIndex v).rd = if e.rd.toNat ≤ v.toNat ∧ v.toNat ≤ e.wr.toNat then v else e.rd := by
  unfold Events.readIndex
  split <;> rfl

theorem readIndex_wr (e : Events) (v : Word) : (e.readIndex v).wr = e.wr := by
  unfold Events.readIndex
  split <;> rfl

/-! ### Contexts and fault records -/

theorem freeCtx_of_ended (h : (s.ctx n).state = 3) : (s.freeCtx n).ctx n =
    if (s.ctx n).tearing then { s.ctx n with freeReq := true } else { s.ctx n with state := 0, cause := 0 } := by
  unfold State.freeCtx
  dsimp only
  rw [if_neg (not_not_intro h), ctx_setCtx_same]

theorem freeCtx_of_not_ended (h : (s.ctx n).state ≠ 3) : s.freeCtx n = s := if_pos h

/-- A record that is freed, where every waiter has one: its waiters leave the context in their order, each with a release. -/
theorem freeRecord_of_recorded {k : Nat} (hr : fget none (s.ctx n).frec k ≠ none) (hw : ∀ w ∈ (s.ctx n).waiters, w.record ≠ none) :
    (s.freeRecord n k).ctx n = { s.ctx n with
      frec := fset none (s.ctx n).frec k none
      waiters := (s.ctx n).waiters.filter fun w => w.record != some k && w.record != none } ∧
    (s.freeRecord n k).releases = s.releases ++ ((s.ctx n).waiters.filter fun w => w.record == some k).map fun w =>
      { task := w.task, cluster := w.cluster, src := 2 ^ 19 + n, aged := false, skips := 0 } := by
  have hlone : (s.ctx n).waiters.filter (fun w => w.record == none) = [] := by simpa [List.filter_eq_nil_iff] using hw
  have hsome : ¬ (fget none (s.ctx n).frec k).isNone = true := by simpa using hr
  unfold State.freeRecord
  dsimp only
  rw [if_neg hsome, hlone]
  exact ⟨ctx_setCtx_same .., rfl⟩

/-! ### Translation commands (R171, R172) -/

theorem fget_map {α : Type} {d : α} {g : α → α} (hg : g d = d) (k : Nat) :
    ∀ m : FMap α, fget d (m.map fun e => (e.1, g e.2)) k = g (fget d m k)
  | [] => hg.symm
  | e :: m => by
    simp only [List.map_cons, fget]
    split
    · rfl
    · exact fget_map hg k m

/-- An entry after a harvest of the entries that satisfy `p`. -/
def harvested (p : Tlb → Bool) (e : Tlb) : Tlb := if p e then { e with dirty := false } else e

theorem harvest_core (s : State) (p : Tlb → Bool) (m : Nat) :
    (s.harvest p).core m = { s.core m with tlb := (s.core m).tlb.map (harvested p) } :=
  fget_map (d := Core.reset) (g := fun c : Core => { c with tlb := c.tlb.map (harvested p) }) rfl m s.cores

theorem harvest_length (s : State) (p : Tlb → Bool) (m : Nat) : ((s.harvest p).core m).tlb.length = (s.core m).tlb.length := by
  rw [harvest_core]
  exact List.length_map ..

theorem invalidate_core (s : State) (p : Tlb → Bool) (m : Nat) :
    (s.invalidate p).core m = { s.core m with tlb := ((s.core m).tlb.map (harvested p)).filter fun e => !p e } := by
  have h := fget_map (d := Core.reset) (g := fun c : Core => { c with tlb := c.tlb.filter fun e => !p e }) rfl m (s.harvest p).cores
  have hc : fget Core.reset (s.harvest p).cores m = _ := harvest_core s p m
  rw [hc] at h
  exact (fget_ftrim ..).trans h

theorem not_hit_of_mem_invalidate {p : Tlb → Bool} {m : Nat} {e : Tlb} (h : e ∈ ((s.invalidate p).core m).tlb) : p e = false := by
  rw [invalidate_core] at h
  simpa using (List.mem_filter.1 h).2

theorem clean_of_mem_harvest {m : Nat} {e : Tlb} (h : e ∈ ((s.harvest fun e => e.ctx == n).core m).tlb) (hn : e.ctx = n) :
    e.dirty = false := by
  rw [harvest_core] at h
  obtain ⟨x, -, rfl⟩ := List.mem_map.1 h
  unfold harvested at hn ⊢
  split
  · rfl
  · simp_all

theorem xcmd_of_busy (h : (s.ctx n).xbusy = true) (cmd : BitVec 2) (page : BitVec 48) : s.xcmd n cmd page = s := if_pos h

theorem xcmd_harvest (h : (s.ctx n).xbusy = false) (page : BitVec 48) : s.xcmd n 2 page =
    (s.setCtx n { s.ctx n with xcmd := 2, xpage := page, xbusy := true }).harvest fun e => e.ctx == n := if_neg (by simp [h])

theorem xcmd_invalidate {cmd : BitVec 2} (h : (s.ctx n).xbusy = false) (hc : cmd ≠ 2) (page : BitVec 48) :
    s.xcmd n cmd page = (s.setCtx n { s.ctx n with xcmd := cmd, xpage := page, xbusy := true }).invalidate
      (xcmdHits n { s.ctx n with xcmd := cmd, xpage := page, xbusy := true }) :=
  (if_neg (by simp [h])).trans (if_neg hc)

theorem xcmd_xbusy {cmd : BitVec 2} (h : (s.ctx n).xbusy = false) (page : BitVec 48) : ((s.xcmd n cmd page).ctx n).xbusy = true := by
  by_cases hc : cmd = 2
  · rw [hc, xcmd_harvest h]
    exact congrArg Ctx.xbusy (ctx_setCtx_same ..)
  · rw [xcmd_invalidate h hc]
    exact congrArg Ctx.xbusy (ctx_setCtx_same ..)

/-- The command in `INV` that drops every entry of the context. -/
theorem xcmdHits_all {x : Ctx} {e : Tlb} (hx : x.xcmd = 1) (h : xcmdHits n x e = false) : e.ctx ≠ n := by
  simpa [xcmdHits, hx] using h

theorem xcmdHits_page {x : Ctx} {e : Tlb} (hx : x.xcmd = 3) (h : xcmdHits n x e = false) : ¬ (e.ctx = n ∧ e.page = x.xpage.toNat) := by
  simpa [xcmdHits, hx] using h

/-- A command whose pages no command of a core holds ends. -/
theorem xcmdComplete_of_released (hb : (s.ctx n).xbusy = true)
    (h : (s.ctx n).xcmd = 2 ∨ s.pageHeld n (fun p => (s.ctx n).xcmd == 1 || p == (s.ctx n).xpage.toNat) = false) :
    ∃ t, exec (.xcmdComplete n) s = .next t ∧ (t.ctx n).xbusy = false ∧
      ((s.ctx n).xcmd = 1 → ∀ m, ∀ e ∈ (t.core m).tlb, e.ctx ≠ n) := by
  have hh : ((s.ctx n).xcmd != 2 && s.pageHeld n fun p => (s.ctx n).xcmd == 1 || p == (s.ctx n).xpage.toNat) = false := by
    rcases h with h | h
    · rw [h]
      rfl
    · rw [h, Bool.and_false]
  refine ⟨_, if_neg (not_or.2 ⟨by simp [hb], Bool.eq_false_iff.1 hh⟩), congrArg Ctx.xbusy (ctx_setCtx_same ..), fun h1 m e he => ?_⟩
  have h2 : (s.ctx n).xcmd ≠ 2 := by simp [h1]
  rw [core_setCtx, if_neg h2] at he
  exact xcmdHits_all h1 (not_hit_of_mem_invalidate he)

/-! ### The aperture (R11) -/

theorem notPerformed_frame (s : State) (addr : Word) (wr mem : Bool) :
    (s.notPerformed addr wr mem).queues = s.queues ∧ (s.notPerformed addr wr mem).ctxs = s.ctxs ∧
      (s.notPerformed addr wr mem).cores = s.cores := by
  unfold State.notPerformed
  rw [post_frame]
  exact ⟨rfl, rfl, rfl⟩

theorem registerWrite_of_misplaced {off : Word} (hd : s.host.down = false) (hr : s.mgmt.inReset = false)
    (h : off.toNat % 8 ≠ 0 ∨ 0x800000 ≤ off.toNat) : exec (.registerWrite off v) s = .next (s.notPerformed off true false) :=
  congrArg Host.Outcome.next ((if_neg (by simp [hd, hr])).trans (if_pos h))

theorem registerWrite_of_placed {off : Word} (hd : s.host.down = false) (hr : s.mgmt.inReset = false)
    (ha : off.toNat % 8 = 0) (h : off.toNat < 0x800000) : exec (.registerWrite off v) s = .next (s.apertureWrite off.toNat v) :=
  congrArg Host.Outcome.next ((if_neg (by simp [hd, hr])).trans (if_neg (by omega)))

theorem apertureWrite_identity {o : Nat} (h : o < 0x300) : s.apertureWrite o v = s := if_pos h

theorem apertureWrite_queue {r : Nat} (hn : n < 1024) (hr : r < 64) :
    s.apertureWrite (0x100000 + 64 * n + r) v = s.writeQueue n r v := by
  have h1 : (0x100000 + 64 * n + r - 0x100000) / 64 = n := by omega
  have h2 : (0x100000 + 64 * n + r) % 64 = r := by omega
  unfold State.apertureWrite
  rw [if_neg (by omega), if_neg (by omega), if_neg (by omega), if_pos (by omega), h1, h2]

theorem registerWrite_queue {off : Word} {r : Nat} (hd : s.host.down = false) (hr : s.mgmt.inReset = false) (hn : n < 1024)
    (h64 : r < 64) (h8 : r % 8 = 0) (h : off.toNat = 0x100000 + 64 * n + r) :
    exec (.registerWrite off v) s = .next (s.writeQueue n r v) := by
  rw [registerWrite_of_placed hd hr (by omega) (by omega), h, apertureWrite_queue hn h64]

theorem writeQueue_control (s : State) (n : Nat) (v : Word) :
    s.writeQueue n 0x10 v = if v.getLsbD 0 then s.enableQueue n else s.disableQueue n := rfl

end Sys2Proof.Laws
end

section
namespace Sys2Proof.Laws
open Sys2Proof.Machine

/-- Settles O55: each register's write by the lemma of its operation above. -/
theorem hostRegisters : Obligations.HostRegisters := by
  unfold Obligations.HostRegisters
  intro s n k v
  refine ⟨fun h => congrArg _ (doorbell_of_not_enabled h), fun h => ⟨_, rfl, doorbell_of_enabled h⟩,
    ⟨fun h => ⟨_, rfl, ?enable⟩, fun h => congrArg _ (enableQueue_of_not_mayEnable h)⟩, ⟨_, rfl, ?disable⟩,
    ⟨_, rfl, config_evint .., config_of_disabled, config_of_enabled⟩, ⟨_, rfl, readIndex_rd .., readIndex_wr ..⟩,
    fun h ht => ⟨_, rfl, ?free⟩, fun h ht => ⟨_, rfl, ?freeLater⟩, fun h => congrArg _ (freeCtx_of_not_ended h),
    fun r hr hw => ⟨_, rfl, ?record⟩,
    ⟨fun h => ⟨congrArg _ (xcmd_of_busy h ..), congrArg _ (xcmd_of_busy h ..), congrArg _ (xcmd_of_busy h ..)⟩,
      fun h => ⟨⟨_, rfl, xcmd_xbusy h _, ?all⟩, ⟨_, rfl, xcmd_xbusy h _, ?harvest⟩, ⟨_, rfl, xcmd_xbusy h _, ?page⟩⟩,
      xcmdComplete_of_released⟩,
    fun off hd hr => ⟨fun h => ⟨_, registerWrite_of_misplaced hd hr h, ?misplaced⟩, fun h h8 => ?identity, fun h => ?display,
      fun hn h => registerWrite_queue hd hr hn (r := 0x18) (by decide) rfl h, fun hn h => ?control⟩,
    ⟨_, rfl, rfl, post_sseq ..⟩⟩
  case enable =>
    obtain ⟨pass, e⟩ := enableQueue_of_mayEnable h
    dsimp only
    rw [e]
    exact ⟨rfl, rfl, rfl, rfl⟩
  case disable =>
    dsimp only
    rw [disableQueue_queue]
    exact ⟨rfl, rfl, rfl⟩
  case free =>
    rw [freeCtx_of_ended h, ht]
    exact ⟨rfl, rfl⟩
  case freeLater =>
    rw [freeCtx_of_ended h, ht]
    exact ⟨h, rfl⟩
  case record =>
    obtain ⟨hc, hrel⟩ := freeRecord_of_recorded (k := k) (by simp [hr]) hw
    rw [hc, hrel]
    refine ⟨fget_fset_same none (s.ctx n).frec k none, fun w hm => ?_, ?_⟩
    · obtain ⟨hin, hne⟩ := List.mem_filter.1 hm
      exact ⟨hin, bne_iff_ne.1 (Bool.and_eq_true_iff.1 hne).1⟩
    · simp
  case harvest =>
    rw [xcmd_harvest h]
    exact ⟨fun m e he hn => clean_of_mem_harvest he hn, harvest_length _ _⟩
  case all =>
    rw [xcmd_invalidate h (by decide)]
    exact fun m e he => xcmdHits_all rfl (not_hit_of_mem_invalidate he)
  case page =>
    rw [xcmd_invalidate h (by decide)]
    exact fun m e he => xcmdHits_page rfl (not_hit_of_mem_invalidate he)
  case misplaced =>
    obtain ⟨hq, hx, hc⟩ := notPerformed_frame s off true false
    exact ⟨hq, hx, hc, post_sseq ..⟩
  case identity => rw [registerWrite_of_placed hd hr h8 (by omega), apertureWrite_identity h]
  case display =>
    subst h
    exact registerWrite_of_placed hd hr rfl (by decide)
  case control =>
    rw [registerWrite_queue hd hr hn (r := 0x10) (by decide) rfl h, writeQueue_control]
    split <;> rfl

end Sys2Proof.Laws
end

section
/-!
SUPPORT. What starting tasks does (R34, R37, R276): the identifiers of children, the members of a group, the starts of several templates in
turn, and what `startAll` answers where every template can start and where one cannot.
-/
namespace Sys2Proof.Laws
open Sys2Proof.Machine

variable {x : Ctx} {t : Nat} {m : Template}

/-! ### Identifiers (R37) -/

theorem childPath_eq (p : BitVec 32) (k : Nat) : childPath p k = BitVec.ofNat 32 (p.toNat * 33 + k + 1) := by
  apply BitVec.eq_of_toNat_eq
  simp [childPath, Nat.add_assoc]

theorem childIds_eq (id : Word) (k n : Nat) : childIds id k n = (List.range n).map fun j =>
    id.extractLsb' 32 32 ++ (BitVec.ofNat 32 ((id.extractLsb' 0 32).toNat * 33 + k + j + 1) : BitVec 32) := by
  simp only [childIds, childPath_eq, taskId, ordOf, pathOf, Nat.add_assoc]

/-! ### Templates that can start, and groups of them (R34, R36) -/

theorem startable_iff (ht : x.templates[t]? = some m) : x.startable t = true ↔ x.placeCores m ≠ [] := by
  simp [Ctx.startable, ht]

theorem startCount_of_template (ht : x.templates[t]? = some m) :
    x.startCount t = if m.place = 0 then (x.group m.placeVal).rows * (x.group m.placeVal).cols else 1 := by
  simp only [Ctx.startCount, ht]

theorem groupMembers_eq_filter (x : Ctx) (grp : Nat) : x.groupMembers grp =
    (List.range x.templates.length).filter (fun t => ((x.templates[t]?).map (fun m => m.groups.contains grp)).getD false) := by
  unfold Ctx.groupMembers
  congr 1
  funext t
  cases x.templates[t]? <;> rfl

/-! ### Starts that are attached to the open bundle (R274, R276) -/

theorem holdStarts_eq (sts : List Start) (cmd : Option Nat) (f : Frame) : holdStarts sts cmd f =
    { f with bundle := { f.bundle with effects := f.bundle.effects ++ sts.map (fun st => .start st cmd) } } := by
  induction sts generalizing f with
  | nil => simp [holdStarts]
  | cons st sts ih =>
    calc holdStarts (st :: sts) cmd f
      _ = holdStarts sts cmd (f.hold (.start st cmd)) := rfl
      _ = _ := by rw [ih]; simp [Frame.hold]

/-- The starts name the templates in the order given. -/
theorem startsBy_tmpl (argsOf : Template → FMap Word) (ts : List Nat) (f : Frame) :
    (x.startsBy argsOf ts f).1.map Start.tmpl = ts := by
  induction ts generalizing f with
  | nil => rfl
  | cons t ts ih => exact congrArg (t :: ·) (ih _)

theorem startsBy_single (ht : x.templates[t]? = some m) (argsOf : Template → FMap Word) (f : Frame) :
    x.startsBy argsOf [t] f =
      ([{ tmpl := t, ids := childIds f.task.id f.spawnK (x.startCount t), args := argsOf m, tile := none }],
        { f with spawnK := f.spawnK + x.startCount t }) := by
  simp only [Ctx.startsBy, Ctx.startBy, ht, Option.map_some, Option.getD_some]

variable {s : State} {n : Nat} {c : Core} {f : Frame} {ts : List Nat} {args : Template → FMap Word}

theorem startAll_go (h : ∀ t ∈ ts, (s.ctx f.task.ctx).startable t = true) :
    let r := (s.ctx f.task.ctx).startsBy args ts f
    startAll s n c f ts args = .go (s.setCore n (c.setTop { r.2 with
      bundle := { r.2.bundle with effects := r.2.bundle.effects ++ r.1.map (fun st => .start st none) } })) Ret.plain := by
  intro r
  rw [← holdStarts_eq]
  exact if_pos (List.all_eq_true.2 h)

theorem startAll_trap (ht : t ∈ ts) (h : (s.ctx f.task.ctx).startable t = false) : startAll s n c f ts args = .trap 0x26 0 :=
  if_neg fun hall => Bool.false_ne_true (h.symm.trans (List.all_eq_true.1 hall t ht))

/-- One template: one start, with an identifier for each of its tasks, and the spawn index moves past them. -/
theorem startAll_single_go (ht : (s.ctx f.task.ctx).templates[t]? = some m) (hp : (s.ctx f.task.ctx).placeCores m ≠ []) :
    let k := (s.ctx f.task.ctx).startCount t
    startAll s n c f [t] args = .go (s.setCore n (c.setTop { f with
      bundle := { f.bundle with effects := f.bundle.effects ++
        [.start { tmpl := t, ids := childIds f.task.id f.spawnK k, args := args m, tile := none } none] },
      spawnK := f.spawnK + k })) Ret.plain := by
  have hs : ∀ u ∈ [t], (s.ctx f.task.ctx).startable u = true := by simpa using (startable_iff ht).2 hp
  have hgo := startAll_go (n := n) (c := c) (args := args) hs
  rwa [startsBy_single ht] at hgo

theorem startAll_single_trap (ht : (s.ctx f.task.ctx).templates[t]? = some m) (hp : (s.ctx f.task.ctx).placeCores m = []) :
    startAll s n c f [t] args = .trap 0x26 0 :=
  startAll_trap (List.mem_singleton_self t) (Bool.eq_false_iff.2 fun hs => (startable_iff ht).1 hs hp)

end Sys2Proof.Laws
end

section
namespace Sys2Proof.Laws
open Sys2Proof.Machine

/-- Settles O25: each instruction does what `startAll` says of its templates (`issue_go`, `issue_trap`), the one it names or the members of
its group. -/
theorem startsByATask : Obligations.StartsByATask := by
  unfold Obligations.StartsByATask
  intro s f fs h a x c
  refine ⟨fun t m ht => ?template, fun q g => ⟨fun hg hk hs => ?members, fun hg => ?noGroup⟩⟩
  case template =>
    dsimp only
    rw [← startCount_of_template ht, ← childIds_eq]
    exact ⟨fun hp => ⟨fun q => congrArg _ (issue_go q rfl (startAll_single_go ht hp)),
        fun q => congrArg _ (issue_go q rfl (startAll_single_go ht hp))⟩,
      fun hp => ⟨fun q => congrArg _ (issue_trap q rfl (startAll_single_trap ht hp)),
        fun q => congrArg _ (issue_trap q rfl (startAll_single_trap ht hp))⟩⟩
  case members =>
    have hvalid : ¬ (254 < g.toNat ∨ (x.group g.toNat).kind ≠ 1) := fun h => h.elim (by omega) (· hk)
    refine ⟨congrArg _ (issue_go q rfl ?_), startsBy_tmpl ..⟩
    rw [if_neg hvalid, groupMembers_eq_filter]
    exact startAll_go hs
  case noGroup => exact congrArg _ (issue_trap q rfl (if_pos hg))

end Sys2Proof.Laws
end

section
/-!
SUPPORT. What reset leaves (O47), what the host reads and writes over the link (O59): the lines of main memory, the training of the link, the
staging of event records and their ring; and which queue arbitration records as the last one that it chose (O54).
-/
namespace Sys2Proof.Laws
open Sys2Proof.Machine

variable {s : State}

/-! ### Runs of a map -/

theorem fgetAll_nil {α : Type} (d : α) : ∀ n k, fgetAll d [] k n = List.replicate n d
  | 0, _ => rfl
  | n + 1, k => congrArg (d :: ·) (fgetAll_nil d n (k + 1))

theorem fgetAll_eq_map {α : Type} (d : α) (m : FMap α) :
    ∀ n k, fgetAll d m k n = (List.range n).map fun j => fget d m (k + j)
  | 0, _ => rfl
  | n + 1, k => by
    rw [fgetAll, fgetAll_eq_map d m n (k + 1), List.range_succ_eq_map]
    simp [Nat.add_assoc, Nat.add_comm 1]

theorem fget_fsetAll {α : Type} [DecidableEq α] (d : α) (m : FMap α) (k j : Nat) (vs : List α) :
    fget d (fsetAll d m k vs) j = if k ≤ j ∧ j < k + vs.length then vs.getD (j - k) d else fget d m j := by
  split
  case isTrue h =>
    have hi : j - k < vs.length := by omega
    have hj : k + (j - k) = j := by omega
    simpa [hj, hi] using fget_fsetAll_in d vs m k (j - k) hi
  case isFalse h => exact fget_fsetAll_out d vs m k j (by omega)

/-! ### Lines that the host writes and reads (R49, R360) -/

/-- The contents of a line over which bytes within it are written. -/
theorem newerData_physWrite (m : Memory) (pa : Nat) (bs : List Byte) :
    (m.physWrite pa bs).newerData (pa / 64) = (List.range 64).map fun j =>
      if pa % 64 ≤ j ∧ j < pa % 64 + bs.length then bs.getD (j - pa % 64) 0 else (m.newerData (pa / 64)).getD j 0 := by
  unfold Memory.newerData Memory.physWrite
  rw [fgetAll_eq_map, fgetAll_eq_map]
  refine List.map_congr_left fun j hj => ?_
  have hj : j < 64 := List.mem_range.1 hj
  have hrange : (pa ≤ 64 * (pa / 64) + j ∧ 64 * (pa / 64) + j < pa + bs.length) ↔ (pa % 64 ≤ j ∧ j < pa % 64 + bs.length) := by omega
  have hoff : 64 * (pa / 64) + j - pa = j - pa % 64 := by omega
  rw [fget_fsetAll, hoff]
  simp [hrange, hj]

theorem newerData_physWrite_ne (m : Memory) (pa : Nat) (bs : List Byte) (h : pa % 64 + bs.length ≤ 64) {k : Nat} (hk : k ≠ pa / 64) :
    (m.physWrite pa bs).newerData k = m.newerData k := by
  unfold Memory.newerData Memory.physWrite
  rw [fgetAll_eq_map, fgetAll_eq_map]
  refine List.map_congr_left fun j hj => fget_fsetAll_out _ _ _ _ _ ?_
  have hj : j < 64 := List.mem_range.1 hj
  omega

/-- What a host write replaces is kept beside the lines (R27). -/
theorem noteOld_frame (m old : Memory) (key : Nat) (live : List Nat) :
    m.noteOld old key live = { m with hostOld := (m.noteOld old key live).hostOld } := by
  have hfold : ∀ (l : List Nat) (m : Memory), l.foldl (fun m k => m.keepOld old live k) m =
      { m with hostOld := (l.foldl (fun m k => m.keepOld old live k) m).hostOld } := fun l => by
    induction l with
    | nil => exact fun _ => rfl
    | cons k l ih => exact fun m => ih (m.keepOld old live k)
  unfold Memory.noteOld
  split
  · rfl
  · exact hfold _ m

theorem newerData_noteOld (m old : Memory) (key : Nat) (live : List Nat) (k : Nat) :
    (m.noteOld old key live).newerData k = m.newerData k := by
  rw [noteOld_frame]
  rfl

theorem lineTags_noteOld (m old : Memory) (key : Nat) (live : List Nat) (k : Nat) :
    (m.noteOld old key live).lineTags k = m.lineTags k := by
  rw [noteOld_frame]
  rfl

theorem linkCarries_iff {pa : Word} {n : Nat} :
    s.linkCarries pa n = true ↔ s.host.down = false ∧ 1 ≤ n ∧ pa.toNat % 64 + n ≤ 64 := by
  simp [State.linkCarries, and_assoc]

variable {pa : Word} {bytes : List Byte} {n : Nat}

theorem hostMemoryWrite_of_settled (hl : s.linkCarries pa bytes.length = true) (ha : pa.toNat < 2 ^ 40)
    (hp : (s.mem.lineTags (pa.toNat / 64)).newer.st ≠ .pending) :
    exec (.hostMemoryWrite pa bytes) s = .next (s.setMem (((s.mem.physWrite pa.toNat bytes).setTags (pa.toNat / 64)
      { s.mem.lineTags (pa.toNat / 64) with newer := { Tag.zero with st := .settled } }).noteOld s.mem (pa.toNat / 64)
        ((List.range 64).filter fun k => (s.ctx k).state == 2))) :=
  (if_neg (by simp [hl])).trans ((if_neg (Nat.not_le.2 ha)).trans (if_neg hp))

theorem hostMemoryWrite_of_pending (ha : pa.toNat < 2 ^ 40) (hp : (s.mem.lineTags (pa.toNat / 64)).newer.st = .pending) :
    exec (.hostMemoryWrite pa bytes) s = .next s :=
  ite_eq_left_iff.2 fun _ => (if_neg (Nat.not_le.2 ha)).trans (if_pos hp)

theorem hostMemoryRead_of_within (hl : s.linkCarries pa n = true) (ha : pa.toNat < 2 ^ 40) :
    exec (.hostMemoryRead pa n) s =
      .next { s with host := { s.host with read := ((s.mem.hostLine (pa.toNat / 64)).drop (pa.toNat % 64)).take n } } :=
  (if_neg (by simp [hl])).trans (if_neg (Nat.not_le.2 ha))

theorem hostMemoryRead_of_beyond (hl : s.linkCarries pa n = true) (ha : 2 ^ 40 ≤ pa.toNat) :
    exec (.hostMemoryRead pa n) s = .next { s.notPerformed pa false true with
      host := { (s.notPerformed pa false true).host with read := List.replicate n 0 } } :=
  (if_neg (by simp [hl])).trans (if_pos ha)

variable {m : Memory} {key : Nat}

theorem hostLine_of_confirmed (h : fget 0 m.unconf key = 0) :
    m.hostLine key = if (m.lineTags key).newer.st = .pending then m.olderData key else m.newerData key := if_neg (not_not_intro h)

theorem hostLine_of_unconfirmed (h : fget 0 m.unconf key ≠ 0) (hc : ∀ e ∈ m.confirmed, e.key ≠ key) : m.hostLine key = m.olderData key := by
  have hfind : m.confirmed.find? (fun e => e.key == key) = none := List.find?_eq_none.2 fun e he => by simpa using hc e he
  simp [Memory.hostLine, Memory.confirmedOf, h, hfind]

theorem hostLine_of_setAside {e : Kept218} (h : fget 0 m.unconf key ≠ 0) (he : m.confirmed.find? (fun e => e.key == key) = some e) :
    m.hostLine key = e.data := by
  simp [Memory.hostLine, Memory.confirmedOf, h, he]

/-! ### Event records (R64, R66) -/

/-- Whether the source with number `k` of the staging's turns holds no record: a die's buffer, or the held records. -/
def sourceEmpty (s : State) (k : Nat) : Bool := if k = 8 then s.events.held.isEmpty else (s.die k).buf.isEmpty

theorem stageFrom_succ (s : State) (n t : Nat) :
    s.stageFrom (n + 1) t = if sourceEmpty s (t % 9) then s.stageFrom n (t + 1) else some (t % 9) := rfl

/-- The one source that holds a record is found, if its turn is within the turns that are tried. -/
theorem stageFrom_of_only {i : Nat} (hi : sourceEmpty s i = false) (h : ∀ k, k < 9 → k ≠ i → sourceEmpty s k = true) :
    ∀ {n t : Nat}, (∃ j, j < n ∧ (t + j) % 9 = i) → s.stageFrom n t = some i
  | 0, _, ⟨_, hj, _⟩ => absurd hj (Nat.not_lt_zero _)
  | n + 1, t, ⟨j, hj, e⟩ => by
    rw [stageFrom_succ]
    by_cases ht : t % 9 = i
    · rw [ht, hi]
      rfl
    · rw [h (t % 9) (by omega) ht, if_pos rfl]
      have hj0 : j ≠ 0 := fun h0 => ht (by simpa [h0] using e)
      exact stageFrom_of_only hi h ⟨j - 1, by omega, by rw [← e]; congr 1; omega⟩

/-- Nine turns reach every source. -/
theorem stageFrom_nine_of_only {i t : Nat} (h9 : i < 9) (hi : sourceEmpty s i = false)
    (h : ∀ k, k < 9 → k ≠ i → sourceEmpty s k = true) : s.stageFrom 9 t = some i :=
  stageFrom_of_only hi h ⟨(i + 9 - t % 9) % 9, by omega, by omega⟩

theorem eventRecordStage_of_held (hs : s.events.staging.length < 256) (h : s.stageFrom 9 s.events.turn = some 8) :
    exec .eventRecordStage s = .next (s.setEvents { s.events with
      staging := s.events.staging ++ s.events.held.take 1, held := s.events.held.drop 1, turn := 0 }) := by
  refine (if_neg (Nat.not_le.2 hs)).trans ?_
  rw [h]
  rfl

theorem eventRecordStage_of_die {d : Nat} (hs : s.events.staging.length < 256) (hd : d < 8) (h : s.stageFrom 9 s.events.turn = some d) :
    exec .eventRecordStage s = .next ((s.setDie d { s.die d with buf := (s.die d).buf.drop 1 }).setEvents { s.events with
      staging := s.events.staging ++ (s.die d).buf.take 1, turn := d + 1 }) := by
  refine (if_neg (Nat.not_le.2 hs)).trans ?_
  rw [h]
  split
  next e => contradiction
  next e => exact absurd (Option.some.inj e) (Nat.ne_of_lt hd)
  next e =>
    cases e
    rfl

/-- Where no shadow word and no interrupt is set, nothing follows a record. -/
theorem afterRecord_of_off {wasEmpty : Bool} (hs : s.events.shadow = 0) (hi : s.events.evint = false) : s.afterRecord wasEmpty = s := by
  unfold State.afterRecord
  simp [hs, hi]

variable {r : EvRec} {rs : List EvRec}

/-- Where the next record of the ring goes. -/
def ringAddr (e : Events) : Nat := 32 * (e.base.toNat / 32) + 32 * (e.wr.toNat % 2 ^ e.log2.toNat)

theorem hostWrite_of_ok {a : Nat} {bs : List Byte} (h : s.host.ok a bs.length = true) :
    s.hostWrite a bs = some { s with host := { s.host with mem := fsetAll 0 s.host.mem a bs } } := if_pos h

theorem hostWrite_of_not_ok {a : Nat} {bs : List Byte} (h : s.host.ok a bs.length = false) : s.hostWrite a bs = none :=
  if_neg (by simp [h])

theorem eventRingWrite_of_full (h : s.events.rd.toNat + 2 ^ s.events.log2.toNat ≤ s.events.wr.toNat) : exec .eventRingWrite s = .next s := by
  show execEventRingWrite s = _
  unfold execEventRingWrite
  dsimp only
  split
  · rfl
  · exact if_pos (.inr h)

/-- A staged record, while the ring has room: an error of its write turns the ring off. -/
theorem eventRingWrite_of_room {o : Option State} (hs : s.events.staging = r :: rs) (he : s.events.even = true)
    (hr : s.events.wr.toNat < s.events.rd.toNat + 2 ^ s.events.log2.toNat) (ho : s.hostWrite (ringAddr s.events) r.bytes = o) :
    exec .eventRingWrite s = .next (o.elim (s.setEvents { s.events with even := false }) fun t =>
      (t.setEvents { s.events with staging := rs, wr := s.events.wr + 1 }).afterRecord (s.events.wr == s.events.rd)) := by
  have hroom : ¬ ((!s.events.even) = true ∨ s.events.rd.toNat + 2 ^ s.events.log2.toNat ≤ s.events.wr.toNat) := by
    simpa [he] using hr
  unfold ringAddr at ho
  show execEventRingWrite s = _
  unfold execEventRingWrite
  dsimp only
  rw [hs]
  dsimp only
  rw [if_neg hroom, ho]
  cases o <;> rfl

theorem eventRingWrite_of_written (hs : s.events.staging = r :: rs) (he : s.events.even = true)
    (hr : s.events.wr.toNat < s.events.rd.toNat + 2 ^ s.events.log2.toNat) (hsh : s.events.shadow = 0) (hi : s.events.evint = false)
    (ho : s.host.ok (ringAddr s.events) r.bytes.length = true) :
    exec .eventRingWrite s = .next ({ s with host := { s.host with mem := fsetAll 0 s.host.mem (ringAddr s.events) r.bytes } }.setEvents
      { s.events with staging := rs, wr := s.events.wr + 1 }) :=
  (eventRingWrite_of_room hs he hr (hostWrite_of_ok ho)).trans (congrArg _ (afterRecord_of_off hsh hi))

theorem eventRingWrite_of_failed (hs : s.events.staging = r :: rs) (he : s.events.even = true)
    (hr : s.events.wr.toNat < s.events.rd.toNat + 2 ^ s.events.log2.toNat)
    (ho : s.host.ok (ringAddr s.events) r.bytes.length = false) :
    exec .eventRingWrite s = .next (s.setEvents { s.events with even := false }) :=
  eventRingWrite_of_room hs he hr (hostWrite_of_not_ok ho)

/-! ### Link training (R49) -/

theorem linkTraining_of_powered (h : s.mgmt.powered = true) (groups : BitVec 4) :
    exec (.linkTraining groups) s = .next { s with host := { s.host with
      lanes := 8 * ((List.range 4).filter groups.getLsbD).length, down := ((List.range 4).filter groups.getLsbD).length == 0 } } :=
  congrArg _ (if_pos h)

theorem no_group_iff (groups : BitVec 4) : ((List.range 4).filter groups.getLsbD).length = 0 ↔ groups = 0 := by
  revert groups
  decide

/-! ### Arbitration (R55) -/

theorem queueError_lastq (s : State) (n err : Nat) : (s.queueError n err).lastq = s.lastq := by
  unfold State.queueError
  rw [post_frame]
  rfl

/-- The queue that arbitration takes is the one chosen last, whatever its read gives (R55). -/
theorem queueArbitration_lastq {s t : State} {n : Nat} (h : exec .queueArbitration s = .next t) (he : s.entry = none)
    (hb : bestQueue s.queues = some n) : t.lastq = some n := by
  change execQueueArbitration s = .next t at h
  unfold execQueueArbitration at h
  rw [he, hb] at h
  dsimp only at h
  split at h
  next =>
    cases h
    exact queueError_lastq ..
  next =>
    split at h <;> cases h <;> rfl

end Sys2Proof.Laws
end

section
namespace Sys2Proof.Laws
open Sys2Proof.Machine

/-- Settles O47: reset maps no unit and no line, so each read of a map gives what the unit holds after reset. -/
theorem resetState : Obligations.ResetState := by
  unfold Obligations.ResetState
  refine ⟨reset_memWf, fun k => ⟨fgetAll_nil .., rfl⟩, fun k => rfl, fun n => ⟨rfl, rfl, rfl⟩,
    fun q => ⟨rfl, rfl, rfl, rfl, rfl, rfl, rfl, rfl⟩, by decide, by decide, by decide, ?fibre, ?spare, fun p => rfl,
    fun d => ⟨rfl, rfl, rfl, rfl⟩⟩
  case fibre =>
    intro f hf
    have h : State.reset.fabric.fibre f = Fibre.reset := if_neg (Nat.not_le.2 hf)
    rw [h]
    exact ⟨rfl, rfl⟩
  case spare =>
    intro f hf
    have h : State.reset.fabric.fibre f = Fibre.spare := if_pos hf
    rw [h]
    rfl

/-- Settles O59: each step by the lemma of its case above. -/
theorem hostLink : Obligations.HostLink := by
  unfold Obligations.HostLink
  intro s pa bytes n groups
  refine ⟨fun hd h1 hb ha hp => ⟨_, hostMemoryWrite_of_settled (linkCarries_iff.2 ⟨hd, h1, hb⟩) ha hp, ?data, ?newer, ?older, ?others⟩,
    fun hp ha => hostMemoryWrite_of_pending ha hp, fun hd h1 hb => ?read,
    fun hp => ⟨_, linkTraining_of_powered hp groups, rfl, beq_iff_eq.trans (no_group_iff groups), rfl⟩,
    fun hs => ⟨fun r rs hr hbuf => ⟨_, eventRecordStage_of_held hs ?held, ?heldNext⟩,
      fun d r rs hd hr hh hbuf => ⟨_, eventRecordStage_of_die hs hd ?die, ?dieNext⟩⟩,
    fun r rs hs he hr hsh hi => ⟨fun ho => ⟨_, eventRingWrite_of_written hs he hr hsh hi ho, rfl, rfl, fgetAll_fsetAll ..⟩,
      fun ho => ⟨_, eventRingWrite_of_failed hs he hr ho, rfl, hs, rfl, rfl⟩⟩,
    eventRingWrite_of_full⟩
  case data => exact (newerData_noteOld ..).trans (newerData_physWrite ..)
  case newer => rw [setMem_mem, lineTags_noteOld, lineTags_setTags]; rfl
  case older => rw [setMem_mem, lineTags_noteOld, lineTags_setTags]
  case others =>
    exact fun k hk => ⟨(newerData_noteOld ..).trans (newerData_physWrite_ne _ _ _ hb hk),
      (lineTags_noteOld ..).trans (lineTags_setTags_ne _ _ _ hk)⟩
  case read =>
    have hl : s.linkCarries pa n = true := linkCarries_iff.2 ⟨hd, h1, hb⟩
    refine ⟨fun ha hu => ⟨_, hostMemoryRead_of_within hl ha, rfl, ?_⟩,
      fun ha hu => ⟨_, hostMemoryRead_of_within hl ha, rfl, fun hc => ?_, fun e he => ?_⟩,
      fun ha => ⟨_, hostMemoryRead_of_beyond hl ha, (post_beside ..).mem, rfl, post_sseq ..⟩⟩
    · rw [hostLine_of_confirmed hu]
    · rw [hostLine_of_unconfirmed hu hc]
    · rw [hostLine_of_setAside hu he]
  case held =>
    refine stageFrom_nine_of_only (by decide) ?_ fun k hk h8 => ?_
    · simp [sourceEmpty, hr]
    · simp [sourceEmpty, h8, hbuf k (by omega)]
  case heldNext =>
    rw [hr]
    exact ⟨rfl, rfl⟩
  case die =>
    refine stageFrom_nine_of_only (by omega) ?_ fun k hk hne => ?_
    · simp [sourceEmpty, hr, Nat.ne_of_lt hd]
    · by_cases h8 : k = 8
      · simp [sourceEmpty, h8, hh]
      · simp [sourceEmpty, h8, hbuf k (by omega) hne]
  case dieNext =>
    rw [hr]
    exact ⟨rfl, congrArg Die.buf (die_setDie_same ..)⟩

/-- Refutes O54: arbitration records the queue that it has chosen, from which R55 takes the virtual time where no queue is eligible
(`queueArbitration_lastq`), while the clause on an entry that does not hold its own index lets it change nothing but the queue. Here queue 0
with `QRDIDX` 1, whose slot holds zeros, is the first queue that is chosen after reset. -/
theorem not_frontEndEntries : ¬ Obligations.FrontEndEntries := by
  unfold Obligations.FrontEndEntries
  intro h
  obtain ⟨-, harb, -⟩ :=
    h { State.reset with queues := [(0, { WQueue.reset with state := 1, rd := 1, wr := 2 })] } 0 (List.replicate 64 0)
  obtain ⟨-, hread⟩ := harb rfl (by decide)
  obtain ⟨-, hwait⟩ := hread ((if_pos (by decide)).trans (congrArg some (fgetAll_nil ..)))
  have hlast := queueArbitration_lastq (n := 0) (hwait (by decide)) rfl (by decide)
  exact absurd hlast (by decide)

end Sys2Proof.Laws
end

section
/-!
SUPPORT. The order of the ready tasks and the dispatchers (O51): the order of R76, what an entry keeps when offers
are made, the releases that a dispatcher takes in, and the moves to its neighbours.
-/
namespace Sys2Proof.Laws
open Sys2Proof.Machine

variable {s : State} {k n : Nat}

/-! ### The order of R76 -/

/-- Aged tasks go first. -/
def agedRank (x : Ready) : Nat := if x.aged then 0 else 1

/-- The role of a task, unless it has aged. -/
def roleRank (s : State) (x : Ready) : Nat := if x.aged then 0 else s.roleOf x.task

/-- Priority, highest first; then age, role and arrival, in lexicographic order (R76). -/
theorem before_iff (s : State) (x y : Ready) : s.before x y = true ↔ s.prioOf y.task < s.prioOf x.task ∨
    s.prioOf x.task = s.prioOf y.task ∧ (agedRank x < agedRank y ∨ agedRank x = agedRank y ∧
      (roleRank s x < roleRank s y ∨ roleRank s x = roleRank s y ∧ x.arrival < y.arrival)) := by
  unfold State.before agedRank roleRank
  by_cases hp : s.prioOf x.task = s.prioOf y.task
  · by_cases ha : x.aged = y.aged
    · cases hy : y.aged
      · by_cases hr : s.roleOf x.task = s.roleOf y.task <;> simp [hp, ha, hy, hr]
      · simp [hp, ha, hy]
    · cases hx : x.aged <;> cases hy : y.aged <;> simp_all
  · simp [hp]

theorem before_asymm {x y : Ready} (h : s.before x y = true) : s.before y x = false := by
  rw [← Bool.not_eq_true, before_iff] at *
  omega

/-- What comes after a later entry comes after an earlier one. -/
theorem not_before_trans {x y z : Ready} (hxy : s.before y x = false) (hyz : s.before z y = false) : s.before z x = false := by
  rw [← Bool.not_eq_true, before_iff] at *
  omega

/-- No later entry of the list comes before an earlier one (R76). -/
def InOrder (s : State) (l : List Ready) : Prop := l.Pairwise fun x y => s.before y x = false

theorem insertReady_perm (s : State) (r : Ready) : ∀ l, (s.insertReady r l).Perm (r :: l)
  | [] => .refl _
  | x :: xs => by
    rw [State.insertReady]
    split
    · exact .refl _
    · exact ((insertReady_perm s r xs).cons x).trans (.swap r x xs)

theorem insertReady_inOrder (r : Ready) : ∀ {l : List Ready}, InOrder s l → InOrder s (s.insertReady r l)
  | [], _ => List.pairwise_singleton ..
  | x :: xs, h => by
    obtain ⟨hx, hxs⟩ := List.pairwise_cons.1 h
    by_cases hb : s.before r x = true
    · rw [State.insertReady, if_pos hb]
      refine List.pairwise_cons.2 ⟨fun y hy => ?_, h⟩
      rcases List.mem_cons.1 hy with rfl | hy
      · exact before_asymm hb
      · exact not_before_trans (before_asymm hb) (hx y hy)
    · rw [State.insertReady, if_neg hb]
      refine List.pairwise_cons.2 ⟨fun y hy => ?_, insertReady_inOrder r hxs⟩
      rcases List.mem_cons.1 ((insertReady_perm ..).mem_iff.1 hy) with rfl | hy
      · exact Bool.not_eq_true _ ▸ hb
      · exact hx y hy

theorem sortReady_inOrder (s : State) : ∀ l, InOrder s (s.sortReady l)
  | [] => .nil
  | r :: l => insertReady_inOrder r (sortReady_inOrder s l)

theorem sortReady_perm (s : State) : ∀ l, (s.sortReady l).Perm l
  | [] => .nil
  | r :: l => (insertReady_perm s r (s.sortReady l)).trans ((sortReady_perm s l).cons r)

/-! ### Offers (R77, R79) -/

/-- `b` is entry `a` after offers: its place in the order and its block stand, and an offer that it has got goes to a core that is not halted. -/
structure Marked (s : State) (a b : Ready) : Prop where
  task : b.task = a.task
  aged : b.aged = a.aged
  arrival : b.arrival = a.arrival
  fetched : b.fetched = a.fetched
  blocked : a.blocked = true → b.blocked = true ∨ b.offer ≠ none
  offer : b.offer = a.offer ∨ a.offer = none ∧ ∃ n, b.offer = some n ∧ (s.core n).dbg.halted = false

theorem Marked.refl (s : State) (a : Ready) : Marked s a a := ⟨rfl, rfl, rfl, rfl, .inl, .inl rfl⟩

theorem Marked.trans {a b c : Ready} (h : Marked s a b) (g : Marked s b c) : Marked s a c where
  task := g.task.trans h.task
  aged := g.aged.trans h.aged
  arrival := g.arrival.trans h.arrival
  fetched := g.fetched.trans h.fetched
  blocked ha := by
    rcases h.blocked ha with hb | hb
    · exact g.blocked hb
    · rcases g.offer with e | ⟨e, -⟩
      · exact .inr (e ▸ hb)
      · exact absurd e hb
  offer := by
    rcases g.offer with e | ⟨hn, e⟩
    · rw [e]
      exact h.offer
    · rcases h.offer with e' | ⟨-, m, e', -⟩
      · exact .inr ⟨e' ▸ hn, e⟩
      · cases hn.symm.trans e'

theorem Marked.of_cores {t : State} {a b : Ready} (h : Marked t a b) (e : t.cores = s.cores) : Marked s a b := by
  obtain ⟨htask, haged, harrival, hfetched, hblocked, hoffer⟩ := h
  unfold State.core at hoffer
  rw [e] at hoffer
  exact ⟨htask, haged, harrival, hfetched, hblocked, hoffer⟩

/-- `m` is the list `l` after offers, entry by entry. -/
def MarkedAll (s : State) (l m : List Ready) : Prop := ∃ g : Ready → Ready, (∀ a, Marked s a (g a)) ∧ m = l.map g

theorem MarkedAll.refl (s : State) (l : List Ready) : MarkedAll s l l := ⟨id, Marked.refl s, (List.map_id l).symm⟩

theorem MarkedAll.trans {l m p : List Ready} (h : MarkedAll s l m) (k : MarkedAll s m p) : MarkedAll s l p := by
  obtain ⟨f, hf, rfl⟩ := h
  obtain ⟨g, hg, rfl⟩ := k
  exact ⟨g ∘ f, fun a => (hf a).trans (hg (f a)), List.map_map ..⟩

theorem countSkip_marked (s : State) (l : List Ready) (n : Nat) (r : Ready) : MarkedAll s l (s.countSkip l n r) := by
  unfold State.countSkip
  split
  · split
    · refine ⟨_, fun a => ?_, rfl⟩
      split
      · exact ⟨rfl, rfl, rfl, rfl, .inl, .inl rfl⟩
      · exact .refl s a
    · exact .refl s l
  · exact .refl s l

theorem bestCore_mem : ∀ {l : List Nat}, s.bestCore l = some n → n ∈ l
  | m :: ms, h => by
    rw [State.bestCore] at h
    split at h
    next => exact Option.some.inj h ▸ List.mem_cons_self
    next m' hm =>
      split at h
      · exact Option.some.inj h ▸ List.mem_cons_self
      · exact List.mem_cons_of_mem m (bestCore_mem (hm.trans h))

/-- An offer goes to a task that has none, at a core that is not halted (R77, R365). -/
theorem offerable_spec {l : List Ready} {r : Ready} (h : s.offerable l r n = true) :
    r.offer = none ∧ (s.core n).dbg.halted = false := by
  simp only [State.offerable, Bool.and_eq_true, Option.isNone_iff_eq_none, Bool.not_eq_true', and_assoc] at h
  obtain ⟨hoffer, -, -, hhalted, -⟩ := h
  exact ⟨hoffer, hhalted⟩

theorem offerRound_marked (s : State) (k : Nat) : ∀ rs l, MarkedAll s l (s.offerRound k rs l)
  | [], l => .refl s l
  | r :: rs, l => by
    rw [State.offerRound]
    split
    next n hn =>
      obtain ⟨hr, hh⟩ := offerable_spec (List.mem_filter.1 (bestCore_mem hn)).2
      refine ((countSkip_marked s l n r).trans ⟨_, fun a => ?_, rfl⟩).trans (offerRound_marked s k rs _)
      split
      next e => exact ⟨rfl, rfl, rfl, rfl, fun _ => .inr nofun, .inr ⟨e ▸ hr, n, rfl, hh⟩⟩
      next => exact .refl s a
    next => exact offerRound_marked s k rs l

theorem offers_ready (s : State) (k : Nat) : MarkedAll s (s.sortReady (s.cluster k).ready) ((s.offers k).cluster k).ready := by
  have e : ((s.offers k).cluster k).ready = _ := congrArg Cluster.ready (cluster_setCluster_same ..)
  rw [e]
  exact offerRound_marked ..

theorem offers_frame (s : State) (k : Nat) :
    (s.offers k).releases = s.releases ∧ (s.offers k).mem = s.mem ∧ (s.offers k).cores = s.cores := ⟨rfl, rfl, rfl⟩

theorem offers_input (s : State) (k : Nat) : ((s.offers k).cluster k).input = (s.cluster k).input := by
  unfold State.offers
  dsimp only
  rw [cluster_setCluster_same]

theorem offers_length (s : State) (k : Nat) : ((s.offers k).cluster k).ready.length = (s.cluster k).ready.length := by
  obtain ⟨g, -, e⟩ := offers_ready s k
  rw [e, List.length_map]
  exact (sortReady_perm ..).length_eq

/-- Every entry stands after offers, marked at most. -/
theorem exists_marked_of_mem {r : Ready} (h : r ∈ (s.cluster k).ready) : ∃ e ∈ ((s.offers k).cluster k).ready, Marked s r e := by
  obtain ⟨g, hg, e⟩ := offers_ready s k
  rw [e]
  exact ⟨g r, List.mem_map_of_mem ((sortReady_perm ..).mem_iff.2 h), hg r⟩

/-- Offers make no entry. -/
theorem exists_marked_from_mem {e : Ready} (h : e ∈ ((s.offers k).cluster k).ready) : ∃ r ∈ (s.cluster k).ready, Marked s r e := by
  obtain ⟨g, hg, e⟩ := offers_ready s k
  rw [e] at h
  obtain ⟨r, hr, rfl⟩ := List.mem_map.1 h
  exact ⟨r, (sortReady_perm ..).mem_iff.1 hr, hg r⟩

theorem offers_task_perm (s : State) (k : Nat) :
    (((s.offers k).cluster k).ready.map fun e => e.task).Perm ((s.cluster k).ready.map fun e => e.task) := by
  obtain ⟨g, hg, e⟩ := offers_ready s k
  have htask : ((s.sortReady (s.cluster k).ready).map g).map (fun e => e.task) = (s.sortReady (s.cluster k).ready).map fun e => e.task := by
    rw [List.map_map]
    exact List.map_congr_left fun r _ => (hg r).task
  rw [e, htask]
  exact (sortReady_perm ..).map _

/-- Marks change no order. -/
theorem Marked.before {a b x y : Ready} (h : Marked s a b) (g : Marked s x y) : s.before y b = s.before x a := by
  unfold State.before
  rw [h.task, h.aged, h.arrival, g.task, g.aged, g.arrival]

theorem offers_inOrder (s : State) (k : Nat) : InOrder s ((s.offers k).cluster k).ready := by
  obtain ⟨g, hg, e⟩ := offers_ready s k
  rw [e]
  exact List.pairwise_map.2 ((sortReady_inOrder ..).imp fun h => ((hg _).before (hg _)).trans h)

/-! ### Releases and the input (R75) -/

variable {r : Release}

/-- The release `r` may arrive: it stands at `k`, is the oldest from its source to its dispatcher, and its way is free. -/
structure Arriving (s : State) (k : Nat) (r : Release) : Prop where
  at_ : s.releases[k]? = some r
  oldest : ∀ q ∈ s.releases.take k, ¬ (q.src = r.src ∧ q.cluster = r.cluster)
  links : s.linksRelease r = true
  free : s.releaseBehind r = false

theorem Arriving.not_kept (h : Arriving s k r) :
    ¬ ((s.releases.take k).any (fun x => x.src == r.src && x.cluster == r.cluster) || !s.linksRelease r || s.releaseBehind r) = true := by
  simpa [h.links, h.free] using h.oldest

theorem releaseArrival_of_ended (h : Arriving s k r) (hx : (s.ctx r.task.ctx).state ≠ 2) :
    exec (.releaseArrival k) s = .next { s with releases := s.releases.eraseIdx k } := by
  show execReleaseArrival k s = _
  unfold execReleaseArrival
  rw [h.at_]
  exact (if_neg h.not_kept).trans (if_pos hx)

theorem releaseArrival_of_live (h : Arriving s k r) (hx : (s.ctx r.task.ctx).state = 2) (hset : r.task.set.length ≤ 8) :
    exec (.releaseArrival k) s = .next (State.enter { s with releases := s.releases.eraseIdx k } r.cluster r) := by
  have hr : s.releaseSet r = some r.task.set := if_pos (.inl hset)
  show execReleaseArrival k s = _
  unfold execReleaseArrival
  rw [h.at_]
  refine (if_neg h.not_kept).trans ((if_neg (not_not_intro hx)).trans ?_)
  rw [hr]

theorem enter_frame (s : State) (k : Nat) (r : Release) :
    (s.enter k r).releases = s.releases ∧ (s.enter k r).mem = s.mem ∧ (s.enter k r).cores = s.cores := by
  unfold State.enter
  dsimp only
  split <;> exact ⟨rfl, rfl, rfl⟩

theorem enter_of_room (hl : (s.cluster k).ready.length < 512) (hi : (s.cluster k).input = []) :
    ∃ e ∈ ((s.enter k r).cluster k).ready, Marked s (s.entryOf k r) e := by
  unfold State.enter
  dsimp only
  rw [if_pos ⟨hl, hi⟩]
  have h : s.entryOf k r ∈ ((State.setCluster { s with clock := s.clock + 1 } k
      { s.cluster k with ready := (s.cluster k).ready ++ [s.entryOf k r] }).cluster k).ready := by
    rw [cluster_setCluster_same]
    exact List.mem_append_right _ (List.mem_singleton_self _)
  obtain ⟨e, he, hm⟩ := exists_marked_of_mem h
  exact ⟨e, he, hm.of_cores (s := s) rfl⟩

theorem enter_of_full (hl : 512 ≤ (s.cluster k).ready.length) :
    ((s.enter k r).cluster k).input = (s.cluster k).input ++ [r] := by
  unfold State.enter
  dsimp only
  rw [if_neg fun h => absurd h.1 (Nat.not_lt.2 hl)]
  exact congrArg Cluster.input (cluster_setCluster_same ..)

theorem refill_releases (s : State) (k : Nat) : (s.refill k).releases = s.releases := by
  unfold State.refill
  rw [takeIn_frame]

/-- What dispatcher `k` of `t` has taken in of what waits at its input in `s`. -/
structure TookIn (s : State) (k : Nat) (t : State) : Prop where
  ready : ∀ r ∈ (s.cluster k).ready, r ∈ (t.cluster k).ready
  input : ∀ q ∈ (s.cluster k).input, q ∈ (t.cluster k).input ∨ ∃ e ∈ (t.cluster k).ready, e.task = q.task

theorem takeIn_tookIn (k : Nat) : ∀ (n : Nat) (s : State), TookIn s k (State.takeIn k n s)
  | 0, _ => ⟨fun _ h => h, fun _ h => .inl h⟩
  | n + 1, s => by
    rw [State.takeIn]
    split
    next r rs hi =>
      split
      · obtain ⟨hready, hinput⟩ := takeIn_tookIn k n
          (State.setCluster { s with clock := s.clock + 1 } k { s.cluster k with ready := (s.cluster k).ready ++ [s.entryOf k r], input := rs })
        rw [cluster_setCluster_same] at hready hinput
        refine ⟨fun x hx => hready x (List.mem_append_left _ hx), fun q hq => ?_⟩
        rw [hi] at hq
        rcases List.mem_cons.1 hq with rfl | hq
        · exact .inr ⟨_, hready _ (List.mem_append_right _ (List.mem_singleton_self _)), rfl⟩
        · exact hinput q hq
      · exact ⟨fun _ h => h, fun _ h => .inl h⟩
    next => exact ⟨fun _ h => h, fun _ h => .inl h⟩

/-- The input is taken in until it is empty or the dispatcher is full. -/
theorem takeIn_input (k : Nat) : ∀ (n : Nat) (s : State), (s.cluster k).input.length ≤ n →
    ((State.takeIn k n s).cluster k).input = [] ∨ 512 ≤ ((State.takeIn k n s).cluster k).ready.length
  | 0, _, h => .inl (List.eq_nil_of_length_eq_zero (Nat.le_zero.1 h))
  | n + 1, s, h => by
    rw [State.takeIn]
    split
    next r rs hi =>
      split
      · refine takeIn_input k n _ ?_
        rw [cluster_setCluster_same]
        rw [hi] at h
        exact Nat.le_of_succ_le_succ h
      next hl => exact .inr (Nat.not_lt.1 hl)
    next hi => exact .inl hi

/-! ### Offers that reach their core -/

variable {e : Ready}

theorem offerArrival_of_running (ho : (s.core n).offer = none) (hf : (s.cluster (clusterOf n)).ready.find? (fun r => r.offer == some n) = some e)
    (hh : (s.core n).dbg.halted = false) : exec (.offerArrival n) s = .next (s.setCore n { s.core n with offer := some e.task }) := by
  show execOfferArrival n s = _
  unfold execOfferArrival
  dsimp only
  rw [ho, hf]
  dsimp only
  rw [if_neg (by simp [hh])]

theorem offerArrival_of_halted (ho : (s.core n).offer = none) (hf : (s.cluster (clusterOf n)).ready.find? (fun r => r.offer == some n) = some e)
    (hh : (s.core n).dbg.halted = true) : exec (.offerArrival n) s = .next ((s.returnOffer n).offers (clusterOf n)) := by
  show execOfferArrival n s = _
  unfold execOfferArrival
  dsimp only
  rw [ho, hf]
  dsimp only
  rw [if_pos hh]

theorem returnOffer_core (s : State) (n : Nat) : (s.returnOffer n).core n = { s.core n with offer := none } := core_setCore_same ..

/-- An entry without the offer to core `n`. -/
def unoffered (n : Nat) (r : Ready) : Ready := if r.offer = some n then { r with offer := none } else r

theorem unoffered_offer (n : Nat) (r : Ready) : (unoffered n r).offer ≠ some n := by
  unfold unoffered
  split
  · nofun
  · assumption

theorem unoffered_task (n : Nat) (r : Ready) : (unoffered n r).task = r.task := by
  unfold unoffered
  split <;> rfl

theorem returnOffer_ready (s : State) (n : Nat) :
    ((s.returnOffer n).cluster (clusterOf n)).ready = (s.cluster (clusterOf n)).ready.map (unoffered n) :=
  congrArg Cluster.ready (cluster_setCluster_same ..)

/-- A halted core gets no offer again. -/
theorem offers_returnOffer (hh : (s.core n).dbg.halted = true)
    (he : e ∈ (((s.returnOffer n).offers (clusterOf n)).cluster (clusterOf n)).ready) :
    e.offer ≠ some n := by
  obtain ⟨r, hr, hm⟩ := exists_marked_from_mem he
  rw [returnOffer_ready] at hr
  obtain ⟨x, -, rfl⟩ := List.mem_map.1 hr
  rcases hm.offer with h | ⟨-, m, h, hm⟩
  · exact h ▸ unoffered_offer n x
  · rw [h]
    rintro ⟨⟩
    rw [returnOffer_core] at hm
    exact Bool.false_ne_true (hm.symm.trans hh)

theorem offers_returnOffer_perm (s : State) (n : Nat) :
    ((((s.returnOffer n).offers (clusterOf n)).cluster (clusterOf n)).ready.map fun e => e.task).Perm
      ((s.cluster (clusterOf n)).ready.map fun e => e.task) := by
  refine (offers_task_perm ..).trans (List.Perm.of_eq ?_)
  rw [returnOffer_ready, List.map_map]
  exact List.map_congr_left fun r _ => unoffered_task n r

/-! ### Marks on an entry (R76, R79, R369) -/

/-- A mark on entry `k` stands after the offers that it allows. -/
theorem exists_marked_onReady {c : Nat} (h : (s.cluster c).ready[k]? = some e) (g : Ready → Ready) :
    ∃ x ∈ ((s.onReady c k g).cluster c).ready, Marked s (g e) x := by
  have hmem : g e ∈ ((s.setCluster c
      { s.cluster c with ready := (s.cluster c).ready.mapIdx fun i r => if i = k then g r else r }).cluster c).ready := by
    rw [cluster_setCluster_same]
    obtain ⟨hk, rfl⟩ := List.getElem?_eq_some_iff.1 h
    exact List.mem_mapIdx.2 ⟨k, hk, if_pos rfl⟩
  obtain ⟨x, hx, hm⟩ := exists_marked_of_mem hmem
  exact ⟨x, hx, hm.of_cores (s := s) rfl⟩

/-! ### Moves to the neighbours (R80) -/

/-- `t` is `s` after moves from cluster `c`: an entry of its dispatcher stands, or has left as a release with its age and its skips, and
only an entry that a move may take has left. -/
structure Moved (c : Nat) (s t : State) : Prop where
  cores : t.cores = s.cores
  mem : t.mem = s.mem
  input : (t.cluster c).input = (s.cluster c).input
  fewer : ∀ r ∈ (t.cluster c).ready, r ∈ (s.cluster c).ready
  more : ∀ q ∈ s.releases, q ∈ t.releases
  entry : ∀ r ∈ (s.cluster c).ready, r ∈ (t.cluster c).ready ∨
    ∃ q ∈ t.releases, q.task = r.task ∧ q.src = 2000 + c ∧ q.aged = r.aged ∧ q.skips = r.skips
  release : ∀ q ∈ t.releases, q ∈ s.releases ∨
    q.src = 2000 + c ∧ q.task.core = none ∧ ∃ r ∈ (s.cluster c).ready, r.task = q.task ∧ r.offer = none

section
variable {c : Nat}

theorem Moved.refl (s : State) : Moved c s s := ⟨rfl, rfl, rfl, fun _ h => h, fun _ h => h, fun _ h => .inl h, fun _ h => .inl h⟩

theorem Moved.trans {s t u : State} (h : Moved c s t) (g : Moved c t u) : Moved c s u where
  cores := g.cores.trans h.cores
  mem := g.mem.trans h.mem
  input := g.input.trans h.input
  fewer r hr := h.fewer r (g.fewer r hr)
  more q hq := g.more q (h.more q hq)
  entry r hr := by
    rcases h.entry r hr with hr | ⟨q, hq, e⟩
    · exact g.entry r hr
    · exact .inr ⟨q, g.more q hq, e⟩
  release q hq := by
    rcases g.release q hq with hq | ⟨hs, hc, r, hr, e⟩
    · exact h.release q hq
    · exact .inr ⟨hs, hc, r, h.fewer r hr, e⟩

theorem Moved.foldl {β : Type} {g : State → β → State} (hg : ∀ s b, Moved c s (g s b)) (l : List β) : ∀ s, Moved c s (l.foldl g s) := by
  induction l with
  | nil => exact Moved.refl
  | cons b l ih => exact fun s => (hg s b).trans (ih _)

theorem movable_spec {ctx : Nat} (h : s.movable ctx e = true) : e.offer = none ∧ e.task.core = none := by
  simp only [State.movable, Bool.and_eq_true, Option.isNone_iff_eq_none, and_assoc] at h
  obtain ⟨-, hoffer, hcore, -⟩ := h
  exact ⟨hoffer, hcore⟩

theorem of_mem_ite {p : Prop} [Decidable p] {l m : List Ready} (h : e ∈ if p then l else m) : p ∧ e ∈ l ∨ e ∈ m := by
  split at h
  next hp => exact .inl ⟨hp, h⟩
  next => exact .inr h

theorem mem_takeMoves {ctx to_ : Nat} : ∀ {n : Nat} {l : List Ready}, e ∈ s.takeMoves ctx to_ n l → e ∈ l ∧ s.movable ctx e = true
  | 0, l, h => by cases l <;> cases h
  | _ + 1, [], h => nomatch h
  | n + 1, x :: xs, h => by
    rw [State.takeMoves] at h
    rcases of_mem_ite h with ⟨hx, h⟩ | h
    · rcases List.mem_cons.1 h with rfl | h
      · exact ⟨List.mem_cons_self, (Bool.and_eq_true_iff.1 hx).1⟩
      · exact (mem_takeMoves h).imp_left (List.mem_cons_of_mem x)
    · exact (mem_takeMoves h).imp_left (List.mem_cons_of_mem x)

/-- A neighbour's count says nothing of tasks. -/
theorem report_moved (s : State) (c b : Nat) (m : FMap Nat) : Moved c s (s.setCluster b { s.cluster b with depths := m }) := by
  have h : ((s.setCluster b { s.cluster b with depths := m }).cluster c).input = (s.cluster c).input ∧
      ((s.setCluster b { s.cluster b with depths := m }).cluster c).ready = (s.cluster c).ready := by
    by_cases hb : c = b
    · rw [hb, cluster_setCluster_same]
      exact ⟨rfl, rfl⟩
    · rw [cluster_setCluster_ne _ _ _ hb]
      exact ⟨rfl, rfl⟩
  obtain ⟨hi, hr⟩ := h
  exact ⟨rfl, rfl, hi, fun _ h => hr ▸ h, fun _ h => h, fun _ h => .inl (hr ▸ h), fun _ h => .inl h⟩

/-- The release of a task that moves from cluster `c` to cluster `b`. -/
def moveOf (c b : Nat) (r : Ready) : Release := { task := r.task, cluster := b, src := 2000 + c, aged := r.aged, skips := r.skips }

theorem cluster_sent (t : State) (c : Nat) (x : Cluster) (l : List Release) :
    State.cluster { t.setCluster c x with releases := l } c = x := cluster_setCluster_same t c x

/-- The tasks `mv` leave the dispatcher of cluster `c` for cluster `b`, and one that leaves may leave. -/
theorem send_moved {s1 : State} {mv : List Ready} (b : Nat) (h : Moved c s s1)
    (hmv : ∀ r ∈ mv, r ∈ (s.cluster c).ready ∧ r.offer = none ∧ r.task.core = none) :
    Moved c s { s1.setCluster c { s.cluster c with ready := (s.cluster c).ready.filter fun r => !mv.contains r } with
      releases := s1.releases ++ mv.map (moveOf c b) } where
  cores := h.cores
  mem := h.mem
  input := by rw [cluster_sent]
  fewer r hr := by
    rw [cluster_sent] at hr
    exact (List.mem_filter.1 hr).1
  more q hq := List.mem_append_left _ (h.more q hq)
  entry r hr := by
    by_cases hm : r ∈ mv
    · exact .inr ⟨moveOf c b r, List.mem_append_right _ (List.mem_map_of_mem hm), rfl, rfl, rfl, rfl⟩
    · rw [cluster_sent]
      exact .inl (List.mem_filter.2 ⟨hr, by simpa using hm⟩)
  release q hq := by
    rcases List.mem_append.1 hq with hq | hq
    · exact h.release q hq
    · obtain ⟨r, hr, rfl⟩ := List.mem_map.1 hq
      obtain ⟨hready, hoffer, hcore⟩ := hmv r hr
      exact .inr ⟨rfl, hcore, r, hready, rfl, hoffer⟩

theorem exchange_moved (s : State) (c ctx d b : Nat) : Moved c s (s.exchange c ctx d b) := by
  unfold State.exchange
  dsimp only
  split
  · exact report_moved ..
  · refine send_moved b (report_moved ..) fun r hr => ?_
    obtain ⟨hl, hm⟩ := mem_takeMoves hr
    exact ⟨(sortReady_perm ..).mem_iff.1 (List.mem_reverse.1 hl), movable_spec hm⟩

/-- The moves of one exchange (R80): with every neighbour, for every context. -/
def movesFrom (s : State) (c : Nat) : State :=
  (List.range 64).foldl (fun (s : State) ctx => ((s.ctx ctx).neighbours c).foldl
    (fun s' b => s'.exchange c ctx ((s.cluster c).ready.filter (s.movable ctx)).length b) s) s

theorem dispatchExchange_eq (s : State) (c : Nat) : exec (.dispatchExchange c) s = .next (((movesFrom s c).refill c).offers c) := rfl

theorem moves_moved (s : State) (c : Nat) : Moved c s (movesFrom s c) :=
  Moved.foldl (fun s _ => Moved.foldl (fun s' _ => exchange_moved s' ..) _ s) _ s

end

/-! ### The last task (R282) -/

theorem idleFor_spec {c : Core} (h : c.idleFor = true) : c.frames = [] ∧ c.reqs = [] ∧ ∀ b ∈ c.closed, b.settled = true := by
  simp only [Core.idleFor, Bool.and_eq_true, List.isEmpty_iff, List.all_eq_true, and_assoc] at h
  obtain ⟨hframes, -, hreqs, -, -, -, -, -, hclosed⟩ := h
  exact ⟨hframes, hreqs, fun b hb => (hclosed b hb).2⟩

theorem lastRetired_spec (h : s.lastRetired k = true) : (s.ctx k).state = 2 ∧
    ∀ m ∈ (s.ctx k).cores, (s.core m).frames = [] ∧ (s.core m).reqs = [] ∧ ∀ b ∈ (s.core m).closed, b.settled = true := by
  simp only [State.lastRetired, Bool.and_eq_true, List.all_eq_true, beq_iff_eq, and_assoc] at h
  obtain ⟨hstate, -, -, -, hidle, -⟩ := h
  exact ⟨hstate, fun m hm => idleFor_spec (hidle m hm)⟩

end Sys2Proof.Laws
end

section
namespace Sys2Proof.Laws
open Sys2Proof.Machine

/-- Settles O51: an entry keeps its place in the order whatever offers are made (`offers_ready`), and an exchange is a run of moves
(`moves_moved`), then a run of releases that are taken in. -/
theorem dispatcherSteps : Obligations.DispatcherSteps := by
  unfold Obligations.DispatcherSteps
  intro s c k n
  refine ⟨⟨offers_task_perm s c, offers_inOrder s c⟩,
    fun r hr hfirst hlinks hfree => ⟨fun hx => releaseArrival_of_ended ⟨hr, hfirst, hlinks, hfree⟩ hx, fun hx hset =>
      ⟨_, releaseArrival_of_live ⟨hr, hfirst, hlinks, hfree⟩ hx hset, (enter_frame ..).1, (enter_frame ..).2.1, (enter_frame ..).2.2,
        fun ⟨hl, hi⟩ => ?room, fun hl => enter_of_full hl⟩⟩,
    fun r ho hf => ⟨offerArrival_of_running ho hf, fun hh =>
      ⟨_, offerArrival_of_halted ho hf hh, ?returned, fun e he => offers_returnOffer hh he, offers_returnOffer_perm s n⟩⟩,
    fun r hr => ⟨?aged, fun hskips ho => ?blocked, ?fetched⟩, ⟨_, dispatchExchange_eq s c, ?exchange⟩,
    fun h => ⟨(lastRetired_spec h).1, (lastRetired_spec h).2, _, congrArg Host.Outcome.next (if_pos h), ?ended⟩,
    fun h => congrArg Host.Outcome.next (if_neg (by simp [h]))⟩
  case room =>
    obtain ⟨e, he, hm⟩ := enter_of_room (s := { s with releases := s.releases.eraseIdx k }) (r := r) hl hi
    exact ⟨e, he, hm.task, hm.arrival, hm.aged⟩
  case returned => exact congrArg Core.offer (returnOffer_core s n)
  case aged =>
    obtain ⟨e, he, hm⟩ := exists_marked_onReady hr fun r => { r with aged := true }
    exact ⟨_, e, rfl, rfl, rfl, ⟨he, hm.task, hm.arrival⟩, hm.aged⟩
  case blocked =>
    obtain ⟨e, he, hm⟩ :=
      exists_marked_onReady hr fun r => if s.skipLim r.task ≤ r.skips ∧ r.offer.isNone then { r with blocked := true } else r
    rw [if_pos ⟨hskips, by simp [ho]⟩] at hm
    exact ⟨_, e, rfl, rfl, ⟨he, hm.task, hm.arrival⟩, hm.blocked rfl⟩
  case fetched =>
    obtain ⟨e, he, hm⟩ := exists_marked_onReady hr fun r => { r with fetched := true }
    exact ⟨_, e, rfl, rfl, ⟨he, hm.task, hm.arrival⟩, hm.fetched⟩
  case exchange =>
    have hmoved := moves_moved s c
    have htook : TookIn (movesFrom s c) c ((movesFrom s c).refill c) := takeIn_tookIn ..
    have hfill : (((movesFrom s c).refill c).cluster c).input = [] ∨ 512 ≤ (((movesFrom s c).refill c).cluster c).ready.length :=
      takeIn_input c _ _ (Nat.le_refl _)
    have hbeside := refill_beside (movesFrom s c) c
    obtain ⟨hreleases, hmem, hcores⟩ := offers_frame ((movesFrom s c).refill c) c
    rw [hreleases, refill_releases, offers_input, offers_length]
    refine ⟨hcores.trans (hbeside.cores.trans hmoved.cores), hmem.trans (hbeside.mem.trans hmoved.mem), fun r hr => ?_,
      hmoved.release, fun q hq => ?_, hfill⟩
    · rcases hmoved.entry r hr with h | h
      · obtain ⟨e, he, hm⟩ := exists_marked_of_mem (htook.ready r h)
        exact .inl ⟨e, he, hm.task⟩
      · exact .inr h
    · rw [← hmoved.input] at hq
      rcases htook.input q hq with h | ⟨x, hx, ht⟩
      · exact .inl h
      · obtain ⟨e, he, hm⟩ := exists_marked_of_mem hx
        exact .inr ⟨e, he, hm.task.trans ht⟩
  case ended =>
    rw [endCtx_ctx s k _ _ (lastRetired_spec h).1]
    exact ⟨rfl, rfl, rfl⟩

end Sys2Proof.Laws
end

section
/-!
SUPPORT. The package around its cores (O60): the records of the management, harvest and spares, what power and reset clear, the limits of the
sensors, and the buffer of the attestation.
-/
namespace Sys2Proof.Laws
open Sys2Proof.Machine

variable {s : State} {d pc unit idx sensor : Nat} {v : BitVec 32}

/-! ### Records of the management (R66) -/

/-- A record of the management enters no die's buffer. -/
theorem post_mgmt_frame (s : State) (ctx : Option Nat) (code : Nat) (pay : List Byte) :
    s.post srcMgmt ctx code pay = { s with events := (s.post srcMgmt ctx code pay).events } := by
  have h : srcDie srcMgmt = none := by decide
  unfold State.post
  rw [h]
  dsimp only
  split
  · rfl
  · split <;> rfl

/-- The number of the next record of the management. -/
def mgmtSseq (s : State) : BitVec 16 := fget 0 s.events.sseq srcMgmt

theorem harvestEvent_frame (s : State) (d : Nat) : s.harvestEvent d = { s with events := (s.harvestEvent d).events } := by
  unfold State.harvestEvent
  exact post_mgmt_frame ..
theorem harvestEvent_die (s : State) (d k : Nat) : (s.harvestEvent d).die k = s.die k := by
  rw [harvestEvent_frame]
  rfl
theorem harvestEvent_sseq (s : State) (d : Nat) : mgmtSseq (s.harvestEvent d) = mgmtSseq s + 1 := post_sseq ..

theorem spareEvent_frame (s : State) (kind unit idx : Nat) :
    s.spareEvent kind unit idx = { s with events := (s.spareEvent kind unit idx).events } := by
  unfold State.spareEvent
  exact post_mgmt_frame ..
theorem spareEvent_mgmt (s : State) (kind unit idx : Nat) : (s.spareEvent kind unit idx).mgmt = s.mgmt := by rw [spareEvent_frame]
theorem spareEvent_sseq (s : State) (kind unit idx : Nat) : mgmtSseq (s.spareEvent kind unit idx) = mgmtSseq s + 1 := post_sseq ..

/-! ### Harvest (R69) -/

theorem getLsbD_one_shiftLeft {w : Nat} (k j : Nat) : ((1 <<< k : Nat) : BitVec w).getLsbD j = (decide (j < w) && decide (k = j)) := by
  rw [Nat.one_shiftLeft, ← Nat.testBit_two_pow]
  exact BitVec.getLsbD_ofNat ..

theorem spare_spec {x : Die} {k : Nat} (h : x.spare = some k) : x.cluse.getLsbD k = false := by
  unfold Die.spare at h
  split at h
  · cases h
  · have hk := List.find?_some h
    simp only [Bool.and_eq_true, Bool.not_eq_true'] at hk
    exact hk.1

/-- A retired cluster is out of use; the spare that takes its place is another. -/
theorem retire_spec {x : Die} (hpc : pc < 34) (h : x.cluse.getLsbD pc = true) :
    (x.retire pc).clret.getLsbD pc = true ∧ (x.retire pc).cluse.getLsbD pc = false ∧ (x.retire pc).corelost = x.corelost := by
  unfold Die.retire
  dsimp only
  split
  next k hk =>
    have hne : k ≠ pc := by
      rintro rfl
      exact Bool.false_ne_true ((spare_spec hk).symm.trans h)
    simp only [BitVec.getLsbD_or, BitVec.getLsbD_and, BitVec.getLsbD_not, getLsbD_one_shiftLeft]
    simp [hpc, hne]
  next =>
    simp only [BitVec.getLsbD_or, BitVec.getLsbD_and, BitVec.getLsbD_not, getLsbD_one_shiftLeft]
    simp [hpc]

theorem retireCluster_die (s : State) (d pc : Nat) : (s.retireCluster d pc).die d = (s.die d).retire pc := by
  unfold State.retireCluster
  dsimp only
  split
  · rw [spareEvent_frame]
    exact (harvestEvent_die ..).trans (die_setDie_same ..)
  · exact (harvestEvent_die ..).trans (die_setDie_same ..)

theorem retireCluster_sseq (s : State) (d pc : Nat) :
    mgmtSseq (s.retireCluster d pc) = mgmtSseq s + (if (s.die d).spare.isSome then 2 else 1) := by
  have h : mgmtSseq ((s.setDie d ((s.die d).retire pc)).harvestEvent d) = mgmtSseq s + 1 := harvestEvent_sseq ..
  unfold State.retireCluster
  dsimp only
  split
  · rw [spareEvent_sseq, h, BitVec.add_assoc]
    rfl
  · exact h

theorem harvestBlockChange_of_busy (hb : s.dieBusy d = true) (core : Option Nat) : exec (.harvestBlockChange d pc core) s = .next s :=
  if_pos (.inr (.inl hb))

theorem not_harvestStays (hd : d < 8) (h : (s.die d).cluse.getLsbD pc = true) (hb : s.dieBusy d = false) :
    ¬ (8 ≤ d ∨ s.dieBusy d = true ∨ (!(s.die d).cluse.getLsbD pc) = true) := by
  simp [hd, h, hb]

theorem harvestBlockChange_cluster (hd : d < 8) (h : (s.die d).cluse.getLsbD pc = true) (hb : s.dieBusy d = false) :
    exec (.harvestBlockChange d pc none) s = .next (s.retireCluster d pc) := if_neg (not_harvestStays hd h hb)

theorem harvestBlockChange_core {k : Nat} (hd : d < 8) (h : (s.die d).cluse.getLsbD pc = true) (hb : s.dieBusy d = false) (hk : k < 4) :
    exec (.harvestBlockChange d pc (some k)) s =
      .next ((s.setDie d { s.die d with corelost := (s.die d).corelost ||| (1 <<< (4 * pc + k)) }).harvestEvent d) :=
  (if_neg (not_harvestStays hd h hb)).trans (congrArg _ (if_pos hk))

theorem spareBringIn_cluster_of_busy (hb : s.dieBusy d = true) : exec (.spareBringIn 1 d pc) s = .next s :=
  congrArg _ (if_pos (.inr (.inl hb)))

theorem spareBringIn_cluster_of_none (hn : (s.die d).spare = none) : exec (.spareBringIn 1 d pc) s = .next s :=
  congrArg _ (if_pos (.inr (.inr (.inr (by rw [hn]; rfl)))))

theorem spareBringIn_cluster (hd : d < 8) (h : (s.die d).cluse.getLsbD pc = true) (hb : s.dieBusy d = false)
    (hs : (s.die d).spare.isSome = true) : exec (.spareBringIn 1 d pc) s = .next (s.retireCluster d pc) := by
  refine congrArg _ (if_neg ?_)
  simp [hd, h, hb, Option.isSome_iff_ne_none.1 hs]

/-! ### Spare wavelengths (R328, R363) -/

theorem fibre_setFibre_same (x : Fabric) (n : Nat) (f : Fibre) : (x.setFibre n f).fibre n = f := by
  unfold Fabric.fibre Fabric.setFibre
  rw [fget_fset_same]
  by_cases h : f = if 128 ≤ n then Fibre.spare else Fibre.reset
  · rw [if_pos h]
    exact h.symm
  · rw [if_neg h]
    rfl

theorem spareWave_spec {q : Fibre} {w k : Nat} (h : q.spareWave w = some k) : k < 18 ∧ k ≠ w := by
  have hk := List.find?_some h
  simp only [Bool.and_eq_true, bne_iff_ne] at hk
  exact ⟨List.mem_range.1 (List.mem_of_find?_eq_some h), hk.1.1⟩

theorem dropWave_spec (q : Fibre) {w : Nat} (hw : w < 18) : (q.dropWave w).wlmask.getLsbD w = false ∧ (q.dropWave w).wlbad.getLsbD w = true ∧
    ∀ k, q.spareWave w = some k → (q.dropWave w).wlmask.getLsbD k = true := by
  unfold Fibre.dropWave
  dsimp only
  split
  next k hk =>
    obtain ⟨h18, hne⟩ := spareWave_spec hk
    simp only [BitVec.getLsbD_or, BitVec.getLsbD_and, BitVec.getLsbD_not, getLsbD_one_shiftLeft]
    exact ⟨by simp [hw, hne], by simp [hw], fun j hj => by cases hk.symm.trans hj; simp [h18]⟩
  next hk =>
    simp only [BitVec.getLsbD_or, BitVec.getLsbD_and, BitVec.getLsbD_not, getLsbD_one_shiftLeft]
    exact ⟨by simp [hw], by simp [hw], fun j hj => nomatch hk.symm.trans hj⟩

theorem waveFails_of_locking {f w : Nat} (hf : f < 136) (hl : s.fabric.lwstate = 1) (hm : (s.fabric.fibre f).wlmask.getLsbD w = true) :
    s.waveFails f w = if ((s.fabric.fibre f).spareWave w).isSome
      then (s.setFibre f ((s.fabric.fibre f).dropWave w)).spareEvent 4 0 (18 * f + w)
      else s.setFibre f ((s.fabric.fibre f).dropWave w) := if_neg (by simp [hf, hl, hm])

theorem waveFails_fibre {f w : Nat} (hf : f < 136) (hl : s.fabric.lwstate = 1) (hm : (s.fabric.fibre f).wlmask.getLsbD w = true) :
    (s.waveFails f w).fabric.fibre f = (s.fabric.fibre f).dropWave w := by
  rw [waveFails_of_locking hf hl hm]
  split
  · rw [spareEvent_frame]
    exact fibre_setFibre_same ..
  · exact fibre_setFibre_same ..

theorem waveFails_sseq {f w : Nat} (hf : f < 136) (hl : s.fabric.lwstate = 1) (hm : (s.fabric.fibre f).wlmask.getLsbD w = true) :
    mgmtSseq (s.waveFails f w) = mgmtSseq s + (if ((s.fabric.fibre f).spareWave w).isSome then 1 else 0) := by
  rw [waveFails_of_locking hf hl hm]
  split
  · exact spareEvent_sseq ..
  · exact (BitVec.add_zero _).symm

/-! ### Spares of the pools (R363) -/

/-- The pool, and its size, that a spare of a part comes from: rows of a vault, rows of a stack, circuits of a die. -/
def SparePool (s : State) (kind unit idx pool size : Nat) : Prop :=
  kind = 2 ∧ unit < 8 ∧ idx / 65536 < 34 ∧ s.clusterHeld (34 * unit + idx / 65536) = false ∧ pool = 34 * unit + idx / 65536 ∧ size = 64 ∨
  kind = 3 ∧ unit < 16 ∧ pool = 2048 + unit ∧ size = 256 ∨
  kind = 6 ∧ unit < 8 ∧ idx / 65536 < 8 ∧ unit ≠ idx / 65536 ∧ pool = 3072 + unit ∧ size = 4

/-- What follows a spare: the circuits of a pair of dies are rebuilt (R323). -/
def rebuilt (kind unit idx : Nat) (t : State) : State :=
  if kind = 6 then
    t.setFabric { t.fabric with cbusy := fset false t.fabric.cbusy (8 * min unit (idx / 65536) + max unit (idx / 65536)) true }
  else t

theorem rebuilt_frame (kind unit idx : Nat) (t : State) : rebuilt kind unit idx t = { t with fabric := (rebuilt kind unit idx t).fabric } := by
  unfold rebuilt
  split <;> rfl

theorem rebuilt_mgmt (kind unit idx : Nat) (t : State) : (rebuilt kind unit idx t).mgmt = t.mgmt := by rw [rebuilt_frame]

theorem rebuilt_cbusy (unit idx : Nat) (t : State) :
    fget false (rebuilt 6 unit idx t).fabric.cbusy (8 * min unit (idx / 65536) + max unit (idx / 65536)) = true := by
  unfold rebuilt
  rw [if_pos rfl, setFabric_fabric]
  dsimp only
  exact fget_fset_same ..

variable {kind pool size : Nat}

theorem spareBringIn_pool (h : SparePool s kind unit idx pool size) :
    exec (.spareBringIn kind unit idx) s = .next (((s.fromPool pool size kind unit idx).map (rebuilt kind unit idx)).getD s) := by
  rcases h with ⟨rfl, hu, hc, hh, rfl, rfl⟩ | ⟨rfl, hu, rfl, rfl⟩ | ⟨rfl, hu, hc, hne, rfl, rfl⟩
  · refine congrArg _ ((if_neg (by simp [hu, hc, hh])).trans ?_)
    cases s.fromPool _ 64 2 unit idx <;> rfl
  · refine congrArg _ ((if_neg (Nat.not_le.2 hu)).trans ?_)
    cases s.fromPool _ 256 3 unit idx <;> rfl
  · refine congrArg _ ((if_neg (by simp [hu, hc, hne])).trans ?_)
    cases s.fromPool _ 4 6 unit idx <;> rfl

theorem fromPool_of_left (h : fget 0 s.mgmt.spares pool < size) : s.fromPool pool size kind unit idx =
    some (State.spareEvent { s with mgmt := { s.mgmt with spares := fset 0 s.mgmt.spares pool (fget 0 s.mgmt.spares pool + 1) } }
      kind unit idx) := if_pos h

theorem fromPool_of_used (h : size ≤ fget 0 s.mgmt.spares pool) : s.fromPool pool size kind unit idx = none :=
  if_neg (Nat.not_lt.2 h)

theorem spareBringIn_of_left (h : SparePool s kind unit idx pool size) (hl : fget 0 s.mgmt.spares pool < size) :
    ∃ t, exec (.spareBringIn kind unit idx) s = .next t ∧ fget 0 t.mgmt.spares pool = fget 0 s.mgmt.spares pool + 1 ∧
      mgmtSseq t = mgmtSseq s + 1 ∧ t.mem = s.mem ∧
      (kind = 6 → fget false t.fabric.cbusy (8 * min unit (idx / 65536) + max unit (idx / 65536)) = true) := by
  have e := spareBringIn_pool h
  rw [fromPool_of_left hl] at e
  refine ⟨_, e, ?spares, ?sseq, ?mem, ?cbusy⟩
  case spares =>
    rw [Option.map_some, Option.getD_some, rebuilt_mgmt, spareEvent_mgmt]
    dsimp only
    exact fget_fset_same ..
  case sseq =>
    rw [Option.map_some, Option.getD_some, rebuilt_frame]
    exact spareEvent_sseq ..
  case mem => rw [Option.map_some, Option.getD_some, rebuilt_frame, spareEvent_frame]
  case cbusy =>
    rintro rfl
    exact rebuilt_cbusy ..

theorem spareBringIn_of_used (h : SparePool s kind unit idx pool size) (hl : size ≤ fget 0 s.mgmt.spares pool) :
    exec (.spareBringIn kind unit idx) s = .next s := by
  rw [spareBringIn_pool h, fromPool_of_used hl]
  rfl

/-! ### The rails (R384) -/

theorem switch_frame (m : Mgmt) (on : Bool) (r : Rail) :
    m.switch on r = { m with rails := (m.switch on r).rails, switched := (m.switch on r).switched } := by
  unfold Mgmt.switch
  split <;> rfl

theorem foldl_switch_frame (on : Bool) (l : List Rail) : ∀ m : Mgmt, l.foldl (fun m r => m.switch on r) m =
    { m with rails := (l.foldl (fun m r => m.switch on r) m).rails, switched := (l.foldl (fun m r => m.switch on r) m).switched } := by
  induction l with
  | nil => exact fun _ => rfl
  | cons r l ih =>
    intro m
    rw [List.foldl_cons, ih (m.switch on r), switch_frame]

theorem railsDown_frame (m : Mgmt) : m.railsDown = { m with rails := m.railsDown.rails, switched := m.railsDown.switched } :=
  foldl_switch_frame ..

theorem mem_switch_off {m : Mgmt} {r x : Rail} : x ∈ (m.switch false r).rails ↔ x ≠ r ∧ x ∈ m.rails := by
  unfold Mgmt.switch
  split
  next h =>
    have hr : r ∉ m.rails := by simpa using h
    exact ⟨fun hx => ⟨fun e => hr (e ▸ hx), hx⟩, And.right⟩
  next => simp [and_comm]

theorem mem_switch_on {m : Mgmt} {r x : Rail} : x ∈ (m.switch true r).rails ↔ x = r ∨ x ∈ m.rails := by
  unfold Mgmt.switch
  split
  next h =>
    have hr : r ∈ m.rails := by simpa using h
    exact ⟨.inr, fun hx => hx.elim (fun e => e ▸ hr) id⟩
  next => simp [or_comm]

theorem mem_railOrder (r : Rail) : r ∈ railOrder := by cases r <;> decide

theorem mem_foldl_switch_off {x : Rail} (l : List Rail) : ∀ m : Mgmt,
    x ∈ (l.foldl (fun m r => m.switch false r) m).rails ↔ x ∉ l ∧ x ∈ m.rails := by
  induction l with
  | nil => simp
  | cons r l ih =>
    intro m
    rw [List.foldl_cons, ih, mem_switch_off, List.mem_cons, not_or]
    exact ⟨fun ⟨hl, hr, hm⟩ => ⟨⟨hr, hl⟩, hm⟩, fun ⟨⟨hr, hl⟩, hm⟩ => ⟨hl, hr, hm⟩⟩

theorem mem_foldl_switch_on {x : Rail} (l : List Rail) : ∀ m : Mgmt,
    x ∈ (l.foldl (fun m r => m.switch true r) m).rails ↔ x ∈ l ∨ x ∈ m.rails := by
  induction l with
  | nil => simp
  | cons r l ih =>
    intro m
    rw [List.foldl_cons, ih, mem_switch_on, List.mem_cons, or_left_comm, or_assoc]

theorem railsDown_rails (m : Mgmt) : m.railsDown.rails = [] :=
  List.eq_nil_iff_forall_not_mem.2 fun x hx => ((mem_foldl_switch_off ..).1 hx).1 (List.mem_reverse.2 (mem_railOrder x))

theorem railsUp_powered (m : Mgmt) : m.railsUp.powered = true :=
  List.all_eq_true.2 fun _ hx => List.contains_iff_mem.2 ((mem_foldl_switch_on ..).2 (.inl hx))

/-- All rails go down in the reverse order of R384. -/
theorem railsDown_switched {m : Mgmt} (h : m.rails = railOrder) : m.railsDown.switched = railOrder.reverse.map fun r => (r, false) := by
  simp [Mgmt.railsDown, Mgmt.switch, railOrder, h]

/-- From none, the rails come up in the order of R384. -/
theorem railsUp_switched {m : Mgmt} (h : m.rails = []) : m.railsUp.switched = railOrder.map fun r => (r, true) := by
  simp [Mgmt.railsUp, Mgmt.switch, railOrder, h]

/-! ### Power off and reset (R384, R388) -/

theorem cleared_die (s : State) (m : Mgmt) (d : Nat) :
    (s.cleared m).die d = { s.die d with tlb := [], buf := [], samp := Sampler.reset } :=
  (fget_ftrim ..).trans (fget_map (d := Die.reset) (g := fun x : Die => { x with tlb := [], buf := [], samp := Sampler.reset }) rfl d s.dies)

theorem shutdown_log (s : State) (cause sensor : Nat) (reading : BitVec 32) :
    ∃ e, (s.shutdown cause sensor reading).mgmt.log.getLast? = some e ∧ e.cause = cause ∧ e.sensor = sensor ∧ e.reading = reading := by
  refine ⟨⟨cause, sensor, reading, s.mgmt.seconds + Config.pick s.draws⟩, ?_, rfl, rfl, rfl⟩
  show (List.drop _ (s.mgmt.log ++ [_])).getLast? = _
  rw [List.getLast?_drop, if_neg (by rw [List.length_append, List.length_singleton]; omega), List.getLast?_concat]

theorem powerOff_mgmt (s : State) (cause sensor : Nat) (reading : BitVec 32) : (s.powerOff cause sensor reading).mgmt =
    { (s.shutdown cause sensor reading).mgmt.railsDown with
      inReset := true, hot := hotOf (s.shutdown cause sensor reading).mgmt.temps } := rfl

/-- The step `i` logs a shutdown with its cause, stops everything and takes the rails down. -/
def PowersOff (s : State) (i : Instr) (cause sensor : Nat) (reading : BitVec 32) : Prop :=
  ∃ t, exec i s = .next t ∧ t.mgmt.rails = [] ∧ t.mgmt.inReset = true ∧
    (s.mgmt.rails = [.vroute, .vsram, .vmem, .vcore, .vopt] →
      t.mgmt.switched = [(.vopt, false), (.vcore, false), (.vmem, false), (.vsram, false), (.vroute, false)]) ∧
    t.ctxs = [] ∧ t.cores = [] ∧ t.mem = Memory.reset ∧ t.host.down = true ∧ t.host.mem = s.host.mem ∧
    ∃ e, t.mgmt.log.getLast? = some e ∧ e.cause = cause ∧ e.sensor = sensor ∧ e.reading = reading

/-- What the controller has monitored before it removes the rails plays no part. -/
theorem powersOff_of_powerOff {i : Instr} {cause : Nat} (m : Mgmt) (hm : m.rails = s.mgmt.rails)
    (h : exec i s = .next (State.powerOff { s with mgmt := m } cause sensor v)) : PowersOff s i cause sensor v := by
  obtain ⟨e, he, hcause⟩ := shutdown_log { s with mgmt := m } cause sensor v
  refine ⟨_, h, ?_, rfl, fun hr => ?_, rfl, rfl, rfl, rfl, rfl, e, ?_, hcause⟩
  · rw [powerOff_mgmt]
    exact railsDown_rails _
  · rw [powerOff_mgmt]
    exact railsDown_switched (hm.trans hr)
  · rw [powerOff_mgmt, railsDown_frame]
    exact he

theorem imageOk_iff (image : List Byte) : imageOk image = true ↔ sha256Bytes (sized 64 (Config.imageKey image)) = Config.firmwareKeyHash ∧
    slhVerify (sized 64 (Config.imageKey image)) (sha256Bytes image) (sized 29792 (Config.imageSig image)) = true ∧
    Config.rollback.toNat ≤ (Config.imageSvn image).toNat := by
  simp [imageOk, and_assoc]

/-- The image that runs after a reset. -/
def nextImage (m : Mgmt) : Option (List Byte) := m.installed.orElse fun _ => m.running

/-- A reset clears the package, whether or not the update is logged before it. -/
theorem resetBoot_of_powered (h : s.mgmt.powered = true) : ∃ s1 : State, exec .resetBoot s = .next (s1.cleared { s1.mgmt with
    running := nextImage s.mgmt, installed := none, inReset := !imageOk ((nextImage s.mgmt).getD Config.shippedImage) }) ∧
      s1.dies = s.dies ∧ s1.host = s.host := by
  refine ⟨if s.mgmt.installed.isSome ∧ !s.mgmt.inReset then s.shutdown 0x06 0 0 else s, (if_neg (by simp [h])).trans ?_, ?_⟩
  · split <;> rfl
  · split <;> exact ⟨rfl, rfl⟩

/-! ### Temperatures and supplies (R384, R386) -/

theorem hotOf_iff (temps : FMap (BitVec 32)) : hotOf temps = true ↔ ∃ j, j < 33 ∧ 16 * 95 < (fget 0 temps j).toInt := by
  simp only [hotOf, List.any_eq_true, List.mem_range, decide_eq_true_eq]
  rfl

/-- The management after a reading of a junction. -/
def measured (m : Mgmt) (sensor : Nat) (v : BitVec 32) : Mgmt :=
  { m with temps := fset 0 m.temps sensor v, hot := hotOf (fset 0 m.temps sensor v) }

theorem junctionTemperature_of_unknown (h : 33 ≤ sensor) : exec (.junctionTemperature sensor v) s = .next s := congrArg _ (if_pos h)

/-- The hottest junction crosses 95 °C with the reading. -/
def crosses (s : State) (sensor : Nat) (v : BitVec 32) : Prop :=
  hotOf (fset 0 s.mgmt.temps sensor v) = true ∧ s.mgmt.hot = false ∧ s.mgmt.powered = true

theorem crosses_iff : (hotOf (fset 0 s.mgmt.temps sensor v) && !s.mgmt.hot && s.mgmt.powered) = true ↔ crosses s sensor v := by
  simp only [crosses, Bool.and_eq_true, Bool.not_eq_true', and_assoc]

theorem junctionTemperature_of_crosses (h : sensor < 33) (hc : crosses s sensor v) : exec (.junctionTemperature sensor v) s =
    .next (State.post { s with mgmt := measured s.mgmt sensor v } srcMgmt none 0x10 (payload [(8, 1, sensor), (12, 4, v.toNat)])) :=
  congrArg _ ((if_neg (Nat.not_le.2 h)).trans (if_pos (crosses_iff.2 hc)))

theorem junctionTemperature_of_not_crosses (h : sensor < 33) (hc : ¬ crosses s sensor v) :
    exec (.junctionTemperature sensor v) s = .next { s with mgmt := measured s.mgmt sensor v } :=
  congrArg _ ((if_neg (Nat.not_le.2 h)).trans (if_neg (mt crosses_iff.1 hc)))

/-- A reading is taken in, with a record where the hottest junction crosses 95 °C. -/
theorem junctionTemperature_of_known (h : sensor < 33) : ∃ t, exec (.junctionTemperature sensor v) s = .next t ∧
    t.mgmt = measured s.mgmt sensor v ∧ (crosses s sensor v → mgmtSseq t = mgmtSseq s + 1) ∧
    (¬ crosses s sensor v → mgmtSseq t = mgmtSseq s) := by
  by_cases hc : crosses s sensor v
  · exact ⟨_, junctionTemperature_of_crosses h hc, by rw [post_mgmt_frame], fun _ => post_sseq .., fun hn => absurd hc hn⟩
  · exact ⟨_, junctionTemperature_of_not_crosses h hc, rfl, fun h => absurd h hc, fun _ => rfl⟩

section
variable (hr : s.mgmt.rails ≠ [])
include hr

theorem thermalShutdown_flow (hf : Config.form = 1) (hv : v.toNat < 2000) : PowersOff s (.thermalShutdown true sensor v) 0x02 sensor v :=
  powersOff_of_powerOff { s.mgmt with now := { s.mgmt.now with flow := v } } rfl
    (congrArg _ ((if_neg hr).trans ((if_pos rfl).trans (if_pos ⟨hf, hv⟩))))

theorem thermalShutdown_flow_within (h : Config.form ≠ 1 ∨ 2000 ≤ v.toNat) : exec (.thermalShutdown true sensor v) s = .next s :=
  congrArg _ ((if_neg hr).trans ((if_pos rfl).trans (if_neg fun ⟨hf, hv⟩ => h.elim (· hf) (Nat.not_le.2 hv))))

theorem thermalShutdown_junction (hs : sensor < 33) (hv : 16 * 110 < v.toInt) : PowersOff s (.thermalShutdown false sensor v) 0x01 sensor v :=
  powersOff_of_powerOff { s.mgmt with temps := fset 0 s.mgmt.temps sensor v } rfl
    (congrArg _ ((if_neg hr).trans ((if_neg Bool.false_ne_true).trans (if_pos ⟨hs, hv⟩))))

theorem thermalShutdown_junction_within (h : v.toInt ≤ 16 * 110) : exec (.thermalShutdown false sensor v) s = .next s :=
  congrArg _ ((if_neg hr).trans ((if_neg Bool.false_ne_true).trans (if_neg fun ⟨_, hv⟩ => Int.not_lt.2 h hv)))

theorem supply_input (h : v.toNat < 48000 ∨ 54000 < v.toNat) : PowersOff s (.supplyOutOfTolerance true sensor v) 0x04 sensor v :=
  powersOff_of_powerOff { s.mgmt with now := { s.mgmt.now with input := v } } rfl
    (congrArg _ ((if_neg hr).trans ((if_pos rfl).trans (if_pos h))))

theorem supply_input_within (hl : 48000 ≤ v.toNat) (hu : v.toNat ≤ 54000) : exec (.supplyOutOfTolerance true sensor v) s = .next s :=
  congrArg _ ((if_neg hr).trans ((if_pos rfl).trans (if_neg (not_or.2 ⟨Nat.not_lt.2 hl, Nat.not_lt.2 hu⟩))))

theorem supplyOutOfTolerance_of_rail {r : Rail} (h : ([.vcore, .vsram, .vmem, .vroute, .vopt] : List Rail)[sensor]? = some r) :
    exec (.supplyOutOfTolerance false sensor v) s = .next (if r.out v.toNat then
      State.powerOff { s with mgmt := { s.mgmt with now := { s.mgmt.now with rails := s.mgmt.now.rails.set sensor v } } } 0x03 sensor v
      else s) := by
  refine congrArg _ ((if_neg hr).trans ((if_neg Bool.false_ne_true).trans ?_))
  rw [h]

/-- A rail is held to its level and its tolerance, in per cent. -/
theorem supply_rail {r : Rail} (h : ([.vcore, .vsram, .vmem, .vroute, .vopt] : List Rail)[sensor]? = some r) {level tol : Nat}
    (hl : r.level = (level, tol)) :
    (100 * v.toNat < (100 - tol) * level ∨ (100 + tol) * level < 100 * v.toNat →
      PowersOff s (.supplyOutOfTolerance false sensor v) 0x03 sensor v) ∧
    (¬ (100 * v.toNat < (100 - tol) * level ∨ (100 + tol) * level < 100 * v.toNat) →
      exec (.supplyOutOfTolerance false sensor v) s = .next s) := by
  have hout : r.out v.toNat = true ↔ 100 * v.toNat < (100 - tol) * level ∨ (100 + tol) * level < 100 * v.toNat := by
    simp [Rail.out, hl]
  have e := supplyOutOfTolerance_of_rail hr (v := v) h
  exact ⟨fun ho => powersOff_of_powerOff { s.mgmt with now := { s.mgmt.now with rails := s.mgmt.now.rails.set sensor v } } rfl
      (e.trans (congrArg _ (if_pos (hout.2 ho)))),
    fun ho => e.trans (congrArg _ (if_neg (mt hout.1 ho)))⟩

theorem managementPowerRequest_off : PowersOff s (.managementPowerRequest false) 0x05 0 0 :=
  powersOff_of_powerOff s.mgmt rfl
    (congrArg _ ((if_neg Bool.false_ne_true).trans (if_neg hr)))

end

/-- The rails in the order of their table, with their levels. -/
theorem rail_of_row : ∀ e ∈ [(0, 750, 3), (1, 800, 3), (2, 1050, 3), (3, 850, 3), (4, 3300, 5)],
    ∃ r, ([.vcore, .vsram, .vmem, .vroute, .vopt] : List Rail)[e.1]? = some r ∧ r.level = (e.2.1, e.2.2) := by
  simp [Rail.level]

/-! ### Attestation (R389) -/

theorem leBytes_length : ∀ n x, (leBytes n x).length = n
  | 0, _ => rfl
  | n + 1, x => congrArg (· + 1) (leBytes_length n (x / 256))

theorem identityKey_length : identityKey.length = 64 := slhPublic_length _

/-- A part of what is made of parts of known lengths. -/
theorem part_of_flatten : ∀ {parts : List (List Byte)} {lens : List Nat}, parts.map List.length = lens → ∀ {i : Nat}, i < lens.length →
    (parts.flatten.drop (lens.take i).sum).take (lens.getD i 0) = parts.getD i []
  | [], _, rfl, _, h => absurd h (Nat.not_lt_zero _)
  | p :: _, _, rfl, 0, _ => List.take_left' (rfl : p.length = p.length)
  | p :: ps, _, rfl, i + 1, h => by
    have ih := part_of_flatten (parts := ps) rfl (Nat.lt_of_succ_lt_succ h)
    rw [List.map_cons, List.take_succ_cons, List.sum_cons, List.flatten_cons, List.drop_length_add_append]
    exact ih

/-- The parts of a report before its signature. -/
def reportParts (s : State) : List (List Byte) :=
  [[0x41, 0x54, 0x45, 0x54, 1, 0, 0, 0], leBytes 8 (Config.imageSvn s.mgmt.image).toNat, sha256Bytes s.mgmt.image,
    leBytes 32 s.attest.nonce.toNat, sha256Bytes s.harvestBytes, identityKey, List.replicate 32 0]

theorem reportParts_lengths (s : State) : (reportParts s).map List.length = [8, 8, 32, 32, 32, 64, 32] := by
  simp only [reportParts, List.map_cons, List.map_nil, leBytes_length, sha256Bytes_length, identityKey_length, List.length_replicate]
  rfl

theorem reportBytes_eq (s : State) : s.reportBytes =
    (reportParts s).flatten ++ slhSign Config.identitySeed (reportParts s).flatten (Config.slhRandom s.draws) := by
  have hhead : leBytes 4 0x54455441 ++ leBytes 4 1 = [0x41, 0x54, 0x45, 0x54, 1, 0, 0, 0] := by decide
  have hbody : (reportParts s).flatten = leBytes 4 0x54455441 ++ leBytes 4 1 ++ leBytes 8 (Config.imageSvn s.mgmt.image).toNat ++
      sha256Bytes s.mgmt.image ++ leBytes 32 s.attest.nonce.toNat ++ sha256Bytes s.harvestBytes ++ identityKey ++ List.replicate 32 0 := by
    rw [hhead]
    simp only [reportParts, List.flatten_cons, List.flatten_nil, List.append_nil, List.append_assoc]
  rw [hbody]
  rfl

/-- The parts of an endorsement before its signature. -/
def endorsementParts : List (List Byte) :=
  [[0x45, 0x45, 0x4E, 0x44, 1, 0, 0, 0], leBytes 8 Config.serial.toNat, identityKey, sha256Bytes (slhPublic Config.rootSeed)]

theorem endorsementParts_lengths : endorsementParts.map List.length = [8, 8, 64, 32] := by
  simp only [endorsementParts, List.map_cons, List.map_nil, leBytes_length, sha256Bytes_length, identityKey_length]
  rfl

theorem endorsementBytes_eq : endorsementBytes =
    endorsementParts.flatten ++ slhSign Config.rootSeed endorsementParts.flatten Config.endorseRandom := by
  have hhead : leBytes 4 0x444E4545 ++ leBytes 4 1 = [0x45, 0x45, 0x4E, 0x44, 1, 0, 0, 0] := by decide
  have hbody : endorsementParts.flatten = leBytes 4 0x444E4545 ++ leBytes 4 1 ++ leBytes 8 Config.serial.toNat ++ identityKey ++
      sha256Bytes (slhPublic Config.rootSeed) := by
    rw [hhead]
    simp only [endorsementParts, List.flatten_cons, List.flatten_nil, List.append_nil, List.append_assoc]
  rw [hbody]
  rfl

theorem getD_append_left {α : Type} {l m : List α} {i : Nat} (h : i < l.length) (x : α) : (l ++ m).getD i x = l.getD i x := by
  rw [List.getD_eq_getElem?_getD, List.getElem?_append_left h, List.getD_eq_getElem?_getD]

/-- Parts that are signed as one: each part within them, and the signature over them. -/
theorem signed_spec {parts : List (List Byte)} {lens : List Nat} {seed rnd out : List Byte}
    (hout : out = parts.flatten ++ slhSign seed parts.flatten rnd) (hl : parts.map List.length = lens) :
    out.length = lens.sum + 29792 ∧ out.drop lens.sum = slhSign seed (out.take lens.sum) rnd ∧
    ∀ i, i < lens.length → (out.drop (lens.take i).sum).take (lens.getD i 0) = parts.getD i [] := by
  have hlen : parts.flatten.length = lens.sum := by rw [List.length_flatten, hl]
  refine ⟨by rw [hout, List.length_append, hlen, slhSign_length], ?_, fun i hi => ?_⟩
  · rw [hout, List.drop_left' hlen, List.take_left' hlen]
  · have hi' : i < parts.length := by simpa [← hl] using hi
    have h := part_of_flatten (parts := parts ++ [slhSign seed parts.flatten rnd]) (lens := lens ++ [29792]) (i := i)
      (by rw [List.map_append, hl, List.map_singleton, slhSign_length])
      (Nat.lt_of_lt_of_le hi (by rw [List.length_append]; exact Nat.le_add_right ..))
    rw [List.take_append_of_le_length (Nat.le_of_lt hi), getD_append_left hi, getD_append_left hi', List.flatten_concat, ← hout] at h
    exact h

theorem attestStart_of_idle (hs : s.attest.stat ≠ 1) (hr : s.mgmt.inReset = false) (out : List Byte) :
    s.attestStart out = { s with draws := s.draws + 1, attest := { s.attest with stat := 1, out } } := if_neg (not_or.2 ⟨hs, by simp [hr]⟩)

theorem attestStart_of_busy (h : s.attest.stat = 1 ∨ s.mgmt.inReset = true) (out : List Byte) : s.attestStart out = s := if_pos h

/-! ### The buffer of the attestation (R49) -/

theorem fsetAll_take_drop {α : Type} [DecidableEq α] (d : α) : ∀ (n : Nat) (vs : List α) (m : FMap α) (k : Nat),
    fsetAll d (fsetAll d m k (vs.take n)) (k + n) (vs.drop n) = fsetAll d m k vs
  | 0, _, _, _ => rfl
  | _ + 1, [], _, _ => rfl
  | n + 1, x :: vs, m, k => by
    have h := fsetAll_take_drop d n vs (fset d m k x) (k + 1)
    rw [Nat.add_right_comm] at h
    exact h

/-- A part of a range that can be accessed can be accessed. -/
theorem ok_of_part {h : HostSide} {a b n k : Nat} (hok : h.ok a n = true) (hab : a ≤ b) (hbk : b + k ≤ a + n) : h.ok b k = true := by
  simp only [HostSide.ok, Bool.and_eq_true, Bool.not_eq_true', List.any_eq_false, decide_eq_true_eq, not_and, Nat.not_lt] at hok ⊢
  obtain ⟨⟨hdown, hmap⟩, hend⟩ := hok
  exact ⟨⟨hdown, fun r hr hb => Nat.le_trans hbk (hmap r hr (Nat.lt_of_le_of_lt hab hb))⟩, Nat.le_trans hbk hend⟩

/-- Blocks that can all be accessed are written as one run of bytes. -/
theorem writeBlocks_of_ok : ∀ {k a : Nat} {bs : List Byte} {s : State}, s.host.ok a bs.length = true → bs.length ≤ 64 * k →
    s.writeBlocks k a bs = ({ s with host := { s.host with mem := fsetAll 0 s.host.mem a bs } }, true)
  | 0, a, bs, s, _, hk => by
    rw [List.eq_nil_of_length_eq_zero (Nat.le_zero.1 hk)]
    rfl
  | k + 1, a, [], s, _, _ => rfl
  | k + 1, a, b :: bs, s, hok, hk => by
    generalize hl : b :: bs = l at hok hk
    have hne : ¬ l.isEmpty = true := by simp [← hl]
    have htake : s.host.ok a (l.take 64).length = true :=
      ok_of_part hok (Nat.le_refl _) (Nat.add_le_add_left (List.length_take_le' ..) a)
    rw [State.writeBlocks, if_neg hne, hostWrite_of_ok htake]
    dsimp only
    by_cases h64 : 64 ≤ l.length
    · have hdrop : s.host.ok (a + 64) (l.drop 64).length = true := ok_of_part hok (Nat.le_add_right ..) (by rw [List.length_drop]; omega)
      rw [writeBlocks_of_ok (s := { s with host := { s.host with mem := fsetAll 0 s.host.mem a (l.take 64) } }) hdrop
        (by rw [List.length_drop]; omega)]
      dsimp only
      rw [fsetAll_take_drop]
    · have h64 : l.length ≤ 64 := Nat.le_of_not_le h64
      rw [List.take_of_length_le h64, List.drop_eq_nil_of_le h64]
      cases k <;> rfl

theorem writeBlocks_of_down {k a : Nat} {bs : List Byte} (hd : s.host.down = true) (hb : bs ≠ []) :
    s.writeBlocks (k + 1) a bs = (s, false) := by
  have hok : s.host.ok a (bs.take 64).length = false := by simp [HostSide.ok, hd]
  rw [State.writeBlocks, if_neg (by simpa using hb), hostWrite_of_not_ok hok]

theorem attestationComplete_of_busy {t : State} {ok : Bool} (hs : s.attest.stat = 1) (hr : s.mgmt.inReset = false)
    (h : s.writeBlocks 470 (64 * (s.attest.buf.toNat / 64)) s.attest.out = (t, ok)) :
    exec .attestationComplete s = .next { t with attest := { t.attest with stat := if ok then 2 else 3, out := [] } } := by
  refine (if_neg (not_or.2 ⟨not_not_intro hs, by simp [hr]⟩)).trans ?_
  rw [h]

end Sys2Proof.Laws
end

section
namespace Sys2Proof.Laws
open Sys2Proof.Machine

/-- Settles O60: each step by the lemma of its case above. -/
theorem packageSteps : Obligations.PackageSteps := by
  unfold Obligations.PackageSteps
  intro s d pc k unit idx sensor v image
  refine ⟨fun ha hm => ⟨?report, ?endorsement⟩,
    fun h => ⟨congrArg _ (attestStart_of_busy h _), congrArg _ (attestStart_of_busy h _)⟩, fun h => if_pos (.inr h),
    fun ha hm hl => ⟨fun hok => ?written, fun hd ho => ?failed⟩,
    fun hd hpc hu => ⟨fun hb => ⟨harvestBlockChange_of_busy hb _, spareBringIn_cluster_of_busy hb⟩, fun hb => ?harvest⟩,
    fun hf hl hm => ?wave, fun kind pool size h => ⟨spareBringIn_of_left h, spareBringIn_of_used h⟩, fun hp => ?boot,
    ⟨junctionTemperature_of_unknown, fun hs => ?junction⟩,
    fun hr => ⟨thermalShutdown_flow hr, thermalShutdown_flow_within hr, thermalShutdown_junction hr, thermalShutdown_junction_within hr,
      fun e he hs => ?rail, supply_input hr, supply_input_within hr, managementPowerRequest_off hr⟩,
    ⟨_, rfl, railsUp_powered _, rfl, railsUp_switched⟩, ⟨_, rfl, rfl, rfl⟩, ⟨_, rfl, rfl, rfl, rfl, rfl⟩⟩
  case report =>
    obtain ⟨hlength, hsign, hpart⟩ := signed_spec (reportBytes_eq s) (reportParts_lengths s)
    exact ⟨_, congrArg Host.Outcome.next (attestStart_of_idle ha hm _), rfl, hlength, rfl, hpart 0 (by decide),
      hpart 3 (by decide), hpart 2 (by decide), hpart 4 (by decide), hpart 5 (by decide), hsign⟩
  case endorsement =>
    obtain ⟨hlength, hsign, hpart⟩ := signed_spec endorsementBytes_eq endorsementParts_lengths
    exact ⟨_, congrArg Host.Outcome.next (attestStart_of_idle ha hm _), rfl, hlength, hpart 0 (by decide),
      hpart 1 (by decide), hpart 2 (by decide), hsign⟩
  case written =>
    have hw := writeBlocks_of_ok (k := 470) hok (Nat.le_trans hl (by decide))
    exact ⟨_, attestationComplete_of_busy ha hm hw, rfl, fgetAll_fsetAll ..⟩
  case failed => exact ⟨_, attestationComplete_of_busy ha hm (writeBlocks_of_down hd ho), rfl, rfl⟩
  case harvest =>
    have hretired : ((s.retireCluster d pc).die d).clret.getLsbD pc = true ∧ ((s.retireCluster d pc).die d).cluse.getLsbD pc = false ∧
        ((s.retireCluster d pc).die d).corelost = (s.die d).corelost ∧
        mgmtSseq (s.retireCluster d pc) = mgmtSseq s + (if (s.die d).spare.isSome then 2 else 1) := by
      obtain ⟨hret, huse, hlost⟩ := retire_spec hpc hu
      rw [retireCluster_die]
      exact ⟨hret, huse, hlost, retireCluster_sseq ..⟩
    refine ⟨⟨_, harvestBlockChange_cluster hd hu hb, hretired⟩, fun hs => ⟨_, spareBringIn_cluster hd hu hb hs, hretired⟩,
      spareBringIn_cluster_of_none, fun hk => ⟨_, harvestBlockChange_core hd hu hb hk, ?_⟩⟩
    rw [harvestEvent_die, die_setDie_same]
    exact ⟨rfl, rfl, harvestEvent_sseq ..⟩
  case wave =>
    obtain ⟨hmask, hbad, hspare⟩ := dropWave_spec (s.fabric.fibre (idx / 18)) (Nat.mod_lt idx (by decide))
    rw [← waveFails_fibre hf hl hm] at hmask hbad hspare
    exact ⟨_, rfl, hmask, hbad, hspare, waveFails_sseq hf hl hm⟩
  case boot =>
    obtain ⟨s1, e, hdies, hhost⟩ := resetBoot_of_powered hp
    have hdie : s1.die d = s.die d := congrArg (fun m => fget Die.reset m d) hdies
    refine ⟨_, e, rfl, ?_, rfl, rfl, rfl, rfl, rfl, ?_, ?_, hhost⟩
    · exact (Iff.of_eq (Bool.not_eq_false' _)).trans (imageOk_iff _)
    · rw [cleared_die, hdie]
    · rw [cleared_die, hdie]
  case junction =>
    obtain ⟨t, e, hmgmt, hcross, hnot⟩ := junctionTemperature_of_known (s := s) (v := v) hs
    refine ⟨t, e, by rw [hmgmt]; rfl, by rw [hmgmt]; exact hotOf_iff _, fun hot hm hp => hcross ⟨(hotOf_iff _).2 hot, hm, hp⟩,
      fun hn => hnot fun ⟨hot, hm, hp⟩ => ?_⟩
    rcases hn with hn | hn | hn
    · exact hn ((hotOf_iff _).1 hot)
    · exact Bool.false_ne_true (hm.symm.trans hn)
    · exact Bool.false_ne_true (hn.symm.trans hp)
  case rail =>
    obtain ⟨r, hrow, hlevel⟩ := rail_of_row e he
    subst hs
    exact supply_rail hr hrow hlevel

end Sys2Proof.Laws
end

section
/-!
SUPPORT. Decoding reads back an encoding, and encoding what was decoded, byte for byte (R105, R108, R109): little-endian numbers, the
fields of a word, and the length that `LEN` gives.
-/
namespace Sys2Proof.Laws

/-! ### Little-endian numbers (R4, R5) -/

theorem leNat_leBytes : ∀ n v, leNat (leBytes n v) = v % 256 ^ n
  | 0, v => (Nat.mod_one v).symm
  | n + 1, v => by rw [leBytes, leNat, leNat_leBytes n, BitVec.toNat_ofNat, Nat.pow_succ' (m := 256), Nat.mod_mul]

theorem leBytes_leNat : ∀ {n : Nat} {bs : List Byte}, bs.length = n → leBytes n (leNat bs) = bs
  | _, [], rfl => rfl
  | _, b :: bs, rfl => by
    have hb : b.toNat < 256 := b.isLt
    have hlow : BitVec.ofNat 8 (b.toNat + 256 * leNat bs) = b := BitVec.eq_of_toNat_eq (by rw [BitVec.toNat_ofNat]; omega)
    have hhigh : (b.toNat + 256 * leNat bs) / 256 = leNat bs := by omega
    rw [List.length_cons, leNat, leBytes, hlow, hhigh, leBytes_leNat rfl]

theorem leNat_lt : ∀ {n : Nat} {bs : List Byte}, bs.length = n → leNat bs < 256 ^ n
  | _, [], rfl => Nat.one_pos
  | _, b :: bs, rfl => by
    have hb : b.toNat < 256 := b.isLt
    have ih := leNat_lt (rfl : bs.length = bs.length)
    rw [leNat, List.length_cons, Nat.pow_succ']
    omega

/-! ### The fields of a word -/

theorem ofBits_bits (r : Raw) : Raw.ofBits r.bits = r := by
  obtain ⟨len, stall, op, gp, gn, d, a, b, m, imm, ext⟩ := r
  simp -index (disch := omega) only [Raw.ofBits, Raw.bits, take_lo, take_hi, take_all, Nat.reduceSub]

theorem bits_ofBits (w : BitVec 128) : (Raw.ofBits w).bits = w := by
  simp -index only [Raw.ofBits, Raw.bits, BitVec.extractLsb'_append_extractLsb'_eq_extractLsb', Nat.reduceAdd, take_all]

/-- Nothing stands above the length that `LEN` gives, which is not 0 (R105, R109). -/
def FitsLength (r : Raw) : Prop := r.len = 1 ∧ r.ext = 0 ∨ r.len = 2 ∧ r.ext.toNat < 2 ^ 32 ∨ r.len = 3

theorem bits_div_eq_ext (r : Raw) : r.bits.toNat / 2 ^ 64 = r.ext.toNat := by
  have h : r.bits.extractLsb' 64 64 = r.ext := congrArg Raw.ext (ofBits_bits r)
  have hlt : r.bits.toNat < 2 ^ 128 := r.bits.isLt
  rw [← h, BitVec.extractLsb'_toNat, Nat.shiftRight_eq_div_pow]
  omega

theorem FitsLength.bits_lt {r : Raw} (h : FitsLength r) : r.bits.toNat < 256 ^ lenBytes r.len := by
  have he := bits_div_eq_ext r
  have hlt : r.bits.toNat < 2 ^ 128 := r.bits.isLt
  rcases h with ⟨hl, h0⟩ | ⟨hl, h0⟩ | hl
  · rw [h0, show (0 : BitVec 64).toNat = 0 from rfl] at he
    rw [hl, show lenBytes 1 = 8 from rfl]
    omega
  · rw [hl, show lenBytes 2 = 12 from rfl]
    omega
  · rw [hl]
    exact hlt

theorem FitsLength.length_cases {r : Raw} (h : FitsLength r) : lenBytes r.len = 8 ∨ lenBytes r.len = 12 ∨ lenBytes r.len = 16 := by
  rcases h with ⟨hl, -⟩ | ⟨hl, -⟩ | hl <;> simp [hl, lenBytes]

section
variable {h : Hdr} {op : BitVec 8} {d a b c : BitVec 5} {m : BitVec 8} {x : BitVec 19} {imm : BitVec 24}

theorem jExt_lt (j : BitVec 32) : (jExt j).toNat < 2 ^ 32 := by
  rw [jExt, BitVec.toNat_append]
  simpa using j.isLt

@[simp] theorem rawR_fits : FitsLength (rawR h op d a b m c x) := .inl ⟨rfl, rfl⟩
@[simp] theorem rawI_fits : FitsLength (rawI h op d a imm m b) := .inl ⟨rfl, rfl⟩
@[simp] theorem rawOf_short_fits : FitsLength (rawOf h 1#2 op d a b m imm 0#64) := .inl ⟨rfl, rfl⟩
@[simp] theorem rawOf_jExt_fits (j : BitVec 32) : FitsLength (rawOf h 2#2 op d a b m imm (jExt j)) :=
  .inr (.inl ⟨rfl, jExt_lt j⟩)
@[simp] theorem rawOf_long_fits (k : BitVec 64) : FitsLength (rawOf h 3#2 op d a b m imm k) := .inr (.inr rfl)
@[simp] theorem rawOf_slots_fits (s : Bool) (kd ka kb : BitVec 10) :
    FitsLength (rawOf h (lenX s) op d a b m imm (jSlots s kd ka kb)) := by
  cases s
  · exact rawOf_short_fits
  · exact rawOf_jExt_fits _
@[simp] theorem rawCpy_fits {p : Ptr} {g gn gv gs : GReg} {pw : WordOp} {k : BitVec 64} : FitsLength (rawCpy h op p g gn gv gs pw k) :=
  rawOf_long_fits k
end

theorem nop_fits {h : Hdr} {x : NopBits} (ho : (Instr.nop h x).operandsOk = true) :
    ∃ r, encodeRaw (.nop h x) = some r ∧ FitsLength r := by
  obtain ⟨len, rest, ext⟩ := x
  refine ⟨_, rfl, ?_⟩
  cases len with
  | l64 => exact .inl ⟨rfl, eq_of_beq ho⟩
  | l96 =>
    have hz : ext.toNat / 2 ^ 32 % 2 ^ 32 = 0 := by
      have := congrArg BitVec.toNat (eq_of_beq ho : ext.extractLsb' 32 32 = 0)
      simpa [BitVec.extractLsb'_toNat, Nat.shiftRight_eq_div_pow] using this
    have hlt := ext.isLt
    exact .inr (.inl ⟨rfl, show ext.toNat < 2 ^ 32 by omega⟩)
  | l128 => exact .inr (.inr rfl)

/-- Every well-formed encoded instruction has an encoding, of the length that its `LEN` gives. -/
theorem encodeRaw_fits {i : Instr} {h : Hdr} (hw : i.wf = true) (hi : i.hdr? = some h) :
    ∃ r, encodeRaw i = some r ∧ FitsLength r := by
  cases i <;> cases hi
  case nop => exact nop_fits (ops_of hw rfl)
  case vcvt rs => cases rs <;> exact ⟨_, rfl, rawR_fits⟩
  case macst rs => cases rs <;> exact ⟨_, rfl, rawR_fits⟩
  all_goals exact ⟨_, rfl, by simp⟩

/-- The round trip of every instruction, one lemma per constructor (Laws/PerInstr.lean). -/
theorem roundTrip (i : Instr) : RoundTrip.Statement i :=
  Instr.rec (motive := RoundTrip.Statement)
    RoundTrip.nop RoundTrip.add RoundTrip.addi RoundTrip.sub RoundTrip.mul RoundTrip.mulh RoundTrip.div RoundTrip.rem RoundTrip.and
    RoundTrip.or RoundTrip.xor RoundTrip.andn RoundTrip.shl RoundTrip.shr RoundTrip.sar RoundTrip.rot RoundTrip.shli RoundTrip.shri
    RoundTrip.sari RoundTrip.movi RoundTrip.moviD RoundTrip.min RoundTrip.max RoundTrip.abs RoundTrip.clz RoundTrip.popc RoundTrip.ext
    RoundTrip.ins RoundTrip.sel RoundTrip.lea RoundTrip.adds RoundTrip.hops RoundTrip.mad RoundTrip.cmp RoundTrip.cmpi RoundTrip.pand
    RoundTrip.por RoundTrip.pxor RoundTrip.pnot RoundTrip.pset RoundTrip.ptest RoundTrip.pget RoundTrip.pput RoundTrip.br
    RoundTrip.brFar RoundTrip.jmp RoundTrip.call RoundTrip.callFar RoundTrip.callr RoundTrip.ret RoundTrip.loop RoundTrip.lds
    RoundTrip.sts RoundTrip.ldv RoundTrip.stv RoundTrip.ld RoundTrip.st RoundTrip.ldd RoundTrip.std RoundTrip.smov RoundTrip.salu
    RoundTrip.sflt RoundTrip.sfma RoundTrip.bclose RoundTrip.fence RoundTrip.fenceFresh RoundTrip.probe RoundTrip.pref RoundTrip.fopen
    RoundTrip.fold RoundTrip.fclose RoundTrip.xchg RoundTrip.cas RoundTrip.xchgs RoundTrip.cass RoundTrip.xadd RoundTrip.xadds
    RoundTrip.ldtag RoundTrip.spawn RoundTrip.post RoundTrip.postGrp RoundTrip.halt RoundTrip.haltK RoundTrip.commit RoundTrip.claim
    RoundTrip.unclaim RoundTrip.arrive RoundTrip.binit RoundTrip.watch RoundTrip.unwatch RoundTrip.qpush RoundTrip.qpop RoundTrip.qcfg
    RoundTrip.qlen RoundTrip.rld RoundTrip.rst RoundTrip.rstRel RoundTrip.rcas RoundTrip.rfold RoundTrip.rxchg RoundTrip.fadd
    RoundTrip.fsub RoundTrip.fmul RoundTrip.fdiv RoundTrip.fsqrt RoundTrip.ffma RoundTrip.fmin RoundTrip.fmax RoundTrip.fminp
    RoundTrip.fmaxp RoundTrip.fabs RoundTrip.fneg RoundTrip.fcmp RoundTrip.fclass RoundTrip.fcvt RoundTrip.icvtf RoundTrip.fcvti
    RoundTrip.fmovi RoundTrip.frnd RoundTrip.fscale RoundTrip.vmodeLong RoundTrip.vmodeShort RoundTrip.vld RoundTrip.vst RoundTrip.vldv
    RoundTrip.vstv RoundTrip.vadd RoundTrip.vsub RoundTrip.vmul RoundTrip.vfma RoundTrip.vmin RoundTrip.vmax RoundTrip.vminp
    RoundTrip.vmaxp RoundTrip.vneg RoundTrip.vabs RoundTrip.vand RoundTrip.vor RoundTrip.vxor RoundTrip.vshl RoundTrip.vshr
    RoundTrip.vcmp RoundTrip.vsel RoundTrip.vred RoundTrip.vdot RoundTrip.vperm RoundTrip.vbcast RoundTrip.vcvt RoundTrip.vmovg
    RoundTrip.vins RoundTrip.vchain RoundTrip.vclamp RoundTrip.mwl RoundTrip.mswap RoundTrip.mmul RoundTrip.mpass RoundTrip.mweave
    RoundTrip.macz RoundTrip.macld RoundTrip.macst RoundTrip.macmv RoundTrip.macmvTo RoundTrip.mskew RoundTrip.macrd RoundTrip.mwlv
    RoundTrip.scouple RoundTrip.sbias RoundTrip.sclamp RoundTrip.sclampOff RoundTrip.scolour RoundTrip.sweep RoundTrip.sread
    RoundTrip.swrite RoundTrip.skey RoundTrip.cpys RoundTrip.cpyc RoundTrip.cpyg RoundTrip.cpyf RoundTrip.srd RoundTrip.swr
    RoundTrip.trap RoundTrip.brk RoundTrip.ovld RoundTrip.genset RoundTrip.gensync RoundTrip.harvest RoundTrip.tret RoundTrip.tretNext
    RoundTrip.tretKill RoundTrip.tretEnd RoundTrip.keyset RoundTrip.tlbinv RoundTrip.tlbinvAll RoundTrip.instructionBoundary
    RoundTrip.loadReply RoundTrip.divideComplete RoundTrip.fpDivideUnitComplete RoundTrip.longVectorComplete RoundTrip.chainRun
    RoundTrip.matrixCommandRun RoundTrip.weaveSend RoundTrip.weaveTimeout RoundTrip.copyCommandRun RoundTrip.samplerCommandRun
    RoundTrip.bundleLineArrival RoundTrip.lineAcknowledgement RoundTrip.settleAtHome RoundTrip.settleAcknowledgement
    RoundTrip.quietAtHome RoundTrip.quietQueryReply RoundTrip.atomicAtHome RoundTrip.foldHomeOpen RoundTrip.foldContributionArrival
    RoundTrip.foldHomeClose RoundTrip.releaseArrival RoundTrip.offerArrival RoundTrip.taskAged RoundTrip.skipLimitBlock
    RoundTrip.dispatchExchange RoundTrip.entryStoreFetch RoundTrip.arrivalApply RoundTrip.queuePushApply RoundTrip.continuationSend
    RoundTrip.continuationResume RoundTrip.remoteMessageReceive RoundTrip.keptGrantExpiry RoundTrip.contextLastTaskRetired
    RoundTrip.exceptionWindowEnd RoundTrip.exceptionThreshold RoundTrip.seal RoundTrip.digestArrival RoundTrip.digestTimeout
    RoundTrip.endNoticeArrival RoundTrip.queueArbitration RoundTrip.launchEntry RoundTrip.createContextEntry RoundTrip.endContextEntry
    RoundTrip.noOperationEntry RoundTrip.seqRetry RoundTrip.staleEntry RoundTrip.contextCreationComplete RoundTrip.endCompletion
    RoundTrip.queueDoorbell RoundTrip.queueEnable RoundTrip.queueDisable RoundTrip.eventConfigWrite RoundTrip.eventReadIndexWrite
    RoundTrip.contextFree RoundTrip.faultRecordRelease RoundTrip.xcmdInvalidateAll RoundTrip.xcmdHarvest RoundTrip.xcmdInvalidatePage
    RoundTrip.xcmdComplete RoundTrip.cwaveWrite RoundTrip.circuitReassignComplete RoundTrip.lwDrain RoundTrip.lwRelock
    RoundTrip.lwGoDark RoundTrip.drainComplete RoundTrip.lockComplete RoundTrip.stageTransmitKey RoundTrip.stageReceiveKey
    RoundTrip.fibreHeld RoundTrip.fibreFailed RoundTrip.flitAuthFailure RoundTrip.holdLimitExpiry RoundTrip.scaleoutStageTransmitKey
    RoundTrip.scaleoutStageReceiveKey RoundTrip.scaleoutFrameReceive RoundTrip.scaleoutRetransmit RoundTrip.scaleoutUndeliverable
    RoundTrip.scaleoutPortHeld RoundTrip.scaleoutPortStateChange RoundTrip.produceReport RoundTrip.writeEndorsement
    RoundTrip.attestationComplete RoundTrip.debugHaltCommand RoundTrip.debugResume RoundTrip.debugStep RoundTrip.debugDrain
    RoundTrip.debugDrainComplete RoundTrip.ddataWrite RoundTrip.registerWrite RoundTrip.apertureAccessNotPerformed
    RoundTrip.hostMemoryWrite RoundTrip.hostMemoryRead RoundTrip.linkTraining RoundTrip.eventRecordStage RoundTrip.eventRingWrite
    RoundTrip.harvestBlockChange RoundTrip.spareBringIn RoundTrip.resetBoot RoundTrip.junctionTemperature RoundTrip.thermalShutdown
    RoundTrip.managementPowerRequest RoundTrip.managementFirmwareInstall RoundTrip.managementRead RoundTrip.supplyOutOfTolerance
    RoundTrip.keyChangeFlitArrival RoundTrip.scaleoutAcknowledgement i

/-! ### Bytes -/

/-- The fields of the word that the first `n` bytes of `bs` are. -/
def rawAt (bs : List Byte) (n : Nat) : Raw := Raw.ofBits (BitVec.ofNat 128 (leNat (bs.take n)))

theorem rawAt_len (b : Byte) (bs : List Byte) {n : Nat} (hn : n ≠ 0) : (rawAt (b :: bs) n).len = b.extractLsb' 0 2 := by
  obtain ⟨n, rfl⟩ := Nat.exists_eq_succ_of_ne_zero hn
  refine BitVec.eq_of_toNat_eq ?_
  have h : leNat ((b :: bs).take (n + 1)) = b.toNat + 256 * leNat (bs.take n) := rfl
  simp only [rawAt, Raw.ofBits, BitVec.extractLsb'_toNat, BitVec.toNat_ofNat, h]
  omega

/-- What decoding means: enough bytes stand there for the length that the first of them gives, and the word's fields are those of the
instruction. -/
theorem decode_eq_ok_iff {bs : List Byte} {i : Instr} {n : Nat} : decode bs = .ok (i, n) ↔
    n ≠ 0 ∧ n ≤ bs.length ∧ lenBytes (rawAt bs n).len = n ∧ decodeRaw (rawAt bs n) = .ok i := by
  cases bs with
  | nil => exact ⟨nofun, fun ⟨hn, hl, _⟩ => absurd (Nat.le_zero.1 hl) hn⟩
  | cons b bs =>
    unfold decode
    dsimp only
    split
    next h0 =>
      refine ⟨nofun, fun ⟨hn, _, hlen, _⟩ => absurd hlen ?_⟩
      rw [rawAt_len b bs hn, h0]
      exact hn.symm
    next h0 =>
      split
      next hl =>
        refine ⟨nofun, fun ⟨hn, hle, hlen, _⟩ => absurd hle ?_⟩
        rw [rawAt_len b bs hn] at hlen
        exact hlen ▸ Nat.not_le_of_lt hl
      next hl =>
        constructor
        · intro h
          split at h
          · cases h
          next hd =>
            cases h
            exact ⟨h0, Nat.le_of_not_lt hl, congrArg lenBytes (rawAt_len b bs h0), hd⟩
        · rintro ⟨hn, -, hlen, hd⟩
          rw [rawAt_len b bs hn] at hlen
          subst hlen
          unfold rawAt at hd
          rw [hd]

theorem decodeRaw_ok {r : Raw} {i : Instr} (h : decodeRaw r = .ok i) : encodeRaw i = some r ∧ i.wf = true := by
  unfold decodeRaw at h
  split at h
  · cases h
  · split at h
    next hc =>
      cases h
      simpa using hc
    · cases h

theorem encode_of {i : Instr} {r : Raw} (h : encodeRaw i = some r) :
    encode i = some (leBytes (lenBytes r.len) r.bits.toNat) ∧ i.size = lenBytes r.len := by
  simp [encode, Instr.size, h]

/-- An encoding is read back as the fields it was made from, whatever bytes follow. -/
theorem rawAt_encoding {r : Raw} (h : FitsLength r) (rest : List Byte) :
    rawAt (leBytes (lenBytes r.len) r.bits.toNat ++ rest) (lenBytes r.len) = r := by
  rw [rawAt, List.take_left' (leBytes_length ..), leNat_leBytes, Nat.mod_eq_of_lt h.bits_lt, BitVec.ofNat_toNat, BitVec.setWidth_eq,
    ofBits_bits]

theorem lenBytes_le : ∀ len : BitVec 2, lenBytes len ≤ 16 := by decide

/-- The bytes of the fields that bytes are read as are those bytes. -/
theorem leBytes_rawAt {bs : List Byte} {n : Nat} (hl : n ≤ bs.length) (hn : n ≤ 16) :
    leBytes n (rawAt bs n).bits.toNat = bs.take n := by
  have hlen : (bs.take n).length = n := List.length_take_of_le hl
  have hlt : leNat (bs.take n) < 2 ^ 128 := calc
    leNat (bs.take n) < 256 ^ n := leNat_lt hlen
    _ ≤ 256 ^ 16 := Nat.pow_le_pow_right (by decide) hn
  rw [rawAt, bits_ofBits, BitVec.toNat_ofNat, Nat.mod_eq_of_lt hlt, leBytes_leNat hlen]

theorem decode_encode {i : Instr} {r : Raw} (hw : i.wf = true) (he : encodeRaw i = some r) (hf : FitsLength r) (rest : List Byte) :
    decode (leBytes (lenBytes r.len) r.bits.toNat ++ rest) = .ok (i, lenBytes r.len) := by
  have hr := rawAt_encoding hf rest
  refine decode_eq_ok_iff.2 ⟨?_, by simp [leBytes_length], by rw [hr], by rw [hr]; exact roundTrip i hw r he⟩
  rcases hf.length_cases with h | h | h <;> simp [h]

theorem encode_decode {bs : List Byte} {i : Instr} {n : Nat} (h : decode bs = .ok (i, n)) :
    i.wf = true ∧ n = i.size ∧ n ≤ bs.length ∧ encode i = some (bs.take n) := by
  obtain ⟨hn, hl, hlen, hd⟩ := decode_eq_ok_iff.1 h
  obtain ⟨he, hw⟩ := decodeRaw_ok hd
  obtain ⟨hb, hs⟩ := encode_of he
  rw [hlen] at hb hs
  refine ⟨hw, hs.symm, hl, hb.trans (congrArg some (leBytes_rawAt hl ?_))⟩
  exact hlen ▸ lenBytes_le _

end Sys2Proof.Laws
end

section
namespace Sys2Proof.Laws

/-- Settles O43: the fields of an encoding are read back by `roundTrip`, its bytes by `rawAt_encoding` and `leBytes_rawAt`. -/
theorem decodeEncodeAgree : Obligations.DecodeEncodeAgree := by
  unfold Obligations.DecodeEncodeAgree
  refine ⟨fun i hw hh => ?_, fun bs i n h => encode_decode h⟩
  obtain ⟨h, hi⟩ := Option.ne_none_iff_exists'.1 hh
  obtain ⟨r, he, hf⟩ := encodeRaw_fits hw hi
  obtain ⟨hb, hs⟩ := encode_of he
  rw [hs]
  exact ⟨_, hb, leBytes_length .., hf.length_cases, decode_encode hw he hf⟩

end Sys2Proof.Laws
end

section
namespace Sys2Proof.Laws
open Sys2Proof.Machine

theorem core_retire {s : State} {n : Nat} {f : Frame} {fs : List Frame} (ht : (s.core n).frames = f :: fs) (i : Instr) (h : Hdr)
    (r : Ret) : (s.retire n i h r).core n = (s.core n).retire f fs i h r := by
  rw [retire_eq i h r ht, core_setCore_same]

/-- Settles O6: every encoded instruction issues (`exec_issues`), and no check stops it before its guard (`issue_guard_fails`). -/
theorem failedGuardOnlyRetires : Obligations.FailedGuardOnlyRetires := by
  unfold Obligations.FailedGuardOnlyRetires
  intro s f fs i h hi hat hlim hschk hmode hawait hfails
  obtain ⟨priv, regs, wr, body, he, hmarked⟩ := exec_issues hi s
  have hpriv : priv = true → f.priv = true := fun hp => hmode.resolve_right (not_not_intro (hmarked.1 hp))
  have hrange : ∀ k, Reg.g k ∈ regs → k.toNat < f.lim := fun k _ => hlim ▸ k.isLt
  have hcount : f.schk = true → ∀ r ∈ guardRegs h ++ regs, ∀ x ∈ f.pend, x.reg ≠ r :=
    fun hs => absurd (hschk.symm.trans hs) Bool.false_ne_true
  rw [he, issue_guard_fails hat hi hpriv hrange hcount hawait hfails]

/-- Settles O8: a retirement changes its core alone (`retire_eq`), and of the core what `retire_core` says; own cycles write registers with
pending results only (`Touches`). -/
theorem retirementFrame : Obligations.RetirementFrame := by
  unfold Obligations.RetirementFrame
  intro s n i h r f fs ht
  dsimp only
  rw [core_retire ht]
  obtain ⟨c1, f1, touched, -, -, hcore, hexc⟩ := retire_core (s.core n) f fs i h r
  generalize hc' : (s.core n).retire f fs i h r = c' at hcore hexc ⊢
  have hlanes : c'.lanes = c1.lanes := (congrArg Core.lanes hcore :)
  have hlane : ∀ l, c'.lane l = c1.lane l := fun l => congrArg (fun m => fget Lane.reset m l) hlanes
  have hfree : ∀ {q : Reg}, (∀ x ∈ f.pend ++ records r.writes, x.reg ≠ q) → ¬ ∃ x ∈ f.pend ++ records r.writes, x.reg = q :=
    fun hq ⟨x, hx, e⟩ => hq x hx e
  refine ⟨?state, ?others, ?core, congrArg Core.espos hcore, hexc, ?lanes, ?vectors, f1, congrArg Core.frames hcore, ?pc, ?stall, ?frame,
    fun q hq => touched.gens q (hfree hq), fun q hq => touched.preds q (hfree hq), fun q hq => touched.ptrs q (hfree hq)⟩
  case state => rw [retire_eq i h r ht]; rfl
  case others => rw [retire_eq i h r ht]; exact fun k hk => core_setCore_ne _ _ _ hk
  case core => rw [hlanes, hcore, touched.core]
  case lanes => exact fun l => hlane l ▸ touched.lanes l
  case vectors =>
    intro l q hq
    have hv : c'.getV l q = c1.getV l q := congrArg (Lane.getV · q) (hlane l)
    exact hv.trans (touched.vecs l q (hq.imp_right hfree))
  case pc =>
    have e := congrArg Frame.pc touched.frame
    cases hr : r.pc <;> simpa [Frame.retired, hr] using e
  case stall => exact congrArg Frame.stall touched.frame
  case frame => rw [touched.frame]; rfl

end Sys2Proof.Laws
end

section
/-!
SUPPORT. What a core does in one step (log 2): its crossings, its window, its boundary, or the instruction that it fetches (R105, R119).
-/
namespace Sys2Proof.Laws
open Sys2Proof.Machine

/-! ### The move of a core -/

/-- No crossing has a class below the lowest. -/
theorem not_crossed_of_lt {c : Core} {j k : Nat} (hmin : ∀ x ∈ c.crossed, k ≤ x.cls) (hj : j < k) :
    (!c.crossed.any fun x => x.cls == j) = true := by
  rw [Bool.not_eq_true', List.any_eq_false]
  exact fun x hx hxj => Nat.not_le_of_lt hj (eq_of_beq hxj ▸ hmin x hx)

theorem nextCrossed_of_lowest {c : Core} {k : Nat} (hk : k < 5) (hx : ∃ x ∈ c.crossed, x.cls = k)
    (hmin : ∀ x ∈ c.crossed, k ≤ x.cls) : c.nextCrossed = some k := by
  obtain ⟨x, hx, rfl⟩ := hx
  exact List.find?_range_eq_some.2
    ⟨List.any_eq_true.2 ⟨x, hx, beq_self_eq_true _⟩, List.mem_range.2 hk, fun _ => not_crossed_of_lt hmin⟩

theorem nextCrossed_of_none {c : Core} (h : ∀ x ∈ c.crossed, 5 ≤ x.cls) : c.nextCrossed = none :=
  List.find?_range_eq_none.2 fun _ => not_crossed_of_lt h

theorem windowFull_iff (c : Core) : c.windowFull = true ↔ c.eswin ≠ 0 ∧ c.eswin.toNat ≤ c.espos.toNat := by
  simp [Core.windowFull]

variable {s s1 s2 : State} {n : Nat}

theorem coreStep_crossed {k : Nat} (h : (s.core n).nextCrossed = some k) : coreStep s n = exec (.exceptionThreshold n k) s := by
  simp only [coreStep, h]

section
variable (hnone : (s.core n).nextCrossed = none)
include hnone

theorem coreStep_windowEnd (hw : (s.core n).windowFull = true) : coreStep s n = exec (.exceptionWindowEnd n) s := by
  simp only [coreStep, hnone, hw, if_true]

theorem coreStep_boundary (hw : (s.core n).windowFull = false) (hp : (s.core n).passed = false) :
    coreStep s n = exec (.instructionBoundary n) s := by
  simp only [coreStep, hnone, hw, hp, Bool.not_false, Bool.false_eq_true, if_false, if_true]

theorem coreStep_issue (hw : (s.core n).windowFull = false) (hp : (s.core n).passed = true) (hh : (s.core n).dbg.halted = false)
    (hq : ∀ q ∈ (s.core n).reqs, q.inside = false) : coreStep s n = issueStep s n := by
  have hany : (s.core n).reqs.any (fun q => q.inside) = false := List.any_eq_false.2 fun q hm => by simp [hq q hm]
  simp only [coreStep, hnone, hw, hp, hh, hany, Bool.not_true, Bool.or_self, Bool.false_eq_true, if_false]

end

/-! ### Fetching -/

/-- The length that the first byte gives is looked up as in decoding. -/
theorem decodeBlock_of_decode {bs : List Byte} {i : Instr} {len : Nat} (h : decode bs = .ok (i, len)) : decodeBlock bs = .ok i := by
  obtain ⟨hne, hle, hlen, -⟩ := decode_eq_ok_iff.1 h
  have hfirst : lenBytes (BitVec.ofNat 2 (bs.getD 0 0).toNat) = len := by
    cases bs with
    | nil => exact absurd (Nat.le_zero.1 hle) hne
    | cons b bs =>
      rw [rawAt_len b bs hne] at hlen
      exact hlen ▸ congrArg lenBytes (BitVec.eq_of_toNat_eq (by simp [BitVec.extractLsb'_toNat]))
  simp only [decodeBlock, hfirst, hne, Nat.not_lt.2 hle, h, if_false]

variable {k key off : Nat} {page : Option Nat} {a : Word}

/-- A line that the host has not written while the context was live gives the bytes of memory. -/
theorem blockBytes_of_unwritten (h : s.mem.oldCode k key = []) :
    s.blockBytes k (.line key off page) a = (s.mem.physRead (64 * key + off) (32 - a.toNat % 32), s) := by
  simp only [State.blockBytes, h, List.isEmpty_nil, if_true]

/-- A line that the host has written gives, by a free choice, the bytes of memory or those from before one of the writes (R27). -/
theorem blockBytes_of_written (h : s.mem.oldCode k key ≠ []) : ∃ bs,
    s.blockBytes k (.line key off page) a = (bs, { s with draws := s.draws + 1 }) ∧
    (bs = s.mem.physRead (64 * key + off) (32 - a.toNat % 32) ∨
      ∃ old ∈ s.mem.oldCode k key, bs = (old.drop off).take (32 - a.toNat % 32)) := by
  refine ⟨_, if_neg (mt List.isEmpty_iff.1 h), ?_⟩
  split
  next old hold => exact .inr ⟨old, List.mem_of_getElem? hold, rfl⟩
  next => exact .inl rfl

/-- A fetch from a line of the code section whose bytes can be read. -/
theorem fetch_of_line {f : Frame} (hal : f.pc.toNat % 4 = 0) (hlo : (s.ctx f.task.ctx).codebase.toNat ≤ f.pc.toNat)
    (hhi : f.pc.toNat < (s.ctx f.task.ctx).codebase.toNat + (s.ctx f.task.ctx).codelen)
    (hr : s.resolve n f.task.ctx false f.pc = (.ok (.line key off page), s1)) (hbad : s1.mem.isBad key = false)
    (hbad' : s1.mem.isBad ((64 * key + off + (31 - f.pc.toNat % 32)) / 64) = false) {bs : List Byte}
    (hb : s1.blockBytes f.task.ctx (.line key off page) f.pc = (bs, s2)) : s.fetch n f = (decodeBlock bs, s2) := by
  have hlow : f.pc.extractLsb' 0 2 = 0 := BitVec.eq_of_toNat_eq (by simpa [BitVec.extractLsb'_toNat] using hal)
  have hin : ¬ (f.pc.toNat < (s.ctx f.task.ctx).codebase.toNat ∨
      (s.ctx f.task.ctx).codebase.toNat + (s.ctx f.task.ctx).codelen ≤ f.pc.toNat) := by omega
  have hgood : s1.mem.blockBad (.line key off page) f.pc = false := by simp only [Memory.blockBad, hbad, hbad', Bool.or_self]
  simp only [State.fetch, hlow, ne_eq, not_true_eq_false, hin, hr, hgood, hb, Bool.false_eq_true, if_false]

/-- A core that fetches an instruction executes it. -/
theorem issueStep_of_fetch {f : Frame} {fs : List Frame} {i : Instr} (hf : ((s.setCore n (spendStall (s.core n))).core n).frames = f :: fs)
    (h : (s.setCore n (spendStall (s.core n))).fetch n f = (.ok i, s2)) : issueStep s n = exec i s2 := by
  simp only [issueStep, hf, h]

/-! ### The move of the agenda -/

theorem step_device {i : Instr} {ms : List Move} (ha : s.agenda = .dev i :: ms) (hi : i.hdr? = none) :
    step s = if s.mgmt.inReset && !aliveInReset i then .next { s with agenda := ms } else exec i { s with agenda := ms } := by
  simp only [step, ha, hi]

theorem step_core {s0 : State}
    (h : s.agenda = [] ∧ n = s.cur ∧ s0 = s ∨ ∃ ms, s.agenda = .core n :: ms ∧ s0 = { s with agenda := ms, cur := n }) :
    step s = coreStep s0 n := by
  rcases h with ⟨ha, rfl, rfl⟩ | ⟨ms, ha, rfl⟩ <;> simp only [step, ha]

end Sys2Proof.Laws
end

section
namespace Sys2Proof.Laws
open Sys2Proof.Machine

/-- Settles O45: the move of the agenda (`step_device`, `step_core`), then the order in which a core acts (`coreStep_crossed` to
`coreStep_issue`), then its fetch (`fetch_of_line`). -/
theorem stepRunsDecodedInstruction : Obligations.StepRunsDecodedInstruction := by
  unfold Obligations.StepRunsDecodedInstruction
  refine ⟨fun s i ms ha hi => ⟨fun hgo => ?runs, fun hreset hdead => ?skipped⟩, fun s s0 n hmove => ?_⟩
  case runs => rw [step_device ha hi, if_neg (by rcases hgo with h | h <;> simp [h])]
  case skipped => rw [step_device ha hi, if_pos (by simp [hreset, hdead])]
  dsimp only
  rw [step_core hmove]
  refine ⟨fun k hk hx hmin => coreStep_crossed (nextCrossed_of_lowest hk hx hmin), fun hx => ?_⟩
  have hnone := nextCrossed_of_none hx
  refine ⟨fun hw => coreStep_windowEnd hnone ((windowFull_iff _).2 hw), fun hw => ?_⟩
  have hnot : (s0.core n).windowFull = false := Bool.eq_false_iff.2 fun h => hw ((windowFull_iff _).1 h)
  refine ⟨coreStep_boundary hnone hnot, fun hp hh hq f fs key off page s2 i len hf hal hlo hhi hr hbad hbad' => ?_⟩
  rw [coreStep_issue hnone hnot hp hh hq]
  have hrun : ∀ {bs s3}, s2.blockBytes f.task.ctx (.line key off page) f.pc = (bs, s3) → decode bs = .ok (i, len) →
      issueStep s0 n = exec i s3 := fun hb hd =>
    issueStep_of_fetch hf ((fetch_of_line hal hlo hhi hr hbad hbad' hb).trans (congrArg (·, _) (decodeBlock_of_decode hd)))
  refine ⟨fun hold => hrun (blockBytes_of_unwritten hold), fun hold => ?_⟩
  obtain ⟨bs, hb, hbytes⟩ := blockBytes_of_written hold
  exact ⟨bs, hrun hb, hbytes⟩

end Sys2Proof.Laws
end

section
namespace Sys2Proof.Laws
open Sys2Proof.Machine

/-! ## The checks before issue (R119, R121, R131, R133, R134) -/

/-- The instructions of three general registers: the destination and two sources, in the order of their fields. -/
def threeRegInstrs (h : Hdr) (d a b : GReg) : List Instr :=
  [.add h d a b, .sub h d a b, .mul h d a b, .and h d a b, .or h d a b, .xor h d a b, .andn h d a b, .shl h d a b, .shr h d a b,
    .sar h d a b, .rot h d a b, .div h false d a b, .rem h false d a b, .hops h d a b]

/-- Each of them issues without a mark, and names its three registers in order. -/
theorem threeReg_issues {h : Hdr} {d a b : GReg} {i : Instr} (hi : i ∈ threeRegInstrs h d a b) (s : State) :
    i.hdr? = some h ∧ ∃ body, exec i s = .next (issue i [.g d, .g a, .g b] [] false s body) := by
  simp only [threeRegInstrs, List.mem_cons, List.not_mem_nil, or_false] at hi
  rcases hi with rfl | rfl | rfl | rfl | rfl | rfl | rfl | rfl | rfl | rfl | rfl | rfl | rfl | rfl
  all_goals exact ⟨rfl, _, rfl⟩

theorem hdr_of_pMarked {i : Instr} {h : Hdr} (hm : pMarked i h) : i.hdr? = some h := by
  unfold pMarked at hm
  rcases hm with ⟨_, rfl⟩ | ⟨_, _, rfl⟩ | ⟨_, _, _, rfl⟩ | rfl | ⟨_, rfl⟩ | rfl | rfl | rfl | rfl | rfl
  all_goals rfl

variable {f : Frame} {rs : List Reg}

@[simp] theorem outOfRange_cons_g (k : GReg) :
    f.outOfRange (.g k :: rs) = if f.lim ≤ k.toNat then some k.toNat else f.outOfRange rs := by
  unfold Frame.outOfRange
  by_cases hk : f.lim ≤ k.toNat <;> simp [hk, Reg.num]

/-- Of three general registers the first beyond the range is the one that is reported. -/
theorem outOfRange_three {d a b : GReg} (ho : f.lim ≤ d.toNat ∨ f.lim ≤ a.toNat ∨ f.lim ≤ b.toNat) :
    f.outOfRange [.g d, .g a, .g b] = some (if f.lim ≤ d.toNat then d else if f.lim ≤ a.toNat then a else b).toNat := by
  by_cases hd : f.lim ≤ d.toNat
  · simp [hd]
  · by_cases ha : f.lim ≤ a.toNat
    · simp [hd, ha]
    · have hb : f.lim ≤ b.toNat := (ho.resolve_left hd).resolve_left ha
      simp [hd, ha, hb]

theorem pending_cons_held {r : Reg} (hr : f.pend.any (fun x => x.reg == r) = true) : f.pending (r :: rs) = some r.num := by
  unfold Frame.pending
  simp [hr]

theorem pending_cons_free {r : Reg} (hr : f.pend.any (fun x => x.reg == r) = false) : f.pending (r :: rs) = f.pending rs := by
  unfold Frame.pending
  simp [hr]

/-- A guard without a pending write leaves the check to the registers of the fields. -/
theorem pending_guard_free {h : Hdr} (hg : h.gp = 0 ∨ f.pend.any (fun x => x.reg == .p h.gp) = false) :
    f.pending (guardRegs h ++ rs) = f.pending rs := by
  unfold guardRegs
  by_cases h0 : h.gp = 0
  · rw [if_pos h0, List.nil_append]
  · rw [if_neg h0, List.singleton_append, pending_cons_free (hg.resolve_left h0)]

/-- Settles O7: each clause is one check of `issue`, in its order: privilege (`issue_unprivileged`), range (`issue_out_of_range`), stall
counts (`issue_pending`), outstanding results (`issue_awaits`). -/
theorem checksBeforeIssue : Obligations.ChecksBeforeIssue := by
  unfold Obligations.ChecksBeforeIssue
  refine ⟨fun s f fs i h hm hat hpriv => ?privilege, fun s f fs h d a b hat ho i hi => ?range,
    fun s f fs h d a b hat hlim hschk => ⟨fun h0 hheld i hi hmode => ?guard, fun hfree => ?fields⟩,
    fun s f fs h d a b hat hlim hschk hguard hpass hawait i hi => ?awaits⟩
  case privilege =>
    have hi := hdr_of_pMarked hm
    obtain ⟨priv, regs, wr, body, he, hmarked⟩ := exec_issues hi s
    obtain rfl := hmarked.2 hm
    rw [he, issue_unprivileged hat hi hpriv]
  case range =>
    obtain ⟨hh, body, he⟩ := threeReg_issues hi s
    rw [he, issue_out_of_range (priv := false) hat hh nofun (outOfRange_three ho)]
  case guard =>
    obtain ⟨priv, regs, wr, body, he, hmarked⟩ := exec_issues hi s
    have hpriv : priv = true → f.priv = true := fun hp => hmode.resolve_right (not_not_intro (hmarked.1 hp))
    have hfirst : f.pending (guardRegs h ++ regs) = some h.gp.toNat := by
      rw [guardRegs, if_neg h0, List.singleton_append, pending_cons_held hheld, Reg.num]
    rw [he, issue_pending hat hi hpriv (fun k _ => hlim ▸ k.isLt) hschk hfirst]
  case fields =>
    have traps : ∀ {k}, f.pending [.g d, .g a, .g b] = some k →
        exec (.add h d a b) s = .next (s.trapped s.cur (.add h d a b) 0x07 (BitVec.ofNat 64 k)) := fun hk =>
      congrArg _ (issue_pending (priv := false) hat rfl nofun (fun k _ => hlim ▸ k.isLt) hschk ((pending_guard_free hfree).trans hk))
    exact ⟨fun hd => traps (pending_cons_held hd), fun hd ha => traps ((pending_cons_free hd).trans (pending_cons_held ha)),
      fun hd ha hb => traps ((pending_cons_free hd).trans ((pending_cons_free ha).trans (pending_cons_held hb)))⟩
  case awaits =>
    obtain ⟨hh, body, he⟩ := threeReg_issues hi s
    obtain ⟨r, hnamed, hr⟩ : ∃ r ∈ [Reg.g d, .g a, .g b], r ∈ f.await := by simpa using hawait
    rw [he, issue_awaits (priv := false) hat hh nofun (fun k _ => hlim ▸ k.isLt) hschk hguard hpass hnamed hr]

end Sys2Proof.Laws
end

section
namespace Sys2Proof.Laws
open Sys2Proof.Machine

/-! ## When a result is read (R132) -/

/-- The pending writes that an own cycle leaves, each one cycle nearer to its due. -/
def survivors (xs : List Pend) : List Pend :=
  xs.filterMap fun x => if x.due ≤ 1 then none else some { x with due := x.due - 1 }

theorem mem_survivors {xs : List Pend} {y : Pend} :
    y ∈ survivors xs ↔ ∃ x ∈ xs, 1 < x.due ∧ y = { x with due := x.due - 1 } := by
  simp [survivors, List.mem_filterMap, eq_comm]

theorem survivors_snoc (xs : List Pend) {x : Pend} (hx : 1 < x.due) :
    survivors (xs ++ [x]) = survivors xs ++ [{ x with due := x.due - 1 }] := by
  simp [survivors, List.filterMap_append, hx]

theorem commitPend_cons_due {x : Pend} (hx : x.due ≤ 1) (xs : List Pend) (c : Core) (f : Frame) (kept : List Pend) :
    commitPend (x :: xs) c f kept = commitPend xs (c.putReg f x.reg x.val).1 (c.putReg f x.reg x.val).2 kept := if_pos hx

theorem commitPend_cons_later {x : Pend} (hx : 1 < x.due) (xs : List Pend) (c : Core) (f : Frame) (kept : List Pend) :
    commitPend (x :: xs) c f kept = commitPend xs c f ({ x with due := x.due - 1 } :: kept) := if_neg (Nat.not_le.2 hx)

theorem commitPend_pend (xs : List Pend) : ∀ (c : Core) (f : Frame) (kept : List Pend),
    (commitPend xs c f kept).2.pend = kept.reverse ++ survivors xs := by
  induction xs with
  | nil => exact fun c f kept => (List.append_nil _).symm
  | cons x xs ih =>
    intro c f kept
    rcases Nat.lt_or_ge 1 x.due with hx | hx
    · rw [commitPend_cons_later hx, ih]
      simp [survivors, hx]
    · rw [commitPend_cons_due hx, ih]
      simp [survivors, hx]

theorem tick_succ (k : Nat) (c : Core) (f : Frame) :
    tick (k + 1) c f = tick k (commitPend f.pend c f []).1 (commitPend f.pend c f []).2 := rfl

variable {q : GReg}

/-- A register none of whose pending writes is due reads as before. -/
theorem commitPend_getG_early (xs : List Pend) : ∀ (c : Core) (f : Frame) (kept : List Pend),
    (∀ x ∈ xs, x.reg = .g q → 1 < x.due) → (commitPend xs c f kept).2.getG q = f.getG q := by
  induction xs with
  | nil => exact fun _ _ _ _ => rfl
  | cons x xs ih =>
    intro c f kept hlate
    obtain ⟨hx, hxs⟩ := List.forall_mem_cons.1 hlate
    rcases Nat.lt_or_ge 1 x.due with hdue | hdue
    · rw [commitPend_cons_later hdue, ih _ _ _ hxs]
    · have hother : Reg.g q ≠ x.reg := fun e => Nat.not_lt.2 hdue (hx e.symm)
      rw [commitPend_cons_due hdue, ih _ _ _ hxs, (putReg_touches c f x.reg x.val).gens q hother]

/-- The last pending write of a register, once due, is what the register reads. -/
theorem commitPend_getG_last (hq : q ≠ 0) {v : Word} {due : Nat} (hdue : due ≤ 1) (xs : List Pend) :
    ∀ (c : Core) (f : Frame) (kept : List Pend),
      (commitPend (xs ++ [⟨.g q, v.setWidth 256, due⟩]) c f kept).2.getG q = v := by
  induction xs with
  | nil =>
    intro c f kept
    rw [List.nil_append, commitPend_cons_due hdue]
    exact (getG_setG_same _ _ hq).trans (by simp)
  | cons x xs ih =>
    intro c f kept
    rw [List.cons_append]
    rcases Nat.lt_or_ge 1 x.due with hx | hx
    · rw [commitPend_cons_later hx, ih]
    · rw [commitPend_cons_due hx, ih]

/-- The newest pending write of `q` gives it `v` after `lat` own cycles, and every other one of it is due then too. -/
def LastWrite (q : GReg) (v : Word) (lat : Nat) (f : Frame) : Prop :=
  ∃ xs, f.pend = xs ++ [⟨.g q, v.setWidth 256, lat⟩] ∧ ∀ x ∈ xs, x.reg = .g q → x.due = lat

variable {v w : Word} {lat : Nat} {f : Frame}

theorem records_gRes (hq : q ≠ 0) (v : Word) (lat : Nat) : records [gRes q v lat] = [⟨.g q, v.setWidth 256, lat⟩] := by
  have hfixed : (Reg.g q).fixed = false := beq_eq_false_iff_ne.2 hq
  simp [records, gRes, hfixed]

theorem LastWrite.of_free (hq : q ≠ 0) (hfree : ∀ x ∈ f.pend, x.reg ≠ .g q) :
    LastWrite q v lat { f with pend := f.pend ++ records [gRes q v lat] } :=
  ⟨f.pend, by rw [records_gRes hq], fun x hx e => absurd e (hfree x hx)⟩

/-- A later instruction's write of the register, due together with the earlier one's, is the newest. -/
theorem LastWrite.later (hq : q ≠ 0) (h : LastWrite q v lat f) :
    LastWrite q w lat { f with pend := f.pend ++ records [gRes q w lat] } := by
  obtain ⟨xs, hpend, hdue⟩ := h
  refine ⟨f.pend, by rw [records_gRes hq], fun x hx e => ?_⟩
  rcases List.mem_append.1 (hpend ▸ hx) with hx | hx
  · exact hdue x hx e
  · rw [List.mem_singleton.1 hx]

/-- An own cycle before the due one: the register reads as before, and its write is one cycle nearer. -/
theorem LastWrite.cycle (h : LastWrite q v (lat + 2) f) (c : Core) :
    LastWrite q v (lat + 1) (commitPend f.pend c f []).2 ∧ (commitPend f.pend c f []).2.getG q = f.getG q := by
  obtain ⟨xs, hpend, hdue⟩ := h
  refine ⟨⟨survivors xs, ?_, fun y hy e => ?_⟩, commitPend_getG_early _ _ _ _ fun x hx e => ?_⟩
  · rw [commitPend_pend, hpend, survivors_snoc _ (by simp)]
    rfl
  · obtain ⟨x, hx, -, rfl⟩ := mem_survivors.1 hy
    simp [hdue x hx e]
  · rcases List.mem_append.1 (hpend ▸ hx) with hx | hx
    · have := hdue x hx e
      omega
    · rw [List.mem_singleton.1 hx]
      simp

/-- The due cycle: the register reads the value, and nothing of it is pending any more. -/
theorem LastWrite.commits (hq : q ≠ 0) (h : LastWrite q v 1 f) (c : Core) :
    (∀ x ∈ (commitPend f.pend c f []).2.pend, x.reg ≠ .g q) ∧ (commitPend f.pend c f []).2.getG q = v := by
  obtain ⟨xs, hpend, hdue⟩ := h
  refine ⟨fun y hy e => ?_, ?_⟩
  · rw [commitPend_pend, List.reverse_nil, List.nil_append] at hy
    obtain ⟨x, hx, hlate, rfl⟩ := mem_survivors.1 hy
    rcases List.mem_append.1 (hpend ▸ hx) with hx | hx
    · exact absurd (hdue x hx e) (Nat.ne_of_gt hlate)
    · rw [List.mem_singleton.1 hx] at hlate
      exact absurd hlate (Nat.lt_irrefl 1)
  · rw [hpend]
    exact commitPend_getG_last hq (Nat.le_refl 1) _ _ _ _

/-- Own cycles without a pending write of a register leave it as it is. -/
theorem tick_getG_free {k : Nat} (c : Core) (hfree : ∀ x ∈ f.pend, x.reg ≠ .g q) : (tick k c f).2.getG q = f.getG q :=
  (tick_touches (fun r => r ≠ .g q) k c f hfree).1.gens q (not_not_intro rfl)

/-- The newest write of a register is read from its due cycle on (R132). -/
theorem LastWrite.read (hq : q ≠ 0) (k : Nat) : ∀ {lat : Nat} {f : Frame} (c : Core), 0 < lat → LastWrite q v lat f →
    (tick k c f).2.getG q = if k < lat then f.getG q else v := by
  induction k with
  | zero => exact fun c hlat _ => (if_pos hlat).symm
  | succ k ih =>
    intro lat f c hlat h
    rw [tick_succ]
    match lat, hlat with
    | 1, _ =>
      obtain ⟨hfree, hread⟩ := h.commits hq c
      rw [tick_getG_free _ hfree, hread, if_neg (by omega)]
    | m + 2, _ =>
      obtain ⟨hnext, hread⟩ := h.cycle c
      rw [ih _ m.succ_pos hnext, hread]
      simp only [Nat.add_lt_add_iff_right]

/-- Settles O9: a write that is the newest of its register is read from its due cycle on (`LastWrite.read`); the later of two writes that
are due together is the newest (`LastWrite.later`), and so is the one of a retirement (`commitPend_getG_last`). -/
theorem resultsBecomeVisible : Obligations.ResultsBecomeVisible := by
  unfold Obligations.ResultsBecomeVisible
  refine ⟨fun c f q v w lat k hq hlat hfree => ⟨?own, ?together⟩, fun s n i h f fs q v ht => ?next⟩
  case own => exact (LastWrite.of_free hq hfree).read hq k c hlat
  case together =>
    obtain ⟨m, rfl⟩ : ∃ m, lat = m + 1 := ⟨lat - 1, by omega⟩
    obtain ⟨hnext, hread⟩ := (LastWrite.of_free (v := v) (lat := m + 2) hq hfree).cycle c
    exact ((hnext.later hq).read hq k c hlat).trans (congrArg (if k < m + 1 then · else w) hread)
  case next =>
    rw [core_retire ht]
    obtain ⟨c1, f1, -, -, hf1, hcore, -⟩ := retire_core (s.core n) f fs i h { Ret.plain with writes := [gRes q v 1] }
    refine ⟨f1, congrArg Core.frames hcore, ?_⟩
    split
    next h0 => rw [h0]; rfl
    next hq =>
      have hpend : (f.retired i.size h { Ret.plain with writes := [gRes q v 1] }).pend = f.pend ++ [⟨.g q, v.setWidth 256, 1⟩] :=
        congrArg (f.pend ++ ·) (records_gRes hq v 1)
      rw [hf1]
      change (commitPend _ _ _ []).2.getG q = v
      rw [hpend]
      exact commitPend_getG_last hq (Nat.le_refl 1) _ _ _ _

end Sys2Proof.Laws
end

section
namespace Sys2Proof.Laws
open Sys2Proof.Machine

/-! ## Frames found by name -/

variable {s s1 : State} {c : Core} {f g : Frame} {uid n k key : Nat} {d : GReg}

theorem uid_of_frame? (hf : c.frame? uid = some f) : f.uid = uid := by
  unfold Core.frame? at hf
  simpa using List.find?_some hf

/-- The frame that is found by a name after that frame has been replaced, under the same name. -/
theorem frame?_onFrame {r : Frame → Frame} (hf : c.frame? uid = some f) (hr : (r f).uid = uid) :
    (c.onFrame uid r).frame? uid = some (r f) := by
  unfold Core.frame? at hf
  unfold Core.frame? Core.onFrame
  dsimp only
  generalize c.frames = xs at hf ⊢
  induction xs with
  | nil => cases hf
  | cons x xs ih =>
    rw [List.map_cons]
    by_cases hx : x.uid = uid
    · obtain rfl : x = f := by simpa [hx] using hf
      simp [hx, hr]
    · have hxs : xs.find? (fun y => y.uid == uid) = some f := by simpa [hx] using hf
      simpa [hx] using ih hxs

/-! ## The reply to a load (R134, R208, R216) -/

/-- A reply that gives a version changes only what the frame knows of versions. -/
theorem tookView_frame {own : Writer} {t : Tag} {w : View} (h : c.tookView own f k t w = some g) :
    g = { f with view := g.view, past := g.past } := by
  unfold Core.tookView at h
  split at h
  · cases h; rfl
  · split at h
    · cases h; rfl
    · cases h

/-- A read that gives a version changes its frame alone, and of it only what it knows of versions. -/
theorem readLine_ok {v : Version} (h : s.readLine n f k key = .ok v s1) :
    ∃ g, s1 = s.setCore n ((s.core n).onFrame f.uid fun _ => g) ∧
      g = { f with view := g.view, past := g.past, asked := g.asked, seen := g.seen } := by
  unfold State.readLine at h
  split at h
  · cases h
  · split at h
    next =>
      split at h
      · unfold Frame.lacking at h
        split at h <;> cases h
      next g hg =>
        obtain ⟨-, rfl⟩ := Got.ok.inj h
        exact ⟨_, rfl, by rw [tookView_frame hg]⟩
    · unfold Frame.lacking at h
      split at h <;> cases h
    · cases h

/-- The frame after a variable-latency result for a general register: it has the value, and the register waits no longer. -/
def withResult (f : Frame) (d : GReg) (v : Word) : Frame := { f.setG d v with await := f.await.erase (.g d) }

theorem getG_withResult (hd : d ≠ 0) (v : Word) : (withResult f d v).getG d = v := getG_setG_same f v hd
theorem getG_withResult_ne {e : GReg} (he : e ≠ d) (v : Word) : (withResult f d v).getG e = f.getG e := getG_setG_ne f v he
@[simp] theorem withResult_uid (v : Word) : (withResult f d v).uid = f.uid := setG_uid f d v
@[simp] theorem withResult_p (v : Word) : (withResult f d v).p = f.p := setG_p f d v
@[simp] theorem withResult_a (v : Word) : (withResult f d v).a = f.a := setG_a f d v
@[simp] theorem withResult_pc (v : Word) : (withResult f d v).pc = f.pc := setG_pc f d v
@[simp] theorem withResult_await (v : Word) : (withResult f d v).await = f.await.erase (.g d) := rfl

/-- A request for a general register of a frame on the stack leaves with its value. -/
theorem finish_g {q : Req} (hdst : q.dst = some (.g d)) (hf : c.frame? q.frame = some f) (v : Word) :
    c.finish q (v.setWidth 256) =
      { c with reqs := c.reqs.filter fun x => x.id != q.id }.onFrame q.frame fun _ => withResult f d v := by
  unfold Core.finish Core.deliver
  rw [hdst]
  have hv : (v.setWidth 256).setWidth 64 = v := by simp
  have hsame : ({ c with reqs := c.reqs.filter fun x => x.id != q.id } : Core).frame? q.frame = some f := hf
  simp only [hsame, Core.putReg, hv, setG_await, withResult]

/-- A request whose turn has come and whose frame is on the stack gets its reply. -/
theorem execLoadReply_replies {id : Nat} {q : Req} (hfind : (s.core n).reqs.find? (fun q => q.id == id) = some q)
    (htear : (s.ctx q.ctx).tearing = false) (hturn : s.reqWaits n q = false) (hroute : s.behind n q.place = false)
    (hf : (s.core n).frame? q.frame = some f) : exec (.loadReply n id) s = .next (s.reply n f q) := by
  change execLoadReply n id s = _
  unfold execLoadReply
  simp only [hfind, htear, hturn, hroute, hf, Bool.or_self, Bool.false_eq_true, if_false]

theorem reply_load {q : Req} {src : Src} {o : Overlay} {off k : Nat} {sx : Bool} (hk : q.kind = .load src o off k sx) :
    s.reply n f q = s.withSrc n f q.acq src fun v s1 =>
      s1.finishReq n q ((extend sx k (leNat (((layOver v.data o.bytes).drop off).take k))).setWidth 256) := by
  unfold State.reply
  rw [hk]

/-- The bytes of a line with the bundle's over them, byte by byte. -/
theorem layOver_eq {bs : List Byte} (hlen : bs.length = 64) (o : FMap (Option Byte)) :
    layOver bs o = (List.range 64).map fun i => (fget none o i).getD (bs.getD i 0) := by
  unfold layOver
  apply List.ext_getElem
  · simp [hlen]
  · intro i hi _
    have hi : i < bs.length := by simpa using hi
    simp [hi]

/-- A value with the bits above `k` bytes set is the value less 2 to the power of its width. -/
theorem ofNat_signed (k m : Nat) : BitVec.ofNat 64 (m + (2 ^ 64 - 2 ^ (8 * k))) = BitVec.ofInt 64 ((m : Int) - 2 ^ (8 * k)) := by
  have hpow : ((2 : Int) ^ (8 * k)) = ((2 ^ (8 * k) : Nat) : Int) := by push_cast; rfl
  rw [hpow]
  apply BitVec.eq_of_toNat_eq
  rw [BitVec.toNat_ofNat, BitVec.toNat_ofInt]
  rcases Nat.le_total (8 * k) 64 with hk | hk
  · have := Nat.pow_le_pow_right (n := 2) (by omega) hk
    omega
  · obtain ⟨e, he⟩ := Nat.pow_dvd_pow 2 hk
    omega

/-- Zero or sign extension from `k` bytes (R208). -/
theorem extend_eq (sx : Bool) (k x : Nat) :
    extend sx k x = if sx ∧ 2 ^ (8 * k - 1) ≤ x % 2 ^ (8 * k) then BitVec.ofInt 64 ((x % 2 ^ (8 * k) : Nat) - 2 ^ (8 * k))
      else BitVec.ofNat 64 (x % 2 ^ (8 * k)) := by
  cases sx with
  | false => simp [extend, zext]
  | true =>
    simp only [extend, sext, true_and, if_true, ofNat_signed]

/-- Settles O15: the request is served (`execLoadReply_replies`), a read that gives a version leaves the registers of the frame alone
(`readLine_ok`), and the request leaves with the bytes of the version under the bundle's (`layOver_eq`), extended (`extend_eq`), in its
register (`finish_g`). -/
theorem loadReplyDeliversItsBytes : Obligations.LoadReplyDeliversItsBytes := by
  unfold Obligations.LoadReplyDeliversItsBytes
  intro s s1 n id q f d key off k o sx v hfind hid htear hturn hroute hf hdst hkind
  have hexec := (execLoadReply_replies hfind htear hturn hroute hf).trans (congrArg _ (reply_load hkind))
  refine ⟨fun hold => ?tooOld, fun hok => ?delivers⟩
  case tooOld =>
    rw [hexec]
    simp only [State.withSrc, hold]
    rfl
  case delivers =>
    dsimp only
    intro hlen
    obtain ⟨g, rfl, hg⟩ := readLine_ok hok
    have huid := uid_of_frame? hf
    have hguid : g.uid = q.frame := (congrArg Frame.uid hg).trans huid
    have hfound : ((s.core n).onFrame q.frame fun _ => g).frame? q.frame = some g := frame?_onFrame hf hguid
    rw [hexec]
    simp only [State.withSrc, hok, State.finishReq, core_setCore_same, huid, finish_g hdst hfound, layOver_eq hlen]
    generalize hword : extend sx k _ = w
    rw [extend_eq] at hword
    refine ⟨_, withResult g d w, rfl, ?frame, fun hd => (getG_withResult hd w).trans hword.symm, fun e he => ?others, ?await, ?preds,
      ?pointers, ?pc, ?reqs, rfl⟩
    case frame => rw [core_setCore_same]; exact frame?_onFrame hfound ((withResult_uid w).trans hguid)
    case others => rw [getG_withResult_ne he, hg]; rfl
    case await => rw [withResult_await, hg]
    case preds => rw [withResult_p, hg]
    case pointers => rw [withResult_a, hg]
    case pc => rw [withResult_pc, hg]
    case reqs => rw [core_setCore_same, hid]; rfl

end Sys2Proof.Laws
end

section
namespace Sys2Proof.Laws
open Sys2Proof.Machine

/-! ## `SRD`: what each register reads as (R129, R201, R217, R285, R353) -/

variable {s : State} {f : Frame} {fs : List Frame} {h : Hdr} {d a : GReg} {csr : BitVec 12}

/-- `SRD` retires with the value of the register. -/
theorem srd_results (q : Issues s f fs h false [.g d] []) {v : Word} (hv : s.csrRead s.cur f csr.toNat = v) :
    results s (.srd h d csr) h [gRes d v 2] := by
  subst hv
  exact congrArg Host.Outcome.next (issue_go q rfl rfl)

theorem csrRead_view (s : State) (n : Nat) (f : Frame) {k : Nat} (hk : k < 32) :
    s.csrRead n f (0x020 + k) = (View.regs f.view).getD k 0 := by
  unfold State.csrRead
  rw [if_pos (by omega), Nat.add_sub_cancel_left]

theorem csrRead_tsave (s : State) (n : Nat) (f : Frame) {k : Nat} (hk : k < 8) : s.csrRead n f (0x048 + k) = fget 0 f.tsave k := by
  unfold State.csrRead
  rw [if_neg (by omega), if_pos (by omega), Nat.add_sub_cancel_left]

theorem csrRead_esthr (s : State) (n : Nat) (f : Frame) {k : Nat} (hk : k < 5) :
    s.csrRead n f (0x088 + k) = (fget 0 (s.core n).esthr k).setWidth 64 := by
  unfold State.csrRead
  rw [if_neg (by omega), if_neg (by omega), if_pos (by omega), Nat.add_sub_cancel_left]
  rfl

theorem csrRead_escnt (s : State) (n : Nat) (f : Frame) {k : Nat} (hk : k < 5) :
    s.csrRead n f (0x090 + k) = (fget 0 (s.core n).escnt k).setWidth 64 := by
  unfold State.csrRead
  rw [if_neg (by omega), if_neg (by omega), if_neg (by omega), if_pos (by omega), Nat.add_sub_cancel_left]
  rfl

theorem threshReg_eq {n : Nat} (ht : (s.core n).frames = f :: fs) :
    s.threshReg n = BitVec.ofNat 64 (256 * f.ceil (s.ctx f.task.ctx) + 16 * f.prio + f.thr (s.ctx f.task.ctx)) := by
  unfold State.threshReg
  rw [ht]

theorem frameReg_eq {c : Core} (ht : c.frames = f :: fs) :
    c.frameReg = BitVec.ofNat 64 (2 ^ 18 * c.carve + 65536 * f.priv.toNat + 1024 * (f.lim + 8) +
      32 * (c.frames.filter (fun g => g.window == .resident)).length + c.frames.length) := by
  unfold Core.frameReg
  rw [ht]
  exact congrArg (fun k => BitVec.ofNat 64 (k + _ + _)) (Nat.add_assoc ..).symm

/-! ## `CLAIMS` (R285) -/

theorem packGuards_lt : ∀ gs : List (BitVec 6), packGuards gs < 64 ^ gs.length
  | [] => Nat.one_pos
  | g :: gs => by
    have ih := packGuards_lt gs
    have hg := g.isLt
    rw [packGuards, List.length_cons, Nat.pow_succ]
    omega

/-- Field `k` of the packed guards is guard `k`. -/
theorem packGuards_field : ∀ (gs : List (BitVec 6)) (k : Nat), packGuards gs / 64 ^ k % 64 = (gs.getD k 0).toNat
  | [], k => by simp [packGuards]
  | g :: gs, 0 => by
    have hg := g.isLt
    simp only [packGuards, List.getD_cons_zero]
    omega
  | g :: gs, k + 1 => by
    have hg := g.isLt
    have hrest : packGuards (g :: gs) / 64 = packGuards gs := by
      simp only [packGuards]
      omega
    rw [Nat.pow_succ', ← Nat.div_div_eq_div_mul, hrest, packGuards_field gs k, List.getD_cons_succ]

section
variable (hlen : f.claims.length ≤ 8)
include hlen

theorem packGuards_claims_lt : packGuards f.claims < 2 ^ 48 :=
  Nat.lt_of_lt_of_le (packGuards_lt f.claims) (Nat.pow_le_pow_right (n := 64) (by decide) hlen)

theorem claimsReg_toNat : f.claimsReg.toNat = 2 ^ 48 * f.claims.length + packGuards f.claims := by
  have hp := packGuards_claims_lt hlen
  unfold Frame.claimsReg
  rw [BitVec.toNat_ofNat, Nat.mod_eq_of_lt (by omega)]

theorem claimsReg_count : (f.claimsReg.extractLsb' 48 16).toNat = f.claims.length := by
  have hp := packGuards_claims_lt hlen
  rw [BitVec.extractLsb'_toNat, claimsReg_toNat hlen, Nat.shiftRight_eq_div_pow]
  omega

theorem claimsReg_guard {k : Nat} (hk : k < f.claims.length) : f.claimsReg.extractLsb' (6 * k) 6 = f.claims.getD k 0 := by
  apply BitVec.eq_of_toNat_eq
  obtain ⟨m, hm⟩ : ∃ m, 8 = k + (m + 1) := ⟨7 - k, by omega⟩
  have hcount : 2 ^ 48 * f.claims.length = 64 ^ k * (64 * (64 ^ m * f.claims.length)) := by
    rw [show (2 : Nat) ^ 48 = 64 ^ 8 from rfl, hm, Nat.pow_add, Nat.pow_succ', Nat.mul_assoc, Nat.mul_assoc]
  rw [BitVec.extractLsb'_toNat, claimsReg_toNat hlen, Nat.shiftRight_eq_div_pow, Nat.pow_mul, hcount, Nat.mul_add_div (Nat.pow_pos (by decide)),
    Nat.mul_add_mod, packGuards_field]

end

/-! ## `SWR` (R11, R201, R391) -/

theorem csrPriv_iff {n : Nat} :
    csrPriv n = true ↔ n = 0x041 ∨ (0x048 ≤ n ∧ n < 0x050) ∨ n = 0x080 ∨ (0x088 ≤ n ∧ n < 0x08D) := by
  simp [csrPriv, or_assoc]

/-- `SWR` retires with the register written. -/
theorem swr_completes (q : Issues s f fs h false [.g a] []) (hallowed : csrPriv csr.toNat = true → f.priv = true) {c : Core} {g : Frame}
    (hc : (s.core s.cur).csrWrite csr.toNat (f.getG a) = c) (hg : f.csrWrite csr.toNat (f.getG a) = g) :
    completes s (.swr h csr a) h (s.setCore s.cur (c.setTop g)) Ret.plain := by
  subst hc hg
  have hgo : ¬ (csrPriv csr.toNat && !f.priv) = true := by simpa using hallowed
  exact congrArg Host.Outcome.next (issue_go q rfl (if_neg hgo))

/-- A register of privileged code traps outside privileged state. -/
theorem swr_traps (q : Issues s f fs h false [.g a] []) (howned : csrPriv csr.toNat = true) (hpriv : f.priv = false) :
    exec (.swr h csr a) s = .next (s.trapped s.cur (.swr h csr a) 0x05 0) :=
  congrArg Host.Outcome.next (issue_trap q rfl (if_pos (by simp [howned, hpriv])))

variable {c : Core} {n k : Nat} {v : Word}

/-- Outside the statistics registers a write leaves the core as it is. -/
theorem coreCsrWrite_other (h80 : n ≠ 0x080) (hthr : ¬ (0x088 ≤ n ∧ n < 0x08D)) : c.csrWrite n v = c := by
  unfold Core.csrWrite
  rw [if_neg h80, if_neg hthr]

theorem frameCsrWrite_other (h09 : n ≠ 0x009) (h41 : n ≠ 0x041) (hsave : ¬ (0x048 ≤ n ∧ n < 0x050)) : f.csrWrite n v = f := by
  unfold Frame.csrWrite
  rw [if_neg h09, if_neg h41, if_neg hsave]

theorem frameCsrWrite_tsave (hk : k < 8) : f.csrWrite (0x048 + k) v = { f with tsave := fset 0 f.tsave k v } := by
  unfold Frame.csrWrite
  rw [if_neg (by omega), if_neg (by omega), if_pos (by omega), Nat.add_sub_cancel_left]

/-- `ESTHR` takes its threshold and its action from the register and keeps `HIT`. -/
theorem keepHit (x : BitVec 35) (v : Word) :
    BitVec.ofBool (x.getLsbD 34) ++ v.setWidth 34 = (x &&& 0x400000000) ||| (v.setWidth 35 &&& 0x3FFFFFFFF) := by
  have hhit : ∀ i < 34, (0x400000000 : BitVec 35).getLsbD i = false := by decide
  have hrest : ∀ i < 34, (0x3FFFFFFFF : BitVec 35).getLsbD i = true := by decide
  refine BitVec.eq_of_getLsbD_eq fun i hi => ?_
  rw [BitVec.getLsbD_append, BitVec.getLsbD_or, BitVec.getLsbD_and, BitVec.getLsbD_and]
  rcases Nat.lt_or_ge i 34 with hlow | htop
  · rw [hhit i hlow, hrest i hlow]
    simp [hlow, hi]
  · obtain rfl : i = 34 := by omega
    simp

theorem coreCsrWrite_esthr (hk : k < 5) : c.csrWrite (0x088 + k) v =
    { c with esthr := fset 0 c.esthr k ((fget 0 c.esthr k &&& 0x400000000) ||| (v.setWidth 35 &&& 0x3FFFFFFFF)) } := by
  unfold Core.csrWrite
  rw [if_neg (by omega), if_pos (by omega), Nat.add_sub_cancel_left]
  dsimp only
  rw [← keepHit]
  rfl

theorem fget_clearHits (es : FMap (BitVec 35)) (hk : k < 5) : fget 0 (clearHits es) k = fget 0 es k &&& 0x3FFFFFFFF := by
  unfold clearHits
  match k, hk with
  | 0, _ | 1, _ | 2, _ | 3, _ | 4, _ => simp [fget_fset]

/-- Settles O48: `SRD` retires with what `csrRead` gives (`srd_results`), `SWR` with what `csrWrite` leaves (`swr_completes`) or in a trap
(`swr_traps`). -/
theorem systemRegisters : Obligations.SystemRegisters := by
  unfold Obligations.SystemRegisters
  intro s f fs h d a csr
  dsimp only
  refine ⟨fun q => ?reads, fun q => ?writes⟩
  case reads =>
    have reads : ∀ {n : Nat} {v : Word}, csr.toNat = n → s.csrRead s.cur f n = v → results s (.srd h d csr) h [gRes d v 2] :=
      fun hn hv => srd_results q (hn ▸ hv)
    refine ⟨fun e he hn => reads hn ?packed, fun e he hn => reads hn ?whole,
      fun hn => ⟨_, reads hn rfl, fun hlen => ⟨claimsReg_count hlen, fun k hk => claimsReg_guard hlen hk⟩⟩,
      fun k hk hn => reads hn (csrRead_view _ _ _ hk), fun k hk hn => reads hn (csrRead_tsave _ _ _ hk),
      fun k hk hn => reads hn (csrRead_esthr _ _ _ hk), fun k hk hn => reads hn (csrRead_escnt _ _ _ hk)⟩
    case packed =>
      simp only [List.mem_cons, List.not_mem_nil, or_false] at he
      rcases he with rfl | rfl | rfl | rfl | rfl
      · exact threshReg_eq q.top
      · rfl
      · exact frameReg_eq q.top
      · rfl
      · rfl
    case whole =>
      simp only [List.mem_cons, List.not_mem_nil, or_false] at he
      rcases he with rfl | rfl | rfl | rfl | rfl | rfl | rfl | rfl | rfl | rfl | rfl | rfl | rfl
      all_goals rfl
  case writes =>
    refine ⟨fun hn => ?schk, fun howned hpriv => swr_traps q (csrPriv_iff.2 howned) hpriv, fun hpriv => ?owned, fun h09 hfree => ?other⟩
    case schk =>
      have hopen : ¬ csrPriv csr.toNat = true := by rw [hn]; decide
      exact swr_completes q (absurd · hopen) (coreCsrWrite_other (by omega) (by omega)) (by rw [hn]; rfl)
    case owned =>
      refine ⟨fun hn => ?tpc, fun k hk hn => ?tsave, fun hn => ⟨_, ?eswin, fun k hk => fget_clearHits _ hk⟩, fun k hk hn => ?esthr⟩
      case tpc => exact swr_completes q (fun _ => hpriv) (coreCsrWrite_other (by omega) (by omega)) (by rw [hn]; rfl)
      case tsave =>
        exact swr_completes q (fun _ => hpriv) (coreCsrWrite_other (by omega) (by omega)) (by rw [hn, frameCsrWrite_tsave hk])
      case eswin =>
        exact swr_completes q (fun _ => hpriv) (by rw [hn]; rfl) (frameCsrWrite_other (by omega) (by omega) (by omega))
      case esthr =>
        exact swr_completes q (fun _ => hpriv) (by rw [hn, coreCsrWrite_esthr hk])
          (frameCsrWrite_other (by omega) (by omega) (by omega))
    case other =>
      exact swr_completes q (fun hp => absurd (csrPriv_iff.1 hp) hfree) (coreCsrWrite_other (by omega) (by omega))
        (frameCsrWrite_other h09 (by omega) (by omega))

end Sys2Proof.Laws
end

section
/-!
SUPPORT. The integer instructions on words (R141–R143): each function of the model as the arithmetic of the spec, on naturals or on
signed integers, modulo 2^64.
-/

namespace Sys2Proof.Laws
open Sys2Proof.Machine

variable (x y : Word) (k : Nat)

/-! ### Words as residues -/

/-- A word is the residue of its natural number. -/
@[simp] theorem ofInt_toNat {n : Nat} (x : BitVec n) : BitVec.ofInt n x.toNat = x := by
  rw [BitVec.ofInt_natCast, BitVec.ofNat_toNat, BitVec.setWidth_eq]

theorem sub_eq_ofInt : x - y = BitVec.ofInt 64 (x.toNat - y.toNat) := by
  rw [Int.sub_eq_add_neg, BitVec.ofInt_add, BitVec.ofInt_neg, ofInt_toNat, ofInt_toNat, BitVec.sub_eq_add_neg]

theorem add_signExtend {n : Nat} (imm : BitVec n) : x + imm.signExtend 64 = BitVec.ofInt 64 (x.toNat + imm.toInt) := by
  rw [BitVec.ofInt_add, ofInt_toNat]
  rfl

theorem mul_eq_ofNat : x * y = BitVec.ofNat 64 (x.toNat * y.toNat) := BitVec.mul_def

theorem mul_add_eq_ofNat (z : Word) : x * y + z = BitVec.ofNat 64 (x.toNat * y.toNat + z.toNat) := by
  rw [BitVec.ofNat_add, ← mul_eq_ofNat, BitVec.ofNat_toNat, BitVec.setWidth_eq]

/-- The upper half of a product is the product divided by 2^64. -/
theorem extractLsb'_ofInt (z : Int) : (BitVec.ofInt 128 z).extractLsb' 64 64 = BitVec.ofInt 64 (z / 2 ^ 64) := by
  apply BitVec.eq_of_toNat_eq
  rw [BitVec.extractLsb'_toNat, BitVec.toNat_ofInt, BitVec.toNat_ofInt, Nat.shiftRight_eq_div_pow]
  omega

theorem mulhS_eq : mulhS x y = BitVec.ofInt 64 (x.toInt * y.toInt / 2 ^ 64) := by
  rw [← extractLsb'_ofInt, BitVec.ofInt_mul]
  rfl

theorem mulhU_eq : mulhU x y = BitVec.ofNat 64 (x.toNat * y.toNat / 2 ^ 64) := by
  have h := extractLsb'_ofInt ((x.toNat * y.toNat : Nat) : Int)
  rw [BitVec.ofInt_natCast, BitVec.ofNat_mul, BitVec.ofNat_toNat, BitVec.ofNat_toNat] at h
  exact h

/-! ### Shifts -/

/-- A register shift count is the low six bits (R141). -/
theorem cnt6_eq : cnt6 x = x.toNat % 64 := by
  rw [cnt6, BitVec.extractLsb'_toNat, Nat.shiftRight_zero]

theorem cnt6_lt : cnt6 x < 64 := by
  rw [cnt6_eq]
  exact Nat.mod_lt _ (by decide)

theorem shiftLeft_eq_ofNat : x <<< k = BitVec.ofNat 64 (x.toNat * 2 ^ k) :=
  congrArg (BitVec.ofNat 64) (Nat.shiftLeft_eq _ _)

theorem ushiftRight_eq_ofNat : x >>> k = BitVec.ofNat 64 (x.toNat / 2 ^ k) := by
  rw [← Nat.shiftRight_eq_div_pow, ← BitVec.toNat_ushiftRight, BitVec.ofNat_toNat, BitVec.setWidth_eq]

theorem sshiftRight_eq_ofInt : x.sshiftRight k = BitVec.ofInt 64 (x.toInt / 2 ^ k) := by
  rw [BitVec.sshiftRight, Int.shiftRight_eq_div_pow]
  norm_cast

theorem rotateLeft_eq_ofNat (hk : k < 64) :
    x.rotateLeft k = BitVec.ofNat 64 (x.toNat * 2 ^ k + x.toNat / 2 ^ (64 - k)) := by
  have hdisjoint : x <<< k &&& x >>> (64 - k) = 0#64 := by
    refine BitVec.eq_of_getLsbD_eq fun i hi => ?_
    rw [BitVec.getLsbD_and, BitVec.getLsbD_shiftLeft, BitVec.getLsbD_ushiftRight]
    rcases Nat.lt_or_ge i k with h | h
    · simp [h]
    · simp [BitVec.getLsbD_of_ge x (64 - k + i) (by omega)]
  rw [BitVec.rotateLeft_def, Nat.mod_eq_of_lt hk, ← BitVec.add_eq_or_of_and_eq_zero _ _ hdisjoint, BitVec.ofNat_add,
    ← shiftLeft_eq_ofNat, ← ushiftRight_eq_ofNat]

/-! ### Minimum, maximum, absolute value, saturation -/

theorem minWord_signed : minWord false x y = if x.toInt < y.toInt then x else y := by
  simp [minWord, BitVec.slt_iff_toInt_lt]
theorem minWord_unsigned : minWord true x y = if x.toNat < y.toNat then x else y := by
  simp [minWord, BitVec.ult_iff_toNat_lt]
theorem maxWord_signed : maxWord false x y = if x.toInt < y.toInt then y else x := by
  simp [maxWord, BitVec.slt_iff_toInt_lt]
theorem maxWord_unsigned : maxWord true x y = if x.toNat < y.toNat then y else x := by
  simp [maxWord, BitVec.ult_iff_toNat_lt]

theorem absWord_eq : absWord x = if 0 ≤ x.toInt then x else BitVec.ofInt 64 (0 - x.toInt) := by
  have hneg : x.slt 0 = true ↔ ¬ 0 ≤ x.toInt := by rw [BitVec.slt_iff_toInt_lt, Int.not_le]; rfl
  rw [Int.zero_sub, BitVec.ofInt_neg, BitVec.ofInt_toInt, ← BitVec.zero_sub]
  unfold absWord
  by_cases h : 0 ≤ x.toInt
  · rw [if_neg (fun hs => hneg.1 hs h), if_pos h]
  · rw [if_pos (hneg.2 h), if_neg h]; rfl

/-- Saturation clamps to the range of the signed numbers of `n` bits. -/
theorem satS_eq (n : Nat) (v : Int) : satS n v = max (-2 ^ (n - 1)) (min v (2 ^ (n - 1) - 1)) := by
  have hpos : (0 : Int) < 2 ^ (n - 1) := Int.pow_pos (by decide)
  unfold satS
  omega

theorem addsWord_signed :
    addsWord false x y = BitVec.ofInt 64 (max (-2 ^ 63) (min (x.toInt + y.toInt) (2 ^ 63 - 1))) :=
  congrArg (BitVec.ofInt 64) (satS_eq 64 _)
theorem addsWord_unsigned : addsWord true x y = BitVec.ofNat 64 (min (x.toNat + y.toNat) (2 ^ 64 - 1)) := rfl

/-! ### Bit counts -/

theorem clzFrom_le : ∀ n, clzFrom x n ≤ n
  | 0 => Nat.le_refl 0
  | n + 1 => by
    have ih := clzFrom_le n
    unfold clzFrom
    split <;> omega

/-- The low bits with `clzFrom` leading zeros lie below the power of two that the zeros leave, and from half of it on where there is a
one bit. -/
theorem clzFrom_bounds : ∀ n, x.toNat % 2 ^ n < 2 ^ (n - clzFrom x n) ∧
    (clzFrom x n < n → 2 ^ (n - 1 - clzFrom x n) ≤ x.toNat % 2 ^ n)
  | 0 => by simp [Nat.mod_one, clzFrom]
  | n + 1 => by
    obtain ⟨hbelow, habove⟩ := clzFrom_bounds n
    have hle := clzFrom_le x n
    have hsplit : x.toNat % 2 ^ (n + 1) = x.toNat % 2 ^ n + 2 ^ n * (x.getLsbD n).toNat := by
      rw [Nat.mod_pow_succ, ← Nat.toNat_testBit]
      rfl
    have hlow := Nat.mod_lt x.toNat (Nat.two_pow_pos n)
    rw [hsplit]
    unfold clzFrom
    cases x.getLsbD n with
    | true =>
      simp only [if_true, Bool.toNat_true, Nat.sub_zero, Nat.add_sub_cancel, Nat.pow_succ]
      omega
    | false =>
      simp only [Bool.false_eq_true, if_false, Bool.toNat_false, Nat.mul_zero, Nat.add_zero, Nat.add_sub_add_right, Nat.add_sub_cancel]
      rw [show n - (clzFrom x n + 1) = n - 1 - clzFrom x n by omega]
      exact ⟨hbelow, fun h => habove (by omega)⟩

/-- `CLZ` counts the zeros above the highest one bit. -/
theorem clzWord_bounds : (clzWord x).toNat ≤ 64 ∧ x.toNat < 2 ^ (64 - (clzWord x).toNat) ∧
    ((clzWord x).toNat < 64 → 2 ^ (63 - (clzWord x).toNat) ≤ x.toNat) := by
  have hle := clzFrom_le x 64
  have hval : (clzWord x).toNat = clzFrom x 64 := Nat.mod_eq_of_lt (by omega)
  have hbounds := clzFrom_bounds x 64
  rw [Nat.mod_eq_of_lt x.isLt] at hbounds
  rw [hval]
  exact ⟨hle, hbounds⟩

theorem foldl_toNat_eq_length_filter {α : Type} (p : α → Bool) : ∀ (l : List α) (t : Nat),
    l.foldl (fun t i => t + (p i).toNat) t = t + (l.filter p).length
  | [], t => rfl
  | i :: l, t => by
    rw [List.foldl_cons, foldl_toNat_eq_length_filter p l]
    cases h : p i
    · rw [List.filter_cons_of_neg (by simp [h])]; rfl
    · rw [List.filter_cons_of_pos h, List.length_cons, Bool.toNat_true]; omega

theorem popcWord_eq : popcWord x = BitVec.ofNat 64 ((List.range 64).filter x.getLsbD).length :=
  congrArg (BitVec.ofNat 64) ((foldl_toNat_eq_length_filter x.getLsbD _ 0).trans (Nat.zero_add _))


/-! ### Division (R142) -/

/-- What `DIV` and `REM` read a word as. -/
def numOf (u : Bool) (x : Word) : Int := if u then x.toNat else x.toInt

@[simp] theorem ofInt_numOf (u : Bool) : BitVec.ofInt 64 (numOf u x) = x := by
  cases u with
  | false => exact BitVec.ofInt_toInt
  | true => exact ofInt_toNat x

theorem numOf_inj {u : Bool} {x y : Word} (h : numOf u x = numOf u y) : x = y := by
  rw [← ofInt_numOf x u, h, ofInt_numOf]

theorem numOf_eq_zero_iff (u : Bool) : numOf u x = 0 ↔ x = 0 := by
  have hzero : numOf u 0 = 0 := by cases u <;> rfl
  exact ⟨fun h => numOf_inj (h.trans hzero.symm), fun h => h ▸ hzero⟩

/-- The one signed quotient that does not fit (R142). -/
theorem overflows_iff : (numOf false x = -2 ^ 63 ∧ numOf false y = -1) ↔ x = 0x8000000000000000 ∧ y = 0xFFFFFFFFFFFFFFFF := by
  have hmin : numOf false 0x8000000000000000 = -2 ^ 63 := by decide
  have hone : numOf false 0xFFFFFFFFFFFFFFFF = -1 := by decide
  rw [← hmin, ← hone]
  exact ⟨fun ⟨hx, hy⟩ => ⟨numOf_inj hx, numOf_inj hy⟩, fun ⟨hx, hy⟩ => ⟨hx ▸ rfl, hy ▸ rfl⟩⟩

theorem divWord_eq (u : Bool) : divWord u x y = BitVec.ofInt 64
    (if numOf u y = 0 then 2 ^ 64 - 1 else if u = false ∧ numOf u x = -2 ^ 63 ∧ numOf u y = -1 then -2 ^ 63
      else (numOf u x).tdiv (numOf u y)) := by
  unfold divWord
  by_cases hy : y = 0
  · rw [if_pos hy, if_pos ((numOf_eq_zero_iff y u).2 hy)]; rfl
  rw [if_neg hy, if_neg (mt (numOf_eq_zero_iff y u).1 hy)]
  cases u with
  | true =>
    rw [if_pos rfl, if_neg nofun]
    exact BitVec.udiv_def
  | false =>
    have hiff := overflows_iff x y
    by_cases ho : x = 0x8000000000000000 ∧ y = 0xFFFFFFFFFFFFFFFF
    · simp only [ho, and_self, if_true]; rfl
    · simp only [hiff, ho, and_false, if_false, Bool.false_eq_true]; rfl

theorem remWord_eq (u : Bool) : remWord u x y = BitVec.ofInt 64
    (if numOf u y = 0 then numOf u x else if u = false ∧ numOf u x = -2 ^ 63 ∧ numOf u y = -1 then 0
      else numOf u x - (numOf u x).tdiv (numOf u y) * numOf u y) := by
  unfold remWord
  rw [Int.mul_comm, ← Int.tmod_def]
  by_cases hy : y = 0
  · rw [if_pos hy, if_pos ((numOf_eq_zero_iff y u).2 hy), ofInt_numOf]
  rw [if_neg hy, if_neg (mt (numOf_eq_zero_iff y u).1 hy)]
  cases u with
  | true =>
    rw [if_pos rfl, if_neg nofun]
    exact (ofInt_toNat (x % y)).symm
  | false =>
    have hiff := overflows_iff x y
    by_cases ho : x = 0x8000000000000000 ∧ y = 0xFFFFFFFFFFFFFFFF
    · simp only [ho, and_self, if_true]; rfl
    · simp only [hiff, ho, and_false, if_false, Bool.false_eq_true]; rfl

/-! ### Fields (R143) -/

section
variable {lo w : Nat}

theorem getLsbD_onesWord (w : Nat) {i : Nat} (hi : i < 64) : (onesWord w).getLsbD i = decide (i < w) := by
  rw [onesWord, BitVec.getLsbD_ofNat, Nat.testBit_two_pow_sub_one]
  simp [hi]

/-- The field of `w` bits from bit `lo`. -/
theorem field_toNat (hw : w ≤ 64) : ((x >>> lo) &&& onesWord w).toNat = x.toNat / 2 ^ lo % 2 ^ w := by
  have hones : (onesWord w).toNat = 2 ^ w - 1 := by
    have := Nat.pow_le_pow_right (n := 2) (by decide) hw
    exact Nat.mod_eq_of_lt (by omega)
  rw [BitVec.toNat_and, hones, Nat.and_two_pow_sub_one_eq_mod, BitVec.toNat_ushiftRight, Nat.shiftRight_eq_div_pow]

/-- The top bit of a number of `n + 1` bits. -/
theorem testBit_top_iff {n e : Nat} (he : e < 2 ^ (n + 1)) : e.testBit n = true ↔ 2 ^ n ≤ e :=
  ⟨Nat.ge_two_pow_of_testBit, fun h => by
    have hquot : e / 2 ^ n = 1 := Nat.div_eq_of_lt_le (by omega) (by omega)
    rw [Nat.testBit_eq_decide_div_mod_eq, hquot]
    rfl⟩

/-- Ones above a number of `w` bits subtract 2^w. -/
theorem or_not_onesWord {v : Word} (hv : v &&& onesWord w = v) : v ||| ~~~onesWord w = BitVec.ofInt 64 ((v.toNat : Int) - 2 ^ w) := by
  have hdisjoint : v &&& ~~~onesWord w = 0#64 := by
    rw [← hv, BitVec.and_assoc, BitVec.and_not_self]; exact BitVec.and_zero
  have hpow : BitVec.ofInt 64 (2 ^ w) = onesWord w + 1#64 := by
    rw [onesWord, BitVec.ofNat_add_ofNat, Nat.sub_add_cancel (Nat.two_pow_pos w), ← BitVec.ofInt_natCast]
    norm_cast
  rw [← BitVec.add_eq_or_of_and_eq_zero _ _ hdisjoint, Int.sub_eq_add_neg, BitVec.ofInt_add, BitVec.ofInt_neg, ofInt_toNat, hpow,
    BitVec.not_eq_neg_add, BitVec.neg_add, BitVec.sub_eq_add_neg]

theorem extWord_eq (sx : Bool) (hw : 0 < w) (hlo : lo + w ≤ 64) : extWord sx x lo w =
    if sx = true ∧ 2 ^ (w - 1) ≤ x.toNat / 2 ^ lo % 2 ^ w then BitVec.ofInt 64 ((x.toNat / 2 ^ lo % 2 ^ w : Nat) - 2 ^ w)
      else BitVec.ofNat 64 (x.toNat / 2 ^ lo % 2 ^ w) := by
  have hfield := field_toNat x (lo := lo) (show w ≤ 64 by omega)
  have hmask : ((x >>> lo) &&& onesWord w) &&& onesWord w = (x >>> lo) &&& onesWord w := by
    rw [BitVec.and_assoc, BitVec.and_self]
  unfold extWord
  generalize (x >>> lo) &&& onesWord w = v at hfield hmask ⊢
  have htop : v.getLsbD (w - 1) = true ↔ 2 ^ (w - 1) ≤ v.toNat := by
    refine testBit_top_iff ?_
    rw [Nat.sub_add_cancel hw, hfield]
    exact Nat.mod_lt _ (Nat.two_pow_pos w)
  rw [← hfield, BitVec.ofNat_toNat, BitVec.setWidth_eq]
  simp only [Bool.and_eq_true, htop, or_not_onesWord hmask]

theorem getLsbD_insWord {i : Nat} (hi : i < 64) : (insWord y x lo w).getLsbD i =
    if lo ≤ i ∧ i < lo + w then x.getLsbD (i - lo) else y.getLsbD i := by
  have hmask : (onesWord w <<< lo).getLsbD i = decide (lo ≤ i ∧ i < lo + w) := by
    rw [BitVec.getLsbD_shiftLeft, getLsbD_onesWord w (by omega)]
    grind
  unfold insWord
  simp only [BitVec.getLsbD_or, BitVec.getLsbD_and, BitVec.getLsbD_not, hmask, BitVec.getLsbD_shiftLeft, hi]
  by_cases hin : lo ≤ i ∧ i < lo + w
  · have := Nat.not_lt.2 hin.1
    simp [hin, this]
  · simp [hin]

end

theorem shiftLeft_eq_ofInt (x : Word) (k : Nat) : x <<< k = BitVec.ofInt 64 (x.toNat * 2 ^ k) := by
  rw [shiftLeft_eq_ofNat, ← BitVec.ofInt_natCast]
  norm_cast

theorem leaWord_eq (k : BitVec 3) (disp : BitVec 19) :
    leaWord x y k disp = BitVec.ofInt 64 (x.toNat + y.toNat * 2 ^ k.toNat + disp.toInt) := by
  rw [BitVec.ofInt_add, BitVec.ofInt_add, ofInt_toNat, ← shiftLeft_eq_ofInt]
  rfl

/-- The hops of two dies: the distance of their rows and of their places in the row (R73). -/
theorem hopDist_eq (p q : Nat) :
    hopDist p q = ((p / 4 : Int) - (q / 4 : Int)).natAbs + ((p % 4 : Int) - (q % 4 : Int)).natAbs := by
  have hdist : ∀ m n : Nat, (if m ≤ n then n - m else m - n) = ((m : Int) - n).natAbs := fun m n => by split <;> omega
  rw [hopDist, hdist, hdist]
  rfl

end Sys2Proof.Laws
end

section
/-!
SUPPORT. How the scalar instructions issue (R139): what an instruction does whose body issues or waits, and the shapes with one result.
-/

namespace Sys2Proof.Laws
open Sys2Proof.Machine

variable {s t : State} {f : Frame} {fs : List Frame} {h : Hdr} {i : Instr} {regs : List Reg} {d : GReg}
  (q : Issues s f fs h false regs [])
include q

/-- An instruction whose body issues retires as the body says. -/
theorem completes_of_go {r : Ret} (hi : i.hdr? = some h) {body : Nat → Core → Frame → Act}
    (he : exec i s = .next (issue i regs [] false s body)) (hb : body s.cur (s.core s.cur) f = .go t r) : completes s i h t r :=
  he.trans (congrArg _ (issue_go q hi hb))

/-- An instruction whose body waits stays at the boundary before it. -/
theorem stops_of_wait (hi : i.hdr? = some h) {body : Nat → Core → Frame → Act}
    (he : exec i s = .next (issue i regs [] false s body)) (hb : body s.cur (s.core s.cur) f = .wait) :
    exec i s = .next (s.stopped s.cur) :=
  he.trans (congrArg _ (issue_wait q hi hb))

/-- An instruction with one result in a general register. -/
theorem intRes_results (hi : i.hdr? = some h) {lat : Nat} {v : Frame → Word} {w : Word} (he : exec i s = intRes i regs d lat v s)
    (hv : v f = w) : results s i h [gRes d w lat] := by
  subst hv
  exact completes_of_go q hi he rfl

/-- An instruction that the divider takes (R142). -/
theorem divIssue_takes {a b : GReg} {v : Word → Word → Word} {w : Word} (hi : i.hdr? = some h) (hregs : regs = [.g d, .g a, .g b])
    (he : exec i s = divIssue i d a b v s) (hv : v (f.getG a) (f.getG b) = w) (hfree : (s.core s.cur).div = none) :
    completes s i h (s.setCore s.cur { (s.core s.cur).setTop { f with await := f.await ++ awaitReg d } with
      div := some { frame := f.uid, dst := d, val := w, exc := 0 } }) Ret.plain := by
  subst hregs hv
  exact completes_of_go q hi he (if_neg (by simp [hfree]))

end Sys2Proof.Laws
end

section
namespace Sys2Proof.Laws
open Sys2Proof.Machine

variable {s : State} {f : Frame} {fs : List Frame} {h : Hdr} {d a b : GReg}

/-- Settles O1: each instruction issues with one result (`intRes_results`), whose value is the arithmetic of R141 by the lemma of its
function of words. -/
theorem integerResults : Obligations.IntegerResults := by
  unfold Obligations.IntegerResults
  intro s f fs h d a b c
  dsimp only
  refine ⟨fun q => ?three, fun q => ?four, fun q imm n => ?two, fun q j w => ?one⟩
  case three =>
    have hrot := rotateLeft_eq_ofNat (f.getG a) (cnt6 (f.getG b)) (cnt6_lt _)
    rw [← cnt6_eq]
    exact ⟨intRes_results q rfl rfl (BitVec.add_def _ _), intRes_results q rfl rfl (sub_eq_ofInt _ _),
      intRes_results q rfl rfl (mul_eq_ofNat _ _), intRes_results q rfl rfl (mulhS_eq _ _), intRes_results q rfl rfl (mulhU_eq _ _),
      intRes_results q rfl rfl rfl, intRes_results q rfl rfl rfl, intRes_results q rfl rfl rfl, intRes_results q rfl rfl rfl,
      intRes_results q rfl rfl (shiftLeft_eq_ofNat _ _), intRes_results q rfl rfl (ushiftRight_eq_ofNat _ _),
      intRes_results q rfl rfl (sshiftRight_eq_ofInt _ _), intRes_results q rfl rfl hrot,
      intRes_results q rfl rfl (minWord_signed _ _), intRes_results q rfl rfl (minWord_unsigned _ _),
      intRes_results q rfl rfl (maxWord_signed _ _), intRes_results q rfl rfl (maxWord_unsigned _ _),
      intRes_results q rfl rfl (addsWord_signed _ _), intRes_results q rfl rfl (addsWord_unsigned _ _)⟩
  case four => exact intRes_results q rfl rfl (mul_add_eq_ofNat _ _ _)
  case two =>
    exact ⟨intRes_results q rfl rfl (add_signExtend _ _), intRes_results q rfl rfl (shiftLeft_eq_ofNat _ _),
      intRes_results q rfl rfl (ushiftRight_eq_ofNat _ _), intRes_results q rfl rfl (sshiftRight_eq_ofInt _ _),
      intRes_results q rfl rfl (absWord_eq _), ⟨_, intRes_results q rfl rfl rfl, clzWord_bounds _⟩,
      intRes_results q rfl rfl (popcWord_eq _)⟩
  case one => exact ⟨intRes_results q rfl rfl rfl, intRes_results q rfl rfl rfl⟩

/-- Settles O2: a free divider takes the value (`divIssue_takes`), which is that of R142 (`divWord_eq`, `remWord_eq`); a busy one keeps the
instruction waiting (`stops_of_wait`). -/
theorem divideAndRemainder : Obligations.DivideAndRemainder := by
  unfold Obligations.DivideAndRemainder
  intro s f fs h u d a b q
  refine ⟨fun hfree => ⟨divIssue_takes q rfl rfl rfl (divWord_eq _ _ u) hfree, divIssue_takes q rfl rfl rfl (remWord_eq _ _ u) hfree⟩,
    fun hbusy => ?waits⟩
  have hsome := Option.isSome_iff_ne_none.2 hbusy
  exact ⟨stops_of_wait q rfl rfl (if_pos hsome), stops_of_wait q rfl rfl (if_pos hsome)⟩

/-- A virtual die of the context exists. -/
def hasDie (x : Ctx) (k : Nat) : Prop := k < 8 ∧ x.vdmask.getLsbD k = true

/-- `HOPS` of two virtual dies that exist. -/
theorem hops_results (q : Issues s f fs h false [.g d, .g a, .g b] []) (ha : hasDie (s.ctx f.task.ctx) (f.getG a).toNat)
    (hb : hasDie (s.ctx f.task.ctx) (f.getG b).toNat) :
    results s (.hops h d a b) h [gRes d (BitVec.ofNat 64 (hopDist (fget VDie.none (s.ctx f.task.ctx).vdies (f.getG a).toNat).pdie
      (fget VDie.none (s.ctx f.task.ctx).vdies (f.getG b).toNat).pdie)) 2] :=
  completes_of_go q rfl rfl (if_neg (by simp [ha.1, ha.2, hb.1, hb.2]))

/-- `HOPS` of a virtual die that does not exist traps (R144). -/
theorem hops_traps (q : Issues s f fs h false [.g d, .g a, .g b] [])
    (hno : ¬ (hasDie (s.ctx f.task.ctx) (f.getG a).toNat ∧ hasDie (s.ctx f.task.ctx) (f.getG b).toNat)) :
    exec (.hops h d a b) s = .next (s.trapped s.cur (.hops h d a b) 0x10 0) := by
  refine congrArg Host.Outcome.next (issue_trap q rfl (if_pos ?_))
  simp only [Bool.not_eq_true', ← Nat.not_lt, ← Bool.not_eq_true]
  rcases Classical.not_and_iff_not_or_not.1 hno with ha | hb
  · rcases Classical.not_and_iff_not_or_not.1 ha with hlt | hbit
    · exact .inl hlt
    · exact .inr (.inr (.inl hbit))
  · rcases Classical.not_and_iff_not_or_not.1 hb with hlt | hbit
    · exact .inr (.inl hlt)
    · exact .inr (.inr (.inr hbit))

/-- Settles O3: `EXT`, `INS`, `SEL` and `LEA` issue with one result (`extWord_eq`, `getLsbD_insWord`, `leaWord_eq`); `HOPS` with the
distance of its dies (`hopDist_eq`), or in a trap (`hops_traps`). -/
theorem fieldSelectAndAddress : Obligations.FieldSelectAndAddress := by
  unfold Obligations.FieldSelectAndAddress
  refine ⟨fun s f fs h d a b => ?fields, fun s f fs h d a b q => ?hops⟩
  case fields =>
    refine ⟨fun q sx lo wm1 hfit => ?field, fun c q => intRes_results q rfl rfl rfl,
      fun q k disp => intRes_results q rfl rfl (leaWord_eq _ _ k disp)⟩
    dsimp only
    have hext := extWord_eq (f.getG a) sx (Nat.succ_pos wm1.toNat) hfit
    exact ⟨intRes_results q rfl rfl hext, _, intRes_results q rfl rfl rfl, fun i hi => getLsbD_insWord _ _ hi⟩
  case hops =>
    refine ⟨fun ⟨ha, hb⟩ => ?_, fun hno => hops_traps q hno⟩
    rw [← hopDist_eq]
    exact hops_results q ha hb

end Sys2Proof.Laws
end

section
/-!
SUPPORT. Compares, predicates and transfers (R145–R149): the conditions on words, the predicates as a number, targets and links.
-/

namespace Sys2Proof.Laws
open Sys2Proof.Machine

/-! ### Conditions (R145) -/

variable (x y : Word)

/-- A word read as two's complement. -/
@[simp] theorem toS_toNat : toS 64 x.toNat = x.toInt := by
  rw [toS, Nat.mod_eq_of_lt x.isLt, BitVec.toInt_eq_toNat_cond]
  split <;> split <;> omega

/-- What a condition says of two words. -/
def CondSays (cond : Cond) (x y : Word) : Prop :=
  match cond with
  | .eq => x = y
  | .ne => x ≠ y
  | .lt => x.toInt < y.toInt
  | .le => x.toInt ≤ y.toInt
  | .gt => y.toInt < x.toInt
  | .ge => y.toInt ≤ x.toInt
  | .ltu => x.toNat < y.toNat
  | .leu => x.toNat ≤ y.toNat
  | .gtu => y.toNat < x.toNat
  | .geu => y.toNat ≤ x.toNat
  | .tst => x &&& y ≠ 0
  | .ntst => x &&& y = 0

theorem toNat_and_eq_zero_iff : x.toNat &&& y.toNat = 0 ↔ x &&& y = 0 := by
  rw [← BitVec.toNat_and]
  exact ⟨fun h => BitVec.eq_of_toNat_eq h, fun h => congrArg BitVec.toNat h⟩

theorem condHolds_iff (cond : Cond) : condHolds 64 cond x.toNat y.toNat = true ↔ CondSays cond x y := by
  cases cond with
  | eq => exact beq_iff_eq.trans BitVec.toNat_inj
  | ne => exact bne_iff_ne.trans (not_congr BitVec.toNat_inj)
  | tst => exact bne_iff_ne.trans (not_congr (toNat_and_eq_zero_iff x y))
  | ntst => exact beq_iff_eq.trans (toNat_and_eq_zero_iff x y)
  | lt | le | gt | ge => simp only [condHolds, toS_toNat, decide_eq_true_eq, CondSays]
  | ltu | leu | gtu | geu => exact decide_eq_true_iff

/-! ### Predicates (R147) -/

/-- Eight bits with bit 0 set are the sum of the powers of two of those that are set: over the 256 values of the bits. -/
theorem predBits_eq : ∀ p : BitVec 8, (p ||| 1).setWidth 64 = BitVec.ofNat 64
    (([0, 1, 2, 3, 4, 5, 6, 7] : List PReg).foldl (fun t i => t + if (i == 0 || p.getLsbD i.toNat) = true then 2 ^ i.toNat else 0) 0) := by
  decide +kernel

theorem predWord_eq (f : Frame) : f.predWord = BitVec.ofNat 64
    (([0, 1, 2, 3, 4, 5, 6, 7] : List PReg).foldl (fun t i => t + if f.getP i then 2 ^ i.toNat else 0) 0) := predBits_eq f.p

/-! ### Targets and links (R114, R148) -/

theorem target_eq {n : Nat} (f : Frame) (off : BitVec n) : f.target off = BitVec.ofInt 64 (f.pc.toNat + 4 * off.toInt) := by
  rw [Frame.target, BitVec.shiftLeft_eq_mul_twoPow, BitVec.ofInt_add, BitVec.ofInt_mul, ofInt_toNat, BitVec.mul_comm]
  rfl

/-- The link of an instruction of `len` bytes. -/
theorem link_eq (f : Frame) {i : Instr} {len : Nat} (hlen : i.size = len) : f.link i = BitVec.ofNat 64 (f.pc.toNat + len) := by
  rw [BitVec.ofNat_add, BitVec.ofNat_toNat, BitVec.setWidth_eq, Frame.link, hlen]

end Sys2Proof.Laws
end

section
namespace Sys2Proof.Laws
open Sys2Proof.Machine

/-- Settles O4: `CMP` and `CMPI` write the condition and its complement (`condHolds_iff`), each combine suffix in its own way; the others
issue with their predicates, `PGET` with their number (`predWord_eq`). -/
theorem comparesAndPredicates : Obligations.ComparesAndPredicates := by
  unfold Obligations.ComparesAndPredicates
  refine ⟨fun s f fs h cond comb d c a b imm =>
      ⟨fun q => ⟨_, condHolds_iff _ _ cond, ?cmp⟩, fun q => ⟨_, condHolds_iff _ _ cond, ?cmpi⟩⟩,
    fun s f fs h n v d a b g bit mask => ?preds⟩
  case cmp => cases comb with | set | and | or => exact completes_of_go q rfl rfl rfl
  case cmpi => cases comb with | set | and | or => exact completes_of_go q rfl rfl rfl
  case preds =>
    have hneg : (f.getP b != n) = if n then !f.getP b else f.getP b := by cases n <;> simp
    dsimp only
    rw [← hneg]
    exact ⟨fun q => ⟨completes_of_go q rfl rfl rfl, completes_of_go q rfl rfl rfl, completes_of_go q rfl rfl rfl⟩,
      fun q => completes_of_go q rfl rfl rfl, fun q => completes_of_go q rfl rfl rfl, fun q => completes_of_go q rfl rfl rfl,
      fun q => intRes_results q rfl rfl (predWord_eq f), fun q => completes_of_go q rfl rfl rfl⟩

/-- Settles O5: each transfer is taken to its target with its link (`target_eq`, `link_eq`); `LOOP` writes its count and is taken while
that is not zero (R149). -/
theorem controlTransfers : Obligations.ControlTransfers := by
  unfold Obligations.ControlTransfers
  refine ⟨fun s f fs h d a off far => ?transfers, fun s f fs h len rest ext q => completes_of_go q rfl rfl rfl⟩
  have hcall : f.link (.call h d off) = _ := link_eq f (len := 8) rfl
  have hcallFar : f.link (.callFar h d far) = _ := link_eq f (len := 12) rfl
  have hcount : f.getG d - 1 = BitVec.ofInt 64 ((f.getG d).toNat - 1) := sub_eq_ofInt _ 1
  dsimp only
  rw [← target_eq, ← target_eq, ← hcount, ← hcall, ← hcallFar]
  exact ⟨fun q => ⟨completes_of_go q rfl rfl rfl, completes_of_go q rfl rfl rfl⟩,
    fun q => ⟨completes_of_go q rfl rfl rfl, completes_of_go q rfl rfl rfl⟩,
    fun q => ⟨completes_of_go q rfl rfl rfl, completes_of_go q rfl rfl rfl,
      fun hv => completes_of_go q rfl rfl (if_neg hv), fun hv => completes_of_go q rfl rfl (if_pos hv)⟩,
    fun q => completes_of_go q rfl rfl rfl⟩

end Sys2Proof.Laws
end

section
/-!
SUPPORT. The sign bit of a pattern (R186), and the units that deliver a result later (R134, R142, R151).
-/

namespace Sys2Proof.Laws
open Sys2Proof.Machine

/-! ### The sign bit (R154) -/

variable {n x : Nat}

/-- The top bit of a number of `n + 1` bits splits off. -/
theorem topBit_cases (hx : x < 2 ^ (n + 1)) : (x / 2 ^ n = 0 ∧ x % 2 ^ n = x) ∨ (x / 2 ^ n = 1 ∧ x % 2 ^ n = x - 2 ^ n) := by
  rcases Nat.lt_or_ge x (2 ^ n) with hlow | hhigh
  · exact .inl ⟨Nat.div_eq_of_lt hlow, Nat.mod_eq_of_lt hlow⟩
  · have hrest : x - 2 ^ n < 2 ^ n := by omega
    exact .inr ⟨Nat.div_eq_of_lt_le (by omega) (by omega), by rw [Nat.mod_eq_sub_mod hhigh, Nat.mod_eq_of_lt hrest]⟩

/-- Flipping the top bit adds or subtracts its power of two. -/
theorem xor_topBit (hx : x < 2 ^ (n + 1)) : x ^^^ 2 ^ n = if x / 2 ^ n % 2 = 1 then x - 2 ^ n else x + 2 ^ n := by
  have hlow : (x ^^^ 2 ^ n) % 2 ^ n = x % 2 ^ n := by rw [Nat.xor_mod_two_pow, Nat.mod_self, Nat.xor_zero]
  have hhigh : (x ^^^ 2 ^ n) / 2 ^ n = x / 2 ^ n ^^^ 1 := by
    rw [Nat.xor_div_two_pow, Nat.div_self (Nat.two_pow_pos n)]
  rw [← Nat.div_add_mod (x ^^^ 2 ^ n) (2 ^ n), hlow, hhigh]
  rcases topBit_cases hx with ⟨h0, hr⟩ | ⟨h1, hr⟩
  · rw [h0, hr]; simp [Nat.add_comm]
  · rw [h1, hr]; simp

theorem width_pos (fm : Fmt) : 0 < fm.width := by cases fm <;> decide

section
variable {fm : Fmt} (hx : x < 2 ^ fm.width)
include hx

theorem fAbs_eq : fAbs fm x = x % 2 ^ (fm.width - 1) := by
  rw [← Nat.sub_add_cancel (width_pos fm)] at hx
  unfold fAbs signBit
  rcases topBit_cases hx with ⟨h0, hr⟩ | ⟨h1, hr⟩
  · rw [h0, hr]; rfl
  · rw [h1, hr]; rfl

theorem fNeg_eq : fNeg fm x = x ^^^ 2 ^ (fm.width - 1) := by
  rw [← Nat.sub_add_cancel (width_pos fm)] at hx
  exact (xor_topBit hx).symm

end

/-! ### Results of the slow units -/

section
variable {s : State} {n : Nat} {q : UnitOp} {c : Core} {f : Frame}

/-- A variable-latency result for a general register of a frame on the stack. -/
theorem deliver_g {uid : Nat} (hf : c.frame? uid = some f) (d : GReg) (v : Word) :
    c.deliver uid (.g d) (v.setWidth 256) = c.onFrame uid fun _ => withResult f d v := by
  have hv : (v.setWidth 256).setWidth 64 = v := by simp
  unfold Core.deliver
  rw [hf]
  simp only [Core.putReg, hv, setG_await, withResult]

/-- A divider that completes is free, and the frame has the result. -/
theorem divideComplete_delivers (hq : (s.core n).div = some q) (hf : (s.core n).frame? q.frame = some f) :
    exec (.divideComplete n) s =
      .next (s.setCore n ({ s.core n with div := none }.onFrame q.frame fun _ => withResult f q.dst q.val)) := by
  change execDivideComplete n s = _
  unfold execDivideComplete
  simp only [hq]
  exact congrArg (fun c => Host.Outcome.next (s.setCore n c)) (deliver_g (c := { s.core n with div := none }) hf q.dst q.val)

/-- So is the unit of `FDIV` and `FSQRT`. -/
theorem fpDivideUnitComplete_delivers (hq : (s.core n).fdiv = some q) (hf : (s.core n).frame? q.frame = some f) :
    exec (.fpDivideUnitComplete n) s =
      .next (s.setCore n ({ s.core n with fdiv := none }.onFrame q.frame fun _ => withResult f q.dst q.val)) := by
  change execFpDivideUnitComplete n s = _
  unfold execFpDivideUnitComplete
  simp only [hq]
  exact congrArg (fun c => Host.Outcome.next (s.setCore n c)) (deliver_g (c := { s.core n with fdiv := none }) hf q.dst q.val)

/-- What a frame of the core `c` holds once it has the result of a unit. -/
theorem frame_withResult (hf : c.frame? q.frame = some f) {c' : Core} (hc : c' = c.onFrame q.frame fun _ => withResult f q.dst q.val) :
    ∃ g, c'.frame? q.frame = some g ∧ (q.dst ≠ 0 → g.getG q.dst = q.val) ∧ (∀ k, k ≠ q.dst → g.getG k = f.getG k) ∧
      g.await = f.await.erase (.g q.dst) ∧ g.p = f.p ∧ g.pc = f.pc :=
  ⟨_, hc ▸ frame?_onFrame hf ((withResult_uid _).trans (uid_of_frame? hf)), fun hd => getG_withResult hd _,
    fun _ hk => getG_withResult_ne hk _, withResult_await _, withResult_p _, withResult_pc _⟩

end

end Sys2Proof.Laws
end

section
namespace Sys2Proof.Laws
open Sys2Proof.Machine

/-- Settles O32: each instruction issues with its result and its exceptions (`completes_of_go`); `FABS` and `FNEG` change the sign bit alone
(`fAbs_eq`, `fNeg_eq`). -/
theorem floatResults : Obligations.FloatResults := by
  unfold Obligations.FloatResults
  intro s f fs h fm dst src r d a b c pd cond imm
  dsimp only
  have hlow : (f.getG a).toNat % 2 ^ fm.width < 2 ^ fm.width := Nat.mod_lt _ (Nat.two_pow_pos _)
  rw [← fAbs_eq hlow, ← fNeg_eq hlow]
  refine fun _ => ⟨fun q => ?two, fun q => ?three, fun q => ?one, fun q => ?immediate, fun q => ?compare⟩
  case two => and_intros <;> exact completes_of_go q rfl rfl rfl
  case three => exact completes_of_go q rfl rfl rfl
  case one => and_intros <;> exact completes_of_go q rfl rfl rfl
  case immediate => exact completes_of_go q rfl rfl rfl
  case compare => exact completes_of_go q rfl rfl rfl

/-- Settles O34: a free unit takes the operation (`completes_of_go`), a busy one keeps it waiting (`stops_of_wait`); a unit that completes
is free again (`divideComplete_delivers`, `fpDivideUnitComplete_delivers`), and the frame has its result (`frame_withResult`). -/
theorem slowUnitsDeliver : Obligations.SlowUnitsDeliver := by
  unfold Obligations.SlowUnitsDeliver
  refine ⟨fun s f fs h fm r d a b => ?takes, fun s n q f hf => ?delivers⟩
  case takes =>
    refine ⟨fun q => ⟨fun hfree => ?divides, fun hbusy => ?divideWaits⟩, fun q => ⟨fun hfree => ?roots, fun hbusy => ?rootWaits⟩⟩
    case divides => exact completes_of_go q rfl rfl (if_neg (by simp [hfree]))
    case divideWaits => exact stops_of_wait q rfl rfl (if_pos (Option.isSome_iff_ne_none.2 hbusy))
    case roots => exact completes_of_go q rfl rfl (if_neg (by simp [hfree]))
    case rootWaits => exact stops_of_wait q rfl rfl (if_pos (Option.isSome_iff_ne_none.2 hbusy))
  case delivers =>
    refine ⟨fun hq => ⟨_, divideComplete_delivers hq hf, ?div⟩, fun hq => ⟨_, fpDivideUnitComplete_delivers hq hf, ?fdiv⟩⟩
    case div =>
      have hcore := core_setCore_same s n ({ s.core n with div := none }.onFrame q.frame fun _ => withResult f q.dst q.val)
      obtain ⟨g, hg, hd, hk, ha, hp, hpc⟩ := frame_withResult (c := { s.core n with div := none }) hf hcore
      exact ⟨congrArg Core.div hcore, g, hg, hd, hk, ha, hp, hpc, rfl⟩
    case fdiv =>
      have hcore := core_setCore_same s n ({ s.core n with fdiv := none }.onFrame q.frame fun _ => withResult f q.dst q.val)
      obtain ⟨g, hg, hd, hk, ha, hp, hpc⟩ := frame_withResult (c := { s.core n with fdiv := none }) hf hcore
      exact ⟨congrArg Core.fdiv hcore, g, hg, hd, hk, ha, hp, hpc, rfl⟩

end Sys2Proof.Laws
end

section
namespace Sys2Proof.Laws

/-- Settles O44: the words are closed terms, which the decoder takes apart. -/
theorem decodesSpecWords : Obligations.DecodesSpecWords := by
  unfold Obligations.DecodesSpecWords
  decide +kernel

end Sys2Proof.Laws
end

section
/-!
SUPPORT. What the privileged instructions act on: the overflow table (R197), what is staged (R183, R184), the memory and the TLBs at a
harvest and an invalidation (R171).
-/

namespace Sys2Proof.Laws
open Sys2Proof.Machine

/-! ### Tables of the context -/

theorem ovfOk_iff (v : Word) : ovfOk v = true ↔ v.toNat < 1024 ∧ ∀ j, j < 5 → v.extractLsb' (2 * j) 2 ≠ 3 := by
  simp only [ovfOk, Bool.and_eq_true, decide_eq_true_eq, List.all_eq_true, List.mem_range, bne_iff_ne]
  rfl

theorem heapRange_iff {x : Ctx} {a n : Nat} : x.heapRange a n = true ↔ x.heapbase.toNat ≤ a ∧ a + n ≤ x.heaplimit.toNat := by
  simp [Ctx.heapRange]

/-- Of values written into a map in turn, a key holds the last one for it, or what it held before. -/
theorem fget_foldl_fset {α : Type} [DecidableEq α] (d : α) (k : Nat) : ∀ (l : List (Nat × α)) (m : FMap α),
    fget d (l.foldl (fun m e => fset d m e.1 e.2) m) k = ((l.reverse.find? fun e => e.1 == k).map fun e => e.2).getD (fget d m k)
  | [], m => rfl
  | e :: l, m => by
    rw [List.foldl_cons, fget_foldl_fset d k l, List.reverse_cons, List.find?_append, fget_fset]
    cases l.reverse.find? fun e => e.1 == k with
    | some v => rfl
    | none =>
      by_cases hk : e.1 = k
      · simp [hk]
      · simp [hk, Ne.symm hk]

/-! ### Translations -/

theorem dirtyEntry_tags (m : Memory) (root : Nat) (e : Tlb) : (m.dirtyEntry root e).tags = m.tags := by
  unfold Memory.dirtyEntry
  split
  · split <;> rfl
  · rfl
  · rfl

theorem writeBack_tags (m : Memory) (root : Nat → Nat) (l : List Tlb) (p : Tlb → Bool) : (m.writeBack root l p).tags = m.tags :=
  List.foldlRecOn (motive := fun k : Memory => k.tags = m.tags) l _ rfl fun k hk e _ => by
    split
    · exact (dirtyEntry_tags ..).trans hk
    · exact hk

/-- A harvest writes leaf entries in place: no line of main memory gets another tag. -/
theorem harvest_tags (s : State) (p : Tlb → Bool) : (s.harvest p).mem.tags = s.mem.tags := by
  have back : ∀ {α : Type} (tlb : α → List Tlb) (root : Nat → Nat) (l : List α) (m : Memory),
      (l.foldl (fun m e => m.writeBack root (tlb e) p) m).tags = m.tags := fun tlb root l m =>
    List.foldlRecOn (motive := fun k : Memory => k.tags = m.tags) l _ rfl fun k hk e _ => (writeBack_tags ..).trans hk
  exact (back (fun e : Nat × Die => e.2.tlb) _ _ _).trans (back (fun e : Nat × Core => e.2.tlb) _ _ _)

/-- Where the choice of entries does not look at their dirty state, the entries that stay are as they were. -/
theorem filter_map_harvested {p : Tlb → Bool} (hp : ∀ e, p (harvested p e) = p e) (l : List Tlb) :
    ((l.map (harvested p)).filter fun e => !p e) = l.filter fun e => !p e := by
  have hkeep : ∀ e ∈ l.filter (fun e => !p e), harvested p e = e := fun e he => if_neg (by simpa using (List.mem_filter.1 he).2)
  rw [List.filter_map]
  simp only [Function.comp_def, hp]
  exact (List.map_congr_left hkeep).trans (List.map_id _)

theorem harvested_ctx (p : Tlb → Bool) (e : Tlb) : (harvested p e).ctx = e.ctx := by
  unfold harvested
  split <;> rfl

end Sys2Proof.Laws
end

section
namespace Sys2Proof.Laws
open Sys2Proof.Machine

/-! ## Privileged instructions (R171, R174, R183, R184, R197) -/

variable {s : State} {f : Frame} {fs : List Frame} {h : Hdr} {k : BitVec 4} {a : GReg}

/-! ### `GENSET` (R175, R183) -/

/-- The descriptor of a `GENSET` is an aligned line of the heap (R175). -/
def DescriptorInHeap (x : Ctx) (v : Word) : Prop := v.toNat % 64 = 0 ∧ x.heapbase.toNat ≤ v.toNat ∧ v.toNat + 64 ≤ x.heaplimit.toNat

theorem not_descriptorInHeap_iff {x : Ctx} {v : Word} :
    ¬ DescriptorInHeap x v ↔ v.toNat % 64 ≠ 0 ∨ (!x.heapRange v.toNat 64) = true := by
  rw [DescriptorInHeap, Classical.not_and_iff_not_or_not, ← heapRange_iff, Bool.not_eq_true, Bool.not_eq_true']

section
variable (q : Issues s f fs h true [.g a] [])
include q

theorem genset_traps_outside (hout : ¬ DescriptorInHeap (s.ctx f.task.ctx) (f.getG a)) :
    exec (.genset h k a) s = .next (s.trapped s.cur (.genset h k a) 0x13 0) :=
  congrArg Host.Outcome.next (issue_trap q rfl (if_pos (not_descriptorInHeap_iff.1 hout)))

variable (hin : DescriptorInHeap (s.ctx f.task.ctx) (f.getG a)) {bs : List Byte} {s1 : State}
  (hread : s.readParts s.cur [((f.getG a).toNat, 64)] = .ok bs s1)
include hin hread

theorem genset_stages_plain (hvalid : (parseWin bs).valid = true) (hplain : (parseWin bs).table = none) :
    completes s (.genset h k a) h (s1.setCtx f.task.ctx ((s1.ctx f.task.ctx).stageWin k.toNat (parseWin bs))) Ret.plain := by
  refine congrArg Host.Outcome.next (issue_go q rfl ?_)
  rw [if_neg (mt not_descriptorInHeap_iff.2 (not_not_intro hin)), hread]
  simp only [Bytes.act, hplain, hvalid, if_true]

theorem genset_traps_invalid (hinvalid : (parseWin bs).valid = false) :
    exec (.genset h k a) s = .next (s.trapped s.cur (.genset h k a) 0x13 0) := by
  have hplain : (parseWin bs).table = none := if_neg (by simp [hinvalid])
  refine congrArg Host.Outcome.next (issue_trap q rfl ?_)
  rw [if_neg (mt not_descriptorInHeap_iff.2 (not_not_intro hin)), hread]
  simp only [Bytes.act, hplain, hinvalid, Bool.false_eq_true, if_false]

theorem genset_stages_table {t : Nat × Nat} {fq : List Byte} {s2 : State} (htable : (parseWin bs).table = some t)
    (hheap : (s.ctx f.task.ctx).heapRange t.1 t.2 = true) (hfreq : s1.readParts s.cur (lineParts 40 t.1 t.2) = .ok fq s2)
    (hvalid : ((parseWin bs).withTable fq).valid = true) :
    completes s (.genset h k a) h (s2.setCtx f.task.ctx ((s2.ctx f.task.ctx).stageWin k.toNat ((parseWin bs).withTable fq))) Ret.plain := by
  refine congrArg Host.Outcome.next (issue_go q rfl ?_)
  rw [if_neg (mt not_descriptorInHeap_iff.2 (not_not_intro hin)), hread]
  simp only [Bytes.act, htable, hheap, Bool.not_true, Bool.false_eq_true, if_false, hfreq, hvalid, if_true]

end

/-! ### Invalidations (R171, R174) -/

/-- An invalidation whose pages no command of the context holds. -/
theorem tlbInvalidate_completes {i : Instr} {regs : List Reg} (q : Issues s f fs h true regs []) (hi : i.hdr? = some h)
    {page : Frame → Nat → Bool} (he : exec i s = tlbInvalidate i regs page s) (hfree : s.pageHeld f.task.ctx (page f) = false) :
    completes s i h (s.invalidate fun e => e.ctx == f.task.ctx && page f e.page) Ret.plain :=
  he.trans (congrArg Host.Outcome.next (issue_go q hi (if_neg (Bool.eq_false_iff.1 hfree))))

/-- Settles O49: each instruction is issued and its own effect is read off: a table of the context (`ovfOk_iff`), what is staged (the lemmas
of `GENSET`) and made current (`fget_foldl_fset`), the TLBs after a harvest (`harvest_core`) and an invalidation (`invalidate_core`). -/
theorem privilegedInstructions : Obligations.PrivilegedInstructions := by
  unfold Obligations.PrivilegedInstructions
  intro s f fs h k a b
  dsimp only
  refine ⟨fun q => ⟨⟨fun hok => ?table, fun hbad => ?noTable⟩, ⟨fun hout => genset_traps_outside q hout, fun bs s1 hin hread =>
      ⟨fun hvalid hplain => genset_stages_plain q hin hread hvalid hplain, fun hinvalid => genset_traps_invalid q hin hread hinvalid,
        fun t fq s2 htable hheap hfreq hvalid => genset_stages_table q hin hread htable hheap hfreq hvalid⟩⟩, fun hfree => ?page⟩,
    fun q => ?keys, fun q => ⟨?harvest, fun hfree => ?all⟩, fun q => ?current⟩
  case table => exact congrArg Host.Outcome.next (issue_go q rfl (if_pos ((ovfOk_iff _).2 hok)))
  case noTable => exact congrArg Host.Outcome.next (issue_trap q rfl (if_neg (mt (ovfOk_iff _).1 hbad)))
  case page => exact ⟨_, tlbInvalidate_completes q rfl rfl hfree, fun m => congrArg Core.tlb (invalidate_core ..)⟩
  case keys => exact congrArg Host.Outcome.next (issue_go q rfl rfl)
  case harvest =>
    exact ⟨_, congrArg Host.Outcome.next (issue_go q rfl rfl), harvest_tags .., fun m => congrArg Core.tlb (harvest_core ..)⟩
  case all =>
    refine ⟨_, tlbInvalidate_completes q rfl rfl hfree, fun m => (congrArg Core.tlb (invalidate_core ..)).trans ?_⟩
    simp only [Bool.and_true]
    exact filter_map_harvested (fun e => congrArg (· == f.task.ctx) (harvested_ctx ..)) _
  case current =>
    exact ⟨_, congrArg Host.Outcome.next (issue_go q rfl rfl), rfl, rfl, fun j => fget_foldl_fset .., fun j => fget_foldl_fset ..⟩

end Sys2Proof.Laws
end

section
/-!
SUPPORT. The fields of a finite pattern (R186–R188), and what rounding does to a magnitude on the grid of its format (R192).
-/

namespace Sys2Proof.Laws
open Sys2Proof.Machine

/-! ### Rounding on the grid (R192) -/

variable {f : Fmt} {n : Bool} {m x pat : Nat} {e : Int}

/-- A magnitude whose last bit has the weight that its exponent calls for is not rounded. -/
theorem roundMag_of_unit {p : Nat} {lo : Int} (hunit : max (expOf m e) lo - p = e) (r : Rnd) (up : Bool) :
    roundMag p (some lo) r n m e false up = (m, e, true) := by
  have hq : (if expOf m e < lo then lo else expOf m e) - (p : Int) = e := by split <;> omega
  have hscale : scaleTo m e e false = (m, .exact) := by simp [scaleTo]
  simp [roundMag, hq, hscale, roundsUp]

/-- `m × 2^e` is a value of the format, and `pat` is its pattern without the sign. -/
structure OnGrid (f : Fmt) (m : Nat) (e : Int) (pat : Nat) : Prop where
  unit : max (expOf m e) (expMin f) - fmtP f = e
  pattern : (e + fmtP f - expMin f).toNat * 2 ^ fmtP f + m = pat
  finite : pat ≤ maxFin f

theorem OnGrid.pattern_zero (h : OnGrid f 0 e pat) (hp : 0 < fmtP f) : pat = 0 := by
  obtain ⟨hunit, hpat, -⟩ := h
  have hexp : expOf 0 e = e := by simp [expOf, ilog2]
  have he : (e + fmtP f - expMin f).toNat = 0 := by omega
  rw [← hpat, he, Nat.zero_mul]

/-- Such a value rounds to its pattern and raises nothing. -/
theorem OnGrid.roundTo_eq (h : OnGrid f m e pat) (hp : 0 < fmtP f) (r : Rnd) (t : Option Word) (draw : Nat) (n : Bool) :
    roundTo f r t draw n m e false = ((if n then signBit f else 0) + pat, 0) := by
  unfold roundTo
  by_cases hm : m = 0
  · subst hm
    simp [h.pattern_zero hp, excNone]
  · have hfinite : ¬ maxFin f < pat := Nat.not_lt.2 h.finite
    simp [hm, roundMag_of_unit h.unit, h.pattern, hfinite, excNone]

/-! ### Finite patterns (R186–R188) -/

/-- The exponent field of a pattern. -/
def expField (f : Fmt) (x : Nat) : Nat := x / 2 ^ fmtP f % 2 ^ fmtE f
/-- Its mantissa field. -/
def mantField (f : Fmt) (x : Nat) : Nat := x % 2 ^ fmtP f

theorem mantField_lt (f : Fmt) (x : Nat) : mantField f x < 2 ^ fmtP f := Nat.mod_lt _ (Nat.two_pow_pos _)

/-- The value of fields that are not those of an infinity or a NaN: zero or subnormal, or normal. -/
def finiteVal (f : Fmt) (x : Nat) : FVal :=
  if expField f x = 0 then .fin (x / signBit f % 2 == 1) (mantField f x) (expMin f - fmtP f)
  else .fin (x / signBit f % 2 == 1) (2 ^ fmtP f + mantField f x) ((expField f x : Int) - fmtBias f - fmtP f)

/-- `unpack` by the fields of the pattern. -/
theorem unpack_eq (f : Fmt) (x : Nat) :
    unpack f x =
      if f = .e4m3 then if expField f x = 15 ∧ mantField f x = 7 then .nan false else finiteVal f x
      else if expField f x = 2 ^ fmtE f - 1 then
        if mantField f x = 0 then .inf (x / signBit f % 2 == 1) else .nan (mantField f x < 2 ^ (fmtP f - 1))
      else finiteVal f x := rfl

/-- A finite pattern does not have the fields of an infinity or a NaN. -/
theorem finiteVal_of_unpack (h : unpack f x = .fin n m e) :
    finiteVal f x = .fin n m e ∧
      (if f = .e4m3 then ¬ (expField f x = 15 ∧ mantField f x = 7) else expField f x ≠ 2 ^ fmtE f - 1) := by
  rw [unpack_eq] at h
  by_cases h4 : f = .e4m3
  · rw [if_pos h4] at h ⊢
    by_cases hnan : expField f x = 15 ∧ mantField f x = 7
    · rw [if_pos hnan] at h
      cases h
    · rw [if_neg hnan] at h
      exact ⟨h, hnan⟩
  · rw [if_neg h4] at h ⊢
    by_cases htop : expField f x = 2 ^ fmtE f - 1
    · rw [if_pos htop] at h
      by_cases hinf : mantField f x = 0
      · rw [if_pos hinf] at h
        cases h
      · rw [if_neg hinf] at h
        cases h
    · rw [if_neg htop] at h
      exact ⟨h, htop⟩

theorem finiteVal_cases (h : finiteVal f x = .fin n m e) :
    (x / signBit f % 2 == 1) = n ∧
      (expField f x = 0 ∧ m = mantField f x ∧ e = expMin f - fmtP f ∨
        0 < expField f x ∧ m = 2 ^ fmtP f + mantField f x ∧ e = (expField f x : Int) - fmtBias f - fmtP f) := by
  unfold finiteVal at h
  by_cases h0 : expField f x = 0
  · rw [if_pos h0] at h
    obtain ⟨hn, hm, he⟩ := FVal.fin.inj h
    exact ⟨hn, .inl ⟨h0, hm.symm, he.symm⟩⟩
  · rw [if_neg h0] at h
    obtain ⟨hn, hm, he⟩ := FVal.fin.inj h
    exact ⟨hn, .inr ⟨Nat.pos_of_ne_zero h0, hm.symm, he.symm⟩⟩

/-- The patterns above that of the largest finite value are the infinity and the NaNs. -/
theorem fields_le_maxFin (h : unpack f x = .fin n m e) : expField f x * 2 ^ fmtP f + mantField f x ≤ maxFin f := by
  obtain ⟨-, htop⟩ := finiteVal_of_unpack h
  have hexp : expField f x < 2 ^ fmtE f := Nat.mod_lt _ (Nat.two_pow_pos _)
  have hmant := mantField_lt f x
  by_cases h4 : f = .e4m3
  · subst h4
    rw [if_pos rfl] at htop
    change _ < 2 ^ 4 at hexp
    change _ < 2 ^ 3 at hmant
    change _ * 2 ^ 3 + _ ≤ 0x7E
    omega
  · rw [if_neg h4] at htop
    have hmax : maxFin f = (2 ^ fmtE f - 1) * 2 ^ fmtP f - 1 := by
      unfold maxFin
      split
      · exact absurd rfl h4
      · rfl
    have hnext : (expField f x + 1) * 2 ^ fmtP f ≤ (2 ^ fmtE f - 1) * 2 ^ fmtP f := Nat.mul_le_mul_right _ (by omega)
    rw [Nat.succ_mul] at hnext
    omega

theorem log2_mantField_lt (hp : 0 < fmtP f) (x : Nat) : Nat.log2 (mantField f x) < fmtP f := by
  by_cases h0 : mantField f x = 0
  · rw [h0]; exact hp
  · exact (Nat.log2_lt h0).2 (mantField_lt f x)

theorem log2_implicitBit (f : Fmt) (x : Nat) : Nat.log2 (2 ^ fmtP f + mantField f x) = fmtP f := by
  have hmant := mantField_lt f x
  exact (Nat.log2_eq_iff (by omega)).2 ⟨by omega, by rw [Nat.pow_succ]; omega⟩

/-- A finite pattern stands for a value on the grid of its format. -/
theorem onGrid_of_unpack (hp : 0 < fmtP f) (h : unpack f x = .fin n m e) : OnGrid f m e (expField f x * 2 ^ fmtP f + mantField f x) := by
  obtain ⟨-, ⟨h0, rfl, rfl⟩ | ⟨hpos, rfl, rfl⟩⟩ := finiteVal_cases (finiteVal_of_unpack h).1
  · have hlog := log2_mantField_lt hp x
    refine ⟨?_, ?_, fields_le_maxFin h⟩
    · simp only [expOf, ilog2]; omega
    · simp [h0]
  · refine ⟨?_, ?_, fields_le_maxFin h⟩
    · simp only [expOf, ilog2, log2_implicitBit, expMin]; omega
    · have hlay : (((expField f x : Int) - fmtBias f - fmtP f) + fmtP f - expMin f).toNat = expField f x - 1 := by
        simp only [expMin]; omega
      rw [hlay, ← Nat.add_assoc, ← Nat.succ_mul, Nat.succ_eq_add_one, Nat.sub_add_cancel hpos]

theorem fmtP_bounds (hf : f ∈ [Fmt.f32, .bf16, .f16, .e4m3, .e5m2]) : 0 < fmtP f ∧ fmtP f < f.width := by
  revert f
  decide

/-- The sign splits off a pattern, and its fields make up the rest. -/
theorem sign_add_fields (hp : fmtP f < f.width) (hx : x < 2 ^ f.width) :
    (if x / signBit f % 2 == 1 then signBit f else 0) + (expField f x * 2 ^ fmtP f + mantField f x) = x := by
  have hrest : expField f x * 2 ^ fmtP f + mantField f x = x % signBit f := by
    have hbits : f.width - 1 = fmtP f + fmtE f := by unfold fmtE; omega
    rw [signBit, hbits, Nat.pow_add, Nat.mod_mul, Nat.mul_comm, Nat.add_comm, expField, mantField]
  rw [← Nat.sub_add_cancel (width_pos f)] at hx
  have hsplit := Nat.div_add_mod x (2 ^ (f.width - 1))
  rw [hrest, signBit]
  rcases topBit_cases hx with ⟨h0, -⟩ | ⟨h1, -⟩
  · rw [h0] at hsplit ⊢
    simpa using hsplit
  · rw [h1] at hsplit ⊢
    simpa using hsplit

end Sys2Proof.Laws
end

section
namespace Sys2Proof.Laws
open Sys2Proof.Machine

/-- Settles O33: a finite pattern stands for a value on the grid of its format (`onGrid_of_unpack`), which rounds to its own fields
(`OnGrid.roundTo_eq`) under its sign (`sign_add_fields`). -/
theorem representableValuesRoundToThemselves : Obligations.RepresentableValuesRoundToThemselves := by
  unfold Obligations.RepresentableValuesRoundToThemselves
  intro f r t draw x n m e hf hx hu
  obtain ⟨hpos, hlt⟩ := fmtP_bounds hf
  obtain ⟨hsign, -⟩ := finiteVal_cases (finiteVal_of_unpack hu).1
  rw [(onGrid_of_unpack hpos hu).roundTo_eq hpos, ← hsign, sign_add_fields hlt hx]

end Sys2Proof.Laws
end

section
/-!
SUPPORT. A deferred abort whose window lies below another one, in main memory that another live context holds (R2, R125, R350).
-/

namespace Sys2Proof.Laws
open Sys2Proof.Machine

/-- A live context whose heap is the 1 MiB at `a`. -/
def ctxWithHeap (a : Word) : Ctx := { Ctx.free with state := 2, heapbase := a, heaplimit := a + 0x100000 }

def spilledTask : Machine.Task :=
  { ctx := 0, tmpl := 0, id := 1, args := [], set := [], geom := 0, core := none, vto := 0, cont := none }

/-- A frame of context 0 whose window of 320 bytes is in main memory at `pa`. -/
def spilledFrame (pa : Word) : Frame :=
  { State.reset.newFrame spilledTask Template.blank [] with window := .main pa }

/-- Core 0 runs two frames of context 0. The one on top has a deferred abort, and the window of the other stands above its window in the
spilled stack, in the heap of context 1. -/
def abortBelowForeign : State :=
  { State.reset with
    ctxs := [(0, { Ctx.free with state := 2 }), (1, ctxWithHeap 0x3000000)]
    cores := [(0, { Core.reset with
      ctx := some 0, ovfl := 0x3000280, frames := [{ spilledFrame 0x3000000 with deferred := true }, spilledFrame 0x3000140] })] }

/-- The number of frames on core 0 after a step. -/
def framesAfter : Host.Outcome State Fault Refusal → Option Nat
  | .next t => some (t.core 0).frames.length
  | .fault .. | .refused .. => none

/-- The abort ends context 0 within the boundary, whose teardown step is over: the frame below stays until the next boundary. -/
theorem framesAfter_boundary : framesAfter (exec (.instructionBoundary 0) abortBelowForeign) = some 1 := by decide +kernel

/-- A boundary after the abort finds the context ended, and removes that frame. -/
theorem framesAfter_boundary_viewTooOld :
    framesAfter (exec (.instructionBoundary 0) (abortBelowForeign.viewTooOld 0)) = some 0 := by decide +kernel

end Sys2Proof.Laws
end

section
namespace Sys2Proof.Laws
open Sys2Proof.Machine

/-- Refutes O50: a boundary with a deferred abort is not one that finds the abort taken. The window of the frame that aborts leaves the
spilled stack (R125), and where the windows above it cannot move down, the area being another live context's, its context ends. In
`abortBelowForeign` the boundary that takes the abort has done its teardown step before (`framesAfter_boundary`); a boundary after the abort
begins with it (`framesAfter_boundary_viewTooOld`). -/
theorem not_coreEvents : ¬ Obligations.CoreEvents := by
  unfold Obligations.CoreEvents
  intro h
  obtain ⟨-, -, -, -, habort, -⟩ := h abortBelowForeign 0
  have hlive : ∀ k, (abortBelowForeign.core 0).ctx = some k → (abortBelowForeign.ctx k).tearing = false := by
    rintro k ⟨⟩
    rfl
  have hsame := habort _ _ ⟨rfl, by decide, rfl⟩ hlive rfl rfl rfl rfl rfl (by decide)
  have hcount := framesAfter_boundary.symm.trans ((congrArg framesAfter hsame).trans framesAfter_boundary_viewTooOld)
  exact absurd hcount (by decide)

end Sys2Proof.Laws
end

section
/-!
SUPPORT. How the vector instructions issue (R228–R232): the mode and the lane claim, the result of a `v` instruction and the long
instruction that a `w` one sends.
-/

namespace Sys2Proof.Laws
open Sys2Proof.Machine

/-- A vector instruction of width `w` meets the mode of its frame, and one of `v` registers the lane that the frame claims (R228, R231). -/
def VecReady (f : Frame) (w : Bool) : Prop := f.long = w ∧ (w = false → laneGuard f.lane ∈ f.claims)

/-- The long instruction that a frame sends, before it has a result, raises an exception or locks a register (R232). -/
def longOf (f : Frame) (uid : Nat) : LongOp :=
  { id := uid, frame := f.uid, prio := f.prio, gdst := none, wdst := none, exc := 0, lock := [] }

/-- The package once frame `f` on top of the current core has sent `o`; the registers `t` await its result (R232). -/
def afterSend (s : State) (f : Frame) (o : LongOp) (t : List Reg) : State :=
  (s.setCore s.cur { (s.core s.cur).setTop { f with await := f.await ++ t } with long := (s.core s.cur).long ++ [o] }).fresh

variable {s t : State} {f : Frame} {fs : List Frame} {h : Hdr} {i : Instr} {w : Bool} {lat : Nat} {regs wr : List Reg} {dst : Reg}
  {d : VReg} {g : GReg} {srcs : List VReg} {x : Nat × Exc} {val : State → Core → Frame → (VReg → Nat) → Chk (Nat × Exc)}

theorem vecMode_of_ready (hr : VecReady f w) (a : Act) : f.vecMode w a = a := by
  obtain ⟨rfl, hclaim⟩ := hr
  unfold Frame.vecMode
  cases hl : f.long with
  | true => rfl
  | false =>
    have hheld : f.laneClaimed = true := List.contains_iff_mem.2 (hclaim hl)
    simp [hheld]

/-- An instruction whose body issues retires as the body says, whatever vector registers it writes. -/
theorem completes_of_body {r : Ret} {body : Nat → Core → Frame → Act} (q : Issues s f fs h false regs wr) (hi : i.hdr? = some h)
    (he : exec i s = .next (issue i regs wr false s body)) (hb : body s.cur (s.core s.cur) f = .go t r) : completes s i h t r :=
  he.trans (congrArg _ (issue_go q hi hb))

/-- What the instruction with a vector result does at issue: a `v` result has a fixed latency, a `w` one is a long instruction. -/
def GivesVec (s : State) (f : Frame) (h : Hdr) (w : Bool) (d : VReg) (i : Instr) (lat : Nat) (srcs : List VReg) (x : Nat × Exc) : Prop :=
  match w with
  | false => completes s i h s { pc := none, cycles := 1, exc := x.2, writes := [{ reg := .v d, val := BitVec.ofNat 256 x.1, lat }] }
  | true => completes s i h
      (afterSend s f { longOf f s.uid with wdst := some (d, BitVec.ofNat 2048 x.1), exc := x.2, lock := srcs } [.w d]) Ret.plain

/-- What a vector instruction with a result in a general register does at issue. -/
def GivesGen (s : State) (f : Frame) (h : Hdr) (w : Bool) (g : GReg) (i : Instr) (lat : Nat) (srcs : List VReg) (x : Nat × Exc) : Prop :=
  match w with
  | false => completes s i h s { pc := none, cycles := 1, exc := x.2, writes := [{ reg := .g g, val := BitVec.ofNat 256 x.1, lat }] }
  | true => completes s i h
      (afterSend s f { longOf f s.uid with gdst := some (g, BitVec.ofNat 64 x.1), exc := x.2, lock := srcs } (if g = 0 then [] else [.g g]))
      Ret.plain

theorem vecOp_givesVec (hr : VecReady f w) (q : Issues s f fs h false regs [vr w d]) (hi : i.hdr? = some h)
    (he : exec i s = vecOp i w lat regs (vr w d) srcs val s)
    (hv : val s (s.core s.cur) f ((s.core s.cur).getVec f w) = .ok x) : GivesVec s f h w d i lat srcs x := by
  cases w with
  | false | true => exact completes_of_body q hi he ((vecMode_of_ready hr _).trans (by rw [hv]; rfl))

theorem vecOp_givesGen (hr : VecReady f w) (q : Issues s f fs h false regs [.g g]) (hi : i.hdr? = some h)
    (he : exec i s = vecOp i w lat regs (.g g) srcs val s)
    (hv : val s (s.core s.cur) f ((s.core s.cur).getVec f w) = .ok x) : GivesGen s f h w g i lat srcs x := by
  cases w with
  | false => exact completes_of_body q hi he ((vecMode_of_ready hr _).trans (by rw [hv]; rfl))
  | true =>
    have hawait : (if (Reg.g g).fixed then none else some (Reg.g g)).toList = if g = 0 then [] else [.g g] := by
      by_cases h0 : g = 0
      · subst h0; rfl
      · have hfree : ¬ (Reg.g g).fixed = true := fun e => h0 (eq_of_beq e)
        rw [if_neg hfree, if_neg h0]
        rfl
    refine completes_of_body q hi he ((vecMode_of_ready hr _).trans ?_)
    rw [hv, ← hawait]
    rfl

/-- A vector instruction whose own checks fail takes their trap. -/
theorem vecOp_traps (hr : VecReady f w) (q : Issues s f fs h false regs [dst]) (hi : i.hdr? = some h)
    (he : exec i s = vecOp i w lat regs dst srcs val s) {cause : Nat} {tval : Word}
    (hv : val s (s.core s.cur) f ((s.core s.cur).getVec f w) = .trap cause tval) :
    exec i s = .next (s.trapped s.cur i cause tval) :=
  he.trans (congrArg _ (issue_trap q hi ((vecMode_of_ready hr _).trans (by rw [hv]; rfl))))

/-! ### Element by element (R228, R236–R238) -/

section
variable {fm : Fmt} {a b e : VReg} (hr : VecReady f w)
include hr

/-- The elements of a register under the mode of an instruction. -/
def elemsOf (s : State) (f : Frame) (w : Bool) (fm : Fmt) (k : VReg) : List Nat :=
  vElems fm.width (vecN w fm.width) ((s.core s.cur).getVec f w k)

theorem vec1_gives {op : Nat → Nat × Exc} (q : Issues s f fs h false [vr w d, vr w a] [vr w d]) (hi : i.hdr? = some h)
    (he : exec i s = vec1 i w lat fm d a op s) :
    GivesVec s f h w d i lat [a] (mapElems fm.width ((elemsOf s f w fm a).map op)) :=
  vecOp_givesVec hr q hi he rfl

theorem vec2_gives {op : Nat → Nat → Nat × Exc} (q : Issues s f fs h false [vr w d, vr w a, vr w b] [vr w d]) (hi : i.hdr? = some h)
    (he : exec i s = vec2 i w lat fm d a b op s) : GivesVec s f h w d i lat [a, b]
      (mapElems fm.width (((elemsOf s f w fm a).zip (elemsOf s f w fm b)).map fun x => op x.1 x.2)) :=
  vecOp_givesVec hr q hi he rfl

theorem vec3_gives {op : Nat → Nat → Nat → Nat × Exc} (q : Issues s f fs h false [vr w d, vr w a, vr w b, vr w e] [vr w d])
    (hi : i.hdr? = some h) (he : exec i s = vec3 i w lat fm d a b e op s) : GivesVec s f h w d i lat [a, b, e]
      (mapElems fm.width (((elemsOf s f w fm a).zip ((elemsOf s f w fm b).zip (elemsOf s f w fm e))).map fun x => op x.1 x.2.1 x.2.2)) :=
  vecOp_givesVec hr q hi he rfl

theorem vsel_gives (q : Issues s f fs h false [vr w d, vr w a, vr w b, vr w e] [vr w d]) :
    GivesVec s f h w d (.vsel h w fm d e a b) 1 [a, b, e] (mapElems fm.width
      (((elemsOf s f w fm e).zip ((elemsOf s f w fm a).zip (elemsOf s f w fm b))).map
        fun x => (if x.1 / 2 ^ (fm.width - 1) % 2 = 1 then x.2.1 else x.2.2, excNone))) :=
  vecOp_givesVec hr q rfl (show exec (.vsel h w fm d e a b) s = execVsel h w fm d e a b s from rfl) rfl

end

end Sys2Proof.Laws
end

section
namespace Sys2Proof.Laws
open Sys2Proof.Machine

/-- Settles O35: each instruction maps its operation over the elements of its sources (`vec1_gives`, `vec2_gives`, `vec3_gives`,
`vsel_gives`); a saturated sum is clipped to the range of the element (`satS_eq`). -/
theorem vectorElementwise : Obligations.VectorElementwise := by
  unfold Obligations.VectorElementwise
  intro s f fs h w sat u sx fm r d a b e cond hmode hclaim c gives els pack two three n low sgn clip
  have hr : VecReady f w := ⟨hmode, hclaim⟩
  have hclip : ∀ v, clip v = if sat then satS n v else v := fun v => congrArg (if sat then · else v) (satS_eq n v).symm
  have hone : Issues s f fs h false [vr w d, vr w a] [vr w d] → ∀ {i lat op}, i.hdr? = some h →
      exec i s = vec1 i w lat fm d a op s → gives i lat [a] (pack fm ((els fm a).map op)) := fun q _ _ _ hi he => vec1_gives hr q hi he
  have htwo : Issues s f fs h false [vr w d, vr w a, vr w b] [vr w d] → ∀ {i lat t op}, i.hdr? = some h →
      exec i s = vec2 i w lat t d a b op s → gives i lat [a, b] (two t op) := fun q _ _ _ _ hi he => vec2_gives hr q hi he
  have hthree : Issues s f fs h false [vr w d, vr w a, vr w b, vr w e] [vr w d] → ∀ {i lat op}, i.hdr? = some h →
      exec i s = vec3 i w lat fm d a b e op s → gives i lat [a, b, e] (three op) := fun q _ _ _ hi he => vec3_gives hr q hi he
  have hsel : Issues s f fs h false [vr w d, vr w a, vr w b, vr w e] [vr w d] → gives (.vsel h w fm d e a b) 1 [a, b, e]
      (pack fm (((els fm e).zip ((els fm a).zip (els fm b))).map (fun x => (if x.1 / 2 ^ (n - 1) % 2 = 1 then x.2.1 else x.2.2, 0)))) :=
    fun q => vsel_gives hr q
  -- What the four lemmas say of them is all that is needed: opaque, they are not compared by what they compute.
  clear_value gives two three
  refine ⟨fun q => ⟨?formats, htwo q rfl rfl, htwo q rfl rfl, htwo q rfl rfl⟩, fun q => ⟨hone q rfl rfl, hone q rfl rfl⟩,
    fun q => ⟨hthree q rfl rfl, hthree q rfl rfl, hsel q⟩⟩
  simp only [List.forall_mem_cons, hclip]
  refine ⟨?add, ?sub, ?mul, ?min, ?max, ?minp, ?maxp, ?shl, ?shr, ?cmp, List.forall_mem_nil _⟩
  case cmp => exact htwo q rfl (by cases cond <;> rfl)
  all_goals exact htwo q rfl rfl

end Sys2Proof.Laws
end

section
/-!
SUPPORT. The vector instructions that go across elements (R239–R242): each with what it gives, or its trap.
-/

namespace Sys2Proof.Laws
open Sys2Proof.Machine

/-- Elements that raise nothing. -/
theorem mapElems_pure (n : Nat) (p : Nat → Nat) (xs : List Nat) :
    mapElems n (xs.map fun k => (p k, excNone)) = (vPack n (xs.map p), excNone) := by
  have hexc : ∀ xs : List Nat, (xs.map fun k => (p k, excNone)).foldl (fun x e => x ||| e.2) excNone = excNone := by
    intro xs
    induction xs with
    | nil => rfl
    | cons x xs ih => rw [List.map_cons, List.foldl_cons, BitVec.or_self, ih]
  rw [mapElems, hexc, List.map_map]
  rfl

section
variable {s : State} {f : Frame} {fs : List Frame} {h : Hdr} {w : Bool} {fm dst src : Fmt} {r : Rnd} {d a b e : VReg} {g : GReg}
  {idx : BitVec 8} (hr : VecReady f w)
include hr

theorem vred_gives {op : RedOp} (q : Issues s f fs h false [.g g, vr w a] [.g g]) :
    GivesGen s f h w g (.vred h w op fm r g a) 5 [a] (redVal op fm r (elemsOf s f w fm a)) :=
  vecOp_givesGen hr q rfl (show exec (.vred h w op fm r g a) s = execVred h w op fm r g a s from rfl) rfl

theorem vmovg_gives (q : Issues s f fs h false [.g g, vr w a] [.g g]) (hidx : idx.toNat < vecN w fm.width) :
    GivesGen s f h w g (.vmovg h w fm g a idx) 2 [a] (elemWord fm ((elemsOf s f w fm a).getD idx.toNat 0), excNone) :=
  vecOp_givesGen hr q rfl (show exec (.vmovg h w fm g a idx) s = execVmovg h w fm g a idx s from rfl) (if_neg (Nat.not_le.2 hidx))

theorem vmovg_traps (q : Issues s f fs h false [.g g, vr w a] [.g g]) (hidx : vecN w fm.width ≤ idx.toNat) :
    exec (.vmovg h w fm g a idx) s = .next (s.trapped s.cur (.vmovg h w fm g a idx) 0x1C 0) :=
  vecOp_traps hr q rfl (show exec (.vmovg h w fm g a idx) s = execVmovg h w fm g a idx s from rfl) (if_pos hidx)

theorem vins_gives (q : Issues s f fs h false [vr w d, .g g] [vr w d]) (hidx : idx.toNat < vecN w fm.width) :
    GivesVec s f h w d (.vins h w fm d g idx) 1 [d]
      (vPack fm.width ((elemsOf s f w fm d).set idx.toNat (f.getF fm.width g)), excNone) :=
  vecOp_givesVec hr q rfl (show exec (.vins h w fm d g idx) s = execVins h w fm d g idx s from rfl) (if_neg (Nat.not_le.2 hidx))

theorem vins_traps (q : Issues s f fs h false [vr w d, .g g] [vr w d]) (hidx : vecN w fm.width ≤ idx.toNat) :
    exec (.vins h w fm d g idx) s = .next (s.trapped s.cur (.vins h w fm d g idx) 0x1C 0) :=
  vecOp_traps hr q rfl (show exec (.vins h w fm d g idx) s = execVins h w fm d g idx s from rfl) (if_pos hidx)

theorem vbcast_gives (q : Issues s f fs h false [vr w d, .g g] [vr w d]) :
    GivesVec s f h w d (.vbcast h w fm d g) 1 [] (vPack fm.width (List.replicate (vecN w fm.width) (f.getF fm.width g)), excNone) :=
  vecOp_givesVec hr q rfl (show exec (.vbcast h w fm d g) s = execVbcast h w fm d g s from rfl) rfl

theorem vperm_gives (q : Issues s f fs h false [vr w d, vr w a, vr w b, vr w e] [vr w d]) :
    GivesVec s f h w d (.vperm h w fm d a b e) 2 [a, b, e] (vPack fm.width
      ((elemsOf s f w fm b).map fun k => (elemsOf s f w fm a ++ elemsOf s f w fm e).getD k 0), excNone) :=
  vecOp_givesVec hr q rfl (show exec (.vperm h w fm d a b e) s = execVperm h w fm d a b e s from rfl)
    (congrArg Chk.ok (mapElems_pure ..))

/-- The parts of two sources that an element of 32 bits of `VDOT` takes (R240). -/
def dotPairs (src : Fmt) (xs ys : List Nat) (j : Nat) : List (Nat × Nat) :=
  ((xs.drop (32 / src.width * j)).take (32 / src.width)).zip ((ys.drop (32 / src.width * j)).take (32 / src.width))

/-- One element of `VDOT` (R240): the sum of an element `x` of the destination and of the products of the pairs. -/
def dotElem (dst src : Fmt) (r : Rnd) (x : Nat) (ps : List (Nat × Nat)) : Nat × Exc :=
  if dst = .f32 then dotVal .f32 r src x ps
  else (toU 32 (ps.foldl (fun t p => t + toS src.width p.1 * toS src.width p.2) (toS 32 x)), excNone)

theorem vdot_gives (q : Issues s f fs h false [vr w d, vr w a, vr w b] [vr w d]) :
    GivesVec s f h w d (.vdot h w dst src r d a b) 4 [d, a, b] (mapElems 32
      (((elemsOf s f w .f32 d).zip (List.range (vecN w 32))).map fun y =>
        dotElem dst src r y.1 (dotPairs src (elemsOf s f w src a) (elemsOf s f w src b) y.2))) :=
  vecOp_givesVec hr q rfl (show exec (.vdot h w dst src r d a b) s = execVdot h w dst src r d a b s from rfl) rfl

/-- The elements that `VCVT` converts, with their exceptions (R242): those of its part where the elements do not get narrower. -/
def cvtElems (s : State) (f : Frame) (w : Bool) (dst src : Fmt) (r : Rnd) (part : BitVec 3) (rs : Option RsOp) (xs : List Nat) :
    List (Nat × Exc) :=
  let base := if decide (dst.width < src.width) then 0 else part.toNat * vecN w dst.width
  let es := (xs.drop base).take (min (vecN w src.width) (vecN w dst.width))
  (es.zip (List.range es.length)).map fun y =>
    convElem dst src r (s.ctx f.task.ctx).ovf (rsDraw (s.ctx f.task.ctx) f rs (base + y.2)) y.1

/-- The elements of the destination of `VCVT`: narrower ones take their part of it, and the others stay. -/
def cvtResult (w : Bool) (dst src : Fmt) (part : BitVec 3) (old new : List Nat) : List Nat :=
  if decide (dst.width < src.width) then
    old.take (part.toNat * vecN w src.width) ++ new ++ old.drop (part.toNat * vecN w src.width + vecN w src.width)
  else new

section
omit hr
variable {part : BitVec 3} {old new : List Nat}

theorem cvtResult_narrow (hn : decide (dst.width < src.width) = true) : cvtResult w dst src part old new =
    old.take (part.toNat * vecN w src.width) ++ new ++ old.drop (part.toNat * vecN w src.width + vecN w src.width) := if_pos hn
theorem cvtResult_wide (hn : ¬ decide (dst.width < src.width) = true) : cvtResult w dst src part old new = new := if_neg hn

end

theorem vcvt_gives {part : BitVec 3} {rs : Option RsOp} (q : Issues s f fs h false ([vr w d, vr w a] ++ rsRegs rs) [vr w d]) :
    let qs := cvtElems s f w dst src r part rs (elemsOf s f w src a)
    GivesVec s f h w d (.vcvt h w dst src r d a part rs) 3 (if decide (dst.width < src.width) then [d, a] else [a])
      (vPack dst.width (cvtResult w dst src part (elemsOf s f w dst d) (qs.map fun y => y.1)), (mapElems dst.width qs).2) := by
  have he : exec (.vcvt h w dst src r d a part rs) s = execVcvt h w dst src r d a part rs s := rfl
  unfold execVcvt at he
  refine vecOp_givesVec hr q rfl he ?_
  by_cases hn : decide (dst.width < src.width) = true
  · rw [cvtResult_narrow hn, if_pos hn]; rfl
  · rw [cvtResult_wide hn, if_neg hn]; rfl

end

end Sys2Proof.Laws
end

section
namespace Sys2Proof.Laws
open Sys2Proof.Machine

/-- Settles O36: each instruction takes the elements of its sources as its own lemma says (`vred_gives` to `vcvt_gives`); an element number
beyond the last traps (`vmovg_traps`, `vins_traps`). -/
theorem vectorAcrossElements : Obligations.VectorAcrossElements := by
  unfold Obligations.VectorAcrossElements
  intro s f fs h w fm dst src r op d a b e g idx part rs hmode hclaim c x sends vec gen num els low
  have hr : VecReady f w := ⟨hmode, hclaim⟩
  have hvec : ∀ {i lat srcs x}, GivesVec s f h w d i lat srcs x → vec i lat srcs x := fun hx => hx
  have hgen : ∀ {i lat srcs x}, GivesGen s f h w g i lat srcs x → gen i lat srcs x := fun hx => hx
  exact ⟨fun q => ⟨hgen (vred_gives hr q), fun hidx => hgen (vmovg_gives hr q hidx), vmovg_traps hr q⟩,
    fun q => ⟨hvec (vbcast_gives hr q), fun hidx => hvec (vins_gives hr q hidx), vins_traps hr q⟩,
    fun q => hvec (vperm_gives hr q), fun q => hvec (vdot_gives hr q), fun q => hvec (vcvt_gives hr q)⟩

end Sys2Proof.Laws
end

section
/-!
SUPPORT. Vector modes, vector loads and stores (R229, R232, R235), and the long instruction that completes (R200, R232).
-/

namespace Sys2Proof.Laws
open Sys2Proof.Machine

/-! ### The lock bits of the long registers (R229, R232) -/

theorem longLocked_eq_false_iff {c : Core} {f : Frame} :
    c.longLocked f = false ↔ (∀ o ∈ c.long, o.lock = []) ∧ ∀ y, Reg.w y ∉ f.await := by
  unfold Core.longLocked
  rw [Bool.or_eq_false_iff, List.any_eq_false, List.any_eq_false]
  refine and_congr ?locks ?awaits
  case locks => simp
  case awaits =>
    refine ⟨fun hr y hy => hr _ hy rfl, fun hw r hr => ?_⟩
    cases r with
    | w y => exact absurd hr (hw y)
    | g k | p k | a k | v k => exact Bool.false_ne_true

/-! ### Checks that pass -/

theorem act_of_ok {α : Type} {x : Chk α} {v : α} (hx : x = .ok v) (g : α → Act) : x.act g = g v := by rw [hx]; rfl

theorem padAct_of_free {c : Core} {reads writes : List Range} (hfree : c.rangeWaits reads writes = false) (a : Act) :
    padAct c reads writes a = a := if_neg (by simp [hfree])

theorem withLines_of_placed {s s1 : State} {n al : Nat} {f : Frame} {wr : Bool} {a : Word} {ks : List (Word × Kind)} {ps : List Place}
    (halign : a.toNat % al = 0) (hks : s.kindAll (s.ctx f.task.ctx) wr (piecesOf a al) = .ok ks)
    (hps : s.placeAll n f.task.ctx wr ks = (.ok ps, s1)) (g : List Place → State → Act) : s.withLines n f wr a al g = g ps s1 := by
  unfold State.withLines
  rw [hks]
  simp only [Chk.act, halign, ne_eq, not_true_eq_false, if_false, hps]

/-! ### Translation leaves the cores alone but for their TLBs (R168) -/

theorem core_of_cores {s t : State} (h : t.cores = s.cores) (k : Nat) : t.core k = s.core k :=
  congrArg (fun m => fget Core.reset m k) h

/-- The cores of `t` differ from those of `s` in their TLBs at most. -/
structure TlbsOnly (s t : State) : Prop where
  core : ∀ k, t.core k = { s.core k with tlb := (t.core k).tlb }

theorem TlbsOnly.of_cores {s t : State} (h : t.cores = s.cores) : TlbsOnly s t :=
  ⟨fun k => by rw [core_of_cores h]⟩

theorem TlbsOnly.trans {s t u : State} (h : TlbsOnly s t) (g : TlbsOnly t u) : TlbsOnly s u := ⟨fun k => by rw [g.core k, h.core k]⟩

theorem TlbsOnly.outstanding {s t : State} (h : TlbsOnly s t) (k : Nat) : (t.core k).outstanding = (s.core k).outstanding := by
  rw [h.core k]
  rfl

section
variable (s : State) (n ctx : Nat)

theorem setTlb_tlbsOnly (l : List Tlb) : TlbsOnly s (s.setCore n { s.core n with tlb := l }) :=
  ⟨fun k => by
    by_cases hk : k = n
    · subst hk; rw [core_setCore_same]
    · rw [core_setCore_ne _ _ _ hk]⟩

theorem dieTlbPut_cores (d : Nat) (e : Tlb) : (s.dieTlbPut d e).cores = s.cores := by
  unfold State.dieTlbPut
  dsimp only
  split
  · rfl
  · split
    · split <;> rfl
    · rfl

theorem dirtyToDie_cores (d : Nat) (e : Tlb) : (s.dirtyToDie d e).cores = s.cores := by
  unfold State.dirtyToDie
  split
  · exact dieTlbPut_cores ..
  · rfl

theorem coreTlbPut_tlbsOnly (e : Tlb) : TlbsOnly s (s.coreTlbPut n e) := by
  have hreplace := setTlb_tlbsOnly s n ((s.core n).tlb.eraseIdx (Config.pick s.draws % (s.core n).tlb.length) ++ [e])
  unfold State.coreTlbPut
  dsimp only
  split
  · exact setTlb_tlbsOnly s n _
  · split
    · exact hreplace.trans (.of_cores (dirtyToDie_cores ..))
    · exact hreplace.trans (.of_cores rfl)

theorem translate_tlbsOnly (page : Nat) : TlbsOnly s (s.translate n ctx page).2 := by
  unfold State.translate
  dsimp only
  split
  · exact .of_cores rfl
  · split
    · exact coreTlbPut_tlbsOnly ..
    · split
      · exact .of_cores rfl
      · exact .of_cores rfl
      · exact (TlbsOnly.of_cores (dieTlbPut_cores ..)).trans (coreTlbPut_tlbsOnly ..)

theorem place_tlbsOnly (wr : Bool) (a : Word) (k : Kind) : TlbsOnly s (s.place n ctx wr a k).2 := by
  cases k with
  | bad c | line key off | window w => exact .of_cores rfl
  | paged page =>
    have hstate : (s.place n ctx wr a (.paged page)).2 = (s.translate n ctx page).2 := by
      unfold State.place
      dsimp only
      split
      · split
        · rfl
        · split <;> rfl
      · rfl
      · rfl
    rw [hstate]
    exact translate_tlbsOnly s n ctx page

end

theorem placeAll_tlbsOnly (n ctx : Nat) (wr : Bool) : ∀ (ks : List (Word × Kind)) (s : State), TlbsOnly s (s.placeAll n ctx wr ks).2
  | [], _ => .of_cores rfl
  | e :: es, s => by
    have hfirst := place_tlbsOnly s n ctx wr e.1 e.2
    unfold State.placeAll
    dsimp only
    split
    · exact hfirst.trans (placeAll_tlbsOnly n ctx wr es _)
    · exact hfirst
    · exact hfirst
    · exact hfirst

/-- A vector load takes at most one outstanding request for each of its lines (R371). -/
theorem vld_takes_le (srcs : List (Src × Overlay)) (off k : Nat) : (ReqKind.vld srcs off k).takes ≤ srcs.length := by
  have hone : ∀ x : Src, (Src.keys x).length ≤ 1 := fun x => by cases x <;> simp [Src.keys]
  change (srcs.flatMap fun e => Src.keys e.1).length ≤ srcs.length
  induction srcs with
  | nil => exact Nat.le_refl 0
  | cons e es ih =>
    rw [List.flatMap_cons, List.length_append, List.length_cons]
    have := hone e.1
    omega

theorem reqAct_of_room {c : Core} {k : ReqKind} (hroom : c.outstanding + k.takes ≤ 16) (a : Act) : c.reqAct k a = a :=
  if_neg (Nat.not_lt.2 hroom)

/-! ### Counting exceptions (R200) -/

theorem countOne_escnt (c : Core) (t0 t1 : Word) (k j : Nat) : fget 0 (c.countOne t0 t1 k).escnt j =
    if j = k ∧ c.cnt j ≠ 0xFFFFFFFF then c.cnt j + 1 else c.cnt j := by
  have hset : (c.countOne t0 t1 k).escnt = fset 0 c.escnt k (if c.cnt k = 0xFFFFFFFF then 0xFFFFFFFF else c.cnt k + 1) := by
    unfold Core.countOne
    dsimp only
    generalize (if c.cnt k = 0xFFFFFFFF then (0xFFFFFFFF : BitVec 32) else c.cnt k + 1) = m
    split <;> rfl
  rw [hset]
  by_cases hj : j = k
  · subst hj
    rw [fget_fset_same]
    by_cases hmax : c.cnt j = 0xFFFFFFFF
    · rw [if_pos hmax, if_neg (fun hc => hc.2 hmax), hmax]
    · rw [if_neg hmax, if_pos ⟨rfl, hmax⟩]
  · rw [fget_fset_ne _ _ _ hj, if_neg (fun hc => hj hc.1)]
    rfl

theorem countFrom_escnt (e : Exc) (t0 t1 : Word) (j : Nat) : ∀ (ks : List Nat) (c : Core), ks.Nodup →
    fget 0 (countFrom e t0 t1 ks c).escnt j =
      if j ∈ ks ∧ e.getLsbD j = true ∧ c.cnt j ≠ 0xFFFFFFFF then c.cnt j + 1 else c.cnt j
  | [], _, _ => rfl
  | k :: ks, c, hnd => by
    obtain ⟨hk, hks⟩ := List.nodup_cons.1 hnd
    have hcnt : ∀ c' : Core, c'.cnt j = fget 0 c'.escnt j := fun _ => rfl
    rw [countFrom, countFrom_escnt e t0 t1 j ks _ hks, hcnt]
    by_cases he : e.getLsbD k = true
    · rw [if_pos he, countOne_escnt]
      by_cases hj : j = k
      · subst hj; simp [he, hk]
      · simp [hj]
    · rw [if_neg he]
      by_cases hj : j = k
      · subst hj; simp [he, hk, Core.cnt]
      · simp [hj, Core.cnt]

/-- Each class that is raised adds 1 to its count, which stops at its largest value (R200). -/
theorem count_escnt (c : Core) (e : Exc) (t0 t1 : Word) {k : Nat} (hk : k < 5) : fget 0 (c.count e t0 t1).escnt k =
    if c.eswin ≠ 0 ∧ e.getLsbD k = true ∧ fget 0 c.escnt k ≠ 0xFFFFFFFF then fget 0 c.escnt k + 1 else fget 0 c.escnt k := by
  unfold Core.count
  by_cases hw : c.eswin = 0
  · simp [hw]
  · have hmem : k ∈ [0, 1, 2, 3, 4] := by simp; omega
    rw [if_neg hw, countFrom_escnt _ _ _ _ _ _ (by decide)]
    exact ite_congr (propext (and_congr_left fun _ => iff_of_true hmem hw)) (fun _ => rfl) (fun _ => rfl)

/-! ### The long instruction that completes (R232) -/

section
variable {c : Core} {o : LongOp} {f : Frame}

/-- The completion of a long instruction changes registers, and what awaits them, alone. -/
theorem longDone_frame (c : Core) (o : LongOp) :
    c.longDone o = { c with frames := (c.longDone o).frames, w := (c.longDone o).w } := by
  have hdeliver : ∀ (u : Nat) (g : GReg) (v : BitVec 256), c.deliver u (.g g) v = { c with frames := (c.deliver u (.g g) v).frames } := by
    intro u g v
    unfold Core.deliver
    split <;> rfl
  unfold Core.longDone
  cases o.gdst with
  | none => dsimp only; split <;> rfl
  | some r => dsimp only; rw [hdeliver]; split <;> rfl

theorem longDone_getW {r : VReg × BitVec 2048} (hw : o.wdst = some r) (hf : c.frame? o.frame = some f) :
    (c.longDone o).getW r.1 = r.2 := by
  unfold Core.longDone
  rw [hw, hf]
  exact fget_fset_same _ _ _ _

theorem longDone_gen {r : GReg × Word} (hg : o.gdst = some r) (hw : o.wdst = none) (hf : c.frame? o.frame = some f) :
    c.longDone o = c.onFrame o.frame fun _ => withResult f r.1 r.2 := by
  unfold Core.longDone
  rw [hg, hw]
  exact deliver_g hf r.1 r.2

end

/-! ### What the instructions do at issue -/

section
variable {s s1 : State} {f : Frame} {fs : List Frame} {h : Hdr} {x w : Bool} {d : VReg} {a : GReg} {p : Ptr}

/-- The issue cycles and the pointer step of a vector access of scratchpad (R136, R235). -/
def vecRet (f : Frame) (w : Bool) (p : Ptr) : Ret :=
  { Ret.plain with cycles := bankCycles [(f.ptr p, if w then 4 else 1)], writes := f.ptrStep p (vecAccess w) }

/-- The package once a vector store has sent what it reads: a `w` register is locked until the store completes (R232). -/
def lockSource (s : State) (f : Frame) (w : Bool) (d : VReg) : State :=
  if w then afterSend s f { longOf f s.uid with lock := [d] } [] else s

/-- The lines that a vector load reads, under what the open bundle lays over them (R208, R235). -/
def lineSources (s : State) (f : Frame) (w : Bool) (a : Word) (ps : List Place) : List (Src × Overlay) :=
  (ps.zip (lineAddrs (a &&& ~~~63) (vecLines w))).map fun e => s.source f e.2 e.1

theorem lineSources_length_le (s : State) (f : Frame) (w : Bool) (a : Word) (ps : List Place) :
    (lineSources s f w a ps).length ≤ vecLines w := by
  simp only [lineSources, lineAddrs, List.length_map, List.length_zip, List.length_range]
  exact Nat.min_le_right _ _

/-- The lines that a vector store puts into the open bundle (R211, R235). -/
def storeLines (a : Word) (bs : List Byte) (ps : List Place) : List BLine :=
  (ps.zip (List.range ps.length)).filterMap fun e => match e.1 with
    | .line key off page => some (homeLine key page (a + BitVec.ofNat 64 (64 * e.2)) off ((bs.drop (64 * e.2)).take 64) none)
    | .window _ => none

/-- The package once a vector store to memory has sent what it reads (R232). -/
def lockLine (s : State) (n : Nat) (f : Frame) (w : Bool) (d : VReg) : State :=
  if w then (s.setCore n { s.core n with long := (s.core n).long ++ [{ longOf f s.uid with lock := [d] }] }).fresh else s

theorem vmodeShort_completes (q : Issues s f fs h false [] []) (hlong : f.long = true) : completes s (.vmodeShort h) h
    (s.setCore s.cur ((s.core s.cur).setTop { f with long := false, owner := false })) Ret.plain :=
  completes_of_body q rfl rfl (congrArg (Act.go · Ret.plain) (if_pos hlong))

theorem vmodeShort_idle (q : Issues s f fs h false [] []) (hlong : f.long = false) : results s (.vmodeShort h) h [] :=
  completes_of_body q rfl rfl (congrArg (Act.go · Ret.plain) (if_neg (by simp [hlong])))

theorem vmodeLong_idle (q : Issues s f fs h false [] []) (hlong : f.long = true) : results s (.vmodeLong h) h [] :=
  completes_of_body q rfl rfl (if_pos hlong)

section
variable (q : Issues s f fs h false [] []) (hlong : f.long = false)
include q hlong

/-- `VMODE.long` in the short mode, as the frames below and the lock bits have it. -/
theorem vmodeLong_next {b : Act} (hb : (if (s.core s.cur).frames.tail.any (fun g => g.owner) then .trap 0x21 0
      else if (s.core s.cur).longLocked f then .pause (s.setCore s.cur ((s.core s.cur).setTop { f with owner := true }))
      else .go (s.setCore s.cur { (s.core s.cur).setTop { f with long := true, owner := true } with w := [] }) Ret.plain) = b) :
    exec (.vmodeLong h) s = .next (b.next s s.cur (.vmodeLong h) h) :=
  congrArg Host.Outcome.next ((issue_runs q rfl).trans (congrArg (Act.next · s s.cur (.vmodeLong h) h)
    ((if_neg (by simp [hlong])).trans hb)))

theorem vmodeLong_traps (hbelow : ∃ g ∈ fs, g.owner = true) :
    exec (.vmodeLong h) s = .next (s.trapped s.cur (.vmodeLong h) 0x21 0) :=
  vmodeLong_next q hlong (if_pos (by rw [q.top]; exact List.any_eq_true.2 hbelow))

variable (hbelow : ∀ g ∈ fs, g.owner = false)
include hbelow

omit hlong in
theorem not_ownedBelow : ¬ (s.core s.cur).frames.tail.any (fun g => g.owner) = true := by
  rw [q.top]
  simpa using hbelow

theorem vmodeLong_pauses (hlocked : (s.core s.cur).longLocked f = true) : exec (.vmodeLong h) s =
    .next ((s.setCore s.cur ((s.core s.cur).setTop { f with owner := true })).stopped s.cur) :=
  vmodeLong_next q hlong ((if_neg (not_ownedBelow q hbelow)).trans (if_pos hlocked))

theorem vmodeLong_completes (hfree : (s.core s.cur).longLocked f = false) : completes s (.vmodeLong h) h
    (s.setCore s.cur { (s.core s.cur).setTop { f with long := true, owner := true } with w := [] }) Ret.plain :=
  vmodeLong_next q hlong ((if_neg (not_ownedBelow q hbelow)).trans (if_neg (by simp [hfree])))

end

section
variable (hr : VecReady f w)
include hr

section
variable (hrange : f.rangeCheck (s.ctx f.task.ctx) (f.ptr p) (vecAccess w) (vecAlign w) = .ok ())
include hrange

theorem vld_completes_short (hw : w = false) (q : Issues s f fs h false [vr w d, .a (Ptr.reg p)] [vr w d])
    (hfree : (s.core s.cur).rangeWaits [(f.ptr p, vecAccess w)] [] = false) : completes s (.vld h x w d p) h s
      { vecRet f w p with
        writes := vRes d (BitVec.ofNat 256 (leNat ((s.core s.cur).padRead (f.ptr p) (vecAccess w)))) 3 :: (vecRet f w p).writes } := by
  subst hw
  exact completes_of_body q rfl rfl ((vecMode_of_ready hr _).trans ((act_of_ok hrange _).trans (padAct_of_free hfree _)))

theorem vld_completes_long (hw : w = true) (q : Issues s f fs h false [vr w d, .a (Ptr.reg p)] [vr w d])
    (hfree : (s.core s.cur).rangeWaits [(f.ptr p, vecAccess w)] [] = false) : completes s (.vld h x w d p) h
      (afterSend s f { longOf f s.uid with
        wdst := some (d, BitVec.ofNat 2048 (leNat ((s.core s.cur).padRead (f.ptr p) (vecAccess w)))) } [.w d]) (vecRet f w p) := by
  subst hw
  exact completes_of_body q rfl rfl ((vecMode_of_ready hr _).trans ((act_of_ok hrange _).trans (padAct_of_free hfree _)))

theorem vst_completes (q : Issues s f fs h false [.a (Ptr.reg p), vr w d] [])
    (hfree : (s.core s.cur).rangeWaits [] [(f.ptr p, vecAccess w)] = false) : completes s (.vst h x w p d) h
      ((lockSource s f w d).instrStore s.cur f (f.ptr p) (leBytes (vecAccess w) ((s.core s.cur).getVec f w d))) (vecRet f w p) := by
  cases w with
  | false | true => exact completes_of_body q rfl rfl ((vecMode_of_ready hr _).trans ((act_of_ok hrange _).trans (padAct_of_free hfree _)))

end

section
variable {ks : List (Word × Kind)} {ps : List Place} (halign : (f.getG a).toNat % vecAccess w = 0)
include halign

theorem vldv_completes (q : Issues s f fs h false [vr w d, .g a] [vr w d]) (hroom : (s.core s.cur).outstanding + vecLines w ≤ 16)
    (hks : s.kindAll (s.ctx f.task.ctx) false (piecesOf (f.getG a) (vecAccess w)) = .ok ks)
    (hps : s.placeAll s.cur f.task.ctx false ks = (.ok ps, s1)) : completes s (.vldv h w d a) h
      ((s1.setCore s.cur ((s1.core s.cur).onFrame f.uid fun g => { g with await := g.await ++ [vr w d] })).request s.cur f (some (vr w d))
        false (.vld (lineSources s1 f w (f.getG a) ps) ((ps.head?.map fun p => p.off (f.getG a)).getD 0) (vecAccess w))) Ret.plain := by
  refine completes_of_body q rfl rfl ((vecMode_of_ready hr _).trans ((withLines_of_placed halign hks hps _).trans (reqAct_of_room ?_ _)))
  have htlbs : TlbsOnly s s1 := by simpa [hps] using placeAll_tlbsOnly s.cur f.task.ctx false ks s
  rw [htlbs.outstanding]
  exact Nat.le_trans (Nat.add_le_add_left (Nat.le_trans (vld_takes_le _ _ _) (lineSources_length_le s1 f w (f.getG a) ps)) _) hroom

theorem vstv_completes (q : Issues s f fs h false [.g a, vr w d] [])
    (hks : s.kindAll (s.ctx f.task.ctx) true (piecesOf (f.getG a) (vecAccess w)) = .ok ks)
    (hps : s.placeAll s.cur f.task.ctx true ks = (.ok ps, s1)) {b : Bundle}
    (hb : (lockLine s1 s.cur f w d).putLines f.bundle (storeLines (f.getG a) (leBytes (vecAccess w) ((s.core s.cur).getVec f w d)) ps)
      = some b) : completes s (.vstv h w a d) h ((lockLine s1 s.cur f w d).setCore s.cur
        (((lockLine s1 s.cur f w d).core s.cur).onFrame f.uid fun g => { g with bundle := b })) Ret.plain := by
  refine completes_of_body q rfl rfl ((vecMode_of_ready hr _).trans ((withLines_of_placed halign hks hps _).trans ?_))
  change (lockLine s1 s.cur f w d).bundlePut s.cur f (storeLines (f.getG a) _ ps) Ret.plain = _
  unfold State.bundlePut
  rw [hb]

end

end

end

/-! ### LONG_VECTOR_COMPLETE -/

section
variable {s : State} {n : Nat} {o : LongOp} {os : List LongOp} (hlong : (s.core n).long = o :: os)
include hlong

theorem longVectorComplete_waits (hw : s.longWaits n o = true) : exec (.longVectorComplete n) s = .next s := by
  change execLongVectorComplete n s = _
  unfold execLongVectorComplete
  simp only [hlong, hw, if_true]

/-- The core once its oldest long instruction has completed and its exceptions are counted (R200, R232). -/
def longCompleted (c : Core) (o : LongOp) (os : List LongOp) : Core := ({ c with long := os }.longDone o).count o.exc 0 0

theorem longVectorComplete_completes (hw : s.longWaits n o = false) :
    exec (.longVectorComplete n) s = .next (s.setCore n (longCompleted (s.core n) o os)) := by
  change execLongVectorComplete n s = _
  unfold execLongVectorComplete
  simp only [hlong, hw, Bool.false_eq_true, if_false]
  rfl

end

section
variable (c : Core) (o : LongOp) (os : List LongOp)

theorem longCompleted_eq : longCompleted c o os = { ({ c with long := os } : Core).longDone o with
    escnt := (longCompleted c o os).escnt, crossed := (longCompleted c o os).crossed } := count_frame ..

theorem longCompleted_long : (longCompleted c o os).long = os := by
  rw [longCompleted_eq, longDone_frame]

theorem longCompleted_escnt {k : Nat} (hk : k < 5) : fget 0 (longCompleted c o os).escnt k =
    if c.eswin ≠ 0 ∧ o.exc.getLsbD k = true ∧ fget 0 c.escnt k ≠ 0xFFFFFFFF then fget 0 c.escnt k + 1 else fget 0 c.escnt k := by
  rw [longCompleted, count_escnt _ _ _ _ hk, longDone_frame]

variable {c o} {f : Frame} (hf : c.frame? o.frame = some f)
include hf

theorem longCompleted_getW {r : VReg × BitVec 2048} (hw : o.wdst = some r) : (longCompleted c o os).getW r.1 = r.2 := by
  rw [longCompleted_eq]
  exact longDone_getW (c := { c with long := os }) hw hf

theorem longCompleted_frame? {r : GReg × Word} (hg : o.gdst = some r) (hw : o.wdst = none) :
    (longCompleted c o os).frame? o.frame = some (withResult f r.1 r.2) := by
  rw [longCompleted_eq, longDone_gen (c := { c with long := os }) hg hw hf]
  exact frame?_onFrame (c := { c with long := os }) (r := fun _ => withResult f r.1 r.2) hf ((withResult_uid _).trans (uid_of_frame? hf))

end

end Sys2Proof.Laws
end

section
namespace Sys2Proof.Laws
open Sys2Proof.Machine

/-- Settles O37: `VMODE` as the mode, the owner below and the lock bits have it (`vmodeLong_next`, `longLocked_eq_false_iff`); the loads
and stores pass their checks (`vld_completes_short` to `vstv_completes`); the oldest long instruction waits or completes, with its result
(`longCompleted_getW`, `longCompleted_frame?`) and its exceptions counted (`longCompleted_escnt`). -/
theorem vectorModesAndMemory : Obligations.VectorModesAndMemory := by
  unfold Obligations.VectorModesAndMemory
  refine ⟨fun s f fs h x w d a p => ⟨fun q => ?modes, fun q hr hrange hfree => ?load, fun q hr hrange hfree => ?store,
    fun ks ps s1 hr halign => ?memory⟩, fun s n o os hlong => ?complete⟩
  case modes =>
    refine ⟨fun hlong => ⟨vmodeShort_completes q hlong, vmodeLong_idle q hlong⟩, fun hlong => ⟨vmodeShort_idle q hlong,
      vmodeLong_traps q hlong, fun hbelow => ⟨fun hlocked => ?_, fun hclear => ?_⟩⟩⟩
    · exact vmodeLong_pauses q hlong hbelow (eq_true_of_ne_false (mt longLocked_eq_false_iff.1 hlocked))
    · exact vmodeLong_completes q hlong hbelow (longLocked_eq_false_iff.2 hclear)
  case load => exact ⟨fun hw => vld_completes_short hr hrange hw q hfree, fun hw => vld_completes_long hr hrange hw q hfree⟩
  case store => exact vst_completes hr hrange q hfree
  case memory =>
    exact ⟨fun q hroom hks hps => vldv_completes hr halign q hroom hks hps, fun q hks hps b hb => vstv_completes hr halign q hks hps hb⟩
  case complete =>
    refine ⟨longVectorComplete_waits hlong, fun hw => ⟨_, longVectorComplete_completes hlong hw, ?_⟩⟩
    rw [core_setCore_same]
    exact ⟨longCompleted_long .., rfl, fun r hr ⟨f, hf⟩ => longCompleted_getW os hf hr,
      fun r f hg hr h0 hf => ⟨_, longCompleted_frame? os hf hg hr, getG_withResult h0 _⟩, fun k hk => longCompleted_escnt _ _ _ hk⟩

end Sys2Proof.Laws
end

section
/-!
SUPPORT. What the end of an engine command leaves alone (R200, R245, R246, R274): the scratchpads and the chain queues of all cores.
-/

namespace Sys2Proof.Laws
open Sys2Proof.Machine

/-- Two cores have the same scratchpad and the same chains in the queues of their lanes. -/
structure CoreKept (c d : Core) : Prop where
  pad : d.pad = c.pad
  chains : ∀ l, (d.lane l).cq = (c.lane l).cq

/-- No core of `t` differs from that of `s` in its scratchpad or its chains. -/
structure ChainsKept (s t : State) : Prop where
  core : ∀ k, CoreKept (s.core k) (t.core k)

section
variable {c d b : Core} {s t u : State} {n : Nat}

theorem CoreKept.of_eq (hp : d.pad = c.pad) (hl : d.lanes = c.lanes) : CoreKept c d :=
  ⟨hp, fun l => congrArg (fun m => (fget Lane.reset m l).cq) hl⟩

theorem CoreKept.trans (h : CoreKept c d) (g : CoreKept d b) : CoreKept c b :=
  ⟨g.pad.trans h.pad, fun l => (g.chains l).trans (h.chains l)⟩

theorem ChainsKept.refl (s : State) : ChainsKept s s := ⟨fun _ => .of_eq rfl rfl⟩

theorem ChainsKept.trans (h : ChainsKept s t) (g : ChainsKept t u) : ChainsKept s u := ⟨fun k => (h.core k).trans (g.core k)⟩

theorem ChainsKept.of_cores (h : t.cores = s.cores) : ChainsKept s t :=
  ⟨fun k => by rw [core_of_cores h]; exact .of_eq rfl rfl⟩

theorem ChainsKept.setCore (h : CoreKept (s.core n) d) : ChainsKept s (s.setCore n d) :=
  ⟨fun k => by
    by_cases hk : k = n
    · subst hk; rwa [core_setCore_same]
    · rw [core_setCore_ne _ _ _ hk]; exact .of_eq rfl rfl⟩

theorem ChainsKept.foldl {β : Type} {g : State → β → State} (hg : ∀ s b, ChainsKept s (g s b)) (l : List β) :
    ∀ s, ChainsKept s (l.foldl g s) := by
  induction l with
  | nil => exact ChainsKept.refl
  | cons b l ih => exact fun s => (hg s b).trans (ih _)

end

/-! ### Results that arrive -/

section
variable (c : Core)

theorem deliver_kept (uid : Nat) (r : Reg) (v : BitVec 256) : CoreKept c (c.deliver uid r v) := by
  unfold Core.deliver
  split
  · exact .of_eq rfl rfl
  · next f _ =>
    have ht := putReg_touches c f r v
    have hput : CoreKept c (c.putReg f r v).1 := ⟨(congrArg Core.pad ht.core :), fun l => (congrArg Lane.cq (ht.lanes l) :)⟩
    exact hput.trans (.of_eq rfl rfl)

theorem finish_kept (q : Req) (v : BitVec 256) : CoreKept c (c.finish q v) := by
  have hreqs : CoreKept c { c with reqs := c.reqs.filter fun x => x.id != q.id } := .of_eq rfl rfl
  unfold Core.finish
  dsimp only
  split
  · exact hreqs.trans (deliver_kept ..)
  · exact hreqs

theorem fcloseDone_kept : CoreKept c c.fcloseDone := by
  have hfold : ∀ (qs : List Req) (c : Core), CoreKept c (qs.foldl (fun c q => c.finish q 0) c) := by
    intro qs
    induction qs with
    | nil => exact fun _ => .of_eq rfl rfl
    | cons q qs ih => exact fun c => (finish_kept c q 0).trans (ih _)
  exact hfold _ c

end

/-! ### Held effects that leave -/

section
variable (s : State) (n : Nat)

theorem release_kept (src ctx : Nat) (st : Start) (set : IncSet) : ChainsKept s (s.release src ctx st set) := by
  unfold State.release
  dsimp only
  split <;> exact .of_cores rfl

theorem trigger_kept (r : Range) (set : IncSet) : ChainsKept s (s.trigger n r set) := by
  unfold State.trigger
  dsimp only
  split
  · refine (ChainsKept.setCore ?_).trans (.foldl (fun s _ => release_kept s ..) _ _)
    exact .of_eq rfl rfl
  · exact .refl s

theorem leaveOne_kept (b : Closed) (set : IncSet) (e : Effect) : ChainsKept s (s.leaveOne n b set e) := by
  cases e with
  | start st cmd => exact release_kept ..
  | arrive core addr phase k =>
    unfold State.leaveOne
    dsimp only
    split
    · exact .setCore (.of_eq rfl rfl)
    · exact .refl s
  | push core q v =>
    unfold State.leaveOne
    dsimp only
    split
    · exact .setCore (.of_eq rfl rfl)
    · exact .refl s
  | arm w =>
    have harm : ChainsKept s (s.setCore n { s.core n with
        watches := (s.core n).watches.map (fun x => if x.id = w then { x with armed := true, set } else x) }) := .setCore (.of_eq rfl rfl)
    unfold State.leaveOne
    dsimp only
    split
    · exact harm.trans (trigger_kept ..)
    · exact harm
  | remote peer tmpl arg id => exact .of_cores (send_beside s _).cores

theorem leaveOf_kept (b : Closed) : ChainsKept s (s.leaveOf n b) := by
  unfold State.leaveOf
  split
  · split
    · exact .refl s
    · refine (ChainsKept.setCore ?_).trans (.foldl (fun s e => leaveOne_kept s n b _ e) _ _)
      exact .of_eq rfl rfl
  · exact .refl s

theorem progress_kept : ChainsKept s (s.progress n) := by
  unfold State.progress
  dsimp only
  refine ChainsKept.trans ?effects (.setCore (.of_eq rfl rfl))
  refine ChainsKept.trans ?messages (.foldl (fun s b => leaveOf_kept s n b) _ _)
  refine ChainsKept.trans ?closes (.foldl (fun s m => .of_cores (send_beside s m).cores) _ _)
  refine ChainsKept.trans (.setCore ?core) (.of_cores (setMem_cores ..))
  exact (fcloseDone_kept (s.core n)).trans (.of_eq rfl rfl)

theorem commandDone_kept (id : Nat) : ChainsKept s (s.commandDone n id) := by
  refine (ChainsKept.setCore ?_).trans (progress_kept _ n)
  exact .of_eq rfl rfl

/-- The completion of an engine command changes no scratchpad and no chain that is queued. -/
theorem cmdComplete_kept (id : Nat) (x : Exc) : ChainsKept s (s.cmdComplete n id x) := by
  have hcount : CoreKept (s.core n) ((s.core n).count x 0 0) := by
    rw [count_frame]
    exact .of_eq rfl rfl
  unfold State.cmdComplete
  dsimp only
  obtain ⟨-, -, hoffers⟩ := offers_frame ((s.setCore n ((s.core n).count x 0 0).returnGrants).commandDone n id) (clusterOf n)
  refine ChainsKept.trans (ChainsKept.trans (.setCore ?_) (commandDone_kept _ n id)) (.of_cores hoffers)
  exact hcount.trans (.of_eq rfl rfl)

end

end Sys2Proof.Laws
end

section
/-!
SUPPORT. What a chain writes as it runs (R243, R244), on the bytes of the scratchpad alone.
-/

namespace Sys2Proof.Laws
open Sys2Proof.Machine

variable (q : ChainCmd)

/-- Where element `e` of the destination is. -/
def chainDst (e : Nat) : Nat := q.pd + fmtBytes q.dst * e

/-- The bytes of element `e` of the destination, from the elements of the sources in the scratchpad `m`. -/
def chainBytes (m : FMap Byte) (e : Nat) : List Byte :=
  leBytes (fmtBytes q.dst) (q.elem (leNat (fgetAll 0 m (q.ps0 + fmtBytes q.src * e) (fmtBytes q.src)))
    (leNat (fgetAll 0 m (q.ps1 + fmtBytes q.src * e) (fmtBytes q.src)))).1

/-- The scratchpad `m` after `k` elements from element `e` on; each write is visible to later reads. -/
def chainWrites : Nat → Nat → FMap Byte → FMap Byte
  | 0, _, m => m
  | k + 1, e, m => chainWrites k (e + 1) (fsetAll 0 m (chainDst q e) (chainBytes q m e))

/-- The address is none of the destination. -/
def OffDst (a : Nat) : Prop := a < q.pd ∨ q.pd + fmtBytes q.dst * q.n ≤ a

/-- No byte of a source is one of the destination. -/
def ChainApart : Prop := ∀ p ∈ [q.ps0, q.ps1], p + fmtBytes q.src * q.n ≤ q.pd ∨ q.pd + fmtBytes q.dst * q.n ≤ p

@[simp] theorem chainBytes_length (m : FMap Byte) (e : Nat) : (chainBytes q m e).length = fmtBytes q.dst := leBytes_length ..

theorem chainDst_succ (e : Nat) : chainDst q (e + 1) = chainDst q e + fmtBytes q.dst := by
  rw [chainDst, chainDst, Nat.mul_succ, Nat.add_assoc]

theorem chainDst_le {e k : Nat} (h : e ≤ k) : chainDst q e ≤ chainDst q k := Nat.add_le_add_left (Nat.mul_le_mul_left _ h) _

section
variable {q} {m m' : FMap Byte}

/-- Scratchpads that read alike over a range give the same bytes. -/
theorem fgetAll_congr {α : Type} {d : α} {m m' : FMap α} {a n : Nat} (h : ∀ i, i < n → fget d m (a + i) = fget d m' (a + i)) :
    fgetAll d m a n = fgetAll d m' a n := by
  rw [fgetAll_eq_map, fgetAll_eq_map]
  exact List.map_congr_left fun i hi => h i (List.mem_range.1 hi)

/-- An element depends on no byte of the destination. -/
theorem chainBytes_congr (hq : ChainApart q) (h : ∀ a, OffDst q a → fget 0 m a = fget 0 m' a) {e : Nat} (he : e < q.n) :
    chainBytes q m e = chainBytes q m' e := by
  have hsrc : ∀ p ∈ [q.ps0, q.ps1], fgetAll 0 m (p + fmtBytes q.src * e) (fmtBytes q.src) =
      fgetAll 0 m' (p + fmtBytes q.src * e) (fmtBytes q.src) := by
    intro p hp
    have hin : fmtBytes q.src * e + fmtBytes q.src ≤ fmtBytes q.src * q.n := Nat.mul_le_mul_left (fmtBytes q.src) he
    refine fgetAll_congr fun i hi => h _ ((hq p hp).imp (fun hbelow => ?_) fun habove => ?_) <;> omega
  rw [chainBytes, hsrc q.ps0 (by simp), hsrc q.ps1 (by simp)]
  rfl

/-- A run changes its own elements of the destination alone. -/
theorem fget_chainWrites_out {a : Nat} : ∀ {k e : Nat} {m : FMap Byte}, a < chainDst q e ∨ chainDst q (e + k) ≤ a →
    fget 0 (chainWrites q k e m) a = fget 0 m a
  | 0, _, _, _ => rfl
  | k + 1, e, m, h => by
    have hnext := chainDst_succ q e
    have hlast : chainDst q (e + 1) ≤ chainDst q (e + (k + 1)) := chainDst_le q (by omega)
    have hrest : a < chainDst q (e + 1) ∨ chainDst q (e + 1 + k) ≤ a := by
      rw [show e + 1 + k = e + (k + 1) by omega]
      omega
    rw [chainWrites, fget_chainWrites_out hrest, fget_fsetAll_out _ _ _ _ _ (by rw [chainBytes_length]; omega)]

/-- Every element that a run has written is the chain of operations on the elements of the sources as they were. -/
theorem fgetAll_chainWrites (hq : ChainApart q) {j : Nat} : ∀ {k e : Nat} {m : FMap Byte}, e + k ≤ q.n → e ≤ j → j < e + k →
    fgetAll 0 (chainWrites q k e m) (chainDst q j) (fmtBytes q.dst) = chainBytes q m j
  | 0, _, _, _, hle, hlt => absurd hlt (Nat.not_lt.2 hle)
  | k + 1, e, m, hn, hle, hlt => by
    rw [chainWrites]
    rcases Nat.eq_or_lt_of_le hle with rfl | hlater
    · have hkept : fgetAll 0 (chainWrites q k (e + 1) (fsetAll 0 m (chainDst q e) (chainBytes q m e))) (chainDst q e) (fmtBytes q.dst) =
          fgetAll 0 (fsetAll 0 m (chainDst q e) (chainBytes q m e)) (chainDst q e) (fmtBytes q.dst) :=
        fgetAll_congr fun i hi => fget_chainWrites_out (.inl (by rw [chainDst_succ]; omega))
      have hread := fgetAll_fsetAll 0 (chainBytes q m e) m (chainDst q e)
      rw [chainBytes_length] at hread
      rw [hkept, hread]
    · rw [fgetAll_chainWrites hq (by omega) hlater (by omega)]
      refine chainBytes_congr hq (fun a ha => fget_fsetAll_out _ _ _ _ _ ?_) (by omega)
      have hfirst : q.pd ≤ chainDst q e := Nat.le_add_right _ _
      have hend : chainDst q (e + 1) ≤ chainDst q q.n := chainDst_le q (by omega)
      rw [chainDst_succ, chainDst] at hend
      rw [chainBytes_length]
      exact ha.imp (fun hbelow => by omega) fun habove => Nat.le_trans hend habove

end

end Sys2Proof.Laws
end

section
/-!
SUPPORT. CHAIN_RUN and `VCHAIN` (R133, R134, R243, R244).
-/

namespace Sys2Proof.Laws
open Sys2Proof.Machine

section
variable (s : State) (n a : Nat) (bs : List Byte) (set : IncSet)

theorem padStore_pad : ((s.padStore n a bs set).core n).pad = fsetAll 0 (s.core n).pad a bs := by
  rw [State.padStore, ((trigger_kept _ n _ set).core n).pad, core_setCore_same]
  rfl

theorem padStore_chains (l : Nat) : (((s.padStore n a bs set).core n).lane l).cq = ((s.core n).lane l).cq := by
  rw [State.padStore, ((trigger_kept _ n _ set).core n).chains, core_setCore_same]
  rfl

end

section
variable (q : ChainCmd) (n : Nat)

theorem chainRun_pad : ∀ (k e : Nat) (s : State) (x : Exc),
    ((q.run n k e s x).1.core n).pad = chainWrites q k e (s.core n).pad
  | 0, _, _, _ => rfl
  | k + 1, e, s, x => by
    rw [ChainCmd.run, chainRun_pad k, padStore_pad]
    rfl

theorem chainRun_chains (l : Nat) : ∀ (k e : Nat) (s : State) (x : Exc),
    (((q.run n k e s x).1.core n).lane l).cq = ((s.core n).lane l).cq
  | 0, _, _, _ => rfl
  | k + 1, e, s, x => by
    rw [ChainCmd.run, chainRun_chains l k, padStore_chains]

end

section
variable {s : State} {n lane : Nat} {q : ChainCmd} {qs : List ChainCmd}

/-- The package as a chain has left its queue, has run and is complete. -/
def afterChain (s : State) (n lane : Nat) (q : ChainCmd) (qs : List ChainCmd) : State :=
  let r := q.run n q.n 0 (s.setCore n ((s.core n).setLane lane { (s.core n).lane lane with cq := qs })) excNone
  r.1.cmdComplete n q.cmd.id r.2

theorem chainRun_runs (hq : ((s.core n).lane lane).cq = q :: qs) (hlive : (s.ctx q.cmd.task.ctx).tearing = false) :
    exec (.chainRun n lane) s = .next (afterChain s n lane q qs) := by
  change execChainRun n lane s = _
  unfold execChainRun
  simp only [hq, hlive, Bool.false_eq_true, if_false]
  rfl

variable (s n lane q qs)

theorem afterChain_pad : ((afterChain s n lane q qs).core n).pad = chainWrites q q.n 0 (s.core n).pad := by
  rw [afterChain, ((cmdComplete_kept _ n _ _).core n).pad, chainRun_pad, core_setCore_same]
  rfl

theorem afterChain_chains : (((afterChain s n lane q qs).core n).lane lane).cq = qs := by
  rw [afterChain, ((cmdComplete_kept _ n _ _).core n).chains, chainRun_chains, core_setCore_same, lane_setLane_same]

end

/-! ### `VCHAIN` -/

theorem attach_of_held {x : Succ} {f f1 : Frame} {id : Nat} (hx : x = .none ∧ f1 = f ∨
    ∃ st g, x = .some st g ∧ f1 = g.hold (.start st (some id))) (k : Frame → Act) : x.attach f id k = k f1 := by
  rcases hx with ⟨rfl, rfl⟩ | ⟨st, g, rfl, rfl⟩
  · rfl
  · rfl

theorem bind_of_ok {α β : Type} {x : Chk α} {v : α} (hx : x = .ok v) (g : α → Chk β) : x.bind g = g v := by rw [hx]; rfl

/-- Settles O38: at issue a full queue keeps the chain waiting, and one with room takes it once its checks have passed; as it runs it writes
`chainWrites` to its scratchpad (`chainRun_pad`), whose elements are those of sources that stay as they were (`fgetAll_chainWrites`), and
its completion changes no scratchpad (`cmdComplete_kept`). -/
theorem chains : Obligations.Chains := by
  unfold Obligations.Chains
  refine ⟨fun s f f1 fs h dst src r pd p0 p1 gk gn gs ops => ?issue, fun s n lane q qs hq hlive _ => ?runs⟩
  case issue =>
    intro x c cnt nd ns q
    refine ⟨fun hfull => stops_of_wait q rfl rfl (if_pos (decide_eq_true hfull)),
      fun hcnt hsucc hd h0 h1 hroom hfree => completes_of_go q rfl rfl ?_⟩
    have hchecks : ((f.rangeCheck x (f.ptr pd) nd (fmtBytes dst)).bind fun _ => (f.rangeCheck x (f.ptr p0) ns (fmtBytes src)).bind fun _ =>
        f.rangeCheck x (f.ptr p1) ns (fmtBytes src)) = .ok () := (bind_of_ok hd _).trans ((bind_of_ok h0 _).trans h1)
    calc waitAct (decide (4 ≤ (c.lane f.lane).cq.length)) _ = _ := if_neg (by simpa using hroom)
      _ = _ := if_neg (Nat.not_lt.2 hcnt)
      _ = _ := attach_of_held hsucc _
      _ = _ := act_of_ok hchecks _
      _ = _ := padAct_of_free hfree _
  case runs =>
    dsimp only
    intro hapart
    refine ⟨afterChain s n lane q qs, chainRun_runs hq hlive, afterChain_chains .., fun e he => ?elements, fun a ha => ?others⟩
    case elements =>
      rw [Core.padRead, afterChain_pad]
      exact fgetAll_chainWrites hapart (Nat.le_of_eq (Nat.zero_add _)) (Nat.zero_le e) (by omega)
    case others =>
      rw [afterChain_pad]
      exact fget_chainWrites_out (by simpa [chainDst] using ha)

end Sys2Proof.Laws
end

section
/-!
SUPPORT. Traps and the instructions that enter and leave the trap frame (R352–R356, R365, R368).
-/

namespace Sys2Proof.Laws
open Sys2Proof.Machine

/-! ### `TCAUSE` (R353) -/

section
variable {cause : Nat} (h : cause < 256) (after : Bool)
include h

theorem causeWord_toNat : (causeWord cause after).toNat = cause + (if after then 0x200 else 0) := by
  unfold causeWord
  rw [BitVec.toNat_ofNat, Nat.mod_eq_of_lt]
  split <;> omega

theorem causeWord_lt : (causeWord cause after).toNat < 1024 := by
  rw [causeWord_toNat h]
  split <;> omega

theorem causeWord_cause : (causeWord cause after).toNat % 256 = cause := by
  rw [causeWord_toNat h]
  split <;> omega

/-- The bits above the cause are those of `after` alone. -/
theorem causeWord_bit {k : Nat} (hk : 8 ≤ k) : (causeWord cause after).getLsbD k = (after && k == 9) := by
  obtain ⟨j, rfl⟩ := Nat.exists_eq_add_of_le hk
  have hhigh : (cause + if after then 0x200 else 0) / 2 ^ 8 = if after then 2 ^ 1 else 0 := by
    cases after with
    | false => simp; omega
    | true => simp; omega
  have hj : (8 + j == 9) = decide (1 = j) := by rw [Bool.eq_iff_iff]; simp; omega
  rw [BitVec.getLsbD, causeWord_toNat h, Nat.add_comm 8 j, ← Nat.testBit_div_two_pow, hhigh, Nat.add_comm j 8, hj]
  cases after with
  | false => simp
  | true => exact Nat.testBit_two_pow

end

/-- Settles O10: a trap writes the trap registers of the frame (`takeTrap_eq`), with the cause in the low byte of `TCAUSE`; one in the trap
frame ends the context (`takeTrap_again`, `endCtx_ctx`). -/
theorem trapEntry : Obligations.TrapEntry := by
  unfold Obligations.TrapEntry
  refine ⟨fun s n f fs cause after tval t0 t1 hf hp hc => ?outside, fun s n f fs cause after tval t0 t1 hf hp hx => ?again⟩
  case outside =>
    refine ⟨_, takeTrap_eq hf hp cause after tval t0 t1, rfl, rfl, causeWord_cause hc after, ?_, causeWord_lt hc after, ?_, rfl, rfl,
      rfl, rfl, rfl⟩
    · rw [causeWord_bit hc after (by decide)]; simp
    · rw [causeWord_bit hc after (by decide)]; simp
  case again =>
    dsimp only
    rw [takeTrap_again hf hp, endCtx_ctx _ _ _ _ hx]
    exact ⟨rfl, rfl, rfl, endCtx_cores .., endCtx_mem ..⟩

/-! ### `TRAP`, `BRK` and `TRET` (R354, R355, R365, R368) -/

section
variable {s : State} {f : Frame} {fs : List Frame} {h : Hdr} {i : Instr} {priv : Bool} {regs wr : List Reg}
  {body : Nat → Core → Frame → Act} (q : Issues s f fs h priv regs wr) (hi : i.hdr? = some h)
  (he : exec i s = .next (issue i regs wr priv s body))
include q hi he

/-- An instruction that comes to its own checks does what its body says. -/
theorem exec_act {a : Act} (hb : body s.cur (s.core s.cur) f = a) : exec i s = .next (a.next s s.cur i h) :=
  he.trans (congrArg Host.Outcome.next ((issue_runs q hi).trans (congrArg (Act.next · s s.cur i h) hb)))

theorem exec_trap {cause : Nat} {tval : Word} (hb : body s.cur (s.core s.cur) f = .trap cause tval) :
    exec i s = .next (s.trapped s.cur i cause tval) := exec_act q hi he hb

theorem exec_wait (hb : body s.cur (s.core s.cur) f = .wait) : exec i s = .next (s.stopped s.cur) := exec_act q hi he hb

theorem exec_hold {t : State} (hb : body s.cur (s.core s.cur) f = .hold t) : exec i s = .next t := exec_act q hi he hb

theorem exec_go {t : State} {r : Ret} (hb : body s.cur (s.core s.cur) f = .go t r) : exec i s = .next (t.retire s.cur i h r) :=
  exec_act q hi he hb

theorem exec_leave {t : State} (hb : body s.cur (s.core s.cur) f = .leave t) :
    exec i s = .next (t.setCore s.cur (t.core s.cur).issued) := exec_act q hi he hb

end

theorem setWidth_eq_ofNat {k : Nat} (n : BitVec k) : n.setWidth 64 = BitVec.ofNat 64 n.toNat := by
  apply BitVec.eq_of_toNat_eq
  simp

/-- The bytes that `TRET.next` passes over: the length of the instruction that trapped, 4 where none was decoded (R355). -/
theorem tretPc_next (f : Frame) : f.tretPc true = if f.tcause.getLsbD 9 then f.tpc else
    f.tpc + BitVec.ofNat 64 (if f.tinsn0.extractLsb' 0 2 = 0 then 4 else if f.tinsn0.extractLsb' 0 2 = 1 then 8
      else if f.tinsn0.extractLsb' 0 2 = 2 then 12 else 16) := by
  have hlen : ∀ l : BitVec 2, (let n := lenBytes l; if n = 0 then 4 else n) =
      if l = 0 then 4 else if l = 1 then 8 else if l = 2 then 12 else 16 := by decide
  unfold Frame.tretPc
  rw [hlen]
  cases f.tcause.getLsbD 9 <;> rfl

/-! ### A frame that leaves the stack (R124, R279) -/

section
variable (c : Core) (f : Frame) (fs : List Frame) (keep : Option Nat)

theorem flushPend_frame : flushPend c f = { c with lanes := (flushPend c f).lanes } :=
  (tick_touches (fun _ => True) _ c f fun _ _ => trivial).1.core

theorem returnKept_frame : c.returnKept = { c with kept := none, grants := c.returnKept.grants } := by
  unfold Core.returnKept
  split
  · next hk => rw [← hk]
  · split <;> rfl

/-- A frame that leaves changes the vector registers and the grants alone. -/
theorem pop_frame : c.pop f fs keep = { c with
    frames := fs, lanes := (c.pop f fs keep).lanes, kept := (c.pop f fs keep).kept, grants := (c.pop f fs keep).grants } := by
  unfold Core.pop
  rw [flushPend_frame]
  cases keep with
  | some t => dsimp only; rw [returnKept_frame]
  | none => dsimp only; split <;> rfl

@[simp] theorem pop_frames : (c.pop f fs keep).frames = fs := by rw [pop_frame]

theorem issued_frame : c.issued = { c with espos := c.issued.espos, passed := false, dbg := { c.dbg with issued := true } } := by
  unfold Core.issued Core.advancePos
  split <;> rfl

@[simp] theorem issued_frames : c.issued.frames = c.frames := by rw [issued_frame]

end

section
variable {s : State} {n : Nat} {f : Frame} {fs : List Frame} (ht : (s.core n).frames = f :: fs) (hw : f.window = .resident)
include ht hw

/-- A resident window takes no part of the spilled stack with it. -/
theorem popTop_resident (keep : Option Nat) :
    s.popTop n keep = (s.setCore n ((s.core n).pop f fs keep)).setMem (s.mem.unprotect f.uid) := by
  have hfree : s.freeWindow n f = s := by unfold State.freeWindow; rw [hw]
  unfold State.popTop
  rw [ht]
  dsimp only
  rw [hfree, ht]
  rfl

/-- The watches that the open bundle of a frame would arm. -/
def unarmed (c : Core) (f : Frame) : Core :=
  { c with watches := c.watches.filter fun w => w.armed || !f.bundle.effects.contains (.arm w.id) }

theorem dropTop_resident : s.dropTop n =
    ((s.setCore n (unarmed (s.core n) f)).setCore n ((unarmed (s.core n) f).pop f fs none)).setMem (s.mem.unprotect f.uid) := by
  have ht' : ((s.setCore n (unarmed (s.core n) f)).core n).frames = f :: fs := by rw [core_setCore_same]; exact ht
  have hpop := popTop_resident ht' hw none
  rw [core_setCore_same] at hpop
  unfold State.dropTop
  dsimp only
  split
  · next h => rw [ht] at h; cases h
  · next h =>
    rw [ht] at h
    cases h
    exact hpop

theorem dropTop_core : (s.dropTop n).core n = (unarmed (s.core n) f).pop f fs none := by
  rw [dropTop_resident ht hw, core_setMem, core_setCore_same]

theorem dropTop_frames : ((s.dropTop n).core n).frames = fs := by rw [dropTop_core ht hw, pop_frames]

/-- Beside its core and the versions kept for its task a frame that is dropped leaves the package alone. -/
theorem dropTop_frame : s.dropTop n = { s with cores := (s.dropTop n).cores, mem := s.mem.unprotect f.uid } := by
  rw [dropTop_resident ht hw]
  rfl

end

/-! ### The instructions (R354, R355, R365, R368) -/

section
variable {s : State} {f : Frame} {fs : List Frame} {h : Hdr} {n : BitVec 24}

theorem trap_traps (q : Issues s f fs h false [] []) :
    exec (.trap h n) s = .next (s.trapped s.cur (.trap h n) 0x08 (BitVec.ofNat 64 n.toNat)) :=
  exec_trap q rfl rfl (congrArg (Act.trap 0x08) (setWidth_eq_ofNat n))

theorem brk_halted (q : Issues s f fs h false [] []) (hb : f.brkHalted = true) : results s (.brk h n) h [] :=
  exec_go q rfl rfl (if_pos hb)

theorem brk_waits (q : Issues s f fs h false [] []) (hb : f.brkHalted = false) (he : (s.core s.cur).dbg.brken = true) :
    exec (.brk h n) s = .next (s.stopped s.cur) :=
  exec_wait q rfl rfl ((if_neg (by simp [hb])).trans (if_pos he))

theorem brk_traps (q : Issues s f fs h false [] []) (hb : f.brkHalted = false) (he : (s.core s.cur).dbg.brken = false) :
    exec (.brk h n) s = .next (s.trapped s.cur (.brk h n) 0x09 (BitVec.ofNat 64 n.toNat)) :=
  exec_trap q rfl rfl ((if_neg (by simp [hb])).trans ((if_neg (by simp [he])).trans (congrArg (Act.trap 0x09) (setWidth_eq_ofNat n))))

/-- `TRET` and `TRET.next` leave the trap frame and go on where `tretPc` says. -/
theorem trapReturn_completes {i : Instr} {next : Bool} (q : Issues s f fs h true [] []) (hi : i.hdr? = some h)
    (he : exec i s = trapReturn i next s) {pc : Word} (hpc : f.tretPc next = pc) :
    exec i s = .next ((s.setCore s.cur { s.core s.cur with frames := { f with priv := false, pc } :: fs }).retire s.cur i h
      { Ret.plain with pc := some pc, cycles := 3 }) := by
  subst hpc
  refine exec_go q hi he ?_
  rw [Core.setTop, q.top]
  rfl

theorem tretKill_leaves (q : Issues s f fs h true [] []) : exec (.tretKill h) s =
    .next (((s.dropTop s.cur).offers (clusterOf s.cur)).setCore s.cur
      (((s.dropTop s.cur).offers (clusterOf s.cur)).core s.cur).issued) := exec_leave q rfl rfl rfl

theorem tretEnd_ends (q : Issues s f fs h true [] []) : exec (.tretEnd h) s =
    .next ((s.endCtx f.task.ctx 0x0D (ordOf f.task.id)).setCore s.cur
      ((s.endCtx f.task.ctx 0x0D (ordOf f.task.id)).core s.cur).issued) := exec_leave q rfl rfl rfl

end

/-- Settles O11: `TRAP` and `BRK` as their bodies say; `TRET` and `TRET.next` leave the trap frame (`trapReturn_completes`), `TRET.kill` drops
its frame (`dropTop_frames`) and `TRET.end` ends the context (`endCtx_ctx`). -/
theorem trapInstructions : Obligations.TrapInstructions := by
  unfold Obligations.TrapInstructions
  refine ⟨fun s f fs h n q => ⟨trap_traps q, brk_halted q, brk_waits q, brk_traps q⟩, fun s f fs h q => ?returns⟩
  case returns =>
    intro c step next
    refine ⟨trapReturn_completes q rfl rfl rfl, trapReturn_completes q rfl rfl (tretPc_next f), fun hw => ?kill, _, tretEnd_ends q,
      fun hx => ?ends⟩
    case kill =>
      have hoff := offers_frame (s.dropTop s.cur) (clusterOf s.cur)
      obtain ⟨hrel, -, hcores⟩ := hoff
      refine ⟨_, tretKill_leaves q, ?_, ?_⟩
      · rw [core_setCore_same, issued_frames, core_of_cores hcores, dropTop_frames q.top hw]
      · rw [setCore_releases, hrel, dropTop_frame q.top hw]
    case ends =>
      rw [ctx_setCore, endCtx_ctx _ _ _ _ hx]
      exact ⟨rfl, rfl, rfl⟩

end Sys2Proof.Laws
end

section
/-!
SUPPORT. Claims, barriers, watches and queues (R283–R293): what each instruction does at issue, and what an arrival and a push do.
-/

namespace Sys2Proof.Laws
open Sys2Proof.Machine

/-! ### Claims (R283) -/

/-- An acquire that a view can hold goes on with that view (R215). -/
theorem acquireAct_of_acquired {s : State} {n : Nat} {c : Core} {f : Frame} {set : IncSet} {v : View}
    (hv : c.acquire (s.writer n) f.view set = some v) (g : View → Act) : acquireAct s n c f set g = g v := by
  unfold acquireAct
  rw [hv]

section
variable {s : State} {f : Frame} {fs : List Frame} {h : Hdr} {g : BitVec 6} (q : Issues s f fs h false [] [])
include q

/-- A guard that the task may claim: its ceiling is no lower than the task's priority. -/
def Claimable (s : State) (f : Frame) (g : BitVec 6) : Prop :=
  ((s.ctx f.task.ctx).guard g.toNat).kind ≠ 0 ∧ f.prio ≤ ((s.ctx f.task.ctx).guard g.toNat).ceil

theorem claim_unused (hk : ((s.ctx f.task.ctx).guard g.toNat).kind = 0) :
    exec (.claim h g) s = .next (s.trapped s.cur (.claim h g) 0x28 0) := exec_trap q rfl rfl (if_pos hk)

theorem claim_low (hk : ((s.ctx f.task.ctx).guard g.toNat).kind ≠ 0) (hc : ((s.ctx f.task.ctx).guard g.toNat).ceil < f.prio) :
    exec (.claim h g) s = .next (s.trapped s.cur (.claim h g) 0x27 0) := exec_trap q rfl rfl ((if_neg hk).trans (if_pos hc))

theorem claim_again (hg : Claimable s f g) (hc : g ∈ f.claims ∨ f.claims.length = 8) :
    exec (.claim h g) s = .next (s.trapped s.cur (.claim h g) 0x28 0) := by
  refine exec_trap q rfl rfl ((if_neg hg.1).trans ((if_neg (Nat.not_lt.2 hg.2)).trans ?_))
  by_cases hm : g ∈ f.claims
  · exact if_pos (List.contains_iff_mem.2 hm)
  · exact (if_neg (by simpa using hm)).trans (if_pos (hc.resolve_left hm))

theorem claim_completes (hg : Claimable s f g) (hm : g ∉ f.claims) (hl : f.claims.length < 8) {v : View}
    (hv : (s.core s.cur).acquire (s.writer s.cur) f.view (fget [] (s.core s.cur).guards g.toNat) = some v) :
    completes s (.claim h g) h
      (s.setCore s.cur ((s.core s.cur).setTop { (s.core s.cur).acquired f v with claims := f.claims ++ [g] })) Ret.plain :=
  completes_of_go q rfl rfl ((if_neg hg.1).trans ((if_neg (Nat.not_lt.2 hg.2)).trans ((if_neg (by simpa using hm)).trans
    ((if_neg (Nat.ne_of_lt hl)).trans (acquireAct_of_acquired hv _)))))

theorem unclaim_traps (hl : f.claims.getLast? ≠ some g) : exec (.unclaim h g) s = .next (s.trapped s.cur (.unclaim h g) 0x28 0) :=
  exec_trap q rfl rfl (if_pos hl)

theorem unclaim_completes {cs : List (BitVec 6)} {set : IncSet} (hc : f.claims = cs ++ [g])
    (hs : (s.core s.cur).reduceSet (s.writer s.cur) ((s.core s.cur).includedSet (s.writer s.cur) f.view) = some set) :
    completes s (.unclaim h g) h ((s.setCore s.cur { (s.core s.cur).setTop { f with claims := cs } with
      guards := fset [] (s.core s.cur).guards g.toNat set }).offers (clusterOf s.cur)) Ret.plain := by
  have hlast : f.claims.getLast? = some g := by rw [hc]; exact List.getLast?_concat
  have hcs : cs = f.claims.dropLast := by rw [hc, List.dropLast_concat]
  subst hcs
  exact completes_of_go q rfl rfl ((if_neg (not_not.2 hlast)).trans (by rw [hs]; rfl))

end

/-- Settles O27: each check of `CLAIM` and `UNCLAIM` in its order, and what the one that passes them does. -/
theorem claimsNest : Obligations.ClaimsNest := by
  unfold Obligations.ClaimsNest
  intro s f fs h g q
  exact ⟨claim_unused q, claim_low q, fun hk hp => claim_again q ⟨hk, hp⟩,
    fun hk hp hm hl v hv => ⟨claim_completes q ⟨hk, hp⟩ hm hl hv, rfl, rfl⟩, unclaim_traps q, fun cs set => unclaim_completes q⟩

/-! ### Barriers (R286–R288) -/

section
variable {s : State} {f : Frame} {fs : List Frame} {h : Hdr} {a b : GReg} {p : AReg} {phase : BitVec 4} {cm1 : BitVec 8}

theorem arrive_completes (q : Issues s f fs h false [.g a] []) {k : Nat} (hv : (f.getG a).toNat < 2 ^ 42)
    (hat : (s.ctx f.task.ctx).barrierAt ((f.getG a).toNat % 2 ^ 32) = true)
    (hk : (s.ctx f.task.ctx).cores[(f.getG a).toNat / 2 ^ 32]? = some k) :
    completes s (.arrive h a phase cm1) h (s.setCore s.cur ((s.core s.cur).setTop
      (f.hold (.arrive k ((f.getG a).toNat % 2 ^ 32) phase.toNat (cm1.toNat + 1))))) Ret.plain := by
  have hoff : ((f.getG a).extractLsb' 0 32).toNat = (f.getG a).toNat % 2 ^ 32 := by simp
  have hcore : ((f.getG a).extractLsb' 32 10).toNat = (f.getG a).toNat / 2 ^ 32 := by
    rw [BitVec.extractLsb'_toNat, Nat.shiftRight_eq_div_pow]
    omega
  refine completes_of_go q rfl rfl ?_
  simp only [hoff, hcore, hv, hat, and_self, if_true, Ctx.coreOf, hk]

/-- What `BINIT` of an object needs: a place in the static area, a target, a mask of phases, and a group that can start. -/
structure BarrierOk (x : Ctx) (at_ : Nat) (target : BitVec 16) (mask : Nat) (succ : BitVec 8) : Prop where
  placed : x.barrierAt at_ = true
  counts : target ≠ 0
  masked : mask < 65536
  starts : succ = 0xFF ∨ (x.group succ.toNat).kind = 1 ∧ ∀ t ∈ x.groupMembers succ.toNat, x.startable t = true

/-- The object that `BINIT` writes: all of its arrivals are to come (R286). -/
def initialBarrier (target : BitVec 16) (mask : Nat) (succ : BitVec 8) (phase : BitVec 4) : Barrier :=
  { succ := succ.toNat, dpmask := mask, target := target.toNat, count := target.toNat,
    done := 0, early := 0, errph := 0, err := 0, phase := phase.toNat }

theorem initialBarrier_bytes (target : BitVec 16) {mask : Nat} (succ : BitVec 8) (phase : BitVec 4) (hm : mask < 65536) :
    (initialBarrier target mask succ phase).bytes =
      leBytes 16 (phase.toNat + 2 ^ 48 * target.toNat + 2 ^ 64 * target.toNat + 2 ^ 96 * mask + 2 ^ 120 * succ.toNat) := by
  have h1 := phase.isLt
  have h2 := target.isLt
  have h3 := succ.isLt
  unfold Barrier.bytes initialBarrier
  congr 1
  dsimp only
  omega

theorem binit_completes (q : Issues s f fs h false [.a p, .g b] []) {target : BitVec 16} {succ : BitVec 8}
    (ho : BarrierOk (s.ctx f.task.ctx) (f.getA p).toNat target (f.getG b).toNat succ)
    (hfree : (s.core s.cur).rangeWaits [] [((f.getA p).toNat, 16)] = false) :
    completes s (.binit h p b target succ phase) h
      ((s.setCore s.cur { s.core s.cur with
        merges := fset { cur := [], next := [] } (s.core s.cur).merges (f.getA p).toNat { cur := [], next := [] } }).instrStore s.cur f
        (f.getA p).toNat
        (leBytes 16 (phase.toNat + 2 ^ 48 * target.toNat + 2 ^ 64 * target.toNat + 2 ^ 96 * (f.getG b).toNat + 2 ^ 120 * succ.toNat)))
      Ret.plain := by
  refine completes_of_go q rfl rfl ((if_neg ?checks).trans ((padAct_of_free hfree _).trans ?writes))
  case checks =>
    simp only [ho.placed, ho.counts, Nat.not_le.2 ho.masked, Bool.not_true, Bool.false_eq_true, false_or, Bool.not_eq_eq_eq_not,
      decide_eq_false_iff_not, List.all_eq_true]
    exact not_not.2 ho.starts
  case writes => rw [← initialBarrier_bytes _ _ _ ho.masked]; rfl

end

section
variable {o : Barrier} {mg : Merge} {ph n : Nat} {set : IncSet} (he : o.err = 0)
include he

theorem apply_counts (hp : ph = o.phase) (hn : n < o.count) : o.apply mg ph n set =
    { obj := { o with count := o.count - n }, mg := { mg with cur := mergeSets mg.cur set }, phases := [], bad := 0 } := by
  unfold Barrier.apply
  simp only [he, hp, ne_eq, not_true_eq_false, if_true, if_false]
  rw [if_neg (Nat.not_lt.2 (Nat.le_of_lt hn)), if_neg (by omega)]

theorem apply_last (hp : ph = o.phase) (hn : n = o.count) : o.apply mg ph n set = completePhases 3
    { obj := { o with count := 0 }, mg := { mg with cur := mergeSets mg.cur set }, phases := [], bad := 0 } := by
  unfold Barrier.apply
  simp only [he, hp, hn, ne_eq, not_true_eq_false, if_true, if_false, Nat.lt_irrefl, Nat.sub_self]

omit he in
theorem next_ne_phase (hp : ph = (o.phase + 1) % 16) : ph ≠ o.phase := by omega

theorem apply_early (hp : ph = (o.phase + 1) % 16) (hn : o.early + n ≤ o.target) : o.apply mg ph n set =
    { obj := { o with early := o.early + n }, mg := { mg with next := mergeSets mg.next set }, phases := [], bad := 0 } := by
  unfold Barrier.apply
  rw [if_neg (not_not.2 he), if_neg (next_ne_phase hp), if_pos hp, if_neg (Nat.not_lt.2 hn)]

theorem apply_tooMany (h : ph = o.phase ∧ o.count < n ∨ ph = (o.phase + 1) % 16 ∧ o.target < o.early + n) :
    o.apply mg ph n set = { obj := { o with err := 2, errph := ph }, mg, phases := [], bad := 2 } := by
  unfold Barrier.apply
  rw [if_neg (not_not.2 he)]
  rcases h with ⟨hp, hn⟩ | ⟨hp, hn⟩
  · rw [if_pos hp, if_pos hn]
  · rw [if_neg (next_ne_phase hp), if_pos hp, if_pos hn]

theorem apply_otherPhase (hp : ph ≠ o.phase) (hp' : ph ≠ (o.phase + 1) % 16) :
    o.apply mg ph n set = { obj := { o with err := 1, errph := ph }, mg, phases := [], bad := 1 } := by
  unfold Barrier.apply
  rw [if_neg (not_not.2 he), if_neg hp, if_neg hp']

end

/-- The object after a phase that completes (R288). -/
def phaseCompleted (r : Applied) : Applied :=
  { r with
    obj := { r.obj with done := (r.obj.done + 1) % 65536, phase := (r.obj.phase + 1) % 16, count := r.obj.target - r.obj.early, early := 0 }
    mg := { cur := r.mg.next, next := [] }
    phases := r.phases ++ [(r.obj.phase, r.mg.cur)] }

theorem completePhases_one {k : Nat} {r : Applied} (h : r.obj.early < r.obj.target) : completePhases (k + 1) r = phaseCompleted r :=
  if_neg (Nat.sub_ne_zero_of_lt h)

/-- Where `EARLY` equals `TARGET` the next phase completes with this one. -/
theorem completePhases_two {k : Nat} {r : Applied} (h : r.obj.early = r.obj.target) (ht : 0 < r.obj.target) :
    completePhases (k + 2) r = phaseCompleted (phaseCompleted r) :=
  (if_pos (Nat.sub_eq_zero_of_le (Nat.le_of_eq h.symm))).trans (completePhases_one (r := phaseCompleted r) ht)

/-- Settles O28: `BINIT` and `ARRIVE` as their bodies say, and the cases of `apply` (`apply_counts` to `apply_otherPhase`), of which the last
arrival of a phase completes one phase or two (`completePhases_one`, `completePhases_two`). -/
theorem barriers : Obligations.Barriers := by
  unfold Obligations.Barriers
  refine ⟨fun s f fs h a b p phase cm1 target succ => ⟨fun q k hv hat hk => arrive_completes q hv hat hk,
    fun q hat ht hm hs hfree => binit_completes q ⟨hat, ht, hm, hs⟩ hfree⟩,
    fun o mg ph n set he hlt hle ht hn => ⟨fun hp h => ?counts, fun hp h hl => ?last, fun hp h heq => ?both, fun hp h => ?early,
      fun h => ?tooMany, fun hp hp' => ?other⟩⟩
  case counts =>
    rw [apply_counts he hp h]
    exact ⟨rfl, rfl, rfl, rfl⟩
  case last =>
    rw [apply_last he hp h, completePhases_one (by exact hl), hp]
    exact ⟨rfl, rfl, rfl, rfl⟩
  case both =>
    rw [apply_last he hp h, completePhases_two (by exact heq) (by exact ht), hp]
    refine ⟨?_, rfl, rfl, rfl⟩
    simp only [phaseCompleted, Nat.sub_zero, Nat.mod_add_mod, Nat.add_assoc]
  case early =>
    rw [apply_early he hp h]
    exact ⟨rfl, rfl, rfl⟩
  case tooMany =>
    rw [apply_tooMany he h]
    exact ⟨rfl, rfl, rfl⟩
  case other =>
    rw [apply_otherPhase he hp hp']
    exact ⟨rfl, rfl, rfl⟩

end Sys2Proof.Laws
end

section
/-!
SUPPORT. Watches and queues (R289–R293), and the arrivals and pushes that the units of a core apply (R274, R288, R292, R357).
-/

namespace Sys2Proof.Laws
open Sys2Proof.Machine

/-! ### Watches (R289, R290) -/

theorem zext_wide (wide : Bool) (v : Word) : zext (wideBytes wide) v.toNat = if wide then v else v &&& 0xFFFFFFFF := by
  apply BitVec.eq_of_toNat_eq
  have hv := v.isLt
  cases wide with
  | true =>
    change v.toNat % 2 ^ 64 % 2 ^ 64 = v.toNat
    omega
  | false =>
    change v.toNat % 2 ^ 32 % 2 ^ 64 = (v &&& 0xFFFFFFFF).toNat
    rw [BitVec.toNat_and, show (0xFFFFFFFF : Word).toNat = 2 ^ 32 - 1 from rfl, Nat.and_two_pow_sub_one_eq_mod]
    omega

section
variable {s : State} {f : Frame} {fs : List Frame} {h : Hdr} {wide : Bool} {d a b : GReg} {p : AReg} {qr : QReg} {t : BitVec 12}

/-- The watch that `WATCH` names, with its start. -/
def namedWatch (s : State) (wide : Bool) (at_ : Nat) (val : Word) (st : Start) : Watch :=
  { id := s.uid, addr := at_, size := if wide then 8 else 4, val := if wide then val else val &&& 0xFFFFFFFF,
    start := st, set := [], armed := false }

theorem watch_completes (q : Issues s f fs h false ([.a p, .g b] ++ s.argRegs fun _ => [t.toNat]) []) {m : Template}
    (hm : (s.ctx f.task.ctx).templates[t.toNat]? = some m) (hp : (s.ctx f.task.ctx).placeCores m ≠ [])
    (hroom : (s.core s.cur).watches.length < 16)
    (hpad : f.padCheck (s.ctx f.task.ctx) (f.getA p).toNat (wideBytes wide) = .ok ()) :
    completes s (.watch h wide p b t) h (s.setCore s.cur { (s.core s.cur).setTop
      (((s.ctx f.task.ctx).startBy f t.toNat (f.passArgs m)).2.hold (.arm s.uid)) with
        watches := (s.core s.cur).watches ++ [namedWatch s wide (f.getA p).toNat (f.getG b)
          ((s.ctx f.task.ctx).startBy f t.toNat (f.passArgs m)).1] }).fresh Ret.plain := by
  have hstart : (s.ctx f.task.ctx).startable t.toNat = true := (startable_iff hm).2 hp
  refine completes_of_go q rfl rfl ((if_neg (by simp [hstart])).trans ((if_neg (Nat.not_le.2 hroom)).trans ((act_of_ok hpad _).trans ?_)))
  simp only [hm, Option.map_some, Option.getD_some, zext_wide]
  rfl

theorem unwatch_completes (q : Issues s f fs h false [.g d, .a p] [])
    (hpad : f.padCheck (s.ctx f.task.ctx) (f.getA p).toNat 4 = .ok ()) :
    completes s (.unwatch h d p) h (s.setCore s.cur { s.core s.cur with
        watches := (s.core s.cur).watches.filter fun w => !(w.armed && w.addr == (f.getA p).toNat) })
      { Ret.plain with writes := [gRes d (BitVec.ofNat 64
        ((s.core s.cur).watches.filter fun w => w.armed && w.addr == (f.getA p).toNat).length) 2] } :=
  completes_of_go q rfl rfl (act_of_ok hpad _)

/-! ### Queues (R291–R293) -/

theorem qpush_completes (q : Issues s f fs h false [.g a, .g b] []) {k : Nat} (hv : (f.getG a).toNat < 1024)
    (hk : (s.ctx f.task.ctx).cores[(f.getG a).toNat]? = some k) :
    completes s (.qpush h qr a b) h (s.setCore s.cur ((s.core s.cur).setTop (f.hold (.push k qr.toNat (f.getG b))))) Ret.plain := by
  refine completes_of_go q rfl rfl ?_
  simp only [hv, if_true, Ctx.coreOf, hk]

theorem qpop_traps (q : Issues s f fs h false [.g d] []) (he : ((s.core s.cur).queue qr.toNat).elems = []) :
    exec (.qpop h d qr) s = .next (s.trapped s.cur (.qpop h d qr) 0x2B 0) :=
  exec_trap q rfl rfl (by simp only [he])

theorem qpop_completes (q : Issues s f fs h false [.g d] []) {e : QElem} {es : List QElem} {v : View}
    (he : ((s.core s.cur).queue qr.toNat).elems = e :: es) (hv : (s.core s.cur).acquire (s.writer s.cur) f.view e.set = some v) :
    completes s (.qpop h d qr) h (s.setCore s.cur (((s.core s.cur).setTop ((s.core s.cur).acquired f v)).setQueue qr.toNat
      { (s.core s.cur).queue qr.toNat with elems := es, r := ((s.core s.cur).queue qr.toNat).r - 1 }))
      { Ret.plain with writes := [gRes d e.val 2] } := by
  refine completes_of_go q rfl rfl ?_
  simp only [he]
  exact acquireAct_of_acquired hv _

/-- The values that `QCFG` takes: N, the template, and no bit beyond; a template of a queue that triggers can start. -/
def QcfgOk (x : Ctx) (v : Word) : Prop :=
  v.toNat % 64 ≤ 32 ∧ v.toNat / 64 < 4096 ∧ (v.toNat % 64 = 0 ∨ x.startable (v.toNat / 64) = true)

theorem qcfg_completes (q : Issues s f fs h false [.g a] []) (hv : QcfgOk (s.ctx f.task.ctx) (f.getG a)) :
    completes s (.qcfg h qr a) h ((s.setCore s.cur ((s.core s.cur).setQueue qr.toNat { (s.core s.cur).queue qr.toNat with
      n := (f.getG a).toNat % 64, t := (f.getG a).toNat / 64, r := 0, m := 0 })).queueTrigger s.cur f.task.ctx qr.toNat 33) Ret.plain := by
  obtain ⟨hn, ht, hs⟩ := hv
  have hmod : (f.getG a).toNat / 64 % 4096 = (f.getG a).toNat / 64 := Nat.mod_eq_of_lt ht
  refine completes_of_go q rfl rfl ((if_neg ?_).trans ?_)
  · rw [hmod]
    rintro (hbig | hbig | ⟨hpos, hstop⟩)
    · omega
    · omega
    · rcases hs with hz | hs
      · omega
      · simp [hs] at hstop
  · rw [hmod]

theorem qcfg_traps (q : Issues s f fs h false [.g a] []) (hv : 32 < (f.getG a).toNat % 64 ∨ 4096 ≤ (f.getG a).toNat / 64 ∨
      ((f.getG a).toNat % 64 ≠ 0 ∧ (s.ctx f.task.ctx).startable ((f.getG a).toNat / 64) = false)) :
    exec (.qcfg h qr a) s = .next (s.trapped s.cur (.qcfg h qr a) 0x2C 0) := by
  refine exec_trap q rfl rfl (if_pos ?_)
  by_cases hbig : 4096 ≤ (f.getG a).toNat / 64
  · exact .inr (.inl (by omega))
  · have hmod : (f.getG a).toNat / 64 % 4096 = (f.getG a).toNat / 64 := Nat.mod_eq_of_lt (by omega)
    rw [hmod]
    rcases hv with hn | ht | ⟨hn, hs⟩
    · exact .inl hn
    · exact absurd ht hbig
    · exact .inr (.inr ⟨Nat.pos_of_ne_zero hn, by simp [hs]⟩)

theorem qlen_results (q : Issues s f fs h false [.g d] []) : results s (.qlen h d qr) h [gRes d (BitVec.ofNat 64
    (((s.core s.cur).queue qr.toNat).elems.length + 2 ^ 8 * ((s.core s.cur).queue qr.toNat).r +
      2 ^ 16 * ((s.core s.cur).queue qr.toNat).n)) 2] := completes_of_go q rfl rfl rfl

end

/-- Settles O29: each instruction as its body says, with its operands checked. -/
theorem watchesAndQueues : Obligations.WatchesAndQueues := by
  unfold Obligations.WatchesAndQueues
  intro s f fs h wide d a b p q t
  exact ⟨fun i m hm hp hroom hpad => watch_completes i hm hp hroom hpad, fun i hpad => unwatch_completes i hpad,
    fun i k hv hk => qpush_completes i hv hk,
    fun i => ⟨qpop_traps i, fun e es v he hv => qpop_completes i he hv, qlen_results i⟩,
    fun i => ⟨fun hn hk hs => qcfg_completes i ⟨hn, hk, hs⟩, qcfg_traps i⟩⟩

/-! ### Arrivals and pushes that are applied (R274, R288, R292, R357; log 25, log 82) -/

section
variable {s : State} {n k q : Nat} {ar : Arrival} {p : Push}

/-- An arrival is in turn when no earlier one of its core waits before it. -/
theorem arrival?_of_inTurn {c : Core} (hk : c.arrivals[k]? = some ar) (hturn : ∀ x ∈ c.arrivals.take k, x.src ≠ ar.src) :
    c.arrival? k = some ar := by
  unfold Core.arrival?
  rw [hk]
  exact if_neg (by simpa using hturn)

theorem arrival?_of_behind {c : Core} (hk : c.arrivals[k]? = some ar) (hb : ∃ x ∈ c.arrivals.take k, x.src = ar.src) :
    c.arrival? k = none := by
  unfold Core.arrival?
  rw [hk]
  exact if_pos (by simpa using hb)

theorem push?_of_inTurn {c : Core} (hk : c.pushes[k]? = some p) (hq : p.q = q)
    (hturn : ∀ x ∈ c.pushes.take k, ¬ (x.src = p.src ∧ x.q = q)) : c.push? q k = some p := by
  unfold Core.push?
  rw [hk]
  exact if_pos ⟨hq, by simpa using hturn⟩

theorem push?_of_behind {c : Core} (hk : c.pushes[k]? = some p) (hb : ∃ x ∈ c.pushes.take k, x.src = p.src ∧ x.q = q) :
    c.push? q k = none := by
  unfold Core.push?
  rw [hk]
  exact if_neg (fun hq => by simp at hq; obtain ⟨x, hx, hsrc, hxq⟩ := hb; exact hq.2 x hx hsrc hxq)

theorem arrivalApply_behind (ha : (s.core n).arrival? k = none) : exec (.arrivalApply { core := n, elem := k }) s = .next s := by
  change execArrivalApply _ s = _
  unfold execArrivalApply
  simp only [ha]

section
variable (ha : (s.core n).arrival? k = some ar) (hl : s.fabric.links (dieOf ar.src) (dieOf n) = true)
include ha hl

theorem arrivalApply_ended (hx : (s.ctx ar.ctx).state ≠ 2) : exec (.arrivalApply { core := n, elem := k }) s =
    .next (s.setCore n { s.core n with arrivals := (s.core n).arrivals.eraseIdx k }) := by
  change execArrivalApply _ s = _
  unfold execArrivalApply
  simp only [ha, hl, hx, Bool.not_true, Bool.false_eq_true, if_false, ne_eq, not_false_eq_true, if_true]

/-- The core after an arrival that completes no phase has left its input. -/
def arrived (c : Core) (k : Nat) (ar : Arrival) (cur next : IncSet) : Core :=
  { c with arrivals := c.arrivals.eraseIdx k, merges := fset { cur := [], next := [] } c.merges ar.addr { cur, next } }

/-- An arrival that completes no phase and meets no error is written to its object. -/
theorem arrivalApply_writes (hx : (s.ctx ar.ctx).state = 2) {obj : Barrier} {mg : Merge} {cur next : IncSet}
    (he : (Barrier.parse (leNat ((s.core n).padRead ar.addr 16))).err = 0)
    (hr : (Barrier.parse (leNat ((s.core n).padRead ar.addr 16))).apply (fget { cur := [], next := [] } (s.core n).merges ar.addr)
      ar.phase ar.n ar.set = { obj, mg, phases := [], bad := 0 })
    (hcur : (s.core n).reduceSet (s.writer n) mg.cur = some cur) (hnext : (s.core n).reduceSet (s.writer n) mg.next = some next) :
    exec (.arrivalApply { core := n, elem := k }) s =
      .next ((s.setCore n (arrived (s.core n) k ar cur next)).padStore n ar.addr obj.bytes ar.set) := by
  change execArrivalApply _ s = _
  unfold execArrivalApply
  simp only [ha, hl, hx, Bool.not_true, Bool.false_eq_true, if_false, ne_eq, not_true_eq_false, Core.padNat, hr, hcur, hnext,
    List.mapM_nil, Option.pure_def, he, if_true, List.foldl_nil]
  rfl

end

/-- A core without watches takes a store into its scratchpad alone. -/
theorem padStore_of_no_watch (a : Nat) (bs : List Byte) (set : IncSet) (hw : (s.core n).watches = []) :
    s.padStore n a bs set = s.setCore n ((s.core n).padWrite a bs) := by
  unfold State.padStore State.trigger
  simp only [core_setCore_same, padWrite_watches, hw, List.any_nil, Bool.false_eq_true, if_false]

theorem barrier_bytes_length (o : Barrier) : o.bytes.length = 16 := leBytes_length _ _

theorem queuePushApply_behind (hp : (s.core n).push? q k = none) : exec (.queuePushApply { core := n, elem := k } q) s = .next s := by
  change execQueuePushApply _ q s = _
  unfold execQueuePushApply
  simp only [hp]

section
variable (hp : (s.core n).push? q k = some p) (hl : s.fabric.links (dieOf p.src) (dieOf n) = true)
include hp hl

theorem queuePushApply_ended (hx : (s.ctx p.ctx).state ≠ 2) : exec (.queuePushApply { core := n, elem := k } q) s =
    .next (s.setCore n { s.core n with pushes := (s.core n).pushes.eraseIdx k }) := by
  change execQueuePushApply _ q s = _
  unfold execQueuePushApply
  simp only [hp, hl, hx, Bool.not_true, Bool.false_eq_true, if_false, ne_eq, not_false_eq_true, if_true]

/-- The core after a push has been appended to queue `q`. -/
def pushed (c : Core) (q k : Nat) (p : Push) : Core :=
  ({ c with pushes := c.pushes.eraseIdx k } : Core).setQueue q { c.queue q with elems := (c.queue q).elems ++ [{ val := p.val, set := p.set }] }

theorem queuePushApply_room (hx : (s.ctx p.ctx).state = 2) (hroom : ((s.core n).queue q).elems.length < 32) :
    exec (.queuePushApply { core := n, elem := k } q) s = .next ((s.setCore n (pushed (s.core n) q k p)).queueTrigger n p.ctx q 33) := by
  change execQueuePushApply _ q s = _
  unfold execQueuePushApply
  simp only [hp, hl, hx, Bool.not_true, Bool.false_eq_true, if_false, ne_eq, not_true_eq_false, Nat.not_le.2 hroom]
  rfl

end

/-- A start that is released changes the releases on their way alone. -/
theorem release_frame (s : State) (src ctx : Nat) (st : Start) (set : IncSet) :
    s.release src ctx st set = { s with releases := (s.release src ctx st set).releases } := by
  unfold State.release
  dsimp only
  split <;> rfl

@[simp] theorem release_core (s : State) (src ctx : Nat) (st : Start) (set : IncSet) (m : Nat) :
    (s.release src ctx st set).core m = s.core m := by rw [release_frame]; rfl

@[simp] theorem release_mem (s : State) (src ctx : Nat) (st : Start) (set : IncSet) : (s.release src ctx st set).mem = s.mem := by
  rw [release_frame]

/-- Triggers leave the elements of the queue, the pushes that wait and the memories (R292). -/
theorem queueTrigger_keeps (n ctx q : Nat) : ∀ (k : Nat) (s : State),
    (((s.queueTrigger n ctx q k).core n).queue q).elems = ((s.core n).queue q).elems ∧
      ((s.queueTrigger n ctx q k).core n).pushes = (s.core n).pushes ∧ (s.queueTrigger n ctx q k).mem = s.mem
  | 0, _ => ⟨rfl, rfl, rfl⟩
  | k + 1, s => by
    unfold State.queueTrigger
    dsimp only
    split
    · exact ⟨rfl, rfl, rfl⟩
    · obtain ⟨helems, hpushes, hmem⟩ := queueTrigger_keeps n ctx q k _
      rw [helems, hpushes, hmem, release_core, core_setCore_same, release_mem]
      rw [coreQueue_same]
      exact ⟨rfl, rfl, rfl⟩

end

/-- Settles O30: an arrival and a push in turn are applied or, of a context that has ended, discarded; one behind another of its core waits. -/
theorem arrivalsAndPushesAreApplied : Obligations.ArrivalsAndPushesAreApplied := by
  unfold Obligations.ArrivalsAndPushesAreApplied
  refine ⟨fun s n k ar hk => ⟨fun hb => arrivalApply_behind (arrival?_of_behind hk hb),
    fun ht hl hx => arrivalApply_ended (arrival?_of_inTurn hk ht) hl hx, fun ht hl hx hw he hp hn _ cur next hcur hnext => ?applied⟩,
    fun s n q k p hk hq => ⟨fun hb => queuePushApply_behind (push?_of_behind hk hb),
      fun ht hl hx => queuePushApply_ended (push?_of_inTurn hk hq ht) hl hx, fun ht hl hx hroom => ?pushed⟩⟩
  case applied =>
    have hread := padRead_padWrite (arrived (s.core n) k ar cur next) ar.addr
      ({ Barrier.parse (leNat ((s.core n).padRead ar.addr 16)) with
        count := (Barrier.parse (leNat ((s.core n).padRead ar.addr 16))).count - ar.n } : Barrier).bytes
    rw [barrier_bytes_length] at hread
    refine ⟨_, arrivalApply_writes (arrival?_of_inTurn hk ht) hl hx he (apply_counts he hp hn) hcur hnext, ?_⟩
    rw [padStore_of_no_watch _ _ _ (by rw [core_setCore_same]; exact hw)]
    simp only [core_setCore_same]
    exact ⟨rfl, hread, fget_fset_same .., rfl, rfl⟩
  case pushed =>
    obtain ⟨helems, hpushes, hmem⟩ := queueTrigger_keeps n p.ctx q 33 (s.setCore n (pushed (s.core n) q k p))
    refine ⟨_, queuePushApply_room (push?_of_inTurn hk hq ht) hl hx hroom, ?_, ?_, hmem⟩
    · rw [helems, core_setCore_same]
      exact (congrArg Queue.elems (coreQueue_same _ _ _) :)
    · rw [hpushes, core_setCore_same]
      rfl

end Sys2Proof.Laws
end

section
/-!
SUPPORT. What the progress of closed bundles leaves alone (R212–R214, R224, R274): of a core it changes its bundles, the arrivals and pushes
that reach it and its watches, once the folds that have closed have been delivered.
-/

namespace Sys2Proof.Laws
open Sys2Proof.Machine

/-! ### Cores but for the effects that leave them and reach them -/

/-- A closed bundle without its held effects. -/
def bareBundle (b : Closed) : Closed := { b with effects := [] }

/-- `d` is core `c` but for the held effects of its bundles, the arrivals and pushes that have reached it, and its watches. -/
structure CoreSpared (c d : Core) : Prop where
  frame : d = { c with closed := d.closed, arrivals := d.arrivals, pushes := d.pushes, watches := d.watches }
  bundles : d.closed.map bareBundle = c.closed.map bareBundle

/-- What held effects leave alone: the cores as `CoreSpared` says, the memories, and the sampling arrays. -/
structure Spared (s t : State) : Prop where
  core : ∀ k, CoreSpared (s.core k) (t.core k)
  mem : t.mem = s.mem
  samp : ∀ d, (t.die d).samp = (s.die d).samp

section
variable {c d b : Core} {s t u : State} {n : Nat}

theorem CoreSpared.refl (c : Core) : CoreSpared c c := ⟨rfl, rfl⟩

theorem CoreSpared.trans (h : CoreSpared c d) (g : CoreSpared d b) : CoreSpared c b :=
  ⟨by rw [g.frame, h.frame], g.bundles.trans h.bundles⟩

theorem Spared.refl (s : State) : Spared s s := ⟨fun _ => .refl _, rfl, fun _ => rfl⟩

theorem Spared.trans (h : Spared s t) (g : Spared t u) : Spared s u :=
  ⟨fun k => (h.core k).trans (g.core k), g.mem.trans h.mem, fun d => (g.samp d).trans (h.samp d)⟩

theorem Spared.setCore (h : CoreSpared (s.core n) d) : Spared s (s.setCore n d) where
  core k := by
    by_cases hk : k = n
    · subst hk; rwa [core_setCore_same]
    · rw [core_setCore_ne _ _ _ hk]; exact .refl _
  mem := rfl
  samp _ := rfl

theorem Spared.of_dies (hc : t.cores = s.cores) (hm : t.mem = s.mem) (hd : t.dies = s.dies) : Spared s t where
  core k := by rw [core_of_cores hc]; exact .refl _
  mem := hm
  samp d := congrArg (fun m => (fget Die.reset m d).samp) hd

theorem Spared.foldl {β : Type} {g : State → β → State} (hg : ∀ s b, Spared s (g s b)) (l : List β) : ∀ s, Spared s (l.foldl g s) := by
  induction l with
  | nil => exact Spared.refl
  | cons b l ih => exact fun s => (hg s b).trans (ih _)

end

/-! ### Messages and the end of a context leave the sampling arrays alone -/

section
variable (s : State)

theorem post_spared (src : Nat) (ctx : Option Nat) (code : Nat) (pay : List Byte) : Spared s (s.post src ctx code pay) where
  core k := by rw [core_of_cores (post_beside ..).cores]; exact .refl _
  mem := (post_beside ..).mem
  samp d := by
    unfold State.post
    dsimp only
    split
    · next e _ =>
      split
      · by_cases hd : d = e
        · subst hd; exact (congrArg Die.samp (fget_fset_same Die.reset s.dies d _) :)
        · exact (congrArg Die.samp (fget_fset_ne Die.reset s.dies _ hd) :)
      · rfl
    · split
      · rfl
      · split <;> rfl

theorem endNotice_spared (n : Nat) : Spared s (s.endNotice n) := by
  obtain ⟨d, x, e⟩ := endNotice_frame s n
  rw [e]
  exact .of_dies rfl rfl rfl

theorem refill_spared (k : Nat) : Spared s (s.refill k) := by
  unfold State.refill
  rw [takeIn_frame]
  exact .of_dies rfl rfl rfl

theorem endCtx_spared (n cause : Nat) (ord : BitVec 32) : Spared s (s.endCtx n cause ord) := by
  unfold State.endCtx
  dsimp only
  split
  · exact .refl s
  · refine Spared.trans ?_ (.foldl (fun s k => refill_spared s k) _ _)
    have hctx (x : Ctx) : Spared s (s.setCtx n x) := .of_dies rfl rfl rfl
    exact ((hctx _).trans ((post_spared ..).trans (endNotice_spared ..))).trans (.of_dies rfl rfl rfl)

theorem remoteError_spared (ctx core peer kind cause : Nat) (addr id : Word) :
    Spared s (s.remoteError ctx core peer kind cause addr id) := by
  unfold State.remoteError
  split
  · exact (post_spared ..).trans (endCtx_spared ..)
  · exact .refl s

theorem send_spared (m : RMsg) : Spared s (s.send m) := by
  unfold State.send
  split
  · unfold State.unreachable
    dsimp only
    split <;> exact remoteError_spared ..
  · obtain ⟨d, x, e⟩ := enqueue_frame s m
    rw [e]
    exact .of_dies rfl rfl rfl

/-! ### Held effects that leave -/

theorem release_spared (src ctx : Nat) (st : Start) (set : IncSet) : Spared s (s.release src ctx st set) := by
  rw [release_frame]
  exact .of_dies rfl rfl rfl

theorem trigger_spared (n : Nat) (r : Range) (set : IncSet) : Spared s (s.trigger n r set) := by
  unfold State.trigger
  dsimp only
  split
  · refine (Spared.setCore ?_).trans (.foldl (fun s _ => release_spared s ..) _ _)
    exact ⟨rfl, rfl⟩
  · exact .refl s

theorem leaveOne_spared (n : Nat) (b : Closed) (set : IncSet) (e : Effect) : Spared s (s.leaveOne n b set e) := by
  cases e with
  | start st cmd => exact release_spared ..
  | arrive core addr phase k =>
    unfold State.leaveOne
    dsimp only
    split
    · exact .setCore ⟨rfl, rfl⟩
    · exact .refl s
  | push core q v =>
    unfold State.leaveOne
    dsimp only
    split
    · exact .setCore ⟨rfl, rfl⟩
    · exact .refl s
  | arm w =>
    unfold State.leaveOne
    dsimp only
    split
    · refine (Spared.setCore ?_).trans (trigger_spared ..)
      exact ⟨rfl, rfl⟩
    · exact .setCore ⟨rfl, rfl⟩
  | remote peer tmpl arg id => exact (send_spared ..).trans (.of_dies rfl rfl rfl)

theorem leaveOf_spared (n : Nat) (b : Closed) : Spared s (s.leaveOf n b) := by
  unfold State.leaveOf
  split
  · split
    · exact .refl s
    · refine (Spared.setCore ⟨rfl, ?_⟩).trans (.foldl (fun s e => leaveOne_spared s n b _ e) _ _)
      dsimp only
      rw [List.map_map]
      refine List.map_congr_left fun x _ => ?_
      dsimp only [Function.comp]
      split <;> rfl
  · exact .refl s

end

/-! ### A fold that is closed is delivered once (R224) -/

/-- A settled bundle closes no fold any more. -/
def NoFold (b : Closed) : Prop := b.settled = true → b.fclose = none

section
variable {b d : Closed} {n t : Nat}

theorem settled_mapLines (g : BLine → BLine) (hg : ∀ l, (g l).prog.settledKnown = l.prog.settledKnown) :
    ({ b with lines := b.lines.map g } : Closed).settled = b.settled := by
  unfold Closed.settled
  rw [List.all_map]
  exact congrArg (fun p => b.lines.all p) (funext hg)

theorem settledKnown_moveTo {x y : Prog} (h : y.settledKnown = x.settledKnown) (l : BLine) :
    (l.moveTo x y).prog.settledKnown = l.prog.settledKnown := by
  unfold BLine.moveTo
  split
  · next hx => rw [hx]; exact h
  · rfl

theorem settledKnown_noticed (pkg : BitVec 5) (l : BLine) : (l.noticed pkg).prog.settledKnown = l.prog.settledKnown := by
  unfold BLine.noticed
  split
  · split
    · rfl
    · exact settledKnown_moveTo (x := .quieting) (y := .quiet) rfl l
  · rfl

theorem NoFold.mapLines (h : NoFold b) (g : BLine → BLine) (hg : ∀ l, (g l).prog.settledKnown = l.prog.settledKnown) {q u : Nat} {v : Bool}
    (hd : d = { b with declared := v, settleAt := q, quietAt := u, lines := b.lines.map g }) : NoFold d := by
  subst hd
  intro hs
  exact h ((settled_mapLines g hg).symm.trans hs)

theorem settleSends_noFold : ∀ (ok : Bool) (l : List Closed), (∀ b ∈ l, NoFold b) → ∀ b ∈ settleSends n t ok l, NoFold b
  | _, [], _ => fun _ hb => absurd hb List.not_mem_nil
  | ok, x :: xs, h => by
    obtain ⟨hx, hxs⟩ := List.forall_mem_cons.1 h
    unfold settleSends
    refine List.forall_mem_cons.2 ⟨?_, settleSends_noFold _ xs hxs⟩
    split
    · exact hx.mapLines _ (settledKnown_moveTo (x := .acked) (y := .settling) rfl) rfl
    · exact hx

theorem quietSends_noFold : ∀ (ok : Bool) (l : List Closed), (∀ b ∈ l, NoFold b) → ∀ b ∈ quietSends t ok l, NoFold b
  | _, [], _ => fun _ hb => absurd hb List.not_mem_nil
  | ok, x :: xs, h => by
    obtain ⟨hx, hxs⟩ := List.forall_mem_cons.1 h
    unfold quietSends
    refine List.forall_mem_cons.2 ⟨?_, quietSends_noFold _ xs hxs⟩
    split
    · exact hx.mapLines _ (settledKnown_moveTo (x := .settleAcked) (y := .quieting) rfl) rfl
    · exact hx

end

theorem fclosed_of_noFold {c : Core} (h : ∀ b ∈ c.closed, NoFold b) : c.fclosed = [] := by
  unfold Core.fclosed
  rw [List.filter_eq_nil_iff]
  intro q _ hany
  obtain ⟨b, hb, hq⟩ := List.any_eq_true.1 hany
  obtain ⟨hfold, hsettled⟩ := Bool.and_eq_true_iff.1 hq
  rw [h b hb hsettled] at hfold
  exact absurd hfold (by simp)

theorem fclosed_congr {c d : Core} (hb : d.closed.map bareBundle = c.closed.map bareBundle) (hr : d.reqs = c.reqs) :
    d.fclosed = c.fclosed := by
  have hany (c : Core) (q : Req) : c.closed.any (fun b => b.fclose == some q.id && b.settled) =
      (c.closed.map bareBundle).any (fun b => b.fclose == some q.id && b.settled) := by
    rw [List.any_map]
    rfl
  unfold Core.fclosed
  simp only [hany, hb, hr]

/-- `NoFold` does not speak of held effects. -/
theorem noFold_of_bare {l m : List Closed} (hb : l.map bareBundle = m.map bareBundle) (h : ∀ b ∈ m, NoFold b) : ∀ b ∈ l, NoFold b := by
  intro b hm
  obtain ⟨x, hx, hbare⟩ := List.mem_map.1 (hb ▸ List.mem_map_of_mem hm)
  have hsettled : x.settled = b.settled := (congrArg Closed.settled hbare :)
  have hfclose : x.fclose = b.fclose := (congrArg Closed.fclose hbare :)
  intro hs
  rw [← hfclose]
  exact h x hx (hsettled.trans hs)

/-! ### Progress -/

/-- What the progress of the bundles of core `n` leaves alone. -/
structure Progressed (s t : State) (n : Nat) : Prop where
  other : ∀ k, k ≠ n → CoreSpared (s.core k) (t.core k)
  own : t.core n = { (s.core n).fcloseDone with
    closed := (t.core n).closed, quietUpTo := (t.core n).quietUpTo, arrivals := (t.core n).arrivals, pushes := (t.core n).pushes,
    watches := (t.core n).watches }
  folds : (t.core n).fclosed = []
  mem : t.mem = s.mem.fcloseDone (s.core n).fclosed
  samp : ∀ d, (t.die d).samp = (s.die d).samp

/-- Bundles move on, their messages and their effects leave, and those that nothing waits for go. -/
theorem progress_progressed (s : State) (n : Nat) : Progressed s (s.progress n) n := by
  unfold State.progress
  dsimp only
  generalize hl3 : (quietSends s.uid true (settleSends n s.uid true ((s.core n).closed.map fun b =>
    if b.settled then { b with fclose := none, copy := none } else b))).map
      (fun b => { b with lines := b.lines.map (BLine.noticed s.fabric.pkgnum) }) = l3
  generalize lastDeclared (s.core n).quietUpTo _ = quietUpTo
  generalize List.flatMap _ _ = msgs
  have hfolds : ∀ b ∈ l3, NoFold b := by
    rw [← hl3]
    intro b hb
    obtain ⟨x, hx, rfl⟩ := List.mem_map.1 hb
    refine NoFold.mapLines (quietSends_noFold _ _ (settleSends_noFold _ _ fun y hy => ?_) x hx) _ (settledKnown_noticed _) rfl
    obtain ⟨z, -, rfl⟩ := List.mem_map.1 hy
    intro hs
    split
    · rfl
    · next h => exact absurd (by rwa [if_neg h] at hs) h
  generalize hs1 : (s.setCore n { (s.core n).fcloseDone with closed := l3, quietUpTo }).setMem (s.mem.fcloseDone (s.core n).fclosed) = s1
  have hown : s1.core n = { (s.core n).fcloseDone with closed := l3, quietUpTo } := by rw [← hs1, core_setMem, core_setCore_same]
  have hother (k : Nat) (hk : k ≠ n) : s1.core k = s.core k := by rw [← hs1, core_setMem, core_setCore_ne _ _ _ hk]
  have hmem : s1.mem = s.mem.fcloseDone (s.core n).fclosed := by rw [← hs1]; rfl
  have hsamp (d : Nat) : (s1.die d).samp = (s.die d).samp := by rw [← hs1]; rfl
  have hleft : Spared s1 (l3.foldl (fun s b => s.leaveOf n b) (msgs.foldl State.send s1)) :=
    (Spared.foldl (fun s m => send_spared s m) msgs s1).trans (.foldl (fun s b => leaveOf_spared s n b) _ _)
  generalize l3.foldl (fun s b => s.leaveOf n b) (msgs.foldl State.send s1) = s3 at hleft
  refine ⟨fun k hk => ?_, ?_, ?_, hleft.mem.trans hmem, fun d => (hleft.samp d).trans (hsamp d)⟩
  · rw [core_setCore_ne _ _ _ hk, ← hother k hk]
    exact hleft.core k
  · rw [core_setCore_same, (hleft.core n).frame, hown]
  · rw [core_setCore_same]
    refine fclosed_of_noFold fun b hb => noFold_of_bare ?_ hfolds b (List.mem_of_mem_filter hb)
    rw [(hleft.core n).bundles, hown]

end Sys2Proof.Laws
end

section
/-!
SUPPORT. The end of tasks (R170, R218, R279, R280): what is left of the stack of a core.
-/

namespace Sys2Proof.Laws
open Sys2Proof.Machine

/-! ### The stack while a bundle closes -/

/-- A frame's name and its grant. -/
def grantOf (f : Frame) : Nat × FMap Nat × FMap Nat := (f.uid, f.pb, f.need)

/-- Two cores have frames of the same names, the top one with the same grant, and the same kept grant. -/
structure StackKept (c d : Core) : Prop where
  names : d.frames.map Frame.uid = c.frames.map Frame.uid
  top : d.frames.head?.map grantOf = c.frames.head?.map grantOf
  kept : d.kept = c.kept

section
variable {c d b : Core}

theorem StackKept.of_eq (hf : d.frames = c.frames) (hk : d.kept = c.kept) : StackKept c d := ⟨by rw [hf], by rw [hf], hk⟩

theorem StackKept.trans (h : StackKept c d) (g : StackKept d b) : StackKept c b :=
  ⟨g.names.trans h.names, g.top.trans h.top, g.kept.trans h.kept⟩

/-- Frames that change but for their names and grants. -/
theorem StackKept.mapFrames (g : Frame → Frame) (hg : ∀ f ∈ c.frames, grantOf (g f) = grantOf f) (hf : d.frames = c.frames.map g)
    (hk : d.kept = c.kept) : StackKept c d where
  names := by
    rw [hf, List.map_map]
    exact List.map_congr_left fun f hm => congrArg Prod.fst (hg f hm)
  top := by
    rw [hf]
    cases hc : c.frames with
    | nil => rfl
    | cons f fs => exact congrArg some (hg f (hc ▸ List.mem_cons_self))
  kept := hk

theorem onFrame_stackKept (c : Core) (uid : Nat) (g : Frame → Frame) (hg : ∀ f, grantOf (g f) = grantOf f) : StackKept c (c.onFrame uid g) :=
  .mapFrames _ (fun f _ => by split; exacts [hg f, rfl]) rfl rfl

theorem deliver_stackKept (c : Core) (uid : Nat) (r : Reg) (v : BitVec 256) : StackKept c (c.deliver uid r v) := by
  unfold Core.deliver
  split
  · exact .of_eq rfl rfl
  · next f hf =>
    have ht := putReg_touches c f r v
    have hgrant : grantOf (c.putReg f r v).2 = grantOf f := by rw [ht.frame]; rfl
    have hframes : (c.putReg f r v).1.frames = c.frames := (congrArg Core.frames ht.core :)
    have huid := uid_of_frame? hf
    have hname : (c.putReg f r v).2.uid = uid := (congrArg Prod.fst hgrant).trans huid
    refine ⟨?_, ?_, (congrArg Core.kept ht.core :)⟩
    · unfold Core.onFrame
      dsimp only
      rw [hframes, List.map_map]
      refine List.map_congr_left fun g _ => ?_
      dsimp only [Function.comp]
      split
      · next h => exact hname.trans h.symm
      · rfl
    · unfold Core.onFrame
      dsimp only
      rw [hframes]
      unfold Core.frame? at hf
      cases hc : c.frames with
      | nil => rfl
      | cons g gs =>
        rw [hc] at hf
        by_cases hg : g.uid = uid
        · have hfg : g = f := by simpa [hg] using hf
          subst hfg
          simp only [List.map_cons, List.head?_cons, Option.map_some, if_pos hg]
          exact congrArg some hgrant
        · simp only [List.map_cons, List.head?_cons, Option.map_some, if_neg hg]

/-- What every result keeps is kept while folds that have closed are delivered. -/
theorem fcloseDone_keeps {P : Core → Core → Prop} (hrefl : ∀ c, P c c) (htrans : ∀ {c d b}, P c d → P d b → P c b)
    (hreqs : ∀ c rs, P c { c with reqs := rs }) (hdeliver : ∀ c uid r v, P c (Core.deliver c uid r v)) (c : Core) : P c c.fcloseDone := by
  have hfinish (c : Core) (q : Req) : P c (c.finish q 0) := by
    unfold Core.finish
    dsimp only
    split
    · exact htrans (hreqs c _) (hdeliver ..)
    · exact hreqs c _
  have hfold : ∀ (qs : List Req) (c : Core), P c (qs.foldl (fun c q => c.finish q 0) c) := by
    intro qs
    induction qs with
    | nil => exact hrefl
    | cons q qs ih => exact fun c => htrans (hfinish c q) (ih _)
  exact hfold _ c

theorem fcloseDone_stackKept (c : Core) : StackKept c c.fcloseDone :=
  fcloseDone_keeps (fun _ => .of_eq rfl rfl) .trans (fun _ _ => .of_eq rfl rfl) deliver_stackKept c

end

section
variable (s : State) (n : Nat)

theorem progress_stackKept : StackKept (s.core n) ((s.progress n).core n) := by
  have hown := (progress_progressed s n).own
  exact (fcloseDone_stackKept _).trans (.of_eq (congrArg Core.frames hown :) (congrArg Core.kept hown :))

theorem markDirty_tlbsOnly (ctx page : Nat) : TlbsOnly s (s.markDirty n ctx page) :=
  (translate_tlbsOnly s n ctx page).trans (setTlb_tlbsOnly ..)

theorem TlbsOnly.foldl {β : Type} {g : State → β → State} (hg : ∀ s b, TlbsOnly s (g s b)) (l : List β) : ∀ s, TlbsOnly s (l.foldl g s) := by
  induction l with
  | nil => exact fun _ => .of_cores rfl
  | cons b l ih => exact fun s => (hg s b).trans (ih _)

theorem sendLines_cores (b : Closed) : (s.sendLines n b).cores = s.cores := by
  unfold State.sendLines
  refine (Beside.foldl (fun s e => ?_) _ s).cores
  split
  · exact send_beside ..
  · exact .refl s

theorem addClosed_stackKept (b : Closed) : StackKept (s.core n) ((s.addClosed n b).core n) := by
  unfold State.addClosed
  dsimp only
  rw [core_of_cores (sendLines_cores ..)]
  refine StackKept.trans (d := (State.setCore s n { s.core n with
    cseq := nextSeq (s.core n).cseq, closed := (s.core n).closed ++ [{ b with uid := s.uid, seq := nextSeq (s.core n).cseq }] }).fresh.core n) ?_ ?_
  · rw [core_fresh, core_setCore_same]
    exact .of_eq rfl rfl
  · rw [(TlbsOnly.foldl (fun s p => markDirty_tlbsOnly s n b.ctx p) _ _).core n]
    exact .of_eq rfl rfl

/-- A bundle that closes leaves the stack as it is. -/
theorem closeTop_stackKept (sc : Scope) : StackKept (s.core n) ((s.closeTop n sc).core n) := by
  unfold State.closeTop
  dsimp only
  split
  · exact .of_eq rfl rfl
  · next f fs hf =>
    refine StackKept.trans ?_ (progress_stackKept _ n)
    refine StackKept.trans ?_ (addClosed_stackKept _ n _)
    rw [core_setCore_same]
    exact ⟨by rw [hf]; rfl, by rw [hf]; rfl, rfl⟩

theorem haltClose_stackKept (f : Frame) : StackKept (s.core n) ((s.haltClose n f).core n) := by
  unfold State.haltClose
  split
  · exact .of_eq rfl rfl
  · dsimp only
    rw [core_setCore_same]
    exact (closeTop_stackKept s n .system).trans (onFrame_stackKept _ _ _ fun _ => rfl)

theorem freeWindow_stackKept (f : Frame) : StackKept (s.core n) ((s.freeWindow n f).core n) := by
  unfold State.freeWindow
  dsimp only
  split
  · exact .of_eq rfl rfl
  · rw [core_setCore_same]
    refine .mapFrames _ (fun g _ => ?_) rfl rfl
    split
    · split <;> rfl
    all_goals rfl
  · split
    · rw [endCtx_core]
      exact .of_eq rfl rfl
    · rw [core_setCore_same]
      refine .mapFrames _ (fun g _ => ?_) rfl rfl
      split
      · split <;> rfl
      all_goals rfl

end

end Sys2Proof.Laws
end

section
/-!
SUPPORT. Aborts and the end of a task (R170, R218, R279, R280, R350).
-/

namespace Sys2Proof.Laws
open Sys2Proof.Machine

/-! ### Fault records (R172) -/

/-- A fault that is recorded changes contexts, and posts a record, at most. -/
theorem recordFault_frame (s : State) (w : Waiter) :
    ∃ d v, s.recordFault w = { s with ctxs := (s.recordFault w).ctxs, dies := d, events := v } := by
  unfold State.recordFault
  dsimp only
  split
  · exact ⟨_, _, rfl⟩
  · split
    · rw [post_frame]
      exact ⟨_, _, rfl⟩
    · exact ⟨_, _, rfl⟩

theorem recordFault_core (s : State) (w : Waiter) (n : Nat) : (s.recordFault w).core n = s.core n := by
  obtain ⟨d, v, h⟩ := recordFault_frame s w
  rw [h]
  rfl

theorem recordFault_mem (s : State) (w : Waiter) : (s.recordFault w).mem = s.mem := by
  obtain ⟨d, v, h⟩ := recordFault_frame s w
  rw [h]

/-- What a task waits for after a page fault (R172): a fault record that names its page, or a free one where there is none. -/
def WaitsForPage (before after : FMap (Option FRec)) (page : Nat) (record : Option Nat) : Prop :=
  match record with
  | some r => r < 8 ∧ ∃ e, fget none after r = some e ∧ e.block = page / 64 ∧ e.pages.getLsbD (page % 64) = true
  | none => ∀ r, r < 8 → fget none before r ≠ none

theorem pageBit (page : Nat) : ((1 <<< (page % 64) : Nat) : BitVec 64).getLsbD (page % 64) = true := by
  rw [getLsbD_one_shiftLeft]
  simp [Nat.mod_lt]

/-- A fault that is recorded leaves a task that waits for its page. -/
theorem recordFault_waits (s : State) (w : Waiter) : ∃ v ∈ ((s.recordFault w).ctx w.task.ctx).waiters, v.task = w.task ∧ v.page = w.page ∧
    WaitsForPage (s.ctx w.task.ctx).frec ((s.recordFault w).ctx w.task.ctx).frec w.page v.record := by
  have hpost (s : State) (k : Nat) (a b c d) : (s.post a b c d).ctx k = s.ctx k := by rw [post_frame]; rfl
  have hlast (l : List Waiter) (v : Waiter) : v ∈ l ++ [v] := List.mem_append_right _ (List.mem_singleton_self v)
  unfold State.recordFault
  dsimp only
  split
  · next r hr =>
    have hrange := List.mem_range.1 (List.mem_of_find?_eq_some hr)
    have hhit := List.find?_some hr
    rw [ctx_setCtx_same]
    dsimp only
    refine ⟨_, hlast _ _, rfl, rfl, hrange, _, fget_fset_same .., ?_, ?_⟩
    · cases hf : fget none (s.ctx w.task.ctx).frec r with
      | none => simp [hf] at hhit
      | some e => simpa [hf] using hhit
    · rw [BitVec.getLsbD_or, pageBit, Bool.or_true]
  · split
    · next r hr =>
      have hrange := List.mem_range.1 (List.mem_of_find?_eq_some hr)
      rw [hpost, ctx_setCtx_same]
      dsimp only
      exact ⟨_, hlast _ _, rfl, rfl, hrange, _, fget_fset_same .., rfl, pageBit _⟩
    · next hfree =>
      rw [ctx_setCtx_same]
      refine ⟨_, hlast _ _, rfl, rfl, fun r hr hnone => ?_⟩
      have := List.find?_eq_none.1 hfree r (List.mem_range.2 hr)
      simp [hnone] at this

/-! ### Aborts (R170, R218, R350) -/

/-- A release that enters a dispatcher stands in its order or at its input. -/
theorem enter_holds (s : State) (k : Nat) (r : Release) : (∃ e ∈ ((s.enter k r).cluster k).ready, e.task = r.task) ∨
    ∃ e ∈ ((s.enter k r).cluster k).input, e.task = r.task := by
  by_cases hroom : (s.cluster k).ready.length < 512 ∧ (s.cluster k).input = []
  · obtain ⟨e, he, hmark⟩ := enter_of_room (s := s) (k := k) (r := r) hroom.1 hroom.2
    exact .inl ⟨e, he, hmark.task⟩
  · refine .inr ⟨r, ?_, rfl⟩
    unfold State.enter
    dsimp only
    rw [if_neg hroom, cluster_setCluster_same]
    exact List.mem_append_right _ (List.mem_singleton_self r)

theorem offers_holds {s : State} {k : Nat} {t : Task} (h : (∃ e ∈ (s.cluster k).ready, e.task = t) ∨ ∃ e ∈ (s.cluster k).input, e.task = t) :
    (∃ e ∈ ((s.offers k).cluster k).ready, e.task = t) ∨ ∃ e ∈ ((s.offers k).cluster k).input, e.task = t := by
  rcases h with ⟨e, he, ht⟩ | hin
  · obtain ⟨e', he', hmark⟩ := exists_marked_of_mem he
    exact .inl ⟨e', he', hmark.task.trans ht⟩
  · rw [offers_input]
    exact .inr hin

section
variable {s : State} {n : Nat} {f : Frame} {fs : List Frame} (ht : (s.core n).frames = f :: fs) (hw : f.window = .resident)
include ht

theorem pageFault_of_horizon (h : f.horizon = true) (page : Nat) : s.pageFault n page = s.endCtx f.task.ctx 0x03 (ordOf f.task.id) := by
  unfold State.pageFault
  rw [ht]
  exact if_pos h

theorem viewTooOld_of_horizon (h : f.horizon = true) : s.viewTooOld n = s.endCtx f.task.ctx 0x0C (ordOf f.task.id) := by
  unfold State.viewTooOld
  rw [ht]
  exact if_pos h

section
variable (hh : f.horizon = false) (hx : (s.ctx f.task.ctx).state = 2)
include hh hx

theorem pageFault_drops (page : Nat) : s.pageFault n page =
    ((s.dropTop n).recordFault { task := f.task, cluster := clusterOf n, record := none, page }).offers (clusterOf n) := by
  unfold State.pageFault
  rw [ht]
  dsimp only
  rw [if_neg (by simp [hh]), if_pos hx]

/-- The release with which a task whose view was too old begins again. -/
def tooOldAgain (n : Nat) (t : Task) : Release :=
  { task := { t with vto := t.vto + 1 }, cluster := clusterOf n, src := n, aged := false, skips := 0 }

theorem viewTooOld_drops : s.viewTooOld n = ((s.dropTop n).enter (clusterOf n) (tooOldAgain n f.task)).offers (clusterOf n) := by
  unfold State.viewTooOld
  rw [ht]
  dsimp only
  rw [if_neg (by simp [hh]), if_pos hx]
  rfl

end

theorem viewTooOldOf_top : s.viewTooOldOf n f.uid = s.viewTooOld n := by
  unfold State.viewTooOldOf
  dsimp only
  rw [ht]
  exact if_pos rfl

theorem viewTooOldOf_below {u : Nat} (hu : u ≠ f.uid) :
    s.viewTooOldOf n u = s.setCore n ((s.core n).onFrame u fun g => { g with deferred := true }) := by
  unfold State.viewTooOldOf
  dsimp only
  rw [ht]
  exact if_neg (Ne.symm hu)

include hw

/-- What an abort leaves: the frames below, scratchpad, closed bundles and memory. -/
theorem dropTop_gone {t : State} (hcore : t.core n = (s.dropTop n).core n) (hmem : t.mem = (s.dropTop n).mem) :
    (t.core n).frames = fs ∧ (t.core n).pad = (s.core n).pad ∧ (t.core n).closed = (s.core n).closed ∧
      ∀ key, t.mem.newerData key = s.mem.newerData key ∧ t.mem.olderData key = s.mem.olderData key ∧ t.mem.lineTags key = s.mem.lineTags key := by
  rw [hcore, hmem, dropTop_core ht hw, pop_frame, dropTop_frame ht hw]
  exact ⟨rfl, rfl, rfl, fun key => ⟨rfl, rfl, rfl⟩⟩

end

/-! ### The end of a task (R279, R280) -/

section
variable (s : State) (n : Nat) (keep : Option Nat)

theorem popTop_frames {f : Frame} {fs : List Frame} (ht : (s.core n).frames = f :: fs) :
    ((s.popTop n keep).core n).frames.map Frame.uid = fs.map Frame.uid := by
  have hnames := (freeWindow_stackKept s n f).names
  unfold State.popTop
  rw [ht]
  dsimp only
  rw [core_setMem, core_setCore_same, pop_frames, List.map_tail, hnames, ht]
  rfl

theorem popTop_kept_none : ((s.popTop n none).core n).kept = (s.core n).kept := by
  unfold State.popTop
  split
  · rfl
  · next f fs ht =>
    have hkept := (freeWindow_stackKept s n f).kept
    rw [core_setMem, core_setCore_same]
    unfold Core.pop
    rw [flushPend_frame]
    dsimp only
    split <;> exact hkept

theorem popTop_kept_some {f : Frame} {fs : List Frame} (ht : (s.core n).frames = f :: fs) (t : Nat) :
    ((s.popTop n (some t)).core n).kept = some { frame := f.uid, tmpl := t, pb := f.pb, need := f.need } := by
  unfold State.popTop
  rw [ht]
  dsimp only
  rw [core_setMem, core_setCore_same]
  rfl

end

section
variable {s : State} {f : Frame} {fs : List Frame} {h : Hdr} {a : GReg}

/-- The package after the running task has left: its claims' guards hold `set`. -/
def haltLeaves (s : State) (n : Nat) (f : Frame) (set : IncSet) (keep : Option Nat) : State :=
  (((s.haltClose n f).setCore n (((s.haltClose n f).core n).setGuards f.claims.reverse set)).popTop n keep).offers (clusterOf n)

theorem haltTask_leaves {n : Nat} {c : Core} (hc : c.casOpen = none) {set : IncSet} (hset : (s.haltClose n f).haltSet n f = some set)
    (keep : Option Nat) : haltTask s n c f keep = .leave (haltLeaves s n f set keep) := by
  unfold haltTask Core.seqAct
  dsimp only
  rw [hc, hset]
  rfl

theorem haltTask_holds {n : Nat} {c : Core} (hc : c.casOpen = none) (hset : (s.haltClose n f).haltSet n f = none) (keep : Option Nat) :
    haltTask s n c f keep = .hold (s.haltClose n f) := by
  unfold haltTask Core.seqAct
  dsimp only
  rw [hc, hset]
  rfl

theorem haltTask_waits {n : Nat} {c : Core} (hc : c.casOpen ≠ none) (keep : Option Nat) : haltTask s n c f keep = .wait :=
  if_pos (Option.isSome_iff_ne_none.2 hc)

theorem haltK_body {n : Nat} {c : Core} (hv : (f.getG a).toNat < 4096 ∧ (f.getG a).toNat < (s.ctx f.task.ctx).templates.length) {r : Act}
    (hr : haltTask s n c f (some (f.getG a).toNat) = r) :
    (if 4096 ≤ (f.getG a).toNat ∨ (s.ctx f.task.ctx).templates.length ≤ (f.getG a).toNat then .trap 0x26 0
      else haltTask s n c f (some (f.getG a).toNat)) = r :=
  (if_neg (by omega)).trans hr

section
variable (ht : (s.core s.cur).frames = f :: fs) (set : IncSet) (keep : Option Nat)

/-- The package when the running task leaves: its bundle is closed and the guards of its claims hold `set`. -/
def haltUnclaims (s : State) (n : Nat) (f : Frame) (set : IncSet) : State :=
  (s.haltClose n f).setCore n (((s.haltClose n f).core n).setGuards f.claims.reverse set)

theorem haltUnclaims_stackKept (n : Nat) : StackKept (s.core n) ((haltUnclaims s n f set).core n) := by
  unfold haltUnclaims
  rw [core_setCore_same]
  exact (haltClose_stackKept s n f).trans (.of_eq rfl rfl)

include ht

/-- The frame that leaves is the running one, whatever its bundle has done as it closed. -/
theorem haltUnclaims_top : ∃ g gs, ((haltUnclaims s s.cur f set).core s.cur).frames = g :: gs ∧ grantOf g = grantOf f ∧
    gs.map Frame.uid = fs.map Frame.uid := by
  obtain ⟨hnames, htop, -⟩ := haltUnclaims_stackKept (s := s) (f := f) set s.cur
  rw [ht] at hnames htop
  cases hg : ((haltUnclaims s s.cur f set).core s.cur).frames with
  | nil => simp [hg] at htop
  | cons g gs =>
    rw [hg] at hnames htop
    exact ⟨g, gs, rfl, Option.some.inj htop, (List.cons.inj hnames).2⟩

theorem haltLeaves_frames : ((haltLeaves s s.cur f set keep).core s.cur).frames.map Frame.uid = fs.map Frame.uid := by
  obtain ⟨g, gs, hg, -, hnames⟩ := haltUnclaims_top ht set
  exact (popTop_frames _ s.cur keep hg).trans hnames

theorem haltLeaves_kept_some (t : Nat) : ((haltLeaves s s.cur f set (some t)).core s.cur).kept =
    some { frame := f.uid, tmpl := t, pb := f.pb, need := f.need } := by
  obtain ⟨g, gs, hg, hgrant, -⟩ := haltUnclaims_top ht set
  unfold grantOf at hgrant
  obtain ⟨huid, hpb, hneed⟩ : g.uid = f.uid ∧ g.pb = f.pb ∧ g.need = f.need := by simpa using hgrant
  rw [← huid, ← hpb, ← hneed]
  exact popTop_kept_some _ s.cur hg t

omit ht in
theorem haltLeaves_kept_none : ((haltLeaves s s.cur f set none).core s.cur).kept = (s.core s.cur).kept :=
  (popTop_kept_none _ s.cur).trans (haltUnclaims_stackKept set s.cur).kept

end

end

/-- Settles O26: an abort drops the running frame (`dropTop_gone`) and leaves its task at its fault record (`recordFault_waits`) or in its
dispatcher (`enter_holds`); `HALT` closes the bundle, which leaves the stack as it is (`haltUnclaims_stackKept`), and pops its frame. -/
theorem tasksEnd : Obligations.TasksEnd := by
  unfold Obligations.TasksEnd
  refine ⟨fun s n page f fs ht hw => ⟨fun hh => ⟨pageFault_of_horizon ht hh page, viewTooOld_of_horizon ht hh⟩, fun hh hx => ?aborts,
    viewTooOldOf_top ht, fun u => viewTooOldOf_below ht⟩, fun s f fs h a => ⟨fun set hc hset => ⟨fun q => ?halt, fun q hv => ?haltK⟩,
    fun hc hset => ⟨fun q => exec_hold q rfl rfl (haltTask_holds hc hset none),
      fun q hv => exec_hold q rfl rfl (haltK_body hv (haltTask_holds hc hset _))⟩,
    fun hc => ⟨fun q => exec_wait q rfl rfl (haltTask_waits hc none),
      fun q hv => exec_wait q rfl rfl (haltK_body hv (haltTask_waits hc _))⟩⟩⟩
  case aborts =>
    dsimp only
    rw [pageFault_drops ht hh hx, viewTooOld_drops ht hh hx]
    refine ⟨dropTop_gone ht hw (recordFault_core _ _ n) (recordFault_mem ..), dropTop_gone ht hw ?_ ?_, ?_, ?_⟩
    · exact core_of_cores (enter_frame (s.dropTop n) _ _).2.2 n
    · exact (enter_frame (s.dropTop n) _ _).2.1
    · have hctx : (s.dropTop n).ctx f.task.ctx = s.ctx f.task.ctx := by rw [dropTop_frame ht hw]; rfl
      obtain ⟨v, hv, htask, hpage, hwait⟩ := recordFault_waits (s.dropTop n) { task := f.task, cluster := clusterOf n, record := none, page }
      rw [hctx] at hwait
      exact ⟨v, hv, htask, hpage, hwait⟩
    · exact offers_holds (enter_holds (s.dropTop n) (clusterOf n) (tooOldAgain n f.task))
  case halt =>
    refine ⟨exec_leave q rfl rfl (haltTask_leaves hc hset none), ?_, ?_⟩
    · rw [core_setCore_same, issued_frames]
      exact haltLeaves_frames q.top set none
    · rw [core_setCore_same, issued_frame]
      exact haltLeaves_kept_none set
  case haltK =>
    refine ⟨exec_leave q rfl rfl (haltK_body hv (haltTask_leaves hc hset _)), ?_, ?_⟩
    · rw [core_setCore_same, issued_frames]
      exact haltLeaves_frames q.top set _
    · rw [core_setCore_same, issued_frame]
      exact haltLeaves_kept_some q.top set _

end Sys2Proof.Laws
end

section
/-!
SUPPORT. The matrix instructions at issue (R248–R266), and what a weave sends.
-/

namespace Sys2Proof.Laws
open Sys2Proof.Machine

theorem rangeWaits_nil (c : Core) : c.rangeWaits [] [] = false := rfl

theorem overlap_eq_false {a b m n : Nat} (h : a + m ≤ b ∨ b + n ≤ a) : overlap (a, m) (b, n) = false := by
  unfold overlap
  rw [Bool.eq_false_iff]
  simp only [ne_eq, Bool.and_eq_true, decide_eq_true_eq, not_and]
  omega

/-! ### Commands that enter the queue of their lane (R249, R257) -/

/-- The package after frame `f` of core `n` has entered a matrix command; `g` is the frame then. -/
def matEntered (s : State) (n : Nat) (f g : Frame) (op : MatOp) (pages : List Nat) : State :=
  (s.setCore n (((s.core n).setTop g).setLane f.lane { (s.core n).lane f.lane with
    mq := ((s.core n).lane f.lane).mq ++ [{ cmd := s.cmdOf n f pages, op }] })).fresh

theorem matPush_enters {s : State} {n : Nat} {f f1 g : Frame} {op : MatOp} {pages : List Nat} {ws : List Write}
    (hfree : (s.core n).rangeWaits op.srcs op.dsts = false)
    (hg : op.dsts.foldl (fun g r => g.wrote (s.ctx f.task.ctx) r.1 r.2) f1 = g) :
    matPush s n f f1 op pages ws = .go (matEntered s n f g op pages) { Ret.plain with writes := ws } := by
  subst hg
  exact padAct_of_free hfree _

section
variable {s : State} {f : Frame} {fs : List Frame} {h : Hdr} {i : Instr} {regs : List Reg} {body : Nat → Core → Frame → Act}
  (q : Issues s f fs h false regs []) (hi : i.hdr? = some h) (he : exec i s = matCmd i regs s body)
include q hi he

theorem matCmd_waits (hfull : ((s.core s.cur).lane f.lane).full = true) : exec i s = .next (s.stopped s.cur) :=
  exec_wait q hi he (if_pos hfull)

section
variable (hclaim : laneGuard f.lane ∈ f.claims) (hroom : ((s.core s.cur).lane f.lane).full = false)
include hclaim hroom

omit q hi he in
/-- With the lane guard held and a place in the queue a matrix command comes to its own checks. -/
theorem matCmd_body (a : Act) : waitAct ((s.core s.cur).lane f.lane).full (if !f.laneClaimed then .trap 0x22 0 else a) = a := by
  have hheld : f.laneClaimed = true := List.contains_iff_mem.2 hclaim
  rw [waitAct, hroom, hheld]
  rfl

theorem matCmd_traps {cause : Nat} {tval : Word} (hb : body s.cur (s.core s.cur) f = .trap cause tval) :
    exec i s = .next (s.trapped s.cur i cause tval) := exec_trap q hi he ((matCmd_body hclaim hroom _).trans hb)

theorem matCmd_completes {t : State} {r : Ret} (hb : body s.cur (s.core s.cur) f = .go t r) : completes s i h t r :=
  exec_go q hi he ((matCmd_body hclaim hroom _).trans hb)

end

end

/-! ### Weight images in memory (R250) -/

theorem images_placed {s s1 : State} {n bytes : Nat} {f : Frame} {starts : List Word} {ks : List (Word × Kind)} {ps : List Place}
    (hks : s.kindAll (s.ctx f.task.ctx) false (starts.flatMap fun a => piecesOf a bytes) = .ok ks) (halign : ∀ w ∈ starts, w.toNat % 64 = 0)
    (hps : s.placeSorted n f.task.ctx false ks = (.ok ps, s1)) (g : List (List Src) → List Nat → State → Act) :
    s.images n f starts bytes g =
      g (groupsOf ((bytes + 63) / 64) starts.length ((ps.zip ks).map fun e => (s1.source f e.2.1 e.1).1)) (ps.filterMap Place.page) s1 := by
  have hpage : (fun p : Place => match p with | .line _ _ page => page | .window _ => none) = Place.page := by
    funext p
    cases p <;> rfl
  have hfind : starts.find? (fun a => a.toNat % 64 != 0) = none := List.find?_eq_none.2 fun w hw => by simp [halign w hw]
  unfold State.images
  rw [act_of_ok hks, hfind]
  dsimp only
  rw [hps]
  exact congrArg (fun p => g _ (ps.filterMap p) s1) hpage

/-! ### The instructions -/

section
variable {s : State} {f : Frame} {fs : List Frame} {h : Hdr} {af wf : Fmt} {r : Rnd} {z : Bool} {p : Ptr} {c0 cm1 : BitVec 7}
  {row rm1 : BitVec 5} {col : BitVec 7} {seg : BitVec 4} {rs : Option RsOp} {a : VReg} {d : GReg}

section
variable (hclaim : laneGuard f.lane ∈ f.claims)
include hclaim

section
variable (hroom : ((s.core s.cur).lane f.lane).full = false)
include hroom

section
variable (q : Issues s f fs h false [.a (Ptr.reg p)] [])
include q

theorem mwl_traps (hbig : 128 < c0.toNat + (cm1.toNat + 1)) :
    exec (.mwl h af p c0 cm1) s = .next (s.trapped s.cur (.mwl h af p c0 cm1) 0x24 0) :=
  matCmd_traps q rfl rfl hclaim hroom (if_pos hbig)

theorem mwl_completes (hcols : c0.toNat + (cm1.toNat + 1) ≤ 128)
    (hfits : f.bankCheck (s.ctx f.task.ctx) (f.ptr p) (imageBytes af (cm1.toNat + 1)) 64 0x19 0x24 = .ok ())
    (hfree : (s.core s.cur).rangeWaits (MatOp.mwl af (f.ptr p) c0.toNat (cm1.toNat + 1)).srcs [] = false) :
    completes s (.mwl h af p c0 cm1) h (matEntered s s.cur f f (.mwl af (f.ptr p) c0.toNat (cm1.toNat + 1)) [])
      { Ret.plain with writes := f.ptrStep p (imageBytes af (cm1.toNat + 1)) } :=
  matCmd_completes q rfl rfl hclaim hroom ((if_neg (Nat.not_lt.2 hcols)).trans ((act_of_ok hfits _).trans (matPush_enters hfree rfl)))

theorem mmul_completes (hfits : f.bankCheck (s.ctx f.task.ctx) (f.ptr p) (tileBytes af) 64 0x19 0x24 = .ok ())
    (hfree : (s.core s.cur).rangeWaits (MatOp.mul af z (f.ptr p)).srcs [] = false) :
    completes s (.mmul h af z p) h (matEntered s s.cur f f (.mul af z (f.ptr p)) []) { Ret.plain with writes := f.ptrStep p (tileBytes af) } :=
  matCmd_completes q rfl rfl hclaim hroom ((act_of_ok hfits _).trans (matPush_enters hfree rfl))

theorem macld_completes (hrows : row.toNat + (rm1.toNat + 1) ≤ 32)
    (hfits : f.bankCheck (s.ctx f.task.ctx) (f.ptr p) (512 * (rm1.toNat + 1)) 64 0x19 0x24 = .ok ())
    (hfree : (s.core s.cur).rangeWaits (MatOp.load (f.ptr p) row.toNat (rm1.toNat + 1)).srcs [] = false) :
    completes s (.macld h p row rm1) h (matEntered s s.cur f f (.load (f.ptr p) row.toNat (rm1.toNat + 1)) [])
      { Ret.plain with writes := f.ptrStep p (512 * (rm1.toNat + 1)) } :=
  matCmd_completes q rfl rfl hclaim hroom ((if_neg (Nat.not_lt.2 hrows)).trans ((act_of_ok hfits _).trans (matPush_enters hfree rfl)))

end

theorem mswap_completes (q : Issues s f fs h false [] []) : completes s (.mswap h) h (matEntered s s.cur f f .swap []) Ret.plain :=
  matCmd_completes q rfl rfl hclaim hroom (matPush_enters (rangeWaits_nil _) rfl)

theorem macz_completes (q : Issues s f fs h false [] []) : completes s (.macz h) h (matEntered s s.cur f f .zero []) Ret.plain :=
  matCmd_completes q rfl rfl hclaim hroom (matPush_enters (rangeWaits_nil _) rfl)

theorem macst_completes (q : Issues s f fs h false (.a (Ptr.reg p) :: rsRegs rs) []) (hrows : row.toNat + (rm1.toNat + 1) ≤ 32)
    (hfits : f.bankCheck (s.ctx f.task.ctx) (f.ptr p) ((rm1.toNat + 1) * 128 * fmtBytes af) 64 0x19 0x24 = .ok ())
    (hfree : (s.core s.cur).rangeWaits [] [(f.ptr p, (rm1.toNat + 1) * 128 * fmtBytes af)] = false) :
    completes s (.macst h af r p row rm1 rs) h
      (matEntered s s.cur f (f.wrote (s.ctx f.task.ctx) (f.ptr p) ((rm1.toNat + 1) * 128 * fmtBytes af))
        (.store af r (f.ptr p) row.toNat (rm1.toNat + 1) (rs.map (f.stoch (s.ctx f.task.ctx)))) [])
      { Ret.plain with writes := f.ptrStep p ((rm1.toNat + 1) * 128 * fmtBytes af) } :=
  matCmd_completes q rfl rfl hclaim hroom ((if_neg (Nat.not_lt.2 hrows)).trans ((act_of_ok hfits _).trans (matPush_enters hfree rfl)))

theorem macmvTo_completes (q : Issues s f fs h false [.v a] []) (hshort : f.long = false) : completes s (.macmvTo h row seg a) h
    (matEntered s s.cur f f (.mvTo row.toNat seg.toNat a ((s.core s.cur).getV f.lane a)) []) Ret.plain :=
  exec_go q rfl rfl ((if_neg (by simp [hroom])).trans ((vecMode_of_ready ⟨hshort, fun _ => hclaim⟩ _).trans
    (matPush_enters (rangeWaits_nil _) rfl)))

end

theorem macmv_completes (q : Issues s f fs h false [.v a] [.v a]) (hshort : f.long = false) : completes s (.macmv h a row seg) h
    (matEntered s s.cur f { f with await := f.await ++ [.v a] } (.mv f.uid a row.toNat seg.toNat) []) Ret.plain :=
  exec_go q rfl rfl (vecMode_of_ready ⟨hshort, fun _ => hclaim⟩ _)

theorem macrd_completes (q : Issues s f fs h false [.g d] []) : completes s (.macrd h d row col) h
    (matEntered s s.cur f { f with await := f.await ++ awaitReg d } (.rd f.uid d row.toNat col.toNat) []) Ret.plain :=
  exec_go q rfl rfl (if_neg (by rw [show f.laneClaimed = true from List.contains_iff_mem.2 hclaim]; simp))

end

end

section
variable {s s1 : State} {f f1 : Frame} {fs : List Frame} {h : Hdr} {af wf : Fmt} {z : Bool} {p : Ptr} {pa pb : AReg} {a b gs : GReg}
  {c0 cm1 : BitVec 7} {sm1 : BitVec 8} {stride : BitVec 32} {ks : List (Word × Kind)} {ps : List Place}
  (hclaim : laneGuard f.lane ∈ f.claims) (hroom : ((s.core s.cur).lane f.lane).full = false)

/-- `f1` is the frame with the successor held that `gs` names for a tile, if it names one (R267). -/
def SuccHeld (s : State) (f f1 : Frame) (gs : GReg) : Prop :=
  (s.ctx f.task.ctx).tileSuccessor f s.cur gs = .none ∧ f1 = f ∨
    ∃ st g, (s.ctx f.task.ctx).tileSuccessor f s.cur gs = .some st g ∧ f1 = g.hold (.start st (some s.uid))

/-- The lines of weight images whose pieces are `ks` at the places `ps`. -/
def imageSrcs (s1 : State) (f : Frame) (ks : List (Word × Kind)) (ps : List Place) : List Src :=
  (ps.zip ks).map fun e => (s1.source f e.2.1 e.1).1

include hclaim hroom

theorem mwlv_completes (q : Issues s f fs h false [.g a] []) (hcols : c0.toNat + (cm1.toNat + 1) ≤ 128) (halign : (f.getG a).toNat % 64 = 0)
    (hks : s.kindAll (s.ctx f.task.ctx) false ([f.getG a].flatMap fun a => piecesOf a (imageBytes wf (cm1.toNat + 1))) = .ok ks)
    (hps : s.placeSorted s.cur f.task.ctx false ks = (.ok ps, s1)) :
    completes s (.mwlv h wf a c0 cm1) h (matEntered s1 s.cur f f (.mwlv wf
      ((groupsOf ((imageBytes wf (cm1.toNat + 1) + 63) / 64) 1 (imageSrcs s1 f ks ps)).flatMap fun i => i) c0.toNat (cm1.toNat + 1))
      (ps.filterMap Place.page)) Ret.plain := by
  refine matCmd_completes q rfl rfl hclaim hroom ((if_neg (Nat.not_lt.2 hcols)).trans ?_)
  exact (images_placed hks (by simpa using halign) hps _).trans (matPush_enters (rangeWaits_nil _) rfl)

theorem mpass_completes (q : Issues s f fs h false ([.a (Ptr.reg p), .g b, .g gs] ++ s.succRegs gs) []) (hsucc : SuccHeld s f f1 gs)
    {starts : List Word} (hstarts : starts = (List.range (sm1.toNat + 1)).map fun j => f.getG b + stride.signExtend 64 * BitVec.ofNat 64 j)
    (hfits : f.bankCheck (s.ctx f.task.ctx) (f.ptr p) ((sm1.toNat + 1) * tileBytes af) 64 0x19 0x24 = .ok ())
    (halign : ∀ w ∈ starts, w.toNat % 64 = 0)
    (hks : s.kindAll (s.ctx f.task.ctx) false (starts.flatMap fun a => piecesOf a (imageBytes wf 128)) = .ok ks)
    (hps : s.placeSorted s.cur f.task.ctx false ks = (.ok ps, s1)) {imgs : List (List Src)}
    (himgs : imgs = groupsOf ((imageBytes wf 128 + 63) / 64) (sm1.toNat + 1) (imageSrcs s1 f ks ps))
    (hfree : (s1.core s.cur).rangeWaits (MatOp.pass af wf z (f.ptr p) imgs).srcs [] = false) :
    completes s (.mpass h af wf z p b gs sm1 stride) h
      (matEntered s1 s.cur f f1 (.pass af wf z (f.ptr p) imgs) (ps.filterMap Place.page))
      { Ret.plain with writes := f.ptrStep p ((sm1.toNat + 1) * tileBytes af) } := by
  have hlen : starts.length = sm1.toNat + 1 := by rw [hstarts, List.length_map, List.length_range]
  have hpush := images_placed hks halign hps fun imgs pages s1 =>
    matPush s1 s.cur f f1 (.pass af wf z (f.ptr p) imgs) pages (f.ptrStep p ((sm1.toNat + 1) * tileBytes af))
  rw [hlen] at hpush
  subst hstarts himgs
  exact matCmd_completes q rfl rfl hclaim hroom ((attach_of_held hsucc _).trans ((act_of_ok hfits _).trans (hpush.trans
    (matPush_enters hfree rfl))))

/-! ### Weaves (R265, R266) -/

section
variable {regs : List Reg} {i : Instr} {zo : Option Bool} {w : Nat × Nat × Nat × Nat}

/-- The weave command that a core enters, with its partners (R265). -/
def weaveEntry (c : Core) (f : Frame) (af : Fmt) (zo : Option Bool) (pa pb : AReg) (w : Nat × Nat × Nat × Nat) : MatOp :=
  .weave af zo (f.getA pa).toNat
    { grid := (f.geom.extractLsb' 0 8).toNat, count := fget 0 c.weaves (f.geom.extractLsb' 0 8).toNat, buf := (f.getA pb).toNat,
      tileTo := w.1, slotTo := w.2.1, tileFrom := w.2.2.1, slotFrom := w.2.2.2,
      started := false, tileSent := false, slotSent := false, tileGot := false, slotGot := false, exc := 0 }

/-- The package after a core has counted a weave of the grid of frame `f`. -/
def weaveCounted (s : State) (f : Frame) : State :=
  s.setCore s.cur { s.core s.cur with
    weaves := fset 0 (s.core s.cur).weaves (f.geom.extractLsb' 0 8).toNat (fget 0 (s.core s.cur).weaves (f.geom.extractLsb' 0 8).toNat + 1) }

/-- What a weave needs at issue: two tiles that do not overlap, on a core of a grid that holds no other tile, and partners. -/
structure WeaveOk (s : State) (f : Frame) (af : Fmt) (skew : Bool) (pa pb : AReg) (w : Nat × Nat × Nat × Nat) : Prop where
  tile : f.bankCheck (s.ctx f.task.ctx) (f.getA pa).toNat (tileBytes af) 64 0x19 0x24 = .ok ()
  buf : f.bankCheck (s.ctx f.task.ctx) (f.getA pb).toNat (tileBytes af) 64 0x19 0x24 = .ok ()
  apart : (f.getA pa).toNat + tileBytes af ≤ (f.getA pb).toNat ∨ (f.getA pb).toNat + tileBytes af ≤ (f.getA pa).toNat
  grid : f.geom.getLsbD 49 = true
  alone : f.geom.getLsbD 48 = true
  partners : (s.ctx f.task.ctx).partners f.geom skew = some w

theorem weave_completes (q : Issues s f fs h false regs []) (hi : i.hdr? = some h) (he : exec i s = weaveOp i regs af zo pa pb gs s)
    (hsucc : SuccHeld s f f1 gs) (hok : WeaveOk s f af zo.isNone pa pb w)
    (hfree : ((weaveCounted s f).core s.cur).rangeWaits (weaveEntry (s.core s.cur) f af zo pa pb w).srcs
      (weaveEntry (s.core s.cur) f af zo pa pb w).dsts = false) :
    completes s i h (matEntered (weaveCounted s f) s.cur f (f1.wrote (s.ctx f.task.ctx) (f.getA pb).toNat (tileBytes af))
      (weaveEntry (s.core s.cur) f af zo pa pb w) []) Ret.plain := by
  obtain ⟨htile, hbuf, hapart, hgrid, halone, hpartners⟩ := hok
  have hpush := matPush_enters (s := weaveCounted s f) (f := f) (f1 := f1) (pages := []) (ws := []) hfree rfl
  refine matCmd_completes q hi he hclaim hroom ?_
  dsimp only
  rw [if_neg (by simp [hgrid, halone])]
  refine (attach_of_held hsucc _).trans ?_
  rw [bind_of_ok htile, act_of_ok hbuf, if_neg (by simp [overlap_eq_false hapart]), hpartners]
  exact hpush

end

end

/-! ### What a weave sends (R265, R266) -/

section
variable {s : State} {n lane k : Nat} {q : MatCmd} {af : Fmt} {a : Nat} {w : Weave}
  (hw : ((s.core n).lane lane).weave? = some (q, af, a, w))
include hw

theorem weaveSend_slot (hl : s.fabric.links (dieOf n) (dieOf w.slotTo) = true)
    (hk : (s.core w.slotTo).weaveLane w.grid w.count = some k) (hsent : w.slotSent = false) :
    ∃ t, exec (.weaveSend n lane true) s = .next t ∧ ((t.core w.slotTo).lane k).inc = ((s.core n).lane lane).act := by
  have he : exec (.weaveSend n lane true) s = execWeaveSend n lane true s := rfl
  unfold execWeaveSend at he
  simp only [hw, hk, hl, hsent, if_true, Bool.not_true, Bool.or_self, Bool.false_eq_true, if_false] at he
  refine ⟨_, he, ?_⟩
  rw [core_setCore_same, lane_setLane_same]

theorem weaveSend_tile (hto : w.tileTo ≠ n) (hl : s.fabric.links (dieOf n) (dieOf w.tileTo) = true)
    (hk : (s.core w.tileTo).weaveLane w.grid w.count = some k) (hsent : w.tileSent = false) (hwatch : (s.core w.tileTo).watches = [])
    {q' : MatCmd} {af' : Fmt} {a' : Nat} {v : Weave} (hv : ((s.core w.tileTo).lane k).weave? = some (q', af', a', v)) :
    ∃ t, exec (.weaveSend n lane false) s = .next t ∧
      (t.core w.tileTo).padRead v.buf (tileBytes af) = (s.core n).padRead a (tileBytes af) := by
  have he : exec (.weaveSend n lane false) s = execWeaveSend n lane false s := rfl
  unfold execWeaveSend at he
  simp only [hw, hk, hl, hsent, Bool.not_true, Bool.or_self, Bool.false_eq_true, if_false, core_setCore_ne _ _ _ hto, hv] at he
  refine ⟨_, he, ?_⟩
  rw [padStore_of_no_watch, core_setCore_same, core_setCore_same]
  · have hlen : ((s.core n).padRead a (tileBytes af)).length = tileBytes af := fgetAll_length ..
    have hread := padRead_padWrite ((s.core w.tileTo).setLane k (((s.core w.tileTo).lane k).onWeave fun w => { w with tileGot := true }))
      v.buf ((s.core n).padRead a (tileBytes af))
    rwa [hlen] at hread
  · rw [core_setCore_same]; exact hwatch

theorem weaveTimeout_ends (hsent : w.tileSent = false) (haway : (s.core w.tileTo).weaveLane w.grid w.count = none) :
    exec (.weaveTimeout n lane) s = .next (s.endCtx q.cmd.task.ctx 0x0B (ordOf q.cmd.task.id)) := by
  change execWeaveTimeout n lane s = _
  unfold execWeaveTimeout
  simp only [hw, hsent, haway, Bool.not_false, Option.isNone_none, Bool.and_self, Bool.true_or, if_true]

theorem weaveTimeout_idle (h1 : w.tileSent = true) (h2 : w.slotSent = true) (h3 : w.tileGot = true) (h4 : w.slotGot = true) :
    exec (.weaveTimeout n lane) s = .next s := by
  change execWeaveTimeout n lane s = _
  unfold execWeaveTimeout
  simp only [hw, h1, h2, h3, h4, Bool.not_true, Bool.false_and, Bool.or_self, Bool.false_eq_true, if_false]

end

/-- Settles O39: a full queue keeps each command waiting (`matCmd_waits`); with room, the guard held and its checks passed it enters
(`mwl_completes` to `weave_completes`); a weave sends its slot and its tile, or ends its context (`weaveSend_slot`, `weaveTimeout_ends`). -/
theorem matrixIssue : Obligations.MatrixIssue := by
  unfold Obligations.MatrixIssue
  refine ⟨fun s f fs h af r z p c0 cm1 row rm1 col seg rs a d => ⟨fun hfull => ⟨fun q => ⟨matCmd_waits q rfl rfl hfull,
      matCmd_waits q rfl rfl hfull, matCmd_waits q rfl rfl hfull⟩, fun q => ⟨matCmd_waits q rfl rfl hfull, matCmd_waits q rfl rfl hfull⟩,
      fun q => matCmd_waits q rfl rfl hfull, fun q => exec_wait q rfl rfl (if_pos hfull)⟩, fun hclaim => ?fromPad⟩,
    fun s f f1 fs h af wf z p pa pb a b gs c0 cm1 sm1 stride => ⟨fun hfull => ⟨fun q => matCmd_waits q rfl rfl hfull,
      fun q => matCmd_waits q rfl rfl hfull, fun q => matCmd_waits q rfl rfl hfull, fun q => matCmd_waits q rfl rfl hfull⟩,
      fun hclaim hroom => ?fromMemory⟩,
    fun s n lane q af a w hw => ⟨fun k _ hl hk hsent => weaveSend_slot hw hl hk hsent,
      fun k hto hl hk hsent hwatch q' af' a' v hv => weaveSend_tile hw hto hl hk hsent hwatch hv,
      weaveTimeout_ends hw, weaveTimeout_idle hw⟩⟩
  case fromPad =>
    refine ⟨fun q => ⟨fun hcols hfits hcan => mwl_completes hclaim hcan.1 q hcols hfits hcan.2,
      fun hbig hroom => mwl_traps hclaim hroom q hbig, fun hfits hcan => mmul_completes hclaim hcan.1 q hfits hcan.2,
      fun hrows hfits hcan => macld_completes hclaim hcan.1 q hrows hfits hcan.2⟩,
      fun q hroom _ => ⟨mswap_completes hclaim hroom q, macz_completes hclaim hroom q⟩,
      fun q hrows hfits hcan => macst_completes hclaim hcan.1 q hrows hfits hcan.2, fun q hshort => macmv_completes hclaim q hshort,
      fun q hshort hroom => macmvTo_completes hclaim hroom q hshort, fun q => macrd_completes hclaim q⟩
  case fromMemory =>
    refine ⟨fun q ks ps s1 hcols halign hks hps _ => mwlv_completes hclaim hroom q hcols halign hks hps,
      fun q hsucc ks ps s1 hfits halign hks hps hfree => mpass_completes hclaim hroom q hsucc rfl hfits halign hks hps rfl hfree,
      fun htile hbuf hapart hgrid halone w => ⟨fun q hsucc hpartners hfree =>
        weave_completes hclaim hroom q rfl rfl hsucc ⟨htile, hbuf, hapart, hgrid, halone, hpartners⟩ hfree,
        fun q hpartners hfree =>
          weave_completes hclaim hroom q rfl rfl (.inl ⟨rfl, rfl⟩) ⟨htile, hbuf, hapart, hgrid, halone, hpartners⟩ hfree⟩⟩

end Sys2Proof.Laws
end

section
/-!
SUPPORT. What the end of an engine command leaves alone (R200, R245, R246, R267, R274), and the matrix commands as they run (R251–R266).
-/

namespace Sys2Proof.Laws
open Sys2Proof.Machine

/-! ### The lanes but for their vector registers -/

/-- The lanes of two cores are the same but for the vector registers, which results change. -/
def LanesBare (c d : Core) : Prop := ∀ l, { d.lane l with v := [] } = { c.lane l with v := [] }

section
variable {c d b : Core}

theorem LanesBare.of_eq (h : d.lanes = c.lanes) : LanesBare c d := fun l =>
  congrArg (fun m => { fget Lane.reset m l with v := [] }) h

theorem LanesBare.trans (h : LanesBare c d) (g : LanesBare d b) : LanesBare c b := fun l => (g l).trans (h l)

theorem deliver_lanesBare (c : Core) (uid : Nat) (r : Reg) (v : BitVec 256) : LanesBare c (c.deliver uid r v) := by
  unfold Core.deliver
  split
  · exact .of_eq rfl
  · next f _ =>
    have hput : LanesBare c (c.putReg f r v).1 := (putReg_touches c f r v).lanes
    exact hput.trans (.of_eq rfl)

theorem fcloseDone_lanesBare (c : Core) : LanesBare c c.fcloseDone :=
  fcloseDone_keeps (fun _ => .of_eq rfl) .trans (fun _ _ => .of_eq rfl) deliver_lanesBare c

theorem fcloseDone_of_none (h : c.fclosed = []) : c.fcloseDone = c := by
  unfold Core.fcloseDone
  rw [h]
  rfl

end

/-! ### The completion of an engine command -/

/-- A frame whose open bundle waits no longer for command `id`. -/
def unwaitFrame (id : Nat) (f : Frame) : Frame := { f with bundle := { f.bundle with effects := f.bundle.effects.map (unwaitEffect id) } }

/-- A core that has counted the exceptions of its command `id`, whose effects wait for it no longer. -/
def completed (c : Core) (id : Nat) (x : Exc) : Core :=
  { (c.count x 0 0).returnGrants with
    closed := (c.count x 0 0).returnGrants.closed.map (fun b => { b with effects := b.effects.map (unwaitEffect id) })
    frames := (c.count x 0 0).returnGrants.frames.map (unwaitFrame id) }

section
variable (c : Core) (id : Nat) (x : Exc)

theorem completed_frame : completed c id x = { c with
    closed := c.closed.map (fun b => { b with effects := b.effects.map (unwaitEffect id) }), frames := c.frames.map (unwaitFrame id),
    grants := (completed c id x).grants, escnt := (completed c id x).escnt, crossed := (completed c id x).crossed } := by
  unfold completed Core.returnGrants
  rw [count_frame]

theorem completed_fclosed : (completed c id x).fclosed = c.fclosed := by
  rw [completed_frame]
  unfold Core.fclosed
  dsimp only
  simp only [List.any_map]
  rfl

end

section
variable {s t u : State} {n : Nat}

theorem Progressed.ofSame (h : Progressed s t n) (hc : ∀ k, s.core k = u.core k) (hm : s.mem = u.mem)
    (hd : ∀ d, (s.die d).samp = (u.die d).samp) : Progressed u t n where
  other k hk := hc k ▸ h.other k hk
  own := hc n ▸ h.own
  folds := h.folds
  mem := by rw [h.mem, hm, hc n]
  samp d := (h.samp d).trans (hd d)

theorem Progressed.toSame (h : Progressed s t n) (hc : u.cores = t.cores) (hm : u.mem = t.mem)
    (hd : ∀ d, (u.die d).samp = (t.die d).samp) : Progressed s u n where
  other k hk := core_of_cores hc k ▸ h.other k hk
  own := core_of_cores hc n ▸ h.own
  folds := core_of_cores hc n ▸ h.folds
  mem := hm.trans h.mem
  samp d := (hd d).trans (h.samp d)

end

section
variable (s : State) (n id : Nat) (x : Exc)

theorem cmdComplete_eq : s.cmdComplete n id x =
    (((s.setCore n ((s.core n).count x 0 0).returnGrants).setCore n (completed (s.core n) id x)).progress n).offers (clusterOf n) := by
  unfold State.cmdComplete State.commandDone
  dsimp only
  rw [core_setCore_same]
  rfl

omit id x in
theorem Progressed.offers {t : State} (h : Progressed s t n) (k : Nat) : Progressed s (t.offers k) n :=
  h.toSame rfl rfl fun _ => rfl

/-- What the completion of a command leaves alone, beside what `completed` names. -/
theorem cmdComplete_progressed : Progressed (s.setCore n (completed (s.core n) id x)) (s.cmdComplete n id x) n := by
  rw [cmdComplete_eq]
  refine Progressed.offers _ n ?_ _
  refine Progressed.ofSame (progress_progressed _ n) (fun k => ?_) rfl fun _ => rfl
  by_cases hk : k = n
  · subst hk; rw [core_setCore_same, core_setCore_same]
  · rw [core_setCore_ne _ _ _ hk, core_setCore_ne _ _ _ hk, core_setCore_ne _ _ _ hk]

theorem cmdComplete_folds : ((s.cmdComplete n id x).core n).fclosed = [] := (cmdComplete_progressed s n id x).folds

theorem cmdComplete_mem : (s.cmdComplete n id x).mem = s.mem.fcloseDone (s.core n).fclosed := by
  have h := (cmdComplete_progressed s n id x).mem
  rwa [core_setCore_same, completed_fclosed] at h

theorem cmdComplete_other {k : Nat} (hk : k ≠ n) : CoreSpared (s.core k) ((s.cmdComplete n id x).core k) := by
  have h := (cmdComplete_progressed s n id x).other k hk
  rwa [core_setCore_ne _ _ _ hk] at h

theorem cmdComplete_own : (s.cmdComplete n id x).core n = { (completed (s.core n) id x).fcloseDone with
    closed := ((s.cmdComplete n id x).core n).closed, quietUpTo := ((s.cmdComplete n id x).core n).quietUpTo,
    arrivals := ((s.cmdComplete n id x).core n).arrivals, pushes := ((s.cmdComplete n id x).core n).pushes,
    watches := ((s.cmdComplete n id x).core n).watches } := by
  have h := (cmdComplete_progressed s n id x).own
  rwa [core_setCore_same] at h

theorem cmdComplete_pad : ((s.cmdComplete n id x).core n).pad = (s.core n).pad := ((cmdComplete_kept s n id x).core n).pad

theorem cmdComplete_lanesBare : LanesBare (s.core n) ((s.cmdComplete n id x).core n) := by
  have hown := cmdComplete_own s n id x
  have hdone : LanesBare (s.core n) (completed (s.core n) id x) := by
    rw [completed_frame]
    exact .of_eq rfl
  exact (hdone.trans (fcloseDone_lanesBare _)).trans (.of_eq (congrArg Core.lanes hown :))

section
variable (h : (s.core n).fclosed = [])
include h

theorem completed_fcloseDone : (completed (s.core n) id x).fcloseDone = completed (s.core n) id x :=
  fcloseDone_of_none (by rw [completed_fclosed]; exact h)

theorem cmdComplete_lanes : ((s.cmdComplete n id x).core n).lanes = (s.core n).lanes := by
  have hown := congrArg Core.lanes (cmdComplete_own s n id x)
  rw [completed_fcloseDone s n id x h, completed_frame] at hown
  exact hown

theorem cmdComplete_frames : ((s.cmdComplete n id x).core n).frames = (s.core n).frames.map (unwaitFrame id) := by
  have hown := congrArg Core.frames (cmdComplete_own s n id x)
  rw [completed_fcloseDone s n id x h, completed_frame] at hown
  exact hown

end

end

end Sys2Proof.Laws
end

section
/-!
SUPPORT. The matrix commands as they run (R251–R266).
-/

namespace Sys2Proof.Laws
open Sys2Proof.Machine

/-! ### Accumulators and weight slots of a lane -/

section
variable (l : Lane)

theorem step_mq (af : Fmt) (z : Bool) (tile : List Byte) : (l.step af z tile).1.mq = l.mq := by
  unfold Lane.step
  dsimp only

theorem passes_mq (af wf : Fmt) : ∀ (es : List (List Byte × List Byte)) (z : Bool) (l : Lane), (l.passes af wf z es).1.mq = l.mq
  | [], _, _ => rfl
  | e :: es, z, l => by
    unfold Lane.passes
    dsimp only
    rw [passes_mq, step_mq]
    rfl

/-- A step of `MPASS` loads its image, swaps it in, and multiplies (R262). -/
theorem passes_cons (af wf : Fmt) (z : Bool) (img tile : List Byte) (es : List (List Byte × List Byte)) :
    (l.passes af wf z ((img, tile) :: es)).1 = ((({ l with act := fsetAll WCol.zero l.inc 0 (expandImage wf 128 img), inc := l.act } :
      Lane).step af z tile).1.passes af wf false es).1 := by
  rw [Lane.passes.eq_def]
  dsimp only
  rfl

/-- Rows of an accumulator that are set in order. -/
def setRows (acc : FMap (BitVec 4096)) (row : Nat) (v : Nat → BitVec 4096) (rows : Nat) : FMap (BitVec 4096) :=
  (List.range rows).foldl (fun m i => fset 0 m (row + i) (v i)) acc

theorem foldl_setAcc (row : Nat) (v : Nat → BitVec 4096) (rows : Nat) :
    (List.range rows).foldl (fun l i => Lane.setAcc l (row + i) (v i)) l = { l with acc := setRows l.acc row v rows } := by
  unfold setRows
  induction rows with
  | zero => rfl
  | succ k ih => rw [List.range_succ, List.foldl_append, List.foldl_append, ih]; rfl

theorem fget_setRows (acc : FMap (BitVec 4096)) (row : Nat) (v : Nat → BitVec 4096) (rows k : Nat) :
    fget 0 (setRows acc row v rows) k = if row ≤ k ∧ k < row + rows then v (k - row) else fget 0 acc k := by
  unfold setRows
  induction rows with
  | zero => rw [if_neg (by omega)]; rfl
  | succ m ih =>
    rw [List.range_succ, List.foldl_append]
    by_cases hk : k = row + m
    · subst hk
      rw [if_pos (by omega), Nat.add_sub_cancel_left]
      exact fget_fset_same ..
    · have hiff : (row ≤ k ∧ k < row + (m + 1)) ↔ row ≤ k ∧ k < row + m := by omega
      simp only [hiff, ← ih]
      exact fget_fset_ne _ _ _ hk

/-- A segment of eight elements of a row that is replaced (R264). -/
theorem getLsbD_putSeg (r : BitVec 4096) (v : BitVec 256) {seg b : Nat} (hb : b < 4096) :
    (putSeg r seg v).getLsbD b = if b / 256 = seg then v.getLsbD (b % 256) else r.getLsbD b := by
  unfold putSeg
  simp only [BitVec.getLsbD_or, BitVec.getLsbD_and, BitVec.getLsbD_not, BitVec.getLsbD_shiftLeft, BitVec.getLsbD_setWidth,
    BitVec.getLsbD_allOnes, hb, decide_true, Bool.true_and]
  by_cases hseg : b / 256 = seg
  · have h1 : ¬ b < 256 * seg := by omega
    have h2 : b - 256 * seg < 256 := by omega
    have h3 : b - 256 * seg = b % 256 := by omega
    have h4 : b % 256 < 4096 := by omega
    simp [hseg, h1, h3, h4]
    omega
  · rw [if_neg hseg]
    by_cases hlow : b < 256 * seg
    · simp [hlow]
    · have h2 : ¬ b - 256 * seg < 256 := by omega
      have h3 : v.getLsbD (b - 256 * seg) = false := BitVec.getLsbD_of_ge _ _ (by omega)
      simp [h2, h3]

end

/-! ### What a command leaves alone -/

/-- The core of a command in `lane`, the other cores and memory after it, but for the command's own lane and frames. -/
structure MatOthers (s t : State) (n lane : Nat) : Prop where
  lanes : ∀ k, k ≠ lane → (t.core n).lane k = (s.core n).lane k
  mem : ∀ key, t.mem.newerData key = s.mem.newerData key ∧ t.mem.olderData key = s.mem.olderData key ∧
    t.mem.lineTags key = s.mem.lineTags key
  cores : ∀ m, m ≠ n → (t.core m).frames = (s.core m).frames ∧ (t.core m).pad = (s.core m).pad ∧ (t.core m).lanes = (s.core m).lanes

/-- A frame without the effects that its open bundle holds. -/
def bareFrame (f : Frame) : Frame := { f with bundle := { f.bundle with effects := [] } }

/-- A command whose end leaves its lane as `l`, but for the vector registers, which folds that close may change. -/
structure MatEnds (s t : State) (n lane : Nat) (qs : List MatCmd) (l : Lane) : Prop where
  own : { (t.core n).lane lane with v := [] } = { l with mq := qs, v := [] }
  alone : (s.core n).fclosed = [] → (t.core n).lane lane = { l with mq := qs } ∧ MatOthers s t n lane ∧
    (t.core n).frames.map bareFrame = (s.core n).frames.map bareFrame

/-- `u` differs from `s` in the scratchpad of core `n` at most. -/
structure PadOnly (s u : State) (n : Nat) : Prop where
  own : u.core n = { s.core n with pad := (u.core n).pad }
  other : ∀ m, m ≠ n → u.core m = s.core m
  mem : u.mem = s.mem

theorem PadOnly.refl (s : State) (n : Nat) : PadOnly s s n := ⟨rfl, fun _ _ => rfl, rfl⟩

section
variable {s u : State} {n lane : Nat} {q : MatCmd} {qs : List MatCmd} {l : Lane}

theorem lane_of_lanes {c d : Core} (h : d.lanes = c.lanes) (k : Nat) : d.lane k = c.lane k := congrArg (fun m => fget Lane.reset m k) h

section
variable (hu : PadOnly s u n) (lane l)
include hu

/-- The package without the command at the head of lane `lane`, which is left as `l`. -/
theorem others_of_cmdComplete (id : Nat) (x : Exc) (hclosed : (s.core n).fclosed = []) :
    let t := (u.setCore n ((u.core n).setLane lane l)).cmdComplete n id x
    (t.core n).lane lane = l ∧ MatOthers s t n lane ∧ (t.core n).frames.map bareFrame = (s.core n).frames.map bareFrame := by
  intro t
  have hown : (u.setCore n ((u.core n).setLane lane l)).core n = (u.core n).setLane lane l := core_setCore_same ..
  have hnone : ((u.setCore n ((u.core n).setLane lane l)).core n).fclosed = [] := by
    rw [hown]
    exact (congrArg Core.fclosed hu.own).trans hclosed
  have hlanes := cmdComplete_lanes _ n id x hnone
  rw [hown] at hlanes
  refine ⟨(lane_of_lanes hlanes lane).trans (lane_setLane_same ..), ⟨fun k hk => ?others, fun key => ?mem, fun m hm => ?cores⟩, ?frames⟩
  case others =>
    have hsame : (u.core n).lane k = (s.core n).lane k := lane_of_lanes (congrArg Core.lanes hu.own :) k
    exact (lane_of_lanes hlanes k).trans ((lane_setLane_ne _ _ _ hk).trans hsame)
  case mem =>
    have hmem : t.mem = s.mem.fcloseDone ((u.setCore n ((u.core n).setLane lane l)).core n).fclosed := by
      rw [← hu.mem]
      exact cmdComplete_mem ..
    rw [hmem]
    exact ⟨rfl, rfl, rfl⟩
  case cores =>
    have hspared := cmdComplete_other (u.setCore n ((u.core n).setLane lane l)) n id x hm
    rw [core_setCore_ne _ _ _ hm, hu.other m hm] at hspared
    exact ⟨(congrArg Core.frames hspared.frame :), (congrArg Core.pad hspared.frame :), (congrArg Core.lanes hspared.frame :)⟩
  case frames =>
    have hframes := cmdComplete_frames _ n id x hnone
    have hsame : (u.core n).frames = (s.core n).frames := (congrArg Core.frames hu.own :)
    rw [hframes, hown, List.map_map, ← hsame]
    rfl

end

/-- A command ends with its lane as `l`, after it has changed a scratchpad at most. -/
theorem matEnd_ends (hu : PadOnly s u n) (hl : l.mq = q :: qs) (id : Nat) (x : Exc) :
    MatEnds s (u.matEnd n lane l id x) n lane qs l ∧ ((u.matEnd n lane l id x).core n).pad = (u.core n).pad := by
  have htail : l.mq.tail = qs := by rw [hl]; rfl
  unfold State.matEnd
  rw [htail]
  refine ⟨⟨?own, others_of_cmdComplete lane _ hu id x⟩, ?pad⟩
  case own => rw [cmdComplete_lanesBare _ n id x lane, core_setCore_same, lane_setLane_same]
  case pad => rw [cmdComplete_pad, core_setCore_same]; rfl

end

/-! ### The commands -/

section
variable {s : State} {n lane : Nat} {q : MatCmd} {qs : List MatCmd} (hq : ((s.core n).lane lane).mq = q :: qs)
  (hx : (s.ctx q.cmd.task.ctx).tearing = false)
include hq hx

theorem matrixCommandRun_runs : exec (.matrixCommandRun n lane) s = .next (s.matRun n lane ((s.core n).lane lane) q) := by
  change execMatrixCommandRun n lane s = _
  unfold execMatrixCommandRun
  simp only [hq, hx, Bool.false_eq_true, if_false]

/-- A command that leaves its lane as `l`, the scratchpad as it is, and ends. -/
def MatGives (s : State) (n lane : Nat) (qs : List MatCmd) (l : Lane) : Prop :=
  ∃ t, exec (.matrixCommandRun n lane) s = .next t ∧ (t.core n).pad = (s.core n).pad ∧ MatEnds s t n lane qs l

theorem matGives_of_matEnd {l : Lane} {x : Exc} (hl : l.mq = ((s.core n).lane lane).mq)
    (hrun : s.matRun n lane ((s.core n).lane lane) q = s.matEnd n lane l q.cmd.id x) : MatGives s n lane qs l := by
  obtain ⟨hends, hpad⟩ := matEnd_ends (lane := lane) (.refl s n) (hl.trans hq) q.cmd.id x
  exact ⟨_, (matrixCommandRun_runs hq hx).trans (congrArg _ hrun), hpad, hends⟩

section
variable {wf af : Fmt} {a c0 cnt row rows seg : Nat} {bs : List Byte} {z : Bool}

theorem matSwap_gives (hop : q.op = .swap) :
    MatGives s n lane qs { (s.core n).lane lane with act := ((s.core n).lane lane).inc, inc := ((s.core n).lane lane).act } :=
  matGives_of_matEnd hq hx rfl (by unfold State.matRun; rw [hop]; rfl)

theorem matZero_gives (hop : q.op = .zero) : MatGives s n lane qs { (s.core n).lane lane with acc := [] } :=
  matGives_of_matEnd hq hx rfl (by unfold State.matRun; rw [hop])

theorem matLoadPad_gives (hop : q.op = .mwl wf a c0 cnt) : MatGives s n lane qs { (s.core n).lane lane with
    inc := fsetAll WCol.zero ((s.core n).lane lane).inc c0 (expandImage wf cnt ((s.core n).padRead a (imageBytes wf cnt))) } :=
  matGives_of_matEnd hq hx rfl (by unfold State.matRun; rw [hop]; rfl)

theorem matLoadLines_gives {img : List Src} (hop : q.op = .mwlv wf img c0 cnt) (hbs : s.engineLines n q.cmd img = .ok bs) :
    MatGives s n lane qs { (s.core n).lane lane with
      inc := fsetAll WCol.zero ((s.core n).lane lane).inc c0 (expandImage wf cnt bs) } :=
  matGives_of_matEnd hq hx rfl (by unfold State.matRun State.withEngine; rw [hop]; dsimp only; rw [hbs]; rfl)

theorem matMul_gives (hop : q.op = .mul af z a) :
    MatGives s n lane qs (((s.core n).lane lane).step af z ((s.core n).padRead a (tileBytes af))).1 :=
  matGives_of_matEnd hq hx (step_mq ..) (by unfold State.matRun; rw [hop])

theorem matPass_gives {imgs : List (List Src)} (hop : q.op = .pass af wf z a imgs)
    (hbs : s.engineLines n q.cmd (imgs.flatMap fun i => i) = .ok bs) :
    MatGives s n lane qs (((s.core n).lane lane).passes af wf z ((groupsOf (imageBytes wf 128) imgs.length bs).zip
      ((List.range imgs.length).map fun j => (s.core n).padRead (a + j * tileBytes af) (tileBytes af)))).1 :=
  matGives_of_matEnd hq hx (passes_mq ..) (by unfold State.matRun State.withEngine; rw [hop]; dsimp only; rw [hbs])

theorem matLoadAcc_gives (hop : q.op = .load a row rows) : MatGives s n lane qs { (s.core n).lane lane with
    acc := setRows ((s.core n).lane lane).acc row (fun i => BitVec.ofNat 4096 (leNat ((s.core n).padRead (a + 512 * i) 512))) rows } :=
  matGives_of_matEnd hq hx rfl (by unfold State.matRun; rw [hop]; dsimp only; rw [← foldl_setAcc]; rfl)

theorem matSetSeg_gives {reg : VReg} {v : BitVec 256} (hop : q.op = .mvTo row seg reg v) : MatGives s n lane qs { (s.core n).lane lane with
    acc := fset 0 ((s.core n).lane lane).acc row (putSeg (fget 0 ((s.core n).lane lane).acc row) seg v) } :=
  matGives_of_matEnd hq hx rfl (by unfold State.matRun; rw [hop]; rfl)

section
variable {zo : Option Bool} {w : Weave} (hop : q.op = .weave af zo a w)
include hop

/-- The lane after the step of a weave, which `MSKEW` does not make, and the exceptions of the step (R265, R266). -/
def weaveStep (l : Lane) (c : Core) (af : Fmt) (zo : Option Bool) (a : Nat) : Lane × Exc :=
  match zo with
  | some z => l.step af z (c.padRead a (tileBytes af))
  | none => (l, 0)

omit hop hq hx in
theorem weaveStep_mq (l : Lane) (c : Core) (af : Fmt) (zo : Option Bool) (a : Nat) : (weaveStep l c af zo a).1.mq = l.mq := by
  cases zo with
  | none => rfl
  | some z => exact step_mq ..

omit hop hq hx in
/-- The weave at the head of a queue is changed in place. -/
theorem onWeave_head {l : Lane} {g : Weave → Weave} (hl : l.mq = q :: qs) (hop : q.op = .weave af zo a w) :
    l.onWeave g = { l with mq := { q with op := .weave af zo a (g w) } :: qs } := by
  unfold Lane.onWeave
  rw [hl]
  dsimp only
  rw [hop]

theorem matWeave_starts (hs : w.started = false) : exec (.matrixCommandRun n lane) s = .next (s.setCore n ((s.core n).setLane lane
    { (weaveStep ((s.core n).lane lane) (s.core n) af zo a).1 with
      mq := { q with op := .weave af zo a { w with
        started := true, exc := (weaveStep ((s.core n).lane lane) (s.core n) af zo a).2 } } :: qs })) := by
  rw [matrixCommandRun_runs hq hx]
  unfold State.matRun
  rw [hop]
  dsimp only
  rw [if_neg (by simp [hs])]
  have hhead := onWeave_head (g := fun w => { w with started := true, exc := (weaveStep ((s.core n).lane lane) (s.core n) af zo a).2 })
    ((weaveStep_mq ((s.core n).lane lane) (s.core n) af zo a).trans hq) hop
  rw [← hhead]
  cases zo <;> rfl

theorem matWeave_ends (hs : w.started = true) (hd : w.done = true) : MatGives s n lane qs ((s.core n).lane lane) :=
  matGives_of_matEnd hq hx rfl (x := w.exc) (by
    unfold State.matRun
    rw [hop]
    dsimp only
    rw [if_pos hs, if_pos hd])

theorem matWeave_waits (hs : w.started = true) (hd : w.done = false) : exec (.matrixCommandRun n lane) s = .next s := by
  rw [matrixCommandRun_runs hq hx]
  unfold State.matRun
  rw [hop]
  dsimp only
  rw [if_pos hs, if_neg (by simp [hd])]

end

end

/-! ### Stores, and reads of accumulators (R263, R264) -/

omit hq hx in
theorem padStore_padOnly {s : State} {n : Nat} (a : Nat) (bs : List Byte) (set : IncSet) (hw : (s.core n).watches = []) :
    PadOnly s (s.padStore n a bs set) n := by
  rw [padStore_of_no_watch a bs set hw]
  exact ⟨by rw [core_setCore_same]; rfl, fun m hm => core_setCore_ne _ _ _ hm, rfl⟩

theorem matStore_ends {fm : Fmt} {r : Rnd} {a row rows : Nat} {st : Option Machine.Stoch} (hop : q.op = .store fm r a row rows st)
    (hw : (s.core n).watches = []) : ∃ t, exec (.matrixCommandRun n lane) s = .next t ∧
      (t.core n).padRead a (((s.core n).lane lane).storeRows fm r q.cmd.ovf row rows st).1.length =
        (((s.core n).lane lane).storeRows fm r q.cmd.ovf row rows st).1 ∧ MatEnds s t n lane qs ((s.core n).lane lane) := by
  obtain ⟨hends, hpad⟩ := matEnd_ends (lane := lane) (padStore_padOnly a (((s.core n).lane lane).storeRows fm r q.cmd.ovf row rows st).1
    q.cmd.set hw) hq q.cmd.id (((s.core n).lane lane).storeRows fm r q.cmd.ovf row rows st).2
  refine ⟨_, (matrixCommandRun_runs hq hx).trans (by unfold State.matRun; rw [hop]), ?_, hends⟩
  rw [padStore_of_no_watch a _ _ hw, core_setCore_same] at hpad
  unfold Core.padRead
  rw [padStore_of_no_watch a _ _ hw, hpad]
  exact padRead_padWrite ..

section
variable {uid row col seg : Nat} {f : Frame} (hf : (s.core n).frame? uid = some f)
include hf

omit hq hx in
theorem frame?_withoutHead : ((s.core n).setLane lane { (s.core n).lane lane with mq := qs }).frame? uid = some f := hf

omit hx hf in
theorem matRun_rd {d : GReg} (hop : q.op = .rd uid d row col) : s.matRun n lane ((s.core n).lane lane) q =
    s.setCore n (((s.core n).setLane lane { (s.core n).lane lane with mq := qs }).deliver uid (.g d)
      (BitVec.ofNat 256 ((fget 0 ((s.core n).lane lane).acc row).toNat / 2 ^ (32 * col) % 2 ^ 32))) := by
  unfold State.matRun
  rw [hop, hq]
  rfl

omit hx in
theorem matRun_mv {d : VReg} (hop : q.op = .mv uid d row seg) : s.matRun n lane ((s.core n).lane lane) q =
    s.setCore n (((s.core n).setLane lane { (s.core n).lane lane with mq := qs }).deliver uid (.v d)
      (BitVec.ofNat 256 ((fget 0 ((s.core n).lane lane).acc row).toNat / 2 ^ (256 * seg) % 2 ^ 256))) := by
  unfold State.matRun
  rw [hop, hq]
  dsimp only
  rw [List.tail_cons, frame?_withoutHead hf]
  rfl

/-- A general register that receives an element of the accumulator. -/
theorem matRead_results {d : GReg} (hop : q.op = .rd uid d row col) : ∃ t, exec (.matrixCommandRun n lane) s = .next t ∧
    (t.core n).frame? uid = some (withResult f d (BitVec.ofNat 64 ((fget 0 ((s.core n).lane lane).acc row).toNat / 2 ^ (32 * col) % 2 ^ 32))) ∧
    MatOthers s t n lane := by
  have hwide (k : Nat) : BitVec.ofNat 256 (k % 2 ^ 32) = (BitVec.ofNat 64 (k % 2 ^ 32)).setWidth 256 := by
    apply BitVec.eq_of_toNat_eq
    simp only [BitVec.toNat_ofNat, BitVec.toNat_setWidth]
    omega
  have hf1 := frame?_withoutHead (lane := lane) (qs := qs) hf
  have hrun := (matrixCommandRun_runs hq hx).trans (congrArg _ (matRun_rd hq hop))
  rw [hwide, deliver_g hf1] at hrun
  refine ⟨_, hrun, ?_, ⟨fun k hk => ?_, fun _ => ⟨rfl, rfl, rfl⟩, fun m hm => ?_⟩⟩
  · rw [core_setCore_same]
    exact frame?_onFrame hf1 ((withResult_uid _).trans (uid_of_frame? hf))
  · rw [core_setCore_same]
    exact lane_setLane_ne _ _ _ hk
  · rw [core_setCore_ne _ _ _ hm]
    exact ⟨rfl, rfl, rfl⟩

omit hq hx hf in
theorem getV_setV_same (c : Core) (l : Nat) (r : VReg) (v : BitVec 256) : (c.setV l r v).getV l r = v := by
  unfold Core.getV Core.setV
  rw [lane_setLane_same]
  exact fget_fset_same ..

/-- A vector register that receives a segment of the accumulator. -/
theorem matMove_results {d : VReg} (hop : q.op = .mv uid d row seg) : ∃ t, exec (.matrixCommandRun n lane) s = .next t ∧
    (t.core n).getV f.lane d = BitVec.ofNat 256 ((fget 0 ((s.core n).lane lane).acc row).toNat / 2 ^ (256 * seg) % 2 ^ 256) := by
  refine ⟨_, (matrixCommandRun_runs hq hx).trans (congrArg _ (matRun_mv hq hf hop)), ?_⟩
  rw [core_setCore_same]
  unfold Core.deliver
  rw [frame?_withoutHead hf]
  exact getV_setV_same ..

end

end

/-- Settles O40: each command leaves its lane as its own lemma says (`matSwap_gives` to `matMove_results`); what its end leaves alone says
`matEnd_ends`, from what the completion of any engine command leaves alone (`cmdComplete_spared`). -/
theorem matrixCommandsRun : Obligations.MatrixCommandsRun := by
  unfold Obligations.MatrixCommandsRun
  intro s n lane q qs hq hx c l bare others gives
  have hothers {t : State} (h : MatOthers s t n lane) : others t := ⟨h.lanes, h.mem, h.cores⟩
  have hgives {l' : Lane} (h : MatGives s n lane qs l') : gives l' := by
    obtain ⟨t, he, hpad, hends⟩ := h
    refine ⟨t, he, hpad, hends.own, fun hc => ?_⟩
    obtain ⟨hlane, ho, hframes⟩ := hends.alone hc
    exact ⟨hlane, hothers ho, hframes⟩
  refine ⟨fun hop => hgives (matSwap_gives hq hx hop), fun hop => hgives (matZero_gives hq hx hop),
    fun wf a c0 cnt hop => hgives (matLoadPad_gives hq hx hop), fun wf img c0 cnt bs hop hbs => hgives (matLoadLines_gives hq hx hop hbs),
    fun af z a hop => hgives (matMul_gives hq hx hop), fun af wf z a imgs bs hop hbs => hgives (matPass_gives hq hx hop hbs),
    fun k af wf z img tile es => passes_cons k af wf z img tile es, fun af z a w hop => ⟨fun hs => ?starts, fun hs h1 h2 h3 h4 => ?ends, fun hs hd => ?waits⟩,
    fun a row rows hop => ⟨_, hgives (matLoadAcc_gives hq hx hop), fun i hi => ?rows, fun k hk => ?otherRows⟩,
    fun row seg reg v hop hseg => ⟨_, hgives (matSetSeg_gives hq hx hop), fun k hk => fget_fset_ne _ _ _ hk, fun b hb => ?segment⟩,
    fun fm r a row rows st hop hw => ?store, fun uid d row col f hop hf hd => ?read, fun uid d row seg f hop hf => matMove_results hq hx hf hop⟩
  case starts =>
    have hstart := matWeave_starts hq hx hop hs
    cases z <;> exact hstart
  case ends => exact hgives (matWeave_ends hq hx hop hs (by unfold Weave.done; rw [h1, h2, h3, h4]; rfl))
  case waits =>
    refine matWeave_waits hq hx hop hs ?_
    unfold Weave.done
    rcases hd with h | h | h | h <;> simp [h]
  case rows =>
    rw [fget_setRows, if_pos (by omega), Nat.add_sub_cancel_left]
  case otherRows => rw [fget_setRows, if_neg (by omega)]
  case segment =>
    rw [fget_fset_same]
    exact getLsbD_putSeg _ _ hb
  case store =>
    obtain ⟨t, he, hread, hends⟩ := matStore_ends hq hx hop hw
    exact ⟨t, he, hread, hends.own, fun hc => hothers (hends.alone hc).2.1⟩
  case read =>
    obtain ⟨t, he, hframe, ho⟩ := matRead_results hq hx hf hop
    exact ⟨t, _, he, hframe, getG_withResult hd _, withResult_await _, fun k hk => getG_withResult_ne hk _, hothers ho⟩

end Sys2Proof.Laws
end

section
/-!
SUPPORT. The sampler instructions at issue (R306, R309–R313, R391).
-/

namespace Sys2Proof.Laws
open Sys2Proof.Machine

/-! ### Operands -/

theorem extract_byte2 (v : Word) : v.extractLsb' 16 8 = BitVec.ofNat 8 (v.toNat / 65536) := by
  apply BitVec.eq_of_toNat_eq
  rw [BitVec.extractLsb'_toNat, Nat.shiftRight_eq_div_pow, BitVec.toNat_ofNat]

theorem extract_low32 (v : Word) : v.extractLsb' 0 32 = BitVec.ofNat 32 v.toNat := by
  apply BitVec.eq_of_toNat_eq
  rw [BitVec.extractLsb'_toNat, Nat.shiftRight_zero, BitVec.toNat_ofNat]

theorem extract_low12 (v : Word) : v.extractLsb' 0 12 = BitVec.ofInt 12 v.toInt := by
  apply BitVec.eq_of_toNat_eq
  have hv := v.isLt
  rw [BitVec.extractLsb'_toNat, Nat.shiftRight_zero, BitVec.toNat_ofInt, BitVec.toInt_eq_toNat_cond]
  split <;> omega

section
variable {f : Frame} {a : GReg} (h : (f.getG a).toNat < 65536)
include h

theorem cellOk_of_lt : f.cellOk a = true := decide_eq_true h

theorem cellOf_of_lt : f.cellOf a = (f.getG a).toNat := Nat.mod_eq_of_lt h

end

theorem cellOk_false {f : Frame} {a : GReg} (h : 65536 ≤ (f.getG a).toNat) : f.cellOk a = false := decide_eq_false (Nat.not_lt.2 h)

/-! ### The queue and the ownership of the array -/

/-- The package after frame `f` has entered a sampler command; `g` is the frame then, before it has passed its horizon. -/
def sampEntered (s : State) (f g : Frame) (o : SampOp) (read : Bool) : State :=
  ((s.setCore s.cur { (s.core s.cur).setTop { g with samp := g.samp ++ [s.uid], horizon := g.horizon || !read } with
    sampq := (s.core s.cur).sampq ++ [{ cmd := s.cmdOf s.cur f [], op := o }] }).setDie (dieOf s.cur)
    { s.die (dieOf s.cur) with samp := { (s.die (dieOf s.cur)).samp with owner := some f.task.ctx } }).fresh

/-- How a sampler instruction that issues enters its command. -/
def sampEnter (s : State) (f : Frame) (read : Bool) (o : SampOp) (g : Frame) : Act := .go (sampEntered s f g o read) Ret.plain

/-- A sampler instruction waits while the queue is full, traps at the array of another context, and else does `P`. -/
def SampFree (s : State) (f : Frame) (i : Instr) (P : Prop) : Prop :=
  (4 ≤ (s.core s.cur).sampq.length → exec i s = .next (s.stopped s.cur)) ∧
  ((s.core s.cur).sampq.length < 4 →
    (∀ k, (s.die (dieOf s.cur)).samp.owner = some k → k ≠ f.task.ctx → exec i s = .next (s.trapped s.cur i 0x2E 0)) ∧
    ((s.die (dieOf s.cur)).samp.owner = none ∨ (s.die (dieOf s.cur)).samp.owner = some f.task.ctx → P))

section
variable {s : State} {f : Frame} {fs : List Frame} {h : Hdr} {i : Instr} {regs : List Reg} {read : Bool}
  {op : Nat → Frame → (SampOp → Frame → Act) → Act} (q : Issues s f fs h false regs []) (hi : i.hdr? = some h)
  (he : exec i s = sampIssue i regs read s op)
include q hi he

theorem sampIssue_free {a : Act} (hb : op s.cur f (sampEnter s f read) = a) :
    SampFree s f i (exec i s = .next (a.next s s.cur i h)) := by
  refine ⟨fun hfull => exec_wait q hi he (if_pos (decide_eq_true hfull)), fun hroom => ⟨fun k hk hne => ?owned, fun hown => ?enters⟩⟩
  case owned =>
    refine exec_trap q hi he ((if_neg (by simpa using hroom)).trans (if_pos ?_))
    rw [hk]
    simpa using hne
  case enters =>
    refine exec_act q hi he ((if_neg (by simpa using hroom)).trans ((if_neg ?_).trans hb))
    rcases hown with hk | hk <;> rw [hk] <;> simp

theorem sampIssue_enters {o : SampOp} {g : Frame} (hb : op s.cur f (sampEnter s f read) = sampEnter s f read o g) :
    SampFree s f i (completes s i h (sampEntered s f g o read) Ret.plain) := sampIssue_free q hi he hb

theorem sampIssue_traps {cause : Nat} (hb : op s.cur f (sampEnter s f read) = .trap cause 0) :
    SampFree s f i (exec i s = .next (s.trapped s.cur i cause 0)) := sampIssue_free q hi he hb

end

section
variable {s : State} {f : Frame} {fs : List Frame} {h : Hdr} {i : Instr} {regs : List GReg} {ok : Frame → Bool} {op : Frame → SampOp}
  (q : Issues s f fs h false (regs.map .g) []) (hi : i.hdr? = some h) (he : exec i s = sampSet i regs s ok op)
include q hi he

theorem sampSet_enters (hok : ok f = true) {o : SampOp} (ho : op f = o) :
    SampFree s f i (completes s i h (sampEntered s f f o false) Ret.plain) :=
  sampIssue_enters q hi he ((if_pos hok).trans (congrArg (sampEnter s f false · f) ho))

theorem sampSet_traps (hok : ok f = false) : SampFree s f i (exec i s = .next (s.trapped s.cur i 0x2F 0)) :=
  sampIssue_traps q hi he (if_neg (by simp [hok]))

end

/-! ### The instructions -/

section
variable {s : State} {f f1 : Frame} {fs : List Frame} {h : Hdr} {a b d gs : GReg} {slot : BitVec 4} {v : Bool} {col : BitVec 3}
  {sm1 : BitVec 8} {ncm1 : BitVec 3} {bb : BitVec 4}

section
variable (q : Issues s f fs h false [.g a, .g b] [])
include q

theorem scouple_enters (ha : (f.getG a).toNat < 65536) (hb : (f.getG b).toNat < 2 ^ 24) : SampFree s f (.scouple h a b slot)
    (completes s (.scouple h a b slot) h (sampEntered s f f (.couple (f.getG a).toNat slot.toNat ((f.getG b).toNat % 65536)
      (BitVec.ofNat 8 ((f.getG b).toNat / 65536))) false) Ret.plain) :=
  sampSet_enters (regs := [a, b]) q rfl rfl (by rw [cellOk_of_lt ha, Bool.true_and]; exact decide_eq_true hb)
    (by rw [cellOf_of_lt ha, extract_byte2]; rfl)

theorem scouple_traps (hbad : 65536 ≤ (f.getG a).toNat ∨ 2 ^ 24 ≤ (f.getG b).toNat) : SampFree s f (.scouple h a b slot)
    (exec (.scouple h a b slot) s = .next (s.trapped s.cur (.scouple h a b slot) 0x2F 0)) :=
  sampSet_traps (regs := [a, b]) q rfl rfl (by
    rcases hbad with ha | hb
    · rw [cellOk_false ha, Bool.false_and]
    · rw [decide_eq_false (Nat.not_lt.2 hb), Bool.and_false])

theorem sbias_enters (ha : (f.getG a).toNat < 65536) (hlow : -2048 ≤ (f.getG b).toInt) (hhigh : (f.getG b).toInt ≤ 2047) :
    SampFree s f (.sbias h a b) (completes s (.sbias h a b) h
      (sampEntered s f f (.bias (f.getG a).toNat (BitVec.ofInt 12 (f.getG b).toInt)) false) Ret.plain) :=
  sampSet_enters (regs := [a, b]) q rfl rfl
    (by rw [cellOk_of_lt ha, Bool.true_and, decide_eq_true hlow, Bool.true_and]; exact decide_eq_true hhigh)
    (by rw [cellOf_of_lt ha, extract_low12])

theorem sbias_traps (hbad : 65536 ≤ (f.getG a).toNat ∨ (f.getG b).toInt < -2048 ∨ 2047 < (f.getG b).toInt) : SampFree s f (.sbias h a b)
    (exec (.sbias h a b) s = .next (s.trapped s.cur (.sbias h a b) 0x2F 0)) :=
  sampSet_traps (regs := [a, b]) q rfl rfl (by
    rcases hbad with ha | hb | hb
    · rw [cellOk_false ha, Bool.false_and, Bool.false_and]
    · rw [decide_eq_false (Int.not_le.2 hb), Bool.and_false, Bool.false_and]
    · rw [decide_eq_false (p := (f.getG b).toInt ≤ 2047) (Int.not_le.2 hb), Bool.and_false])

theorem swrite_enters (ha : (f.getG a).toNat < 65536) (halign : (f.getG a).toNat % 64 = 0) : SampFree s f (.swrite h a b)
    (completes s (.swrite h a b) h (sampEntered s f f (.write (f.getG a).toNat (f.getG b)) false) Ret.plain) :=
  sampSet_enters (regs := [a, b]) q rfl rfl (by rw [Frame.cells64, cellOk_of_lt ha, cellOf_of_lt ha, halign]; rfl)
    (by rw [cellOf_of_lt ha])

omit q in
theorem cells64_false (hbad : 65536 ≤ (f.getG a).toNat ∨ (f.getG a).toNat % 64 ≠ 0) : f.cells64 a = false := by
  unfold Frame.cells64
  by_cases ha : (f.getG a).toNat < 65536
  · rw [cellOf_of_lt ha]
    have halign : (f.getG a).toNat % 64 ≠ 0 := hbad.resolve_left (Nat.not_le.2 ha)
    simp [halign]
  · rw [cellOk_false (Nat.not_lt.1 ha), Bool.false_and]

theorem swrite_traps (hbad : 65536 ≤ (f.getG a).toNat ∨ (f.getG a).toNat % 64 ≠ 0) : SampFree s f (.swrite h a b)
    (exec (.swrite h a b) s = .next (s.trapped s.cur (.swrite h a b) 0x2F 0)) :=
  sampSet_traps (regs := [a, b]) q rfl rfl (cells64_false hbad)

theorem skey_enters (hb : (f.getG b).toNat < 2 ^ 32) : SampFree s f (.skey h bb a b) (completes s (.skey h bb a b) h
    (sampEntered s f f (.key bb (f.getG a) (BitVec.ofNat 32 (f.getG b).toNat)) false) Ret.plain) :=
  sampSet_enters (regs := [a, b]) q rfl rfl (decide_eq_true hb) (by rw [extract_low32])

theorem skey_traps (hb : 2 ^ 32 ≤ (f.getG b).toNat) : SampFree s f (.skey h bb a b)
    (exec (.skey h bb a b) s = .next (s.trapped s.cur (.skey h bb a b) 0x2F 0)) :=
  sampSet_traps (regs := [a, b]) q rfl rfl (decide_eq_false (Nat.not_lt.2 hb))

end

section
variable (q : Issues s f fs h false [.g a] [])
include q

theorem sclamp_enters (ha : (f.getG a).toNat < 65536) : SampFree s f (.sclamp h a v) (completes s (.sclamp h a v) h
    (sampEntered s f f (.clamp (f.getG a).toNat v) false) Ret.plain) :=
  sampSet_enters (regs := [a]) q rfl rfl (cellOk_of_lt ha) (by rw [cellOf_of_lt ha])

theorem sclampOff_enters (ha : (f.getG a).toNat < 65536) : SampFree s f (.sclampOff h a) (completes s (.sclampOff h a) h
    (sampEntered s f f (.clampOff (f.getG a).toNat) false) Ret.plain) :=
  sampSet_enters (regs := [a]) q rfl rfl (cellOk_of_lt ha) (by rw [cellOf_of_lt ha])

theorem scolour_enters (ha : (f.getG a).toNat < 65536) : SampFree s f (.scolour h a col) (completes s (.scolour h a col) h
    (sampEntered s f f (.colour (f.getG a).toNat col) false) Ret.plain) :=
  sampSet_enters (regs := [a]) q rfl rfl (cellOk_of_lt ha) (by rw [cellOf_of_lt ha])

end

section
variable (q : Issues s f fs h false ([.g a, .g gs] ++ s.succRegs gs) [])
include q

/-- The command that `SWEEP` enters with the operand of register `a`. -/
def sweepOp (s : State) (f : Frame) (a : GReg) (sm1 : BitVec 8) (ncm1 : BitVec 3) (bb : BitVec 4) : SampOp :=
  .sweep ((f.getG a).toNat % 65536) ((f.getG a).toNat / 65536 + 1) (sm1.toNat + 1) (ncm1.toNat + 1) bb.toNat (s.ctx f.task.ctx).keys

/-- The limits of `SWEEP` (R311). -/
def SweepOk (f : Frame) (a : GReg) : Prop :=
  (f.getG a).toNat < 2 ^ 32 ∧ (f.getG a).toNat % 65536 + ((f.getG a).toNat / 65536 + 1) ≤ 65536

theorem sweep_enters (hok : SweepOk f a) (hsucc : (s.ctx f.task.ctx).successor f gs 0x2F = .none ∧ f1 = f ∨
      ∃ st g, (s.ctx f.task.ctx).successor f gs 0x2F = .some st g ∧ f1 = g.hold (.start st (some s.uid))) :
    SampFree s f (.sweep h a gs sm1 ncm1 bb) (completes s (.sweep h a gs sm1 ncm1 bb) h
      (sampEntered s f f1 (sweepOp s f a sm1 ncm1 bb) false) Ret.plain) := by
  obtain ⟨hlt, hcells⟩ := hok
  have he : exec (.sweep h a gs sm1 ncm1 bb) s = execSweep h a gs sm1 ncm1 bb s := rfl
  unfold execSweep at he
  refine sampIssue_enters q rfl he ?_
  dsimp only
  rw [if_neg (by omega)]
  exact attach_of_held hsucc _

theorem sweep_badSuccessor (hok : SweepOk f a) {k : Nat} (hsucc : (s.ctx f.task.ctx).successor f gs 0x2F = .bad k) :
    SampFree s f (.sweep h a gs sm1 ncm1 bb)
      (exec (.sweep h a gs sm1 ncm1 bb) s = .next (s.trapped s.cur (.sweep h a gs sm1 ncm1 bb) k 0)) := by
  obtain ⟨hlt, hcells⟩ := hok
  have he : exec (.sweep h a gs sm1 ncm1 bb) s = execSweep h a gs sm1 ncm1 bb s := rfl
  unfold execSweep at he
  refine sampIssue_traps q rfl he ?_
  dsimp only
  rw [if_neg (by omega), hsucc]
  rfl

theorem sweep_traps (hbad : 2 ^ 32 ≤ (f.getG a).toNat ∨ 65536 < (f.getG a).toNat % 65536 + ((f.getG a).toNat / 65536 + 1)) :
    SampFree s f (.sweep h a gs sm1 ncm1 bb)
      (exec (.sweep h a gs sm1 ncm1 bb) s = .next (s.trapped s.cur (.sweep h a gs sm1 ncm1 bb) 0x2F 0)) := by
  have he : exec (.sweep h a gs sm1 ncm1 bb) s = execSweep h a gs sm1 ncm1 bb s := rfl
  unfold execSweep at he
  exact sampIssue_traps q rfl he (if_pos hbad)

end

section
variable (q : Issues s f fs h false [.g d, .g a] [])
include q

theorem sread_enters (ha : (f.getG a).toNat < 65536) (halign : (f.getG a).toNat % 64 = 0) : SampFree s f (.sread h d a)
    (completes s (.sread h d a) h
      (sampEntered s f { f with await := f.await ++ awaitReg d } (.read f.uid d (f.getG a).toNat) true) Ret.plain) := by
  have he : exec (.sread h d a) s = execSread h d a s := rfl
  unfold execSread at he
  refine sampIssue_enters q rfl he ((if_pos ?_).trans ?_)
  · rw [Frame.cells64, cellOk_of_lt ha, cellOf_of_lt ha, halign]
    rfl
  · rw [cellOf_of_lt ha]

theorem sread_traps (hbad : 65536 ≤ (f.getG a).toNat ∨ (f.getG a).toNat % 64 ≠ 0) : SampFree s f (.sread h d a)
    (exec (.sread h d a) s = .next (s.trapped s.cur (.sread h d a) 0x2F 0)) := by
  have he : exec (.sread h d a) s = execSread h d a s := rfl
  unfold execSread at he
  exact sampIssue_traps q rfl he (if_neg (by simp [cells64_false hbad]))

end

end

end Sys2Proof.Laws
end

section
/-!
SUPPORT. The sampling array as it runs a command (R307, R308, R310–R314).
-/

namespace Sys2Proof.Laws
open Sys2Proof.Machine

/-! ### Cells -/

/-- An array but for its cells. -/
def bareSampler (x : Sampler) : Sampler := { x with cells := [] }

section
variable (x : Sampler)

theorem cell_onCell (k j : Nat) (g : Cell → Cell) : (x.onCell k g).cell j = if j = k then g (x.cell k) else x.cell j := by
  unfold Sampler.onCell Sampler.cell
  by_cases hj : j = k
  · subst hj; rw [if_pos rfl]; exact fget_fset_same ..
  · rw [if_neg hj]; exact fget_fset_ne _ _ _ hj

/-- A row of cells whose values are set where `p` says so. -/
def setCells (c : Nat) (p : Cell → Nat → Bool) (v : Nat → Bool) (n : Nat) : Sampler :=
  (List.range n).foldl (fun y i => if p (y.cell (c + i)) (c + i) then y.onCell (c + i) (fun e => { e with s := v (c + i) }) else y) x

theorem setCells_succ (c : Nat) (p : Cell → Nat → Bool) (v : Nat → Bool) (n : Nat) : setCells x c p v (n + 1) =
    if p ((setCells x c p v n).cell (c + n)) (c + n) then
      (setCells x c p v n).onCell (c + n) (fun e => { e with s := v (c + n) }) else setCells x c p v n := by
  unfold setCells
  rw [List.range_succ, List.foldl_append]
  rfl

theorem bare_setCells (c : Nat) (p : Cell → Nat → Bool) (v : Nat → Bool) : ∀ n, bareSampler (setCells x c p v n) = bareSampler x
  | 0 => rfl
  | n + 1 => by
    rw [setCells_succ]
    split
    · exact bare_setCells c p v n
    · exact bare_setCells c p v n

theorem cell_setCells (c : Nat) (p : Cell → Nat → Bool) (v : Nat → Bool) (k : Nat) : ∀ n, (setCells x c p v n).cell k =
    if c ≤ k ∧ k < c + n ∧ p (x.cell k) k = true then { x.cell k with s := v k } else x.cell k
  | 0 => (if_neg (by omega)).symm
  | n + 1 => by
    have ih := cell_setCells c p v k n
    rw [setCells_succ]
    by_cases hk : k = c + n
    · have hold : (setCells x c p v n).cell k = x.cell k := by rw [ih, if_neg (by omega)]
      subst hk
      rw [hold]
      by_cases hp : p (x.cell (c + n)) (c + n) = true
      · rw [if_pos hp, if_pos ⟨by omega, by omega, hp⟩, cell_onCell, if_pos rfl, hold]
      · rw [if_neg hp, if_neg (fun h => hp h.2.2), hold]
    · have hrange : (c ≤ k ∧ k < c + (n + 1) ∧ p (x.cell k) k = true) ↔ c ≤ k ∧ k < c + n ∧ p (x.cell k) k = true :=
        ⟨fun h => ⟨h.1, by omega, h.2.2⟩, fun h => ⟨h.1, by omega, h.2.2⟩⟩
      simp only [hrange, ← ih]
      split
      · rw [cell_onCell, if_neg hk]
      · rfl

/-! ### A sweep (R307, R311) -/

variable (key : BitVec 128) (b first cnt ncol : Nat)

theorem classStep_eq (k : Nat) : x.classStep key b first cnt k =
    setCells x first (fun _ c => decide ((x.cell c).col.toNat = k ∧ (!(x.cell c).clamp) = true)) (x.draw key b) cnt := by
  unfold Sampler.classStep setCells
  rw [List.foldl_map]
  simp only [decide_eq_true_eq]

theorem field_eq (c : Nat) : x.field c = (x.cell c).bias.toInt + ((List.range 16).map fun j =>
    if (x.cell (fget (0, 0) (x.cell c).nbr j).1).s then (fget (0, 0) (x.cell c).nbr j).2.toInt else 0).sum := by
  have hfold (g : Nat → Int) (p : Nat → Bool) : ∀ (l : List Nat) (h : Int),
      l.foldl (fun h j => if p j then h + g j else h) h = h + (l.map fun j => if p j then g j else 0).sum := by
    intro l
    induction l with
    | nil => intro h; simp
    | cons j l ih =>
      intro h
      rw [List.foldl_cons, ih, List.map_cons, List.sum_cons, ← add_assoc]
      split <;> simp
  exact hfold (fun j => (fget (0, 0) (x.cell c).nbr j).2.toInt) (fun j => (x.cell (fget (0, 0) (x.cell c).nbr j).1).s) _ _

/-- The array after `i` sweeps, and `k` classes of the next one. -/
def sweepState (i k : Nat) : Sampler :=
  (List.range k).foldl (fun y k => y.classStep key b first cnt k)
    ((List.range i).foldl (fun y _ => y.sweepOnce key b first cnt ncol) x)

theorem sweepState_class (i k : Nat) : sweepState x key b first cnt ncol i (k + 1) =
    (sweepState x key b first cnt ncol i k).classStep key b first cnt k := by
  unfold sweepState
  rw [List.range_succ, List.foldl_append]
  rfl

theorem sweepState_sweep (i : Nat) : sweepState x key b first cnt ncol (i + 1) 0 = { sweepState x key b first cnt ncol i ncol with
    snum := (sweepState x key b first cnt ncol i ncol).snum + 1 } := by
  unfold sweepState
  rw [List.range_succ (n := i), List.foldl_append]
  rfl

theorem bare_classStep (k : Nat) : bareSampler (x.classStep key b first cnt k) = bareSampler x := by
  rw [classStep_eq, bare_setCells]

theorem cell_classStep (k c : Nat) : (x.classStep key b first cnt k).cell c =
    if first ≤ c ∧ c < first + cnt ∧ (x.cell c).col.toNat = k ∧ (x.cell c).clamp = false then { x.cell c with s := x.draw key b c }
    else x.cell c := by
  rw [classStep_eq, cell_setCells]
  simp only [decide_eq_true_eq, Bool.not_eq_true']

/-! ### Reads (R312) -/

/-- A number made of bits in order. -/
theorem testBit_bits (p : Nat → Bool) (i : Nat) : ∀ n, (List.range n).foldl (fun v i => if p i then v + 2 ^ i else v) 0 < 2 ^ n ∧
    ((List.range n).foldl (fun v i => if p i then v + 2 ^ i else v) 0).testBit i = (decide (i < n) && p i)
  | 0 => by simp
  | n + 1 => by
    obtain ⟨hlt, hbit⟩ := testBit_bits p i n
    rw [List.range_succ, List.foldl_append, List.foldl_cons, List.foldl_nil]
    generalize (List.range n).foldl (fun v i => if p i then v + 2 ^ i else v) 0 = v at hlt hbit
    have hhigh : v.testBit n = false := Nat.testBit_lt_two_pow hlt
    refine ⟨by rw [Nat.pow_succ]; split <;> omega, ?_⟩
    by_cases hi : i = n
    · subst hi
      split
      · next hp => rw [Nat.add_comm, Nat.testBit_two_pow_add_eq, hhigh]; simp [hp]
      · next hp => rw [hhigh]; simp [hp]
    · have hdec : decide (i < n + 1) = decide (i < n) := decide_eq_decide.2 (by omega)
      rw [hdec, ← hbit]
      split
      · rcases Nat.lt_or_gt_of_ne hi with h | h
        · rw [Nat.add_comm, Nat.testBit_two_pow_add_gt h]
        · have hsum : v + 2 ^ n < 2 ^ i := Nat.lt_of_lt_of_le (by rw [Nat.pow_succ]; omega) (Nat.pow_le_pow_right (by decide) h)
          rw [Nat.testBit_lt_two_pow hsum, Nat.testBit_lt_two_pow (Nat.lt_of_le_of_lt (Nat.le_add_right v _) hsum)]
      · rfl

theorem getLsbD_read64 (c : Nat) {i : Nat} (hi : i < 64) : (x.read64 c).getLsbD i = (x.cell (c + i)).s := by
  unfold Sampler.read64
  rw [BitVec.getLsbD_ofNat, (testBit_bits _ i 64).2]
  simp [hi]

end

end Sys2Proof.Laws
end

section
/-!
SUPPORT. The command that the sampling array takes (R306, R313, R314).
-/

namespace Sys2Proof.Laws
open Sys2Proof.Machine

/-! ### What is left alone when commands end and bundles move on -/

/-- The sampling arrays, the scratchpads, the sampler and copy queues and the lines of memory of `t` are those of `s`. -/
structure EnginesKept (s t : State) : Prop where
  samp : ∀ d, (t.die d).samp = (s.die d).samp
  core : ∀ m, (t.core m).pad = (s.core m).pad ∧ (t.core m).sampq = (s.core m).sampq ∧ (t.core m).copyq = (s.core m).copyq
  mem : ∀ key, t.mem.newerData key = s.mem.newerData key ∧ t.mem.olderData key = s.mem.olderData key ∧
    t.mem.lineTags key = s.mem.lineTags key

section
variable {s t u : State} {n : Nat}

theorem EnginesKept.refl (s : State) : EnginesKept s s := ⟨fun _ => rfl, fun _ => ⟨rfl, rfl, rfl⟩, fun _ => ⟨rfl, rfl, rfl⟩⟩

theorem EnginesKept.trans (h : EnginesKept s t) (g : EnginesKept t u) : EnginesKept s u :=
  ⟨fun d => (g.samp d).trans (h.samp d),
    fun m => ⟨(g.core m).1.trans (h.core m).1, (g.core m).2.1.trans (h.core m).2.1, (g.core m).2.2.trans (h.core m).2.2⟩,
    fun key => ⟨(g.mem key).1.trans (h.mem key).1, (g.mem key).2.1.trans (h.mem key).2.1, (g.mem key).2.2.trans (h.mem key).2.2⟩⟩

theorem EnginesKept.foldl {β : Type} {g : State → β → State} (hg : ∀ s b, EnginesKept s (g s b)) (l : List β) :
    ∀ s, EnginesKept s (l.foldl g s) := by
  induction l with
  | nil => exact EnginesKept.refl
  | cons b l ih => exact fun s => (hg s b).trans (ih _)

theorem EnginesKept.setCore {d : Core} (h : d.pad = (s.core n).pad ∧ d.sampq = (s.core n).sampq ∧ d.copyq = (s.core n).copyq) :
    EnginesKept s (s.setCore n d) where
  samp _ := rfl
  core m := by
    by_cases hm : m = n
    · subst hm; rw [core_setCore_same]; exact h
    · rw [core_setCore_ne _ _ _ hm]; exact ⟨rfl, rfl, rfl⟩
  mem _ := ⟨rfl, rfl, rfl⟩

theorem deliver_engines (c : Core) (uid : Nat) (r : Reg) (v : BitVec 256) :
    (c.deliver uid r v).pad = c.pad ∧ (c.deliver uid r v).sampq = c.sampq ∧ (c.deliver uid r v).copyq = c.copyq := by
  unfold Core.deliver
  split
  · exact ⟨rfl, rfl, rfl⟩
  · next f _ =>
    have ht := (putReg_touches c f r v).core
    exact ⟨(congrArg Core.pad ht :), (congrArg Core.sampq ht :), (congrArg Core.copyq ht :)⟩

theorem fcloseDone_engines (c : Core) : c.fcloseDone.pad = c.pad ∧ c.fcloseDone.sampq = c.sampq ∧ c.fcloseDone.copyq = c.copyq :=
  fcloseDone_keeps (P := fun c d => d.pad = c.pad ∧ d.sampq = c.sampq ∧ d.copyq = c.copyq) (fun _ => ⟨rfl, rfl, rfl⟩)
    (fun h g => ⟨g.1.trans h.1, g.2.1.trans h.2.1, g.2.2.trans h.2.2⟩) (fun _ _ => ⟨rfl, rfl, rfl⟩) deliver_engines c

theorem Progressed.enginesKept (h : Progressed s t n) : EnginesKept s t where
  samp := h.samp
  core m := by
    by_cases hm : m = n
    · subst hm
      have hdone := fcloseDone_engines (s.core m)
      rw [h.own]
      exact hdone
    · rw [(h.other m hm).frame]
      exact ⟨rfl, rfl, rfl⟩
  mem key := by
    rw [h.mem]
    exact ⟨rfl, rfl, rfl⟩

end

section
variable (s : State) (n id : Nat) (x : Exc)

theorem cmdComplete_enginesKept : EnginesKept s (s.cmdComplete n id x) := by
  have hdone := completed_frame (s.core n) id x
  have hcore : EnginesKept s (s.setCore n (completed (s.core n) id x)) :=
    .setCore ⟨(congrArg Core.pad hdone :), (congrArg Core.sampq hdone :), (congrArg Core.copyq hdone :)⟩
  exact hcore.trans (cmdComplete_progressed s n id x).enginesKept

theorem sampDone_enginesKept : EnginesKept s (s.sampDone id) :=
  .foldl (fun s n => (progress_progressed s n).enginesKept) _ s

/-- A core that closes no fold keeps its frames, and closes none, while bundles move on. -/
theorem progress_frames (m : Nat) (h : (s.core n).fclosed = []) :
    ((s.progress m).core n).frames = (s.core n).frames ∧ ((s.progress m).core n).fclosed = [] := by
  have hp := progress_progressed s m
  by_cases hm : n = m
  · subst hm
    refine ⟨?_, hp.folds⟩
    rw [hp.own, fcloseDone_of_none h]
  · have hs := hp.other n hm
    exact ⟨(congrArg Core.frames hs.frame :), (fclosed_congr hs.bundles (congrArg Core.reqs hs.frame :)).trans h⟩

theorem sampDone_frames (h : (s.core n).fclosed = []) : ((s.sampDone id).core n).frames = (s.core n).frames := by
  have hfold : ∀ (l : List Nat) (s : State), (s.core n).fclosed = [] → ((l.foldl State.progress s).core n).frames = (s.core n).frames := by
    intro l
    induction l with
    | nil => exact fun _ _ => rfl
    | cons m l ih =>
      intro s hs
      obtain ⟨hframes, hnone⟩ := progress_frames s n m hs
      exact (ih _ hnone).trans hframes
  exact hfold _ s h

end

/-! ### The command that runs -/

section
variable {s : State} {die n : Nat} {q : SampCmd} (hbest : bestSamp (s.sampHeads die) = some (n, q))
include hbest

/-- The package without the command at the head of the sampler queue of core `n`. -/
def sampTaken (s : State) (n : Nat) : State := s.setCore n { s.core n with sampq := (s.core n).sampq.tail }

/-- What a command that leaves the array as `y` does beside. -/
structure SampEnds (s t : State) (die n : Nat) (y : Sampler) : Prop where
  own : (t.die die).samp = y
  queue : (t.core n).sampq = (s.core n).sampq.tail
  dies : ∀ d, d ≠ die → (t.die d).samp = (s.die d).samp
  pads : ∀ m, (t.core m).pad = (s.core m).pad
  mem : ∀ key, t.mem.newerData key = s.mem.newerData key ∧ t.mem.olderData key = s.mem.olderData key ∧
    t.mem.lineTags key = s.mem.lineTags key

/-- The array of `die` as `y`, and the head of the sampler queue of core `n` gone. -/
def sampRan (s : State) (die n : Nat) (y : Sampler) : State := (sampTaken s n).setDie die { (sampTaken s n).die die with samp := y }

omit hbest in
theorem sampTaken_ends : SampEnds s (sampTaken s n) die n (s.die die).samp where
  own := rfl
  queue := congrArg Core.sampq (core_setCore_same ..)
  dies _ _ := rfl
  pads m := by
    unfold sampTaken
    by_cases hm : m = n
    · subst hm; rw [core_setCore_same]
    · rw [core_setCore_ne _ _ _ hm]
  mem _ := ⟨rfl, rfl, rfl⟩

omit hbest in
theorem sampRan_ends (y : Sampler) : SampEnds s (sampRan s die n y) die n y where
  own := congrArg Die.samp (die_setDie_same ..)
  queue := (sampTaken_ends (die := die)).queue
  dies _ hd := congrArg Die.samp (die_setDie_ne _ _ _ hd)
  pads := (sampTaken_ends (die := die)).pads
  mem _ := ⟨rfl, rfl, rfl⟩

omit hbest in
theorem SampEnds.kept {t u : State} {y : Sampler} (h : SampEnds s t die n y) (g : EnginesKept t u) : SampEnds s u die n y where
  own := (g.samp die).trans h.own
  queue := (g.core n).2.1.trans h.queue
  dies d hd := (g.samp d).trans (h.dies d hd)
  pads m := (g.core m).1.trans (h.pads m)
  mem key := ⟨(g.mem key).1.trans (h.mem key).1, (g.mem key).2.1.trans (h.mem key).2.1, (g.mem key).2.2.trans (h.mem key).2.2⟩

theorem samplerRun_discards (hx : (s.ctx q.cmd.task.ctx).tearing = true) : exec (.samplerCommandRun die) s = .next (sampTaken s n) := by
  change execSamplerCommandRun die s = _
  unfold execSamplerCommandRun
  simp only [hbest, hx, if_true]
  rfl

section
variable (hx : (s.ctx q.cmd.task.ctx).tearing = false)
include hx

/-- The package in which the command of core `n` ends: a read has delivered its cells. -/
def sampResult (s : State) (die n : Nat) (op : SampOp) : State :=
  match op with
  | .read uid d c => (sampRan s die n (s.die die).samp).setCore n
      (((sampRan s die n (s.die die).samp).core n).deliver uid (.g d) (((s.die die).samp.read64 c).setWidth 256))
  | op => sampRan s die n ((s.die die).samp.run op)

theorem samplerRun_runs : exec (.samplerCommandRun die) s =
    .next (((sampResult s die n q.op).cmdComplete n q.cmd.id excNone).sampDone q.cmd.id) := by
  change execSamplerCommandRun die s = _
  unfold execSamplerCommandRun
  simp only [hbest, hx, Bool.false_eq_true, if_false]
  cases q.op <;> rfl

omit hbest hx in
theorem sampResult_ends (op : SampOp) : SampEnds s (sampResult s die n op) die n ((s.die die).samp.run op) := by
  cases op with
  | read uid d c =>
    exact (sampRan_ends _).kept (.setCore (deliver_engines ..))
  | couple | bias | clamp | clampOff | colour | sweep | write | key => exact sampRan_ends _

/-- The array runs a command whole. -/
theorem samplerRun_ends : ∃ t, exec (.samplerCommandRun die) s = .next t ∧ SampEnds s t die n ((s.die die).samp.run q.op) :=
  ⟨_, samplerRun_runs hbest hx, ((sampResult_ends q.op).kept (cmdComplete_enginesKept ..)).kept (sampDone_enginesKept ..)⟩

omit hbest hx in
/-- A completed command changes what its frames hold, not their registers. -/
theorem frame?_unwait {c : Core} {fs : List Frame} (id : Nat) {uid : Nat} {f : Frame} (hfs : c.frames = fs.map (unwaitFrame id))
    (hf : fs.find? (fun g => g.uid == uid) = some f) : c.frame? uid = some (unwaitFrame id f) := by
  unfold Core.frame?
  rw [hfs, List.find?_map]
  have hsame : ((fun g : Frame => g.uid == uid) ∘ unwaitFrame id) = fun g => g.uid == uid := rfl
  rw [hsame, hf]
  rfl

/-- A read delivers its 64 cells to the register that waits for them (R312). -/
theorem samplerRun_reads {uid : Nat} {d : GReg} {c : Nat} {f : Frame} (hop : q.op = .read uid d c) (hf : (s.core n).frame? uid = some f)
    (hnone : (s.core n).fclosed = []) : ∃ t, exec (.samplerCommandRun die) s = .next t ∧
      (t.core n).frame? uid = some (unwaitFrame q.cmd.id (withResult f d ((s.die die).samp.read64 c))) := by
  have hcore : (sampRan s die n (s.die die).samp).core n = { s.core n with sampq := (s.core n).sampq.tail } := core_setCore_same ..
  have hf1 : ((sampRan s die n (s.die die).samp).core n).frame? uid = some f := by rw [hcore]; exact hf
  have hdeliver := deliver_g hf1 d ((s.die die).samp.read64 c)
  have hresult : (sampResult s die n q.op).core n =
      ((sampRan s die n (s.die die).samp).core n).onFrame uid fun _ => withResult f d ((s.die die).samp.read64 c) := by
    rw [hop, ← hdeliver]
    exact core_setCore_same ..
  have hfclosed : ((sampResult s die n q.op).core n).fclosed = [] := by
    rw [hresult, hcore]
    exact hnone
  have hframe := frame?_onFrame hf1 (r := fun _ => withResult f d ((s.die die).samp.read64 c))
    ((withResult_uid _).trans (uid_of_frame? hf))
  rw [← hresult] at hframe
  refine ⟨_, samplerRun_runs hbest hx, frame?_unwait q.cmd.id ?_ hframe⟩
  rw [sampDone_frames _ n _ (cmdComplete_folds ..)]
  exact cmdComplete_frames _ n _ _ hfclosed

end

end

theorem run_write (x : Sampler) (c : Nat) (v : Word) : x.run (.write c v) = setCells x c (fun e _ => !e.clamp) (fun k => v.getLsbD (k - c)) 64 := by
  unfold Sampler.run setCells
  simp only [Nat.add_sub_cancel_left]
  refine congrArg (fun g => (List.range 64).foldl g x) ?_
  funext y i
  cases (y.cell (c + i)).clamp <;> rfl

theorem run_sweep (x : Sampler) (first cnt sweeps ncol b : Nat) (keys : FMap (BitVec 128)) : x.run (.sweep first cnt sweeps ncol b keys) =
    sweepState x (fget 0 keys x.kidx.toNat) b first cnt ncol sweeps 0 := rfl

/-- Settles O41: at issue each instruction waits, traps or enters its command (`SampFree`); a command that runs leaves its array as
`Sampler.run` says and little else (`samplerRun_ends`), where a sweep goes class by class (`sweepState_class`, `cell_classStep`) and a read
delivers its cells (`samplerRun_reads`, `getLsbD_read64`). -/
theorem samplingArray : Obligations.SamplingArray := by
  unfold Obligations.SamplingArray
  refine ⟨fun s f fs h a b d gs slot v col sm1 ncm1 bb => ⟨fun q => ⟨scouple_enters q, sbias_enters q, swrite_enters q, skey_enters q,
      scouple_traps q, skey_traps q, sbias_traps q, swrite_traps q⟩,
    fun q => ⟨fun ha => ⟨sclamp_enters q ha, sclampOff_enters q ha, scolour_enters q ha⟩, fun ha => ?badCell⟩,
    fun q => ⟨fun hlt hcells => ⟨fun f1 hsucc => sweep_enters q ⟨hlt, hcells⟩ hsucc, fun k hsucc => sweep_badSuccessor q ⟨hlt, hcells⟩ hsucc⟩,
      sweep_traps q⟩,
    fun q => ⟨sread_enters q, sread_traps q⟩⟩, fun s die n q hbest => ?runs⟩
  case badCell =>
    exact ⟨sampSet_traps (regs := [a]) q rfl rfl (cellOk_false ha), sampSet_traps (regs := [a]) q rfl rfl (cellOk_false ha),
      sampSet_traps (regs := [a]) q rfl rfl (cellOk_false ha)⟩
  case runs =>
    intro x old bare gives sets
    have hgives {t : State} {y : Sampler} (he : exec (.samplerCommandRun die) s = .next t) (h : SampEnds s t die n y) : gives y :=
      ⟨t, he, h.own, h.queue, h.dies, h.pads, fun _ => h.mem⟩
    refine ⟨fun hx => hgives (samplerRun_discards hbest hx) sampTaken_ends, fun hx => ?_⟩
    have hrun : gives (x.run q.op) := by
      obtain ⟨t, he, h⟩ := samplerRun_ends hbest hx
      exact hgives he h
    have hsets {op : SampOp} (hop : q.op = op) (k : Nat) (g : Cell → Cell) (hg : x.run op = x.onCell k g) : sets k (g (x.cell k)) :=
      ⟨x.onCell k g, hg ▸ hop ▸ hrun, rfl, fun j => cell_onCell x k j g⟩
    refine ⟨fun c slot nbr wt hop => hsets hop c (fun e => { e with nbr := fset (0, 0) e.nbr slot (nbr, wt) }) rfl,
      fun c v hop => hsets hop c (fun e => { e with bias := v }) rfl, fun c v hop => hsets hop c (fun e => { e with s := v, clamp := true }) rfl,
      fun c hop => hsets hop c (fun e => { e with clamp := false }) rfl, fun c col hop => hsets hop c (fun e => { e with col }) rfl,
      fun k seed snum hop => ?key, fun c v hop => ?write, fun first cnt sweeps ncol b keys hop => ?sweep,
      fun uid d c f hop hf hd hnone => ?read⟩
    case key => rwa [hop] at hrun
    case write =>
      rw [hop, run_write] at hrun
      refine ⟨_, hrun, bare_setCells .., fun k => ?_⟩
      have hcell := cell_setCells x c (fun e _ => !e.clamp) (fun k => v.getLsbD (k - c)) k 64
      simp only [Bool.not_eq_true'] at hcell
      exact hcell
    case sweep =>
      rw [hop, run_sweep] at hrun
      refine ⟨sweepState x (fget 0 keys x.kidx.toNat) b first cnt ncol, ?_, ?_, ?_, ?_⟩
      · rfl
      · exact hrun
      · exact fun i _ => sweepState_sweep ..
      intro i k _ _
      rw [sweepState_class]
      refine ⟨bare_classStep .., fun c => (cell_classStep ..).trans ?_⟩
      rw [Sampler.draw, field_eq]
      rfl
    case read =>
      obtain ⟨t, he, hframe⟩ := samplerRun_reads hbest hx hop hf hnone
      rw [hop] at hrun
      refine ⟨hrun, t, _, he, hframe, fun i hi => ?_⟩
      have hget : (unwaitFrame q.cmd.id (withResult f d (x.read64 c))).getG d = x.read64 c := getG_withResult hd _
      rw [hget]
      exact getLsbD_read64 x c hi

end Sys2Proof.Laws
end

section
/-!
SUPPORT. Copies at issue, and as they run (R294, R295, R377).
-/

namespace Sys2Proof.Laws
open Sys2Proof.Machine

/-! ### At issue (R294) -/

section
variable {s s1 : State} {f f1 : Frame} {fs : List Frame} {h : Hdr} {i : Instr} {kind : CpyKind} {p : Ptr} {a gn gv gs : GReg} {pw : WordOp}
  {stride : Word} {rowlen : Option Nat}
  (q : Issues s f fs h false ([.a (Ptr.reg p), .g a, .g gn, .g gv, .g gs] ++ pw.reg?.toList.map .a ++ s.succRegs gs) [])
  (hi : i.hdr? = some h) (he : exec i s = copyOp i kind p a gn gv gs pw stride rowlen s)
include q hi he

theorem copy_waits (hfull : 8 ≤ (s.core s.cur).copyq.length) : exec i s = .next (s.stopped s.cur) :=
  exec_wait q hi he (if_pos (decide_eq_true hfull))

/-- The completion word of a copy, if it names one. -/
def copyWord (f : Frame) (gv : GReg) (pw : WordOp) : Option (Nat × Word) := pw.reg?.map fun w => ((f.getA w).toNat, f.getG gv)

/-- The scratchpad ranges that a copy of `n` bytes writes. -/
def copyDst (f : Frame) (kind : CpyKind) (p : Ptr) (n : Nat) (word : Option (Nat × Word)) : List Range :=
  (if decide (kind = .f) then [] else [(f.ptr p, n)]) ++ (word.map fun w => ((w.1, 8) : Range)).toList

/-- The command that a copy enters, with the places of its lines. -/
def copyEntry (s1 : State) (n : Nat) (f : Frame) (kind : CpyKind) (p : Ptr) (gn gv : GReg) (pw : WordOp) (ks : List (Word × Kind))
    (ps : List Place) : CpyCmd :=
  { cmd := s1.cmdOf n f (ps.filterMap Place.page), kind, pad := f.ptr p, n := (f.getG gn).toNat,
    lines := (ps.zip ks).map fun e => (s1.source f e.2.1 e.1).1, addrs := (ps.zip ks).map fun e => (e.2.1, e.1.page),
    word := copyWord f gv pw, sent := false }

/-- The package after a copy has entered the queue of its core. -/
def copyEntered (s1 : State) (n : Nat) (f1 : Frame) (x : Ctx) (c : CpyCmd) (dst : List Range) : State :=
  (s1.setCore n { (s1.core n).setTop (dst.foldl (fun g r => g.wrote x r.1 r.2)
    { f1 with horizon := f1.horizon || decide (c.kind = .f) }) with copyq := (s1.core n).copyq ++ [c] }).fresh

omit q hi he in
/-- The counts that a copy takes (R294). -/
structure CopyOk (s : State) (f : Frame) (kind : CpyKind) (p : Ptr) (a gn : GReg) (pw : WordOp) (stride : Word) (row : Nat)
    (ks : List (Word × Kind)) : Prop where
  some : 0 < (f.getG gn).toNat
  most : (f.getG gn).toNat ≤ 196608
  lines : (f.getG gn).toNat % 64 = 0
  rows : (f.getG gn).toNat % row = 0
  pad : f.bankCheck (s.ctx f.task.ctx) (f.ptr p) (f.getG gn).toNat 64 0x2C 0x2C = .ok ()
  kinds : s.copyKinds (s.ctx f.task.ctx) (decide (kind = .f)) (f.getG a) (copyAddrs (f.getG a) (f.getG gn).toNat stride row) = .ok ks
  word : f.wordOk (s.ctx f.task.ctx) pw.reg? (f.ptr p) (f.getG gn).toNat = true

theorem copy_completes (hroom : (s.core s.cur).copyq.length < 8)
    (hsucc : (s.ctx f.task.ctx).successor f gs 0x2C = .none ∧ f1 = f ∨
      ∃ st g, (s.ctx f.task.ctx).successor f gs 0x2C = .some st g ∧ f1 = g.hold (.start st (some s.uid)))
    {row : Nat} (hrow : rowlen.getD (f.getG gn).toNat = row) {ks : List (Word × Kind)} {ps : List Place}
    (hok : CopyOk s f kind p a gn pw stride row ks)
    (hps : s.placeSorted s.cur f.task.ctx (decide (kind = .f)) ks = (.ok ps, s1))
    (hfree : (s1.core s.cur).rangeWaits (if decide (kind = .f) then [(f.ptr p, (f.getG gn).toNat)] else [])
      (copyDst f kind p (f.getG gn).toNat (copyWord f gv pw)) = false) :
    completes s i h (copyEntered s1 s.cur f1 (s.ctx f.task.ctx) (copyEntry s1 s.cur f kind p gn gv pw ks ps)
      (copyDst f kind p (f.getG gn).toNat (copyWord f gv pw))) { Ret.plain with writes := f.ptrStep p (f.getG gn).toNat } := by
  obtain ⟨hsome, hmost, hlines, hrows, hpad, hkinds, hword⟩ := hok
  subst hrow
  refine exec_go q hi he ((if_neg (by simpa using hroom)).trans ((if_neg (by omega)).trans ((attach_of_held hsucc _).trans
    ((if_neg (not_not.2 hrows)).trans ?_))))
  rw [bind_of_ok hpad, bind_of_ok hkinds, if_pos hword]
  refine (act_of_ok rfl _).trans ?_
  dsimp only
  rw [hps]
  exact padAct_of_free hfree _

end

end Sys2Proof.Laws
end

section
/-!
SUPPORT. Copies as they run (R295, R377), with the bytes of the elements that `CPYC` combines.
-/

namespace Sys2Proof.Laws
open Sys2Proof.Machine

/-! ### Parts of a run of bytes -/

theorem leNat_append : ∀ xs ys : List Byte, leNat (xs ++ ys) = leNat xs + 256 ^ xs.length * leNat ys
  | [], ys => by simp [leNat]
  | x :: xs, ys => by
    rw [List.cons_append, leNat, leNat, leNat_append xs ys, List.length_cons, Nat.pow_succ]
    ring

/-- Bytes of a number are the digits of its part. -/
theorem leNat_drop_take {bs : List Byte} {k j : Nat} (h : k + j ≤ bs.length) : leNat ((bs.drop k).take j) = leNat bs / 256 ^ k % 256 ^ j := by
  have hk : (bs.take k).length = k := List.length_take_of_le (by omega)
  have hj : ((bs.drop k).take j).length = j := List.length_take_of_le (by rw [List.length_drop]; omega)
  have hsplit : leNat bs = leNat (bs.take k) + 256 ^ k * (leNat ((bs.drop k).take j) + 256 ^ j * leNat ((bs.drop k).drop j)) := by
    have h1 := leNat_append (bs.take k) (bs.drop k)
    have h2 := leNat_append ((bs.drop k).take j) ((bs.drop k).drop j)
    rw [List.take_append_drop, hk] at h1
    rw [List.take_append_drop, hj] at h2
    rw [h1, h2]
  rw [hsplit, Nat.add_mul_div_left _ _ (Nat.pow_pos (by decide)), Nat.div_eq_of_lt (leNat_lt hk), Nat.zero_add, Nat.add_mul_mod_self_left,
    Nat.mod_eq_of_lt (leNat_lt hj)]

theorem fgetAll_part {α : Type} (d : α) (m : FMap α) {n k i j : Nat} (h : i + j ≤ n) :
    fgetAll d m (k + i) j = ((fgetAll d m k n).drop i).take j := by
  rw [fgetAll_eq_map, fgetAll_eq_map]
  refine List.ext_getElem (by simp; omega) fun e h1 h2 => ?_
  simp [Nat.add_assoc]

theorem flatMap_length {α β : Type} {g : α → List β} {k : Nat} (hg : ∀ x, (g x).length = k) (xs : List α) :
    (xs.flatMap g).length = k * xs.length := by
  induction xs with
  | nil => rfl
  | cons x xs ih => rw [List.flatMap_cons, List.length_append, hg, ih, List.length_cons]; ring

theorem flatMap_part {α β : Type} {g : α → List β} {k : Nat} (hg : ∀ x, (g x).length = k) : ∀ (xs : List α) (e : Nat) (he : e < xs.length),
    ((xs.flatMap g).drop (k * e)).take k = g xs[e]
  | x :: xs, 0, _ => by
    rw [List.flatMap_cons, Nat.mul_zero, List.drop_zero, List.take_append_of_le_length (by rw [hg]), List.take_of_length_le (by rw [hg])]
    rfl
  | x :: xs, e + 1, he => by
    have hskip : k * (e + 1) = (g x).length + k * e := by rw [hg]; ring
    rw [List.flatMap_cons, hskip, List.drop_length_add_append, List.getElem_cons_succ]
    exact flatMap_part hg xs e _

section
variable {bs : List Byte} {m : Nat}

theorem elemsOf_length (hlen : bs.length = 4 * m) : (Machine.elemsOf 32 bs).length = m := by
  unfold Machine.elemsOf
  rw [List.length_map, List.length_range, hlen]
  omega

/-- An element of 32 bits of a run of bytes. -/
theorem getElem_elemsOf (hlen : bs.length = 4 * m) {e : Nat} (he : e < (Machine.elemsOf 32 bs).length) :
    (Machine.elemsOf 32 bs)[e] = leNat ((bs.drop (4 * e)).take 4) := by
  have hm := elemsOf_length hlen
  rw [leNat_drop_take (by omega)]
  have hpow : (2 : Nat) ^ (32 * e) = 256 ^ (4 * e) := by rw [Nat.pow_mul, Nat.pow_mul]
  simp only [Machine.elemsOf, List.getElem_map, List.getElem_range, hpow]
  rfl

end

/-- The bytes of element `e` that a copy combines (R295). -/
theorem combined_part {op : CpyOp} {fm : Fmt} {r : Rnd} (hw : fm.width = 32) {old new : List Byte} {m : Nat} (ho : old.length = 4 * m)
    (hn : new.length = 4 * m) : ((CpyKind.c op fm r).result old new).1.length = 4 * m ∧ ∀ e, e < m →
      ((((CpyKind.c op fm r).result old new).1.drop (4 * e)).take 4) =
        leBytes 4 (cpyVal op fm r (leNat ((old.drop (4 * e)).take 4)) (leNat ((new.drop (4 * e)).take 4))).1 := by
  unfold CpyKind.result bytesOfElems
  dsimp only
  rw [hw]
  have hlen : ((((Machine.elemsOf 32 old).zip (Machine.elemsOf 32 new)).map fun e => cpyVal op fm r e.1 e.2).map fun e => e.1).length = m := by
    simp [elemsOf_length ho, elemsOf_length hn]
  refine ⟨?_, fun e he => ?_⟩
  · rw [flatMap_length (fun x => leBytes_length 4 x), hlen]
  · rw [flatMap_part (fun x => leBytes_length 4 x) _ e (hlen ▸ he)]
    simp only [List.getElem_map, List.getElem_zip]
    rw [getElem_elemsOf ho, getElem_elemsOf hn]

/-! ### The oldest copy of a core runs (R295, R377) -/

section
variable {s : State} {n : Nat} {q : CpyCmd} {qs : List CpyCmd} (hq : (s.core n).copyq = q :: qs)
  (hx : (s.ctx q.cmd.task.ctx).tearing = false)
include hq hx

theorem copyRun_waits (hs : q.sent = false) (hw : s.copyWaits n q = true) : exec (.copyCommandRun n) s = .next s := by
  change execCopyCommandRun n s = _
  unfold execCopyCommandRun
  simp only [hq, hx, hs, hw, Bool.not_false, Bool.and_self, if_true, Bool.false_eq_true, if_false]

theorem copyRun_sends (hw : s.copyWaits n q = false) (hk : q.kind = .f) (hs : q.sent = false) (hc : (s.core n).casOpen = none)
    (hwin : q.inWindow (s.ctx q.cmd.task.ctx) = false) : exec (.copyCommandRun n) s =
      .next ((s.setCore n { s.core n with copyq := { q with sent := true } :: qs }).copySend n q) := by
  change execCopyCommandRun n s = _
  unfold execCopyCommandRun
  simp only [hq, hx, hs, hw, hk, hc, hwin, Bool.and_false, Bool.false_eq_true, if_false, if_true, Option.isSome_none]

theorem copyRun_ends (hk : q.kind = .f) (hs : q.sent = true) (hb : ∀ b ∈ (s.core n).closed, b.copy ≠ some q.cmd.id) :
    exec (.copyCommandRun n) s = .next ((s.setCore n { s.core n with copyq := qs }).copyEnd n q 0) := by
  have hnone : (s.core n).closed.any (fun b => b.copy == some q.cmd.id) = false := by
    rw [List.any_eq_false]
    intro b hm
    simpa using hb b hm
  change execCopyCommandRun n s = _
  unfold execCopyCommandRun
  simp only [hq, hx, hs, hk, hnone, Bool.not_true, Bool.false_and, Bool.false_eq_true, if_false, if_true]
  rfl

/-- The lines of a copy go to scratchpad as its kind says, and it ends. -/
theorem copyRun_stores (hw : s.copyWaits n q = false) (hk : q.kind ≠ .f) {bs : List Byte} (hbs : s.engineLines n q.cmd q.lines = .ok bs) :
    exec (.copyCommandRun n) s = .next (((s.setCore n { s.core n with copyq := qs }).padStore n q.pad
      (q.kind.result ((s.core n).padRead q.pad q.n) bs).1 q.cmd.set).copyEnd n q (q.kind.result ((s.core n).padRead q.pad q.n) bs).2) := by
  change execCopyCommandRun n s = _
  unfold execCopyCommandRun State.withEngine
  simp only [hq, hx, hw, hk, hbs, Bool.and_false, Bool.false_eq_true, if_false]

end

/-- The core whose oldest copy has stored the lines `bs` and its completion word. -/
def copied (c : Core) (q : CpyCmd) (bs : List Byte) : Core :=
  match q.word with
  | some w => (c.padWrite q.pad bs).padWrite w.1 (bytesOf 8 w.2)
  | none => c.padWrite q.pad bs

/-- What is left of the queue and the scratchpad of a core when its oldest copy ends. -/
theorem copyEnd_core {s : State} {n : Nat} {q : CpyCmd} {bs : List Byte} (hw : (s.core n).watches = []) (x : Exc) :
    let t := (s.padStore n q.pad bs q.cmd.set).copyEnd n q x
    (t.core n).copyq = (s.core n).copyq ∧ (t.core n).pad = (copied (s.core n) q bs).pad := by
  intro t
  have hstored : s.padStore n q.pad bs q.cmd.set = s.setCore n ((s.core n).padWrite q.pad bs) := padStore_of_no_watch _ _ _ hw
  have hcore : (s.setCore n ((s.core n).padWrite q.pad bs)).core n = (s.core n).padWrite q.pad bs := core_setCore_same ..
  have ht : t = (s.padStore n q.pad bs q.cmd.set).copyEnd n q x := rfl
  unfold State.copyEnd at ht
  unfold copied
  cases hword : q.word with
  | none =>
    rw [hword, hstored] at ht
    obtain ⟨hpad, -, hq⟩ := (cmdComplete_enginesKept (s.setCore n ((s.core n).padWrite q.pad bs)) n q.cmd.id x).core n
    rw [hcore] at hpad hq
    rw [ht]
    exact ⟨hq, hpad⟩
  | some w =>
    have hword' : (s.setCore n ((s.core n).padWrite q.pad bs)).padStore n w.1 (bytesOf 8 w.2) q.cmd.set =
        (s.setCore n ((s.core n).padWrite q.pad bs)).setCore n (((s.core n).padWrite q.pad bs).padWrite w.1 (bytesOf 8 w.2)) := by
      rw [padStore_of_no_watch _ _ _ (by rw [hcore]; exact hw), hcore]
    rw [hword, hstored] at ht
    dsimp only at ht
    rw [hword'] at ht
    obtain ⟨hpad, -, hq⟩ := (cmdComplete_enginesKept ((s.setCore n ((s.core n).padWrite q.pad bs)).setCore n
      (((s.core n).padWrite q.pad bs).padWrite w.1 (bytesOf 8 w.2))) n q.cmd.id x).core n
    rw [ht]
    rw [core_setCore_same] at hpad hq
    exact ⟨hq, hpad⟩

section
variable {s : State} {n : Nat} {q : CpyCmd} {qs : List CpyCmd} (hq : (s.core n).copyq = q :: qs)
  (hx : (s.ctx q.cmd.task.ctx).tearing = false) (hw : s.copyWaits n q = false) (hk : q.kind ≠ .f) {bs : List Byte}
  (hbs : s.engineLines n q.cmd q.lines = .ok bs) (hwatch : (s.core n).watches = [])
include hq hx hw hk hbs hwatch

/-- A copy into scratchpad ends with its lines, and its word, stored. -/
theorem copyRun_core : ∃ t, exec (.copyCommandRun n) s = .next t ∧ (t.core n).copyq = qs ∧
    (t.core n).pad = (copied (s.core n) q (q.kind.result ((s.core n).padRead q.pad q.n) bs).1).pad := by
  have hcore : (s.setCore n { s.core n with copyq := qs }).core n = { s.core n with copyq := qs } := core_setCore_same ..
  obtain ⟨hqueue, hpad⟩ := copyEnd_core (s := s.setCore n { s.core n with copyq := qs }) (n := n) (q := q)
    (bs := (q.kind.result ((s.core n).padRead q.pad q.n) bs).1) (by rw [hcore]; exact hwatch)
    (q.kind.result ((s.core n).padRead q.pad q.n) bs).2
  refine ⟨_, copyRun_stores hq hx hw hk hbs, hqueue.trans (by rw [hcore]), hpad.trans ?_⟩
  rw [hcore]
  unfold copied
  cases q.word <;> rfl

end

/-- Bytes that a store beside them leaves. -/
theorem padRead_padWrite_apart (c : Core) {a k w : Nat} {bs : List Byte} (h : w + bs.length ≤ a ∨ a + k ≤ w) :
    (c.padWrite w bs).padRead a k = c.padRead a k :=
  fgetAll_congr fun i hi => padWrite_out c w bs (by omega)

/-- Settles O42: at issue a full queue keeps the copy waiting (`copy_waits`), and one with room takes it (`copy_completes`); the copy that
runs waits for one of higher priority, sends its bundles, or stores its lines and its word (`copyRun_core`). -/
theorem copies : Obligations.Copies := by
  unfold Obligations.Copies
  refine ⟨fun s f f1 fs h op fm r p a gn gv gs pw stride rowlen => ?issue, fun s n q qs hq hx => ⟨copyRun_waits hq hx,
    fun hw => ⟨fun bs w hkind hbs hwatch hword hapart => ?lines, fun bs op fm r hkind hfm hn hlen hbs hwatch hword => ?combined,
      copyRun_sends hq hx hw⟩, copyRun_ends hq hx⟩⟩
  case issue =>
    intro x cnt pad ga word copies q
    refine ⟨fun hfull => ?_, fun hroom hsucc hsome hmost hlines hpad => ?_⟩
    · simp only [List.forall_mem_cons]
      exact ⟨copy_waits q rfl rfl hfull, copy_waits q rfl rfl hfull, copy_waits q rfl rfl hfull, copy_waits q rfl rfl hfull,
        fun _ hm => absurd hm List.not_mem_nil⟩
    · refine ⟨fun ks ps s1 hrows hkinds hword hps hfree => ?_, fun ks ps s1 hrows hkinds hword hps hfree => ?_,
        fun ks ps s1 hrows hkinds hword hps hfree => ?_, fun ks ps s1 hrows hkinds hword hps hfree => ?_⟩
      · exact copy_completes (kind := .s) (rowlen := none) (stride := 0) q rfl rfl hroom hsucc rfl
          ⟨hsome, hmost, hlines, hrows, hpad, hkinds, hword⟩ hps hfree
      · exact copy_completes (kind := .c op fm r) (rowlen := none) (stride := 0) q rfl rfl hroom hsucc rfl
          ⟨hsome, hmost, hlines, hrows, hpad, hkinds, hword⟩ hps hfree
      · exact copy_completes (kind := .f) (rowlen := none) (stride := 0) q rfl rfl hroom hsucc rfl
          ⟨hsome, hmost, hlines, hrows, hpad, hkinds, hword⟩ hps hfree
      · exact copy_completes (kind := .g) (rowlen := some rowlen.toNat) q rfl rfl hroom hsucc rfl
          ⟨hsome, hmost, hlines, hrows, hpad, hkinds, hword⟩ hps hfree
  case lines =>
    have hk : q.kind ≠ .f := by rcases hkind with h | h <;> rw [h] <;> decide
    obtain ⟨t, he, hqueue, hpad⟩ := copyRun_core hq hx hw hk hbs hwatch
    have hresult : (q.kind.result ((s.core n).padRead q.pad q.n) bs).1 = bs := by rcases hkind with h | h <;> rw [h] <;> rfl
    have hbytes : (bytesOf 8 w.2).length = 8 := leBytes_length 8 _
    rw [hresult, copied, hword] at hpad
    have hread (a k : Nat) : (t.core n).padRead a k = (((s.core n).padWrite q.pad bs).padWrite w.1 (bytesOf 8 w.2)).padRead a k :=
      congrArg (fgetAll 0 · a k) hpad
    refine ⟨t, he, hqueue, ?_, ?_⟩
    · rw [hread, padRead_padWrite_apart _ (by rw [hbytes]; exact hapart)]
      exact padRead_padWrite ..
    · have hown := padRead_padWrite ((s.core n).padWrite q.pad bs) w.1 (bytesOf 8 w.2)
      rw [hbytes] at hown
      exact (hread _ _).trans hown
  case combined =>
    have hk : q.kind ≠ .f := by rw [hkind]; simp
    obtain ⟨t, he, hqueue, hpad⟩ := copyRun_core hq hx hw hk hbs hwatch
    rw [hkind, copied, hword] at hpad
    have hold : ((s.core n).padRead q.pad q.n).length = 4 * (q.n / 4) := (fgetAll_length ..).trans (by omega)
    have hnew : bs.length = 4 * (q.n / 4) := by omega
    obtain ⟨hres, hpart⟩ := combined_part (op := op) (r := r) hfm hold hnew
    refine ⟨t, he, hqueue, fun e he4 => ?_⟩
    have hwhole := padRead_padWrite (s.core n) q.pad ((CpyKind.c op fm r).result ((s.core n).padRead q.pad q.n) bs).1
    have hsub : (t.core n).padRead (q.pad + 4 * e) 4 =
        leBytes 4 (cpyVal op fm r (leNat ((s.core n).padRead (q.pad + 4 * e) 4)) (leNat ((bs.drop (4 * e)).take 4))).1 := by
      have hin : 4 * e + 4 ≤ ((CpyKind.c op fm r).result ((s.core n).padRead q.pad q.n) bs).1.length := by rw [hres]; omega
      have hold4 : (s.core n).padRead (q.pad + 4 * e) 4 = (((s.core n).padRead q.pad q.n).drop (4 * e)).take 4 :=
        fgetAll_part _ _ (by omega)
      rw [hold4, ← hpart e (by omega)]
      rw [← hwhole]
      exact (congrArg (fgetAll 0 · _ 4) hpad).trans (fgetAll_part _ _ hin)
    rw [hsub, leNat_leBytes]
    exact Nat.mod_mod _ _

end Sys2Proof.Laws
end

section
/-!
SUPPORT. Paired partitions (R361): a discarded epoch brings back the confirmed versions that wait aside, as many bytes as they hold.
-/

namespace Sys2Proof.Laws
open Sys2Proof.Machine

/-! ### A confirmed version of 65 bytes (R360, R361) -/

/-- Line 0 is unconfirmed in context 0, and its confirmed version waits aside with one byte too many. -/
def longConfirmed : Memory :=
  { Memory.reset with unconf := [(0, 1)], confirmed := [{ frame := 0, key := 0, data := List.replicate 65 1, tag := Tag.zero }] }

/-- A paired context in its replay, with epoch 4 sealed. -/
def longReplay : State :=
  { State.reset with
    mem := longConfirmed,
    ctxs := [(0, { Ctx.free with state := 2, pair := { Pair.reset with pen := true, pstate := 1, epoch := 5, replay := true } })] }

theorem digestArrival_event {s : State} {k : Nat} {e : BitVec 32} {d : BitVec 256} (hm : s.heldFor k (.digest e d) = none)
    (hp : s.nearPartner k = false) : exec (.digestArrival k e d) s = .next (s.digestArrives k e d) := by
  change Host.Outcome.next (s.fromPartner k _ _) = _
  unfold State.fromPartner
  rw [hm, hp]
  rfl

/-- On a second disagreement the memory of the sealed epoch is discarded. -/
theorem digestArrives_discards {s : State} {k : Nat} {e : BitVec 32} {d : BitVec 256} (hx : (s.ctx k).state = 2)
    (hpen : (s.ctx k).pair.pen = true) (hps : (s.ctx k).pair.pstate = 1) (he : e + 1 = (s.ctx k).pair.epoch) (hd : d ≠ (s.ctx k).pair.ldigest)
    (hr : (s.ctx k).pair.replay = true) : (s.digestArrives k e d).mem = s.mem.discardEpoch k := by
  unfold State.digestArrives State.compareDigests
  simp only [hx, hpen, hps, he, hd, hr, ne_eq, not_true_eq_false, Bool.not_true, Bool.false_eq_true, or_false, and_self, if_true, if_false,
    endCtx_mem]
  exact congrArg (Memory.discardEpoch · k) (post_beside ..).mem

/-- Refutes O53: `Memory.revert` writes a confirmed version that waits aside with all its bytes, and no premise says that they are 64; with
one of 65 the discarded epoch of context 0 changes the line after it too, which was confirmed. -/
theorem not_pairedPartitions : ¬ Obligations.PairedPartitions := by
  unfold Obligations.PairedPartitions
  intro h
  have hm : longReplay.heldFor 0 (.digest 4 1) = none := by decide
  have hp : longReplay.nearPartner 0 = false := by decide
  obtain ⟨-, -, -, -, hcompare, -⟩ := h longReplay 0 4 1 (by decide) (by decide)
  obtain ⟨-, -, hsecond⟩ := hcompare (.inr ⟨hm, hp⟩) (by decide) (by decide)
  obtain ⟨-, hdiscarded⟩ := hsecond (by decide) (by decide)
  obtain ⟨hothers, -⟩ := hdiscarded _ (digestArrival_event hm hp)
  have hline := hothers 1 (by decide)
  rw [digestArrives_discards (by decide) (by decide) (by decide) (by decide) (by decide) (by decide)] at hline
  exact absurd hline (by decide)

end Sys2Proof.Laws
end

section
/-!
SUPPORT. The links of a package (R322–R330): a pump where nothing waits, circuits, the connected group, fibres and their keys.
-/

namespace Sys2Proof.Laws
open Sys2Proof.Machine

/-! ### A pump where nothing waits (R325, R341) -/

theorem port_setPort_same (x : Fabric) (n : Nat) (q : Port) : (x.setPort n q).port n = q := fget_fset_same ..
theorem port_setPort_ne (x : Fabric) {n k : Nat} (q : Port) (hk : k ≠ n) : (x.setPort n q).port k = x.port k := fget_fset_ne _ _ _ hk
theorem port_setPort_own (x : Fabric) (n k : Nat) : (x.setPort n (x.port n)).port k = x.port k := by
  by_cases hk : k = n
  · rw [hk, port_setPort_same]
  · exact port_setPort_ne _ _ hk

theorem fibre_setFibre_ne (x : Fabric) {n k : Nat} (q : Fibre) (hk : k ≠ n) : (x.setFibre n q).fibre k = x.fibre k := by
  unfold Fabric.fibre Fabric.setFibre
  rw [fget_fset_ne _ _ _ hk]

/-- No message waits to go out of the package. -/
structure Idle (x : Fabric) : Prop where
  queue : x.queue = []
  ethq : x.ethq = []
  bufs : ∀ k, (x.port k).buf = []

theorem Idle.emptied {x : Fabric} (h : Idle x) : ({ x with queue := [], ethq := [] } : Fabric) = x := by
  obtain ⟨hq, he, -⟩ := h
  cases x
  cases hq
  cases he
  rfl

/-- The same fabric, its ports perhaps in another list. -/
def Reported (x y : Fabric) : Prop := ∃ ps, y = { x with ports := ps } ∧ ∀ k, y.port k = x.port k

theorem Reported.trans {x y z : Fabric} (hxy : Reported x y) (hyz : Reported y z) : Reported x z := by
  obtain ⟨ps, rfl, hp⟩ := hxy
  obtain ⟨qs, rfl, hq⟩ := hyz
  exact ⟨qs, rfl, fun k => (hq k).trans (hp k)⟩

theorem Reported.idle {x y : Fabric} (h : Reported x y) (hx : Idle x) : Idle y := by
  obtain ⟨ps, rfl, hp⟩ := h
  exact ⟨hx.queue, hx.ethq, fun k => (congrArg Port.buf (hp k)).trans (hx.bufs k)⟩

theorem recall_reported {x : Fabric} (h : Idle x) (p : Nat) : Reported x (x.recall p) := by
  have he : x.recall p = x.setPort p (x.port p) := by
    have hq : ({ x.port p with buf := [] } : Port) = x.port p := by rw [← h.bufs p]
    unfold Fabric.recall
    simp only [h.bufs p, h.ethq, List.filter_nil, List.append_nil]
    rw [hq, show ([] : List RMsg) = (x.setPort p (x.port p)).ethq from h.ethq.symm]
  rw [he]
  exact ⟨_, rfl, port_setPort_own x p⟩

theorem recallAll_reported {x : Fabric} (h : Idle x) : Reported x x.recallAll := by
  have hfold : ∀ (l : List Nat) (y : Fabric), Reported x y → Reported x (l.foldl Fabric.recall y) := by
    intro l
    induction l with
    | nil => exact fun _ hy => hy
    | cons p l ih => exact fun y hy => ih _ (hy.trans (recall_reported (hy.idle h) p))
  exact hfold _ x ⟨x.ports, rfl, fun _ => rfl⟩

theorem runPorts_of_idle {x : Fabric} (h : Idle x) : x.runPorts 1 = x := by
  have henter : Fabric.enterAll x.ethq [] x = x := by
    rw [h.ethq, Fabric.enterAll, List.reverse_nil, show ([] : List RMsg) = x.ethq from h.ethq.symm]
  have hrun : ∀ l : List Nat, l.foldl (fun (x : Fabric) p => Fabric.runPort p (x.port p).buf.length x) x = x := by
    intro l
    induction l with
    | nil => rfl
    | cons p l ih => rw [List.foldl_cons, h.bufs p]; exact ih
  unfold Fabric.runPorts
  dsimp only
  rw [henter, hrun, h.ethq]
  rfl

theorem transmit_of_idle {s : State} (h : Idle s.fabric) : s.transmit = s := by
  unfold State.transmit Fabric.waiting
  dsimp only
  rw [show s.fabric.ethq.length + 1 = 1 by rw [h.ethq]; rfl, runPorts_of_idle h, h.queue]
  rfl

/-- Where nothing waits, a pump sends nothing and ends no context. -/
theorem pump_of_idle {s : State} (h : Idle s.fabric) : ∃ y, Reported s.fabric y ∧ s.pump = { s with fabric := y } := by
  have hr := recallAll_reported h
  have hy := hr.idle h
  refine ⟨_, hr, ?_⟩
  have he := hy.emptied
  unfold State.pump
  simp only [hy.queue, hy.ethq, List.filter_nil, List.map_nil, List.append_nil, List.foldl_nil, he]
  exact transmit_of_idle (s := { s with fabric := s.fabric.recallAll }) hy

end Sys2Proof.Laws
end

section
/-!
SUPPORT. Circuits between dies (R322, R323), the connected group (R324–R326), fibres and their keys (R327–R330).
-/

namespace Sys2Proof.Laws
open Sys2Proof.Machine

/-! ### Circuits (R322, R323) -/

section
variable {s : State} {i j : Nat} {v : Word} (hij : i < j) (hj : j < 8)
include hij hj

/-- What refuses a write to `CWAVE`. -/
def wavesRefused (x : Fabric) (i j n : Nat) : Prop :=
  fget false x.cbusy (8 * i + j) = true ∨ 32 < n ∨ 64 + x.waves i j < x.dieWaves i + n ∨ 64 + x.waves i j < x.dieWaves j + n

theorem writeWaves_refused (h : wavesRefused s.fabric i j (v.extractLsb' 0 6).toNat) :
    s.writeWaves i j v = s.setFabric { s.fabric with cerr := fset false s.fabric.cerr (8 * i + j) true } :=
  (if_neg (by omega)).trans (if_pos h)

theorem writeWaves_accepted (h : ¬ wavesRefused s.fabric i j (v.extractLsb' 0 6).toNat) :
    s.writeWaves i j v = s.setFabric { s.fabric with
      cerr := fset false s.fabric.cerr (8 * i + j) false, cbusy := fset false s.fabric.cbusy (8 * i + j) true,
      cwave := fset none s.fabric.cwave (8 * i + j) (some (v.extractLsb' 0 6)) } :=
  (if_neg (by omega)).trans (if_neg h)

theorem cwaveWrite_refused (h : wavesRefused s.fabric i j (v.extractLsb' 0 6).toNat) :
    ∃ t, exec (.cwaveWrite i j v) s = .next t ∧ fget false t.fabric.cerr (8 * i + j) = true ∧ t.fabric.waves i j = s.fabric.waves i j := by
  refine ⟨s.writeWaves i j v, rfl, ?_⟩
  rw [writeWaves_refused hij hj h]
  exact ⟨fget_fset_same false s.fabric.cerr _ true, rfl⟩

theorem cwaveWrite_accepted (h : ¬ wavesRefused s.fabric i j (v.extractLsb' 0 6).toNat) :
    ∃ t, exec (.cwaveWrite i j v) s = .next t ∧ fget false t.fabric.cerr (8 * i + j) = false ∧
      fget false t.fabric.cbusy (8 * i + j) = true ∧ t.fabric.waves i j = (v.extractLsb' 0 6).toNat := by
  refine ⟨s.writeWaves i j v, rfl, ?_⟩
  rw [writeWaves_accepted hij hj h]
  refine ⟨fget_fset_same false s.fabric.cerr _ false, fget_fset_same false s.fabric.cbusy _ true, ?_⟩
  unfold Fabric.waves
  dsimp only [State.setFabric]
  rw [fget_fset_same]

end

section
variable {x : Fabric} {i j : Nat}

theorem joined_of_waves (hij : i < j) (hw : 0 < x.waves i j) : x.joined i j = true ∧ x.joined j i = true := by
  unfold Fabric.joined
  rw [Nat.min_eq_left hij.le, Nat.max_eq_right hij.le, Nat.min_eq_right hij.le, Nat.max_eq_left hij.le]
  simp [hw, Nat.ne_of_lt hij, Nat.ne_of_gt hij]

/-- Of two dies with circuits of their own, a message goes over those (R323). -/
theorem links_of_joined (hne : i ≠ j) (hj : j < 8) (h : x.joined i j = true) : x.links i j = !x.changing i j := by
  have hone : x.reaches 1 i j = true := by
    unfold Fabric.reaches
    rw [Bool.or_eq_true, List.any_eq_true]
    exact .inr ⟨j, List.mem_range.2 hj, by simp [h, Fabric.reaches]⟩
  have hshort : (List.range 8).find? (fun k => x.reaches k i j) = some 1 := by
    rw [List.find?_eq_some_iff_append]
    exact ⟨hone, [0], [2, 3, 4, 5, 6, 7], rfl, by simpa [Fabric.reaches] using hne⟩
  have hnext : (List.range 8).find? (fun m => x.joined i m && x.reaches 0 m j) = some j := by
    rw [List.find?_range_eq_some]
    refine ⟨by simp [h, Fabric.reaches], List.mem_range.2 hj, fun m hm => by simp [Fabric.reaches, Nat.ne_of_lt hm]⟩
  unfold Fabric.links
  rw [hshort, beq_false_of_ne hne, Bool.false_or]
  dsimp only
  rw [Fabric.follows, hnext, beq_false_of_ne hne, Bool.false_or]
  dsimp only
  simp [Fabric.follows]

theorem changing_of_lt (hij : i < j) : x.changing i j = fget false x.cbusy (8 * i + j) ∧ x.changing j i = fget false x.cbusy (8 * i + j) := by
  unfold Fabric.changing
  rw [Nat.min_eq_left hij.le, Nat.max_eq_right hij.le, Nat.min_eq_right hij.le, Nat.max_eq_left hij.le]
  exact ⟨rfl, rfl⟩

theorem links_of_waves (hij : i < j) (hj : j < 8) (hw : 0 < x.waves i j) :
    x.links i j = !fget false x.cbusy (8 * i + j) ∧ x.links j i = !fget false x.cbusy (8 * i + j) := by
  obtain ⟨hthere, hback⟩ := joined_of_waves hij hw
  obtain ⟨hc, hd⟩ := changing_of_lt (x := x) hij
  rw [links_of_joined (Nat.ne_of_lt hij) hj hthere, links_of_joined (Nat.ne_of_gt hij) (hij.trans hj) hback, hc, hd]
  exact ⟨rfl, rfl⟩

section
variable (h : ∀ a b, a < b → b < 8 → x.waves a b = 0)
include h

theorem joined_of_no_waves (hi : i < 8) (hj : j < 8) : x.joined i j = false := by
  unfold Fabric.joined
  by_cases hne : i = j
  · simp [hne]
  · rw [h (min i j) (max i j) (by omega) (by omega)]
    simp

theorem reaches_of_no_waves (hi : i < 8) (hne : i ≠ j) : ∀ k, x.reaches k i j = false
  | 0 => beq_false_of_ne hne
  | k + 1 => by
    rw [Fabric.reaches, beq_false_of_ne hne, Bool.false_or, List.any_eq_false]
    intro m hm
    simp [joined_of_no_waves h hi (List.mem_range.1 hm)]

theorem links_of_no_waves (hi : i < 8) (hne : i ≠ j) : x.links i j = false := by
  have hnone : (List.range 8).find? (fun k => x.reaches k i j) = none :=
    List.find?_eq_none.2 fun k _ => by simp [reaches_of_no_waves h hi hne k]
  unfold Fabric.links
  rw [hnone, beq_false_of_ne hne]
  rfl

end
end

theorem circuitReassignComplete_done (s : State) (i j : Nat) : ∃ t, exec (.circuitReassignComplete i j) s = .next t ∧
    fget false t.fabric.cbusy (8 * i + j) = false ∧ t.fabric.cwave = s.fabric.cwave :=
  ⟨_, rfl, fget_fset_same false s.fabric.cbusy _ false, rfl⟩

/-! ### The connected group (R324–R326) -/

section
variable {s : State} {f : Nat}

theorem lwDrain_running (h : s.fabric.lwstate = 2) : exec .lwDrain s = .next { s with fabric := { s.fabric with lwstate := 3 } } :=
  congrArg _ (if_pos h)
theorem lwDrain_idle (h : s.fabric.lwstate ≠ 2) : exec .lwDrain s = .next s := congrArg _ (if_neg h)
theorem drainComplete_drained (h : s.fabric.lwstate = 3) (hr : s.fabric.repliesIn = true) :
    exec .drainComplete s = .next { s with fabric := { s.fabric with lwstate := 4 } } := congrArg _ (if_pos ⟨h, hr⟩)
theorem drainComplete_idle (h : s.fabric.lwstate ≠ 3 ∨ s.fabric.repliesIn = false) : exec .drainComplete s = .next s :=
  congrArg _ (if_neg fun ⟨h3, hr⟩ => h.elim (· h3) fun hf => Bool.false_ne_true (hf.symm.trans hr))

/-- Changing every fibre of a list in turn changes each of them alone. -/
theorem foldl_setFibre (g : Fibre → Fibre) : ∀ (l : List Nat), l.Nodup → ∀ (x : Fabric) (f : Nat),
    (l.foldl (fun (x : Fabric) k => x.setFibre k (g (x.fibre k))) x).fibre f = if f ∈ l then g (x.fibre f) else x.fibre f
  | [], _, _, _ => rfl
  | k :: l, hl, x, f => by
    obtain ⟨hk, hl⟩ := List.nodup_cons.1 hl
    rw [List.foldl_cons, foldl_setFibre g l hl]
    by_cases hf : f = k
    · subst hf
      simp [hk, fibre_setFibre_same]
    · simp [hf, fibre_setFibre_ne _ _ hf]

theorem fibre_congr {x y : Fabric} (h : x.fibres = y.fibres) (f : Nat) : x.fibre f = y.fibre f := by
  unfold Fabric.fibre
  rw [h]

theorem restart_fibre (x : Fabric) (st lw : BitVec 3) (f : Nat) :
    (x.restart st lw).fibre f = if f < 136 then (x.fibre f).restart st else x.fibre f := by
  have h := foldl_setFibre (Fibre.restart · st) (List.range 136) List.nodup_range x f
  simp only [List.mem_range] at h
  exact (fibre_congr (by unfold Fabric.restart; dsimp only) f).trans h

/-- A relock puts spares in the place of failed fibres, and trains those in use. -/
theorem lwRelock_relocks (h : s.fabric.lwstate = 0 ∨ s.fabric.lwstate = 4) : ∃ t, exec .lwRelock s = .next t ∧ t.fabric.lwstate = 1 ∧
    ((s.fabric.fibre f).fstate ≠ 5 → t.fabric.fibre f = if f < 136 then (s.fabric.fibre f).restart 1 else s.fabric.fibre f) := by
  have hkeep : ∀ (l : List Nat) (u : State), (l.foldl (fun s f => s.spareEvent 5 0 f) u).fabric = u.fabric := by
    intro l
    induction l with
    | nil => exact fun _ => rfl
    | cons k l ih => exact fun u => (ih (u.spareEvent 5 0 k)).trans (by rw [spareEvent_frame])
  have he : exec .lwRelock s = .next s.lwRelock := rfl
  unfold State.lwRelock at he
  rw [if_pos h] at he
  refine ⟨_, he, congrArg Fabric.lwstate (hkeep _ _), fun h5 => ?_⟩
  have hdue : f ∉ s.fabric.sparesDue := fun hm => by
    have hs := (List.mem_filter.1 (List.mem_of_mem_take hm)).2
    exact h5 (beq_iff_eq.1 hs)
  have hspare := foldl_setFibre (fun q => { q with fstate := 0 }) s.fabric.sparesDue
    ((List.nodup_range.filter _).sublist (List.take_sublist ..)) s.fabric f
  rw [if_neg hdue] at hspare
  refine (congrArg (Fabric.fibre · f) (hkeep _ _)).trans ((restart_fibre ..).trans ?_)
  rw [hspare]

theorem restart_state {q : Fibre} (h4 : q.fstate ≠ 4) (h5 : q.fstate ≠ 5) (st : BitVec 3) :
    (q.restart st).fstate = st ∧ (q.restart st).txctr = q.txctr ∧ (q.restart st).ctrlim = q.ctrlim := by
  unfold Fibre.restart
  rw [if_neg (not_or.2 ⟨h4, h5⟩)]
  exact ⟨rfl, rfl, rfl⟩

theorem lwRelock_trains (h : s.fabric.lwstate = 0 ∨ s.fabric.lwstate = 4) : ∃ t, exec .lwRelock s = .next t ∧ t.fabric.lwstate = 1 ∧
    (f < 136 → (s.fabric.fibre f).fstate ≠ 4 → (s.fabric.fibre f).fstate ≠ 5 → (t.fabric.fibre f).fstate = 1 ∧
      (t.fabric.fibre f).txctr = (s.fabric.fibre f).txctr ∧ (t.fabric.fibre f).ctrlim = (s.fabric.fibre f).ctrlim) ∧
    ((s.fabric.fibre f).fstate = 4 → (t.fabric.fibre f).fstate = 4) := by
  obtain ⟨t, he, hl, hf⟩ := lwRelock_relocks (f := f) h
  refine ⟨t, he, hl, fun hlt h4 h5 => ?_, fun h4 => ?_⟩
  · rw [hf h5, if_pos hlt]
    exact restart_state h4 h5 1
  · rw [hf (by rw [h4]; decide)]
    unfold Fibre.restart
    rw [if_pos (Or.inl h4), ite_self, h4]

theorem lwRelock_idle (h0 : s.fabric.lwstate ≠ 0) (h4 : s.fabric.lwstate ≠ 4) : exec .lwRelock s = .next s :=
  congrArg _ (if_neg (not_or.2 ⟨h0, h4⟩))

theorem lwGoDark_dark (h : s.fabric.lwstate = 2 ∨ s.fabric.lwstate = 4) : ∃ t, exec .lwGoDark s = .next t ∧ t.fabric.lwstate = 0 ∧
    (f < 136 → (s.fabric.fibre f).fstate ≠ 4 → (s.fabric.fibre f).fstate ≠ 5 → (t.fabric.fibre f).fstate = 0) := by
  refine ⟨_, congrArg Host.Outcome.next (if_pos h), rfl, fun hlt h4 h5 => ?_⟩
  have hf := restart_fibre s.fabric 0 0 f
  rw [if_pos hlt] at hf
  exact (congrArg Fibre.fstate hf).trans (restart_state h4 h5 0).1

theorem lwGoDark_idle (h2 : s.fabric.lwstate ≠ 2) (h4 : s.fabric.lwstate ≠ 4) : exec .lwGoDark s = .next s :=
  congrArg _ (if_neg (not_or.2 ⟨h2, h4⟩))

end

/-! ### Fibres and their keys (R327–R330) -/

theorem post_fabric (s : State) (src : Nat) (ctx : Option Nat) (code : Nat) (pay : List Byte) : (s.post src ctx code pay).fabric = s.fabric := by
  rw [post_frame]

/-- A pump where nothing waits leaves the fibres and the records as they are. -/
theorem pump_fibre_of_idle {s : State} (h : Idle s.fabric) : (∀ f, s.pump.fabric.fibre f = s.fabric.fibre f) ∧
    s.pump.fabric.lwstate = s.fabric.lwstate ∧ s.pump.events = s.events := by
  obtain ⟨y, ⟨ps, rfl, -⟩, he⟩ := pump_of_idle h
  rw [he]
  exact ⟨fun _ => rfl, rfl, rfl⟩

/-- A record, and a pump where nothing waits. -/
theorem pump_post_of_idle {s t : State} {src code : Nat} {ctx : Option Nat} {pay : List Byte} (ht : t = (s.post src ctx code pay).pump)
    (h : Idle s.fabric) : (∀ f, t.fabric.fibre f = s.fabric.fibre f) ∧ t.fabric.lwstate = s.fabric.lwstate ∧
      fget 0 t.events.sseq src = fget 0 s.events.sseq src + 1 := by
  have hfab := post_fabric s src ctx code pay
  obtain ⟨hfib, hlw, hev⟩ := pump_fibre_of_idle (s := s.post src ctx code pay) (by rw [hfab]; exact h)
  rw [ht]
  refine ⟨fun f => ?_, ?_, ?_⟩
  · rw [hfib, hfab]
  · rw [hlw, hfab]
  · rw [hev, post_sseq]

section
variable {s : State} {f : Nat} {a : Word}

/-- A fibre without a staged key takes up none. -/
theorem takeKey_of_none {q : Fibre} (h : q.txkey = none) : q.takeKey = q := by unfold Fibre.takeKey; rw [h]

theorem lockComplete_up {v : BitVec 5} (h : s.fabric.lwstate = 1) (hi : Idle s.fabric) (hf : (s.fabric.fibre f).fstate = 1)
    (hk : (s.fabric.fibre f).txkey = none) : ∃ t, exec (.lockComplete [(f, v)]) s = .next t ∧ t.fabric.lwstate = 2 ∧
      (t.fabric.fibre f).fstate = 2 ∧ (t.fabric.fibre f).fpeer = v ∧ mgmtSseq t = mgmtSseq s + 1 := by
  have he : exec (.lockComplete [(f, v)]) s = execLockComplete [(f, v)] s := rfl
  unfold execLockComplete at he
  rw [if_neg (not_not.2 h), List.foldl_cons, List.foldl_nil, if_pos hf,
    takeKey_of_none (q := { s.fabric.fibre f with fstate := 2, fpeer := v }) hk] at he
  obtain ⟨hfib, hlw, hseq⟩ := pump_post_of_idle rfl (s := s.setFabric
    { s.fabric.setFibre f { s.fabric.fibre f with fstate := 2, fpeer := v } with lwstate := 2 }) ⟨hi.queue, hi.ethq, hi.bufs⟩
  have hown := fibre_setFibre_same s.fabric f { s.fabric.fibre f with fstate := 2, fpeer := v }
  have hnew := (hfib f).trans ((fibre_congr rfl f).trans hown)
  exact ⟨_, he, hlw, congrArg Fibre.fstate hnew, congrArg Fibre.fpeer hnew, hseq⟩

theorem lockComplete_idle {up : List (Nat × BitVec 5)} (h : s.fabric.lwstate ≠ 1) : exec (.lockComplete up) s = .next s := if_pos h

/-- A failed read stages nothing and sets `KERR`. -/
theorem stageKey_unread (hr : s.hostRead (64 * (a.toNat / 64)) 32 = none) (tx : Bool) :
    (s.stageKey f a tx).fabric.fibre f = { s.fabric.fibre f with kaddr := a, kerr := true } := by
  unfold State.stageKey
  rw [hr]
  exact fibre_setFibre_same ..

theorem stageKey_receive {key : List Byte} (hr : s.hostRead (64 * (a.toNat / 64)) 32 = some key) :
    (s.stageKey f a false).fabric.fibre f = { s.fabric.fibre f with kaddr := a, kerr := false, rxkey := some key } := by
  unfold State.stageKey
  rw [hr]
  exact fibre_setFibre_same ..

theorem stageKey_transmit {key : List Byte} (hr : s.hostRead (64 * (a.toNat / 64)) 32 = some key) (hi : Idle s.fabric) :
    (s.stageKey f a true).fabric.fibre f = ({ s.fabric.fibre f with kaddr := a, kerr := false, txkey := some key } : Fibre).takeKey := by
  unfold State.stageKey
  dsimp only
  rw [hr]
  dsimp only
  rw [if_pos rfl]
  generalize ({ s.fabric.fibre f with kaddr := a, kerr := false, txkey := some key } : Fibre).takeKey = q
  obtain ⟨hfib, -⟩ := pump_fibre_of_idle (s := s.setFibre f q) ⟨hi.queue, hi.ethq, hi.bufs⟩
  exact (hfib f).trans (fibre_setFibre_same ..)

theorem stageTransmitKey_stages (hf : f < 136) : exec (.stageTransmitKey f a) s = .next (s.stageKey f a true) := congrArg _ (if_pos hf)
theorem stageReceiveKey_stages (hf : f < 136) : exec (.stageReceiveKey f a) s = .next (s.stageKey f a false) := congrArg _ (if_pos hf)

/-- A fibre that is up or held takes up its staged key, another keeps it staged. -/
theorem takeKey_of_some {q : Fibre} {key : List Byte} (h : q.txkey = some key) : q.takeKey.kerr = q.kerr ∧
    (q.fstate = 2 ∨ q.fstate = 3 → q.takeKey.txcur = key ∧ q.takeKey.txkey = none ∧ q.takeKey.txctr = 0 ∧ q.takeKey.fstate = 2) ∧
    (q.fstate ≠ 2 → q.fstate ≠ 3 → q.takeKey = q) := by
  unfold Fibre.takeKey
  rw [h]
  dsimp only
  by_cases hs : q.fstate = 2 ∨ q.fstate = 3
  · rw [if_pos hs]
    exact ⟨rfl, fun _ => ⟨rfl, rfl, rfl, rfl⟩, fun h2 h3 => absurd hs (not_or.2 ⟨h2, h3⟩)⟩
  · rw [if_neg hs]
    exact ⟨rfl, fun h => absurd h hs, fun _ _ => rfl⟩

theorem keyChangeFlitArrival_takes {key : List Byte} (h : (s.fabric.fibre f).rxkey = some key) :
    exec (.keyChangeFlitArrival f) s = .next (s.setFibre f { s.fabric.fibre f with rxcur := key, rxkey := none, fails := 0 }) := by
  change execKeyChangeFlitArrival f s = _
  unfold execKeyChangeFlitArrival
  dsimp only
  rw [h]

theorem fibreHeld_holds (hf : (s.fabric.fibre f).fstate = 2) (hk : (s.fabric.fibre f).txkey = none) (hw : s.fabric.waitsFor f = true) :
    ∃ t, exec (.fibreHeld f) s = .next t ∧ (t.fabric.fibre f).fstate = 3 ∧ fget 0 t.events.sseq (srcFibre f) = fget 0 s.events.sseq (srcFibre f) + 1 := by
  refine ⟨_, if_pos ⟨hf, by rw [hk]; rfl, hw⟩, ?_, post_sseq ..⟩
  have hown : (s.fabric.setFibre f { s.fabric.fibre f with fstate := 3 }).fibre f = { s.fabric.fibre f with fstate := 3 } := fibre_setFibre_same ..
  exact (congrArg (fun x : Fabric => (x.fibre f).fstate) (post_fabric ..)).trans (congrArg Fibre.fstate hown)

theorem fibreHeld_idle (h : (s.fabric.fibre f).fstate ≠ 2 ∨ (s.fabric.fibre f).txkey ≠ none ∨ s.fabric.waitsFor f = false) :
    exec (.fibreHeld f) s = .next s := by
  refine if_neg fun ⟨hf, hk, hw⟩ => ?_
  rcases h with h | h | h
  · exact h hf
  · exact h (Option.isNone_iff_eq_none.1 hk)
  · exact Bool.false_ne_true (h.symm.trans hw)

/-- What fails a fibre (R328). -/
def fibreBad (q : Fibre) : Prop := 16 ≤ q.fails ∨ ((List.range 18).filter q.wlmask.getLsbD).length < 8

theorem fibreFailed_fails (hf : f < 136) (hlo : 1 ≤ (s.fabric.fibre f).fstate.toNat) (hhi : (s.fabric.fibre f).fstate.toNat ≤ 3)
    (hb : fibreBad (s.fabric.fibre f)) (hi : Idle s.fabric) : ∃ t, exec (.fibreFailed f) s = .next t ∧ (t.fabric.fibre f).fstate = 4 ∧
      fget 0 t.events.sseq (srcFibre f) = fget 0 s.events.sseq (srcFibre f) + 1 := by
  have hown : (s.fabric.fail f).fibre f = { s.fabric.fibre f with fstate := 4, used := [] } :=
    fibre_setFibre_same s.fabric f { s.fabric.fibre f with fstate := 4, used := [] }
  have hidle : Idle (s.fabric.fail f) := ⟨by unfold Fabric.fail; dsimp only [Fabric.setFibre]; rw [hi.queue]; rfl, hi.ethq, hi.bufs⟩
  obtain ⟨hfib, -, hseq⟩ := pump_post_of_idle rfl (s := s.setFabric (s.fabric.fail f)) hidle
  exact ⟨_, if_pos ⟨hf, ⟨hlo, hhi⟩, hb⟩, congrArg Fibre.fstate ((hfib f).trans hown), hseq⟩

theorem fibreFailed_idle (h : ¬ fibreBad (s.fabric.fibre f)) : exec (.fibreFailed f) s = .next s := if_neg fun ⟨_, _, hb⟩ => h hb

theorem flitAuthFailure_counts (h : (s.fabric.fibre f).fstate = 2 ∨ (s.fabric.fibre f).fstate = 3) :
    exec (.flitAuthFailure f) s = .next (s.setFibre f { s.fabric.fibre f with fails := (s.fabric.fibre f).fails + 1 }) :=
  congrArg _ (if_pos h)

theorem fibre_of_setFibre (s : State) (f : Nat) (q : Fibre) : (s.setFibre f q).fabric.fibre f = q := fibre_setFibre_same ..

end

/-- Settles O56: each step by the lemma of its case above; a pump where nothing waits (`pump_of_idle`) leaves the fibres as they are. -/
theorem fabricLinks : Obligations.FabricLinks := by
  unfold Obligations.FabricLinks
  intro s i j f v a
  refine ⟨fun hij hj => ?waves, fun hij hj hw => ?links, fun hij hj h0 => ⟨links_of_no_waves h0 (hij.trans hj) (Nat.ne_of_lt hij),
      links_of_no_waves h0 hj (Nat.ne_of_gt hij)⟩, circuitReassignComplete_done s i j, lwDrain_running, lwDrain_idle, lwRelock_trains,
    lwRelock_idle, lwGoDark_dark, lwGoDark_idle, drainComplete_drained, drainComplete_idle,
    fun hl hq he hb hf hk => lockComplete_up hl ⟨hq, he, hb⟩ hf hk, lockComplete_idle,
    fun hf => ⟨fun hr => ⟨⟨_, stageTransmitKey_stages hf, ?_⟩, ⟨_, stageReceiveKey_stages hf, ?_⟩⟩,
      fun key hr => ⟨fun hq he hb => ⟨_, stageTransmitKey_stages hf, ?transmit⟩, ⟨_, stageReceiveKey_stages hf, ?_⟩⟩⟩,
    fun key hk => ⟨_, keyChangeFlitArrival_takes hk, ?_⟩, fibreHeld_holds, fibreHeld_idle,
    ⟨fun hf hlo hhi hb hq he hbuf => fibreFailed_fails hf hlo hhi hb ⟨hq, he, hbuf⟩, fibreFailed_idle⟩,
    fun h => ⟨_, flitAuthFailure_counts h, congrArg Fibre.fails (fibre_of_setFibre ..), rfl⟩⟩
  case waves =>
    intro m bad
    by_cases hb : bad
    · obtain ⟨t, he, herr, hw⟩ := cwaveWrite_refused hij hj hb
      exact ⟨t, he, fun _ => ⟨herr, hw⟩, fun hn => absurd hb hn⟩
    · obtain ⟨t, he, hnew⟩ := cwaveWrite_accepted hij hj hb
      exact ⟨t, he, fun h => absurd h hb, fun _ => hnew⟩
  case links =>
    obtain ⟨hthere, hback⟩ := links_of_waves hij hj hw
    exact ⟨fun hc => by rw [hthere, hback, hc]; exact ⟨rfl, rfl⟩, fun hc => by rw [hthere, hback, hc]; exact ⟨rfl, rfl⟩⟩
  case transmit =>
    dsimp only
    rw [stageKey_transmit hr ⟨hq, he, hb⟩]
    obtain ⟨herr, htaken, hkept⟩ := takeKey_of_some
      (q := { s.fabric.fibre f with kaddr := a, kerr := false, txkey := some key }) (key := key) rfl
    refine ⟨herr, htaken, fun h2 h3 => ?_⟩
    rw [hkept h2 h3]
    exact ⟨rfl, rfl, rfl⟩
  · dsimp only
    rw [stageKey_unread hr]
    exact ⟨rfl, rfl⟩
  · dsimp only
    rw [stageKey_unread hr]
    exact ⟨rfl, rfl⟩
  · dsimp only
    rw [stageKey_receive hr]
    exact ⟨rfl, rfl, rfl⟩
  · dsimp only
    rw [fibre_of_setFibre]
    exact ⟨rfl, rfl, rfl⟩

end Sys2Proof.Laws
end

section
/-!
SUPPORT. The scale-out unit (R341, R342): ports and their keys, frames in their sequence, and frames sent again.
-/

namespace Sys2Proof.Laws
open Sys2Proof.Machine

/-! ### Ports and their keys -/

section
variable {s : State} {p : Nat} {a : Word} {st : BitVec 3}

theorem port_of_setPort (s : State) (p : Nat) (q : Port) : (s.setPort p q).fabric.port p = q := port_setPort_same ..

theorem stagePortKey_unread (hr : s.hostRead (64 * (a.toNat / 64)) 32 = none) (tx : Bool) :
    (s.stagePortKey p a tx).fabric.port p = { s.fabric.port p with ekaddr := a, ekerr := true } := by
  unfold State.stagePortKey
  rw [hr]
  exact port_of_setPort ..

theorem stagePortKey_receive {key : List Byte} (hr : s.hostRead (64 * (a.toNat / 64)) 32 = some key) :
    (s.stagePortKey p a false).fabric.port p = { s.fabric.port p with ekaddr := a, ekerr := false, rxkey := some key } := by
  unfold State.stagePortKey
  rw [hr]
  exact port_of_setPort ..

theorem stagePortKey_transmit {key : List Byte} (hr : s.hostRead (64 * (a.toNat / 64)) 32 = some key) : s.stagePortKey p a true =
    s.changePort p ({ s.fabric.port p with ekaddr := a, ekerr := false, txkey := some key } : Port).takeKey := by
  unfold State.stagePortKey
  dsimp only
  rw [hr]
  exact if_pos rfl

theorem Port.takeKey_buf (q : Port) : q.takeKey.buf = q.buf ∧ q.takeKey.ekerr = q.ekerr := by
  unfold Port.takeKey
  split
  · split <;> exact ⟨rfl, rfl⟩
  · exact ⟨rfl, rfl⟩

theorem portTakeKey_of_none {q : Port} (h : q.txkey = none) : q.takeKey = q := by unfold Port.takeKey; rw [h]

/-- A port that is up or held takes up its staged key, another keeps it staged. -/
theorem portTakeKey_of_some {q : Port} {key : List Byte} (h : q.txkey = some key) :
    (q.estate = 2 ∨ q.estate = 3 → q.takeKey.txkey = none ∧ q.takeKey.epn = 0 ∧ q.takeKey.estate = 2) ∧
    (q.estate ≠ 2 → q.estate ≠ 3 → q.takeKey = q) := by
  unfold Port.takeKey
  rw [h]
  dsimp only
  by_cases hs : q.estate = 2 ∨ q.estate = 3
  · rw [if_pos hs]
    exact ⟨fun _ => ⟨rfl, rfl, rfl⟩, fun h2 h3 => absurd hs (not_or.2 ⟨h2, h3⟩)⟩
  · rw [if_neg hs]
    exact ⟨fun h => absurd h hs, fun _ _ => rfl⟩

/-- A pump where nothing waits leaves the ports and the records as they are. -/
theorem pump_port_of_idle {s : State} (h : Idle s.fabric) : (∀ k, s.pump.fabric.port k = s.fabric.port k) ∧ s.pump.events = s.events := by
  obtain ⟨y, ⟨ps, rfl, hp⟩, he⟩ := pump_of_idle h
  rw [he]
  exact ⟨hp, rfl⟩

/-- A record of the management, and a pump where nothing waits. -/
theorem pump_post_port_of_idle {s t : State} {code : Nat} {ctx : Option Nat} {pay : List Byte} (ht : t = (s.post srcMgmt ctx code pay).pump)
    (h : Idle s.fabric) : (∀ k, t.fabric.port k = s.fabric.port k) ∧ mgmtSseq t = mgmtSseq s + 1 := by
  have hfab := post_fabric s srcMgmt ctx code pay
  obtain ⟨hport, hev⟩ := pump_port_of_idle (s := s.post srcMgmt ctx code pay) (by rw [hfab]; exact h)
  rw [ht]
  refine ⟨fun k => ?_, ?_⟩
  · rw [hport, hfab]
  · unfold mgmtSseq
    rw [hev, post_sseq]

/-- A port that changes while nothing waits: it is as given, and there is a record where `ESTATE` has changed. -/
theorem changePort_of_idle (hi : Idle s.fabric) {q : Port} (hb : q.buf = []) : (s.changePort p q).fabric.port p = q ∧
    mgmtSseq (s.changePort p q) = mgmtSseq s + (if q.estate = (s.fabric.port p).estate then 0 else 1) := by
  have hidle : Idle (s.fabric.setPort p q) := by
    refine ⟨hi.queue, hi.ethq, fun k => ?_⟩
    by_cases hk : k = p
    · rw [hk, port_setPort_same, hb]
    · rw [port_setPort_ne _ _ hk, hi.bufs]
  have hown : (s.setFabric (s.fabric.setPort p q)).fabric.port p = q := port_setPort_same ..
  unfold State.changePort
  dsimp only
  by_cases hs : q.estate = (s.fabric.port p).estate
  · rw [if_pos hs, if_pos hs]
    obtain ⟨hport, hev⟩ := pump_port_of_idle (s := s.setFabric (s.fabric.setPort p q)) hidle
    exact ⟨(hport p).trans hown, by unfold mgmtSseq; rw [hev]; exact (BitVec.add_zero _).symm⟩
  · rw [if_neg hs, if_neg hs]
    unfold State.portEvent
    obtain ⟨hport, hseq⟩ := pump_post_port_of_idle rfl (s := s.setFabric (s.fabric.setPort p q)) hidle
    exact ⟨(hport p).trans hown, hseq⟩

theorem scaleoutStageTransmitKey_stages (hp : p < 4) : exec (.scaleoutStageTransmitKey p a) s = .next (s.stagePortKey p a true) :=
  congrArg _ (if_pos hp)
theorem scaleoutStageReceiveKey_stages (hp : p < 4) : exec (.scaleoutStageReceiveKey p a) s = .next (s.stagePortKey p a false) :=
  congrArg _ (if_pos hp)

theorem scaleoutStageTransmitKey_takes {key : List Byte} (hp : p < 4) (hr : s.hostRead (64 * (a.toNat / 64)) 32 = some key)
    (hi : Idle s.fabric) : ∃ t, exec (.scaleoutStageTransmitKey p a) s = .next t ∧ (t.fabric.port p).ekerr = false ∧
      ((s.fabric.port p).estate = 2 ∨ (s.fabric.port p).estate = 3 →
        (t.fabric.port p).txkey = none ∧ (t.fabric.port p).epn = 0 ∧ (t.fabric.port p).estate = 2) ∧
      ((s.fabric.port p).estate ≠ 2 → (s.fabric.port p).estate ≠ 3 →
        (t.fabric.port p).txkey = some key ∧ (t.fabric.port p).epn = (s.fabric.port p).epn) := by
  refine ⟨_, scaleoutStageTransmitKey_stages hp, ?_⟩
  rw [stagePortKey_transmit hr]
  generalize hq : ({ s.fabric.port p with ekaddr := a, ekerr := false, txkey := some key } : Port) = q
  obtain ⟨hbuf, herr⟩ := Port.takeKey_buf q
  obtain ⟨htaken, hkept⟩ := portTakeKey_of_some (q := q) (key := key) (by rw [← hq])
  have hst : q.estate = (s.fabric.port p).estate := by rw [← hq]
  rw [(changePort_of_idle hi (hbuf.trans (by rw [← hq]; exact hi.bufs p))).1, ← hst]
  refine ⟨herr.trans (by rw [← hq]), htaken, fun h2 h3 => ?_⟩
  rw [hkept h2 h3, ← hq]
  exact ⟨rfl, rfl⟩

theorem scaleoutPortStateChange_changes (hp : p < 4) (hi : Idle s.fabric) (hst : st.toNat ≤ 2)
    (hheld : ¬ (st = 2 ∧ (s.fabric.port p).estate = 3)) (hk : (s.fabric.port p).txkey = none) :
    ∃ t, exec (.scaleoutPortStateChange p st) s = .next t ∧ (t.fabric.port p).estate = st ∧
      (t.fabric.port p).epn = (s.fabric.port p).epn ∧ mgmtSseq t = mgmtSseq s + (if st = (s.fabric.port p).estate then 0 else 1) := by
  have he : exec (.scaleoutPortStateChange p st) s = execScaleoutPortStateChange p st s := rfl
  unfold execScaleoutPortStateChange at he
  dsimp only at he
  rw [if_pos ⟨hp, hst, hheld⟩, portTakeKey_of_none (q := { s.fabric.port p with estate := st }) hk] at he
  obtain ⟨hport, hseq⟩ := changePort_of_idle (p := p) (q := { s.fabric.port p with estate := st }) hi (hi.bufs p)
  exact ⟨_, he, congrArg Port.estate hport, (congrArg Port.epn hport :), hseq⟩

theorem scaleoutPortHeld_holds (hi : Idle s.fabric) (hup : (s.fabric.port p).estate = 2)
    (hl : (s.fabric.port p).epnlim.toNat ≤ (s.fabric.port p).epn.toNat) (hk : (s.fabric.port p).txkey = none) :
    ∃ t, exec (.scaleoutPortHeld p) s = .next t ∧ (t.fabric.port p).estate = 3 ∧ mgmtSseq t = mgmtSseq s + 1 := by
  have he : exec (.scaleoutPortHeld p) s = execScaleoutPortHeld p s := rfl
  unfold execScaleoutPortHeld at he
  dsimp only at he
  rw [if_pos ⟨hup, hl, by rw [hk]; rfl⟩] at he
  obtain ⟨hport, hseq⟩ := changePort_of_idle (p := p) (q := { s.fabric.port p with estate := 3 }) hi (hi.bufs p)
  rw [if_neg (hup ▸ (by decide : (3 : BitVec 3) ≠ 2))] at hseq
  exact ⟨_, he, congrArg Port.estate hport, hseq⟩

theorem scaleoutPortHeld_idle (h : (s.fabric.port p).estate ≠ 2 ∨ (s.fabric.port p).epn.toNat < (s.fabric.port p).epnlim.toNat ∨
    (s.fabric.port p).txkey ≠ none) : exec (.scaleoutPortHeld p) s = .next s := by
  refine congrArg Host.Outcome.next (if_neg fun ⟨hup, hl, hk⟩ => ?_)
  rcases h with h | h | h
  · exact h hup
  · exact absurd h (Nat.not_lt.2 hl)
  · exact h (Option.isNone_iff_eq_none.1 hk)

end

/-! ### Frames in their sequence -/

section
variable {s : State} {pkg : Nat} {seq : BitVec 32} {m : RMsg}

theorem scaleoutFrameReceive_other {ms : List RMsg} (h : fget 0 s.fabric.rxseq pkg ≠ seq) : exec (.scaleoutFrameReceive pkg seq ms) s = .next s :=
  if_pos h

theorem scaleoutFrameReceive_next (h : fget 0 s.fabric.rxseq pkg = seq) (he : m.eth = true) (hs : m.srcPkg.toNat = pkg)
    (hd : m.dstPkg = s.fabric.pkgnum) : exec (.scaleoutFrameReceive pkg seq [m]) s =
      .next ((s.arrive m).setFabric { (s.arrive m).fabric with rxseq := fset 0 (s.arrive m).fabric.rxseq pkg (seq + 1) }) := by
  change execScaleoutFrameReceive pkg seq [m] s = _
  unfold execScaleoutFrameReceive
  rw [if_neg (not_not.2 h), List.filter_cons_of_pos (by simp [he, hs, hd])]
  rfl

theorem arrive_of_new (hr : s.fabric.outbox.any (RMsg.resent m) = false) :
    s.arrive m = if s.msgWaits m then s.setFabric { s.fabric with outbox := s.fabric.outbox ++ [m] } else s.receive m := by
  unfold State.arrive
  rw [hr]
  rfl

theorem scaleoutFrameReceive_delivers (h : fget 0 s.fabric.rxseq pkg = seq) (he : m.eth = true) (hs : m.srcPkg.toNat = pkg)
    (hd : m.dstPkg = s.fabric.pkgnum) (hr : s.fabric.outbox.any (RMsg.resent m) = false) :
    ∃ t, exec (.scaleoutFrameReceive pkg seq [m]) s = .next t ∧ fget 0 t.fabric.rxseq pkg = seq + 1 ∧
      (s.msgWaits m = false → t.mem = (s.receive m).mem ∧ t.cores = (s.receive m).cores ∧ t.releases = (s.receive m).releases) ∧
      (s.msgWaits m = true → t.mem = s.mem ∧ t.cores = s.cores ∧ t.fabric.outbox = s.fabric.outbox ++ [m]) := by
  refine ⟨_, scaleoutFrameReceive_next h he hs hd, fget_fset_same 0 (s.arrive m).fabric.rxseq pkg (seq + 1), fun hw => ?_, fun hw => ?_⟩
  · have ha : s.arrive m = s.receive m := by rw [arrive_of_new hr, hw]; rfl
    rw [ha]
    exact ⟨rfl, rfl, rfl⟩
  · have ha : s.arrive m = s.setFabric { s.fabric with outbox := s.fabric.outbox ++ [m] } := by rw [arrive_of_new hr, hw]; rfl
    rw [ha]
    exact ⟨rfl, rfl, rfl⟩

theorem frame?_dropFrame (x : Fabric) (pkg : Nat) (seq : BitVec 32) : (x.dropFrame pkg seq).frame? pkg seq = none := by
  unfold Fabric.frame? Fabric.dropFrame
  rw [List.find?_eq_none]
  intro e he
  simpa only [Bool.not_eq_true', Bool.not_eq_true] using (List.mem_filter.1 he).2

theorem mem_dropFrame {x : Fabric} {e : EthFrame} (he : e ∈ x.frames) (hne : ¬ (e.pkg = pkg ∧ e.seq = seq)) :
    e ∈ (x.dropFrame pkg seq).frames := List.mem_filter.2 ⟨he, by simpa [imp_iff_not_or] using hne⟩

/-- A message leaves in a frame of its own, with its package's addresses and the next number of its sequence. -/
theorem frameOut_frame (x : Fabric) (p : Nat) (m : RMsg) : ∃ e, (x.frameOut p m).frames = x.frames ++ [e] ∧ e.pkg = m.dstPkg.toNat ∧
    e.seq = fget 0 x.txseq m.dstPkg.toNat ∧ e.mac = (fget 0 x.evalid m.dstPkg.toNat).extractLsb' 0 48 ∧
    e.vlan = fget 0 x.evlan m.dstPkg.toNat ∧ e.pcp.toNat = m.prio.toNat / 2 ∧ e.etype = x.etype ∧
    ((x.frameOut p m).port p).epn = (x.port p).epn + 1 ∧ fget 0 (x.frameOut p m).txseq m.dstPkg.toNat = e.seq + 1 := by
  refine ⟨_, rfl, rfl, rfl, ?_, rfl, ?_, rfl, ?_, fget_fset_same ..⟩
  · exact BitVec.eq_of_toNat_eq (by simp)
  · have hlt := m.prio.isLt
    dsimp only
    rw [BitVec.extractLsb'_toNat, Nat.shiftRight_eq_div_pow]
    omega
  · exact congrArg Port.epn (port_setPort_same x p _)

section
variable {e : EthFrame} (h : s.fabric.frame? pkg seq = some e)
include h

theorem frame?_pkg : e.pkg = pkg := by
  have hp := List.find?_some h
  simp only [Bool.and_eq_true, beq_iff_eq] at hp
  exact hp.1

/-- The ports that can carry a frame to a package now. -/
def upPorts (x : Fabric) (pkg : Nat) : List Nat := (x.portsTo (BitVec.ofNat 5 pkg)).filter x.portSends

theorem scaleoutRetransmit_resends : exec (.scaleoutRetransmit pkg seq) s = .next (s.setFabric (s.fabric.resend e)) := by
  change execScaleoutRetransmit pkg seq s = _
  unfold execScaleoutRetransmit
  rw [h]

theorem scaleoutRetransmit_sends (hu : upPorts s.fabric pkg ≠ []) : ∃ t r, exec (.scaleoutRetransmit pkg seq) s = .next t ∧
    r ∈ upPorts s.fabric pkg ∧ (t.fabric.port r).epn = (s.fabric.port r).epn + 1 ∧ (∀ k, k ≠ r → t.fabric.port k = s.fabric.port k) ∧
    t.fabric.frames = s.fabric.frames ∧ fget 0 t.fabric.turns pkg = fget 0 s.fabric.turns pkg + 1 := by
  have hlt : fget 0 s.fabric.turns pkg % (upPorts s.fabric pkg).length < (upPorts s.fabric pkg).length :=
    Nat.mod_lt _ (List.length_pos_iff.2 hu)
  have hturn := List.getElem?_eq_getElem hlt
  have hmem := List.getElem_mem hlt
  generalize (upPorts s.fabric pkg)[fget 0 s.fabric.turns pkg % (upPorts s.fabric pkg).length] = r at hturn hmem
  have hre : s.fabric.resend e = { s.fabric.setPort r { s.fabric.port r with epn := (s.fabric.port r).epn + 1 } with
      turns := fset 0 s.fabric.turns pkg (fget 0 s.fabric.turns pkg + 1) } := by
    unfold Fabric.resend
    dsimp only
    rw [frame?_pkg h, show (s.fabric.portsTo (BitVec.ofNat 5 pkg)).filter s.fabric.portSends = upPorts s.fabric pkg from rfl, hturn]
  refine ⟨_, r, scaleoutRetransmit_resends h, hmem, ?_⟩
  rw [hre]
  exact ⟨congrArg Port.epn (port_setPort_same s.fabric r _), fun k hk => port_setPort_ne s.fabric _ hk, rfl, fget_fset_same 0 s.fabric.turns pkg (fget 0 s.fabric.turns pkg + 1)⟩

theorem scaleoutRetransmit_idle (hu : upPorts s.fabric pkg = []) : exec (.scaleoutRetransmit pkg seq) s = .next s := by
  have hre : s.fabric.resend e = s.fabric := by
    unfold Fabric.resend
    dsimp only
    rw [frame?_pkg h, show (s.fabric.portsTo (BitVec.ofNat 5 pkg)).filter s.fabric.portSends = [] from hu]
    rfl
  rw [scaleoutRetransmit_resends h, hre]
  rfl

end

/-! ### Frames that are undeliverable -/

theorem post_ctx (s : State) (src : Nat) (ctx : Option Nat) (code : Nat) (pay : List Byte) (j : Nat) :
    (s.post src ctx code pay).ctx j = s.ctx j := by
  unfold State.ctx
  rw [post_frame]

/-- The end of a context that is not paired sends nothing. -/
theorem endCtx_fabric {k : Nat} (hp : (s.ctx k).pair.pen = false) (cause : Nat) (ord : BitVec 32) : (s.endCtx k cause ord).fabric = s.fabric := by
  have hrefill : ∀ (l : List Nat) (u : State), (l.foldl State.refill u).fabric = u.fabric := by
    intro l
    induction l with
    | nil => exact fun _ => rfl
    | cons j l ih => exact fun u => (ih _).trans (by unfold State.refill; rw [takeIn_frame])
  have hnotice : ∀ u : State, (u.ctx k).pair.pen = false → u.endNotice k = u := by
    intro u hu
    unfold State.endNotice
    dsimp only
    split
    · rw [if_neg (by rw [hu]; exact Bool.false_ne_true)]
    · rfl
  unfold State.endCtx
  dsimp only
  split
  · rfl
  · refine (hrefill _ _).trans ?_
    rw [hnotice _ (by rw [post_ctx, ctx_setCtx_same]; exact hp)]
    exact post_fabric ..

theorem unreachable_ends (hr : RBody.isReply m.body = false) (hx : (s.ctx m.srcCtx.toNat).state = 2)
    (hp : (s.ctx m.srcCtx.toNat).pair.pen = false) : (s.unreachable m).fabric = s.fabric ∧
      ((s.unreachable m).ctx m.srcCtx.toNat).state = 3 ∧
      ((s.unreachable m).ctx m.srcCtx.toNat).cause = (if RBody.isLine m.body then 0x07 else 0x05) := by
  unfold State.unreachable State.remoteError
  dsimp only
  rw [hr, if_neg Bool.false_ne_true, if_pos hx]
  generalize payload _ = pay
  rw [endCtx_fabric (by rw [post_ctx]; exact hp), post_fabric, endCtx_ctx _ _ _ _ (by rw [post_ctx]; exact hx)]
  refine ⟨rfl, rfl, ?_⟩
  cases RBody.isLine m.body <;> rfl

theorem scaleoutUndeliverable_ends {e : EthFrame} (h : s.fabric.frame? pkg seq = some e) (hm : e.msgs = [m]) (hr : RBody.isReply m.body = false)
    (hx : (s.ctx m.srcCtx.toNat).state = 2) (hp : (s.ctx m.srcCtx.toNat).pair.pen = false) :
    ∃ t, exec (.scaleoutUndeliverable pkg seq) s = .next t ∧ t.fabric.frame? pkg seq = none ∧ (t.ctx m.srcCtx.toNat).state = 3 ∧
      (t.ctx m.srcCtx.toNat).cause = (if RBody.isLine m.body then 0x07 else 0x05) := by
  obtain ⟨hfab, hst, hcause⟩ := unreachable_ends (s := s.setFabric (s.fabric.dropFrame pkg seq)) hr hx hp
  refine ⟨(s.setFabric (s.fabric.dropFrame pkg seq)).unreachable m, ?_, ?_, hst, hcause⟩
  · change execScaleoutUndeliverable pkg seq s = _
    unfold execScaleoutUndeliverable
    rw [h]
    dsimp only
    rw [hm]
    rfl
  · rw [hfab]
    exact frame?_dropFrame ..

end

/-- Settles O57: each step by the lemma of its case above; where nothing waits, a port that changes is as it is put (`changePort_of_idle`). -/
theorem scaleOutUnit : Obligations.ScaleOutUnit := by
  unfold Obligations.ScaleOutUnit
  intro s p pkg seq a st
  refine ⟨fun hp => ⟨fun hr => ⟨⟨_, scaleoutStageTransmitKey_stages hp, ?_⟩, ⟨_, scaleoutStageReceiveKey_stages hp, ?_⟩⟩,
      fun key hr => ⟨fun ⟨hq, he, hb⟩ => scaleoutStageTransmitKey_takes hp hr ⟨hq, he, hb⟩, ⟨_, scaleoutStageReceiveKey_stages hp, ?_⟩⟩,
      fun ⟨hq, he, hb⟩ => scaleoutPortStateChange_changes hp ⟨hq, he, hb⟩⟩,
    fun ⟨hq, he, hb⟩ => scaleoutPortHeld_holds ⟨hq, he, hb⟩, scaleoutPortHeld_idle, fun m => scaleoutFrameReceive_delivers,
    fun ms => scaleoutFrameReceive_other, ⟨_, rfl, frame?_dropFrame .., fun e he hne => mem_dropFrame he hne, rfl⟩, frameOut_frame s.fabric p,
    fun e h => ⟨scaleoutRetransmit_sends h, scaleoutRetransmit_idle h, fun m hm => scaleoutUndeliverable_ends h hm⟩⟩
  · dsimp only
    rw [stagePortKey_unread hr]
    exact ⟨rfl, rfl⟩
  · dsimp only
    rw [stagePortKey_unread hr]
    exact ⟨rfl, rfl⟩
  · dsimp only
    rw [stagePortKey_receive hr]
    exact ⟨rfl, rfl⟩

end Sys2Proof.Laws
end

section
/-!
SUPPORT. Debug commands and the writes of `DDATA` (R364–R366).
-/

namespace Sys2Proof.Laws
open Sys2Proof.Machine

/-! ### A 64-bit word of a wide register (R366) -/

section
variable {m : Nat} (x : BitVec m) (k : Nat) (v : Word)

theorem getLsbD_putWord64 {b : Nat} (hb : b < m) : (putWord64 x k v).getLsbD b =
    if 64 * k ≤ b ∧ b < 64 * k + 64 then v.getLsbD (b - 64 * k) else x.getLsbD b := by
  have hones : ∀ i, (0xFFFFFFFFFFFFFFFF#64 : Word).getLsbD i = decide (i < 64) := fun i => by
    rw [show (0xFFFFFFFFFFFFFFFF#64 : Word) = BitVec.allOnes 64 by decide, BitVec.getLsbD_allOnes]
  unfold putWord64
  simp only [BitVec.getLsbD_or, BitVec.getLsbD_and, BitVec.getLsbD_not, BitVec.getLsbD_shiftLeft, BitVec.getLsbD_setWidth, hones]
  by_cases hlo : 64 * k ≤ b
  · by_cases hhi : b < 64 * k + 64
    · have hin : b - 64 * k < 64 := by omega
      have hm : b - 64 * k < m := by omega
      simp [hb, hlo, hhi, hin, hm, Nat.not_lt.2 hlo]
    · have hout : ¬ b - 64 * k < 64 := by omega
      have hnone : v.getLsbD (b - 64 * k) = false := BitVec.getLsbD_of_ge _ _ (by omega)
      simp [hhi, hout, hb, hnone]
  · simp [hb, hlo, Nat.lt_of_not_le hlo]

theorem word_putWord64_same (hk : 64 * k + 64 ≤ m) : (putWord64 x k v).extractLsb' (64 * k) 64 = v := by
  refine BitVec.eq_of_getLsbD_eq fun i hi => ?_
  rw [BitVec.getLsbD_extractLsb', getLsbD_putWord64 x k v (by omega), if_pos (by omega), Nat.add_sub_cancel_left]
  simp [hi]

theorem word_putWord64_ne {j : Nat} (hj : 64 * j + 64 ≤ m) (hne : j ≠ k) :
    (putWord64 x k v).extractLsb' (64 * j) 64 = x.extractLsb' (64 * j) 64 := by
  refine BitVec.eq_of_getLsbD_eq fun i hi => ?_
  rw [BitVec.getLsbD_extractLsb', BitVec.getLsbD_extractLsb', getLsbD_putWord64 x k v (by omega), if_neg (by omega)]

end

section
variable {s : State} {n : Nat} {v : Word}

/-! ### The commands (R365, R366) -/

theorem debugHaltCommand_running (h : (s.core n).dbg.halted = false) :
    exec (.debugHaltCommand n) s = .next (s.setCore n { s.core n with dbg := { (s.core n).dbg with haltReq := true } }) :=
  congrArg Host.Outcome.next (if_neg (by rw [h]; exact Bool.false_ne_true))
theorem debugHaltCommand_halted (h : (s.core n).dbg.halted = true) : exec (.debugHaltCommand n) s = .next s :=
  congrArg Host.Outcome.next (if_pos h)
theorem debugResume_running (h : (s.core n).dbg.halted = false) : exec (.debugResume n) s = .next s :=
  congrArg Host.Outcome.next (if_neg (by rw [h]; exact Bool.false_ne_true))
theorem debugStep_running (h : (s.core n).dbg.halted = false) : exec (.debugStep n) s = .next s :=
  congrArg Host.Outcome.next (if_neg (by rw [h]; exact Bool.false_ne_true))
theorem debugDrain_running (h : (s.core n).dbg.halted = false) : exec (.debugDrain n) s = .next s :=
  congrArg Host.Outcome.next (if_neg (by rw [h]; exact Bool.false_ne_true))
theorem debugDrain_halted (h : (s.core n).dbg.halted = true) :
    exec (.debugDrain n) s = .next (s.setCore n { s.core n with dbg := { (s.core n).dbg with draining := true } }) :=
  congrArg Host.Outcome.next (if_pos h)

theorem setDebug_core (s : State) (n : Nat) (d : Debug) : (s.setDebug n d).core n = { s.core n with dbg := d } := core_setCore_same ..

theorem debugResume_resumes (h : (s.core n).dbg.halted = true) : ∃ t, exec (.debugResume n) s = .next t ∧
    t.core n = { s.core n with dbg := { (s.core n).dbg with halted := false } } ∧ t.mem = s.mem :=
  ⟨_, congrArg Host.Outcome.next (if_pos h), setDebug_core s n _, rfl⟩

theorem debugStep_resumes (h : (s.core n).dbg.halted = true) : ∃ t, exec (.debugStep n) s = .next t ∧
    t.core n = { s.core n with dbg := { (s.core n).dbg with halted := false, stepping := true, issued := false } } :=
  ⟨_, congrArg Host.Outcome.next (if_pos h), setDebug_core s n _⟩

theorem debugDrainComplete_done (hd : (s.core n).dbg.draining = true) (hl : ∀ l ∈ (s.core n).lanes, l.2.mq = [] ∧ l.2.cq = [])
    (hc : (s.core n).copyq = []) (hs : (s.core n).sampq = []) (hg : (s.core n).long = []) :
    exec (.debugDrainComplete n) s = .next (s.setCore n { s.core n with dbg := { (s.core n).dbg with draining := false } }) := by
  refine congrArg Host.Outcome.next (if_pos ⟨hd, ?_⟩)
  have hlanes : (s.core n).lanes.all (fun l => l.2.mq.isEmpty && l.2.cq.isEmpty) = true :=
    List.all_eq_true.2 fun l hm => by obtain ⟨hmq, hcq⟩ := hl l hm; simp [hmq, hcq]
  simp [Core.drained, hlanes, hc, hs, hg]

/-! ### `DDATA` is written, or the write is refused (R366) -/

/-- The write to `DDATA` is refused. -/
def DdataRefused (s : State) (n : Nat) (v : Word) : Prop :=
  exec (.ddataWrite n v) s = .next (s.setCore n { s.core n with dbg := { (s.core n).dbg with refused := true } })

/-- The write to `DDATA` makes core `n` the core `c`. -/
def DdataSets (s : State) (n : Nat) (v : Word) (c : Core) : Prop :=
  ∃ t, exec (.ddataWrite n v) s = .next t ∧ t.core n = { c with dbg := { c.dbg with refused := false } }

theorem ddataWrite_running (h : (s.core n).dbg.halted = false) : DdataRefused s n v := if_pos (by simp [h])

variable (hd : (s.core n).dbg.halted = true)
include hd

theorem ddataWrite_refused (h : s.ddataCore n (s.core n).dbg.cls (s.core n).dbg.num (s.core n).dbg.word v = none) : DdataRefused s n v := by
  have he : exec (.ddataWrite n v) s = execDdataWrite n v s := rfl
  unfold execDdataWrite at he
  dsimp only at he
  rw [if_neg (by simp [hd]), h] at he
  exact he

theorem ddataWrite_sets {c : Core} (h : s.ddataCore n (s.core n).dbg.cls (s.core n).dbg.num (s.core n).dbg.word v = some (s.setCore n c)) :
    DdataSets s n v c := by
  have he : exec (.ddataWrite n v) s = execDdataWrite n v s := rfl
  unfold execDdataWrite at he
  dsimp only at he
  rw [if_neg (by simp [hd]), h] at he
  dsimp only at he
  rw [core_setCore_same] at he
  refine ⟨_, he, ?_⟩
  rw [setDebug_core, core_setCore_same]

end

/-! ### Registers of a frame -/

theorem awaits_single {f : Frame} {r : Reg} : f.awaits [r] = true ↔ r ∈ f.await := by simp [Frame.awaits]
theorem awaits_single_false {f : Frame} {r : Reg} : f.awaits [r] = false ↔ r ∉ f.await := by
  rw [← awaits_single, Bool.not_eq_true]

/-- The frame after a write to one of its general registers, whose pending writes are discarded. -/
def putG (r : GReg) (v : Word) (f : Frame) : Frame := (f.unpend (.g r)).setG r v
def putP (r : PReg) (v : Bool) (f : Frame) : Frame := (f.unpend (.p r)).setP r v
def putA (r : AReg) (v : BitVec 32) (f : Frame) : Frame := (f.unpend (.a r)).setA r v

theorem putG_get (r : GReg) (v : Word) (f : Frame) : (putG r v f).getG r = if r = 0 then 0 else v := by
  by_cases hr : r = 0
  · rw [if_pos hr, hr]
    rfl
  · rw [if_neg hr]
    exact getG_setG_same _ v hr

theorem putG_other {r k : GReg} (v : Word) (f : Frame) (hk : k ≠ r) : (putG r v f).getG k = f.getG k := getG_setG_ne _ v hk
theorem putG_pc (r : GReg) (v : Word) (f : Frame) : (putG r v f).pc = f.pc := setG_pc ..
theorem putG_uid (r : GReg) (v : Word) (f : Frame) : (putG r v f).uid = f.uid := setG_uid ..
theorem putG_pend {r : GReg} {v : Word} {f : Frame} {e : Pend} (he : e ∈ (putG r v f).pend) : e.reg ≠ .g r := by
  have hm : e ∈ (f.unpend (.g r)).pend := by
    rw [putG, setG_pend] at he
    exact he
  simpa using (List.mem_filter.1 hm).2

theorem putP_get (r : PReg) (v : Bool) (f : Frame) : (putP r v f).getP r = if r = 0 then true else v := by
  by_cases hr : r = 0
  · rw [if_pos hr, hr]
    rfl
  · rw [if_neg hr]
    exact getP_setP_same _ v hr
theorem putP_other {r k : PReg} (v : Bool) (f : Frame) (hk : k ≠ r) : (putP r v f).getP k = f.getP k := getP_setP_ne _ v hk
theorem putP_keeps (r : PReg) (v : Bool) (f : Frame) : (putP r v f).uid = f.uid ∧ (putP r v f).g = f.g := by
  unfold putP Frame.setP
  split <;> exact ⟨rfl, rfl⟩

theorem ofNat_eq_zero_iff {w k : Nat} (hk : k < 2 ^ w) : BitVec.ofNat w k = 0#w ↔ k = 0 := by
  rw [← BitVec.toNat_inj, BitVec.toNat_ofNat, BitVec.toNat_ofNat, Nat.mod_eq_of_lt hk, Nat.zero_mod]

section
variable {s : State} {n k word : Nat} {v : Word} {f : Frame} (hsel : (s.core n).selFrame? = some f)
include hsel

theorem ddataCore_frame {cl : Nat} (hcl : cl = 0 ∨ cl = 1 ∨ cl = 2 ∨ cl = 6) : s.ddataCore n cl k word v = s.ddataFrame n f cl k v := by
  unfold State.ddataCore
  rcases hcl with rfl | rfl | rfl | rfl <;> simp only [hsel]

theorem ddataCore_awaited_g (hk : k < 32) (ha : Reg.g (BitVec.ofNat 5 k) ∈ f.await) : s.ddataCore n 0 k word v = none := by
  rw [ddataCore_frame hsel (.inl rfl)]
  exact (if_neg (Nat.not_le.2 hk)).trans (if_pos (awaits_single.2 ha))

theorem ddataCore_g (hwin : f.window = .resident) (hk : k < 32) (ha : Reg.g (BitVec.ofNat 5 k) ∉ f.await) :
    s.ddataCore n 0 k word v = some (s.setCore n ((s.core n).onFrame f.uid (putG (BitVec.ofNat 5 k) v))) := by
  rw [ddataCore_frame hsel (.inl rfl)]
  refine (if_neg (Nat.not_le.2 hk)).trans ((if_neg (Bool.not_eq_true _ ▸ awaits_single_false.2 ha)).trans (congrArg some ?_))
  unfold State.onWindow
  rw [hwin]
  rfl

theorem ddataCore_awaited_p (hk : k < 8) (ha : Reg.p (BitVec.ofNat 3 k) ∈ f.await) : s.ddataCore n 1 k word v = none := by
  rw [ddataCore_frame hsel (.inr (.inl rfl))]
  exact (if_neg (Nat.not_le.2 hk)).trans (if_pos (awaits_single.2 ha))

theorem ddataCore_p (hk : k < 8) (ha : Reg.p (BitVec.ofNat 3 k) ∉ f.await) :
    s.ddataCore n 1 k word v = some (s.setCore n ((s.core n).onFrame f.uid (putP (BitVec.ofNat 3 k) (v.getLsbD 0)))) := by
  rw [ddataCore_frame hsel (.inr (.inl rfl))]
  exact (if_neg (Nat.not_le.2 hk)).trans (if_neg (Bool.not_eq_true _ ▸ awaits_single_false.2 ha))

theorem ddataCore_awaited_a (hk : k < 8) (ha : Reg.a (BitVec.ofNat 3 k) ∈ f.await) : s.ddataCore n 2 k word v = none := by
  rw [ddataCore_frame hsel (.inr (.inr (.inl rfl)))]
  exact (if_neg (Nat.not_le.2 hk)).trans (if_pos (awaits_single.2 ha))

theorem ddataCore_a (hwin : f.window = .resident) (hk : k < 8) (ha : Reg.a (BitVec.ofNat 3 k) ∉ f.await) :
    s.ddataCore n 2 k word v = some (s.setCore n ((s.core n).onFrame f.uid (putA (BitVec.ofNat 3 k) (v.setWidth 32)))) := by
  rw [ddataCore_frame hsel (.inr (.inr (.inl rfl)))]
  refine (if_neg (Nat.not_le.2 hk)).trans ((if_neg (Bool.not_eq_true _ ▸ awaits_single_false.2 ha)).trans (congrArg some ?_))
  unfold State.onWindow
  rw [hwin]
  rfl

/-- The frame with another program counter. -/
def atPc (v : Word) (f : Frame) : Frame := { f with pc := v, brkHalted := false }

theorem ddataCore_pc : s.ddataCore n 6 k word v = some (s.setCore n ((s.core n).onFrame f.uid (atPc v))) := by
  rw [ddataCore_frame hsel (.inr (.inr (.inr rfl)))]
  rfl

theorem ddataCore_csr_frame (hk : csrWritable k = true) (hc : (s.core n).csrWrite k v = s.core n) :
    s.ddataCore n 5 k word v = some (s.setCore n ((s.core n).onFrame f.uid (fun f => f.csrWrite k v))) := by
  unfold State.ddataCore
  simp only [hk, hc, hsel, Bool.not_true, Bool.false_eq_true, if_false]

end

/-! ### Registers of a core -/

section
variable {s : State} {n k word : Nat} {v : Word}

theorem ddataCore_csr_refused (h : csrWritable k = false) : s.ddataCore n 5 k word v = none := by
  unfold State.ddataCore
  simp only [h, Bool.not_false, if_true]

theorem onFrame_of_keeps {c : Core} {u : Nat} {r : Frame → Frame} (h : ∀ f, r f = f) : c.onFrame u r = c := by
  unfold Core.onFrame
  simp [h]

theorem ddataCore_csr_core (hk : csrWritable k = true) (hf : ∀ f : Frame, f.csrWrite k v = f) :
    s.ddataCore n 5 k word v = some (s.setCore n ((s.core n).csrWrite k v)) := by
  unfold State.ddataCore
  simp only [hk, Bool.not_true, Bool.false_eq_true, if_false]
  cases (s.core n).selFrame? with
  | none => rfl
  | some f =>
    dsimp only
    rw [onFrame_of_keeps (r := fun f => f.csrWrite k v) hf]

theorem ddataCore_w (hk : k < 16) (ha : ∀ f ∈ (s.core n).frames, Reg.w (BitVec.ofNat 4 k) ∉ f.await)
    (hl : (s.core n).wLocked (BitVec.ofNat 4 k) = false) : s.ddataCore n 4 k word v =
      some (s.setCore n ((s.core n).setW (BitVec.ofNat 4 k) (putWord64 ((s.core n).getW (BitVec.ofNat 4 k)) word v))) := by
  have hany : (s.core n).frames.any (fun f => f.awaits [.w (BitVec.ofNat 4 k)]) = false :=
    List.any_eq_false.2 fun f hm => Bool.not_eq_true _ ▸ awaits_single_false.2 (ha f hm)
  unfold State.ddataCore
  simp only [hany, hl, Nat.not_le.2 hk, Bool.or_self, Bool.false_eq_true, if_false]

theorem ddataCore_v_busy (hk : k < 64) (hm : ((s.core n).lane (k / 16)).mq ≠ []) : s.ddataCore n 3 k word v = none := by
  have he : ((s.core n).lane (k / 16)).mq.isEmpty = false := List.isEmpty_eq_false_iff.2 hm
  unfold State.ddataCore
  simp only [he, Nat.not_le.2 hk, Bool.not_false, Bool.or_true, if_true, if_false]

/-- The core without the pending writes of a vector register of a lane. -/
def unpendLane (c : Core) (l : Nat) (r : VReg) : Core :=
  { c with frames := c.frames.map (fun f => if f.lane = l then f.unpend (.v r) else f) }

theorem ddataCore_v (hk : k < 64) (hm : ((s.core n).lane (k / 16)).mq = [])
    (ha : ∀ f ∈ (s.core n).frames, f.lane = k / 16 → Reg.v (BitVec.ofNat 4 k) ∉ f.await) : s.ddataCore n 3 k word v =
      some (s.setCore n ((unpendLane (s.core n) (k / 16) (BitVec.ofNat 4 k)).setV (k / 16) (BitVec.ofNat 4 k)
        (putWord64 ((s.core n).getV (k / 16) (BitVec.ofNat 4 k)) word v))) := by
  have hany : (s.core n).frames.any (fun f => f.lane == k / 16 && f.awaits [.v (BitVec.ofNat 4 k)]) = false := by
    rw [List.any_eq_false]
    intro f hm hboth
    rw [Bool.and_eq_true, beq_iff_eq] at hboth
    exact ha f hm hboth.1 (awaits_single.1 hboth.2)
  have hfree : (s.core n).vLocked (k / 16) (BitVec.ofNat 4 k) = false := by rw [Core.vLocked, hm, List.any_nil]
  unfold State.ddataCore unpendLane
  simp only [hany, hfree, hm, Nat.not_le.2 hk, List.isEmpty_nil, Bool.not_true, Bool.or_self, Bool.false_eq_true, if_false]

theorem ddataCore_acc_busy (hk : k < 128) (hm : ((s.core n).lane (k / 32)).mq ≠ []) : s.ddataCore n 7 k word v = none := by
  have he : ((s.core n).lane (k / 32)).mq.isEmpty = false := List.isEmpty_eq_false_iff.2 hm
  unfold State.ddataCore
  simp only [he, Nat.not_le.2 hk, Bool.not_false, if_true, if_false]

theorem ddataCore_acc (hk : k < 128) (hm : ((s.core n).lane (k / 32)).mq = []) : s.ddataCore n 7 k word v =
    some (s.setCore n ((s.core n).setLane (k / 32) { (s.core n).lane (k / 32) with
      acc := fset 0 ((s.core n).lane (k / 32)).acc (k % 32) (putWord64 (fget 0 ((s.core n).lane (k / 32)).acc (k % 32)) word v) })) := by
  unfold State.ddataCore
  simp only [hm, Nat.not_le.2 hk, List.isEmpty_nil, Bool.not_true, Bool.false_eq_true, if_false]

end

theorem csrWritable_iff {k : Nat} : csrWritable k = true ↔
    k = 0x009 ∨ k = 0x041 ∨ (0x048 ≤ k ∧ k < 0x050) ∨ k = 0x080 ∨ (0x088 ≤ k ∧ k < 0x08D) := by
  unfold csrWritable
  rw [Bool.or_eq_true, csrPriv_iff, beq_iff_eq]

/-- The frame after a write of one of its control registers. -/
theorem csrWrite_frame {k : Nat} {v : Word} {f g : Frame} (h : k = 0x009 ∧ g = { f with schk := v.getLsbD 0 } ∨ k = 0x041 ∧ g = { f with tpc := v } ∨
    ∃ j, j < 8 ∧ k = 0x048 + j ∧ g = { f with tsave := fset 0 f.tsave j v }) :
    csrWritable k = true ∧ f.csrWrite k v = g ∧ g.uid = f.uid ∧ ∀ c : Core, c.csrWrite k v = c := by
  rcases h with ⟨rfl, rfl⟩ | ⟨rfl, rfl⟩ | ⟨j, hj, rfl, rfl⟩
  · exact ⟨rfl, rfl, rfl, fun _ => rfl⟩
  · exact ⟨rfl, rfl, rfl, fun _ => rfl⟩
  · exact ⟨csrWritable_iff.2 (.inr (.inr (.inl ⟨by omega, by omega⟩))), frameCsrWrite_tsave hj, rfl,
      fun c => coreCsrWrite_other (by omega) (by omega)⟩

end Sys2Proof.Laws
end

section
/-!
SUPPORT. Halts at an instruction boundary (R349, R365), and the debug steps together.
-/

namespace Sys2Proof.Laws
open Sys2Proof.Machine

/-! ### The comparators (R365) -/

/-- What the comparators of a list do at an arrival. -/
def matchFrom (f : Frame) (ks : List Nat) (r : Debug × Bool) : Debug × Bool :=
  ks.foldl (fun (r : Debug × Bool) k =>
    if r.1.compares k f then
      (if (fget 0 r.1.dbc k).extractLsb' 0 16 = 0 then (r.1, true)
        else ({ r.1 with dbc := fset 0 r.1.dbc k (fget 0 r.1.dbc k - 1) }, r.2))
    else r) r

/-- Whether a comparator's count is used up. -/
abbrev countZero (d : Debug) (k : Nat) : Prop := (fget 0 d.dbc k).extractLsb' 0 16 = 0

/-- Nothing of a debug block but counts has changed. -/
def SameButCounts (d e : Debug) : Prop := ∃ m, e = { d with dbc := m }

theorem compares_of_count {d : Debug} {f : Frame} {k j : Nat} {v : Word} (h : j ≠ k) :
    ({ d with dbc := fset 0 d.dbc k v } : Debug).compares j f = d.compares j f := by
  unfold Debug.compares
  dsimp only
  rw [fget_fset_ne _ _ _ h]

theorem matchFrom_spec (f : Frame) : ∀ (ks : List Nat), ks.Nodup → ∀ r : Debug × Bool,
    SameButCounts r.1 (matchFrom f ks r).1 ∧
    ((matchFrom f ks r).2 = true ↔ r.2 = true ∨ ∃ k ∈ ks, r.1.compares k f = true ∧ countZero r.1 k) ∧
    ∀ k, fget 0 (matchFrom f ks r).1.dbc k =
      if k ∈ ks ∧ r.1.compares k f = true ∧ ¬ countZero r.1 k then fget 0 r.1.dbc k - 1 else fget 0 r.1.dbc k
  | [], _, r => ⟨⟨_, rfl⟩, by simp [matchFrom], fun k => by simp [matchFrom]⟩
  | j :: ks, hnd, r => by
    obtain ⟨hj, hnd⟩ := List.nodup_cons.1 hnd
    have hstep : matchFrom f (j :: ks) r = matchFrom f ks (matchFrom f [j] r) := rfl
    by_cases hc : r.1.compares j f = true
    · by_cases hz : countZero r.1 j
      · have he : matchFrom f [j] r = (r.1, true) := (if_pos hc).trans (if_pos hz)
        rw [hstep, he]
        obtain ⟨hsame, hmatch, hcount⟩ := matchFrom_spec f ks hnd (r.1, true)
        refine ⟨hsame, hmatch.trans ⟨fun _ => .inr ⟨j, List.mem_cons_self, hc, hz⟩, fun _ => .inl rfl⟩, fun k => (hcount k).trans ?_⟩
        by_cases hk : k = j
        · subst hk
          rw [if_neg fun h => hj h.1, if_neg fun h => h.2.2 hz]
        · simp [hk]
      · have he : matchFrom f [j] r = ({ r.1 with dbc := fset 0 r.1.dbc j (fget 0 r.1.dbc j - 1) }, r.2) := (if_pos hc).trans (if_neg hz)
        rw [hstep, he]
        obtain ⟨⟨m, hm⟩, hmatch, hcount⟩ := matchFrom_spec f ks hnd ({ r.1 with dbc := fset 0 r.1.dbc j (fget 0 r.1.dbc j - 1) }, r.2)
        have hother (k : Nat) (hk : k ≠ j) :
            countZero { r.1 with dbc := fset 0 r.1.dbc j (fget 0 r.1.dbc j - 1) } k ↔ countZero r.1 k := by
          unfold countZero
          dsimp only
          rw [fget_fset_ne _ _ _ hk]
        refine ⟨⟨m, hm⟩, hmatch.trans (or_congr_right ⟨?_, ?_⟩), fun k => (hcount k).trans ?_⟩
        · rintro ⟨k, hk, hck, hzk⟩
          have hne : k ≠ j := fun h => hj (h ▸ hk)
          exact ⟨k, List.mem_cons_of_mem _ hk, compares_of_count hne ▸ hck, (hother k hne).1 hzk⟩
        · rintro ⟨k, hk, hck, hzk⟩
          have hne : k ≠ j := fun h => hz (h ▸ hzk)
          exact ⟨k, (List.mem_cons.1 hk).resolve_left hne, (compares_of_count hne).trans hck, (hother k hne).2 hzk⟩
        · by_cases hk : k = j
          · subst hk
            simp [hj, hc, hz, fget_fset_same]
          · simp only [hother k hk, compares_of_count hk, fget_fset_ne _ _ _ hk, List.mem_cons, hk, false_or]
    · have he : matchFrom f [j] r = r := if_neg hc
      rw [hstep, he]
      obtain ⟨hsame, hmatch, hcount⟩ := matchFrom_spec f ks hnd r
      refine ⟨hsame, hmatch.trans (or_congr_right ⟨?_, ?_⟩), fun k => (hcount k).trans ?_⟩
      · rintro ⟨k, hk, h⟩
        exact ⟨k, List.mem_cons_of_mem _ hk, h⟩
      · rintro ⟨k, hk, hck, h⟩
        exact ⟨k, (List.mem_cons.1 hk).resolve_left fun h => hc (h ▸ hck), hck, h⟩
      · by_cases hk : k = j
        · subst hk
          simp [hc]
        · simp [hk]

/-- The matches of a frame at its boundary: those of an arrival, or none. -/
def arrivalMatch (d : Debug) (f : Frame) : Debug × Bool := if f.arrived then d.matched f else (d, false)

/-- Whether a comparator matches the arrival of a frame. -/
def comparatorHit (d : Debug) (f : Frame) (k : Nat) : Prop := f.arrived = true ∧ d.compares k f = true

theorem arrivalMatch_spec (d : Debug) (f : Frame) : SameButCounts d (arrivalMatch d f).1 ∧
    ((arrivalMatch d f).2 = true ↔ ∃ k, k < 4 ∧ comparatorHit d f k ∧ countZero d k) ∧
    ∀ k, k < 4 → (¬ (comparatorHit d f k ∧ ¬ countZero d k) → fget 0 (arrivalMatch d f).1.dbc k = fget 0 d.dbc k) ∧
      (comparatorHit d f k → ¬ countZero d k → fget 0 (arrivalMatch d f).1.dbc k = fget 0 d.dbc k - 1) := by
  unfold arrivalMatch comparatorHit
  by_cases ha : f.arrived = true
  · rw [if_pos ha]
    obtain ⟨hsame, hmatch, hcount⟩ := matchFrom_spec f (List.range 4) List.nodup_range (d, false)
    refine ⟨hsame, hmatch.trans ?_, fun k hk => ⟨fun hn => (hcount k).trans (if_neg ?_), fun hh hz => (hcount k).trans (if_pos ?_)⟩⟩
    · simp [ha]
    · exact fun ⟨_, hc, hz⟩ => hn ⟨⟨ha, hc⟩, hz⟩
    · exact ⟨List.mem_range.2 hk, hh.2, hz⟩
  · rw [if_neg ha]
    exact ⟨⟨_, rfl⟩, by simp [ha], fun k hk => ⟨fun _ => rfl, fun hh => absurd hh.1 ha⟩⟩

/-! ### The boundary (R349) -/

section
variable {s : State} {n : Nat}

/-- A core that halts for a reason, before its offer goes back. -/
def haltingCore (c : Core) (reason : Nat) : Core :=
  { c with passed := false, dbg := { c.dbg with halted := true, reason := BitVec.ofNat 3 reason, haltReq := false, stepping := false } }

theorem haltCore_posts (s : State) (n r : Nat) : ∃ pay, s.haltCore n r =
    (((s.setCore n (haltingCore (s.core n) r)).post n (s.core n).ctx 0x0F pay).returnOffer n).offers (clusterOf n) := ⟨_, rfl⟩

theorem post_core (s : State) (src : Nat) (ctx : Option Nat) (code : Nat) (pay : List Byte) (j : Nat) :
    (s.post src ctx code pay).core j = s.core j := by
  unfold State.core
  rw [post_frame]

theorem haltCore_halts (s : State) (n r : Nat) : (s.haltCore n r).core n = { haltingCore (s.core n) r with offer := none } ∧
    (s.haltCore n r).mem = s.mem ∧ fget 0 (s.haltCore n r).events.sseq n = fget 0 s.events.sseq n + 1 := by
  obtain ⟨pay, he⟩ := haltCore_posts s n r
  generalize haltingCore (s.core n) r = c at he
  have hcore := returnOffer_core ((s.setCore n c).post n (s.core n).ctx 0x0F pay) n
  rw [post_core, core_setCore_same] at hcore
  rw [he]
  exact ⟨hcore, (post_beside (s.setCore n c) n (s.core n).ctx 0x0F pay).mem, post_sseq (s.setCore n c) n (s.core n).ctx 0x0F pay⟩

theorem pass_of_halted (h : (s.core n).dbg.halted = true) : s.pass n = s := by
  unfold State.pass
  dsimp only
  rw [if_pos h]
  refine if_neg ?_
  unfold State.mayIssue
  dsimp only
  split
  · exact Bool.false_ne_true
  · rw [h]
    exact Bool.false_ne_true

section
variable (hp : (s.core n).passed = false) (hr : ∀ q ∈ (s.core n).reqs, q.inside = false) (hc : (s.core n).crossed = [])
  (hd : (s.core n).dbg.halted = false) (hx : ∀ k, (s.core n).ctx = some k → (s.ctx k).tearing = false) (ho : s.offered n = none)
include hp hr hc hd hx ho

/-- A boundary at which no trap, no abort and no admission is due: the core may halt, and the rest is `pass`. -/
theorem boundary_halts (hf : (s.takeDeferred n).enterDue n = s) : exec (.instructionBoundary n) s = .next ((s.haltStep n).pass n) := by
  have hopen : ((s.core n).passed || (s.core n).reqs.any (fun q => q.inside) || !(s.core n).crossed.isEmpty) = false := by
    have hany : (s.core n).reqs.any (fun q => q.inside) = false := List.any_eq_false.2 fun q hq => by simp [hr q hq]
    rw [hp, hany, hc]
    rfl
  have htear : s.tearCore n = s := by
    unfold State.tearCore
    cases hk : (s.core n).ctx with
    | none => rfl
    | some k => exact if_neg (by rw [hx k hk]; exact Bool.false_ne_true)
  have hadmit : s.admitStep n = (s, true) := by unfold State.admitStep; rw [ho]
  have he : exec (.instructionBoundary n) s = execInstructionBoundary n s := rfl
  unfold execInstructionBoundary at he
  dsimp only at he
  rw [hopen, htear, hd, hf, hadmit] at he
  exact he

omit hp hr hc hd hx ho in
theorem enterDue_empty (hf : (s.core n).frames = []) : (s.takeDeferred n).enterDue n = s := by
  have ht : s.takeDeferred n = s := by
    unfold State.takeDeferred Core.top?
    rw [hf]
    rfl
  rw [ht]
  unfold State.enterDue
  dsimp only
  exact if_pos (by rw [hf]; rfl)

end

theorem enterDue_clear {f : Frame} {fs : List Frame} (hf : (s.core n).frames = f :: fs) (hdef : f.deferred = false)
    (ht : (s.core n).trapDue = []) : (s.takeDeferred n).enterDue n = s := by
  have he : s.takeDeferred n = s := by
    unfold State.takeDeferred Core.top?
    rw [hf]
    exact if_neg (by rw [hdef]; exact Bool.false_ne_true)
  rw [he]
  unfold State.enterDue
  dsimp only
  exact if_pos (by rw [ht, List.isEmpty_nil, Bool.or_true])

theorem haltStep_empty (hf : (s.core n).frames = []) (hreq : (s.core n).dbg.haltReq = true) : s.haltStep n = s.haltCore n 0 := by
  have hr : haltReason (s.core n).dbg false false = some 0 := if_pos hreq
  unfold State.haltStep
  dsimp only
  rw [hf]
  dsimp only
  rw [hr]

/-- The core at its boundary, with the counts of its comparators. -/
def boundaryCore (c : Core) (d : Debug) (f : Frame) (fs : List Frame) : Core := { c with dbg := d, frames := f :: fs }

/-- The frame that a core halts at. -/
def haltedFrame (s : State) (n : Nat) (f : Frame) : Frame := { f with arrived := false, brkHalted := s.brkNext n f }

theorem haltReason_counts {d e : Debug} (h : SameButCounts d e) (b c : Bool) : haltReason e b c = haltReason d b c := by
  obtain ⟨m, rfl⟩ := h
  rfl

section
variable {f : Frame} {fs : List Frame} (hf : (s.core n).frames = f :: fs)
include hf

theorem haltStep_frame : s.haltStep n =
    (match haltReason (s.core n).dbg (s.brkNext n f && !f.brkHalted) (arrivalMatch (s.core n).dbg f).2 with
    | some r => (s.setCore n (boundaryCore (s.core n) (arrivalMatch (s.core n).dbg f).1 (haltedFrame s n f) fs)).haltCore n r
    | none => s.setCore n (boundaryCore (s.core n) (arrivalMatch (s.core n).dbg f).1 { f with arrived := false } fs)) := by
  rw [← haltReason_counts (arrivalMatch_spec (s.core n).dbg f).1]
  unfold State.haltStep
  dsimp only
  rw [hf]
  rfl

end

/-- The core halts at its boundary for a reason, with frames `fs` (R365). -/
def HaltsAt (s : State) (n : Nat) (reason : BitVec 3) (fs : List Frame) : Prop :=
  ∃ t, (exec (.instructionBoundary n) s = .next t ∧ (t.core n).dbg.halted = true ∧ (t.core n).dbg.reason = reason ∧
    (t.core n).dbg.haltReq = false ∧ (t.core n).dbg.stepping = false ∧ (t.core n).passed = false ∧ t.mem = s.mem ∧
    fget 0 t.events.sseq n = fget 0 s.events.sseq n + 1) ∧ (t.core n).frames = fs

theorem haltsAt_of_haltCore {u : State} {r : Nat} (hm : u.mem = s.mem) (hv : u.events = s.events)
    (he : exec (.instructionBoundary n) s = .next ((u.haltCore n r).pass n)) : HaltsAt s n (BitVec.ofNat 3 r) (u.core n).frames := by
  obtain ⟨hcore, hmem, hseq⟩ := haltCore_halts u n r
  rw [hv] at hseq
  rw [pass_of_halted (by rw [hcore]; rfl)] at he
  refine ⟨_, ⟨he, ?_, ?_, ?_, ?_, ?_, hmem.trans hm, hseq⟩, ?_⟩ <;> rw [hcore] <;> rfl

/-- The end of a boundary leaves the debug block. -/
theorem pass_debug (s : State) (n : Nat) : ((s.pass n).core n).dbg = (s.core n).dbg := by
  have hfree : ∀ (u : State) (f : Frame), ((u.freeWindow n f).core n).dbg = (u.core n).dbg := by
    intro u f
    unfold State.freeWindow
    dsimp only
    cases f.window with
    | resident => rfl
    | carve off =>
      dsimp only
      rw [core_setCore_same]
      rfl
    | main pa =>
      dsimp only
      split
      · rw [endCtx_core]
      · rw [core_setCore_same]
  have hput : ∀ (c : Core) (f : Frame), c.dbg = (s.core n).dbg → (((s.setCore n c).freeWindow n f).core n).dbg = (s.core n).dbg :=
    fun c f hc => (hfree _ f).trans ((congrArg Core.dbg (core_setCore_same s n c)).trans hc)
  have hfill : ((s.fillTop n).core n).dbg = (s.core n).dbg := by
    unfold State.fillTop
    dsimp only
    cases (s.core n).frames with
    | nil => rfl
    | cons f fs =>
      dsimp only
      cases f.window with
      | resident => rfl
      | carve off => exact hput _ f rfl
      | main pa =>
        dsimp only
        split
        · rw [endCtx_core]
        · exact hput _ f rfl
  have hlast : ∀ u : State, (u.core n).dbg = (s.core n).dbg → ((if u.mayIssue n then u.setCore n { u.core n with
      passed := true, frames := match (u.core n).frames with
        | [] => []
        | f :: fs => { f with settleWait := none } :: fs } else u).core n).dbg = (s.core n).dbg := by
    intro u hu
    split
    · exact (congrArg Core.dbg (core_setCore_same u n _)).trans hu
    · exact hu
  unfold State.pass
  dsimp only
  split
  · exact hlast s rfl
  · exact hlast (s.fillTop n) hfill

/-- The core passes its boundary, with the debug block `d`. -/
def PassesWith (s : State) (n : Nat) (d : Debug) : Prop := ∃ t, exec (.instructionBoundary n) s = .next t ∧ (t.core n).dbg = d

section
variable (hp : (s.core n).passed = false) (hr : ∀ q ∈ (s.core n).reqs, q.inside = false) (hc : (s.core n).crossed = [])
  (hd : (s.core n).dbg.halted = false) (hx : ∀ k, (s.core n).ctx = some k → (s.ctx k).tearing = false) (ho : s.offered n = none)
include hp hr hc hd hx ho

theorem boundary_empty (hf : (s.core n).frames = []) (hreq : (s.core n).dbg.haltReq = true) : HaltsAt s n 0 [] := by
  have he := boundary_halts hp hr hc hd hx ho (enterDue_empty hf)
  rw [haltStep_empty hf hreq] at he
  rw [← hf]
  exact haltsAt_of_haltCore rfl rfl he

variable {f : Frame} {fs : List Frame} (hf : (s.core n).frames = f :: fs) (hdef : f.deferred = false) (ht : (s.core n).trapDue = [])
include hf hdef ht

theorem boundary_frame_halts {r : Nat}
    (hreason : haltReason (s.core n).dbg (s.brkNext n f && !f.brkHalted) (arrivalMatch (s.core n).dbg f).2 = some r) :
    HaltsAt s n (BitVec.ofNat 3 r) (haltedFrame s n f :: fs) := by
  have he := boundary_halts hp hr hc hd hx ho (enterDue_clear hf hdef ht)
  rw [haltStep_frame hf, hreason] at he
  dsimp only at he
  generalize hb : boundaryCore (s.core n) (arrivalMatch (s.core n).dbg f).1 (haltedFrame s n f) fs = c at he
  have hhalt := haltsAt_of_haltCore (s := s) (u := s.setCore n c) rfl rfl he
  rw [core_setCore_same, ← hb] at hhalt
  exact hhalt

theorem boundary_frame_passes
    (hreason : haltReason (s.core n).dbg (s.brkNext n f && !f.brkHalted) (arrivalMatch (s.core n).dbg f).2 = none) :
    PassesWith s n (arrivalMatch (s.core n).dbg f).1 := by
  have he := boundary_halts hp hr hc hd hx ho (enterDue_clear hf hdef ht)
  rw [haltStep_frame hf, hreason] at he
  exact ⟨_, he, (pass_debug _ n).trans (congrArg Core.dbg (core_setCore_same s n _))⟩

end
end

end Sys2Proof.Laws
end

section
/-!
SUPPORT. The debug steps together (R364–R366): what a write of `DDATA` leaves of each class, the reasons of a halt.
-/

namespace Sys2Proof.Laws
open Sys2Proof.Machine

/-! ### What a write of `DDATA` leaves, class by class (R366) -/

section
variable {s : State} {n : Nat} {v : Word} (hd : (s.core n).dbg.halted = true)
include hd

/-- The selected frame is changed as a function says, and nothing is refused. -/
theorem ddata_frame {f : Frame} (hf : (s.core n).frame? f.uid = some f) {r : Frame → Frame} (hr : (r f).uid = f.uid)
    (h : s.ddataCore n (s.core n).dbg.cls (s.core n).dbg.num (s.core n).dbg.word v = some (s.setCore n ((s.core n).onFrame f.uid r))) :
    ∃ t, exec (.ddataWrite n v) s = .next t ∧ (t.core n).frame? f.uid = some (r f) ∧ (t.core n).dbg.refused = false := by
  obtain ⟨t, he, hc⟩ := ddataWrite_sets hd h
  exact ⟨t, he, by rw [hc]; exact frame?_onFrame hf hr, by rw [hc]⟩

section
variable {f : Frame} (hsel : (s.core n).selFrame? = some f) (hwin : f.window = .resident) (hf : (s.core n).frame? f.uid = some f)
include hsel

theorem ddata_awaited {r : Reg} (ha : r ∈ f.await) (h : (s.core n).dbg.cls = 0 ∧ (s.core n).dbg.num < 32 ∧ r = .g (BitVec.ofNat 5 (s.core n).dbg.num) ∨
    (s.core n).dbg.cls = 1 ∧ (s.core n).dbg.num < 8 ∧ r = .p (BitVec.ofNat 3 (s.core n).dbg.num) ∨
    (s.core n).dbg.cls = 2 ∧ (s.core n).dbg.num < 8 ∧ r = .a (BitVec.ofNat 3 (s.core n).dbg.num)) : DdataRefused s n v := by
  refine ddataWrite_refused hd ?_
  rcases h with ⟨hc, hk, rfl⟩ | ⟨hc, hk, rfl⟩ | ⟨hc, hk, rfl⟩ <;> rw [hc]
  · exact ddataCore_awaited_g hsel hk ha
  · exact ddataCore_awaited_p hsel hk ha
  · exact ddataCore_awaited_a hsel hk ha

include hf

theorem ddata_p (hc : (s.core n).dbg.cls = 1) (hk : (s.core n).dbg.num < 8) (ha : Reg.p (BitVec.ofNat 3 (s.core n).dbg.num) ∉ f.await) :
    ∃ t g, exec (.ddataWrite n v) s = .next t ∧ (t.core n).frame? f.uid = some g ∧
      g.getP (BitVec.ofNat 3 (s.core n).dbg.num) = (if (s.core n).dbg.num = 0 then true else v.getLsbD 0) ∧
      (∀ k, k ≠ BitVec.ofNat 3 (s.core n).dbg.num → g.getP k = f.getP k) ∧ g.g = f.g ∧ (t.core n).dbg.refused = false := by
  obtain ⟨huid, hg⟩ := putP_keeps (BitVec.ofNat 3 (s.core n).dbg.num) (v.getLsbD 0) f
  obtain ⟨t, he, hframe, href⟩ := ddata_frame hd hf huid (by rw [hc]; exact ddataCore_p hsel hk ha)
  refine ⟨t, _, he, hframe, ?_, fun k => putP_other _ f, hg, href⟩
  rw [putP_get]
  exact if_congr (ofNat_eq_zero_iff hk) rfl rfl

theorem ddata_pc (hc : (s.core n).dbg.cls = 6) : ∃ t g, exec (.ddataWrite n v) s = .next t ∧ (t.core n).frame? f.uid = some g ∧
    g.pc = v ∧ g.g = f.g ∧ (t.core n).dbg.refused = false := by
  obtain ⟨t, he, hframe, href⟩ := ddata_frame (v := v) (r := atPc v) hd hf rfl (by rw [hc]; exact ddataCore_pc hsel)
  exact ⟨t, _, he, hframe, rfl, rfl, href⟩

theorem ddata_csr_frame (hc : (s.core n).dbg.cls = 5) {g : Frame} (h : (s.core n).dbg.num = 0x009 ∧ g = { f with schk := v.getLsbD 0 } ∨
    (s.core n).dbg.num = 0x041 ∧ g = { f with tpc := v } ∨
    ∃ j, j < 8 ∧ (s.core n).dbg.num = 0x048 + j ∧ g = { f with tsave := fset 0 f.tsave j v }) :
    ∃ t, exec (.ddataWrite n v) s = .next t ∧ (t.core n).frame? f.uid = some g ∧ (t.core n).dbg.refused = false := by
  obtain ⟨hw, hg, huid, hcore⟩ := csrWrite_frame h
  have hset := ddata_frame (v := v) (r := fun f => f.csrWrite (s.core n).dbg.num v) hd hf (by rw [hg, huid])
    (by rw [hc]; exact ddataCore_csr_frame hsel hw (hcore _))
  rwa [hg] at hset

include hwin

theorem ddata_g (hc : (s.core n).dbg.cls = 0) (hk : (s.core n).dbg.num < 32) (ha : Reg.g (BitVec.ofNat 5 (s.core n).dbg.num) ∉ f.await) :
    ∃ t g, exec (.ddataWrite n v) s = .next t ∧ (t.core n).frame? f.uid = some g ∧
      g.getG (BitVec.ofNat 5 (s.core n).dbg.num) = (if (s.core n).dbg.num = 0 then 0 else v) ∧
      (∀ k, k ≠ BitVec.ofNat 5 (s.core n).dbg.num → g.getG k = f.getG k) ∧ g.pc = f.pc ∧
      (∀ e ∈ g.pend, e.reg ≠ .g (BitVec.ofNat 5 (s.core n).dbg.num)) ∧ (t.core n).dbg.refused = false := by
  obtain ⟨t, he, hframe, href⟩ := ddata_frame hd hf (putG_uid (BitVec.ofNat 5 (s.core n).dbg.num) v f) (by rw [hc]; exact ddataCore_g hsel hwin hk ha)
  refine ⟨t, _, he, hframe, ?_, fun k => putG_other v f, putG_pc .., fun e => putG_pend, href⟩
  rw [putG_get]
  exact if_congr (ofNat_eq_zero_iff hk) rfl rfl

theorem ddata_a (hc : (s.core n).dbg.cls = 2) (hk : (s.core n).dbg.num < 8) (ha : Reg.a (BitVec.ofNat 3 (s.core n).dbg.num) ∉ f.await) :
    ∃ t g, exec (.ddataWrite n v) s = .next t ∧ (t.core n).frame? f.uid = some g ∧
      g.getA (BitVec.ofNat 3 (s.core n).dbg.num) = v.setWidth 32 ∧
      (∀ k, k ≠ BitVec.ofNat 3 (s.core n).dbg.num → g.getA k = f.getA k) ∧ g.g = f.g ∧ (t.core n).dbg.refused = false := by
  obtain ⟨t, he, hframe, href⟩ := ddata_frame (v := v) hd hf rfl (by rw [hc]; exact ddataCore_a hsel hwin hk ha)
  exact ⟨t, _, he, hframe, getA_setA_same .., fun k hne => getA_setA_ne _ _ hne, rfl, href⟩

end

theorem ddata_w (hc : (s.core n).dbg.cls = 4) (hk : (s.core n).dbg.num < 16) (hw : (s.core n).dbg.word < 32)
    (ha : ∀ f ∈ (s.core n).frames, Reg.w (BitVec.ofNat 4 (s.core n).dbg.num) ∉ f.await)
    (hl : (s.core n).wLocked (BitVec.ofNat 4 (s.core n).dbg.num) = false) : ∃ t, exec (.ddataWrite n v) s = .next t ∧
      ((t.core n).getW (BitVec.ofNat 4 (s.core n).dbg.num)).extractLsb' (64 * (s.core n).dbg.word) 64 = v ∧
      (∀ k, k < 32 → k ≠ (s.core n).dbg.word → ((t.core n).getW (BitVec.ofNat 4 (s.core n).dbg.num)).extractLsb' (64 * k) 64 =
        ((s.core n).getW (BitVec.ofNat 4 (s.core n).dbg.num)).extractLsb' (64 * k) 64) ∧ (t.core n).dbg.refused = false := by
  obtain ⟨t, he, hcore⟩ := ddataWrite_sets (v := v) hd (by rw [hc]; exact ddataCore_w hk ha hl)
  have hget : (t.core n).getW (BitVec.ofNat 4 (s.core n).dbg.num) =
      putWord64 ((s.core n).getW (BitVec.ofNat 4 (s.core n).dbg.num)) (s.core n).dbg.word v := by
    rw [hcore]
    exact fget_fset_same ..
  refine ⟨t, he, ?_, fun k hk hne => ?_, by rw [hcore]⟩ <;> rw [hget]
  · exact word_putWord64_same _ _ _ (by omega)
  · exact word_putWord64_ne _ _ _ (by omega) hne

theorem ddata_v (hc : (s.core n).dbg.cls = 3) (hk : (s.core n).dbg.num < 64) (hm : ((s.core n).lane ((s.core n).dbg.num / 16)).mq = [])
    (hw : (s.core n).dbg.word < 4)
    (ha : ∀ f ∈ (s.core n).frames, f.lane = (s.core n).dbg.num / 16 → Reg.v (BitVec.ofNat 4 (s.core n).dbg.num) ∉ f.await) :
    ∃ t, exec (.ddataWrite n v) s = .next t ∧
      ((t.core n).getV ((s.core n).dbg.num / 16) (BitVec.ofNat 4 (s.core n).dbg.num)).extractLsb' (64 * (s.core n).dbg.word) 64 = v ∧
      (∀ k, k < 4 → k ≠ (s.core n).dbg.word →
        ((t.core n).getV ((s.core n).dbg.num / 16) (BitVec.ofNat 4 (s.core n).dbg.num)).extractLsb' (64 * k) 64 =
          ((s.core n).getV ((s.core n).dbg.num / 16) (BitVec.ofNat 4 (s.core n).dbg.num)).extractLsb' (64 * k) 64) ∧
      (t.core n).dbg.refused = false := by
  obtain ⟨t, he, hcore⟩ := ddataWrite_sets (v := v) hd (by rw [hc]; exact ddataCore_v hk hm ha)
  have hget : (t.core n).getV ((s.core n).dbg.num / 16) (BitVec.ofNat 4 (s.core n).dbg.num) =
      putWord64 ((s.core n).getV ((s.core n).dbg.num / 16) (BitVec.ofNat 4 (s.core n).dbg.num)) (s.core n).dbg.word v := by
    rw [hcore]
    exact getV_setV_same ..
  refine ⟨t, he, ?_, fun k hk hne => ?_, by rw [hcore]⟩ <;> rw [hget]
  · exact word_putWord64_same _ _ _ (by omega)
  · exact word_putWord64_ne _ _ _ (by omega) hne

/-- A row of `ACC`, as `DDATA` numbers them. -/
def accRow (c : Core) (k : Nat) : BitVec 4096 := fget 0 (c.lane (k / 32)).acc (k % 32)

theorem ddata_acc (hc : (s.core n).dbg.cls = 7) (hk : (s.core n).dbg.num < 128) (hm : ((s.core n).lane ((s.core n).dbg.num / 32)).mq = []) :
    ∃ t, exec (.ddataWrite n v) s = .next t ∧ (accRow (t.core n) (s.core n).dbg.num).extractLsb' (64 * (s.core n).dbg.word) 64 = v ∧
      (∀ k, k < 64 → k ≠ (s.core n).dbg.word → (accRow (t.core n) (s.core n).dbg.num).extractLsb' (64 * k) 64 =
        (accRow (s.core n) (s.core n).dbg.num).extractLsb' (64 * k) 64) ∧ (t.core n).dbg.refused = false := by
  obtain ⟨t, he, hcore⟩ := ddataWrite_sets (v := v) hd (by rw [hc]; exact ddataCore_acc hk hm)
  have hw : (s.core n).dbg.word < 64 := BitVec.isLt _
  have hget : accRow (t.core n) (s.core n).dbg.num = putWord64 (accRow (s.core n) (s.core n).dbg.num) (s.core n).dbg.word v := by
    rw [hcore]
    unfold accRow
    exact (congrArg (fun l : Lane => fget 0 l.acc ((s.core n).dbg.num % 32)) (lane_setLane_same ..)).trans (fget_fset_same ..)
  refine ⟨t, he, ?_, fun k hk hne => ?_, by rw [hcore]⟩ <;> rw [hget]
  · exact word_putWord64_same _ _ _ (by omega)
  · exact word_putWord64_ne _ _ _ (by omega) hne

theorem ddata_unassigned (hc : (s.core n).dbg.cls = 5) (h : csrWritable (s.core n).dbg.num = false) : DdataRefused s n v :=
  ddataWrite_refused hd (by rw [hc]; exact ddataCore_csr_refused h)

theorem ddata_busy (h : (s.core n).dbg.cls = 3 ∧ (s.core n).dbg.num < 64 ∧ ((s.core n).lane ((s.core n).dbg.num / 16)).mq ≠ [] ∨
    (s.core n).dbg.cls = 7 ∧ (s.core n).dbg.num < 128 ∧ ((s.core n).lane ((s.core n).dbg.num / 32)).mq ≠ []) : DdataRefused s n v := by
  refine ddataWrite_refused hd ?_
  rcases h with ⟨hc, hk, hm⟩ | ⟨hc, hk, hm⟩ <;> rw [hc]
  · exact ddataCore_v_busy hk hm
  · exact ddataCore_acc_busy hk hm

theorem ddata_csr_core (hc : (s.core n).dbg.cls = 5) (h : (s.core n).dbg.num = 0x080 ∨ 0x088 ≤ (s.core n).dbg.num ∧ (s.core n).dbg.num < 0x08D) :
    DdataSets s n v ((s.core n).csrWrite (s.core n).dbg.num v) := by
  refine ddataWrite_sets hd ?_
  rw [hc]
  exact ddataCore_csr_core (csrWritable_iff.2 (.inr (.inr (.inr h)))) fun f => frameCsrWrite_other (by omega) (by omega) (by omega)

theorem ddata_eswin (hc : (s.core n).dbg.cls = 5) (h : (s.core n).dbg.num = 0x080) : ∃ t, exec (.ddataWrite n v) s = .next t ∧
    (t.core n).eswin = v.setWidth 32 ∧ (t.core n).espos = 0 ∧ (t.core n).frames = (s.core n).frames ∧ (t.core n).dbg.refused = false := by
  obtain ⟨t, he, hcore⟩ := ddata_csr_core (v := v) hd hc (.inl h)
  rw [h] at hcore
  exact ⟨t, he, by rw [hcore]; rfl, by rw [hcore]; rfl, by rw [hcore]; rfl, by rw [hcore]⟩

theorem ddata_esthr (hc : (s.core n).dbg.cls = 5) {k : Nat} (hk : k < 5) (h : (s.core n).dbg.num = 0x088 + k) :
    ∃ t, exec (.ddataWrite n v) s = .next t ∧ (t.core n).frames = (s.core n).frames ∧
      fget 0 (t.core n).esthr k = (fget 0 (s.core n).esthr k &&& 0x400000000) ||| (v.setWidth 35 &&& 0x3FFFFFFFF) ∧
      (t.core n).dbg.refused = false := by
  obtain ⟨t, he, hcore⟩ := ddata_csr_core (v := v) hd hc (.inr (by omega))
  rw [h, coreCsrWrite_esthr hk] at hcore
  exact ⟨t, he, by rw [hcore], by rw [hcore]; exact fget_fset_same .., by rw [hcore]⟩

end

/-! ### The reasons of a halt (R365) -/

section
variable {d : Debug} {b h : Bool}

theorem haltReason_request (hr : d.haltReq = true) : haltReason d b h = some 0 := if_pos hr

variable (hr : d.haltReq = false)
include hr

theorem haltReason_brk (hb : b = true) (hk : d.brken = true) : haltReason d b h = some 1 :=
  (if_neg (by simp [hr])).trans (if_pos (by simp [hb, hk]))

variable (hb : ¬ (d.brken = true ∧ b = true))
include hb

theorem haltReason_match (hh : h = true) : haltReason d b h = some 2 :=
  (if_neg (by simp [hr])).trans ((if_neg fun hbk => hb (And.comm.1 (Bool.and_eq_true .. ▸ hbk))).trans (if_pos hh))

variable (hh : h = false)
include hh

theorem haltReason_step (hs : d.stepping = true) (hi : d.issued = true) : haltReason d b h = some 3 :=
  (if_neg (by simp [hr])).trans ((if_neg fun hbk => hb (And.comm.1 (Bool.and_eq_true .. ▸ hbk))).trans
    ((if_neg (by simp [hh])).trans (if_pos (by simp [hs, hi]))))

theorem haltReason_none (hs : d.stepping = false ∨ d.issued = false) : haltReason d b h = none :=
  (if_neg (by simp [hr])).trans ((if_neg fun hbk => hb (And.comm.1 (Bool.and_eq_true .. ▸ hbk))).trans
    ((if_neg (by simp [hh])).trans (if_neg fun hsi => by
      rw [Bool.and_eq_true] at hsi
      rcases hs with hs | hs
      · exact Bool.false_ne_true (hs.symm.trans hsi.1)
      · exact Bool.false_ne_true (hs.symm.trans hsi.2))))

end

theorem compares_iff {d : Debug} {k : Nat} {f : Frame} : d.compares k f = true ↔ (fget 0 d.dba k).getLsbD 0 = true ∧
    ((fget 0 d.dba k).extractLsb' 2 46).toNat = f.pc.toNat / 4 ∧ ((fget 0 d.dbc k).extractLsb' 32 6).toNat = f.task.ctx := by
  unfold Debug.compares
  simp only [Bool.and_eq_true, beq_iff_eq, and_assoc]

theorem comparatorHit_iff {d : Debug} {f : Frame} {k : Nat} : comparatorHit d f k ↔ f.arrived = true ∧ (fget 0 d.dba k).getLsbD 0 = true ∧
    ((fget 0 d.dba k).extractLsb' 2 46).toNat = f.pc.toNat / 4 ∧ ((fget 0 d.dbc k).extractLsb' 32 6).toNat = f.task.ctx :=
  and_congr_right fun _ => compares_iff

/-- Settles O58: the commands, the writes of `DDATA` class by class, and a boundary that halts (`boundary_frame_halts`) for the first reason of
`haltReason`, or passes with the counts of the comparators that match (`arrivalMatch_spec`). -/
theorem debugSteps : Obligations.DebugSteps := by
  unfold Obligations.DebugSteps
  intro s n v
  refine ⟨fun hd => ⟨debugHaltCommand_running hd, debugResume_running hd, debugStep_running hd, debugDrain_running hd, ddataWrite_running hd⟩,
    fun hd => ⟨debugHaltCommand_halted hd, ?resume, ?step, debugDrain_halted hd, fun f hsel hwin hf => ?frame,
      fun hc hk hw ha hl => ddata_w hd hc hk hw ha hl, fun hc hk => ⟨fun hm => ddata_busy hd (.inl ⟨hc, hk, hm⟩), fun hm hw ha => ddata_v hd hc hk hm hw ha⟩,
      fun hc hk => ⟨fun hm => ddata_busy hd (.inr ⟨hc, hk, hm⟩), fun hm => ddata_acc hd hc hk hm⟩, fun hc => ?csr⟩,
    fun hp hr hcr hd hx ho => ⟨fun hf hreq => boundary_empty hp hr hcr hd hx ho hf hreq, fun f fs hf hdef ht => ?boundary⟩,
    debugDrainComplete_done⟩
  case resume =>
    obtain ⟨t, he, hcore, hmem⟩ := debugResume_resumes hd
    exact ⟨t, he, congrArg Core.dbg hcore, (congrArg Core.frames hcore :), hmem⟩
  case step =>
    obtain ⟨t, he, hcore⟩ := debugStep_resumes hd
    exact ⟨t, he, congrArg Core.dbg hcore, (congrArg Core.frames hcore :)⟩
  case frame =>
    refine ⟨fun hc hk ha => ddata_g hd hsel hwin hf hc hk ha, fun hc hk ha => ddata_awaited hd hsel ha (.inl ⟨hc, hk, rfl⟩),
      fun hc hk => ⟨fun ha => ddata_awaited hd hsel ha (.inr (.inl ⟨hc, hk, rfl⟩)), fun ha => ddata_p hd hsel hf hc hk ha⟩,
      fun hc hk => ⟨fun ha => ddata_awaited hd hsel ha (.inr (.inr ⟨hc, hk, rfl⟩)), fun ha => ddata_a hd hsel hwin hf hc hk ha⟩,
      fun hc g h => ddata_csr_frame hd hsel hf hc h, fun hc => ddata_pc hd hsel hf hc⟩
  case csr =>
    refine ⟨fun h9 h41 h48 h80 h88 => ddata_unassigned hd hc ?_, fun h => ddata_eswin hd hc h, fun k hk h => ddata_esthr hd hc hk h⟩
    rw [← Bool.not_eq_true]
    intro hw
    rcases csrWritable_iff.1 hw with h | h | h | h | h
    · exact h9 h
    · exact h41 h
    · exact h48.elim (Nat.not_lt.2 h.1) (Nat.not_le.2 h.2)
    · exact h80 h
    · exact h88.elim (Nat.not_lt.2 h.1) (Nat.not_le.2 h.2)
  case boundary =>
    intro stays brk hit zero
    have hhalt {r : Nat} := boundary_frame_halts hp hr hcr hd hx ho hf hdef ht (r := r)
    obtain ⟨⟨m, hm⟩, hmatch, hcount⟩ := arrivalMatch_spec (s.core n).dbg f
    have hbrk : (s.brkNext n f && !f.brkHalted) = true ↔ s.brkNext n f = true ∧ f.brkHalted = false := by simp
    have hno (hb : ¬ brk) : ¬ ((s.core n).dbg.brken = true ∧ (s.brkNext n f && !f.brkHalted) = true) := fun h => hb ⟨h.1, hbrk.1 h.2⟩
    have hquiet (hz : ∀ k, k < 4 → hit k → ¬ zero k) : (arrivalMatch (s.core n).dbg f).2 = false := by
      rw [← Bool.not_eq_true, hmatch]
      exact fun ⟨k, hk, hh, h0⟩ => hz k hk (comparatorHit_iff.1 hh) h0
    refine ⟨fun hreq => hhalt (haltReason_request hreq), fun hreq ⟨hen, hb⟩ => hhalt (haltReason_brk hreq (hbrk.2 hb) hen),
      fun k hk hreq hb hh h0 => hhalt (haltReason_match hreq (hno hb) (hmatch.2 ⟨k, hk, comparatorHit_iff.2 hh, h0⟩)),
      fun hreq hb hz => ⟨fun hs hi => hhalt (haltReason_step hreq (hno hb) (hquiet hz) hs hi), fun hsi => ?passes⟩⟩
    obtain ⟨t, he, hdbg⟩ := boundary_frame_passes hp hr hcr hd hx ho hf hdef ht (haltReason_none hreq (hno hb) (hquiet hz) hsi)
    refine ⟨t, he, ?_, fun k hk => ?_⟩
    · dsimp only
      rw [hdbg, hm]
      exact hd
    · dsimp only
      rw [hdbg]
      obtain ⟨hkept, hless⟩ := hcount k hk
      exact ⟨fun hh => hless (comparatorHit_iff.2 hh) (hz k hk hh), fun hh => hkept fun h => hh (comparatorHit_iff.1 h.1)⟩

end Sys2Proof.Laws
end

section
/-!
SUPPORT. A bundle that closes, as `RLD` finds it (R212, R296): the frame on top, the bundle in flight, and what a frame that leaves keeps.
-/

namespace Sys2Proof.Laws
open Sys2Proof.Machine

/-! ### The frame on top while a bundle closes -/

/-- A frame's name and the bundles that its task has closed. -/
def taskOf (f : Frame) : Nat × List Nat := (f.uid, f.bundles)

/-- What a bundle that closes leaves of a core beside its bundles: its records, its commit sequence number, the task on top. -/
structure TaskKept (c d : Core) : Prop where
  top : d.frames.head?.map taskOf = c.frames.head?.map taskOf
  fwd : d.fwd = c.fwd
  cseq : d.cseq = c.cseq

section
variable {c d b : Core} {s : State} {n : Nat}

theorem TaskKept.trans (h : TaskKept c d) (g : TaskKept d b) : TaskKept c b := ⟨g.top.trans h.top, g.fwd.trans h.fwd, g.cseq.trans h.cseq⟩

theorem deliver_taskKept (c : Core) (uid : Nat) (r : Reg) (v : BitVec 256) : TaskKept c (c.deliver uid r v) := by
  unfold Core.deliver
  split
  · exact ⟨rfl, rfl, rfl⟩
  · next f hf =>
    have ht := putReg_touches c f r v
    have htask : taskOf (c.putReg f r v).2 = taskOf f := by rw [ht.frame]; rfl
    have hframes : (c.putReg f r v).1.frames = c.frames := (congrArg Core.frames ht.core :)
    refine ⟨?_, (congrArg Core.fwd ht.core :), (congrArg Core.cseq ht.core :)⟩
    unfold Core.onFrame
    dsimp only
    rw [hframes]
    unfold Core.frame? at hf
    cases hc : c.frames with
    | nil => rfl
    | cons g gs =>
      rw [hc] at hf
      by_cases hg : g.uid = uid
      · have hfg : g = f := by simpa [hg] using hf
        subst hfg
        simp only [List.map_cons, List.head?_cons, Option.map_some, if_pos hg]
        exact congrArg some htask
      · simp only [List.map_cons, List.head?_cons, Option.map_some, if_neg hg]

theorem progress_taskKept (s : State) (n : Nat) : TaskKept (s.core n) ((s.progress n).core n) := by
  have hown := (progress_progressed s n).own
  have hfold := fcloseDone_keeps (P := TaskKept) (fun _ => ⟨rfl, rfl, rfl⟩) .trans (fun _ _ => ⟨rfl, rfl, rfl⟩) deliver_taskKept (s.core n)
  exact hfold.trans ⟨by rw [hown], (congrArg Core.fwd hown :), (congrArg Core.cseq hown :)⟩

/-- The core whose bundle has been closed, before it makes progress. -/
theorem addClosed_core (s : State) (n : Nat) (b : Closed) : ∃ tlb, (s.addClosed n b).core n = { s.core n with
    cseq := nextSeq (s.core n).cseq, closed := (s.core n).closed ++ [{ b with uid := s.uid, seq := nextSeq (s.core n).cseq }], tlb := tlb } := by
  unfold State.addClosed
  dsimp only
  rw [core_of_cores (sendLines_cores ..), (TlbsOnly.foldl (fun s p => markDirty_tlbsOnly s n b.ctx p) _ _).core n, core_fresh, core_setCore_same]
  exact ⟨_, rfl⟩

/-! ### A bundle in flight stays while others move on (R213, R214) -/

/-- None of the lines of a bundle has arrived. -/
def inFlight (b : Closed) : Prop := b.lines ≠ [] ∧ ∀ l ∈ b.lines, l.prog = .flight

section
variable {b : Closed} (h : inFlight b)
include h

theorem inFlight_not_all {p : BLine → Bool} (hp : ∀ l : BLine, l.prog = .flight → p l = false) : b.lines.all p = false := by
  obtain ⟨hne, hall⟩ := h
  obtain ⟨l, hl⟩ := List.exists_mem_of_ne_nil _ hne
  rw [List.all_eq_false]
  exact ⟨l, hl, by simp [hp l (hall l hl)]⟩

theorem inFlight_not_settled : b.settled = false := inFlight_not_all h fun l hl => by rw [hl]; rfl
theorem inFlight_not_acked : b.acked = false := inFlight_not_all h fun l hl => by rw [hl]; rfl
theorem inFlight_not_done : b.done = false := by
  unfold Closed.done
  rw [inFlight_not_all (p := fun l => l.prog == .quiet) h fun l hl => by rw [hl]; rfl, Bool.and_false]

theorem inFlight_noticed (pkg : BitVec 5) : b.lines.map (BLine.noticed pkg) = b.lines := by
  refine (List.map_congr_left fun l hl => ?_).trans (List.map_id _)
  have hf := h.2 l hl
  unfold BLine.noticed BLine.moveTo
  rw [hf]
  split
  · split <;> rfl
  · rfl

theorem mem_settleSends {n t : Nat} : ∀ {ok : Bool} {l : List Closed}, b ∈ l → b ∈ settleSends n t ok l
  | _, x :: xs, hb => by
    unfold settleSends
    rcases List.mem_cons.1 hb with rfl | hb
    · rw [inFlight_not_acked h, Bool.and_false, Bool.false_and]
      exact List.mem_cons_self
    · exact List.mem_cons_of_mem _ (mem_settleSends hb)

theorem mem_quietSends {t : Nat} : ∀ {ok : Bool} {l : List Closed}, b ∈ l → b ∈ quietSends t ok l
  | _, x :: xs, hb => by
    unfold quietSends
    dsimp only
    rcases List.mem_cons.1 hb with rfl | hb
    · rw [inFlight_not_settled h, Bool.and_false, Bool.false_and]
      exact List.mem_cons_self
    · exact List.mem_cons_of_mem _ (mem_quietSends hb)

/-- A bundle in flight stays closed with its lines, whatever progress its core makes. -/
theorem progress_inFlight (hb : b ∈ (s.core n).closed) : ∃ d ∈ ((s.progress n).core n).closed, bareBundle d = bareBundle b := by
  unfold State.progress
  dsimp only
  have hstays : b ∈ (quietSends s.uid true (settleSends n s.uid true ((s.core n).closed.map fun b =>
      if b.settled then { b with fclose := none, copy := none } else b))).map
        (fun b => { b with lines := b.lines.map (BLine.noticed s.fabric.pkgnum) }) := by
    refine List.mem_map.2 ⟨b, mem_quietSends h (mem_settleSends h (List.mem_map.2 ⟨b, hb, ?_⟩)), ?_⟩
    · rw [inFlight_not_settled h]
      rfl
    · rw [inFlight_noticed h]
  generalize (quietSends s.uid true (settleSends n s.uid true ((s.core n).closed.map fun b =>
    if b.settled then { b with fclose := none, copy := none } else b))).map
      (fun b => { b with lines := b.lines.map (BLine.noticed s.fabric.pkgnum) }) = l3 at hstays
  generalize lastDeclared (s.core n).quietUpTo _ = quietUpTo
  generalize List.flatMap _ _ = msgs
  generalize hs1 : (s.setCore n { (s.core n).fcloseDone with closed := l3, quietUpTo }).setMem (s.mem.fcloseDone (s.core n).fclosed) = s1
  have hown : (s1.core n).closed = l3 := by rw [← hs1, core_setMem, core_setCore_same]
  have hleft : Spared s1 (l3.foldl (fun s b => s.leaveOf n b) (msgs.foldl State.send s1)) :=
    (Spared.foldl (fun s m => send_spared s m) msgs s1).trans (.foldl (fun s b => leaveOf_spared s n b) _ _)
  generalize l3.foldl (fun s b => s.leaveOf n b) (msgs.foldl State.send s1) = s3 at hleft
  have hbundles := (hleft.core n).bundles
  rw [hown] at hbundles
  obtain ⟨d, hd, hbare⟩ := List.mem_map.1 (hbundles ▸ List.mem_map_of_mem hstays)
  refine ⟨d, ?_, hbare⟩
  have hlines : d.lines = b.lines := (congrArg Closed.lines hbare :)
  rw [core_setCore_same]
  exact List.mem_filter.2 ⟨hd, by rw [inFlight_not_done (b := d) ⟨hlines ▸ h.1, hlines ▸ h.2⟩]; rfl⟩

end

/-! ### The bundle that is closed -/

section
variable {f : Frame} {fs : List Frame} (hf : (s.core n).frames = f :: fs) (sc : Scope)
include hf

/-- The core of a running task that closes its bundle. -/
def closingCore (s : State) (c : Core) (f : Frame) (fs : List Frame) : Core :=
  { c with frames := { f with
      bundle := Bundle.empty, bundles := f.bundles ++ [s.uid],
      horizon := f.horizon || !(f.bundle.lines.isEmpty && f.bundle.effects.isEmpty) } :: fs }

theorem closeTop_adds : ∃ b, s.closeTop n sc = ((s.setCore n (closingCore s (s.core n) f fs)).addClosed n b).progress n ∧
    b.lines = f.bundle.lines ∧ b.scope = sc := by
  unfold State.closeTop
  dsimp only
  rw [hf]
  exact ⟨_, rfl, rfl, rfl⟩

/-- The bundle of the running task closes under the next commit sequence number, and the task remembers it. -/
theorem closeTop_task : ((s.closeTop n sc).core n).frames.head?.map taskOf = some (f.uid, f.bundles ++ [s.uid]) ∧
    ((s.closeTop n sc).core n).fwd = (s.core n).fwd ∧ ((s.closeTop n sc).core n).cseq = nextSeq (s.core n).cseq := by
  obtain ⟨b, he, -⟩ := closeTop_adds hf sc
  obtain ⟨htop, hfwd, hcseq⟩ := progress_taskKept ((s.setCore n (closingCore s (s.core n) f fs)).addClosed n b) n
  obtain ⟨tlb, hadd⟩ := addClosed_core (s.setCore n (closingCore s (s.core n) f fs)) n b
  rw [core_setCore_same] at hadd
  rw [hadd] at htop hfwd hcseq
  rw [he, htop, hfwd, hcseq]
  exact ⟨rfl, rfl, rfl⟩

theorem closeTop_closed (hne : f.bundle.lines ≠ []) (hfl : ∀ l ∈ f.bundle.lines, l.prog = .flight) :
    ∃ b ∈ ((s.closeTop n sc).core n).closed, b.uid = s.uid ∧ b.seq = nextSeq (s.core n).cseq ∧ b.scope = sc ∧ b.lines = f.bundle.lines := by
  obtain ⟨b, he, hlines, hscope⟩ := closeTop_adds hf sc
  obtain ⟨tlb, hadd⟩ := addClosed_core (s.setCore n (closingCore s (s.core n) f fs)) n b
  rw [core_setCore_same] at hadd
  have hmem : ({ b with uid := s.uid, seq := nextSeq (s.core n).cseq } : Closed) ∈
      (((s.setCore n (closingCore s (s.core n) f fs)).addClosed n b).core n).closed := by
    rw [hadd]
    exact List.mem_append_right _ (List.mem_singleton_self _)
  obtain ⟨d, hd, hbare⟩ := progress_inFlight ⟨hlines ▸ hne, hlines ▸ hfl⟩ hmem
  rw [he]
  exact ⟨d, hd, (congrArg Closed.uid hbare :), (congrArg Closed.seq hbare :), (congrArg Closed.scope hbare :).trans hscope,
    (congrArg Closed.lines hbare :).trans hlines⟩

end

/-! ### A frame that leaves -/

/-- A window that is given back leaves the bundles, the records and the commit sequence number. -/
theorem freeWindow_queues (s : State) (n : Nat) (f : Frame) : ((s.freeWindow n f).core n).fwd = (s.core n).fwd ∧
    ((s.freeWindow n f).core n).cseq = (s.core n).cseq ∧ ((s.freeWindow n f).core n).closed = (s.core n).closed := by
  unfold State.freeWindow
  dsimp only
  split
  · exact ⟨rfl, rfl, rfl⟩
  · rw [core_setCore_same]
    exact ⟨rfl, rfl, rfl⟩
  · split
    · rw [endCtx_core]
      exact ⟨rfl, rfl, rfl⟩
    · rw [core_setCore_same]
      exact ⟨rfl, rfl, rfl⟩

theorem popTop_queues (s : State) (n : Nat) (keep : Option Nat) : ((s.popTop n keep).core n).fwd = (s.core n).fwd ∧
    ((s.popTop n keep).core n).cseq = (s.core n).cseq ∧ ((s.popTop n keep).core n).closed = (s.core n).closed := by
  unfold State.popTop
  split
  · exact ⟨rfl, rfl, rfl⟩
  · dsimp only
    rw [core_setMem, core_setCore_same, pop_frame]
    exact freeWindow_queues ..

end

end Sys2Proof.Laws
end

section
/-!
SUPPORT. Remote instructions at issue (R296, R334–R338, R360).
-/

namespace Sys2Proof.Laws
open Sys2Proof.Machine

/-! ### The peer (R334, R360) -/

section
variable {x : Ctx} {w : Bool} {peer : BitVec 5} {g : PeerRef → Act}

theorem peerAct_of_peer {p : PeerRef} (hw : (w && x.pair.pen) = false) (hp : x.peer peer = some p) : peerAct x w peer g = g p := by
  unfold peerAct
  rw [hw, hp]
  rfl

theorem peerAct_paired (hw : (w && x.pair.pen) = true) : peerAct x w peer g = .trap 0x31 0 := if_pos hw

theorem peerAct_invalid (hw : (w && x.pair.pen) = false) (hp : x.peer peer = none) : peerAct x w peer g = .trap 0x30 0 := by
  unfold peerAct
  rw [hw, hp]
  rfl

end

theorem nextSeq_eq (q : CSeq) : nextSeq q = if q = 0xFFFFFFFF then 1 else q + 1 := by
  have hwrap : q + 1 = 0 ↔ q = 0xFFFFFFFF := ⟨fun h => by bv_omega, fun h => by rw [h]; rfl⟩
  unfold nextSeq
  by_cases h : q = 0xFFFFFFFF
  · rw [if_pos (hwrap.2 h), if_pos h]
  · rw [if_neg fun h0 => h (hwrap.1 h0), if_neg h]

/-! ### `RLD` (R296, R335) -/

theorem fget_foldl_keys {α : Type} [DecidableEq α] (d : α) (v : Nat → α) (j : Nat) : ∀ (ks : List Nat) (m : FMap α),
    fget d (ks.foldl (fun m k => fset d m k (v k)) m) j = if j ∈ ks then v j else fget d m j
  | [], _ => rfl
  | k :: ks, m => by
    rw [List.foldl_cons, fget_foldl_keys d v j ks, fget_fset]
    by_cases hj : j ∈ ks
    · simp [hj]
    · by_cases hk : j = k <;> simp [hj, hk]

/-- The registers that a continuation record saves. -/
def savedRegs (f : Frame) (live : BitVec 32) : FMap Word := (liveRegs live).foldl (fun m k => fset 0 m k (f.getG (BitVec.ofNat 5 k))) []

theorem savedRegs_get (f : Frame) (live : BitVec 32) {j : Nat} (hj : j < 32) :
    fget 0 (savedRegs f live) j = if live.getLsbD j then f.getG (BitVec.ofNat 5 j) else 0 := by
  have hmem : j ∈ liveRegs live ↔ live.getLsbD j = true := by simp [liveRegs, hj]
  unfold savedRegs
  rw [fget_foldl_keys]
  exact if_congr hmem rfl rfl

section
variable {s : State} {f : Frame} {fs : List Frame} {h : Hdr} {sz : Size} {sx : Bool} {d a : GReg} {peer : BitVec 5} {live : BitVec 32}

/-- The continuation record of an `RLD`; `s1` is the package once the bundle of the task is closed, `f1` its frame then. -/
def rldRecord (s1 : State) (n : Nat) (f f1 : Frame) (sz : Size) (sx : Bool) (d a : GReg) (peer : BitVec 5) (live : BitVec 32)
    (p : PeerRef) : Fwd :=
  { id := s1.uid, task := { f.task with set := (s1.core n).includedSet (s1.writer n) f.view },
    cont := { pc := f.pc + 16, live := savedRegs f live, p := f.p, schk := f.schk, spawnK := f1.spawnK, horizon := f1.horizon, geom := f.geom,
              bundles := f1.bundles, samp := f1.samp },
    remote := { dst := d, size := sz, sx, addr := f.getG a, peer }, peer := p, bundles := f1.bundles, sent := false, reply := none }

/-- The package that a task has left into record `e`. -/
def rldLeaves (s1 : State) (n : Nat) (e : Fwd) : State :=
  ((s1.setCore n { s1.core n with fwd := (s1.core n).fwd ++ [e] }).fresh.popTop n none).offers (clusterOf n)

/-- What is left of a core when the task on top leaves into a record. -/
theorem rldLeaves_core {s1 : State} {n : Nat} {e : Fwd} {g : Frame} {gs : List Frame} (hg : (s1.core n).frames = g :: gs) :
    ((rldLeaves s1 n e).core n).frames.map Frame.uid = gs.map Frame.uid ∧ ((rldLeaves s1 n e).core n).fwd = (s1.core n).fwd ++ [e] ∧
      ((rldLeaves s1 n e).core n).cseq = (s1.core n).cseq ∧ ((rldLeaves s1 n e).core n).closed = (s1.core n).closed := by
  have hcore : (s1.setCore n { s1.core n with fwd := (s1.core n).fwd ++ [e] }).fresh.core n =
      { s1.core n with fwd := (s1.core n).fwd ++ [e] } := (core_fresh _ n).trans (core_setCore_same ..)
  obtain ⟨hfwd, hcseq, hclosed⟩ := popTop_queues (s1.setCore n { s1.core n with fwd := (s1.core n).fwd ++ [e] }).fresh n none
  rw [hcore] at hfwd hcseq hclosed
  exact ⟨popTop_frames _ n none (by rw [hcore]; exact hg), hfwd, hcseq, hclosed⟩

variable (q : Issues s f fs h false ([.g d, .g a] ++ s.liveArgs live ++ predRegs) [])
include q

theorem rld_full (hfull : 16 ≤ (s.core s.cur).fwd.length) : exec (.rld h sz sx d a peer live) s = .next (s.stopped s.cur) :=
  exec_wait q rfl rfl (by rw [decide_eq_true hfull]; rfl)

section
variable (hroom : (s.core s.cur).fwd.length < 16)
include hroom

theorem rld_invalid (hp : (s.ctx f.task.ctx).peer peer = none) :
    exec (.rld h sz sx d a peer live) s = .next (s.trapped s.cur (.rld h sz sx d a peer live) 0x30 0) := by
  refine exec_trap q rfl rfl ?_
  rw [decide_eq_false (Nat.not_le.2 hroom)]
  exact peerAct_invalid (Bool.false_and _) hp

theorem rld_leaves {p : PeerRef} (hp : (s.ctx f.task.ctx).peer peer = some p) (hl : ∀ j, j < 32 ∧ live.getLsbD j = true → j < f.lim)
    (hclaims : f.claims = []) (hlong : f.long = false) (hpriv : f.priv = false) (hcas : (s.core s.cur).casOpen = none)
    {f1 : Frame} (hf1 : ((s.closeTop s.cur .system).core s.cur).frame? f.uid = some f1) :
    let t := rldLeaves (s.closeTop s.cur .system) s.cur (rldRecord (s.closeTop s.cur .system) s.cur f f1 sz sx d a peer live p)
    exec (.rld h sz sx d a peer live) s = .next (t.setCore s.cur (t.core s.cur).issued) := by
  have hany : (liveRegs live).any (fun k => decide (f.lim ≤ k)) = false := by
    rw [List.any_eq_false]
    intro j hj
    have hm := List.mem_filter.1 hj
    simpa using hl j ⟨List.mem_range.1 hm.1, hm.2⟩
  have he : exec (.rld h sz sx d a peer live) s = execRld h sz sx d a peer live s := rfl
  unfold execRld at he
  refine exec_leave q rfl he ?_
  dsimp only
  rw [decide_eq_false (Nat.not_le.2 hroom), waitAct_room, peerAct_of_peer (Bool.false_and _) hp, hany, if_neg Bool.false_ne_true,
    if_neg (by simp [hclaims, hlong, hpriv]), hcas, Option.isSome_none, if_neg Bool.false_ne_true, hf1]
  rfl

end
end

/-! ### `RST`, `RST.rel` and `RFOLD` (R336, R337) -/

section
variable {s : State} {f : Frame} {fs : List Frame} {h : Hdr} {i : Instr} {sz : Size} {a b : GReg} {peer : BitVec 5}

/-- What a remote store holds beside its line: nothing, or the release of `RST.rel`. -/
def rstHolds (f : Frame) (p : PeerRef) (b : GReg) : Option (BitVec 12) → Frame
  | some t => { f.hold (.remote p t (f.getG b) (taskId (ordOf f.task.id) (childPath (pathOf f.task.id) f.spawnK))) with spawnK := f.spawnK + 1 }
  | none => f

section
variable {rel : Option (BitVec 12)} (q : Issues s f fs h false [.g a, .g b] []) (hi : i.hdr? = some h)
  (he : exec i s = rstOp i sz a b peer rel s)
include q hi he

theorem rst_completes {p : PeerRef} (hpen : (s.ctx f.task.ctx).pair.pen = false) (hp : (s.ctx f.task.ctx).peer peer = some p) {bd : Bundle}
    (hbd : s.putLine f.bundle (peerLine p (f.getG a) (bytesOf (Size.bytes sz) (f.getG b)) none) = some bd) :
    completes s i h (s.setCore s.cur ((s.core s.cur).setTop (rstHolds { f with bundle := bd } p b rel))) Ret.plain := by
  refine exec_go q hi he ((peerAct_of_peer (by rw [hpen]; rfl) hp).trans ?_)
  rw [hbd]
  cases rel <;> rfl

theorem rst_traps : ((s.ctx f.task.ctx).pair.pen = true → exec i s = .next (s.trapped s.cur i 0x31 0)) ∧
    ((s.ctx f.task.ctx).pair.pen = false → (s.ctx f.task.ctx).peer peer = none → exec i s = .next (s.trapped s.cur i 0x30 0)) :=
  ⟨fun hpen => exec_trap q hi he (peerAct_paired (by rw [hpen]; rfl)),
    fun hpen hp => exec_trap q hi he (peerAct_invalid (by rw [hpen]; rfl) hp)⟩

end

section
variable {p : Ptr} {lm1 : BitVec 4} (q : Issues s f fs h false [.a (Ptr.reg p), .g a, .g b] [])
include q

theorem rfold_traps : ((s.ctx f.task.ctx).pair.pen = true →
      exec (.rfold h p a b lm1 peer) s = .next (s.trapped s.cur (.rfold h p a b lm1 peer) 0x31 0)) ∧
    ((s.ctx f.task.ctx).pair.pen = false → (s.ctx f.task.ctx).peer peer = none →
      exec (.rfold h p a b lm1 peer) s = .next (s.trapped s.cur (.rfold h p a b lm1 peer) 0x30 0)) :=
  ⟨fun hpen => exec_trap q rfl rfl (peerAct_paired (by rw [hpen]; rfl)),
    fun hpen hp => exec_trap q rfl rfl (peerAct_invalid (by rw [hpen]; rfl) hp)⟩

/-- The lines of a contribution for a peer. -/
def rfoldLines (c : Core) (f : Frame) (r : PeerRef) (p : Ptr) (a b : GReg) (lines : Nat) : List BLine :=
  (List.range lines).map fun l =>
    { dest := .peer r, addr := f.getG a, bytes := lineBytes 0 (c.padRead (f.ptr p + 64 * l) 64), std := none,
      fold := some { obj := f.getG a, key := 0, k := f.getG b, l, lines }, page := none, prog := .flight, image := [] }

theorem rfold_completes {r : PeerRef} (hpen : (s.ctx f.task.ctx).pair.pen = false) (hp : (s.ctx f.task.ctx).peer peer = some r)
    (hrange : f.rangeCheck (s.ctx f.task.ctx) (f.ptr p) (64 * (lm1.toNat + 1)) 64 = .ok ())
    (hfree : (s.core s.cur).rangeWaits [(f.ptr p, 64 * (lm1.toNat + 1))] [] = false) {bd : Bundle}
    (hbd : s.putLines f.bundle (rfoldLines (s.core s.cur) f r p a b (lm1.toNat + 1)) = some bd) :
    completes s (.rfold h p a b lm1 peer) h (s.setCore s.cur ((s.core s.cur).onFrame f.uid (fun g => { g with bundle := bd })))
      { Ret.plain with writes := f.ptrStep p (64 * (lm1.toNat + 1)) } := by
  refine exec_go q rfl rfl ((peerAct_of_peer (by rw [hpen]; rfl) hp).trans ((act_of_ok hrange _).trans ((padAct_of_free hfree _).trans ?_)))
  have hput : s.putLines f.bundle ((List.range (lm1.toNat + 1)).map (fun l =>
      { peerLine r (f.getG a) ((s.core s.cur).padRead (f.ptr p + 64 * l) 64) (some { obj := f.getG a, key := 0, k := f.getG b, l, lines := lm1.toNat + 1 }) with
        addr := f.getG a, bytes := lineBytes 0 ((s.core s.cur).padRead (f.ptr p + 64 * l) 64) })) = some bd := hbd
  unfold State.bundlePut
  rw [hput]

end
end

/-! ### `RCAS` and `RXCHG` (R325, R338) -/

/-- What the scale-out unit leaves of a fabric as it sends: the messages for fibres, and the state of the link. -/
def LinksKept (x y : Fabric) : Prop := y.queue = x.queue ∧ y.lwstate = x.lwstate

theorem LinksKept.trans {x y z : Fabric} (h : LinksKept x y) (g : LinksKept y z) : LinksKept x z := ⟨g.1.trans h.1, g.2.trans h.2⟩

theorem LinksKept.foldl {β : Type} {g : Fabric → β → Fabric} (hg : ∀ x b, LinksKept x (g x b)) : ∀ (l : List β) (x : Fabric), LinksKept x (l.foldl g x)
  | [], _ => ⟨rfl, rfl⟩
  | b :: l, x => (hg x b).trans (LinksKept.foldl hg l _)

theorem enterPort_linksKept {x y : Fabric} {m : RMsg} (h : x.enterPort m = some y) : LinksKept x y := by
  unfold Fabric.enterPort at h
  dsimp only at h
  split at h
  · split at h
    · cases h
      exact ⟨rfl, rfl⟩
    · cases h
  · cases h

theorem enterAll_linksKept : ∀ (ms kept : List RMsg) (x : Fabric), LinksKept x (Fabric.enterAll ms kept x)
  | [], _, _ => ⟨rfl, rfl⟩
  | m :: ms, kept, x => by
    unfold Fabric.enterAll
    split
    · exact enterAll_linksKept ms _ x
    · split
      · next y hy => exact (enterPort_linksKept hy).trans (enterAll_linksKept ms kept y)
      · exact enterAll_linksKept ms _ x

theorem runPort_linksKept (p : Nat) : ∀ (k : Nat) (x : Fabric), LinksKept x (Fabric.runPort p k x)
  | 0, _ => ⟨rfl, rfl⟩
  | k + 1, x => by
    unfold Fabric.runPort
    split
    · split
      · exact LinksKept.trans ⟨rfl, rfl⟩ (runPort_linksKept p k _)
      · exact ⟨rfl, rfl⟩
    · exact ⟨rfl, rfl⟩

theorem runPorts_linksKept : ∀ (k : Nat) (x : Fabric), LinksKept x (x.runPorts k)
  | 0, _ => ⟨rfl, rfl⟩
  | k + 1, x => by
    have hround := (enterAll_linksKept x.ethq [] x).trans
      (LinksKept.foldl (fun x p => runPort_linksKept p (x.port p).buf.length x) (List.range 4) _)
    unfold Fabric.runPorts
    dsimp only
    split
    · exact hround
    · exact hround.trans (runPorts_linksKept k _)

/-- While the link is dark no message has a fibre to go over. -/
theorem waiting_of_dark {x : Fabric} (h2 : x.lwstate ≠ 2) (h3 : x.lwstate ≠ 3) : x.waiting = [] := by
  have hroute : ∀ e : Sending, x.route e = none := by
    intro e
    unfold Fabric.route
    split
    · exact if_neg (not_or.2 ⟨h2, h3⟩)
    · exact if_neg fun h => h2 h.1
  unfold Fabric.waiting
  induction x.queue with
  | nil => rfl
  | cons e es ih => rw [List.foldl_cons, hroute]; exact ih

theorem transmit_of_dark {s : State} (h2 : s.fabric.lwstate ≠ 2) (h3 : s.fabric.lwstate ≠ 3) : s.transmit.fabric.queue = s.fabric.queue := by
  obtain ⟨hq, hl⟩ := runPorts_linksKept (s.fabric.ethq.length + 1) s.fabric
  unfold State.transmit
  dsimp only
  rw [waiting_of_dark (by rwa [hl]) (by rwa [hl])]
  exact hq

theorem send_here {s : State} {m : RMsg} (h : s.fabric.way m = .here) : (s.send m).fabric.outbox = s.fabric.outbox ++ [m] := by
  unfold State.send
  rw [if_neg (by rw [h]; decide)]
  unfold State.enqueue Fabric.carry
  rw [h]

/-- A message for a fibre waits in the routing die while the link is dark (R325). -/
theorem send_dark {s : State} {m : RMsg} (h : s.fabric.way m = .fibre) (h2 : s.fabric.lwstate ≠ 2) (h3 : s.fabric.lwstate ≠ 3) :
    (s.send m).fabric.queue = s.fabric.queue ++ [{ msg := m, left := msgFlits m, on := none }] := by
  have hcarry : s.fabric.carry m = { s.fabric with queue := s.fabric.queue ++ [{ msg := m, left := msgFlits m, on := none }] } := by
    unfold Fabric.carry
    rw [h]
  have hsend : s.send m = ({ s with fabric := s.fabric.carry m } : State).transmit := by
    unfold State.send
    rw [if_neg (by rw [h]; decide)]
    unfold State.enqueue
    rw [h]
  rw [hsend, transmit_of_dark (by rw [hcarry]; exact h2) (by rw [hcarry]; exact h3), hcarry]

section
variable {s : State} {f : Frame} {fs : List Frame} {h : Hdr} {i : Instr} {regs : List GReg} {wide : Bool} {d a : GReg} {peer : BitVec 5}
  {cmp : Frame → Option Word} {new : Frame → Word} (q : Issues s f fs h false (.g d :: .g a :: regs.map .g) []) (hi : i.hdr? = some h)
  (he : exec i s = remoteAtomic i regs wide d a peer cmp new s)

/-- The package once a remote atomic has entered its request and its bundle. -/
def atomicEntered (s : State) (n : Nat) (f : Frame) (d : GReg) (p : PeerRef) (addr : Word) (cas : Bool) (bs : List Byte) : State :=
  (s.ask n f d (.remote p addr (nextSeq (s.core n).cseq) cas)).atomBundle n f cas (peerLine p addr bs none)

theorem ask_core (s : State) (n : Nat) (f : Frame) (d : GReg) (k : ReqKind) : (s.ask n f d k).core n =
    { (s.core n).onFrame f.uid (fun g => { g with await := g.await ++ awaitReg d }) with reqs := (s.core n).reqs ++
      [{ id := s.uid, frame := f.uid, acq := f.acq, ctx := f.task.ctx, taskId := f.task.id, prio := f.prio,
         dst := if d = 0 then none else some (.g d), inside := false, kind := k }] } := by
  unfold State.ask State.request
  rw [core_fresh, core_setCore_same, core_setCore_same]
  rfl

theorem atomBundle_core (s : State) (n : Nat) (f : Frame) (cas : Bool) (line : BLine) :
    ((s.atomBundle n f cas line).core n).cseq = (if cas then (s.core n).cseq else nextSeq (s.core n).cseq) ∧
    ((s.atomBundle n f cas line).core n).reqs = (s.core n).reqs ∧
    ∃ b ∈ ((s.atomBundle n f cas line).core n).closed, b.seq = nextSeq (s.core n).cseq ∧ b.scope = .system ∧ b.lines = [line] := by
  unfold State.atomBundle
  rw [core_fresh, core_setCore_same]
  exact ⟨rfl, rfl, _, List.mem_append_right _ (List.mem_singleton_self _), rfl, rfl, rfl⟩

theorem atomicEntered_core (s : State) (n : Nat) (f : Frame) (d : GReg) (p : PeerRef) (addr : Word) (cas : Bool) (bs : List Byte) :
    ((atomicEntered s n f d p addr cas bs).core n).cseq = (if cas then (s.core n).cseq else nextSeq (s.core n).cseq) ∧
    (∃ r ∈ ((atomicEntered s n f d p addr cas bs).core n).reqs, r.id = s.uid ∧ r.kind = .remote p addr (nextSeq (s.core n).cseq) cas ∧
      r.dst = if d = 0 then none else some (.g d)) ∧
    (∃ b ∈ ((atomicEntered s n f d p addr cas bs).core n).closed, b.seq = nextSeq (s.core n).cseq ∧ b.scope = .system ∧
      b.lines = [peerLine p addr bs none]) := by
  generalize hk : ReqKind.remote p addr (nextSeq (s.core n).cseq) cas = k
  have hask := ask_core s n f d k
  have hc : ((s.ask n f d k).core n).cseq = (s.core n).cseq := by rw [hask]; rfl
  obtain ⟨hcseq, hreqs, hclosed⟩ := atomBundle_core (s.ask n f d k) n f cas (peerLine p addr bs none)
  rw [hc] at hcseq hclosed
  unfold atomicEntered
  rw [hk, hreqs, hask]
  exact ⟨hcseq, ⟨_, List.mem_append_right _ (List.mem_singleton_self _), rfl, rfl, rfl⟩, hclosed⟩

include q hi he

theorem remoteAtomic_traps : ((s.ctx f.task.ctx).pair.pen = true → exec i s = .next (s.trapped s.cur i 0x31 0)) ∧
    ((s.ctx f.task.ctx).pair.pen = false → (s.ctx f.task.ctx).peer peer = none → exec i s = .next (s.trapped s.cur i 0x30 0)) :=
  ⟨fun hpen => exec_trap q hi he (peerAct_paired (by rw [hpen]; rfl)),
    fun hpen hp => exec_trap q hi he (peerAct_invalid (by rw [hpen]; rfl) hp)⟩

section
variable {p : PeerRef} (hpen : (s.ctx f.task.ctx).pair.pen = false) (hp : (s.ctx f.task.ctx).peer peer = some p)
include hpen hp

theorem remoteAtomic_waits (hcas : (s.core s.cur).casOpen ≠ none) : exec i s = .next (s.stopped s.cur) :=
  exec_wait q hi he ((peerAct_of_peer (by rw [hpen]; rfl) hp).trans (if_pos (Option.isSome_iff_ne_none.2 hcas)))

/-- A remote atomic enters its request and its bundle, and sends a message. -/
theorem remoteAtomic_completes (hcas : (s.core s.cur).casOpen = none) :
    completes s i h ((atomicEntered s s.cur f d p (f.getG a) (cmp f).isSome (bytesOf (wideBytes wide) (new f))).send
      (s.msgTo s.cur f.task.ctx (BitVec.ofNat 4 f.prio) f.task.id p (.atomReq 0 false s.uid (nextSeq (s.core s.cur).cseq) (f.getG a)
        (if wide then .d else .w) (cmp f) (new f)))) Ret.plain :=
  exec_go q hi he ((peerAct_of_peer (by rw [hpen]; rfl) hp).trans (if_neg (by rw [hcas]; exact Bool.false_ne_true)))

end
end

end Sys2Proof.Laws
end

section
/-!
O31: remote instructions at issue, the bundle that `RLD` closes, and their traps (R296, R325, R334–R338, R360).
-/

namespace Sys2Proof.Laws
open Sys2Proof.Machine

section
variable {s : State} {f : Frame} {fs : List Frame} {h : Hdr} {seq : CSeq} (hseq : nextSeq (s.core s.cur).cseq = seq)
include hseq

/-! ### `RLD` leaves the core -/

section
variable {sz : Size} {sx : Bool} {d a : GReg} {peer : BitVec 5} {live : BitVec 32}
  (q : Issues s f fs h false ([.g d, .g a] ++ s.liveArgs live ++ predRegs) []) {p : PeerRef}
include q

omit hseq in
/-- The closed bundle leaves the running task's frame on top, and the frames below it under their names. -/
theorem closeTop_top : ∃ f1 gs, ((s.closeTop s.cur .system).core s.cur).frames = f1 :: gs ∧ gs.map Frame.uid = fs.map Frame.uid ∧
    ((s.closeTop s.cur .system).core s.cur).frame? f.uid = some f1 ∧ f1.bundles = f.bundles ++ [s.uid] := by
  obtain ⟨htop, -, -⟩ := closeTop_task q.top .system
  have hnames := (closeTop_stackKept s s.cur .system).names
  rw [q.top] at hnames
  generalize (s.closeTop s.cur .system).core s.cur = c at htop hnames
  cases hc : c.frames with
  | nil => rw [hc] at htop; exact absurd htop (by simp)
  | cons f1 gs =>
    rw [hc] at htop hnames
    obtain ⟨huid, hbundles⟩ := Prod.mk.inj (Option.some.inj htop)
    refine ⟨f1, gs, rfl, (List.cons.inj hnames).2, ?_, hbundles⟩
    unfold Core.frame?
    rw [hc, List.find?_cons_of_pos (by simpa using huid)]

theorem rld_spec (hp : (s.ctx f.task.ctx).peer peer = some p) (hl : ∀ j, j < 32 ∧ live.getLsbD j = true → j < f.lim)
    (hclaims : f.claims = []) (hlong : f.long = false) (hpriv : f.priv = false) (hroom : (s.core s.cur).fwd.length < 16)
    (hcas : (s.core s.cur).casOpen = none) :
    ∃ t e, exec (.rld h sz sx d a peer live) s = .next t ∧ (t.core s.cur).frames.map Frame.uid = fs.map Frame.uid ∧
      (t.core s.cur).fwd = (s.core s.cur).fwd ++ [e] ∧ e.cont.pc = f.pc + 16 ∧ e.cont.p = f.p ∧
      (∀ j, j < 32 → fget 0 e.cont.live j = if live.getLsbD j then f.getG (BitVec.ofNat 5 j) else 0) ∧
      e.remote = { dst := d, size := sz, sx, addr := f.getG a, peer } ∧ e.peer = p ∧ e.task.id = f.task.id ∧ e.sent = false ∧
      e.reply = none ∧ (t.core s.cur).cseq = seq ∧ e.bundles = f.bundles ++ [s.uid] ∧
      (f.bundle.lines ≠ [] → (∀ l ∈ f.bundle.lines, l.prog = .flight) → ∃ b ∈ (t.core s.cur).closed,
        b.uid = s.uid ∧ b.seq = seq ∧ b.scope = .system ∧ b.lines = f.bundle.lines) := by
  obtain ⟨f1, gs, hframes, hgs, hf1, hbundles⟩ := closeTop_top q
  obtain ⟨-, hfwd, hcseq⟩ := closeTop_task q.top .system
  have hclosed := closeTop_closed q.top .system
  have hexec := rld_leaves (sz := sz) (sx := sx) q hroom hp hl hclaims hlong hpriv hcas hf1
  obtain ⟨kframes, kfwd, kcseq, kclosed⟩ :=
    rldLeaves_core (e := rldRecord (s.closeTop s.cur .system) s.cur f f1 sz sx d a peer live p) hframes
  rw [hgs] at kframes
  rw [hfwd] at kfwd
  rw [hcseq, hseq] at kcseq
  rw [hseq, ← kclosed] at hclosed
  generalize hu : rldLeaves (s.closeTop s.cur .system) s.cur _ = u at hexec kframes kfwd kcseq hclosed
  refine ⟨u.setCore s.cur (u.core s.cur).issued, rldRecord (s.closeTop s.cur .system) s.cur f f1 sz sx d a peer live p, hexec, ?_⟩
  rw [core_setCore_same, issued_frame]
  exact ⟨kframes, kfwd, rfl, rfl, fun j hj => savedRegs_get f live hj, rfl, rfl, rfl, rfl, rfl, kcseq, hbundles, hclosed⟩

end

/-! ### A remote atomic asks its peer -/

section
variable {i : Instr} {regs : List GReg} {wide : Bool} {d a : GReg} {peer : BitVec 5}
  {cmp : Frame → Option Word} {new : Frame → Word} (q : Issues s f fs h false (.g d :: .g a :: regs.map .g) []) (hi : i.hdr? = some h)
  (he : exec i s = remoteAtomic i regs wide d a peer cmp new s)
include q hi he

theorem remoteAtomic_asks {p : PeerRef} (hpen : (s.ctx f.task.ctx).pair.pen = false) (hp : (s.ctx f.task.ctx).peer peer = some p)
    (hcas : (s.core s.cur).casOpen = none) {m : RMsg}
    (hm : s.msgTo s.cur f.task.ctx (BitVec.ofNat 4 f.prio) f.task.id p
      (.atomReq 0 false s.uid seq (f.getG a) (if wide then .d else .w) (cmp f) (new f)) = m) :
    ∃ t, completes s i h t Ret.plain ∧ (t.core s.cur).cseq = (if (cmp f).isSome then (s.core s.cur).cseq else seq) ∧
      (∃ r ∈ (t.core s.cur).reqs, r.id = s.uid ∧ r.kind = .remote p (f.getG a) seq (cmp f).isSome ∧
        r.dst = if d = 0 then none else some (.g d)) ∧
      (∃ b ∈ (t.core s.cur).closed, b.seq = seq ∧ b.scope = .system ∧
        b.lines = [peerLine p (f.getG a) (bytesOf (if wide then 8 else 4) (new f)) none]) ∧
      (s.fabric.way m = .here → t.fabric.outbox = s.fabric.outbox ++ [m]) ∧
      (s.fabric.way m = .fibre → s.fabric.lwstate ≠ 2 → s.fabric.lwstate ≠ 3 →
        t.fabric.queue = s.fabric.queue ++ [{ msg := m, left := msgFlits m, on := none }]) := by
  have hexec := remoteAtomic_completes q hi he hpen hp hcas
  rw [hseq, hm] at hexec
  obtain ⟨kcseq, kreqs, kclosed⟩ := atomicEntered_core s s.cur f d p (f.getG a) (cmp f).isSome (bytesOf (wideBytes wide) (new f))
  have hfabric : (atomicEntered s s.cur f d p (f.getG a) (cmp f).isSome (bytesOf (wideBytes wide) (new f))).fabric = s.fabric := rfl
  rw [hseq] at kcseq kreqs kclosed
  generalize atomicEntered s s.cur f d p (f.getG a) (cmp f).isSome (bytesOf (wideBytes wide) (new f)) = u
    at hexec kcseq kreqs kclosed hfabric
  refine ⟨u.send m, hexec, ?_⟩
  rw [core_of_cores (send_beside u m).cores, ← hfabric]
  exact ⟨kcseq, kreqs, kclosed, send_here, send_dark⟩

end
end

/-- Settles O31: `RLD` closes its bundle and leaves into a record; remote stores and contributions put their lines into the open bundle;
remote atomics enter a request and a bundle of one line; an invalid peer and a paired context trap. -/
theorem remoteInstructions : Obligations.RemoteInstructions := by
  unfold Obligations.RemoteInstructions
  refine ⟨?issue, ?traps⟩
  case issue =>
    intro s f fs h sz sx wide d a b c q lm1 peer live t p x k named preds hp seq
    have hseq : nextSeq (s.core s.cur).cseq = seq := nextSeq_eq _
    refine ⟨?rld, ?rst, ?rfold, ?atomics⟩
    case rld =>
      intro hq hl hclaims hlong hpriv hroom hcas
      exact rld_spec hseq hq hp hl hclaims hlong hpriv hroom hcas
    case rst =>
      intro hpen hq bd hbd
      refine ⟨rst_completes (rel := none) hq rfl rfl hpen hp hbd, ?_⟩
      have hrel := rst_completes (i := .rstRel h sz a b peer t) (rel := some t) hq rfl rfl hpen hp hbd
      unfold rstHolds at hrel
      rw [childPath_eq] at hrel
      exact hrel
    case rfold => exact fun hpen hq hrange hfree bd hbd => rfold_completes hq hpen hp hrange hfree hbd
    case atomics =>
      intro hpen asks
      constructor
      · intro hq
        have he : exec (.rcas h wide d a b c peer) s = remoteAtomic (.rcas h wide d a b c peer) [b, c] wide d a peer
          (fun f => some (f.getG b)) (fun f => f.getG c) s := rfl
        exact ⟨remoteAtomic_waits (regs := [b, c]) hq rfl he hpen hp,
          fun hcas => remoteAtomic_asks hseq (regs := [b, c]) hq rfl he hpen hp hcas rfl⟩
      · intro hq
        have he : exec (.rxchg h wide d a b peer) s = remoteAtomic (.rxchg h wide d a b peer) [b] wide d a peer
          (fun _ => none) (fun f => f.getG b) s := rfl
        exact ⟨remoteAtomic_waits (regs := [b]) hq rfl he hpen hp,
          fun hcas => remoteAtomic_asks hseq (regs := [b]) hq rfl he hpen hp hcas rfl⟩
  case traps =>
    intro s f fs h sz sx wide d a b c q lm1 peer live t x traps
    refine ⟨fun hq => ⟨rld_full hq, fun hroom hp => rld_invalid hq hroom hp⟩, fun hq => ⟨?_, ?_⟩,
      fun hq => rfold_traps hq, fun hq => ?_, fun hq => ?_⟩
    · exact rst_traps (i := .rst h sz a b peer) (rel := none) hq rfl rfl
    · exact rst_traps (i := .rstRel h sz a b peer t) (rel := some t) hq rfl rfl
    · exact remoteAtomic_traps (i := .rcas h wide d a b c peer) (regs := [b, c]) (cmp := fun f => some (f.getG b))
        (new := fun f => f.getG c) hq rfl rfl
    · exact remoteAtomic_traps (i := .rxchg h wide d a b peer) (regs := [b]) (cmp := fun _ => none) (new := fun f => f.getG b) hq rfl rfl

end Sys2Proof.Laws
end
